-- ==== Sys2Proof/Word.lean ====
section
/-!
DEFINITION. The word types of the Hokukai HT7 and the small closed types that commands and state share.
-/

namespace Sys2Proof

/-- One byte of memory (00 R9). -/
abbrev Byte := BitVec 8
/-- A scalar register, a management register, an FP32 bit pattern (08 R178, 17 R372). -/
abbrev W32 := BitVec 32
/-- A handle entry word, a descriptor word, a sync flit (06 R136, 07 R159, 09 R211). -/
abbrev W64 := BitVec 64
/-- An engine word or a staging register (08 R186). -/
abbrev W128 := BitVec 128
/-- A table in sparse form: key and value pairs, keys strictly rising, no entry equal to the default. -/
abbrev Sparse (α : Type) := List (Nat × α)

/-- The two issue contexts of the control core (08, opening). -/
inductive Ctx where
  | c0
  | c1
  deriving DecidableEq, Repr, Inhabited

/-- The engines that hold word queues, numbered as the ENG field numbers them (08 R186). -/
inductive Eng where
  | matrix
  | vector
  | row
  | dma
  | sync
  | starter
  deriving DecidableEq, Repr, Inhabited

/-- The two fabric ports (16 R350). -/
inductive Port where
  | fa
  | fb
  deriving DecidableEq, Repr, Inhabited

/-- The waits that a flag can satisfy (09 R208): an FWAIT, the wait of a queue's head word, an SALL. -/
inductive WaitRef where
  | fwait (c : Ctx)
  | head (e : Eng) (c : Ctx)
  | sall (c : Ctx)
  deriving DecidableEq, Repr, Inhabited

/-- What a gang member meets on its gang links while it starts a gang word (03 R73-R76, 16 R360): `status` is the worst of the other
members' answers on ST (0 ready, 1 refused or mismatched, 2 not ready); `ctl` is the CTL bundle that member (0, 0) drives; `rows` are
the row indices of the waves under a mask; `gw` and `gn` are the bundles of GW_IN_D and GN_IN_D, keyed by transfer (log 14), and
`actExp` the scale exponents of the arriving activations (keyed m * 65536 + 32-index group; 1000 stands for a block scale of 0xFF);
`agree` says that the GANG records of all members agree (10 R232); `down` is the worst answer of the members downstream of this one. -/
structure GangIn where
  status : BitVec 2
  ctl    : BitVec 144
  rows   : List Nat
  gw     : Sparse (BitVec 2048)
  actExp : Sparse Int
  gn     : Sparse (BitVec 4096)
  agree  : Bool
  down   : BitVec 2 := 0
  deriving DecidableEq, Repr, Inhabited

end Sys2Proof
end

