-- ==== Sys2Proof/Syntax.lean ====
section
/-!
DEFINITION. The commands of the block: one constructor per row of spec/opcode_table.json, in its order.
An instruction carries its context and the fields of its 32-bit word (08 R181), an engine word its context and
its 128 bits (08 R186), a flit or frame its bits, a host write its value, an event what its occurrence adds.
-/

namespace Sys2Proof

/-- The commands of the Hokukai HT7 core (opcode_table.json). -/
inductive Instr where
  /-- STEP (R12). One cycle of the step ring completes: each stream port makes one access or idle slot, and the array advances one wave or holds. -/
  | step (hold : Bool) (periods : Nat) (lines : List (Nat × Nat))
  /-- ECC_WRITEBACK (R152). A corrected scratchpad word is written back in the bank's next idle cycle. -/
  | eccWriteback (w : Nat)
  /-- SCRUB (R153). The scrubber reads and corrects a line in an unused bank cycle. -/
  | scrub (bank : Nat)
  /-- ADD (R182). rd = ra + rb. -/
  | add (c : Ctx) (rd ra rb : BitVec 5)
  /-- SUB (R182). rd = ra - rb. -/
  | sub (c : Ctx) (rd ra rb : BitVec 5)
  /-- AND (R182). rd = ra AND rb. -/
  | and (c : Ctx) (rd ra rb : BitVec 5)
  /-- OR (R182). rd = ra OR rb. -/
  | or (c : Ctx) (rd ra rb : BitVec 5)
  /-- XOR (R182). rd = ra XOR rb. -/
  | xor (c : Ctx) (rd ra rb : BitVec 5)
  /-- SLL (R182). Logical shift left by rb mod 32. -/
  | sll (c : Ctx) (rd ra rb : BitVec 5)
  /-- SRL (R182). Logical shift right by rb mod 32. -/
  | srl (c : Ctx) (rd ra rb : BitVec 5)
  /-- SRA (R182). Arithmetic shift right by rb mod 32. -/
  | sra (c : Ctx) (rd ra rb : BitVec 5)
  /-- SLT (R182). Signed set-less-than. -/
  | slt (c : Ctx) (rd ra rb : BitVec 5)
  /-- SLTU (R182). Unsigned set-less-than. -/
  | sltu (c : Ctx) (rd ra rb : BitVec 5)
  /-- MUL (R182). Low 32 bits of ra x rb. -/
  | mul (c : Ctx) (rd ra rb : BitVec 5)
  /-- MULHU (R182). High 32 bits of the unsigned product. -/
  | mulhu (c : Ctx) (rd ra rb : BitVec 5)
  /-- ADDI (R182). rd = ra + sign-extended immediate. -/
  | addi (c : Ctx) (rd ra : BitVec 5) (imm : BitVec 16)
  /-- ANDI (R182). rd = ra AND zero-extended immediate. -/
  | andi (c : Ctx) (rd ra : BitVec 5) (imm : BitVec 16)
  /-- ORI (R182). rd = ra OR zero-extended immediate. -/
  | ori (c : Ctx) (rd ra : BitVec 5) (imm : BitVec 16)
  /-- XORI (R182). rd = ra XOR zero-extended immediate. -/
  | xori (c : Ctx) (rd ra : BitVec 5) (imm : BitVec 16)
  /-- SLTI (R182). Signed compare of ra with the immediate. -/
  | slti (c : Ctx) (rd ra : BitVec 5) (imm : BitVec 16)
  /-- SHI (R182). Shift by an immediate amount, of the kind that IMM[6:5] selects. -/
  | shi (c : Ctx) (rd ra : BitVec 5) (imm : BitVec 16)
  /-- LUI (R182). rd = IMM << 16. -/
  | lui (c : Ctx) (rd : BitVec 5) (imm : BitVec 16)
  /-- LW (R184). Load a 32-bit word from data memory, with range and alignment checks. -/
  | lw (c : Ctx) (rd ra : BitVec 5) (imm : BitVec 16)
  /-- SW (R189). Store a 32-bit word to data memory; stalls on descriptor reservations. -/
  | sw (c : Ctx) (rd ra : BitVec 5) (imm : BitVec 16)
  /-- LDE (R182). Load 16 bytes of data memory into a staging register. -/
  | lde (c : Ctx) (ed : BitVec 3) (ra : BitVec 5) (imm : BitVec 16)
  /-- STE (R189). Store a staging register to 16 bytes of data memory; stalls on reservations. -/
  | ste (c : Ctx) (ed : BitVec 3) (ra : BitVec 5) (imm : BitVec 16)
  /-- BEQ (R182). Branch if equal. -/
  | beq (c : Ctx) (ra rb : BitVec 5) (off : BitVec 16)
  /-- BNE (R182). Branch if not equal. -/
  | bne (c : Ctx) (ra rb : BitVec 5) (off : BitVec 16)
  /-- BLT (R182). Branch if signed less. -/
  | blt (c : Ctx) (ra rb : BitVec 5) (off : BitVec 16)
  /-- BGE (R182). Branch if signed greater or equal. -/
  | bge (c : Ctx) (ra rb : BitVec 5) (off : BitVec 16)
  /-- BLTU (R182). Branch if unsigned less. -/
  | bltu (c : Ctx) (ra rb : BitVec 5) (off : BitVec 16)
  /-- BGEU (R182). Branch if unsigned greater or equal. -/
  | bgeu (c : Ctx) (ra rb : BitVec 5) (off : BitVec 16)
  /-- JAL (R179). Jump relative and write the link, with PC wrap. -/
  | jal (c : Ctx) (rd : BitVec 5) (off : BitVec 21)
  /-- JALR (R179). Jump to a register plus offset and write the link. -/
  | jalr (c : Ctx) (rd ra : BitVec 5) (imm : BitVec 16)
  /-- BCR (R193). Branch if any CR bit selected by MASK is set. -/
  | bcr (c : Ctx) (mask : BitVec 10) (off : BitVec 16)
  /-- CRCLR (R193). Clear the selected CR bits; a set in the same step wins. -/
  | crclr (c : Ctx) (mask : BitVec 10)
  /-- EFLDI (R185). Write a 16-bit immediate into a staging register field. -/
  | efldi (c : Ctx) (ed : BitVec 3) (pos : BitVec 7) (imm : BitVec 16)
  /-- EFLD (R185). Write low bits of a scalar register into a staging register field. -/
  | efld (c : Ctx) (ed : BitVec 3) (pos : BitVec 7) (ra lenm1 : BitVec 5)
  /-- ERD (R182). Read one 32-bit word of a staging register. -/
  | erd (c : Ctx) (rd : BitVec 5) (es : BitVec 3) (k : BitVec 2)
  /-- ISSUE (R186). Push a staged engine word into its engine queue for this context, stalling while the queue is full. -/
  | issue (c : Ctx) (ed : BitVec 3)
  /-- FSET (R206). Set a flag of the core itself. -/
  | fset (c : Ctx) (ra : BitVec 5)
  /-- FCLR (R207). Clear a flag of the core itself, naming a generation. -/
  | fclr (c : Ctx) (ra : BitVec 5)
  /-- FWAIT (R208). Begin waiting until a flag of the core itself is set. -/
  | fwait (c : Ctx) (ra : BitVec 5)
  /-- FRD (R182). Read the state and generation of a flag of the core itself. -/
  | frd (c : Ctx) (rd ra : BitVec 5)
  /-- HALLOC (R191). Allocate a handle entry. -/
  | halloc (c : Ctx) (rd ra rb : BitVec 5)
  /-- HFREE (R191). Free a handle entry. -/
  | hfree (c : Ctx) (rd ra rb : BitVec 5)
  /-- HREBASE (R191). Rebase a handle onto a donor handle's pages. -/
  | hrebase (c : Ctx) (rd ra rb : BitVec 5)
  /-- HFLAGS (R191). Replace a handle's WP, WIN and SP flags. -/
  | hflags (c : Ctx) (rd ra rb : BitVec 5)
  /-- HDRAIN (R191). Return pages of a handle to state EMPTY in checked mode. -/
  | hdrain (c : Ctx) (rd ra rb : BitVec 5)
  /-- HRD (R191). Read the current name of a handle index. -/
  | hrd (c : Ctx) (rd ra rb : BitVec 5)
  /-- SRD (R194). Read a special register. -/
  | srd (c : Ctx) (rd : BitVec 5) (num : BitVec 12)
  /-- SFENCE (R196). Set fence: wait for a pending set swap to be admitted or refused. -/
  | sfence (c : Ctx)
  /-- SNAPF (R283). Snapshot fence: judge whether a full snapshot or a P record is due, and wait for it. -/
  | snapf (c : Ctx) (ra : BitVec 5)
  /-- LFENCE (R273). Layout fence: wait for a pending layout swap, with ORC 0. -/
  | lfence (c : Ctx)
  /-- HALT (R182). The context enters HALTED. -/
  | halt (c : Ctx)
  /-- CSTART (R195). C0 starts C1 at a given instruction. -/
  | cstart (c : Ctx) (ra : BitVec 5)
  /-- FW_ILLEGAL (R183). An instruction with an illegal encoding has no effect and raises FW_ILLEGAL. -/
  | fwIllegal (c : Ctx) (w : BitVec 32)
  /-- FW_PC_RANGE (R179). A fetch beyond the loaded image raises FW_PC_RANGE. -/
  | fwPcRange (c : Ctx)
  /-- WAIT_SATISFIED (R208). A pending wait (FWAIT, head word or SALL) on a flag is satisfied once the flag is set. -/
  | waitSatisfied (w : WaitRef)
  /-- WORD_COMPLETE (R20). An engine word's last write completes, and its completion flag is set. -/
  | wordComplete (id : Nat)
  /-- MNOP (R65). Matrix no-op: wait and completion set only. -/
  | mnop (c : Ctx) (w : W128)
  /-- MSET (R66). Write a matrix operand slot of the issuing context. -/
  | mset (c : Ctx) (w : W128)
  /-- MMA (R57). Start a matrix product of a logical tile, folded onto the array or gang. -/
  | mma (c : Ctx) (w : W128) (g : GangIn)
  /-- MDRAIN (R69). Cast accumulator rows into the scratchpad. -/
  | mdrain (c : Ctx) (w : W128)
  /-- MZERO (R70). Set accumulator rows to +0. -/
  | mzero (c : Ctx) (w : W128)
  /-- MMA6 (R77). Run an HT6-shape 64 x 64 x 64 product. -/
  | mma6 (c : Ctx) (w : W128) (g : GangIn)
  /-- VNOP (R89). Vector no-op. -/
  | vnop (c : Ctx) (w : W128)
  /-- VADD (R92). Element-wise a + b. -/
  | vadd (c : Ctx) (w : W128)
  /-- VSUB (R92). Element-wise a - b. -/
  | vsub (c : Ctx) (w : W128)
  /-- VMUL (R92). Element-wise a x b. -/
  | vmul (c : Ctx) (w : W128)
  /-- VFMA (R92). Element-wise a x b + c with one rounding. -/
  | vfma (c : Ctx) (w : W128)
  /-- VMIN (R92). Element-wise minimum. -/
  | vmin (c : Ctx) (w : W128)
  /-- VMAX (R92). Element-wise maximum. -/
  | vmax (c : Ctx) (w : W128)
  /-- VABS (R92). Element-wise absolute value. -/
  | vabs (c : Ctx) (w : W128)
  /-- VNEG (R92). Element-wise negation. -/
  | vneg (c : Ctx) (w : W128)
  /-- VSQRT (R93). Element-wise square root. -/
  | vsqrt (c : Ctx) (w : W128)
  /-- VRCP (R93). Element-wise reciprocal. -/
  | vrcp (c : Ctx) (w : W128)
  /-- VRSQRT (R93). Element-wise reciprocal square root. -/
  | vrsqrt (c : Ctx) (w : W128)
  /-- VEXP2 (R93). Element-wise 2^a, rounded to 22 bits. -/
  | vexp2 (c : Ctx) (w : W128)
  /-- VLOG2 (R93). Element-wise log2 a, rounded to 22 bits. -/
  | vlog2 (c : Ctx) (w : W128)
  /-- VAND (R89). Bitwise AND. -/
  | vand (c : Ctx) (w : W128)
  /-- VOR (R89). Bitwise OR. -/
  | vor (c : Ctx) (w : W128)
  /-- VXOR (R89). Bitwise XOR. -/
  | vxor (c : Ctx) (w : W128)
  /-- VSHL (R89). Shift left by b mod 32. -/
  | vshl (c : Ctx) (w : W128)
  /-- VSHR (R89). Logical shift right. -/
  | vshr (c : Ctx) (w : W128)
  /-- VSRA (R89). Arithmetic shift right. -/
  | vsra (c : Ctx) (w : W128)
  /-- VCMP (R94). Compare into a mask register. -/
  | vcmp (c : Ctx) (w : W128)
  /-- VSEL (R94). Select by mask. -/
  | vsel (c : Ctx) (w : W128)
  /-- MLOGIC (R94). Mask register logic. -/
  | mlogic (c : Ctx) (w : W128)
  /-- VSLIDE (R94). Shift elements by a signed amount with fill. -/
  | vslide (c : Ctx) (w : W128)
  /-- VIOTA (R94). d[i] = scalar + i. -/
  | viota (c : Ctx) (w : W128)
  /-- VCOMPRESS (R94). Pack active elements to the front. -/
  | vcompress (c : Ctx) (w : W128)
  /-- VSPLAT (R94). d[i] = scalar. -/
  | vsplat (c : Ctx) (w : W128)
  /-- VRED (R95). Reduction in the lane-order pairwise tree. -/
  | vred (c : Ctx) (w : W128)
  /-- VSCAN (R97). Prefix sum, plain or segmented. -/
  | vscan (c : Ctx) (w : W128)
  /-- VCVT (R98). Conversion with a fixed scale. -/
  | vcvt (c : Ctx) (w : W128)
  /-- VCAST (R99). Cast through a scale tracker, writing the dequantisation scale code. -/
  | vcast (c : Ctx) (w : W128)
  /-- VMXE (R100). MX block encode. -/
  | vmxe (c : Ctx) (w : W128)
  /-- VMXD (R100). MX block decode. -/
  | vmxd (c : Ctx) (w : W128)
  /-- VTRK_READ (R101). Write a tracker's state image into a vector register. -/
  | vtrkRead (c : Ctx) (w : W128)
  /-- VTRK_WRITE (R101). Set a tracker's FMT, MARGIN and SINIT. -/
  | vtrkWrite (c : Ctx) (w : W128)
  /-- VTRK_RESET (R101). Reset a tracker to its reset values. -/
  | vtrkReset (c : Ctx) (w : W128)
  /-- VTRK_ADVANCE (R50). Advance a tracker: compute the proposal, move the period and clear the new entry. -/
  | vtrkAdvance (c : Ctx) (w : W128)
  /-- VRAND (R103). Philox random numbers per element. -/
  | vrand (c : Ctx) (w : W128)
  /-- VLOAD (R104). Contiguous load from the scratchpad. -/
  | vload (c : Ctx) (w : W128)
  /-- VSTORE (R104). Contiguous store or accumulate-write to the scratchpad. -/
  | vstore (c : Ctx) (w : W128)
  /-- VGATHER (R105). Indexed row-segment gather. -/
  | vgather (c : Ctx) (w : W128)
  /-- VSCATTER (R105). Indexed row-segment scatter or accumulate-write. -/
  | vscatter (c : Ctx) (w : W128)
  /-- VACC (R106). Read accumulator rows into a vector register. -/
  | vacc (c : Ctx) (w : W128)
  /-- VSTAT (R107). Read and optionally clear VSTATUS. -/
  | vstat (c : Ctx) (w : W128)
  /-- RNOP (R120). Row engine no-op. -/
  | rnop (c : Ctx) (w : W128)
  /-- LNF (R113). Layer normalisation forward over rows. -/
  | lnf (c : Ctx) (w : W128)
  /-- RMSF (R113). RMS normalisation forward over rows. -/
  | rmsf (c : Ctx) (w : W128)
  /-- SMF (R113). Softmax forward over rows. -/
  | smf (c : Ctx) (w : W128)
  /-- RSET (R121). Write a row-engine operand slot. -/
  | rset (c : Ctx) (w : W128)
  /-- LNB (R115). Layer normalisation backward. -/
  | lnb (c : Ctx) (w : W128)
  /-- RMSB (R115). RMS normalisation backward. -/
  | rmsb (c : Ctx) (w : W128)
  /-- SMB (R115). Softmax backward. -/
  | smb (c : Ctx) (w : W128)
  /-- RSAVE (R124). Copy stat records to the scratchpad. -/
  | rsave (c : Ctx) (w : W128)
  /-- RLOAD (R124). Copy stat records from the scratchpad to the stat store. -/
  | rload (c : Ctx) (w : W128)
  /-- ROW_DONE (R110). A row unit completes a row and takes the next waiting row. -/
  | rowDone (u : Nat)
  /-- DNOP (R156). DMA no-op. -/
  | dnop (c : Ctx) (w : W128)
  /-- DXFER (R161). Start the transfer that a descriptor describes, after its checks. -/
  | dxfer (c : Ctx) (w : W128)
  /-- DWOPEN (R175). Open a window of a handle of this core. -/
  | dwopen (c : Ctx) (w : W128)
  /-- DWCLOSE (R175). Close a window and advance WGEN; discard its incoming-transfer entries. -/
  | dwclose (c : Ctx) (w : W128)
  /-- STK_RD_SEND (R166). A channel offers a stack read request flit on its fabric port. -/
  | stkRdSend (ch : BitVec 2) (starter : Bool) (idx : BitVec 9)
  /-- STK_WR_SEND (R166). A channel or the Starter engine offers a stack write flit. -/
  | stkWrSend (ch : BitVec 2) (starter : Bool) (idx : BitVec 9)
  /-- WIN_WR_SEND (R166). A channel offers a window-write flit carrying generations and epoch. -/
  | winWrSend (ch : BitVec 2) (idx : BitVec 9)
  /-- STK_RD_RSP (R166). A stack read response arrives and its data is written. -/
  | stkRdRsp (p : Port) (route : BitVec 48) (hdr : BitVec 128) (data : BitVec 512)
  /-- STK_WR_ACK (R166). A stack write acknowledgement arrives. -/
  | stkWrAck (p : Port) (route : BitVec 48) (hdr : BitVec 128) (data : BitVec 512)
  /-- WIN_ACK (R169). A window-write acknowledgement arrives; DROPPED or REFUSED ends the transfer. -/
  | winAck (p : Port) (route : BitVec 48) (hdr : BitVec 128) (data : BitVec 512)
  /-- NACK (R169). A NACK ends the transfer with LINK_UNCORRECTABLE. -/
  | nack (p : Port) (route : BitVec 48) (hdr : BitVec 128) (data : BitVec 512)
  /-- FABRIC_FLIT_DISCARD (R356). A flit of reserved KIND or one that answers no outstanding request is discarded. -/
  | fabricFlitDiscard (p : Port) (route : BitVec 48) (hdr : BitVec 128) (data : BitVec 512)
  /-- WIN_WR_RECEIVE (R176). An arriving window-write flit is checked and written or dropped. -/
  | winWrReceive (p : Port) (route : BitVec 48) (hdr : BitVec 128) (data : BitVec 512)
  /-- WIN_ACK_SEND (R176). The owner sends the acknowledgement of a window-write flit after its write. -/
  | winAckSend (p : Port)
  /-- SNOP (R214). Sync no-op. -/
  | snop (c : Ctx) (w : W128)
  /-- SRSET (R215). Send one remote SET flit; complete when SYNC_OUT accepts it. -/
  | srset (c : Ctx) (w : W128)
  /-- SALL (R216). Wait until every flag of a range is set, then optionally clear them. -/
  | sall (c : Ctx) (w : W128)
  /-- SET_FLIT (R212). An arriving remote SET flit is checked and applies or is discarded. -/
  | setFlit (f : W64)
  /-- LOST_FLIT (R221). A LOST flit marks flags LOST, raises OWNER_LOST and releases waits on them. -/
  | lostFlit (f : W64)
  /-- PARK_FLIT (R222). A PARK flit marks the sender's flags PARKED. -/
  | parkFlit (f : W64)
  /-- UNPARK_FLIT (R222). An UNPARK flit clears PARKED marks. -/
  | unparkFlit (f : W64)
  /-- STEP_START_FLIT (R260). An arriving STEP_START is checked and held pending or refused with STEP_SKEW. -/
  | stepStartFlit (f : W64)
  /-- STEP_MISMATCH_FLIT (R260). An arriving STEP_MISMATCH records PEER_STEP_SKEW. -/
  | stepMismatchFlit (f : W64)
  /-- STEP_START_SEND (R259). The leader sends STEP_START for the next training step once a request and a VALID buffer are held. -/
  | stepStartSend
  /-- STEP_ADMIT (R261). The sequencer admits the next training step: STEP_NUM, buffer in force, gate flag. -/
  | stepAdmit
  /-- TNOP (R296). Starter no-op. -/
  | tnop (c : Ctx) (w : W128)
  /-- SFOLD (R297). Continue the digest register over bytes of a handle. -/
  | sfold (c : Ctx) (w : W128)
  /-- SSEAL (R298). Latch and clear the digest; seal, compare on replay, or leave the slot. -/
  | sseal (c : Ctx) (w : W128)
  /-- SET_SWAP (R250). At quiescence or the next boundary, stage-two checks run and a pending swap takes effect or is rejected. -/
  | setSwap
  /-- SNAPSHOT_CAPTURE (R284). At quiescent boundary B, the class S state is sampled, planned pages are protected and the slot is opened. -/
  | snapshotCapture
  /-- CAPTURE_COMPLETE (R284). At B + 40 the capture image is buffered and both fences complete. -/
  | captureComplete
  /-- P_RECORD_SAMPLE (R285). The P record is sampled when both contexts are in the fence. -/
  | pRecordSample
  /-- COPY_PAGE (R288). The Starter engine reads a protected page; its protection lifts and held writes proceed. -/
  | copyPage
  /-- RESTORE_LOAD (R300). The Starter engine finishes reading the slot; the restore is checked and loaded or refused. -/
  | restoreLoad
  /-- LOCAL_DEADLOCK (R224). The deadlock window expires; the core records it, ends fabric-stalled words and may release waits. -/
  | localDeadlock
  /-- REST_EXPIRY (R319). The Rest timer expires and clears every signal part. -/
  | restExpiry
  /-- LEND_OFFER (R226). The lending threshold passes, or a wait is parked, and the core raises PM_LEND. -/
  | lendOffer
  /-- STEP_RATE_WINDOW (R384). A measurement window closes and STEP_RATE is updated. -/
  | stepRateWindow (nominal : BitVec 24)
  /-- ACTIVITY_UPDATE (R364). Every 64 steps the activity target is computed, and the output moves one code every 4 steps. -/
  | activityUpdate
  /-- BUDGET_SAMPLE (R365). Every 16 steps PM_BUDGET is sampled and adopted after three agreeing samples. -/
  | budgetSample (code : Byte)
  /-- TBASE_LOST (R325). No TBASE edge for 65,536 steps; recorded and timers stand still. -/
  | tbaseLost
  /-- WIRE (R307). A reporting pair reads invalid at two consecutive boundaries and is ignored. -/
  | wire (r : BitVec 4)
  /-- PM_RISE_REQ (R81). A Rise is required; the core withdraws any lending offer and raises PM_RISE_REQ. -/
  | pmRiseReq
  /-- PM_RISE_GNT (R366). The grant is resolved and the Rise's first wave starts. -/
  | pmRiseGnt
  /-- FILLER_STOP (R80). After L nominal periods of a hold the soft-freeze filler stops. -/
  | fillerStop
  /-- RST_N_ASSERT (R344). RST_N asserted: full reset begins and the core enters INIT. -/
  | rstNAssert (req : List Byte)
  /-- RST_N_RELEASE (R340). RST_N released: identity is sampled and self-initialisation starts. -/
  | rstNRelease (die : BitVec 48) (inst : BitVec 16) (pwr : Byte)
  /-- SELF_INIT_COMPLETE (R345). Self-initialisation ends and the core enters UNADDRESSED. -/
  | selfInitComplete
  /-- SUPPLY_CHANGE (R15). VCORE or VMEM changes within range and the step rate follows. -/
  | supplyChange (vcore vmem : Nat)
  /-- SUPPLY_LOSS (R370). A supply falls below its keep-state level and all core state is lost. -/
  | supplyLoss (vcore vmem : Nat)
  /-- FIN_ALARM (R308). The surroundings' alarm pair reads (1,0) and FIN_ALARM is recorded. -/
  | finAlarm
  /-- LINK_DOWN (R324). FA_LINKDOWN or FB_LINKDOWN asserts; LINK_DOWN_A or LINK_DOWN_B is recorded and the port stops. -/
  | linkDown (p : Port)
  /-- LINKDOWN_DEASSERT (R324). The link-down level deasserts and the port resumes. -/
  | linkdownDeassert (p : Port)
  /-- RD (R333). An addressed chain read is consumed and answered with the data. -/
  | rd (f : List Byte)
  /-- WR (R334). An addressed chain write is applied between two steps and answered. -/
  | wr (f : List Byte)
  /-- WR_BROADCAST (R336). A broadcast write is forwarded cut-through and applied by each addressed core. -/
  | wrBroadcast (f : List Byte)
  /-- ENUM (R338). An enumeration frame addresses an unaddressed core and is forwarded. -/
  | enum (f : List Byte)
  /-- FRAME_FORWARD (R328). A frame not consumed by the core is forwarded on MC_OUT. -/
  | frameForward (syms : List (BitVec 9))
  /-- REGISTER_WRITE (R10). A host write to a register with no row of its own acts under its access code. -/
  | registerWrite (a : BitVec 24) (v : W32)
  /-- GO (R347). Start or resume the core, or replay after a restore. -/
  | go
  /-- PARK (R348). Park the core at a step boundary and send a PARK flit. -/
  | park
  /-- UNPARK (R348). Resume a parked core and send an UNPARK flit. -/
  | unpark
  /-- CRST (R178). Context reset of C0 or C1. -/
  | crst (c : Ctx)
  /-- LOAD (R203). Start a firmware download: zero both memories. -/
  | load
  /-- FW_ZERO_COMPLETE (R203). Zeroing ends and held image writes are taken. -/
  | fwZeroComplete
  /-- IMEM_WINDOW_WRITE (R203). Image bytes arrive through the instruction memory window and are checked. -/
  | imemWindowWrite (off : Nat) (bs : List Byte)
  /-- DMEM_WINDOW_WRITE (R390). A host write to data memory through its window. -/
  | dmemWindowWrite (off : Nat) (bs : List Byte)
  /-- SPAD_WINDOW_WRITE (R151). A host write through the scratchpad page window. -/
  | spadWindowWrite (off : Nat) (bs : List Byte)
  /-- BEGIN (R245). Clear the Proof set and enter LOADING. -/
  | begin
  /-- SWAP (R249). Make a VALID Proof set's swap pending. -/
  | swap
  /-- CANCEL (R251). Return a pending Proof set to VALID. -/
  | cancel
  /-- PROOF_WINDOW_WRITE (R246). Stream bytes arrive in the Proof set and records are checked. -/
  | proofWindowWrite (off : Nat) (bs : List Byte)
  /-- PROOF_CHECK_DONE (R248). Checking after END completes; the Proof set becomes VALID or INVALID. -/
  | proofCheckDone
  /-- SETCMD (R218). Host sets a flag through the flag window. -/
  | setcmd (f : BitVec 10)
  /-- CLRCMD (R218). Host clears a flag, naming a generation. -/
  | clrcmd (f : BitVec 10) (g : BitVec 4)
  /-- LOSTCLR (R218). Host clears a flag's LOST and PARKED marks. -/
  | lostclr (f : BitVec 10)
  /-- HANDLE_WINDOW_WRITE (R388). Host write of handle entries acts as Allocate or Free. -/
  | handleWindowWrite (off : Nat) (ws : List W32)
  /-- STEP_PARAM_WRITE (R255). Host writes a word of a FREE step parameter buffer. -/
  | stepParamWrite (b : Bool) (n : BitVec 4) (v : W32)
  /-- STEP_PARAM_VALID (R255). VALID_A or VALID_B makes a checked buffer VALID. -/
  | stepParamValid (b : Bool) (v : W32)
  /-- STEP_PARAM_WITHDRAW (R255). WITHDRAW_A or WITHDRAW_B returns a VALID buffer to FREE. -/
  | stepParamWithdraw (b : Bool) (v : W32)
  /-- STEP_NUM_LO_WRITE (R256). Host write of STEP_NUM's low word into the staging register. -/
  | stepNumLoWrite (v : W32)
  /-- STEP_NUM_HI_WRITE (R256). Host write of STEP_NUM's high word sets STEP_NUM and discards a pending STEP flit. -/
  | stepNumHiWrite (v : W32)
  /-- REL_CONTEXT (R316). REL_C0 or REL_C1 releases one context's hold. -/
  | relContext (c : Ctx)
  /-- REL_CORE (R316). Release the core hold. -/
  | relCore
  /-- FLT_WIRE_CLEAR (R307). Clearing a FLT_WIRE bit resumes sampling of that reporter's pair. -/
  | fltWireClear (m : BitVec 16)
  /-- FORCE (R283). Make the next SNAPF take a full snapshot. -/
  | force (v : W32)
  /-- RESTORE (R299). Start a restore from the selected slot. -/
  | restore (v : W32)
  /-- CLEAR (R386). Set every performance counter to zero. -/
  | clear (stop : Bool)
  /-- WS_BYPASS (R368). Wrapper bypass; functional operation unaffected. `code` is 0x00 or a code that acts as it; `wsi` are the bits shifted in. -/
  | wsBypass (code : Byte := 0) (wsi : List Bool := [])
  /-- WS_EXTEST (R368). Boundary register drives outputs and captures inputs, which stand at `pins`. -/
  | wsExtest (pins : Nat := 0) (wsi : List Bool := [])
  /-- WS_PRELOAD (R368). Load the boundary register without driving outputs. -/
  | wsPreload (wsi : List Bool := [])
  /-- WS_INTEST_SCAN (R368). Logic-tier latches form scan chains clocked by WRCK. -/
  | wsIntestScan (wsi : List Bool := [])
  /-- WS_CLAMP (R368). Outputs hold their boundary values. -/
  | wsClamp (wsi : List Bool := [])
  /-- WS_SAFE (R368). All handshake and PM outputs low, FAULT at (0,1). -/
  | wsSafe (wsi : List Bool := [])
  /-- WT_MBIST (R368). March test of the banks, check bits and bond sites. -/
  | wtMbist
  /-- WT_LBIST (R368). Self-test of the accumulator, stat store and memories. -/
  | wtLbist
  /-- WT_RING (R368). The step ring runs free for 2^20 steps, counting WRCK periods. -/
  | wtRing
  /-- WT_RESULT (R368). Select the 64-bit result register. -/
  | wtResult (wsi : List Bool := [])
  /-- TEST_DONE (R368). A built-in test completes and sets DONE and PASS. -/
  | testDone (pass : Bool) (bank : BitVec 6) (words : BitVec 24) (wrck : W32)
  /-- WRSTN_LOW (R368). WRSTN low loads WS_BYPASS into the WIR. -/
  | wrstnLow
  /-- ERR_TYPE (R333). A request of reserved TYPE addressed to the core is consumed and answered with STATUS ERR_TYPE and no effect. -/
  | errType (f : List Byte)
  /-- TBASE_RETURN (R325). TBASE edges return after a loss, and the Rest timer, deadlock window and lending threshold resume counting. -/
  | tbaseReturn
  /-- FIN_QUIET (R308). FIN_T/FIN_F return from (1,0) to (0,1) and the surroundings' alarm ends, so releases no longer re-record FIN_ALARM. -/
  | finQuiet
  /-- PM_RISE_GNT_LOWER (R366). The power manager lowers PM_RISE_GNT, completing the Rise handshake so that a new Rise request may be raised. -/
  | pmRiseGntLower
  /-- SUPPLY_UP (R328). VCORE (and VMEM) come back within range after a loss, and the core resumes forwarding chain symbols while it awaits the release of RST_N. -/
  | supplyUp (vcore vmem : Nat)
  deriving DecidableEq, Repr

end Sys2Proof
end

