-- ==== Sys2Proof/Decode.lean ====
section
/-!
DEFINITION. Decoding of table words. No row of spec/opcode_table.json gives bits: a command of this block is no word, and its
operands come with it.
-/

namespace Sys2Proof

/-- The command that a word spells by the table's bits: the table gives none. -/
def decodeTableWord (_nbits _w : Nat) : Option Instr := none

end Sys2Proof
end

