-- ==== Sys2Proof/Machine/Bits.lean ====
section
/-!
DEFINITION. Bit fields, little-endian byte order (00 R9) and the three CRCs of the manual (08 R202, 13 R294, 15 R330).
-/

namespace Sys2Proof.Machine

/-- The field of `len` bits of `w` from bit `lo` upward, as a number. -/
def fld {n : Nat} (w : BitVec n) (lo len : Nat) : Nat := (w.toNat >>> lo) % 2 ^ len

/-- Bit `i` of `w`. -/
def bit {n : Nat} (w : BitVec n) (i : Nat) : Bool := w.getLsbD i

/-- `w` with the field of `len` bits from `lo` upward replaced by the low bits of `v`. -/
def setFld {n : Nat} (w : BitVec n) (lo len : Nat) (v : Nat) : BitVec n :=
  let m : BitVec n := BitVec.ofNat n ((2 ^ len - 1) <<< lo)
  (w &&& ~~~m) ||| (BitVec.ofNat n (v <<< lo) &&& m)

/-- `w` with bit `i` set or cleared. -/
def setBit {n : Nat} (w : BitVec n) (i : Nat) (b : Bool) : BitVec n :=
  setFld w i 1 (if b then 1 else 0)

/-- A flag as a number. -/
def b2n (b : Bool) : Nat := if b then 1 else 0

/-- The signed value of the low `n` bits of a number. -/
def signed (n : Nat) (v : Nat) : Int := (BitVec.ofNat n v).toInt

/-- The low byte of a number. -/
def byteOf (v : Nat) : Byte := BitVec.ofNat 8 v

/-- `n` bytes of a number, least significant first (00 R9). -/
def toLE : Nat → Nat → List Byte
  | 0, _ => []
  | n + 1, v => byteOf v :: toLE n (v >>> 8)

/-- The number that bytes hold, least significant first (00 R9). -/
def ofLE : List Byte → Nat
  | [] => 0
  | b :: bs => b.toNat + ofLE bs * 256

/-- Bytes `i` to `i + n - 1` of a list; bytes beyond its end read zero. -/
def bytesAt (bs : List Byte) (i n : Nat) : List Byte :=
  let part := (bs.drop i).take n
  part ++ List.replicate (n - part.length) 0

/-- The little-endian number of `n` bytes at `i` of a list. -/
def leAt (bs : List Byte) (i n : Nat) : Nat := ofLE (bytesAt bs i n)

/-- One step of a non-reflected CRC register of width `n` over the bits of one byte. -/
def crcMsbByte (n : Nat) (poly : BitVec n) : Nat → BitVec n → BitVec n
  | 0, r => r
  | k + 1, r =>
    crcMsbByte n poly k (if bit r (n - 1) then (r <<< 1) ^^^ poly else r <<< 1)

/-- A non-reflected CRC of width `n` continued over bytes. -/
def crcMsb (n : Nat) (poly : BitVec n) : BitVec n → List Byte → BitVec n
  | r, [] => r
  | r, b :: bs => crcMsb n poly (crcMsbByte n poly 8 (r ^^^ BitVec.ofNat n (b.toNat <<< (n - 8)))) bs

/-- One step of a reflected 32-bit CRC register over the bits of one byte. -/
def crcLsbByte (poly : W32) : Nat → W32 → W32
  | 0, r => r
  | k + 1, r => crcLsbByte poly k (if bit r 0 then (r >>> 1) ^^^ poly else r >>> 1)

/-- A reflected 32-bit CRC continued over bytes. -/
def crcLsb (poly : W32) : W32 → List Byte → W32
  | r, [] => r
  | r, b :: bs => crcLsb poly (crcLsbByte poly 8 (r ^^^ BitVec.ofNat 32 b.toNat)) bs

/-- CRC-16/CCITT of chain frames (15 R330). -/
def crc16 (bs : List Byte) : BitVec 16 := crcMsb 16 0x1021 0xFFFF bs

/-- CRC-32C of firmware images and Irash streams (08 R202): polynomial 0x1EDC_6F41, reflected. -/
def crc32c (bs : List Byte) : W32 := ~~~ crcLsb 0x82F63B78 0xFFFFFFFF bs

/-- CRC-64/ECMA-182 continued over bytes (13 R294, R297). -/
def crc64From (r : W64) (bs : List Byte) : W64 := crcMsb 64 0x42F0E1EBA9EA3693 r bs

/-- CRC-64/ECMA-182 of bytes (13 R294). -/
def crc64 (bs : List Byte) : W64 := crc64From 0 bs

end Sys2Proof.Machine
end

