-- ==== Sys2Proof/Machine/Num.lean ====
section
/-!
DEFINITION. Exact values, the floating-point formats of 02 R34, the one rounding of 02 R38, and the arithmetic that the
engines share: sums, products and fused sums rounded once (03 R58), roots, reciprocals, 2^a and log2 a (04 R93).
-/

namespace Sys2Proof.Machine

/-- A value as the formats hold it (02 R34): NaN, an infinity, or plus or minus `m * 2^e` with both zeros. -/
inductive Num where
  | nan
  | inf (neg : Bool)
  | fin (neg : Bool) (m : Nat) (e : Int)
  deriving DecidableEq, Repr

/-- A floating-point format (02 R34). `top` says what the all-ones exponent holds: 0 infinity and NaN, 1 finite values but
for the NaN of all-ones mantissa (E4M3), 2 finite values only. -/
structure FpFmt where
  ebits : Nat
  mbits : Nat
  bias  : Nat
  top   : Nat
  deriving DecidableEq, Repr

def fp32f : FpFmt := { ebits := 8, mbits := 23, bias := 127, top := 0 }
def bf16f : FpFmt := { ebits := 8, mbits := 7, bias := 127, top := 0 }
def fp16f : FpFmt := { ebits := 5, mbits := 10, bias := 15, top := 0 }
def e4m3f : FpFmt := { ebits := 4, mbits := 3, bias := 7, top := 1 }
def e5m2f : FpFmt := { ebits := 5, mbits := 2, bias := 15, top := 0 }
def e3m2f : FpFmt := { ebits := 3, mbits := 2, bias := 3, top := 2 }
def e2m3f : FpFmt := { ebits := 2, mbits := 3, bias := 1, top := 2 }
def e2m1f : FpFmt := { ebits := 2, mbits := 1, bias := 1, top := 2 }

/-- The value of a code of a floating-point format (02 R34). -/
def decodeFp (f : FpFmt) (code : Nat) : Num :=
  let m := code % 2 ^ f.mbits
  let e := (code >>> f.mbits) % 2 ^ f.ebits
  let neg := (code >>> (f.mbits + f.ebits)) % 2 = 1
  if f.top = 0 && e = 2 ^ f.ebits - 1 then (if m = 0 then .inf neg else .nan)
  else if f.top = 1 && e = 2 ^ f.ebits - 1 && m = 2 ^ f.mbits - 1 then .nan
  else if e = 0 then .fin neg m (1 - (f.bias : Int) - f.mbits)
  else .fin neg (2 ^ f.mbits + m) ((e : Int) - f.bias - f.mbits)

/-- The largest finite code of a format, sign apart (02 R34). -/
def maxMag (f : FpFmt) : Nat :=
  if f.top = 0 then (2 ^ f.ebits - 1) * 2 ^ f.mbits - 1
  else if f.top = 1 then 2 ^ (f.ebits + f.mbits) - 2
  else 2 ^ (f.ebits + f.mbits) - 1

/-- `m / 2^d` rounded to nearest, ties to even; `st` says that the true value lies a little above `m`. -/
def rneShift (m d : Nat) (st : Bool) : Nat :=
  if d = 0 then m
  else
    let q := m >>> d
    let r := m % 2 ^ d
    let h := 2 ^ (d - 1)
    if r > h || (r = h && (st || q % 2 = 1)) then q + 1 else q

/-- `m * 2^e` rounded to `p` significant bits with no quantum below `2^qmin` and no upper bound (02 R38 step 3): the
multiple and its exponent. -/
def roundP (p : Nat) (qmin : Int) (m : Nat) (e : Int) (st : Bool) : Nat × Int :=
  let q : Int := max (e + Nat.log2 m - (p - 1 : Nat)) qmin
  if q ≤ e then (m <<< (e - q).toNat, q) else (rneShift m (q - e).toNat st, q)

/-- The code, sign apart and without an upper bound, of `n * 2^q` in a format, where `n` has at most `mbits + 1` bits or is
the next power of two. -/
def magCode (f : FpFmt) (n : Nat) (q : Int) : Nat :=
  let (n, q) := if n ≥ 2 ^ (f.mbits + 1) then (n / 2, q + 1) else (n, q)
  if n < 2 ^ f.mbits then n
  else (q + f.mbits + f.bias).toNat * 2 ^ f.mbits + (n - 2 ^ f.mbits)

/-- The smallest quantum of a format as a power of two. -/
def qminOf (f : FpFmt) : Int := 1 - (f.bias : Int) - f.mbits

/-- A magnitude rounded once to a format: its code without an upper bound. -/
def roundMag (f : FpFmt) (m : Nat) (e : Int) (st : Bool) : Nat :=
  if m = 0 then 0
  else
    let (n, q) := roundP (f.mbits + 1) (qminOf f) m e st
    magCode f n q

/-- The sign bit of a format. -/
def signOf (f : FpFmt) (neg : Bool) : Nat := if neg then 2 ^ (f.ebits + f.mbits) else 0

/-- The canonical NaN of a format (02 R35). -/
def nanCode (f : FpFmt) : Nat :=
  if f.top = 1 then 2 ^ (f.ebits + f.mbits) - 1
  else (2 ^ f.ebits - 1) * 2 ^ f.mbits + 2 ^ (f.mbits - 1)

/-- The infinity code of a format, sign apart. -/
def infMag (f : FpFmt) : Nat := (2 ^ f.ebits - 1) * 2 ^ f.mbits

/-- One rounding to a format with infinities, overflow to an infinity (02 R38, R39). -/
def roundIeee (f : FpFmt) (x : Num) (st : Bool) : Nat :=
  match x with
  | .nan => nanCode f
  | .inf neg => signOf f neg + infMag f
  | .fin neg m e =>
    let c := roundMag f m e st
    signOf f neg + (if c > maxMag f then infMag f else c)

/-- The value of an FP32 bit pattern. -/
def dec32 (w : W32) : Num := decodeFp fp32f w.toNat

/-- rne32: one rounding to FP32 (03 R57). -/
def rne32 (x : Num) : W32 := BitVec.ofNat 32 (roundIeee fp32f x false)

/-- One rounding to BF16. -/
def rneBf16 (x : Num) : BitVec 16 := BitVec.ofNat 16 (roundIeee bf16f x false)

/-- Is the value a zero of either sign? -/
def Num.isZero : Num → Bool
  | .fin _ m _ => m = 0
  | _ => false

/-- Negation of a value; a NaN stays a NaN. -/
def Num.neg : Num → Num
  | .nan => .nan
  | .inf n => .inf (!n)
  | .fin n m e => .fin (!n) m e

/-- The exact product (03 R58): an infinity times a zero is NaN. -/
def mulN (a b : Num) : Num :=
  match a, b with
  | .nan, _ => .nan
  | _, .nan => .nan
  | .inf n, .inf k => .inf (n != k)
  | .inf n, .fin k m _ => if m = 0 then .nan else .inf (n != k)
  | .fin k m _, .inf n => if m = 0 then .nan else .inf (n != k)
  | .fin n m e, .fin k l d => .fin (n != k) (m * l) (e + d)

/-- A signed integer times a power of two. -/
def ofIntE (v : Int) (e : Int) : Num := .fin (v < 0) v.natAbs e

/-- The signed integer of `m * 2^e` at the finer exponent `lo`. -/
def scaleTo (neg : Bool) (m : Nat) (e lo : Int) : Int :=
  let v : Int := ((m <<< (e - lo).toNat : Nat) : Int)
  if neg then -v else v

/-- The exact sum (03 R58): opposite infinities give NaN, an exact zero is +0 but for (-0) + (-0). -/
def addN (a b : Num) : Num :=
  match a, b with
  | .nan, _ => .nan
  | _, .nan => .nan
  | .inf n, .inf k => if n = k then .inf n else .nan
  | .inf n, _ => .inf n
  | _, .inf n => .inf n
  | .fin n m e, .fin k l d =>
    if m = 0 && l = 0 then .fin (n && k) 0 0
    else if m = 0 then .fin k l d
    else if l = 0 then .fin n m e
    else
      let lo := min e d
      ofIntE (scaleTo n m e lo + scaleTo k l d lo) lo

/-- A value times a power of two, exactly (02 R38 step 2). -/
def scaleN (x : Num) (k : Int) : Num :=
  match x with
  | .fin n m e => .fin n m (e + k)
  | y => y

/-- A value divided by a positive number and rounded once to FP32 (05 R113: "division by n"). -/
def divRne32 (x : Num) (n : Nat) : W32 :=
  match x with
  | .fin neg m e =>
    let sh := Nat.log2 n + 40
    let num := m <<< sh
    BitVec.ofNat 32 (roundIeee fp32f (.fin neg (num / n) (e - sh)) (num % n ≠ 0))
  | y => rne32 y

/-- FP32 sum with one rounding. -/
def fadd (a b : W32) : W32 := rne32 (addN (dec32 a) (dec32 b))
/-- FP32 difference with one rounding. -/
def fsub (a b : W32) : W32 := rne32 (addN (dec32 a) (dec32 b).neg)
/-- FP32 product with one rounding. -/
def fmul (a b : W32) : W32 := rne32 (mulN (dec32 a) (dec32 b))
/-- The fused step of 03 R57: `rne32(s + x * y)`. -/
def fmaN (s : W32) (x y : Num) : W32 := rne32 (addN (dec32 s) (mulN x y))

/-- The canonical FP32 NaN (02 R35). -/
def nan32 : W32 := 0x7FC00000

/-- A key that orders numbers with +0 above -0 (04 R92, R95). NaN is handled by the callers. -/
def ordKey (w : W32) : Int := if bit w 31 then -(1 + ((w &&& 0x7FFFFFFF).toNat : Int)) else (w.toNat : Int)

/-- Does an FP32 pattern hold a NaN? -/
def isNan32 (w : W32) : Bool := dec32 w = .nan

/-- The integer square root by bits from `2^k` down. -/
def isqrtFrom : Nat → Nat → Nat → Nat
  | 0, _, r => r
  | k + 1, n, r =>
    let t := r + 2 ^ k
    isqrtFrom k n (if t * t ≤ n then t else r)

/-- The integer square root. -/
def isqrt (n : Nat) : Nat := isqrtFrom (Nat.log2 n / 2 + 1) n 0

/-- `sqrt(m * 2^e)` to at least 40 bits: a truncated multiple, its exponent, and whether anything was cut. -/
def sqrtM (m : Nat) (e : Int) : Nat × Int × Bool :=
  let (m, e) := if e % 2 = 0 then (m, e) else (2 * m, e - 1)
  let n := m <<< 80
  let r := isqrt n
  (r, e / 2 - 40, r * r ≠ n)

/-- `1 / (m * 2^e)` to at least 40 bits. -/
def rcpM (m : Nat) (e : Int) : Nat × Int × Bool :=
  let k := Nat.log2 m + 40
  (2 ^ k / m, -(k : Int) - e, 2 ^ k % m ≠ 0)

/-- `1 / sqrt(m * 2^e)` to at least 40 bits. -/
def rsqrtM (m : Nat) (e : Int) : Nat × Int × Bool :=
  let (m, e) := if e % 2 = 0 then (m, e) else (2 * m, e - 1)
  let k := Nat.log2 m + 42
  let r := isqrt (2 ^ (2 * k) / m)
  (r, -(k : Int) - e / 2, r * r * m ≠ 2 ^ (2 * k))

/-- Fraction bits kept while 2^a is formed. -/
def expPrec : Nat := 256

/-- The product of the factors 2^(2^-i) for the fraction bits of `f` (`n` bits, most significant first), at `expPrec` bits:
`c` is 2^(2^-(i-1)) on entry. -/
def exp2Frac : Nat → Nat → Nat → Nat → Nat
  | 0, _, _, acc => acc
  | n + 1, f, c, acc =>
    let c' := isqrt (c <<< expPrec)
    exp2Frac n f c' (if f.testBit n then (acc * c') >>> expPrec else acc)

/-- 2^a for a finite a: a truncated multiple, its exponent, and whether anything was cut. A fraction that is not zero gives an
irrational value, so something is always cut. -/
def exp2M (neg : Bool) (m : Nat) (e : Int) : Nat × Int × Bool :=
  let k : Nat := (-e).toNat
  let v : Int := if e ≥ 0 then (if neg then -((m <<< e.toNat : Nat) : Int) else ((m <<< e.toNat : Nat) : Int))
                 else (if neg then -(m : Int) else (m : Int))
  let ip : Int := v / ((2 ^ k : Nat) : Int)
  let f : Nat := (v % ((2 ^ k : Nat) : Int)).toNat
  if f = 0 then (1, ip, false)
  else (exp2Frac k f (2 <<< expPrec) (1 <<< expPrec), ip - expPrec, true)

/-- Working precision and result bits of the logarithm. -/
def logPrec : Nat := 440
def logBits : Nat := 200

/-- The binary digits of log2 of a mantissa in [1, 2) by repeated squaring. -/
def log2Digits : Nat → Nat → Nat → Nat
  | 0, _, acc => acc
  | n + 1, x, acc =>
    let y := (x * x) >>> logPrec
    if y ≥ 2 <<< logPrec then log2Digits n (y >>> 1) (2 * acc + 1) else log2Digits n y (2 * acc)

/-- log2 of a positive finite value: sign, truncated magnitude, exponent, and whether anything was cut. -/
def log2M (m : Nat) (e : Int) : Bool × Nat × Int × Bool :=
  let l := Nat.log2 m
  let ip : Int := e + l
  if m = 2 ^ l then (ip < 0, ip.natAbs, 0, false)
  else
    let x := m <<< (logPrec - l)
    let tot : Int := ip * ((2 ^ logBits : Nat) : Int) + log2Digits logBits x 0
    if tot ≥ 0 then (false, tot.natAbs, -(logBits : Int), true) else (true, tot.natAbs - 1, -(logBits : Int), true)

/-- One rounding of a positive magnitude to 22 significant bits, written as FP32 (04 R93). -/
def round22 (neg : Bool) (m : Nat) (e : Int) (st : Bool) : W32 :=
  if m = 0 then BitVec.ofNat 32 (signOf fp32f neg)
  else
    let (n, q) := roundP 22 (-147) m e st
    BitVec.ofNat 32 (roundIeee fp32f (.fin neg n q) false)

/-- The functions of 04 R93. -/
inductive Fn where
  | sqrt | rcp | rsqrt | exp2 | log2
  deriving DecidableEq, Repr

/-- The results of 04 R93 for special operands; `none` where the exact rule governs. -/
def fnSpecial (f : Fn) (x : Num) : Option Num :=
  match f, x with
  | _, .nan => some .nan
  | .sqrt, .fin n 0 _ => some (.fin n 0 0)
  | .rcp, .fin n 0 _ => some (.inf n)
  | .rsqrt, .fin n 0 _ => some (.inf n)
  | .exp2, .fin _ 0 _ => some (.fin false 1 0)
  | .log2, .fin _ 0 _ => some (.inf true)
  | .sqrt, .inf n => some (if n then .nan else .inf false)
  | .rcp, .inf n => some (.fin n 0 0)
  | .rsqrt, .inf n => some (if n then .nan else .fin false 0 0)
  | .exp2, .inf n => some (if n then .fin false 0 0 else .inf false)
  | .log2, .inf n => some (if n then .nan else .inf false)
  | .sqrt, .fin true (_ + 1) _ => some .nan
  | .rsqrt, .fin true (_ + 1) _ => some .nan
  | .log2, .fin true (_ + 1) _ => some .nan
  | _, _ => none

/-- The exact result of 04 R93 on a finite operand, as sign, truncated magnitude, exponent and cut. Very large or very
negative operands of 2^a are brought to where they overflow, or round to zero. -/
def fnExact (f : Fn) (neg : Bool) (m : Nat) (e : Int) : Bool × Nat × Int × Bool :=
  match f with
  | .sqrt => let r := sqrtM m e; (false, r.1, r.2.1, r.2.2)
  | .rcp => let r := rcpM m e; (neg, r.1, r.2.1, r.2.2)
  | .rsqrt => let r := rsqrtM m e; (false, r.1, r.2.1, r.2.2)
  | .exp2 =>
    if e + Nat.log2 m ≥ 10 then (false, 1, if neg then -1024 else 1024, false)
    else let r := exp2M neg m e; (false, r.1, r.2.1, r.2.2)
  | .log2 => log2M m e

/-- A function of 04 R93 in FP32. -/
def fn32 (f : Fn) (w : W32) : W32 :=
  match fnSpecial f (dec32 w) with
  | some v => rne32 v
  | none =>
    match dec32 w with
    | .fin neg m e =>
      let r := fnExact f neg m e
      match f with
      | .exp2 => round22 r.1 r.2.1 r.2.2.1 r.2.2.2
      | .log2 => round22 r.1 r.2.1 r.2.2.1 r.2.2.2
      | _ => BitVec.ofNat 32 (roundIeee fp32f (.fin r.1 r.2.1 r.2.2.1) r.2.2.2)
    | y => rne32 y

/-- A function of 04 R93 in BF16: one rounding to BF16. -/
def fnBf16 (f : Fn) (w : BitVec 16) : BitVec 16 :=
  match fnSpecial f (decodeFp bf16f w.toNat) with
  | some v => rneBf16 v
  | none =>
    match decodeFp bf16f w.toNat with
    | .fin neg m e =>
      let r := fnExact f neg m e
      BitVec.ofNat 16 (roundIeee bf16f (.fin r.1 r.2.1 r.2.2.1) r.2.2.2)
    | y => rneBf16 y

end Sys2Proof.Machine
end

