-- ==== Sys2Proof/Machine/Sparse.lean ====
section
/-!
DEFINITION. Tables in sparse form: reading, writing, the canonical form, and bringing a raw list into it.
-/

namespace Sys2Proof.Machine

/-- The value a table holds at key `i`; a key with no entry holds the default `d`. -/
def sget {α : Type} (d : α) : Sparse α → Nat → α
  | [], _ => d
  | (k, v) :: t, i => if i = k then v else if i < k then d else sget d t i

/-- The table with `v` at key `i`; writing the default removes the entry. -/
def sput {α : Type} [DecidableEq α] (d : α) : Sparse α → Nat → α → Sparse α
  | [], i, v => if v = d then [] else [(i, v)]
  | (k, w) :: t, i, v =>
    if i < k then (if v = d then (k, w) :: t else (i, v) :: (k, w) :: t)
    else if i = k then (if v = d then t else (i, v) :: t)
    else (k, w) :: sput d t i v

/-- Every key of the table is at least `lo`, the keys rise strictly, and no entry equals the default. -/
def swfFrom {α : Type} [DecidableEq α] (d : α) (lo : Nat) : Sparse α → Bool
  | [] => true
  | (k, v) :: t => decide (lo ≤ k) && decide (v ≠ d) && swfFrom d (k + 1) t

/-- The canonical form of a table. -/
def swf {α : Type} [DecidableEq α] (d : α) (m : Sparse α) : Bool := swfFrom d 0 m

/-- A raw list of entries brought into canonical form, entry by entry. -/
def snorm {α : Type} [DecidableEq α] (d : α) (raw : List (Nat × α)) : Sparse α :=
  raw.foldl (fun m e => sput d m e.1 e.2) []

/-- Writes a run of values at consecutive keys from `i` upward. -/
def sputs {α : Type} [DecidableEq α] (d : α) (m : Sparse α) (i : Nat) : List α → Sparse α
  | [] => m
  | v :: vs => sputs d (sput d m i v) (i + 1) vs

/-- Reads `n` consecutive keys from `i` upward. -/
def sgets {α : Type} (d : α) (m : Sparse α) (i : Nat) : Nat → List α
  | 0 => []
  | n + 1 => sget d m i :: sgets d m (i + 1) n

/-- Writes one value at `n` consecutive keys from `i` upward. -/
def sfill {α : Type} [DecidableEq α] (d : α) (m : Sparse α) (i : Nat) (v : α) : Nat → Sparse α
  | 0 => m
  | n + 1 => sfill d (sput d m i v) (i + 1) v n

end Sys2Proof.Machine
end

