-- ==== Sys2Proof/Machine/State.lean ====
section
/-!
DEFINITION. The state of one HT7 core as plain data, and the state right after reset. Every piece of state that the
manual names stands here; INVENTORY.md lists each with its rule.
-/

namespace Sys2Proof.Machine

/-- Reasons for which a step stops. No meaning of this model stops: every fault of the manual is recorded by the core's
own fault collector (14) and is part of State. Safe: there is nothing here to lean on. -/
inductive Fault where
  deriving DecidableEq, Repr

/-- Reasons for which a command has no meaning. -/
inductive Refusal where
  /-- Kept for a dispatch arm that rejects its command by name; no arm of the finished model does. Safe. -/
  | notModelled (mnemonic : String)
  deriving DecidableEq, Repr

/-- CORE_STATE (15 R343, R346). -/
inductive CoreState where
  | init | unaddressed | addressed | loaded | ready | running | held
  deriving DecidableEq, Repr, Inhabited

/-- RUNSTATE of a context (08 R178). -/
inductive RunSt where
  | running | waiting | halted | held
  deriving DecidableEq, Repr, Inhabited

/-- What a WAITING context waits on: nothing, a flag not yet seen set, a flag seen set at a boundary with the generation
observed there (09 R208), a set fence, a layout fence (08 R196), a snapshot fence with its plan address and whether a full
snapshot is due (13 R283), or a full queue or reservation (08 R187-R189). -/
inductive CtxWait where
  | none
  | flag (f : Nat)
  | flagSat (f : Nat) (g : BitVec 4)
  | sfence
  | lfence
  | snapf (full : Bool) (plan : BitVec 16)
  | stall
  deriving DecidableEq, Repr, Inhabited

/-- The wait of a queue's head word (01, word states; 09 R208): begun, known to be on a LOST flag (R221), satisfied at a boundary,
or taken by the engine. -/
inductive HWait where
  | pending
  | lost
  | satisfied (g : BitVec 4)
  | ready (g : BitVec 4)
  deriving DecidableEq, Repr, Inhabited

/-- A queued engine word with the number it was issued under. -/
structure QWord where
  id   : Nat
  word : W128
  deriving DecidableEq, Repr, Inhabited

/-- One issue context (08 R178) with its vector bank (04 R83), operand slots (03 R66, 05 R121) and queues (08 R187). -/
structure Context where
  pc        : BitVec 16
  regs      : Sparse W32
  estage    : Sparse W128
  cr        : W32
  run       : RunSt
  saved     : RunSt
  wait      : CtxWait
  hold      : Bool
  issued    : Bool
  nextIssue : Nat
  ready     : Sparse Nat
  vregs     : Sparse Byte
  masks     : Sparse (BitVec 2048)
  vstatus   : W32
  mslots    : Sparse (BitVec 93)
  rslots    : Sparse (BitVec 93)
  queue     : Sparse (List QWord)
  hwait     : Sparse HWait
  deriving DecidableEq, Repr, Inhabited

/-- A context after a full reset or a context reset (08 R178). -/
def Context.reset : Context :=
  { pc := 0, regs := [], estage := [], cr := 0, run := .halted, saved := .halted, wait := .none, hold := false,
    issued := false, nextIssue := 0, ready := [], vregs := [], masks := [], vstatus := 0, mslots := [], rslots := [],
    queue := [], hwait := [] }

/-- One flag (09 R205). -/
structure Flag where
  set    : Bool
  gen    : BitVec 4
  lost   : Bool
  parked : Bool
  deriving DecidableEq, Repr, Inhabited

/-- A flag after a full reset. -/
abbrev Flag.zero : Flag := { set := false, gen := 0, lost := false, parked := false }

/-- The owner notices of one step (09 R207 point 4): LOST, PARK, UNPARK with the sender's FID[23:4]. -/
inductive Mark where
  | lost (src : BitVec 20)
  | park (src : BitVec 20)
  | unpark (src : BitVec 20)
  deriving DecidableEq, Repr, Inhabited

/-- A handle instruction that takes effect at the boundary that ends its issue step (08 R191): the context, the operation
(0 HALLOC, 1 HFREE, 2 HREBASE, 3 HFLAGS, 4 HDRAIN, 5 HRD), the destination, s[ra] and s[rb]. -/
structure HandleOp where
  ctx : Ctx
  op  : Nat
  rd  : BitVec 5
  a   : W32
  b   : W32
  deriving DecidableEq, Repr, Inhabited

/-- The ECC condition of one stored word (06 R152): good, one wrong bit, or uncorrectable. -/
inductive EccMark where
  | good | single | double
  deriving DecidableEq, Repr, Inhabited

/-- The checked-mode state of a page (06 R147): ST 0 EMPTY, 1 FILLED, 2 CONSUMED, 3 OPEN, and PROD. -/
structure PageSt where
  st   : BitVec 2
  prod : BitVec 4
  deriving DecidableEq, Repr, Inhabited

/-- An EMPTY page. -/
abbrev PageSt.empty : PageSt := { st := 0, prod := 0 }

/-- A handle table entry, both words (06 R136, R137). -/
structure Handle where
  gen    : BitVec 4
  valid  : Bool
  wp     : Bool
  win    : Bool
  sp     : Bool
  wopen  : Bool
  wgen   : BitVec 4
  part   : BitVec 3
  base   : BitVec 11
  npages : BitVec 11
  vstep  : BitVec 48
  vsgen  : BitVec 4
  vvalid : Bool
  deriving DecidableEq, Repr, Inhabited

/-- A handle entry after a full reset. -/
abbrev Handle.zero : Handle :=
  { gen := 0, valid := false, wp := false, win := false, sp := false, wopen := false, wgen := 0, part := 0, base := 0,
    npages := 0, vstep := 0, vsgen := 0, vvalid := false }

/-- One scale tracker (02 R48). -/
structure Tracker where
  hist   : Sparse W32
  cur    : BitVec 4
  fmt    : BitVec 4
  margin : BitVec 4
  sinit  : Byte
  prop   : Byte
  nf     : BitVec 16
  deriving DecidableEq, Repr, Inhabited

/-- A tracker at its reset values (02 R48). -/
abbrev Tracker.reset : Tracker := { hist := [], cur := 0, fmt := 3, margin := 0, sinit := 0, prop := 0, nf := 0 }

/-- One byte stored in data memory in the step under way, with its value before the step and who stores it: a context (08
R184), or the host, whose write takes effect at the boundary that ends the step (01 R17). -/
structure DmemStore where
  addr : Nat
  old  : Byte
  ctx  : Option Ctx
  val  : Byte
  deriving DecidableEq, Repr, Inhabited

/-- The kinds of a scratchpad access (06 R128). -/
inductive Acc where
  | read
  | write
  | accum (int : Bool)
  deriving DecidableEq, Repr, Inhabited

/-- One access to the scratchpad in the step under way (06 R127, R131, R148): its port, its producer tag, the running word that
makes it, its kind and address; of a write the bytes presented, the bytes before the step, and the bytes as its own producer
reads them back. Of a read only the page counts, and its address is the page's first. `rep` and `ctx` name the reporter of a
page-state fault. -/
structure SpadAcc where
  port : Nat
  tag  : BitVec 4
  word : Option Nat
  rep  : Nat
  ctx  : Option Ctx
  kind : Acc
  addr : Nat
  data : List Byte
  old  : List Byte
  val  : List Byte
  deriving DecidableEq, Repr, Inhabited

/-- One accumulator entry written in the step under way (03 R54), with its value before the step and its writer. -/
structure AccStore where
  key : Nat
  old : W32
  val : W32
  ctx : Ctx
  deriving DecidableEq, Repr, Inhabited

/-- The places that two engine words may share (01 R26, 08 R200), and a context's vector registers, which one of them may load from
such a place. -/
inductive Place where
  | spad | acc | stat | tracker | dacc
  | vreg (c : Ctx)
  deriving DecidableEq, Repr, Inhabited

/-- How a word uses a tracker, where 02 R52 tells: it advances it, or it casts or observes through it. -/
inductive TrkUse where
  | other | advance | through
  deriving DecidableEq, Repr, Inhabited

/-- A run of a place that a running word reads, writes or accumulates into: scratchpad bytes, accumulator rows, stat records,
trackers, vector register bytes; of each accumulator row the columns below `cols`; `trk` says how it uses a tracker. -/
structure Foot where
  place : Place
  wr    : Bool
  acc   : Bool
  lo    : Nat
  len   : Nat
  trk   : TrkUse := .other
  cols  : Nat := 128
  deriving DecidableEq, Repr, Inhabited

/-- A fabric request of a transfer not yet offered (07 R166): stack read (`pos` is the place of its first byte among the
transfer's source bytes), stack write, window write. -/
inductive XReq where
  | rd (addr pos len : Nat)
  | wr (addr : Nat) (data : List Byte)
  | win (off : Nat) (data : List Byte)
  deriving DecidableEq, Repr, Inhabited

/-- The phases of a transfer (07 R171-R173): reading the tag header, moving data, stamping the tag. -/
inductive XPhase where
  | header | data | stamp
  deriving DecidableEq, Repr, Inhabited

/-- A transfer under way on a DMA channel: the channel, the copied descriptor (07 R157), the requests still to offer, the
number of requests of the phase still to be answered, the layout epoch it started under (12 R270), the tag header bytes, the source
bytes arrived that do not yet make a whole element or block (keyed by their place in the source), the pieces arrived (place and
length), and whether a block encode has met a NaN or infinity (R165). -/
structure Xfer where
  ch    : Nat
  desc  : List W64
  src   : Handle
  dst   : Handle
  phase : XPhase
  todo  : List XReq
  left  : Nat
  epoch : BitVec 4
  hdr   : Sparse Byte
  buf   : Sparse Byte
  got   : List (Nat × Nat)
  nonfin : Bool
  deriving DecidableEq, Repr, Inhabited

/-- What a running word still has to do before it may complete: nothing; every access of its own, held by a snapshot's page
protection (13 R288) or by a Rise not yet granted (03 R81), with its context and its descriptor as they stood at its start; an SRSET
waiting for SYNC_OUT (09 R215); an SALL waiting on flags `base` to `base + count - 1` (09 R216), with the generations seen at
the boundary that satisfied it; rows of a row word (05 R110); a transfer; an SSEAL with its stage (13 R298). -/
inductive Job where
  | done
  | stalled (x : Context) (desc : List W64)
  | srset
  | sall (base count : Nat) (clr : Bool) (sat : Option (List (Nat × BitVec 4)))
  | rows (next total left : Nat) (bad : Bool)
  | xfer (x : Xfer)
  | seal (stage : Nat)
  deriving DecidableEq, Repr, Inhabited

/-- An engine word that has started and has neither completed nor ended (01 R20, 06 R140): `foot` lists the places it reads and
writes, `wrote` those it has written so far (06 R146), `since` the step in which its accesses began, and `clash` says that it met another
word on a place that one of them writes (00 R8). -/
structure Running where
  id      : Nat
  eng     : Eng
  ctx     : Ctx
  word    : W128
  handles : List Nat
  job     : Job
  foot    : List Foot := []
  wrote   : List Foot := []
  since   : Nat := 0
  clash   : Bool := false
  deriving DecidableEq, Repr, Inhabited

/-- The row that a row unit holds (05 R110). -/
structure UnitRow where
  unit : Nat
  id   : Nat
  row  : Nat
  deriving DecidableEq, Repr, Inhabited

/-- Who waits for the answer of a fabric request (07 R166): a running word, or the Starter engine. -/
inductive Owner where
  | word (id : Nat)
  | starter
  deriving DecidableEq, Repr, Inhabited

/-- A fabric request outstanding (07 R166): channel number and index of its tag, requester, KIND, address or window offset,
length; `aux` is the Starter engine's own note of what the request is for. -/
structure Outst where
  ch    : Nat
  idx   : Nat
  owner : Owner
  kind  : Nat
  addr  : Nat
  len   : Nat
  aux   : Nat
  deriving DecidableEq, Repr, Inhabited

/-- An entry of the incoming-transfer table (12 R272). -/
structure RxEntry where
  sfid  : BitVec 24
  ch    : Nat
  whidx : Nat
  cnt   : Nat
  total : Nat
  deriving DecidableEq, Repr, Inhabited

/-- A fabric flit as it stands on a port (16 R353). -/
structure Flit where
  route : BitVec 48
  hdr   : BitVec 128
  data  : BitVec 512
  deriving DecidableEq, Repr, Inhabited

/-- A flit that the core sends: route word, header and the payload bytes that LEN counts (16 R353, R355). -/
structure TxFlit where
  route : BitVec 48
  hdr   : BitVec 128
  data  : List Byte
  deriving DecidableEq, Repr, Inhabited

/-- A window acknowledgement waiting to leave on the port its flit came in on (16 R356). -/
structure WinAck where
  port : Port
  flit : TxFlit
  deriving DecidableEq, Repr, Inhabited

/-- A window flit written in the step under way: the port it came in on, its stream port, the bytes it was written to, and whether an access
of the same step has failed its write since (06 R146, R148); it is acknowledged and counted at the step's boundary (07 R176; 12 R272). -/
structure WinDone where
  port : Port
  flit : Flit
  sp   : Nat
  lo   : Nat
  len  : Nat
  bad  : Bool
  deriving DecidableEq, Repr, Inhabited

/-- A window flit held by a snapshot's page protection (13 R288). -/
inductive Held where
  | flit (port : Port) (f : Flit)
  deriving DecidableEq, Repr, Inhabited

/-- A management access or chain frame that has arrived and is still to act, between two steps (01 R17; 15 R336): a host write of
bytes at an offset, a frame addressed to this core, a broadcast WR (`fwd` says that it has still to be forwarded), an ENUM frame, and
symbols of other frames that arrived behind one of these. -/
inductive Mgmt where
  | write (addr : Nat) (bs : List Byte)
  | frame (f : List Byte)
  | bcast (fwd : Bool) (f : List Byte)
  | enum (f : List Byte)
  | syms (xs : List (BitVec 9))
  deriving DecidableEq, Repr, Inhabited

/-- A sync flit waiting for SYNC_OUT, and the running SRSET word that completes when it is accepted (09 R215). -/
structure SyncOut where
  flit : W64
  word : Option Nat
  deriving DecidableEq, Repr, Inhabited

/-- A partner of the PARTNER record (10 R237). -/
structure Partner where
  serial : W64
  pfid   : BitVec 24
  accept : Bool
  pidx   : Nat
  rbase  : Nat
  sfid   : BitVec 24
  rlen   : Nat
  deriving DecidableEq, Repr, Inhabited

/-- The records of a configuration set that govern the core (10 R229-R244), defaults applied. -/
structure Cfg where
  parts    : List (Nat × Nat)
  shape    : Nat
  posr     : Nat
  posc     : Nat
  formats  : BitVec 13
  limits   : List (Nat × Nat)
  flagmap  : List (Nat × BitVec 20)
  domain   : List (Nat × Byte)
  partner  : List Partner
  faultmap : Sparse (BitVec 4)
  chk      : Bool
  rlen     : BitVec 2
  sfen     : Bool
  sfl      : BitVec 4
  ilMode   : Bool
  plen     : Nat
  pat      : BitVec 16
  fid      : BitVec 24
  freq     : Nat
  deriving DecidableEq, Repr, Inhabited

/-- State of the Proof set (10 R245). -/
inductive PState where
  | empty | loading | checking | valid | invalid | pending
  deriving DecidableEq, Repr, Inhabited

/-- A stored Irash stream: its bytes, their number, the records found (type and offset), and the offset of the next record
to judge. -/
structure Stream where
  bytes : Sparse Byte
  len   : Nat
  recs  : List (Nat × Nat)
  pos   : Nat
  deriving DecidableEq, Repr, Inhabited

/-- No stream. -/
abbrev Stream.none : Stream := { bytes := [], len := 0, recs := [], pos := 0 }

/-- STATE of FW_STATUS (17 R379). -/
inductive FwSt where
  | idle | busy | receiving | loaded | failed
  deriving DecidableEq, Repr, Inhabited

/-- A write to the instruction memory window that arrived during BUSY (08 R203): its window offset and bytes, and the chain
response that it is answered with once zeroing has ended (empty where none is due). -/
structure FwHeld where
  off  : Nat
  data : List Byte
  resp : List Byte
  deriving DecidableEq, Repr, Inhabited

/-- The firmware loader (08 R203, 17 R378-R381): `buf` holds the image bytes received, `held` the window writes that
arrived during BUSY. -/
structure Fw where
  st      : FwSt
  reason  : BitVec 4
  rcvd    : Nat
  len     : W32
  crc     : W32
  tag     : W64
  buf     : Sparse Byte
  held    : List FwHeld
  deriving DecidableEq, Repr, Inhabited

/-- State of a step parameter buffer (11 R254). -/
inductive BufSt where
  | free | valid | inForce
  deriving DecidableEq, Repr, Inhabited

/-- The leader's own copy of its STEP_START flit (11 R259): none, on its way to the next boundary, arrived. -/
inductive OwnCopy where
  | none | sent | arrived
  deriving DecidableEq, Repr, Inhabited

/-- The step sequencer and the step parameter block (11 R254-R261). `sendDue` and `admDue` say what the last boundary judged due
(R259, R261); `skewed` that STEP_SKEW stands until a later STEP_START passes the checks (R260). -/
structure StepBlk where
  num      : W64
  stage    : W32
  en       : Bool
  leader   : Bool
  gflag    : BitVec 10
  rqflag   : BitVec 10
  req      : Bool
  pend     : Option W64
  stA      : BufSt
  stB      : BufSt
  bufA     : Sparse W32
  bufB     : Sparse W32
  sentFor  : Option W64
  copy     : OwnCopy
  sendDue  : Bool
  admDue   : Bool
  skewed   : Bool
  deriving DecidableEq, Repr, Inhabited

/-- A fault report (14 R305): code, reporter, and the context where CTXV is 1. -/
structure Report where
  code : Nat
  rep  : Nat
  ctx  : Option Ctx
  deriving DecidableEq, Repr, Inhabited

/-- The fault collector (14 R306-R323, R391): `restIn` is the interval that the Rest timer runs under (R319), `wireSeen` the pairs
sampled at the last boundary and `wireDue` those found broken at the coming one (R307), `finNew` that the alarm pair has changed to
(1,0) since the last boundary (R308), `rel0`, `rel1` and `relC` the releases written since then (R316, R320). -/
structure Flt where
  reports   : List Report
  repAck    : List Nat
  sticky    : BitVec 256
  actSig    : BitVec 256
  actHold   : BitVec 256
  actReset  : BitVec 256
  count     : W32
  recov     : BitVec 16
  rest      : W32
  restRun   : Bool
  restCnt   : Nat
  fValid    : Bool
  fRep      : BitVec 4
  fCtx      : Option Ctx
  fCode     : Byte
  fTime     : W64
  wire      : BitVec 16
  holdCore  : Bool
  resetReq  : Bool
  out       : Bool
  fin       : Bool
  restIn    : W32
  wireSeen  : BitVec 16
  wireDue   : BitVec 16
  finNew    : Bool
  rel0      : Bool
  rel1      : Bool
  relC      : Bool
  deriving DecidableEq, Repr, Inhabited

/-- Timers and measurements (08 R194, 09 R223-R226, 14 R325, 17 R384); `ticked` says that the time base has ticked since the last boundary
(01 R18). -/
structure Tmr where
  time      : W64
  lost      : Bool
  sinceEdge : Nat
  dlWindow  : W32
  dlStatus  : W32
  dlCount   : Nat
  progress  : Bool
  ticked    : Bool
  lendThr   : W32
  lendCnt   : Nat
  winTicks  : Nat
  winSteps  : Nat
  srValid   : Bool
  srCount   : BitVec 24
  srNominal : BitVec 24
  deriving DecidableEq, Repr, Inhabited

/-- The Rise, soft freeze and power-manager interface (03 R79-R81, 16 R364-R367, 17 R382-R385). -/
structure Pwr where
  need      : Bool
  req       : Bool
  gnt       : Bool
  rising    : Bool
  wave      : Nat
  w         : Nat
  holdPer   : Nat
  filler    : Bool
  hSfen     : Bool
  hSfl      : BitVec 4
  lend      : Bool
  level     : BitVec 4
  /-- PM_ACTIVITY as it stands on the pins: the level in Gray code (16 R364). -/
  gray      : BitVec 4
  target    : BitVec 4
  waves     : Nat
  wavesDone : Nat
  sinceTgt  : Nat
  tgtDue    : Bool
  sinceMove : Nat
  moveDue   : Bool
  budget    : Byte
  samples   : List Byte
  sinceSmp  : Nat
  smpDue    : Bool
  deriving DecidableEq, Repr, Inhabited

/-- RSTATE (13, ST_STATUS). -/
inductive RState where
  | none | loading | loaded | replaying | admitted | refused
  deriving DecidableEq, Repr, Inhabited

/-- SNAP (13, ST_STATUS). -/
inductive SnapSt where
  | idle | copying | copied | failed
  deriving DecidableEq, Repr, Inhabited

/-- A planned page not yet read for the copy (13 R288): `stack` pages have a fabric identity and byte address, scratchpad
pages a physical page number in `addr`; `idx` is its place in plan order, `cls` its class (0 W, 1 M, 2 X), `reading` says that
a stack page's reads have been issued. -/
structure CopyPage where
  stack   : Bool
  sfid    : BitVec 24
  addr    : Nat
  idx     : Nat
  cls     : Nat
  reading : Bool
  deriving DecidableEq, Repr, Inhabited

/-- A request of the Starter engine not yet offered (13 R290): `wr` write or read, at an address of an interface; `aux`
notes what it is for. -/
structure StReq where
  sfid : BitVec 24
  wr   : Bool
  addr : Nat
  len  : Nat
  data : List Byte
  aux  : Nat
  deriving DecidableEq, Repr, Inhabited

/-- A snapshot being copied, or the last one copied (13 R284-R295): the slot's place, the sampled header values, the
capture buffer, the planned pages, their digests, the P record's body, the bytes of a stack page under way, and the stage
of the copy. -/
structure Snap where
  sfid    : BitVec 24
  base    : Nat
  cut     : W64
  cmask   : BitVec 5
  fwCrc   : W32
  tag     : W64
  fid     : BitVec 24
  img     : Sparse Byte
  plan    : List CopyPage
  pages   : List CopyPage
  nspad   : Nat
  nstack  : Nat
  digs    : Sparse W64
  pbody   : List Byte
  stkBuf  : Sparse Byte
  stkLeft : Nat
  stage   : Nat
  deriving DecidableEq, Repr, Inhabited

/-- A restore being read (13 R300): bytes of the slot keyed by slot offset, the stage, whether an answer carried an error,
and the replay's reference values (13 R302). -/
structure Restore where
  sfid  : BitVec 24
  base  : Nat
  buf   : Sparse Byte
  stage : Nat
  err   : Bool
  cut   : W64
  sdig  : W64
  deriving DecidableEq, Repr, Inhabited

/-- The Starter engine (13). `pRec` is the stage of a P-only record (R285): 0 none, 1 its body under way, 2 its header; `pBody`
is that body; `endDue` says that the fences end at the next boundary (R285). -/
structure Starter where
  en       : Bool
  rslot    : Bool
  force    : Bool
  rstate   : RState
  rreason  : BitVec 4
  snap     : SnapSt
  next     : Bool
  pnext    : Bool
  cmask    : BitVec 5
  cadence  : W32
  pcadence : W32
  digest   : W64
  dacc     : W64
  capture  : Option Nat
  cur      : Snap
  todo     : List StReq
  protSpad : List Nat
  protStk  : List (BitVec 24 × Nat)
  restore  : Restore
  pRec     : Nat
  pBody    : List Byte
  endDue   : Bool
  deriving DecidableEq, Repr, Inhabited

/-- A slice of a piece of a product (03 R62, R63): the product's number, the waves of the slice, and the weights that it loads, keyed like
the cells. -/
structure Slice where
  id    : Nat
  waves : Nat
  loads : List (Nat × W32)
  deriving DecidableEq, Repr, Inhabited

/-- The matrix array (03 R53): the weights in its cells and in their shadow registers, keyed by array row * 128 + column (of an FP32
weight the pair bh, bl: 03 R60), the wave it has reached in the slice that streams, and that slice with those still to come (03 R62, R63);
`unready` is the number of C0's head word where the other members of the gang were found not ready for it in the step under way (03 R76, 08
R197); and what a gang member drives on its links (03 R73, R74, 16 R360): the row indices of its waves, the activation bundles to the east,
the partial-sum bundles to the south or back to the north, the CTL bundle and its status towards the west and the north. -/
structure Mesh where
  cells   : Sparse W32
  shadows : Sparse W32
  wave    : Nat
  slices  : List Slice
  unready : Option Nat
  rowsOut : List Nat
  geOut   : Sparse (BitVec 2048)
  geExp   : Sparse Int
  gsOut   : Sparse (BitVec 4096)
  ctl     : BitVec 144
  st      : BitVec 2
  deriving DecidableEq, Repr, Inhabited

/-- The array after a full reset. -/
abbrev Mesh.reset : Mesh :=
  { cells := [], shadows := [], wave := 0, slices := [], unready := none, rowsOut := [], geOut := [], geExp := [], gsOut := [], ctl := 0, st := 0 }

/-- The wrapper's serial path (16 R368): the bypass bit, the boundary register as a number whose bit 0 leaves first, and the bits
that have left on WSO, oldest first. -/
structure Wrap where
  bypass : Bool
  bound  : Nat
  wso    : List Bool
  deriving DecidableEq, Repr, Inhabited

/-- The design-time options of the core (00, "Design-time options"; 17 R376): the codes of CORE_FEATURES. -/
structure Features where
  gang   : Bool
  fports : Bool
  rowu   : Bool
  spad   : BitVec 2
  vlanes : BitVec 2
  deriving DecidableEq, Repr, Inhabited

/-- The reference configuration (00 R4, 17 R376: 0x0000_0075). -/
abbrev Features.reference : Features := { gang := true, fports := true, rowu := true, spad := 1, vlanes := 1 }

/-- Scratchpad pages of a core (06, "Geometry and addressing"): 512, 1,024 or 1,536. -/
abbrev Features.pages (f : Features) : Nat := if f.spad = 0 then 512 else if f.spad = 2 then 1536 else 1024

/-- The configuration in force where no stream has been installed: the defaults of 10 R229 with no identity (10 R243) and
the measurement window of 1,000 ticks (17 R384). -/
abbrev Cfg.default (pages : Nat) : Cfg :=
  { parts := [(0, pages), (0, 0), (0, 0), (0, 0), (0, 0), (0, 0), (0, 0), (0, 0)], shape := 0, posr := 0, posc := 0,
    formats := 0x1FFF, limits := [(64, 64), (64, 64), (64, 64), (64, 64), (64, 64), (64, 64)], flagmap := [], domain := [],
    partner := [], faultmap := [], chk := true, rlen := 1, sfen := false, sfl := 0, ilMode := false, plen := 0, pat := 0,
    fid := 0, freq := 100000 }

/-- The state of the core. -/
structure State where
  /-- Commands that wait, oldest first. -/
  pending  : List Instr
  /-- Which free value the next unspecified content takes (model; log 2). -/
  freeCtr  : Nat
  features : Features
  powered  : Bool
  vcore    : Nat
  vmem     : Nat
  /-- RST_N as resolved: true where released. -/
  rstN     : Bool
  /-- RST_N has been asserted in the step under way, whose boundary resolves it (01 R16; 15 R344). -/
  rstDue   : Bool
  wir      : Byte
  wrap     : Wrap
  testRes  : W64
  core     : CoreState
  parked   : Bool
  serial   : W64
  pwrdom   : Byte
  chainAddr : Byte
  seqWr    : Option Byte
  seqBc    : Option Byte
  /-- Symbols driven on MC_OUT, oldest first: frame marker K in bit 8, data byte below (15 R327). -/
  mcOut    : List (BitVec 9)
  /-- An addressed request that a reset has cut short and that is still arriving: the address that the core had at its first symbol,
  and its bytes so far; no byte where there is none (15 R337). -/
  cutAddr  : Byte
  cutReq   : List Byte
  c0       : Context
  c1       : Context
  flags    : Sparse Flag
  /-- Sets of the step under way, each with the context that its setter belongs to (09 R206; 14 R305). -/
  stepSets : List (Nat × Option Ctx)
  stepClears : List (Nat × BitVec 4)
  stepMarks : List Mark
  stepOps  : List HandleOp
  selfFlits : List W64
  syncQ    : List SyncOut
  syncSent : List W64
  /-- Scratchpad accesses of the step under way, oldest first (06 R131, R148). -/
  stepSpad : List SpadAcc
  /-- Who has accumulated into a 4-byte element of the scratchpad since its last plain write; 0 none (01 R29). -/
  accOwn   : Sparse Nat
  /-- The pages whose state the step under way has judged, with their state before it (06 R148, 01 R28). -/
  stepPages : List (Nat × PageSt)
  spad     : Sparse Byte
  spadErr  : Sparse EccMark
  wbPend   : List Nat
  scrub    : Sparse Nat
  checked  : Bool
  pages    : Sparse PageSt
  handles  : Sparse Handle
  acc      : Sparse W32
  accErr   : Sparse EccMark
  /-- Accumulator entries written in the step under way (03 R54). -/
  stepAcc  : List AccStore
  mesh     : Mesh
  stat     : Sparse W64
  statErr  : Sparse EccMark
  imem     : Sparse W32
  imemLen  : Nat
  entry    : BitVec 16
  dmem     : Sparse Byte
  dmemStep : List DmemStore
  trackers : Sparse Tracker
  /-- The trackers that a cast or an observation of the step under way has used (02 R52). -/
  stepTrk  : List Nat
  spadWin  : BitVec 11
  running  : List Running
  /-- The words that have completed in the step under way: no flag can order a word of this step behind one of them (01 R20, R26). -/
  stepDone : List Running
  nextId   : Nat
  units    : List UnitRow
  outst    : List Outst
  retired  : List (Nat × Nat × Nat)
  rxTab    : List RxEntry
  winAcks  : List WinAck
  /-- Window flits written in the step under way, oldest first. -/
  winDone  : List WinDone
  held     : List Held
  /-- Management accesses and frames still to act, oldest first (01 R17; 15 R336). -/
  mgmt     : List Mgmt
  faTx     : List TxFlit
  fbTx     : List TxFlit
  txA      : Bool
  txB      : Bool
  /-- A flit has been accepted in the step under way: fabric port A, port B, SYNC_IN (01 R16). -/
  rxA      : Bool
  rxB      : Bool
  rxS      : Bool
  /-- FA_LINKDOWN and FB_LINKDOWN as sampled at the last boundary (01 R16; 14 R324). -/
  linkA    : Bool
  linkB    : Bool
  /-- The levels on the pins FA_LINKDOWN and FB_LINKDOWN. -/
  pinA     : Bool
  pinB     : Bool
  epoch    : BitVec 4
  ilPtr    : Nat
  pstate   : PState
  proof    : Stream
  bakeOn   : Bool
  bake     : Stream
  cfg      : Cfg
  setRej   : W32
  warnDom  : Bool
  fw       : Fw
  sb       : StepBlk
  flt      : Flt
  tmr      : Tmr
  pwr      : Pwr
  perf     : Sparse (BitVec 48)
  /-- Counts of the step under way, and of the step that the last boundary ended: a write to PERF_CTL at that boundary precedes these (17
  R386). -/
  perfStep : Sparse Nat
  perfLast : Sparse Nat
  perfStop : Bool
  steps    : Nat
  st       : Starter
  deriving DecidableEq, Repr, Inhabited

/-- The Starter engine after a full reset (15 R349; 13, "Starter registers"). -/
def Starter.reset : Starter :=
  { en := false, rslot := false, force := false, rstate := .none, rreason := 0, snap := .idle, next := false,
    pnext := false, cmask := 0x1F, cadence := 0, pcadence := 0, digest := 0, dacc := 0, capture := none,
    cur := { sfid := 0, base := 0, cut := 0, cmask := 0, fwCrc := 0, tag := 0, fid := 0, img := [], plan := [], pages := [],
             nspad := 0, nstack := 0, digs := [], pbody := [], stkBuf := [], stkLeft := 0, stage := 0 },
    todo := [], protSpad := [], protStk := [],
    restore := { sfid := 0, base := 0, buf := [], stage := 0, err := false, cut := 0, sdig := 0 }, pRec := 0, pBody := [],
    endDue := false }

/-- The core's state right after reset: RST_N asserted, CORE_STATE INIT, every store at its full-reset contents (15 R344,
R349). The reference configuration stands for the design-time options (00 R4). -/
def State.reset : State :=
  { pending := [], freeCtr := 0, features := Features.reference, powered := true, vcore := 720, vmem := 750, rstN := false,
    rstDue := false, wir := 0, wrap := { bypass := false, bound := 0, wso := [] }, testRes := 0, core := .init, parked := false, serial := 0,
    pwrdom := 0, chainAddr := 0, seqWr := none, seqBc := none, mcOut := [], cutAddr := 0, cutReq := [], c0 := Context.reset, c1 := Context.reset,
    flags := [], stepSets := [], stepClears := [], stepMarks := [], stepOps := [], selfFlits := [], syncQ := [], syncSent := [],
    stepSpad := [], stepPages := [], accOwn := [], spad := [], spadErr := [], wbPend := [], scrub := [], checked := true, pages := [], handles := [],
    acc := [], accErr := [], stepAcc := [], mesh := Mesh.reset, stat := [], statErr := [], imem := [],
    imemLen := 0, entry := 0, dmem := [], dmemStep := [], trackers := [], stepTrk := [], spadWin := 0, running := [], stepDone := [], nextId := 0,
    units := [], outst := [], retired := [], rxTab := [], winAcks := [], winDone := [], held := [], mgmt := [], faTx := [], fbTx := [], txA := false,
    txB := false, rxA := false, rxB := false, rxS := false, linkA := false, linkB := false, pinA := false, pinB := false, epoch := 0, ilPtr := 0,
    pstate := .empty, proof := Stream.none, bakeOn := false, bake := Stream.none, cfg := Cfg.default 1024, setRej := 0, warnDom := false,
    fw := { st := .idle, reason := 0, rcvd := 0, len := 0, crc := 0, tag := 0, buf := [], held := [] },
    sb := { num := 0, stage := 0, en := false, leader := false, gflag := 0, rqflag := 0, req := false, pend := none,
            stA := .free, stB := .free, bufA := [], bufB := [], sentFor := none, copy := .none, sendDue := false,
            admDue := false, skewed := false },
    flt := { reports := [], repAck := [], sticky := 0, actSig := 0, actHold := 0, actReset := 0, count := 0, recov := 0,
             rest := 0x00989680, restRun := false, restCnt := 0, fValid := false, fRep := 0, fCtx := none, fCode := 0,
             fTime := 0, wire := 0, holdCore := false, resetReq := false, out := false, fin := false,
             restIn := 0x00989680, wireSeen := 0, wireDue := 0, finNew := false, rel0 := false, rel1 := false,
             relC := false },
    tmr := { time := 0, lost := false, sinceEdge := 0, dlWindow := 0x000186A0, dlStatus := 0, dlCount := 0,
             progress := false, ticked := false, lendThr := 0x000003E8, lendCnt := 0, winTicks := 0, winSteps := 0, srValid := false,
             srCount := 0, srNominal := 0 },
    pwr := { need := true, req := false, gnt := false, rising := false, wave := 0, w := 0, holdPer := 0, filler := false,
             hSfen := false, hSfl := 0, lend := false, level := 0, gray := 0, target := 0, waves := 0, wavesDone := 0, sinceTgt := 0,
             tgtDue := false, sinceMove := 0, moveDue := false, budget := 0xFF, samples := [], sinceSmp := 0,
             smpDue := false },
    perf := [], perfStep := [], perfLast := [], perfStop := false, steps := 0, st := Starter.reset }

end Sys2Proof.Machine
end

