-- ==== Sys2Proof/Machine/Convert.lean ====
section
/-!
DEFINITION. Number formats by their codes (02 R31), packing (R37), every conversion (R38-R41), the block-scaled families
(R42-R47) and scale trackers (R48-R51).
-/

namespace Sys2Proof.Machine

/-- Width of a format's element in bits (02 R31); 0 for a reserved code and for BS16, which has blocks only. -/
def fmtBits (f : Nat) : Nat :=
  match f with
  | 0 => 32 | 1 => 16 | 2 => 16 | 3 => 8 | 4 => 8 | 5 => 6 | 6 => 6 | 7 => 4 | 8 => 8 | 9 => 4 | 10 => 8 | 12 => 32
  | _ => 0

/-- The floating-point format of a code; `none` for the integer formats and the scales. -/
def fmtFp (f : Nat) : Option FpFmt :=
  match f with
  | 0 => some fp32f | 1 => some bf16f | 2 => some fp16f | 3 => some e4m3f | 4 => some e5m2f | 5 => some e3m2f
  | 6 => some e2m3f | 7 => some e2m1f
  | _ => none

/-- The exact value of an element code (02 R34, R36). -/
def decodeElem (f code : Nat) : Num :=
  match fmtFp f with
  | some p => decodeFp p code
  | none =>
    if f = 10 then (if code % 256 = 255 then .nan else .fin false 1 (((code % 256 : Nat) : Int) - 127))
    else ofIntE (signed (fmtBits f) code) 0

/-- What a conversion gives: the target's code, whether an input was brought to a finite limit (SATURATED), and whether a NaN
entered a target with no NaN (CAST_NAN). -/
structure Cvt where
  code : Nat
  sat  : Bool
  nan  : Bool
  deriving DecidableEq, Repr

/-- An integer rounded to nearest, ties to even, from `m * 2^e`. -/
def rneInt (m : Nat) (e : Int) : Nat := if e ≥ 0 then m <<< e.toNat else rneShift m (-e).toNat false

/-- Conversion to a two's-complement format of `n` bits (02 R39): saturation at both limits, NaN to 0. -/
def cvtInt (n : Nat) (x : Num) : Cvt :=
  let hi : Nat := 2 ^ (n - 1) - 1
  let lo : Nat := 2 ^ (n - 1)
  match x with
  | .nan => { code := 0, sat := false, nan := true }
  | .inf neg => { code := if neg then lo else hi, sat := true, nan := false }
  | .fin neg m e =>
    let v := rneInt m e
    if neg then (if v > lo then { code := lo, sat := true, nan := false }
                 else { code := (2 ^ n - v) % 2 ^ n, sat := false, nan := false })
    else (if v > hi then { code := hi, sat := true, nan := false } else { code := v, sat := false, nan := false })

/-- Conversion to a floating-point format (02 R38, R39). `sat` is the SAT bit, which matters for E4M3 and E5M2 alone; the
FP6 and FP4 formats always saturate, the 16-bit formats and FP32 never do. -/
def cvtFp (p : FpFmt) (sat : Bool) (x : Num) : Cvt :=
  let finite := p.top = 2 || (sat && (p.top = 1 || (p.ebits = 5 && p.mbits = 2)))
  let past (neg : Bool) : Cvt :=
    if finite then { code := signOf p neg + maxMag p, sat := true, nan := false }
    else if p.top = 1 then { code := nanCode p, sat := false, nan := false }
    else { code := signOf p neg + infMag p, sat := false, nan := false }
  match x with
  | .nan => if p.top = 2 then { code := 0, sat := false, nan := true } else { code := nanCode p, sat := false, nan := false }
  | .inf neg => past neg
  | .fin neg m e =>
    let c := roundMag p m e false
    if c > maxMag p then past neg else { code := signOf p neg + c, sat := false, nan := false }

/-- Conversion to UE8M0 (02 R40). -/
def cvtUe8 (x : Num) : Cvt :=
  match x with
  | .nan => { code := 255, sat := false, nan := false }
  | .inf _ => { code := 254, sat := true, nan := false }
  | .fin _ m e =>
    if m = 0 then { code := 0, sat := false, nan := false }
    else
      let k : Int := e + Nat.log2 m + 127
      if k < 0 then { code := 0, sat := true, nan := false }
      else if k > 254 then { code := 254, sat := true, nan := false }
      else { code := k.toNat, sat := false, nan := false }

/-- Conversion of a value to the format of a code (02 R38-R40). DESIGN CHOICE (log 71): R39's table has a row
for FP8, FP6, FP4, INT8, INT4, INT32 and UE8M0 targets for an FP32 source only; a 16-bit or INT32 source takes that row's overflow, NaN
and SAT rules on its exact value. -/
def cvt (f : Nat) (sat : Bool) (x : Num) : Cvt :=
  match fmtFp f with
  | some p => cvtFp p sat x
  | none => if f = 10 then cvtUe8 x else cvtInt (fmtBits f) x

/-- Bits `pos` to `pos + n - 1` of a byte list read as one little-endian number. -/
def bitsAt (bs : List Byte) (pos n : Nat) : Nat :=
  (leAt bs (pos / 8) (n / 8 + 2) >>> (pos % 8)) % 2 ^ n

/-- Bytes that a run of `n` elements of a format takes, with its padding (02 R37). -/
def runBytes (f n : Nat) : Nat :=
  match fmtBits f with
  | 4 => (n + 1) / 2
  | 6 => 3 * ((n + 3) / 4)
  | b => b / 8 * n

/-- Element `i` of a packed run (02 R37): its code. -/
def unpackAt (f : Nat) (bs : List Byte) (i : Nat) : Nat := bitsAt bs (fmtBits f * i) (fmtBits f)

/-- The first `n` element codes of a packed run. -/
def unpack (f : Nat) (bs : List Byte) (n : Nat) : List Nat := (List.range n).map (unpackAt f bs)

/-- A run of element codes packed from bit 0 upward, padding bits zero (02 R37). -/
def pack (f : Nat) (cs : List Nat) : List Byte :=
  let w := fmtBits f
  toLE (runBytes f cs.length) (cs.foldr (fun c acc => c % 2 ^ w + acc * 2 ^ w) 0)

/-- hi and lo of the FP32 split (02 R41), as BF16 codes. -/
def splitFp32 (w : W32) : Nat × Nat :=
  match dec32 w with
  | .fin _ _ _ =>
    let hi := w.toNat >>> 16
    (hi, roundIeee bf16f (addN (dec32 w) (decodeFp bf16f hi).neg) false)
  | x => (roundIeee bf16f x false, 0)

/-- The largest exponent of an MX element format (02 R44). -/
def mxEmax (f : Nat) : Int :=
  match f with
  | 3 => 8 | 4 => 15 | 5 => 4 | 6 => 2 | 7 => 2 | _ => 0

/-- The power of two that an MX element's code stands in units of: 2^-6 for MXINT8 (02 R42). -/
def mxUnit (f : Nat) : Int := if f = 8 then -6 else 0

/-- Is a code one of the MX element formats (02 R42)? -/
def isMxFmt (f : Nat) : Bool := f = 3 || f = 4 || f = 5 || f = 6 || f = 7 || f = 8

/-- The exact value of one MX element under its block's scale code (02 R42). -/
def mxValue (f scale code : Nat) : Num :=
  if scale = 255 then .nan else scaleN (decodeElem f code) ((scale : Int) - 127 + mxUnit f)

/-- One MX element decoded to FP32. -/
def mxDecode (f scale code : Nat) : W32 := rne32 (mxValue f scale code)

/-- Is a value finite? -/
def Num.isFin : Num → Bool
  | .fin _ _ _ => true
  | _ => false

/-- floor(log2 |x|) of a finite nonzero value. -/
def Num.log2 : Num → Int
  | .fin _ m e => e + Nat.log2 m
  | _ => 0

/-- The largest floor(log2 |x|) of a list of finite values, `none` where all are zero. -/
def maxLog2 (xs : List Num) : Option Int :=
  xs.foldl (fun a x => if x.isZero then a else match a with
    | none => some x.log2
    | some k => some (max k x.log2)) none

/-- Clamps an integer between 0 and a bound. -/
def clampNat (v : Int) (hi : Nat) : Nat := if v < 0 then 0 else if v > hi then hi else v.toNat

/-- mx_encode (02 R44): the scale code, the element codes, and whether the block was non-finite. -/
def mxEncode (f : Nat) (xs : List Num) : Nat × List Nat × Bool :=
  if xs.all Num.isFin then
    let sc := match maxLog2 xs with
      | none => 0
      | some k => clampNat (k - mxEmax f + 127) 254
    (sc, xs.map (fun x => (cvt f true (scaleN x (127 - (sc : Int) - mxUnit f))).code), false)
  else (255, xs.map (fun _ => 0), true)

/-- The value of one BS16 significand under the block code X (02 R45). -/
def bsValue (x q : Nat) : Num :=
  if x = 255 then .nan else ofIntE (signed 16 q) ((x : Int) - 141)

/-- A BS16 block of 66 bytes decoded to 32 FP32 values (02 R46). DESIGN CHOICE (log 105): Q = -32,768 under X = 0xFE, whose value -2^128 is
outside FP32, rounds to -Infinity. -/
def bsDecode (bs : List Byte) : List W32 :=
  (List.range 32).map (fun i => rne32 (bsValue (leAt bs 0 1) (leAt bs (2 + 2 * i) 2)))

/-- The magnitude of a finite value rounded to a whole number of 2^-k. -/
def Num.rneAt (x : Num) (k : Int) : Nat :=
  match x with
  | .fin _ m e => rneInt m (e + k)
  | _ => 0

/-- Is the value negative? -/
def Num.isNeg : Num → Bool
  | .fin n _ _ => n
  | .inf n => n
  | .nan => false

/-- bs16_encode (02 R47): the 66 bytes and whether the block was non-finite. -/
def bsEncode (xs : List Num) : List Byte × Bool :=
  if xs.all Num.isFin then
    match maxLog2 xs with
    | none => (List.replicate 66 0, false)
    | some k =>
      let x0 := clampNat (k + 127) 254
      let top := (xs.map (fun x => x.rneAt (141 - (x0 : Int)))).foldl max 0
      let x := if top = 32768 && x0 < 254 then x0 + 1 else x0
      let qs := xs.map (fun v =>
        let m := min (v.rneAt (141 - (x : Int))) 32767
        if v.isNeg then (65536 - m) % 65536 else m)
      (byteOf x :: 0 :: qs.flatMap (toLE 2), false)
  else (0xFF :: List.replicate 65 0, true)

/-- FP32 values as bytes. -/
def w32Bytes (ws : List W32) : List Byte := ws.flatMap (fun w => toLE 4 w.toNat)

/-- Bytes as FP32 values, `n` of them. -/
def bytesW32 (bs : List Byte) (n : Nat) : List W32 := (List.range n).map (fun i => BitVec.ofNat 32 (leAt bs (4 * i) 4))

/-- An observation of one value by a tracker (02 R49): the magnitude rounded once to FP32 enters the current period's
maximum, a NaN or an infinity is counted. -/
def observe (t : Tracker) (x : Num) : Tracker :=
  match x with
  | .fin _ m e =>
    let a := rne32 (.fin false m e)
    let h := sget 0 t.hist t.cur.toNat
    if h.toNat < a.toNat then { t with hist := sput 0 t.hist t.cur.toNat a } else t
  | _ => if t.nf = 0xFFFF then t else { t with nf := t.nf + 1 }

/-- Observations of a list of values. -/
def observeAll (t : Tracker) (xs : List Num) : Tracker := xs.foldl observe t

/-- The largest k with `h * 2^k` at most the largest finite value of a format (02 R50), for a finite positive `h`. -/
def propK (f : Nat) (h : Num) : Int :=
  match h, fmtFp f with
  | .fin _ m e, some p =>
    match decodeFp p (maxMag p) with
    | .fin _ mm me =>
      let k : Int := me + Nat.log2 mm - (e + Nat.log2 m)
      let l := Nat.log2 m + Nat.log2 mm
      if m <<< (l - Nat.log2 m) ≤ mm <<< (l - Nat.log2 mm) then k else k - 1
    | _ => 0
  | _, _ => 0

/-- An advance (02 R50). -/
def advanceTracker (t : Tracker) : Tracker :=
  let hmax := (sgets 0 t.hist 0 16).foldl (fun a b => if a.toNat < b.toNat then b else a) 0
  let prop : Byte :=
    if hmax = 0 then t.sinit
    else
      let k := propK t.fmt.toNat (dec32 hmax) - (t.margin.toNat : Int)
      BitVec.ofInt 8 (max (-127) (min 127 k))
  let cur := t.cur + 1
  { t with prop := prop, cur := cur, hist := sput 0 t.hist cur.toNat 0 }

/-- The state image of a tracker (02 R48 table; 04 R101): the sixteen entries, then the other fields. -/
def trackerFields (t : Tracker) : List W32 := sgets 0 t.hist 0 16

end Sys2Proof.Machine
end

