-- ==== Sys2Proof/Config.lean ====
section
/-!
DEFINITION. What the manual leaves open and the model leaves free: constants with no body, so that no proof can see their
values. Each is applied to a counter of the state (`freeCtr`), so that every use is a fresh value.
-/

namespace Sys2Proof

/-- The contents of a byte store that the manual leaves unspecified (00 R8), as raw cells (log 2). -/
opaque Config.freeCells : Nat → List (Nat × Byte)

/-- The contents of a word store that the manual leaves unspecified (00 R8), as raw entries (log 2). -/
opaque Config.freeWords : Nat → List (Nat × W32)

/-- One 32-bit value that the manual leaves unspecified (log 2). -/
opaque Config.freeWord : Nat → W32

end Sys2Proof
end

