-- ==== Sys2Proof/Machine/Ops.lean ====
section
/-!
DEFINITION. Named operations over contexts, queues, running words, flags, handles, fault reports and counters. Every meaning
reads and writes the state through them.
-/

namespace Sys2Proof.Machine

/-- The outcome type of the model. -/
abbrev Out := Host.Outcome State Fault Refusal

/-! ### Contexts -/

/-- The other context. -/
def otherCtx : Ctx → Ctx
  | .c0 => .c1
  | .c1 => .c0

/-- The number of a context (08 R186, CTX). -/
def ctxNum : Ctx → Nat
  | .c0 => 0
  | .c1 => 1

/-- The number of an engine (08 R186, ENG). -/
def engNum : Eng → Nat
  | .matrix => 0 | .vector => 1 | .row => 2 | .dma => 3 | .sync => 4 | .starter => 5

/-- The engine of a number; `none` for 6 to 15. -/
def engOf (n : Nat) : Option Eng :=
  match n with
  | 0 => some .matrix | 1 => some .vector | 2 => some .row | 3 => some .dma | 4 => some .sync | 5 => some .starter
  | _ => none

/-- Every engine. -/
def allEngs : List Eng := [.matrix, .vector, .row, .dma, .sync, .starter]

/-- Both contexts. -/
def allCtxs : List Ctx := [.c0, .c1]

/-- A context's record. -/
def getCtx (s : State) : Ctx → Context
  | .c0 => s.c0
  | .c1 => s.c1

/-- The state with a context's record replaced. -/
def setCtx (s : State) (c : Ctx) (x : Context) : State :=
  match c with
  | .c0 => { s with c0 := x }
  | .c1 => { s with c1 := x }

/-- The state with a context's record changed. -/
def modCtx (s : State) (c : Ctx) (f : Context → Context) : State := setCtx s c (f (getCtx s c))

/-- Scalar register n as read: s0 reads zero (08 R178). -/
def rdS (x : Context) (n : Nat) : W32 := if n = 0 then 0 else sget 0 x.regs n

/-- Scalar register n written: a write to s0 is discarded (08 R178). -/
def wrS (x : Context) (n : Nat) (v : W32) : Context := if n = 0 then x else { x with regs := sput 0 x.regs n v }

/-- Staging register n (08 R178). -/
def rdE (x : Context) (n : Nat) : W128 := sget 0 x.estage n

/-- Staging register n written. -/
def wrE (x : Context) (n : Nat) (v : W128) : Context := { x with estage := sput 0 x.estage n v }

/-- CR with the given bits set (08 R192). -/
def setCR (x : Context) (n : Nat) : Context := { x with cr := setBit x.cr n true }

/-! ### Fault reports and counters -/

/-- A report handed to the collector by a reporter (14 R305, R306); a context belongs to it where CTXV is 1. -/
def report (s : State) (code rep : Nat) (ctx : Option Ctx) : State :=
  { s with flt := { s.flt with reports := s.flt.reports ++ [{ code := code, rep := rep, ctx := ctx }] } }

/-- `n` events of a performance counter in the step under way; the step's boundary adds them (17 R386, R387). -/
def count (s : State) (i n : Nat) : State := { s with perfStep := sput 0 s.perfStep i (sget 0 s.perfStep i + n) }

/-- Counts added to the counters, or dropped while PERF_CTL.STOP is set (17 R386). -/
def addCounts (stop : Bool) (n : Sparse Nat) (m : Sparse (BitVec 48)) : Sparse (BitVec 48) :=
  if stop then m else n.foldl (fun m e => sput 0 m e.1 (sget 0 m e.1 + BitVec.ofNat 48 e.2)) m

/-- The counters as they read: with the counts of the step that the last boundary ended, which are added after every write to PERF_CTL at that
boundary (17 R386; log 93). -/
def counters (s : State) : Sparse (BitVec 48) := addCounts s.perfStop s.perfLast s.perf

/-- A step's boundary is reached: the counts of the step before it are in the counters for good, and those of the step that it ends follow the
writes to PERF_CTL at it (17 R386). -/
def commitCounts (s : State) : State := { s with perf := counters s, perfLast := [] }

/-- The counts of the step that a boundary ends. -/
def flushCounts (s : State) : State := { s with perfLast := s.perfStep, perfStep := [] }

/-- A context is RUNNING in `t` that was not in `s`: a lending wait has ended (09 R226). -/
def woke (s t : State) : State :=
  if (s.c0.run ≠ .running && t.c0.run = .running) || (s.c1.run ≠ .running && t.c1.run = .running) then
    { t with tmr := { t.tmr with lendCnt := 0 } }
  else t

/-- The core makes progress in this step (09 R223). -/
def progress (s : State) : State := { s with tmr := { s.tmr with progress := true } }

/-- The reporter number of an engine (14 R305). -/
def engRep : Eng → Nat := engNum

/-- The reporter number of a context (14 R305). -/
def ctxRep (c : Ctx) : Nat := 6 + ctxNum c

/-! ### Whether the core works -/

/-- The codes of the wrapper's instructions other than WS_BYPASS; every other code acts as WS_BYPASS (16 R368). -/
def testCodes : List Byte := [0x01, 0x02, 0x03, 0x04, 0x05, 0x10, 0x11, 0x12, 0x13]

/-- The wrapper instruction register holds WS_BYPASS, or a code that acts as it (16 R368). -/
def transparent (s : State) : Bool := !testCodes.contains s.wir

/-- The logic works and the wrapper is transparent: powered, and no test instruction is loaded (16 R369). -/
def alive (s : State) : Bool := s.powered && transparent s

/-- The core works and RST_N is released (15 R344). -/
def live (s : State) : Bool := alive s && s.rstN

/-- Management accesses reach the core: from ADDRESSED onward (15 R331; 17 R372). -/
def hostOk (s : State) : Bool := live s && s.core ≠ .init && s.core ≠ .unaddressed

/-- Something of the step under way has happened that a management access must not meet halfway (01 R17): a context has issued, a word has
started, completed or made an access, a flag has changed. -/
def midStep (s : State) : Bool :=
  s.tmr.progress || s.c0.issued || s.c1.issued || !s.stepOps.isEmpty || !s.dmemStep.isEmpty || !s.stepSpad.isEmpty ||
    !s.stepPages.isEmpty || !s.stepAcc.isEmpty || !s.stepTrk.isEmpty

/-- Nothing of the step after the last boundary has happened yet: what is sampled or judged here stands at that boundary (10 R249-R251; 12
R273; 13 R284, R285). -/
def atBoundary (s : State) : Bool :=
  !midStep s && s.stepSets.isEmpty && s.stepClears.isEmpty && s.stepMarks.isEmpty && s.selfFlits.isEmpty

/-- No management access or frame that has arrived is still to act (15 R336; 08 R203). -/
def mcIdle (s : State) : Bool := s.fw.held.isEmpty && s.mgmt.isEmpty

/-- A management access that arrives now acts at once: it falls between two steps (01 R17), and none that is still to act stands before it
(15 R336; 08 R203). -/
def mcOpen (s : State) : Bool := hostOk s && mcIdle s && !midStep s

/-- A management access or frame waits behind those that have arrived before it. -/
def later (s : State) (m : Mgmt) : State := { s with mgmt := s.mgmt ++ [m] }

/-- The core runs: RUNNING, not parked, no snapshot capture under way (15 R346, R348; 13 R284). -/
def runs (s : State) : Bool := live s && s.core = .running && !s.parked && !s.flt.holdCore && s.st.capture = none

/-- A context waits in SNAPF. -/
def inSnapf (x : Context) : Bool := x.run = .waiting && (match x.wait with | .snapf _ _ => true | _ => false)

/-- A context waits in SNAPF for a full snapshot. -/
def inFull (x : Context) : Bool := x.run = .waiting && (match x.wait with | .snapf full _ => full | _ => false)

/-- Each context waits in SNAPF or is HALTED, and one at least waits (13 R283). -/
def snapReady (s : State) : Bool :=
  (inSnapf s.c0 || inSnapf s.c1) && (inSnapf s.c0 || s.c0.run = .halted) && (inSnapf s.c1 || s.c1.run = .halted)

/-- Both contexts are in the fence for a full snapshot: no engine starts a word (13 R284). -/
def snapWait (s : State) : Bool := snapReady s && (inFull s.c0 || inFull s.c1)

/-- A report of a reporter waits to be taken, or its acknowledge is still high: the reporter cannot present another (14 R306). -/
def reporting (s : State) (rep : Nat) : Bool := s.flt.reports.any (fun r => r.rep = rep) || s.flt.repAck.contains rep

/-- A report of a reporter waits that cannot be presented yet: its part stalls (14 R306). -/
def overdue (s : State) (rep : Nat) : Bool :=
  let n := (s.flt.reports.filter (fun r => r.rep = rep)).length
  2 ≤ n || (n ≠ 0 && s.flt.repAck.contains rep)

/-- What would lead from `s` to `t` has a fault to report whose reporter cannot present it yet (14 R306). -/
def stalls (s t : State) : Bool := (t.flt.reports.drop s.flt.reports.length).any (fun r => reporting s r.rep)

/-- A part that has a further fault to report before its previous report is taken and acknowledged stalls by handshake: what it would do
happens later (14 R306; log 94). -/
def settle (s t : State) : State := if stalls s t then s else t

/-- A command whose conditions hold acts, any other does not happen (log 1); one that would report a further fault too early stalls. -/
def guarded (b : Bool) (s t : State) : Out := .next (if b then settle s t else s)

/-- A command that waits for no report: a step's boundary takes what is presented, and a reset or a lost supply ends every report. -/
def occurs (b : Bool) (s t : State) : Out := .next (if b then t else s)

/-- A host command of the condition `b`, which does `t`: it acts at once where it can, and else waits for the boundary, as the access `m`
(01 R17; 15 R336). -/
def hosted (s : State) (b : Bool) (m : Mgmt) (t : State) : Out :=
  guarded (hostOk s && b) s (if mcOpen s then t else later s m)

/-- A 32-bit register written by the host. -/
def regWrite (a : Nat) (v : W32) : Mgmt :=
  .write a (toLE 4 v.toNat)

/-! ### Queues, waits and running words -/

/-- The words queued for an engine by a context, oldest first (08 R187). -/
def queueOf (x : Context) (e : Eng) : List QWord := sget [] x.queue (engNum e)

/-- A queue replaced. -/
def setQueue (x : Context) (e : Eng) (q : List QWord) : Context := { x with queue := sput [] x.queue (engNum e) q }

/-- The wait of a queue's head word. -/
def headWait (x : Context) (e : Eng) : HWait := sget .pending x.hwait (engNum e)

/-- The wait of a head word replaced. -/
def setHeadWait (x : Context) (e : Eng) (w : HWait) : Context :=
  { x with hwait := sput .pending x.hwait (engNum e) w }

/-- The head word's wait has seen no set of its flag yet, whether or not the flag is known to be LOST (09 R208, R221). -/
def unmet (x : Context) (e : Eng) : Bool :=
  match headWait x e with
  | .pending | .lost => true
  | _ => false

/-- The head word of a queue. -/
def headOf (s : State) (c : Ctx) (e : Eng) : Option QWord := (queueOf (getCtx s c) e).head?

/-- WV: the word waits for WFLAG (08 R186). -/
def wWV (w : W128) : Bool := bit w 114
/-- WFLAG. -/
def wFlag (w : W128) : Nat := fld w 104 10
/-- SV: the word sets SFLAG on completion. -/
def wSV (w : W128) : Bool := bit w 103
/-- SFLAG. -/
def sFlag (w : W128) : Nat := fld w 93 10
/-- OP of a word. -/
def wOp (w : W128) : Nat := fld w 116 8
/-- ENG of a word. -/
def wEng (w : W128) : Nat := fld w 124 4

/-- The wait of the head word is over: it has none, or the engine has taken its satisfaction (01, word states). -/
def waitOver (x : Context) (e : Eng) (w : W128) : Bool :=
  !wWV w || (match headWait x e with | .ready _ => true | _ => false)

/-- The head word taken out of its queue; the next head's wait begins (08 R187). -/
def popHead (s : State) (c : Ctx) (e : Eng) : State :=
  modCtx s c (fun x => setHeadWait (setQueue x e (queueOf x e).tail) e .pending)

/-- The running words of an engine and a context. -/
def runningOf (s : State) (e : Eng) (c : Ctx) : List Running := s.running.filter (fun r => r.eng = e && r.ctx = c)

/-- Any word of an engine running. -/
def engineBusy (s : State) (e : Eng) : Bool := s.running.any (fun r => r.eng = e)

/-- The running word of a number. -/
def findRun (s : State) (id : Nat) : Option Running := s.running.find? (fun r => r.id = id)

/-- A running word removed. -/
def dropRun (s : State) (id : Nat) : State := { s with running := s.running.filter (fun r => r.id ≠ id) }

/-- A running word's job replaced. -/
def setJob (s : State) (id : Nat) (j : Job) : State :=
  { s with running := s.running.map (fun r => if r.id = id then { r with job := j } else r) }

/-- The places that a word has written once it has run: all that it writes, or none yet of what it does in further commands (06 R146). -/
def writtenFeet (j : Job) (foot : List Foot) : List Foot :=
  match j with
  | .done => foot.filter (fun f => f.wr)
  | _ => []

/-- A word has written further places, one after another. -/
def addWrote (s : State) (id : Nat) (fs : List Foot) : State :=
  { s with running := s.running.map (fun r => if r.id = id then { r with wrote := r.wrote ++ fs } else r) }

/-- A word starts: it leaves its queue, its slot frees, and it runs with the handles it names in use (08 R187, 06 R140). -/
def startWord (s : State) (c : Ctx) (e : Eng) (q : QWord) (hs : List Nat) (j : Job) (foot : List Foot) : State :=
  let s := progress (count (popHead s c e) 8 1)
  { s with running := s.running ++ [{ id := q.id, eng := e, ctx := c, word := q.word, handles := hs, job := j, foot := foot,
                                      wrote := writtenFeet j foot, since := s.steps }] }

/-- A word is refused when it starts: it leaves its queue, reports its fault, does nothing and sets no flag (06 R141). -/
def refuseWord (s : State) (c : Ctx) (e : Eng) (code : Nat) : State :=
  report (progress (count (popHead s c e) 8 1)) code (engRep e) (some c)

/-- The weights of a slice written over those of a bank of cells or shadow registers (03 R53). -/
def overload (m : Sparse W32) (ws : List (Nat × W32)) : Sparse W32 := ws.foldl (fun m e => sput 0 m e.1 e.2) m

/-- The shadow registers hold the weights of the slice that follows the one that streams (03 R53). -/
def restock (m : Mesh) : Mesh :=
  match m.slices with
  | _ :: y :: _ => { m with shadows := overload m.shadows y.loads }
  | _ => m

/-- The slice that streams has passed: the cells take from their shadow registers the weights of the next one, and those of the one after it
load (03 R53). -/
def nextSlice (m : Mesh) : Mesh :=
  match m.slices with
  | _ :: y :: ys =>
    restock { m with wave := 0, slices := y :: ys, cells := overload m.cells (y.loads.map (fun e => (e.1, sget 0 m.shadows e.1))) }
  | _ => { m with wave := 0, slices := [] }

/-- The slices of the product `id` at the head have passed, `n` at most. -/
def passSlices (id : Nat) : Nat → Mesh → Mesh
  | 0, m => m
  | n + 1, m =>
    match m.slices with
    | x :: _ => if x.id = id then passSlices id n (nextSlice m) else m
    | [] => m

/-- The slices of a product that has completed or ended are over (03 R62). -/
def endSlices (id : Nat) (m : Mesh) : Mesh :=
  if m.slices.any (fun x => x.id = id) then
    let t := passSlices id m.slices.length m
    restock { t with slices := t.slices.filter (fun x => x.id ≠ id) }
  else m

/-- A word of an engine is over: of the matrix engine, its slices are. -/
def leaveArray (s : State) (e : Eng) (id : Nat) : State :=
  if e = .matrix then { s with mesh := endSlices id s.mesh } else s

/-- Who reports a failed access of a word (14 R305): the memory tier an uncorrectable scratchpad word, the accumulator and stat
stores their own, the engine a page state (log 7). -/
def failRep (e : Eng) (code : Nat) : Nat :=
  if code = 0x02 then 8 else if code = 0x04 || code = 0x06 then 9 else engRep e

/-- A word that has started ends at a failed access, with its fault (06 R146). -/
def failWord (s : State) (c : Ctx) (e : Eng) (id code : Nat) : State :=
  report (leaveArray (dropRun s id) e id) code (failRep e code) (some c)

/-! ### Flags -/

/-- A flag (09 R205). -/
def getFlag (s : State) (f : Nat) : Flag := sget Flag.zero s.flags f

/-- A flag replaced. -/
def setFlag (s : State) (f : Nat) (v : Flag) : State := { s with flags := sput Flag.zero s.flags f v }

/-- A set of the step under way, by a setter that belongs to a context or to none (09 R206; 14 R305): it applies at the step boundary
under R207. -/
def pushSet (s : State) (f : Nat) (c : Option Ctx) : State := { s with stepSets := s.stepSets ++ [(f, c)] }

/-- A clear of the step under way, naming a generation (09 R207). -/
def pushClear (s : State) (f : Nat) (g : BitVec 4) : State := { s with stepClears := s.stepClears ++ [(f, g)] }

/-- The owner of a flag where FLAGMAP marks it remote-reachable (09 R219, 10 R235): FID[23:4]. -/
def flagOwner (s : State) (f : Nat) : Option (BitVec 20) := (s.cfg.flagmap.find? (fun e => e.1 = f)).map Prod.snd

/-- The core's own FID[23:4] (09 R211). -/
def ownFid (s : State) : BitVec 20 := BitVec.ofNat 20 (s.cfg.fid.toNat >>> 4)

/-- A sync flit put on the way to SYNC_OUT (01 R16). -/
def pushSync (s : State) (f : W64) (word : Option Nat) : State :=
  { s with syncQ := s.syncQ ++ [{ flit := f, word := word }] }

/-- A sync flit built from its fields (09 R211). -/
def syncFlit (kind : Nat) (dst src : BitVec 20) (low : Nat) : W64 :=
  BitVec.ofNat 64 (kind <<< 60 + dst.toNat <<< 40 + src.toNat <<< 20 + low)

/-- The broadcast DST (09 R211). -/
def dstAll : BitVec 20 := 0xFFFFF

/-! ### Handles and pages -/

/-- A handle table entry (06 R136). -/
def getH (s : State) (h : Nat) : Handle := sget Handle.zero s.handles h

/-- A handle table entry replaced. -/
def setH (s : State) (h : Nat) (v : Handle) : State := { s with handles := sput Handle.zero s.handles h v }

/-- A handle is in use from the start of a word that names it until the word has completed or ended (06 R140). -/
def inUse (s : State) (h : Nat) : Bool := s.running.any (fun r => r.handles.contains h)

/-- The state of a page as read: OPEN in unchecked mode (06 R149). -/
def getPage (s : State) (p : Nat) : PageSt := sget PageSt.empty s.pages p

/-- A page's state replaced; in unchecked mode no page state is kept or changed (06 R149). -/
def setPage (s : State) (p : Nat) (v : PageSt) : State :=
  if s.checked then { s with pages := sput PageSt.empty s.pages p v } else s

/-- A page's state before the step under way (06 R148). -/
def pageBase (s : State) (p : Nat) : PageSt :=
  match s.stepPages.find? (fun e => e.1 = p) with
  | some e => e.2
  | none => getPage s p

/-- What a page is left in by a handle operation that empties it (06 R139, R147): a state bit that an access of the same step has
set stays set (01 R28). -/
def emptied (before now : PageSt) : PageSt :=
  let st := now.st &&& ~~~before.st
  if st = 0 then PageSt.empty else { st := st, prod := now.prod }

/-- The elements of `n` bytes from `a` have no producer any more: what accumulates into them next is their first (01 R29). -/
def dropOwners (s : State) (a n : Nat) : State :=
  { s with accOwn := s.accOwn.filter (fun e => 4 * e.1 + 4 ≤ a || a + n ≤ 4 * e.1) }

/-- A page that a handle operation empties starts a new life in checked mode (06 R139, R147); in unchecked mode the operation has no effect
on it (R149). -/
def emptyPage (s : State) (p : Nat) : State :=
  setPage (if s.checked then dropOwners s (p * 65536) 65536 else s) p (emptied (pageBase s p) (getPage s p))

/-- A run of pages brought to state EMPTY with PROD 0 (06 R147), but for the bits that the step has set (01 R28). -/
def emptyPages (s : State) (p : Nat) : Nat → State
  | 0 => s
  | n + 1 => emptyPages (emptyPage s p) (p + 1) n

/-! ### Data memory -/

/-- A byte of data memory as read in this step by an instruction or an engine: the value before the step (08 R184). -/
def dmemByte (s : State) (a : Nat) : Byte :=
  match s.dmemStep.find? (fun d => d.addr = a) with
  | some d => d.old
  | none => sget 0 s.dmem a

/-- `n` bytes of data memory as read in this step. -/
def dmemRead (s : State) (a : Nat) : Nat → List Byte
  | 0 => []
  | n + 1 => dmemByte s a :: dmemRead s (a + 1) n

/-- The order in which the stores of one step take effect: C0's, C1's (08 R184), the host's at the boundary (01 R17). -/
def storeRank : Option Ctx → Nat
  | some .c0 => 0
  | some .c1 => 1
  | none => 2

/-- One byte stored in this step by a context, or by the host. -/
def dmemStore1 (s : State) (c : Option Ctx) (a : Nat) (b : Byte) : State :=
  let old := dmemByte s a
  let hidden := s.dmemStep.any (fun d => d.addr = a && storeRank c < storeRank d.ctx)
  { s with dmem := if hidden then s.dmem else sput 0 s.dmem a b,
           dmemStep := s.dmemStep ++ [{ addr := a, old := old, ctx := c, val := b }] }

/-- Bytes stored in this step. -/
def dmemStore (s : State) (c : Option Ctx) (a : Nat) : List Byte → State
  | [] => s
  | b :: bs => dmemStore (dmemStore1 s c a b) c (a + 1) bs

/-- A byte of data memory as the host reads it: the state after the last completed step, and what the host has written since (01
R17). -/
def dmemHost (s : State) (a : Nat) : Byte :=
  match s.dmemStep.reverse.find? (fun d => d.addr = a && d.ctx = none) with
  | some d => d.val
  | none => dmemByte s a

/-- Bytes written to data memory by the host (17 R390): every context and engine sees them from the next step on, and the step under way,
where there is one, does not (01 R17). -/
def dmemWrite (s : State) (a : Nat) (bs : List Byte) : State :=
  if s.dmemStep.isEmpty then { s with dmem := sputs 0 s.dmem a bs } else dmemStore s none a bs

/-! ### Fabric requests outstanding -/

/-- The requests of an owner taken off the list of outstanding requests and their indices retired with their KIND (07 R392). -/
def abandon (s : State) (o : Owner) : State :=
  { s with outst := s.outst.filter (fun r => r.owner ≠ o),
           retired := s.retired ++ ((s.outst.filter (fun r => r.owner = o)).map (fun r => (r.ch, r.idx, r.kind))) }

/-- ORC: the number of open entries of the incoming-transfer table (12 R272). -/
def orc (s : State) : Nat := s.rxTab.length

/-- The number of pages the core has (06). -/
def pageCount (s : State) : Nat := s.features.pages

end Sys2Proof.Machine
end

