-- ==== Sys2Proof/Machine/Faults.lean ====
section
/-!
DEFINITION. The fault collector (14): recording an occurrence, its reaction, holds and their release, and what one step
boundary collects.
-/

namespace Sys2Proof.Machine

/-! ### Fault codes (14 R309) -/

def fSpadCe : Nat := 0x01
def fSpadUe : Nat := 0x02
def fAccCe : Nat := 0x03
def fAccUe : Nat := 0x04
def fStatCe : Nat := 0x05
def fStat : Nat := 0x06
def fStackError : Nat := 0x07
def fOpcode : Nat := 0x20
def fFormat : Nat := 0x21
def fExtent : Nat := 0x22
def fMisaligned : Nat := 0x23
def fFeature : Nat := 0x24
def fStale : Nat := 0x25
def fProtect : Nat := 0x26
def fAccum : Nat := 0x27
def fWindow : Nat := 0x28
def fGang : Nat := 0x29
def fBusy : Nat := 0x2A
def fRange : Nat := 0x2B
def fOverlap : Nat := 0x2C
def fHRefused : Nat := 0x2D
def fSyncFormat : Nat := 0x2E
def fUnreach : Nat := 0x2F
def fCastNan : Nat := 0x30
def fNonfinite : Nat := 0x31
def fSetInvalid : Nat := 0x40
def fSetRefused : Nat := 0x41
def fSameDomain : Nat := 0x42
def fIllegal : Nat := 0x60
def fPcRange : Nat := 0x61
def fDmemRange : Nat := 0x62
def fFwMisaligned : Nat := 0x63
def fFwRefused : Nat := 0x64
def fFwLoadFail : Nat := 0x65
def fLinkDownA : Nat := 0x80
def fLinkDownB : Nat := 0x81
def fLinkUnc : Nat := 0x82
def fDropped : Nat := 0x83
def fRefused : Nat := 0x84
def fChainCrc : Nat := 0x85
def fUnfilled : Nat := 0xA0
def fUndrained : Nat := 0xA1
def fMulti : Nat := 0xA2
def fGather : Nat := 0xA3
def fLate : Nat := 0xA4
def fEarly : Nat := 0xA5
def fOverset : Nat := 0xA6
def fStaleMsg : Nat := 0xA7
def fStaleEpoch : Nat := 0xA8
def fEarlyEpoch : Nat := 0xA9
def fRxLimit : Nat := 0xAA
def fDeadlock : Nat := 0xAB
def fOwnerLost : Nat := 0xAC
def fStepSkew : Nat := 0xAD
def fPeerSkew : Nat := 0xAE
def fStepParam : Nat := 0xAF
def fFin : Nat := 0xC0
def fWire : Nat := 0xC1
def fTbase : Nat := 0xC2
def fRestSlot : Nat := 0xE0
def fRestIdentity : Nat := 0xE1
def fRestRead : Nat := 0xE2
def fRestDigest : Nat := 0xE3
def fRestSkew : Nat := 0xE4
def fMismatch : Nat := 0xE5
def fStRefused : Nat := 0xE6
def fCopyFail : Nat := 0xE7
def fStSpace : Nat := 0xE8
def fSnapPlan : Nat := 0xE9

/-- The reactions (14 R312), numbered as FAULTMAP numbers them (10 R238). -/
inductive React where
  | log | signal | holdCtx | holdCore | resetReq
  deriving DecidableEq, Repr

/-- The codes that are assigned (14 R309). -/
def codeAssigned (c : Nat) : Bool :=
  (1 ≤ c && c ≤ 7) || (0x20 ≤ c && c ≤ 0x31) || (0x40 ≤ c && c ≤ 0x42) || (0x60 ≤ c && c ≤ 0x65) ||
  (0x80 ≤ c && c ≤ 0x85) || (0xA0 ≤ c && c ≤ 0xAF) || (0xC0 ≤ c && c ≤ 0xC2) || (0xE0 ≤ c && c ≤ 0xE9)

/-- The codes whose default reaction is LOG (14 R309). -/
def logCodes : List Nat :=
  [0x01, 0x03, 0x05, 0x2D, 0x30, 0x31, 0x41, 0x42, 0x64, 0x65, 0x85, 0xA4, 0xA6, 0xA7, 0xE6]

/-- The codes whose default reaction is HOLD_CONTEXT. -/
def holdCtxCodes : List Nat :=
  [0x07, 0x20, 0x21, 0x22, 0x23, 0x24, 0x25, 0x26, 0x27, 0x28, 0x60, 0x61, 0x62, 0x63, 0x82, 0x83, 0x84]

/-- The codes whose default reaction is HOLD_CORE. -/
def holdCoreCodes : List Nat :=
  [0x02, 0x04, 0x06, 0x29, 0xA0, 0xA1, 0xA2, 0xA3, 0xA8, 0xA9, 0xC0, 0xC1, 0xE5]

/-- The default reaction of a code (14 R309); every other assigned code signals. -/
def defaultReact (c : Nat) : React :=
  if logCodes.contains c then .log
  else if holdCtxCodes.contains c then .holdCtx
  else if holdCoreCodes.contains c then .holdCore
  else .signal

/-- The reaction that FAULTMAP gives a code (10 R238, 14 R310). -/
def mappedReact (s : State) (c : Nat) : React :=
  if c = fWire || c = fMismatch then .holdCore
  else
    match (sget 0xF s.cfg.faultmap c).toNat with
    | 0 => .log | 1 => .signal | 2 => .holdCtx | 3 => .holdCore | 4 => .resetReq
    | _ => defaultReact c

/-- The effective reaction: HOLD_CONTEXT with no context acts as SIGNAL (14 R313). -/
def effReact (s : State) (r : Report) : React :=
  match mappedReact s r.code, r.ctx with
  | .holdCtx, none => .signal
  | x, _ => x

/-- A context enters HELD, remembering the RUNSTATE it had (14 R314, R316). -/
def enterHeld (x : Context) : Context := if x.run = .held then x else { x with saved := x.run, run := .held }

/-- A context's own hold is set (14 R314). -/
def holdContext (s : State) (c : Ctx) : State := modCtx s c (fun x => enterHeld { x with hold := true })

/-- The core hold is set (14 R315): CORE_STATE becomes HELD where it was RUNNING. -/
def holdTheCore (s : State) : State :=
  let s := modCtx (modCtx s .c0 enterHeld) .c1 enterHeld
  { s with core := if s.core = .running then .held else s.core, flt := { s.flt with holdCore := true } }

/-- FLT_FIRST and FLT_FIRST_TIME take an occurrence where no fault is recorded (14 R311). -/
def recordFirst (s : State) (r : Report) : State :=
  if s.flt.fValid then s
  else { s with flt := { s.flt with fValid := true, fRep := BitVec.ofNat 4 r.rep, fCtx := r.ctx,
                                    fCode := BitVec.ofNat 8 r.code, fTime := s.tmr.time } }

/-- FLT_COUNT, saturating (14 R311). -/
def bumpCount (w : W32) : W32 := if w = 0xFFFFFFFF then w else w + 1

/-- The Rest timer starts again from zero (14 R319). -/
def restartRest (f : Flt) : Flt := { f with restRun := true, restCnt := 0, restIn := f.rest }

/-- One occurrence recorded (14 R311, R312, R391). -/
def applyOcc (s : State) (r : Report) : State :=
  let s := recordFirst s r
  let s := { s with flt := { s.flt with sticky := setBit s.flt.sticky r.code true, count := bumpCount s.flt.count } }
  match effReact s r with
  | .log => s
  | .signal => { s with flt := restartRest { s.flt with actSig := setBit s.flt.actSig r.code true } }
  | .holdCtx =>
    let s := { s with flt := restartRest { s.flt with actHold := setBit s.flt.actHold r.code true } }
    match r.ctx with
    | some c => holdContext s c
    | none => s
  | .holdCore =>
    holdTheCore { s with flt := restartRest { s.flt with actHold := setBit s.flt.actHold r.code true } }
  | .resetReq =>
    holdTheCore { s with flt := restartRest { s.flt with actReset := setBit s.flt.actReset r.code true, resetReq := true } }

/-- Is any hold in place? -/
def anyHold (s : State) : Bool := s.flt.holdCore || s.c0.hold || s.c1.hold

/-- Where no hold of any kind remains, the hold part of every code clears (14 R316). -/
def settleHolds (s : State) : State :=
  if anyHold s then s else { s with flt := { s.flt with actHold := 0 } }

/-- A context with no hold left on it leaves HELD, with CR.HOLD_RELEASED (14 R316). -/
def leaveHeld (core : Bool) (x : Context) : Context :=
  if x.run = .held && !x.hold && !core then setCR { x with run := x.saved } 6 else x

/-- A context's own hold is lifted (14 R316). -/
def dropCtxHold (s : State) (c : Ctx) : State :=
  if (getCtx s c).hold then settleHolds (modCtx s c (fun x => leaveHeld s.flt.holdCore { x with hold := false })) else s

/-- The core hold may be lifted: it is in place, and no reset is requested (14 R316, R317). -/
def coreHoldFree (s : State) : Bool := s.flt.holdCore && !s.flt.resetReq

/-- The core hold is lifted. -/
def dropCoreHold (s : State) : State :=
  if coreHoldFree s then
    let s := { s with core := if s.core = .held then .running else s.core, flt := { s.flt with holdCore := false } }
    settleHolds (modCtx (modCtx s .c0 (leaveHeld false)) .c1 (leaveHeld false))
  else s

/-- A release written is in place to take effect: that of a hold that is not in place has no effect (14 R316). -/
def releaseDue (s : State) : Bool :=
  (s.flt.rel0 && s.c0.hold) || (s.flt.rel1 && s.c1.hold) || (s.flt.relC && coreHoldFree s)

/-- Step 1 of 14 R320: the releases written since the last boundary take effect. -/
def applyReleases (s : State) : State :=
  let t := if s.flt.rel0 then dropCtxHold s .c0 else s
  let t := if s.flt.rel1 then dropCtxHold t .c1 else t
  let t := if s.flt.relC then dropCoreHold t else t
  { t with flt := { t.flt with rel0 := false, rel1 := false, relC := false } }

/-- Releases asked for in one write of FLT_HOLD: they take effect at the next boundary (14 R316, R317, R320). -/
def releases (s : State) (r0 r1 rc : Bool) : State :=
  { s with flt := { s.flt with rel0 := s.flt.rel0 || r0, rel1 := s.flt.rel1 || r1, relC := s.flt.relC || rc } }

/-- REL_C0 or REL_C1 (14 R316). -/
def releaseCtx (s : State) (c : Ctx) : State := releases s (c = .c0) (c = .c1) false

/-- REL_CORE (14 R316, R317): no effect while a reset is requested. -/
def releaseCore (s : State) : State := releases s false false true

/-- The reports that the collector takes at one boundary, oldest of each reporter whose acknowledge is low and whose pair is
not ignored, and the reports that stay (14 R306, R307). -/
def takeReports (ack : List Nat) (wire : BitVec 16) : List Nat → List Report → List Report × List Report
  | _, [] => ([], [])
  | seen, r :: rs =>
    if ack.contains r.rep || bit wire r.rep || seen.contains r.rep then
      let (t, k) := takeReports ack wire seen rs
      (t, r :: k)
    else
      let (t, k) := takeReports ack wire (r.rep :: seen) rs
      (r :: t, k)

/-- The place of an occurrence in the order of 14 R311, R320: ascending code, then reporter. -/
def repKey (r : Report) : Nat := r.code * 16 + r.rep

/-- A report put in its place. -/
def insertRep (r : Report) : List Report → List Report
  | [] => [r]
  | q :: qs => if repKey r ≤ repKey q then r :: q :: qs else q :: insertRep r qs

/-- Reports in ascending code order. -/
def sortReps : List Report → List Report
  | [] => []
  | r :: rs => insertRep r (sortReps rs)

/-- The fault output as the active bits give it (14 R321). -/
def faultLevel (s : State) : Bool := (s.flt.actSig ||| s.flt.actHold ||| s.flt.actReset) != 0

/-- Step 4 of 14 R320: FAULT_T/FAULT_F updated. -/
def updateOut (s : State) : State := { s with flt := { s.flt with out := faultLevel s } }

/-- The pairs that the collector ignores, from the coming boundary on (14 R307). -/
def ignored (f : Flt) : BitVec 16 := f.wire ||| f.wireDue

/-- FIN_ALARM at the coming boundary: the pair has changed to (1,0), or still reads it where a release takes effect (14 R308). -/
def finOcc (s : State) : List Report :=
  if s.flt.fin && (s.flt.finNew || releaseDue s) && !bit (ignored s.flt) 14 then [{ code := fFin, rep := 14, ctx := none }] else []

/-- WIRE at the coming boundary (14 R307). -/
def wireOcc (f : Flt) : List Report :=
  ((List.range 16).filter (fun r => bit f.wireDue r)).map (fun r => { code := fWire, rep := r, ctx := none })

/-- The reports taken at the coming boundary, and those that stay (14 R306, R307). -/
def takenReports (f : Flt) : List Report × List Report := takeReports f.repAck (ignored f) [] f.reports

/-- The occurrences of the coming boundary in the order of 14 R311 and R320. -/
def occurrences (s : State) : List Report := sortReps ((takenReports s.flt).1 ++ finOcc s ++ wireOcc s.flt)

/-- The pairs sampled at the coming boundary that may read (0,0) or (1,1) there: those whose acknowledge is low and that are not ignored; a
pair whose report is taken there, or whose alarm is recorded there, reads (1,0) (14 R306-R308). -/
def sampled (s : State) : BitVec 16 :=
  let f := s.flt
  (List.range 15).foldl (fun m r =>
    setBit m r (!f.repAck.contains r && !bit (ignored f) r && !(r = 14 && !(finOcc s).isEmpty) &&
      !(takenReports f).1.any (fun x => x.rep = r))) 0

/-- What the collector does at a step boundary (14 R306-R308, R320): releases, then the occurrences in ascending code order, then the
output; the reporters taken are acknowledged until the next boundary. -/
def collect (s : State) : State :=
  let os := occurrences s
  let f := s.flt
  let t := applyReleases s
  let t := { t with flt := { t.flt with
    reports := (takenReports f).2, repAck := (takenReports f).1.map (fun r => r.rep), wire := ignored f, wireSeen := sampled s,
    wireDue := 0, finNew := false } }
  updateOut (os.foldl applyOcc t)

/-- Rest expiry (14 R319). -/
def restExpire (s : State) : State :=
  let f := s.flt
  let had := f.actSig != 0
  updateOut { s with flt := { f with actSig := 0, restRun := false, restCnt := 0,
                                     recov := if had && f.recov != 0xFFFF then f.recov + 1 else f.recov } }

end Sys2Proof.Machine
end

