-- ==== Sys2Proof/Machine/Pages.lean ====
section
/-!
DEFINITION. Scratchpad accesses line by line (06 R128), checked mode (R146-R149), ECC (R152), accumulate-writes (R133), and
the checks a word makes on the handles it names (R141-R143).
-/

namespace Sys2Proof.Machine

/-! ### Who makes an access (06 R127, R147) -/

/-- Who presents an access: its port (16 for the host, whose accesses take effect at the boundary that ends the step, 01 R17), its
producer tag, the running word it belongs to, and the reporter and context of a page-state fault. -/
structure Who where
  port : Nat
  tag  : BitVec 4
  word : Option Nat
  rep  : Nat
  ctx  : Option Ctx

/-- The producer tag of an engine word (06 R147). -/
def prodTag (e : Eng) (c : Ctx) : BitVec 4 := BitVec.ofNat 4 (engNum e * 2 + ctxNum c)

/-- The first of the ports of an engine that write the scratchpad (06 R127): the drain ports of the matrix engine, the vector ports, row
unit 0, DMA channel 0; the Starter engine's transfers go over the DMA ports. -/
def engPort : Eng → Nat
  | .matrix => 4 | .vector => 6 | .row => 10 | .dma => 12 | .sync => 15 | .starter => 15

/-- A word of an engine and a context, on a given port. -/
def engWho (e : Eng) (c : Ctx) (port : Nat) (id : Nat) : Who :=
  { port := port, tag := prodTag e c, word := some id, rep := engRep e, ctx := some c }

/-- The word that an engine has started last for a context. -/
def newest (s : State) (e : Eng) (c : Ctx) : Nat := ((runningOf s e c).map (fun r => r.id)).getLastD 0

/-- The word that an engine has started last for a context, on the engine's first port. -/
def wordWho (s : State) (e : Eng) (c : Ctx) : Who := engWho e c (engPort e) (newest s e c)

/-- The host (06 R151): producer 0xE. -/
def hostWho : Who := { port := 16, tag := 0xE, word := none, rep := 12, ctx := none }

/-- The stream port of a flit received on a fabric port (07 R177): 12 or 13 for FA, 14 or 15 for FB. DESIGN CHOICE (log 78): of the two,
the one that the sender's channel number selects by its parity. -/
def flitPort (p : Port) (ch : Nat) : Nat := (match p with | .fa => 12 | .fb => 14) + ch % 2

/-- A window flit received on a fabric port, with that port's reporter (06 R127, R147): producer 0xF. -/
def flitWho (p : Port) (ch rep : Nat) : Who := { port := flitPort p ch, tag := 0xF, word := none, rep := rep, ctx := none }

/-- The access was made by `u`. -/
def SpadAcc.by (e : SpadAcc) (u : Who) : Bool := e.port = u.port && e.tag = u.tag

/-- The page that the access reaches. -/
def SpadAcc.page (e : SpadAcc) : Nat := e.addr / 65536

/-- The access is a read. -/
def SpadAcc.reads (e : SpadAcc) : Bool := e.kind = .read

/-- The access stores the byte at `a`. -/
def SpadAcc.stores (e : SpadAcc) (a : Nat) : Bool := e.addr ≤ a && a < e.addr + e.old.length

/-- Another has accessed the page in the step under way. -/
def meets (s : State) (u : Who) (p : Nat) : Bool := s.stepSpad.any (fun e => !e.by u && e.page = p)

/-! ### Checked mode (06 R146-R149) -/

/-- Judgement of an access of producer `t` to a page in checked mode (06 R148): the fault, or the page's new state. -/
def judgePage (p : PageSt) (t : BitVec 4) (k : Acc) : Except Nat PageSt :=
  match p.st.toNat, k with
  | 0, .read => .error fUnfilled
  | 0, _ => .ok { st := 1, prod := t }
  | 1, .read => .ok (if t = p.prod then p else { p with st := 2 })
  | 1, .write => if t = p.prod then .ok p else .error fUndrained
  | 1, .accum _ => if t = p.prod then .ok p else .error fMulti
  | 2, .read => .ok p
  | 2, .write => .error fUndrained
  | 2, .accum _ => if t = p.prod then .error fUndrained else .error fMulti
  | _, _ => .ok p

/-- A page's state before the step is kept from its first judgement in the step on. -/
def notePage (s : State) (p : Nat) : State :=
  if s.stepPages.any (fun e => e.1 = p) then s else { s with stepPages := s.stepPages ++ [(p, getPage s p)] }

/-- A page's state as the step's reads leave it, all judged against its state before the step (06 R148). -/
def afterReads (b : PageSt) (rs : List SpadAcc) : PageSt :=
  if b.st = 1 && rs.any (fun e => e.tag ≠ b.prod) then { b with st := 2 } else b

/-- The place of an access in the order of its step (06 R131): by port; a received flit takes its port ahead of the channel that owns it
(07 R177). -/
def SpadAcc.rank (e : SpadAcc) : Nat := 2 * e.port + (if e.tag = 0xF then 0 else 1)

/-- An access put behind those of its rank and of lower ranks. -/
def insertPort (e : SpadAcc) : List SpadAcc → List SpadAcc
  | [] => [e]
  | x :: xs => if e.rank < x.rank then e :: x :: xs else x :: insertPort e xs

/-- Accesses in ascending port number, those of one port in their order. -/
def byPort (es : List SpadAcc) : List SpadAcc := es.foldl (fun l e => insertPort e l) []

/-- Writes judged one after another (06 R148): the page's state after them, and those that fail with their faults. -/
def judgeWrites (b : PageSt) : List SpadAcc → PageSt × List (SpadAcc × Nat)
  | [] => (b, [])
  | e :: es =>
    match judgePage b e.tag e.kind with
    | .ok v => judgeWrites v es
    | .error f => let r := judgeWrites b es; (r.1, (e, f) :: r.2)

/-- The judgement of the accesses `es` of one step to a page (06 R148): the reads against its state before the step, then the writes
in ascending port number. -/
def judgeStep (b : PageSt) (es : List SpadAcc) : PageSt × List (SpadAcc × Nat) :=
  judgeWrites (afterReads b (es.filter (fun e => e.reads))) (byPort (es.filter (fun e => !e.reads)))

/-- The accesses of the step under way to a page. -/
def pageAccs (s : State) (p : Nat) : List SpadAcc := s.stepSpad.filter (fun e => e.page = p)

/-- The ECC condition of the 64-bit word `w` (06 R152). -/
def eccOf (s : State) (w : Nat) : EccMark := sget .good s.spadErr w

/-- The 64-bit words that `n` bytes from `a` touch. -/
def wordsOf (a n : Nat) : List Nat :=
  if n = 0 then [] else (List.range ((a + n - 1) / 8 - a / 8 + 1)).map (fun i => a / 8 + i)

/-- Does an access of `n` bytes from `a` cover word `w` whole? -/
def covers (a n w : Nat) : Bool := a ≤ 8 * w && 8 * w + 8 ≤ a + n

/-- A single-bit error met by a read: corrected in the data, counted, reported by the memory tier and queued for write-back
(06 R152). -/
def corrected (c : Option Ctx) (s : State) (w : Nat) : State :=
  let s := report (count s 12 1) fSpadCe 8 c
  if s.wbPend.contains w then s else { s with wbPend := s.wbPend ++ [w] }

/-- The words among those touched whose old contents are checked, and bear the given mark. -/
def marked (s : State) (m : EccMark) (ws : List Nat) : List Nat := ws.filter (fun w => eccOf s w = m)

/-- Words given valid check bits. -/
def cleanWords (s : State) (ws : List Nat) : State :=
  { s with spadErr := ws.foldl (fun m w => sput .good m w .good) s.spadErr,
           wbPend := s.wbPend.filter (fun w => !ws.contains w) }

/-- The physical bytes `n` from `a`. -/
def spadBytes (s : State) (a n : Nat) : List Byte := sgets 0 s.spad a n

/-- Physical bytes stored. -/
def spadPut (s : State) (a : Nat) (bs : List Byte) : State := { s with spad := sputs 0 s.spad a bs }

/-! ### The accesses of one step (06 R131) -/

/-- A byte before the step under way. -/
def baseByte (s : State) (a : Nat) : Byte :=
  match s.stepSpad.find? (fun e => e.stores a) with
  | some e => e.old.getD (a - e.addr) 0
  | none => sget 0 s.spad a

/-- A byte as a read by `u` returns it: as it stood before the step, but for what `u` itself has written since (06 R131; log 3). -/
def seenByte (s : State) (u : Who) (a : Nat) : Byte :=
  match (s.stepSpad.filter (fun e => e.by u && e.stores a)).getLast? with
  | some e => e.val.getD (a - e.addr) 0
  | none => baseByte s a

/-- The bytes that a read by `u` returns. -/
def seenBytes (s : State) (u : Who) (a n : Nat) : List Byte :=
  if meets s u (a / 65536) then (List.range n).map (fun i => seenByte s u (a + i)) else spadBytes s a n

/-- One element accumulated (06 R133): FP32 with one rounding, or INT32 modulo 2^32. -/
def accElem (int : Bool) (v d : W32) : W32 := if int then v + d else fadd v d

/-- The bytes that an accumulate-write stores over old bytes, element by element. -/
def accBytes (int : Bool) (old new : List Byte) : List Byte :=
  (List.range (new.length / 4)).flatMap (fun i =>
    toLE 4 (accElem int (BitVec.ofNat 32 (leAt old (4 * i) 4)) (BitVec.ofNat 32 (leAt new (4 * i) 4))).toNat)

/-- The bytes that a write of a kind leaves over old ones. -/
def written (k : Acc) (old new : List Byte) : List Byte :=
  match k with
  | .accum int => accBytes int old new
  | _ => new

/-- One write applied to the bytes of the line at `l`. -/
def onLine (l : Nat) (cur : List Byte) (e : SpadAcc) : List Byte :=
  let o := e.addr - l
  cur.take o ++ written e.kind ((cur.drop o).take e.data.length) e.data ++ cur.drop (o + e.data.length)

/-- The line at `l` after the writes `es`, in ascending port number, to the bytes from before the step (06 R131). -/
def lineAfter (s : State) (l : Nat) (es : List SpadAcc) : List Byte :=
  (byPort (es.filter (fun e => !e.reads && e.addr / 256 = l / 256))).foldl (onLine l)
    ((List.range 256).map (fun i => baseByte s (l + i)))

/-- A read noted among the step's accesses. -/
def noteRead (s : State) (u : Who) (p : Nat) : State :=
  let e : SpadAcc := { port := u.port, tag := u.tag, word := u.word, rep := u.rep, ctx := u.ctx, kind := .read, addr := p * 65536,
                       data := [], old := [], val := [] }
  if s.stepSpad.contains e then s else { s with stepSpad := s.stepSpad ++ [e] }

/-- A write of `u` as it stands among the step's accesses. -/
def accOf (s : State) (u : Who) (k : Acc) (a : Nat) (bs : List Byte) : SpadAcc :=
  { port := u.port, tag := u.tag, word := u.word, rep := u.rep, ctx := u.ctx, kind := k, addr := a, data := bs,
    old := (List.range bs.length).map (fun i => baseByte s (a + i)), val := written k (seenBytes s u a bs.length) bs }

/-- A write within one line takes its place among the step's accesses: alone on its page it is stored as it is, else the line is
what all the step's writes leave in ascending port number (06 R131). -/
def storeLine (s : State) (u : Who) (k : Acc) (a : Nat) (bs : List Byte) : State :=
  let e := accOf s u k a bs
  let t := { s with stepSpad := s.stepSpad ++ [e] }
  if meets s u (a / 65536) then spadPut t (a / 256 * 256) (lineAfter s (a / 256 * 256) t.stepSpad) else spadPut t a e.val

/-- A later write `x` falls with the failed write `e`: it belongs to the same word (06 R146), to the same window flit (07 R176), or to the
same host frame (06 R151). -/
def SpadAcc.goesWith (e x : SpadAcc) : Bool :=
  !x.reads && ((e.word.isSome && x.word = e.word) || (e.tag = 0xF && x.tag = 0xF && x.port = e.port) ||
    (e.port = 16 && x.port = 16 && x.page = e.page))

/-- The window flit that an access belongs to. -/
def WinDone.made (d : WinDone) (e : SpadAcc) : Bool :=
  e.tag = 0xF && e.port = d.sp && d.lo ≤ e.addr && e.addr < d.lo + d.len

/-- A write `e` of the step that the judgement of a later command of the same step fails (06 R146, R148): it and the later accesses
of its word are suppressed, their lines and pages are as if they had not been made, and the word ends with its fault; a window flit is
refused (07 R176). -/
def retract (s : State) (e : SpadAcc) (f : Nat) : State :=
  if !s.stepSpad.contains e then s
  else
  let later := (s.stepSpad.dropWhile (fun x => x ≠ e)).tail
  let gone := e :: later.filter (fun x => e.goesWith x)
  let kept := s.stepSpad.filter (fun x => !gone.contains x)
  let t := gone.foldl (fun t x => spadPut t (x.addr / 256 * 256) (lineAfter s (x.addr / 256 * 256) kept)) s
  let t := { t with stepSpad := kept }
  let t := gone.foldl (fun t x => setPage t x.page (judgeStep (pageBase t x.page) (pageAccs t x.page)).1) t
  let t := match e.word with
    | some id => leaveArray { abandon (dropRun t id) (.word id) with units := t.units.filter (fun r => r.id ≠ id) } .matrix id
    | none => { t with winDone := t.winDone.map (fun d => if gone.any (fun x => d.made x) then { d with bad := true } else d) }
  report t f e.rep e.ctx

/-- The page `p` judged again with the accesses `es` of the step under way: writes that now fail are retracted, but for the newest
access `e` itself. -/
def rejudge (s : State) (p : Nat) (es : List SpadAcc) : State :=
  let r := judgeStep (pageBase s p) es
  setPage (r.2.foldl (fun t x => retract t x.1 x.2) s) p r.1

/-- An access of `u` to a page judged (06 R148): the fault, or the state with the page's new state. Unchecked mode judges nothing (06
R149); a second producer's accumulate-write leaves free bytes there (`storeOwned`). Where others have accessed the page in the same step, a read is judged against the state before the step, and a write takes
its place by its port. -/
def admitAccess (s : State) (u : Who) (k : Acc) (p : Nat) : Except Nat State :=
  if !s.checked then .ok s
  else if meets s u p then
    let own := (pageAccs s p).filter (fun e => e.by u && !e.reads)
    let e : SpadAcc := { port := u.port, tag := u.tag, word := u.word, rep := u.rep, ctx := u.ctx, kind := k, addr := p * 65536,
                         data := [], old := [], val := [] }
    if k = .read then
      if !own.isEmpty then .ok s
      else match judgePage (pageBase s p) u.tag .read with
        | .error f => .error f
        | .ok _ => let t := noteRead (notePage s p) u p; .ok (rejudge t p (pageAccs t p))
    else match (judgeStep (pageBase s p) (pageAccs s p ++ [e])).2.find? (fun x => x.1 = e) with
      | some x => .error x.2
      | none => .ok (rejudge (notePage s p) p (pageAccs s p ++ [e]))
  else match judgePage (getPage s p) u.tag k with
    | .error f => .error f
    | .ok v =>
      let t := setPage (notePage s p) p v
      .ok (if k = .read then noteRead t u p else t)

/-- The result of an access or a run of them: the state, the bytes delivered before any failure, and the failure. -/
structure Got where
  s    : State
  data : List Byte
  fail : Option Nat

/-- What an access finds in the words whose code it checks: single-bit errors are corrected, counted and reported whether or not the
access then meets an uncorrectable word (06 R152). -/
def checkWords (s : State) (c : Option Ctx) (ws : List Nat) : State := (marked s .single ws).foldl (corrected c) s

/-! ### One producer (01 R29) -/

/-- The mark of a producer among those who accumulate. -/
def ownerCode (u : Who) : Nat := u.tag.toNat + 1

/-- The 4-byte elements that `n` bytes from `a` touch. -/
def elemsOf (a n : Nat) : List Nat := if n = 0 then [] else (List.range ((a + n - 1) / 4 - a / 4 + 1)).map (fun i => a / 4 + i)

/-- No page state judges the producers of a page: unchecked mode, or an OPEN page (06 R148, R149). -/
def untracked (s : State) (p : Nat) : Bool := !s.checked || (getPage s p).st = 3

/-- An accumulate-write of `u` is a second producer's: another has accumulated into one of its elements since that element's last plain
write. In unchecked mode 00 R8 applies (01 R29; 06, below R150): what it leaves is unspecified. -/
def secondProducer (s : State) (u : Who) (k : Acc) (a n : Nat) : Bool :=
  k ≠ .write && untracked s (a / 65536) &&
    (elemsOf a n).any (fun e => sget 0 s.accOwn e ≠ 0 && sget 0 s.accOwn e ≠ ownerCode u)

/-- The producers after a write: a plain write begins anew, an accumulate-write marks its elements. -/
def takeOwners (s : State) (u : Who) (k : Acc) (a n : Nat) : State :=
  if !untracked s (a / 65536) then s
  else match k with
  | .accum _ => { s with accOwn := (elemsOf a n).foldl (fun m e => sput 0 m e (ownerCode u)) s.accOwn }
  | _ => dropOwners s a n

/-- Bytes with the k-th unspecified contents. -/
def freeBytes (k a n : Nat) : List Byte := sgets 0 (snorm 0 (Config.freeCells k)) a n

/-- A write within one line stored as 01 R29 has it: a second producer's accumulate-write leaves free bytes. -/
def storeOwned (s : State) (u : Who) (k : Acc) (a : Nat) (bs : List Byte) : State :=
  takeOwners
    (if secondProducer s u k a bs.length then
       storeLine { s with freeCtr := s.freeCtr + 1 } u .write a (freeBytes s.freeCtr a bs.length)
     else storeLine s u k a bs) u k a bs.length

/-- A read of `n` bytes within one line (06 R128): page state first, then ECC. DESIGN CHOICE (log 88): of the line only the words that
hold the bytes wanted are checked (06 R152), and a read that fails its ECC check leaves the page's state as it was (06 R146). -/
def lineRead (s : State) (u : Who) (a n : Nat) : Got :=
  match admitAccess s u .read (a / 65536) with
  | .error e => { s := s, data := [], fail := some e }
  | .ok t =>
    let ws := wordsOf a n
    if (marked s .double ws).isEmpty then { s := checkWords t u.ctx ws, data := seenBytes s u a n, fail := none }
    else { s := checkWords s u.ctx ws, data := [], fail := some fSpadUe }

/-- A write or accumulate-write within one line: the words that a plain write covers only in part, and every word of an accumulate-write,
are checked as a read checks them (06 R133, R135, R152), and every word it touches is stored with valid check bits. -/
def lineWrite (s : State) (u : Who) (k : Acc) (a : Nat) (bs : List Byte) : Got :=
  match admitAccess s u k (a / 65536) with
  | .error e => { s := s, data := [], fail := some e }
  | .ok t =>
    let n := bs.length
    let ws := wordsOf a n
    let part := if k = .write then ws.filter (fun w => !covers a n w) else ws
    if (marked s .double part).isEmpty then
      { s := storeOwned (cleanWords (checkWords t u.ctx part) ws) u k a bs, data := [], fail := none }
    else { s := checkWords s u.ctx part, data := [], fail := some fSpadUe }

/-- The bytes of a run that its first access takes: up to the end of the line. -/
def piece (a n : Nat) : Nat := min n (256 - a % 256)

/-- A run of `n` bytes read line by line; `fuel` bounds the number of lines. -/
def runRead (u : Who) : Nat → State → Nat → Nat → Got
  | 0, s, _, _ => { s := s, data := [], fail := none }
  | k + 1, s, a, n =>
    if n = 0 then { s := s, data := [], fail := none }
    else
      let p := piece a n
      let g := lineRead s u a p
      match g.fail with
      | some e => { s := g.s, data := [], fail := some e }
      | none =>
        let r := runRead u k g.s (a + p) (n - p)
        { s := r.s, data := g.data ++ r.data, fail := r.fail }

/-- A run of bytes written line by line. -/
def runWrite (u : Who) (m : Acc) : Nat → State → Nat → List Byte → Got
  | 0, s, _, _ => { s := s, data := [], fail := none }
  | k + 1, s, a, bs =>
    if bs.isEmpty then { s := s, data := [], fail := none }
    else
      let p := piece a bs.length
      let g := lineWrite s u m a (bs.take p)
      match g.fail with
      | some e => { s := g.s, data := [], fail := some e }
      | none => runWrite u m k g.s (a + p) (bs.drop p)

/-- The physical address of offset `o` in a handle (06 R138). -/
def physOf (h : Handle) (o : Nat) : Nat := h.base.toNat * 65536 + o

/-- A handle's extent in bytes (06 R138). -/
def extentOf (h : Handle) : Nat := h.npages.toNat * 65536

/-- Bytes read through a handle. -/
def wordRead (s : State) (u : Who) (h : Handle) (o n : Nat) : Got := runRead u (n + 1) s (physOf h o) n

/-- Bytes written through a handle. -/
def wordWrite (s : State) (u : Who) (h : Handle) (m : Acc) (o : Nat) (bs : List Byte) : Got :=
  runWrite u m (bs.length + 1) s (physOf h o) bs

/-! ### The checks of 06 R141 -/

/-- A handle that a word names: the index and generation it carries, whether the word writes or accumulates through it, and the
runs of bytes (offset and length) it reads or writes there. -/
structure Use where
  idx  : Nat
  gen  : Nat
  wr   : Bool
  acc  : Bool
  runs : List (Int × Nat)

/-- A run within an extent (06 R142): exact arithmetic; a run of no bytes names no byte. -/
def runFits (ext : Nat) (r : Int × Nat) : Bool := r.2 = 0 || (0 ≤ r.1 && r.1 + r.2 ≤ (ext : Int))

/-- The checks of 06 R141 in their order, each on every handle before the next: the first fault met. A run of no bytes is still held to
its alignment (06 R143). -/
def checkUses (s : State) (us : List Use) : Option Nat :=
  if us.any (fun u => !(getH s u.idx).valid || (getH s u.idx).gen.toNat ≠ u.gen) then some fStale
  else if us.any (fun u => (u.wr || u.acc) && (getH s u.idx).wp) then some fProtect
  else if us.any (fun u => u.acc && !(getH s u.idx).sp) then some fAccum
  else if us.any (fun u => u.acc && u.runs.any (fun r => r.1 % 4 ≠ 0)) then some fMisaligned
  else if us.any (fun u => u.runs.any (fun r => !runFits (extentOf (getH s u.idx)) r)) then some fExtent
  else none

/-- The pages that a run of a handle touches. -/
def runPages (h : Handle) (r : Int × Nat) : List Nat :=
  if r.2 = 0 then [] else
    let a := physOf h r.1.toNat
    (List.range ((a + r.2 - 1) / 65536 - a / 65536 + 1)).map (fun i => a / 65536 + i)

/-- The pages that a word writes. -/
def writtenPages (s : State) (us : List Use) : List Nat :=
  (us.filter (fun u => u.wr || u.acc)).flatMap (fun u => u.runs.flatMap (runPages (getH s u.idx)))

/-- The planned page moved to the head of the copy order by a held write (13 R288). -/
def urgent (s : State) (p : CopyPage → Bool) : State :=
  { s with st := { s.st with cur := { s.st.cur with
      pages := s.st.cur.pages.filter p ++ s.st.cur.pages.filter (fun q => !p q) } } }

/-- Is a scratchpad page protected by a snapshot (13 R288)? -/
def protPage (s : State) (p : Nat) : Bool := s.st.protSpad.contains p

/-- A word that would write protected pages stalls before its accesses, and its pages move to the head of the copy order
(13 R288). -/
def heldPages (s : State) (us : List Use) : List Nat := (writtenPages s us).filter (protPage s)

/-- The state in which held pages are copied first. -/
def urge (s : State) (ps : List Nat) : State := urgent s (fun q => !q.stack && ps.contains q.addr)

/-- The handles that a word names. -/
def useIdx (us : List Use) : List Nat := us.map (fun u => u.idx)

/-- The scratchpad bytes that a word's uses name (01 R26). -/
def useFoot (s : State) (us : List Use) : List Foot :=
  us.flatMap (fun u => u.runs.map (fun r =>
    { place := .spad, wr := u.wr || u.acc, acc := u.acc, lo := physOf (getH s u.idx) r.1.toNat, len := r.2 }))

end Sys2Proof.Machine
end

