-- ==== Sys2Proof/Machine/Words.lean ====
section
/-!
DEFINITION. How an engine word starts: which head word an engine may take (08 R197-R199), the refusal of reserved bits
(08 R186), and the frame that every engine word shares.
-/

namespace Sys2Proof.Machine

/-- CH of a DXFER word (07 R157). -/
def wCh (w : W128) : Nat := fld w 91 2

/-- A received flit has taken a channel's stream port in the step under way: the channel's access moves to the next step (07 R177). -/
def flitOn (s : State) (ch : Nat) : Bool := s.stepSpad.any (fun e => e.port = 12 + ch && e.tag = 0xF)

/-- A channel has made an access on its stream port in the step under way: a write, or the reads of a DXFER whose accesses began in the
step. -/
def channelOn (s : State) (ch : Nat) : Bool :=
  s.stepSpad.any (fun e => e.port = 12 + ch && e.tag ≠ 0xF) ||
    (s.running ++ s.stepDone).any (fun r => r.eng = .dma && wOp r.word = 1 && wCh r.word = ch && r.since = s.steps &&
      (match r.job with | .stalled _ _ => false | _ => true) && r.foot.any (fun f => f.place = .spad && !f.wr && f.len ≠ 0))

/-- A DXFER of a channel runs, from its start until it has completed or ended (07 R154, R155). -/
def channelBusy (s : State) (ch : Nat) : Bool :=
  s.running.any (fun r => r.eng = .dma && wOp r.word = 1 && wCh r.word = ch)

/-- A word of one context's queue of an engine still runs. -/
def queueBusy (s : State) (c : Ctx) (e : Eng) : Bool := !(runningOf s e c).isEmpty

/-- The word has started and is stalled before its accesses. -/
def Running.stalled (r : Running) : Bool :=
  match r.job with
  | .stalled _ _ => true
  | _ => false

/-- A word of an engine stands started and stalled before its accesses: the engine stalls with it (13 R288; 03 R81), so that what a later
word accesses follows it (03 R71, 04 R108). -/
def engineStalled (s : State) (e : Eng) : Bool := s.running.any (fun r => r.eng = e && r.stalled)

/-- The engine's own start conditions of a head word (08 R197; 05 R111, 07 R155, 09 R217, 13 R288, R297). The DMA engine stalls by
channel. -/
def startCond (s : State) (c : Ctx) (e : Eng) (w : W128) : Bool :=
  match e with
  | .matrix => !engineStalled s .matrix
  | .vector => !engineStalled s .vector
  | .row => !queueBusy s c .row && !engineStalled s .row
  | .dma => if wOp w = 1 then !channelBusy s (wCh w) && !flitOn s (wCh w)
            else if wOp w = 2 || wOp w = 3 then !queueBusy s c .dma else true
  | .sync => !queueBusy s c .sync
  | .starter => !queueBusy s c .starter

/-- A context whose words may start: it is not held (14 R314). -/
def ctxFree (s : State) (c : Ctx) : Bool := !(getCtx s c).hold && (getCtx s c).run ≠ .held

/-- A head word is ready (08 R197). -/
def headReady (s : State) (c : Ctx) (e : Eng) : Bool :=
  match headOf s c e with
  | some q => ctxFree s c && waitOver (getCtx s c) e q.word && startCond s c e q.word
  | none => false

/-- The context that entry i of the interleave pattern names (10 R241). -/
def patCtx (s : State) (i : Nat) : Ctx := if bit s.cfg.pat i then .c1 else .c0

/-- The entry at which the interleave pattern stands: entries are skipped while their context is HALTED and its matrix queue
is empty (08 R198). `n` entries are still to be looked at. -/
def patEntry (s : State) (i : Nat) : Nat → Option Nat
  | 0 => none
  | n + 1 =>
    let c := patCtx s i
    if (getCtx s c).run = .halted && (queueOf (getCtx s c) .matrix).isEmpty then
      patEntry s ((i + 1) % (s.cfg.plen + 1)) n
    else some i

/-- The entry in force. -/
def patNow (s : State) : Option Nat := patEntry s (s.ilPtr % (s.cfg.plen + 1)) (s.cfg.plen + 1)

/-- C0's head word of an engine is a gang word for which the other members are not ready in the step under way: it is not ready (03 R76, 08
R197). -/
def gangUnready (s : State) (e : Eng) : Bool :=
  e = .matrix && (match headOf s .c0 e with | some q => s.mesh.unready = some q.id | none => false)

/-- The overlap mode lets an engine take a context's head word (08 R197-R199). -/
def chosen (s : State) (c : Ctx) (e : Eng) : Bool :=
  if e = .matrix && s.cfg.ilMode then
    match patNow s with
    | some i => patCtx s i = c
    | none => false
  else c = .c0 || !headReady s .c0 e || gangUnready s e

/-- An engine may start the head word of a context's queue, and that word is `w` (01; 08 R197; 13 R284; 14 R314, R315): not while it stalls
with a report (14 R306). -/
def mayStart (s : State) (c : Ctx) (e : Eng) (w : W128) : Bool :=
  runs s && !snapWait s && !overdue s (engRep e) && headReady s c e &&
    (match headOf s c e with | some q => q.word = w | none => false)

/-- The head word of a queue, for a word known to stand there. -/
def headWord (s : State) (c : Ctx) (e : Eng) : QWord := (headOf s c e).getD { id := 0, word := 0 }

/-- A bit of a mask set in a word. -/
def anyBit (w : W128) (mask : Nat) : Bool := w.toNat &&& mask ≠ 0

/-- All bits below `n`. -/
def lowMask (n : Nat) : Nat := 2 ^ n - 1

/-- What a word does when it starts: it is refused with a fault; it starts and stalls before its accesses, which are held by
protected pages (13 R288) or by a Rise not yet granted (03 R81); or it runs. `foot` lists the places it reads and writes. -/
inductive Begin where
  | refuse (code : Nat)
  | wait (pages : List Nat) (handles : List Nat) (foot : List Foot) (desc : List W64 := [])
  | start (handles : List Nat) (job : Job) (run : State → Got) (foot : List Foot := [])

/-! ### Words that meet on a place (00 R8; 01 R26, R29; 08 R200) -/

/-- Two runs of one place share a part of it; an empty run shares none. -/
def Foot.meets (a b : Foot) : Bool :=
  a.place = b.place && a.len ≠ 0 && b.len ≠ 0 && a.lo < b.lo + b.len && b.lo < a.lo + a.len

/-- Two accesses that begin in one step have the outcome that a chapter states: of a scratchpad byte (06 R131), of an accumulator entry read
and written (03 R54), of a tracker advanced and cast or observed through (02 R52). -/
def outcomeStated (a b : Foot) : Bool :=
  match a.place with
  | .spad => true
  | .acc => a.wr != b.wr
  | .tracker => (a.trk = .advance && b.trk = .through) || (a.trk = .through && b.trk = .advance)
  | _ => false

/-- Two words that cast or observe through a tracker need no order (02 R52): an observation is a maximum (R49), and a cast reads PROP alone
(R51). -/
def observes (a b : Foot) : Bool := a.place = .tracker && a.trk = .through && b.trk = .through

/-- An engine orders the accesses of two words of one queue to a place (03 R71, 04 R108). -/
def queueOrders (e : Eng) (p : Place) : Bool := e = .vector || (e = .matrix && p = .acc)

/-- A word of the queue `q` (none: a window flit or a host write) and another word, of which one writes, are unordered on a part of a
place that both access: neither their queue orders them, nor are both accesses accumulate-writes of one producer (01 R26, R29), nor is
the outcome stated for accesses that begin in one step (`now`). -/
def clashes (now : Bool) (q : Option (Eng × Ctx)) (foot : List Foot) (r : Running) : Bool :=
  let same := q = some (r.eng, r.ctx)
  foot.any (fun a => r.foot.any (fun b =>
    a.meets b && (a.wr || b.wr) && (match a.place with | .vreg _ => false | _ => true) && !(now && outcomeStated a b) &&
    !observes a b && !(same && (queueOrders r.eng a.place || (a.acc && b.acc)))))

/-- The unspecified contents of one word, of two free words. -/
def free64 (k i : Nat) : W64 :=
  let m := snorm 0 (Config.freeWords k)
  BitVec.ofNat 64 ((sget 0 m (2 * i)).toNat * 2 ^ 32 + (sget 0 m (2 * i + 1)).toNat)

/-- A tracker with unspecified contents: FMT, MARGIN and SINIT stay; the history, CUR, NF and PROP, which an observation or an advance writes,
do not. -/
def freeTracker (k : Nat) (t : Tracker) : Tracker :=
  { t with hist := snorm 0 ((List.range 16).map (fun i => (i, sget 0 (snorm 0 (Config.freeWords k)) i))),
           cur := BitVec.ofNat 4 (sget 0 (snorm 0 (Config.freeWords k)) 16).toNat,
           nf := BitVec.ofNat 16 (sget 0 (snorm 0 (Config.freeWords k)) 17).toNat,
           prop := BitVec.ofNat 8 (sget 0 (snorm 0 (Config.freeWords k)) 18).toNat }

/-- A part of a place takes the k-th unspecified contents. -/
def freePlace (s : State) (k : Nat) (f : Foot) : State :=
  match f.place with
  | .spad => { s with spad := sputs 0 s.spad f.lo (freeBytes k f.lo f.len) }
  | .acc =>
    let m := snorm 0 (Config.freeWords k)
    let row (a : Sparse W32) (i : Nat) : Sparse W32 := sputs 0 a ((f.lo + i) * 128) (sgets 0 m ((f.lo + i) * 128) f.cols)
    { s with acc := (List.range f.len).foldl row s.acc }
  | .stat => { s with stat := sputs 0 s.stat f.lo ((List.range f.len).map (fun i => free64 k (f.lo + i))) }
  | .tracker =>
    let ts := (List.range f.len).map (fun i => freeTracker k (sget Tracker.reset s.trackers (f.lo + i)))
    { s with trackers := sputs Tracker.reset s.trackers f.lo ts }
  | .dacc => { s with st := { s.st with dacc := free64 k 0 } }
  | .vreg c => modCtx s c (fun x =>
      { x with vregs := sputs 0 x.vregs f.lo (freeBytes k f.lo f.len) })

/-- The part of a place that a word writes has unspecified contents (00 R8): free values. -/
def freeFoot (s : State) (f : Foot) : State :=
  if f.wr then freePlace { s with freeCtr := s.freeCtr + 1 } s.freeCtr f else s

/-- Every place that a word writes. -/
def freeFeet (s : State) (fs : List Foot) : State := fs.foldl freeFoot s

/-- The running word `id` started only after the earlier word `r` of its queue had completed (05 R111, 07 R155, 09 R217, 13 R297). -/
def startsAfter (s : State) (id : Option Nat) (r : Running) : Bool :=
  match id.bind (findRun s) with
  | some x => x.eng = r.eng && x.ctx = r.ctx && (x.eng = .row || x.eng = .sync || x.eng = .starter ||
      (x.eng = .dma && (wOp x.word ≠ 1 || wCh x.word = wCh r.word)))
  | none => false

/-- The words that an access meets unordered, among those that run and those that have completed in the step under way; `id` is the
accessing word itself. -/
def foes (s : State) (q : Option (Eng × Ctx)) (id : Option Nat) (foot : List Foot) : List Running :=
  (s.running ++ s.stepDone.filter (fun r => !startsAfter s id r)).filter
    (fun r => some r.id ≠ id && clashes (r.since = s.steps) q foot r)

/-- An access to a place that a word not ordered against it accesses, where one of them writes, breaks the disjointness rule (01 R26,
08 R200); where no chapter states an outcome, what either writes is unspecified (00 R8): what it has written by now (`done`, and what the
words met have written) at once, what it still writes as it writes it, and all when it completes. A breach by a word that has completed in
an earlier step is not seen (log 13). -/
def breach (s : State) (q : Option (Eng × Ctx)) (id : Option Nat) (foot done : List Foot) : State :=
  let fs := foes s q id foot
  if fs.isEmpty then s
  else
    let ids := id :: fs.map (fun r => some r.id)
    freeFeet { s with running := s.running.map (fun r => if ids.contains (some r.id) then { r with clash := true } else r) }
      (done ++ fs.flatMap (fun r => r.wrote))

/-- The running word `id` has written further places; where it has met another word on a place, what it writes is unspecified (00 R8). -/
def wrote (s : State) (id : Nat) (fs : List Foot) : State :=
  let t := addWrote s id fs
  match findRun s id with
  | some r => if r.clash then freeFeet t fs else t
  | none => t

/-- The first `n` of the cells that some runs name. -/
def takeFeet : Nat → List Foot → List Foot
  | _, [] => []
  | n, f :: fs => { f with len := min f.len n } :: takeFeet (n - f.len) fs

/-- A part of a vector register. -/
def Foot.ofVreg (f : Foot) : Bool :=
  match f.place with
  | .vreg _ => true
  | _ => false

/-- Of the places that a word would write, those that it has written before the failed access that has ended it (06 R146): what it has
stored in the scratchpad and the accumulator store between `s` and `t`, a tracker that has observed, and of registers and records the
part that the `got` bytes read filled. -/
def storedFeet (s t : State) (id got : Nat) (foot : List Foot) : List Foot :=
  let ws := foot.filter (fun f => f.wr)
  takeFeet got (ws.filter Foot.ofVreg) ++ (ws.filter (fun f => !f.ofVreg)).flatMap (fun f =>
    match f.place with
    | .spad => (t.stepSpad.filter (fun e => e.word = some id && !e.reads && f.lo ≤ e.addr && e.addr < f.lo + f.len)).map
        (fun e => { f with lo := e.addr, len := e.data.length })
    | .acc => ((t.stepAcc.drop s.stepAcc.length).filter (fun e => e.key % 128 = 0 && f.lo ≤ e.key / 128 && e.key / 128 < f.lo + f.len)).map
        (fun e => { f with lo := e.key / 128, len := 1 })
    | .tracker => if s.stepTrk.length < t.stepTrk.length then [f] else []
    | .stat => [{ f with len := min f.len (got / 8) }]
    | _ => [])

/-- The places that a word has accessed which a failed access has ended: what it has stored, and what it has read for it; a word that has
stored nothing leaves nothing unspecified, and its suppressed writes change no byte (06 R146). -/
def reachedFeet (s : State) (id : Nat) (g : Got) (foot : List Foot) : List Foot :=
  let ws := (storedFeet s g.s id g.data.length foot).filter (fun f => f.len ≠ 0)
  if ws.isEmpty then [] else ws ++ foot.filter (fun f => !f.wr)

/-- The accesses of a started word: a failed one ends it (06 R146); a breach leaves free contents. -/
def runWord (s : State) (c : Ctx) (e : Eng) (id : Nat) (run : State → Got) (foot : List Foot) : State :=
  let g := run s
  match g.fail with
  | some code =>
    let fs := reachedFeet s id g foot
    failWord (breach g.s (some (e, c)) (some id) fs (fs.filter (fun f => f.wr))) c e id code
  | none => breach g.s (some (e, c)) (some id) foot (match findRun g.s id with | some r => r.wrote | none => [])

/-- A word started: refused, started and stalled, or run (06 R141, R146; 13 R288). -/
def begun (s : State) (c : Ctx) (e : Eng) (b : Begin) : State :=
  let q := headWord s c e
  match b with
  | .refuse code => refuseWord s c e code
  | .wait ps hs foot d => urge (startWord s c e q hs (.stalled (getCtx s c) d) foot) ps
  | .start hs j run foot => runWord (startWord s c e q hs j foot) c e q.id run foot

/-- A product whose waves are still to pass waits for the grant of a Rise: the array is frozen until then (03 R81). -/
def waitsRise (s : State) (r : Running) : Bool :=
  s.pwr.need && r.eng = .matrix && (wOp r.word = 2 || wOp r.word = 6) && r.foot.any (fun f => f.len ≠ 0)

/-- The stalled word of an engine and a context that `w` names. -/
def stalledWord (s : State) (c : Ctx) (e : Eng) (w : W128) : Option Running :=
  (runningOf s e c).find? (fun r => r.stalled && r.word = w)

/-- The state with the context as it stood when a stalled word started: its operands were read then. -/
def atStart (s : State) (r : Running) : State :=
  match r.job with
  | .stalled x _ => setCtx s r.ctx x
  | _ => s

/-- A stalled word is presented again: what held it has lifted, and it makes its accesses from this step on (13 R288; 03 R81), with the
handles it has had in use since its start. -/
def resumed (s : State) (c : Ctx) (e : Eng) (r : Running) (b : Begin) : State :=
  match b with
  | .start _ j run foot =>
    let t := { s with running := s.running.filter (fun x => x.id ≠ r.id) ++
      [{ r with job := j, foot := foot, wrote := writtenFeet j foot, since := s.steps }] }
    setCtx (runWord (atStart t r) c e r.id run foot) c (getCtx s c)
  | .refuse code => failWord s c e r.id code
  | .wait _ _ _ _ => s

/-- An engine word of the operation `op`: it starts when its engine may take it; a stalled word is a running one, and goes on whether or not
words may start (14 R315, 15 R348). -/
def engineWord (s : State) (c : Ctx) (e : Eng) (w : W128) (op : Nat) (b : State → Begin) : Out :=
  match stalledWord s c e w with
  | some r => guarded (live s && wOp w = op) s (resumed s c e r (b (atStart s r)))
  | none => guarded (mayStart s c e w && chosen s c e && wOp w = op) s (begun s c e (b s))

/-- A no-operation word, whose fields beyond the header are not read; the engine meets a word of a reserved OP in the same way
and refuses it (03 R65, 04 R88, 05 R120, 07 R156, 09 R214, 13 R296; log 11). -/
def nopWord (s : State) (c : Ctx) (e : Eng) (w : W128) (known : List Nat) : Out :=
  guarded (mayStart s c e w && chosen s c e && (wOp w = 0 || !known.contains (wOp w))) s
    (begun s c e (if wOp w = 0 then .start [] .done (fun s => { s := s, data := [], fail := none }) else .refuse fOpcode))

/-- A run that cannot fail. -/
def sure (s : State) : Got := { s := s, data := [], fail := none }

/-- A format code that the Bake set enables (02 R32, 10 R233). -/
def fmtOn (s : State) (f : Nat) : Bool := f ≤ 12 && bit s.cfg.formats f

/-- The first fault of a list of conditions in their order. -/
def firstFault : List (Bool × Nat) → Option Nat
  | [] => none
  | (b, e) :: t => if b then some e else firstFault t

/-- A word whose own checks and handle checks pass starts; the first that fails refuses it (06 R141). `us` is what the checks are made on,
`acts` the part of it that the word accesses, `more` the places beyond the scratchpad that it reads or writes. -/
def beginPart (s : State) (own : List (Bool × Nat)) (us acts : List Use) (j : Job) (run : State → Got) (more : List Foot := []) :
    Begin :=
  match firstFault own with
  | some e => .refuse e
  | none =>
    match checkUses s us with
    | some e => .refuse e
    | none => match heldPages s acts with
      | [] => .start (useIdx us) j run (useFoot s acts ++ more)
      | p :: ps => .wait (p :: ps) (useIdx us) (useFoot s acts ++ more)

/-- A word that accesses all that its checks are made on. -/
def beginWord (s : State) (own : List (Bool × Nat)) (us : List Use) (j : Job) (run : State → Got) (more : List Foot := []) : Begin :=
  beginPart s own us us j run more

/-- Rows of a buffer read one after another (03 R66): their bytes, up to a failure. -/
def readRows (u : Who) (h : Handle) (off stride nb : Nat) : State → List Nat → State × List (List Byte) × Option Nat
  | s, [] => (s, [], none)
  | s, r :: rs =>
    let g := wordRead s u h (off + r * stride) nb
    match g.fail with
    | some f => (g.s, [], some f)
    | none =>
      let t := readRows u h off stride nb g.s rs
      (t.1, g.data :: t.2.1, t.2.2)

/-- Runs of bytes written one after another, up to a failure. -/
def writeRuns (u : Who) (h : Handle) (m : Acc) : State → List (Nat × List Byte) → Got
  | s, [] => sure s
  | s, (o, bs) :: rs =>
    let g := wordWrite s u h m o bs
    match g.fail with
    | some _ => g
    | none => writeRuns u h m g.s rs

end Sys2Proof.Machine
end

