-- ==== Sys2Proof/Machine/Matrix.lean ====
section
/-!
DEFINITION. The matrix engine (03): operand slots, the accumulation rule, folding and placement, drains, gangs, HT6-shape
words.
-/

namespace Sys2Proof.Machine

/-! ### Operand slots (03 R66) -/

/-- The fields of an operand slot. -/
structure Slot where
  fmt    : Nat
  hgen   : Nat
  hidx   : Nat
  off    : Nat
  stride : Nat
  t      : Bool
  tscale : Nat
  sat    : Bool

/-- A slot's fields, from bits [92:0] of the MSET that wrote it (03 R66). -/
def slotOf (w : BitVec 93) : Slot :=
  { fmt := fld w 85 4, hgen := fld w 81 4, hidx := fld w 72 9, off := fld w 45 27, stride := fld w 25 20, t := bit w 24,
    tscale := fld w 16 8, sat := bit w 15 }

/-- Operand slot n of a context. -/
def mslot (s : State) (c : Ctx) (n : Nat) : Slot := slotOf (sget 0 (getCtx s c).mslots n)

/-- Bytes of a row of `n` elements (02 R37). -/
def rowBytes (f n : Nat) : Nat := runBytes f n

/-- The rows of a buffer that holds an r x c matrix in a slot's layout: their number and the elements of each (03 R68). -/
def slotDims (l : Slot) (r c : Nat) : Nat × Nat := if l.t then (c, r) else (r, c)

/-- A slot named by a word as an r x c buffer of a format: its handle and the runs of its rows (03 R68); an empty buffer names
no byte, but a place that its alignment is judged at (06 R143). -/
def slotUse (l : Slot) (fmt r c : Nat) (wr acc : Bool) : Use :=
  let d := slotDims l r c
  { idx := l.hidx, gen := l.hgen, wr := wr, acc := acc,
    runs := if d.1 = 0 || d.2 = 0 then [((l.off : Int), 0)]
            else (List.range d.1).map (fun i => (((l.off + i * l.stride : Nat) : Int), rowBytes fmt d.2)) }

/-! ### Formats (02 R33; 03 R55, R67, R77) -/

/-- A floating-point format of 8 bits or fewer. -/
def narrowFp (f : Nat) : Bool := 3 ≤ f && f ≤ 7

/-- INT8 or INT4. -/
def intFmt (f : Nat) : Bool := f = 8 || f = 9

/-- The operand pairs that R33 permits. -/
def pairOk (a b : Nat) : Bool :=
  (a = b && a ≤ 2) || (intFmt a && intFmt b) || (narrowFp a && narrowFp b)

/-- Destination formats (03 R67). -/
def destFmt (f : Nat) : Bool := f ≤ 4

/-- The formats of HT6 (03 R77). -/
def ht6Fmt (f : Nat) : Bool := f = 1 || f = 2 || f = 3 || f = 4 || f = 8

/-- The packing factor of an operand pair (03 R55). -/
def packing (fa fb : Nat) : Nat :=
  let w := max (fmtBits fa) (fmtBits fb)
  if w > 8 then 1 else if w > 6 then 2 else 4

/-! ### Gang geometry (03 R73, R74) -/

/-- Rows of the gang (10 R232). -/
def gangRows (s : State) : Nat := if s.cfg.shape ≥ 2 then 2 else 1

/-- Columns of the gang. -/
def gangCols (s : State) : Nat :=
  match s.cfg.shape with
  | 0 => 1 | 1 => 2 | 2 => 1 | 3 => 2 | _ => 4

/-- Is the core ganged? -/
def ganged (s : State) : Bool := s.cfg.shape ≠ 0

/-- Member (0, 0), which selects words and reads masks; a core on its own counts as one. -/
def gangLead (s : State) : Bool := !ganged s || (s.cfg.posr = 0 && s.cfg.posc = 0)

/-- Is this member in the bottom row, which holds the results? -/
def gangBottom (s : State) : Bool := s.cfg.posr + 1 = gangRows s

/-- The number of global indices below `n` in blocks of `b` that fall to part `i` of `parts`. -/
def shareOf (n b parts i : Nat) : Nat := ((List.range n).filter (fun k => k / b % parts = i)).length

/-! ### The product (03 R57-R60) -/

/-- What a word's product is made of. -/
structure Mma where
  m     : Nat
  n     : Nat
  k     : Nat
  a     : Slot
  b     : Slot
  d     : Slot
  base  : Nat
  dst   : Bool
  accum : Bool
  mx    : Bool
  sa    : Slot
  sb    : Slot
  mask  : Nat
  msk   : Slot
  obs   : Bool
  tid   : Nat
  ht6   : Bool

/-- The product of an MMA word (03 R67). -/
def mmaOf (s : State) (c : Ctx) (w : W128) : Mma :=
  { m := fld w 77 16, n := fld w 61 16, k := fld w 45 16, a := mslot s c (fld w 41 4), b := mslot s c (fld w 37 4),
    d := mslot s c (fld w 33 4), base := fld w 21 12, dst := bit w 20, accum := bit w 19, mx := bit w 18,
    sa := mslot s c (2 * fld w 15 3), sb := mslot s c (2 * fld w 15 3 + 1), mask := fld w 13 2, msk := mslot s c (fld w 9 4),
    obs := bit w 7, tid := fld w 0 7, ht6 := false }

/-- The product of an MMA6 word (03 R77). -/
def mma6Of (s : State) (c : Ctx) (w : W128) : Mma :=
  let z := slotOf 0
  { m := 64, n := 64, k := 64, a := mslot s c (fld w 89 4), b := mslot s c (fld w 85 4), d := z, base := fld w 73 12,
    dst := false, accum := bit w 72, mx := false, sa := z, sb := z, mask := 0, msk := z, obs := false, tid := 0, ht6 := true }

/-- K indices of this member's share (03 R74). -/
def kShare (s : State) (p : Mma) : Nat :=
  shareOf p.k (128 * packing p.a.fmt p.b.fmt) (gangRows s) s.cfg.posr

/-- N columns of this member's share (03 R74). -/
def nShare (s : State) (p : Mma) : Nat := shareOf p.n 128 (gangCols s) s.cfg.posc

/-- Ceiling of a quotient. -/
def cdiv (a b : Nat) : Nat := (a + b - 1) / b

/-- Does this member read A (03 R74)? -/
def readsA (s : State) : Bool := s.cfg.posc = 0 || !ganged s

/-- The word reads or writes no element. -/
def Mma.isEmpty (p : Mma) : Bool := p.m = 0 || p.n = 0 || p.k = 0

/-- The engine's own checks of a product in the order of 06 R141: OPCODE_RESERVED, FORMAT_CODE, EXTENT_FAULT (03 R66-R68, R77). A
TSCALE is judged where this member applies it: that of A where the member reads A, that of the destination where it drains (03 R66,
R74). DESIGN CHOICE (logs 66, 70): MX = 1 over formats that are no MX formats is refused; in a gang a member checks T of its scale
slots and mask slot, and the format of its destination slot, whether or not it reads them. An MMA6 is held to ACC_BASE + 64 ≤ 4,096
at every member (03 R77). DESIGN CHOICE (log 28): a product with M, N or K = 0, which makes no access, is still held to the accumulator's
extent and to its formats. -/
def mmaChecks (s : State) (p : Mma) (resv : Bool) : List (Bool × Nat) :=
  let nb := cdiv (nShare s p) 128
  let works := !p.isEmpty && kShare s p ≠ 0
  [(resv || p.mask = 3, fOpcode),
   (!fmtOn s p.a.fmt || !fmtOn s p.b.fmt || !pairOk p.a.fmt p.b.fmt ||
    (p.ht6 && !(ht6Fmt p.a.fmt && ht6Fmt p.b.fmt)) ||
    (p.mx && !(isMxFmt p.a.fmt && isMxFmt p.b.fmt && fmtOn s 10)) ||
    (fmtBits p.a.fmt ≤ 8 && works && ((readsA s && p.a.tscale = 255) || (nShare s p ≠ 0 && p.b.tscale = 255))) ||
    (p.dst && (!fmtOn s p.d.fmt || !destFmt p.d.fmt || (p.accum && p.d.fmt ≠ 0) ||
      (gangBottom s && !p.isEmpty && nShare s p ≠ 0 && (p.d.fmt = 3 || p.d.fmt = 4) && p.d.tscale = 255))), fFormat),
   ((!p.dst && p.base + p.m * (if p.ht6 then 1 else nb) > 4096) || (p.dst && p.base % 2048 ≠ 0) || (p.mx && p.k % 32 ≠ 0) ||
    (p.mx && (p.sa.t || p.sb.t)) || (p.mask ≠ 0 && p.msk.t), fExtent)]

/-- Bytes of a mask buffer (03 R68). -/
def maskBytes (p : Mma) : Nat := if p.mask = 1 then cdiv p.m 8 else cdiv p.m 128

/-- The handles that a product names, each as its share on this member (03 R68, R74). -/
def mmaUses (s : State) (p : Mma) : List Use :=
  let e := p.isEmpty
  let kl := if e then 0 else kShare s p
  let nl := if e then 0 else nShare s p
  let m := if e then 0 else p.m
  (if readsA s then [slotUse p.a p.a.fmt m kl false false] else []) ++
  [slotUse p.b p.b.fmt kl nl false false] ++
  (if p.mx then (if readsA s then [slotUse p.sa 10 m (kl / 32) false false] else []) ++
    [slotUse p.sb 10 nl (kl / 32) false false] else []) ++
  (if p.mask ≠ 0 && gangLead s then [slotUse p.msk 10 1 (if e then 0 else maskBytes p) false false] else []) ++
  (if p.dst && gangBottom s then [slotUse p.d p.d.fmt m nl true p.accum] else [])

/-- The rows that a mask computes (03 R72). -/
def maskRows (p : Mma) (bs : List Byte) : List Nat :=
  (List.range p.m).filter (fun i =>
    let b := if p.mask = 1 then i else i / 16
    bit (bs.getD (b / 8) 0) (b % 8))

/-- The rows that a product computes: all, those that its mask selects, or those that arrive with the waves (03 R72, R74). -/
def rowsOf (s : State) (c : Ctx) (g : GangIn) (p : Mma) : List Nat :=
  if p.mask = 0 then List.range p.m
  else if gangLead s then
    let a := physOf (getH s p.msk.hidx) p.msk.off
    maskRows p ((List.range (maskBytes p)).map (fun i => seenByte s (wordWho s .matrix c) (a + i)))
  else g.rows

/-- The computed rows of a slot's buffer of `c` elements a row, `whole` rows where they run along the other index (03 R72). -/
def rowsUse (l : Slot) (fmt : Nat) (rows : List Nat) (c : Nat) (wr acc : Bool) : Use :=
  let w := fmtBits fmt / 8
  { idx := l.hidx, gen := l.hgen, wr := wr, acc := acc,
    runs := if l.t then (List.range c).flatMap (fun j => rows.map (fun i => (((l.off + j * l.stride + i * w : Nat) : Int), w)))
            else rows.map (fun i => (((l.off + i * l.stride : Nat) : Int), rowBytes fmt c)) }

/-- What a product accesses of the handles that it names: of a masked one the rows that it computes (03 R72). DESIGN CHOICE (log 91): of an A
whose rows run along k, a masked product reads whole rows. -/
def mmaActs (s : State) (c : Ctx) (g : GangIn) (p : Mma) : List Use :=
  if p.mask = 0 || p.isEmpty then mmaUses s p
  else
    let kl := kShare s p
    let nl := nShare s p
    let rows := rowsOf s c g p
    (if gangLead s then [slotUse p.msk 10 1 (maskBytes p) false false] else []) ++
    (if rows.isEmpty then []
     else
       (if readsA s then [if p.a.t then slotUse p.a p.a.fmt p.m kl false false else rowsUse p.a p.a.fmt rows kl false false] else []) ++
       [slotUse p.b p.b.fmt kl nl false false] ++
       (if p.mx then (if readsA s then [rowsUse p.sa 10 rows (kl / 32) false false] else []) ++
         [slotUse p.sb 10 nl (kl / 32) false false] else []) ++
       (if p.dst && gangBottom s then [rowsUse p.d p.d.fmt rows nl true p.accum] else []))

/-- One operand as this member holds it: the code of an element and the scale exponent of its group; `none` where the block
scale is 0xFF (02 R42, 03 R56). -/
structure Opnd where
  fmt  : Nat
  code : Nat → Nat → Nat
  exp  : Nat → Nat → Option Int

/-- The tensor part of a scale exponent (03 R56). -/
def tensorExp (l : Slot) : Int := if fmtBits l.fmt ≤ 8 then (l.tscale : Int) - 127 else 0

/-- The scale exponent of a group from its block scale byte (03 R56, 02 R36). -/
def groupExp (l : Slot) (mx : Bool) (code : Nat) : Option Int :=
  if !mx then some (tensorExp l) else if code = 255 then none else some (tensorExp l + ((code : Int) - 127))

/-- Row `i` of a list of rows. -/
def rowAt (rows : List (List Byte)) (i : Nat) : List Byte := rows.getD i []

/-- The exact value of an element of 8 bits or fewer (03 R56): MXINT8 in units of 2^-6. -/
def elemNum (f : Nat) (mx : Bool) (code : Nat) : Num := if mx then scaleN (decodeElem f code) (mxUnit f) else decodeElem f code

/-- The indices of 32-index group `g` among the local indices `0 .. kl - 1`. -/
def groupIdx (kl g : Nat) : List Nat := (List.range (min 32 (kl - 32 * g))).map (fun i => 32 * g + i)

/-- The rounded value of one group (03 R57, R59). -/
def groupSum (a b : Opnd) (mx : Bool) (i j kl g : Nat) : W32 :=
  match a.exp i g, b.exp j g with
  | some ea, some eb =>
    let w := (groupIdx kl g).foldl (fun w k =>
      addN w (mulN (elemNum a.fmt mx (a.code i k)) (elemNum b.fmt mx (b.code j k)))) (.fin false 0 0)
    rne32 (scaleN w (ea + eb))
  | _, _ => nan32

/-- One step of index k for operands of 16 bits or FP32 (03 R57, R60). -/
def kStep (a b : Opnd) (i j : Nat) (s : W32) (k : Nat) : W32 :=
  if a.fmt = 0 then
    let x := splitFp32 (BitVec.ofNat 32 (a.code i k))
    let y := splitFp32 (BitVec.ofNat 32 (b.code j k))
    let v := decodeFp bf16f
    fmaN (fmaN (fmaN s (v x.1) (v y.1)) (v x.1) (v y.2)) (v x.2) (v y.1)
  else fmaN s (decodeElem a.fmt (a.code i k)) (decodeElem b.fmt (b.code j k))

/-- The running sum of element (i, j) carried over the local indices from `k0` on (03 R57). -/
def elemSum (a b : Opnd) (mx : Bool) (kl k0 i j : Nat) (init : W32) : W32 :=
  if fmtBits a.fmt > 8 then
    ((List.range (kl - k0)).map (fun x => k0 + x)).foldl (kStep a b i j) init
  else
    ((List.range (cdiv kl 32 - k0 / 32)).map (fun x => k0 / 32 + x)).foldl
      (fun s g => fadd s (groupSum a b mx i j kl g)) init

/-! ### The accumulator store (03 R54) -/

/-- The key of an accumulator entry. -/
def accKey (row col : Nat) : Nat := row * 128 + col

/-- An accumulator entry. -/
def accGet (s : State) (row col : Nat) : W32 := sget 0 s.acc (accKey row col)

/-- An accumulator entry as a read in this step returns it (03 R54): the value from before the step; a matrix word of context `own` sees
what its own queue has written (03 R71). -/
def accSeen (s : State) (own : Option Ctx) (key : Nat) : W32 :=
  match (s.stepAcc.filter (fun e => e.key = key && some e.ctx = own)).getLast? with
  | some e => e.val
  | none => match s.stepAcc.find? (fun e => e.key = key) with
    | some e => e.old
    | none => sget 0 s.acc key

/-- An accumulator entry written by a matrix word of a context, with valid check bits. -/
def accPut (s : State) (c : Ctx) (row col : Nat) (v : W32) : State :=
  let k := accKey row col
  { s with acc := sput 0 s.acc k v, accErr := sput .good s.accErr k .good,
           stepAcc := s.stepAcc ++ [{ key := k, old := accSeen s none k, val := v, ctx := c }] }

/-- An accumulator entry read for a word of context `c` (03 R54): a single-bit error is corrected and reported, an uncorrectable one
fails. DESIGN CHOICE (log 92): the corrected entry is written back. -/
def accRead (s : State) (c : Ctx) (own : Option Ctx) (row col : Nat) : State × W32 × Option Nat :=
  match sget .good s.accErr (accKey row col) with
  | .good => (s, accSeen s own (accKey row col), none)
  | .single =>
    (report { s with accErr := sput .good s.accErr (accKey row col) .good } fAccCe 9 (some c),
     accSeen s own (accKey row col), none)
  | .double => (s, 0, some fAccUe)

/-- Entries of a row read. DESIGN CHOICE (log 90): a matrix word's read checks the entries of the columns that it uses, though the path moves
the whole row (03 R54). -/
def accReadRow (c : Ctx) (own : Option Ctx) (row : Nat) : State → List Nat → State × List W32 × Option Nat
  | s, [] => (s, [], none)
  | s, j :: js =>
    let r := accRead s c own row j
    match r.2.2 with
    | some f => (r.1, [], some f)
    | none =>
      let t := accReadRow c own row r.1 js
      (t.1, r.2.1 :: t.2.1, t.2.2)

/-- Entries of a row written from column 0. -/
def accPutRow (s : State) (c : Ctx) (row : Nat) (vs : List W32) : State :=
  (List.range vs.length).foldl (fun s j => accPut s c row j (vs.getD j 0)) s

/-! ### The gang links (03 R73-R75, 16 R360) -/

/-- Array rows' K indices of one slice of this member. -/
def sliceLen (p : Mma) : Nat := 128 * packing p.a.fmt p.b.fmt

/-- The gang K slices of a product (03 R74). -/
def sliceCount (s : State) (p : Mma) : Nat := cdiv p.k (sliceLen p * gangRows s)

/-- The key of a link transfer (log 14): gang slice, n-block, wave of the slice, and which of the wave's two transfers. -/
def linkKey (j jb wave h : Nat) : Nat := ((j * 65536 + jb) * 1048576 + wave) * 2 + h

/-- The waves that a row of activations occupies: three for FP32 operands, one per product term, else one (03 R60). -/
def rowWaves (p : Mma) : Nat := if p.a.fmt = 0 then 3 else 1

/-- The first wave of the i-th computed row at array row `r`: the feeder skews the rows by the waves of one (03 R53, R60). -/
def waveAt (p : Mma) (i r : Nat) : Nat := rowWaves p * (i + r)

/-- The element bits of an activation on GW_IN_D: array row `r` carries them in bits [16r + 15 : 16r] at the first wave of the i-th computed
row, and above 16 bits in a second transfer (03 R53, R75). DESIGN CHOICE (log 14): the low 16 bits go first; the activations of one array
row stand in ascending k from bit 0, and an FP32 activation goes as its own code, at each of its three waves. -/
def actOf (g : GangIn) (p : Mma) (i k : Nat) : Nat :=
  let f := packing p.a.fmt p.b.fmt
  let q := k % sliceLen p
  let r := q / f
  let w (h : Nat) : Nat := fld (sget 0 g.gw (linkKey (k / sliceLen p) 0 (waveAt p i r) h)) (16 * r) 16
  ((w 0 + w 1 * 65536) >>> (q % f * fmtBits p.a.fmt)) % 2 ^ fmtBits p.a.fmt

/-- The partial sum of the i-th computed row and column `col` of an n-block that GN_IN_D brings for a gang slice: at the first wave of the
row in that column (03 R53, R60). -/
def psumOf (g : GangIn) (p : Mma) (j jb i col : Nat) : W32 :=
  BitVec.ofNat 32 (fld (sget 0 g.gn (linkKey j jb (waveAt p i 0 + col) 0)) (32 * col) 32)

/-- A field of a bundle set. -/
def putBundle {n : Nat} (m : Sparse (BitVec n)) (key lo len v : Nat) : Sparse (BitVec n) := sput 0 m key (setFld (sget 0 m key) lo len v)

/-- The K indices that cell row `r` of slice `j` holds, packed with their codes (03 R55). -/
def packRow (f bits j len kl : Nat) (code : Nat → Nat) (r : Nat) : Nat :=
  ((List.range f).map (fun x =>
    let k := j * len + r * f + x
    if r * f + x < len && k < kl then code k % 2 ^ bits * 2 ^ (x * bits) else 0)).foldl (· + ·) 0

/-- The activations of `n` computed rows as they pass east on GE_OUT_D, at each wave of their row (03 R60; log 14). -/
def geBundles (p : Mma) (a : Opnd) (kl n : Nat) : Sparse (BitVec 2048) :=
  let f := packing p.a.fmt p.b.fmt
  (List.range (cdiv kl (sliceLen p))).foldl (fun m j =>
    (List.range n).foldl (fun m i =>
      (List.range (min 128 (cdiv (kl - j * sliceLen p) f))).foldl (fun m r =>
        let v := packRow f (fmtBits p.a.fmt) j (sliceLen p) kl (a.code i) r
        (List.range (rowWaves p)).foldl (fun m t =>
          let k := linkKey j 0 (waveAt p i r + t)
          putBundle (putBundle m (k 0) (16 * r) 16 (v % 65536)) (k 1) (16 * r) 16 (v / 65536)) m) m) m) []

/-- The scale exponents of the rows' groups as they go with the activations; 1000 stands for a block scale of 0xFF. -/
def geExps (p : Mma) (a : Opnd) (kl n : Nat) : Sparse Int :=
  if fmtBits p.a.fmt ≤ 8 then
    (List.range n).foldl (fun m i => (List.range (cdiv kl 32)).foldl (fun m g =>
      sput 0 m (i * 65536 + g) ((a.exp i g).getD 1000)) m) []
  else []

/-- A weight as a cell holds it: of an FP32 weight the pair bh, bl (03 R60). -/
def cellCode (fmt code : Nat) : Nat :=
  if fmt = 0 then
    let x := splitFp32 (BitVec.ofNat 32 code)
    x.1 * 65536 + x.2
  else code

/-- The weights that slice `j` of n-block `jb` loads: cells beyond its extent load none (03 R53, R63). -/
def sliceLoads (p : Mma) (b : Opnd) (kl nl jb j : Nat) : List (Nat × W32) :=
  let f := packing p.a.fmt p.b.fmt
  (List.range (min 128 (cdiv (kl - j * sliceLen p) f))).flatMap (fun r =>
    (List.range (min 128 (nl - 128 * jb))).map (fun c => (r * 128 + c,
      BitVec.ofNat 32 (packRow f (fmtBits p.b.fmt) j (sliceLen p) kl (fun k => cellCode p.b.fmt (b.code (128 * jb + c) k)) r))))

/-! ### Drains (03 R62, R69) -/

/-- One entry cast for a destination (02 R38, R39; 03 R66). -/
def drainCode (d : Slot) (v : W32) : Nat :=
  if d.fmt = 3 || d.fmt = 4 then (cvt d.fmt d.sat (scaleN (dec32 v) ((d.tscale : Int) - 127))).code
  else if d.fmt = 0 then (if isNan32 v then nan32.toNat else v.toNat)
  else (cvt d.fmt false (dec32 v)).code

/-- Values observed by a tracker (02 R49). -/
def observeTid (s : State) (obs : Bool) (tid : Nat) (vs : List W32) : State :=
  if obs then
    { s with trackers := sput Tracker.reset s.trackers tid (observeAll (sget Tracker.reset s.trackers tid) (vs.map dec32)),
             stepTrk := s.stepTrk ++ [tid] }
  else s

/-- How a destination is written. -/
def drainMode (accum : Bool) : Acc := if accum then .accum false else .write

/-- Rows of values drained into a destination (03 R62, R69): destination rows `ms`, columns from `n0`; each value is observed,
cast and written. With T = 0 a row is one run, with T = 1 the destination is written column by column. -/
def drainRuns (d : Slot) (ms : List Nat) (n0 : Nat) (rows : List (List W32)) : List (Nat × List Byte) :=
  let w := fmtBits d.fmt / 8
  if d.t then
    (List.range ((rows.headD []).length)).flatMap (fun j =>
      (ms.zip rows).map (fun e =>
        (d.off + (n0 + j) * d.stride + e.1 * w, toLE w (drainCode d (e.2.getD j 0)))))
  else (ms.zip rows).map (fun e => (d.off + e.1 * d.stride + n0 * w, pack d.fmt (e.2.map (drainCode d))))

/-- Rows of values observed and drained. -/
def drainRows (s : State) (c : Ctx) (d : Slot) (h : Handle) (accum obs : Bool) (tid : Nat) (ms : List Nat) (n0 : Nat)
    (rows : List (List W32)) : Got :=
  let s := observeTid s obs tid rows.flatten
  writeRuns (wordWho s .matrix c) h (drainMode accum) s (drainRuns d ms n0 rows)

/-! ### Running a product -/

/-- A list cut into pieces of at most `n`; `fuel` bounds their number. -/
def chunks {α : Type} (n : Nat) : Nat → List α → List (List α)
  | 0, _ => []
  | _ + 1, [] => []
  | f + 1, xs => xs.take n :: chunks n f (xs.drop n)

/-- The seeds of a row of an n-block (03 R57, R62): +0, or the accumulator entries. -/
def seedRow (s : State) (c : Ctx) (p : Mma) (row cols : Nat) : State × List W32 × Option Nat :=
  if p.accum && !p.dst then accReadRow c (some c) row s (List.range cols) else (s, List.replicate cols 0, none)

/-- An element carried over gang slice `j`, of which this member holds the indices `j * slice` onward (03 R57, R63, R74). -/
def sliceSum (p : Mma) (a b : Opnd) (kl j i n : Nat) (init : W32) : W32 :=
  elemSum a b p.mx (min ((j + 1) * sliceLen p) kl) (j * sliceLen p) i n init

/-- One row of one n-block computed (03 R57): where the gang has two rows, the running sum arrives from the member above for the last
gang slice, and this member carries it over its own part. -/
def productRow (s : State) (g : GangIn) (p : Mma) (a b : Opnd) (kl i jb cols : Nat) (seeds : List W32) : List W32 :=
  (List.range cols).map (fun j =>
    let n := 128 * jb + j
    if gangRows s = 2 then sliceSum p a b kl (sliceCount s p - 1) i n (psumOf g p (sliceCount s p - 1) jb i j)
    else elemSum a b p.mx kl 0 i n (seeds.getD j 0))

/-- The rows of one n-block computed and left in the accumulator store, from row `row0` in steps of one per computed row, or at
row ACC_BASE + jb * M + m (03 R62). Each listed row is a pair of its place among the computed rows and its index m. -/
def productBlock (c : Ctx) (g : GangIn) (p : Mma) (a b : Opnd) (kl jb cols : Nat) (rowOf : Nat → Nat → Nat) :
    State → Nat → List (Nat × Nat) → State × List (List W32) × Option Nat
  | s, _, [] => (s, [], none)
  | s, x, (i, m) :: rs =>
    let row := rowOf x m
    let sd := seedRow s c p row cols
    match sd.2.2 with
    | some f => (sd.1, [], some f)
    | none =>
      let vs := productRow s g p a b kl i jb cols sd.2.1
      let t := productBlock c g p a b kl jb cols rowOf (accPutRow sd.1 c row vs) (x + 1) rs
      (t.1, vs :: t.2.1, t.2.2)

/-- What a member of a gang of two rows drives on GS_OUT_D (03 R73): member (0, c) its partial sums of every gang slice, from the seeds
that arrive; member (1, c) the seeds that it returns, of the first slice from its accumulator store, of a later one the sums of the
slice before. -/
def gsBundles (s : State) (c : Ctx) (g : GangIn) (p : Mma) (a b : Opnd) (kl nl : Nat) (rows : List Nat) : Sparse (BitVec 4096) :=
  let js := List.range (sliceCount s p)
  (List.range (cdiv nl 128)).foldl (fun m jb =>
    (List.range (min 128 (nl - 128 * jb))).foldl (fun m col =>
      ((List.range rows.length).zip rows).foldl (fun m e =>
        js.foldl (fun m j =>
          let own (j : Nat) : W32 := sliceSum p a b kl j e.1 (128 * jb + col) (psumOf g p j jb e.1 col)
          let v : W32 :=
            if !gangBottom s then own j
            else if j = 0 then (if p.accum && !p.dst then accSeen s (some c) (accKey (p.base + jb * p.m + e.2) col) else 0)
            else own (j - 1)
          putBundle m (linkKey j jb (waveAt p e.1 0 + col) 0) (32 * col) 32 v.toNat) m) m) m) []

/-- The pieces of a product in fold order (03 R62): the n-block, its columns, the half and the computed rows of each. -/
def pieces (p : Mma) (nl : Nat) (rows : List (Nat × Nat)) : List (Nat × Nat × List (Nat × Nat)) :=
  (List.range (cdiv nl 128)).flatMap (fun jb =>
    let cols := min 128 (nl - 128 * jb)
    if p.dst then (chunks 2048 (rows.length + 1) rows).map (fun ch => (jb, cols, ch)) else [(jb, cols, rows)])

/-- The waves that fill the array in a slice (03 R63, step counts). -/
def fillWaves (s : State) (fp32 : Bool) : Nat :=
  match s.cfg.shape with
  | 0 => if fp32 then 512 else 256
  | 1 => if fp32 then 640 else 384
  | 2 => if fp32 then 896 else 384
  | 3 => if fp32 then 1024 else 512
  | _ => if fp32 then 1280 else 768

/-- The slices of each piece of a product, in fold order, with their waves and the weights that they load (03 R53, R62, R63). -/
def slicesOf (s : State) (id : Nat) (p : Mma) (b : Opnd) (kl nl : Nat) (rows : List Nat) : List Slice :=
  (pieces p nl ((List.range rows.length).zip rows)).flatMap (fun x =>
    (List.range (sliceCount s p)).map (fun j =>
      { id := id, waves := max (x.2.2.length * rowWaves p) (fillWaves s (p.a.fmt = 0)), loads := sliceLoads p b kl nl x.1 j }))

/-- The slices of a product put behind those still to stream (03 R53, R62): in an idle array its first slice loads into the cells, and the
slice that follows the one that streams into the shadow registers. -/
def queueSlices (xs : List Slice) (m : Mesh) : Mesh :=
  match m.slices, xs with
  | [], x :: _ => restock { m with wave := 0, slices := xs, cells := overload m.cells x.loads }
  | ys, _ => restock { m with slices := ys ++ xs }

/-- The number of the word that has started last. -/
def startedId (s : State) : Nat := ((s.running.getLast?).map (fun r => r.id)).getD 0

/-- The array after a product has started (03 R53, R73): the slices that it has still to stream, and what goes out on the gang links, the
row indices of the waves among it (03 R74). DESIGN CHOICE (log 87): a slice's weights are in their shadow registers as soon as the slice
before it streams, and a cell or shadow register that a slice does not load keeps what it held. -/
def meshAfter (s : State) (c : Ctx) (g : GangIn) (p : Mma) (a b : Opnd) (kl nl : Nat) (rows : List Nat) : Mesh :=
  { queueSlices (slicesOf s (startedId s) p b kl nl rows) s.mesh with
    rowsOut := if s.cfg.posc + 1 < gangCols s || s.cfg.posr + 1 < gangRows s then rows else [],
    geOut := if s.cfg.posc + 1 < gangCols s then geBundles p a kl rows.length else [],
    geExp := if s.cfg.posc + 1 < gangCols s then geExps p a kl rows.length else [],
    gsOut := if gangRows s = 2 then gsBundles s c g p a b kl nl rows else [] }

/-- The pieces run one after another; `x` counts them and selects the half (03 R62). -/
def runPieces (c : Ctx) (g : GangIn) (p : Mma) (a b : Opnd) (kl : Nat) (h : Handle) :
    State → Nat → List (Nat × Nat × List (Nat × Nat)) → Got
  | s, _, [] => sure s
  | s, x, (jb, cols, ch) :: ps =>
    let half := (p.base / 2048 + x) % 2
    let rowOf (i m : Nat) : Nat := if p.dst then half * 2048 + i else p.base + jb * p.m + m
    let t := productBlock c g p a b kl jb cols rowOf s 0 ch
    match t.2.2 with
    | some f => { s := t.1, data := [], fail := some f }
    | none =>
      let r := if p.dst then drainRows t.1 c p.d h p.accum p.obs p.tid (ch.map Prod.snd) (128 * jb) t.2.1 else sure t.1
      match r.fail with
      | some _ => r
      | none => runPieces c g p a b kl h r.s (x + 1) ps

/-- The operand A as delivered to this member's rows: from its buffer, or from the west link (03 R64, R74). -/
def opndA (s : State) (g : GangIn) (p : Mma) (rows : List Nat) (ra rs : List (List Byte)) : Opnd :=
  if readsA s then
    { fmt := p.a.fmt,
      code := fun i k => if p.a.t then unpackAt p.a.fmt (rowAt ra k) (rows.getD i 0) else unpackAt p.a.fmt (rowAt ra i) k,
      exp := fun i gr => groupExp p.a p.mx ((rowAt rs i).getD gr 0).toNat }
  else
    { fmt := p.a.fmt,
      code := fun i k => actOf g p i k,
      exp := fun i gr =>
        let e := sget 0 g.actExp (i * 65536 + gr)
        if e = 1000 then none else some e }

/-- The operand B of this member (03 R64). -/
def opndB (p : Mma) (rb rs : List (List Byte)) : Opnd :=
  { fmt := p.b.fmt,
    code := fun n k => if p.b.t then unpackAt p.b.fmt (rowAt rb n) k else unpackAt p.b.fmt (rowAt rb k) n,
    exp := fun n gr => groupExp p.b p.mx ((rowAt rs n).getD gr 0).toNat }

/-- Reads a slot's rows, `none` where the buffer is empty. -/
def readSlot (s : State) (c : Ctx) (l : Slot) (fmt n : Nat) (rows : List Nat) : State × List (List Byte) × Option Nat :=
  if n = 0 then (s, [], none) else readRows (wordWho s .matrix c) (getH s l.hidx) l.off l.stride (rowBytes fmt n) s rows

/-- A chain of reads: a failure ends it. -/
def thenRead (r : State × List (List Byte) × Option Nat) (k : State → List (List Byte) → Got) : Got :=
  match r.2.2 with
  | some f => { s := r.1, data := [], fail := some f }
  | none => k r.1 r.2.1

/-- A product run whole: the mask, the operands and the scales are read, then the pieces run in fold order (03 R57, R62, R72;
log 3). -/
def runMma (c : Ctx) (g : GangIn) (p : Mma) (s : State) : Got :=
  if p.isEmpty then sure s
  else
    let kl := kShare s p
    let nl := nShare s p
    let maskRead := if p.mask ≠ 0 && gangLead s then readSlot s c p.msk 10 (maskBytes p) [0] else (s, [], none)
    thenRead maskRead (fun s mb =>
      let rows := if p.mask = 0 then List.range p.m
                  else if gangLead s then maskRows p (mb.headD []) else g.rows
      if rows.isEmpty then sure s
      else
        let da := slotDims p.a p.m kl
        let db := slotDims p.b kl nl
        thenRead (if readsA s then readSlot s c p.a p.a.fmt da.2 (if p.a.t then List.range kl else rows) else (s, [], none))
          (fun s ra => thenRead (readSlot s c p.b p.b.fmt db.2 (List.range db.1)) (fun s rb =>
            thenRead (if p.mx && readsA s then readSlot s c p.sa 10 (kl / 32) rows else (s, [], none)) (fun s rsa =>
              thenRead (if p.mx then readSlot s c p.sb 10 (kl / 32) (List.range nl) else (s, [], none)) (fun s rsb =>
                let a := opndA s g p rows ra rsa
                let b := opndB p rb rsb
                let s := { s with mesh := meshAfter s c g p a b kl nl rows }
                if gangBottom s then
                  runPieces c g p a b kl (getH s p.d.hidx) s 0 (pieces p nl ((List.range rows.length).zip rows))
                else sure s)))))

/-- The fields of a gang word that every member compares with those of member (0, 0) (03 R76): OP, M, N, K, DST, ACCUM, MX, MASK; of
an MMA6, which fixes the others, OP and ACCUM. -/
def gangFields (w : W128) : List Nat :=
  if wOp w = 6 then [6, fld w 72 1] else [wOp w, fld w 77 16, fld w 61 16, fld w 45 16, fld w 20 1, fld w 19 1, fld w 18 1, fld w 13 2]

/-- The head word on a CTL bundle (16 R360). -/
def ctlHead (x : BitVec 144) : W128 := BitVec.ofNat 128 (fld x 0 128)

/-- The formats of slots SA and SB on a CTL bundle. -/
def ctlFmts (x : BitVec 144) : Nat × Nat := (fld x 128 4, fld x 132 4)

/-- START on a CTL bundle. -/
def ctlStart (x : BitVec 144) : Bool := bit x 136

/-- The CTL bundle that member (0, 0) drives: its head word with its CTX bit, the formats, START and the Rise grant. -/
def ctlOf (s : State) (w : W128) (p : Mma) (start : Bool) : BitVec 144 :=
  BitVec.ofNat 144 (w.toNat + p.a.fmt * 2 ^ 128 + p.b.fmt * 2 ^ 132 + b2n start * 2 ^ 136 + b2n s.pwr.gnt * 2 ^ 137)

/-- This member's head word disagrees with that of member (0, 0) (03 R76). -/
def gangMismatch (s : State) (g : GangIn) (w : W128) (p : Mma) : Bool :=
  !gangLead s && (gangFields (ctlHead g.ctl) ≠ gangFields w || ctlFmts g.ctl ≠ (p.a.fmt, p.b.fmt))

/-- The member's head word disagrees, or another member refused (03 R76). -/
def gangDiffers (s : State) (g : GangIn) (w : W128) (p : Mma) : Bool := g.status = 1 || gangMismatch s g w p

/-- Accumulator entries that a product writes: the columns below `cols` of a run of rows. -/
def accRun (lo len cols : Nat) : Foot := { place := .acc, wr := true, acc := false, lo := lo, len := len, cols := cols }

/-- The columns of n-block `jb` that a member of `nl` columns holds (03 R62, R63). -/
def blockCols (nl jb : Nat) : Nat := min 128 (nl - 128 * jb)

/-- What a product reads and writes beyond the scratchpad (01 R26): the accumulator entries of the computed rows, and the tracker that
observes it. Columns beyond an n-block's extent are not written (03 R63, R77). -/
def mmaFoot (s : State) (c : Ctx) (g : GangIn) (p : Mma) : List Foot :=
  let rows := rowsOf s c g p
  let nl := nShare s p
  if p.isEmpty || !gangBottom s || rows.isEmpty then []
  else if p.dst then
    let ps := pieces p nl ((List.range rows.length).zip rows)
    ((List.range ps.length).zip ps).map (fun x => accRun ((p.base / 2048 + x.1) % 2 * 2048) x.2.2.2.length x.2.2.1) ++
      (if p.obs then [{ place := .tracker, wr := true, acc := false, lo := p.tid, len := 1, trk := .through }] else [])
  else (List.range (cdiv nl 128)).flatMap (fun jb =>
    if p.mask = 0 then [accRun (p.base + jb * p.m) p.m (blockCols nl jb)]
    else rows.map (fun i => accRun (p.base + jb * p.m + i) 1 (blockCols nl jb)))

/-- A product run; where the members' GANG records disagree, what it has written is unspecified (10 R232, 00 R8). -/
def runGang (c : Ctx) (g : GangIn) (p : Mma) (foot : List Foot) (s : State) : Got :=
  let t := runMma c g p s
  if ganged s && !g.agree then { t with s := freeFeet t.s foot } else t

/-- An MMA or MMA6 begins: its own refusals come first, then, where it starts now (`fresh`), the gang's (03 R68, R76). A product that needs
the array waits while a Rise has not been granted (03 R81). -/
def beginMma (fresh : Bool) (c : Ctx) (w : W128) (g : GangIn) (p : Mma) (resv : Nat) (s : State) : Begin :=
  let foot := useFoot s (mmaActs s c g p) ++ mmaFoot s c g p
  match beginPart s (mmaChecks s p (anyBit w resv)) (mmaUses s p) (mmaActs s c g p) .done (runGang c g p foot) (mmaFoot s c g p) with
  | .refuse e => .refuse e
  | b =>
    if fresh && ganged s && gangDiffers s g w p then .refuse fGang
    else match b with
    | .start hs j run f => if s.pwr.need && !p.isEmpty then .wait [] hs f else .start hs j run f
    | b => b

/-- The interleave pointer moves when an MMA or MMA6 word has started (08 R198): past the entry that stood in force in `s`. -/
def movePtr (s t : State) : State :=
  if s.cfg.ilMode then
    match patNow s with
    | some i => { t with ilPtr := (i + 1) % (s.cfg.plen + 1) }
    | none => t
  else t

/-- A start that is refused. -/
def Begin.refuses : Begin → Bool
  | .refuse _ => true
  | _ => false

/-- The gang selects the context's head word: member (0, 0) under the overlap mode, and the others take the context that it has selected (03
R76, 16 R360). -/
def gangSelects (s : State) (c : Ctx) (g : GangIn) : Bool :=
  if gangLead s then chosen s c .matrix else bit (ctlHead g.ctl) 115 = (ctxNum c = 1)

/-- The worse of two answers on ST; the greater number counts as the worse (16 R360; log 14). -/
def worse (a b : BitVec 2) : BitVec 2 := if a.toNat < b.toNat then b else a

/-- The shape uses a link on which this member passes CTL on: east along row 0, or south to row 1 (16 R360, R361). -/
def passesCtl (s : State) : Bool := s.cfg.posr = 0 && (s.cfg.posc + 1 < gangCols s || gangRows s = 2)

/-- What a gang member drives on CTL and ST (16 R360): member (0, 0) its head word, with START where it starts, and row 0 passes the bundle on,
where the shape uses a link for it; the links back from row 1 carry zeros. Its answer is the worst of its own status and those of the
members downstream; an unused link has none (R361). -/
def driveGang (s : State) (w : W128) (g : GangIn) (p : Mma) (own : BitVec 2) (start : Bool) : State :=
  if ganged s then
    { s with mesh := { s.mesh with
        ctl := if !passesCtl s then 0 else if !gangLead s then g.ctl else if own = 2 then s.mesh.ctl else ctlOf s w p start,
        st := if passesCtl s then worse own g.down else own } }
  else s

/-- A gang word that no member starts: refused like any other, but not counted as started (03 R76; 17 R387). -/
def gangRefuse (s : State) (c : Ctx) (code : Nat) : State :=
  report (progress (popHead s c .matrix)) code (engRep .matrix) (some c)

/-- A product's start or refusal. DESIGN CHOICE (log 98): a refused one, which has not started, leaves the pattern pointer where it stands. -/
def beginProduct (s : State) (c : Ctx) (b : Begin) : State :=
  match b with
  | .refuse code => if ganged s then gangRefuse s c code else refuseWord s c .matrix code
  | b => movePtr s (begun s c .matrix b)

/-- A gang member's own status for the head word of a context that the gang may select (16 R360): 1 where it refuses the word, or its word is
not that of member (0, 0), else 0, ready; 2 where it has no such word ready. -/
def ownStatus (s : State) (c : Ctx) (w : W128) (g : GangIn) (p : Mma) (resv : Nat) : BitVec 2 :=
  if !(mayStart s c .matrix w && gangSelects s c g) then 2
  else if gangMismatch s g w p || (beginMma false c w g p resv s).refuses then 1 else 0

/-- A head word that is ready on this member acts, started or refused: in a gang once every other member has its word ready too, on another
member than (0, 0) with START, and where one refuses or disagrees at once (03 R76; 16 R360). -/
def gangActs (s : State) (g : GangIn) (own : BitVec 2) : Bool :=
  own ≠ 2 && (!ganged s || (g.status ≠ 2 && (gangLead s || ctlStart g.ctl || own = 1 || g.status = 1)))

/-- Member (0, 0) notes that C0's head word, which it has ready, is one that another member is not ready for (08 R197). -/
def noteUnready (s : State) (c : Ctx) (g : GangIn) (own : BitVec 2) : State :=
  if ganged s && gangLead s && c = .c0 && own ≠ 2 && g.status = 2 then
    { s with mesh := { s.mesh with unready := some (headWord s c .matrix).id } }
  else s

/-- A product starts where its engine may take it and, in a gang, every member is ready (03 R76, 08 R198); each member answers its status on ST
meanwhile. A stalled product goes on when its pages and the Rise let it. DESIGN CHOICE (log 14): a gang member whose head word is no MMA
or MMA6 runs it on its own, and it is compared with no other member's word. -/
def product (s : State) (c : Ctx) (w : W128) (g : GangIn) (op : Nat) (pOf : State → Mma) (resv : Nat) : Out :=
  match stalledWord s c .matrix w with
  | some r =>
    guarded (live s && wOp w = op) s
      (resumed s c .matrix r (beginMma false c w g (pOf (atStart s r)) resv (atStart s r)))
  | none =>
    let p := pOf s
    let own := ownStatus s c w g p resv
    let acts := gangActs s g own
    let b := beginMma true c w g p resv s
    let t := driveGang s w g p own (acts && !b.refuses)
    guarded (live s && wOp w = op) s (if acts then beginProduct t c b else noteUnready t c g own)

/-- MNOP. -/
def execMnop (c : Ctx) (w : W128) (s : State) : Out := nopWord s c .matrix w [0, 1, 2, 3, 4, 6]

/-- MSET: writes one operand slot of the issuing context; it checks its reserved bits only (03 R66). -/
def execMset (c : Ctx) (w : W128) (s : State) : Out :=
  engineWord s c .matrix w 1 (fun _ =>
    if anyBit w (lowMask 15) then .refuse fOpcode
    else .start [] .done (fun s => sure (modCtx s c (fun x =>
      { x with mslots := sput 0 x.mslots (fld w 89 4) (w.truncate 93) }))))

/-- MMA. -/
def execMma (c : Ctx) (w : W128) (g : GangIn) (s : State) : Out := product s c w g 2 (fun s => mmaOf s c w) (2 ^ 8)

/-- MMA6. -/
def execMma6 (c : Ctx) (w : W128) (g : GangIn) (s : State) : Out := product s c w g 6 (fun s => mma6Of s c w) (lowMask 72)

/-- The drain of MDRAIN row by row for a T = 0 destination: each accumulator row is read, then written (03 R69). -/
def drainPlain (c : Ctx) (d : Slot) (h : Handle) (accum obs : Bool) (tid cols base : Nat) : State → List Nat → Got
  | s, [] => sure s
  | s, i :: is =>
    let r := accReadRow c (some c) (base + i) s (List.range cols)
    match r.2.2 with
    | some f => { s := r.1, data := [], fail := some f }
    | none =>
      let g := drainRows r.1 c d h accum obs tid [i] 0 [r.2.1]
      match g.fail with
      | some _ => g
      | none => drainPlain c d h accum obs tid cols base g.s is

/-- Accumulator rows read one after another. -/
def accReadRows (c : Ctx) (cols base : Nat) : State → List Nat → State × List (List W32) × Option Nat
  | s, [] => (s, [], none)
  | s, i :: is =>
    let r := accReadRow c (some c) (base + i) s (List.range cols)
    match r.2.2 with
    | some f => (r.1, [], some f)
    | none =>
      let t := accReadRows c cols base r.1 is
      (t.1, r.2.1 :: t.2.1, t.2.2)

/-- MDRAIN (03 R69). DESIGN CHOICE (log 28): an empty one, which makes no access, is still held to the extents of its fields. -/
def execMdrain (c : Ctx) (w : W128) (s : State) : Out :=
  engineWord s c .matrix w 3 (fun s =>
    let rows := fld w 80 13
    let base := fld w 68 12
    let cols := fld w 60 8
    let d := mslot s c (fld w 56 4)
    let accum := bit w 55
    let obs := bit w 54
    let tid := fld w 47 7
    let e := rows = 0 || cols = 0
    beginWord s
      [(anyBit w (lowMask 47), fOpcode),
       (!fmtOn s d.fmt || !destFmt d.fmt || (accum && d.fmt ≠ 0) || (!e && (d.fmt = 3 || d.fmt = 4) && d.tscale = 255), fFormat),
       (base + rows > 4096 || cols > 128, fExtent)]
      [slotUse d d.fmt (if e then 0 else rows) (if e then 0 else cols) true accum] .done
      (fun s =>
        if e then sure s
        else if d.t then
          let r := accReadRows c cols base s (List.range rows)
          match r.2.2 with
          | some f => { s := r.1, data := [], fail := some f }
          | none => drainRows r.1 c d (getH s d.hidx) accum obs tid (List.range rows) 0 r.2.1
        else drainPlain c d (getH s d.hidx) accum obs tid cols base s (List.range rows))
      (if e then []
       else { place := .acc, wr := false, acc := false, lo := base, len := rows } ::
         (if obs then [{ place := .tracker, wr := true, acc := false, lo := tid, len := 1, trk := .through }] else [])))

/-- MZERO (03 R70). -/
def execMzero (c : Ctx) (w : W128) (s : State) : Out :=
  engineWord s c .matrix w 4 (fun s =>
    let rows := fld w 80 13
    let base := fld w 68 12
    beginWord s [(anyBit w (lowMask 68), fOpcode), (base + rows > 4096, fExtent)] [] .done
      (fun s => sure ((List.range rows).foldl (fun s i => accPutRow s c (base + i) (List.replicate 128 0)) s))
      [{ place := .acc, wr := true, acc := false, lo := base, len := rows }])

end Sys2Proof.Machine
end

