-- ==== Sys2Proof/Machine/Free.lean ====
section
/-!
DEFINITION. The free state: what the core holds after a test instruction or a supply loss (16 R369, R370), which the manual
leaves unspecified (log 2).
-/

namespace Sys2Proof

/-- A state whose contents the manual leaves unspecified (16 R369, R370); no body, so nothing can be proved of it (log 2). -/
opaque Config.freeState : Nat → Machine.State

end Sys2Proof
end

