-- ==== Sys2Proof/Machine/Operands.lean ====
section
/-!
DEFINITION. The encodings of the control core's instructions (08 R181, R182), which encodings are legal, and how an
instruction issues: source readiness, stalls, faults, and where a result goes (08 R180, R183).
-/

namespace Sys2Proof.Machine

/-! ### Encodings (08 R181) -/

/-- Form R. -/
def encR (op : Nat) (rd ra rb : BitVec 5) (fn : Nat) : W32 :=
  BitVec.ofNat 32 (op * 2 ^ 26 + rd.toNat * 2 ^ 21 + ra.toNat * 2 ^ 16 + rb.toNat * 2 ^ 11 + fn)

/-- Form I. -/
def encI (op : Nat) (rd ra : BitVec 5) (imm : BitVec 16) : W32 :=
  BitVec.ofNat 32 (op * 2 ^ 26 + rd.toNat * 2 ^ 21 + ra.toNat * 2 ^ 16 + imm.toNat)

/-- Form B. -/
def encB (op : Nat) (ra rb : BitVec 5) (off : BitVec 16) : W32 :=
  BitVec.ofNat 32 (op * 2 ^ 26 + ra.toNat * 2 ^ 21 + rb.toNat * 2 ^ 16 + off.toNat)

/-- Form J. -/
def encJ (op : Nat) (rd : BitVec 5) (off : BitVec 21) : W32 :=
  BitVec.ofNat 32 (op * 2 ^ 26 + rd.toNat * 2 ^ 21 + off.toNat)

/-- Form E with an immediate. -/
def encEI (op : Nat) (ed : BitVec 3) (pos : BitVec 7) (imm : BitVec 16) : W32 :=
  BitVec.ofNat 32 (op * 2 ^ 26 + ed.toNat * 2 ^ 23 + pos.toNat * 2 ^ 16 + imm.toNat)

/-- Form E with a register and a length. -/
def encER (op : Nat) (ed : BitVec 3) (pos : BitVec 7) (ra lenm1 : BitVec 5) : W32 :=
  BitVec.ofNat 32 (op * 2 ^ 26 + ed.toNat * 2 ^ 23 + pos.toNat * 2 ^ 16 + ra.toNat * 2 ^ 11 + lenm1.toNat * 2 ^ 6)

/-- Form C. -/
def encC (op : Nat) (mask : BitVec 10) (off : BitVec 16) : W32 :=
  BitVec.ofNat 32 (op * 2 ^ 26 + mask.toNat * 2 ^ 16 + off.toNat)

/-- The special registers that SRD may name (08 R194). -/
def srdKnown (n : Nat) : Bool :=
  n ≤ 3 || n = 0x10 || n = 0x11 || (0x20 ≤ n && n ≤ 0x2F) || n = 0x40 || n = 0x41

/-- Is a 32-bit word a legal instruction (08 R182, R185, R194)? Faults that depend on operand values are judged when the
instruction executes. -/
def legalWord (w : W32) : Bool :=
  let op := fld w 26 6
  let rd := fld w 21 5
  let ra := fld w 16 5
  let rb := fld w 11 5
  let fn := fld w 0 11
  let imm := fld w 0 16
  let pos := fld w 16 7
  if op = 0 then fn ≤ 0x00B
  else if op ≤ 5 then true
  else if op = 6 then fld w 5 2 ≠ 3 && fld w 7 9 = 0
  else if op = 7 then ra = 0
  else if op = 8 || op = 9 then true
  else if op = 0x0A || op = 0x0B then rd < 8
  else if 0x10 ≤ op && op ≤ 0x18 then true
  else if op = 0x19 then imm = 0
  else if op = 0x20 then pos ≤ 112
  else if op = 0x21 then pos + fld w 6 5 + 1 ≤ 128 && fld w 0 6 = 0
  else if op = 0x22 then ra < 8 && rb < 4 && fn = 0
  else if op = 0x23 then fld w 0 23 = 0
  else if 0x28 ≤ op && op ≤ 0x2A then rd = 0 && rb = 0 && fn = 0
  else if op = 0x2B then rb = 0 && fn = 0
  else if 0x30 ≤ op && op ≤ 0x35 then fn = 0
  else if op = 0x38 then ra = 0 && fld w 12 4 = 0 && srdKnown (fld w 0 12)
  else if op = 0x3C || op = 0x3E then rd = 0 && ra = 0 && rb = 0 && fn = 0
  else if op = 0x3D then rd = 0 && rb = 0 && fn = 0
  else if op = 0x3F then (fn = 0 && rd = 0 && ra = 0 && rb = 0) || (fn = 1 && rd = 0 && rb = 0)
  else false

/-! ### Issue (08 R180) -/

/-- The instruction at a context's PC; `none` beyond the loaded image (08 R179). -/
def fetch (s : State) (x : Context) : Option W32 :=
  if x.pc.toNat < s.imemLen then some (sget 0 s.imem x.pc.toNat) else none

/-- The context may issue in this step (08 R180): it is RUNNING, or stalled and trying again; it has not issued in this step;
no branch holds it, and no report of its that cannot be presented yet (14 R306). -/
def canIssue (s : State) (c : Ctx) : Bool :=
  let x := getCtx s c
  runs s && !overdue s (ctxRep c) && !x.hold && !x.issued && x.nextIssue ≤ s.steps &&
    (x.run = .running || (x.run = .waiting && x.wait = .stall))

/-- Every source is available (08 R180): scalar registers by their number, staging registers from 32. -/
def srcsReady (s : State) (x : Context) (srcs : List Nat) : Bool := srcs.all (fun k => sget 0 x.ready k ≤ s.steps)

/-- The key of a staging register in the readiness table. -/
def eKey (n : Nat) : Nat := 32 + n

/-- The context issues: RUNNING, its slot of this step taken, PC at the next instruction (08 R179, R180). -/
def issueCtx (x : Context) : Context :=
  { x with run := .running, wait := .none, issued := true, pc := x.pc + 1 }

/-- The state in which a context has issued an instruction: counted, and progress (09 R223, 17 R387). -/
def issued (s : State) (c : Ctx) : State := progress (count (modCtx s c issueCtx) (6 + ctxNum c) 1)

/-- The context stalls on a full queue or a reservation and reports WAITING (08 R188). -/
def stalled (s : State) (c : Ctx) : State := modCtx s c (fun x => { x with run := .waiting, wait := .stall })

/-- What an instruction does once its sources are available. -/
inductive Eff where
  /-- It executes; the state is the one after it, starting from `issued`. -/
  | go (s : State)
  /-- It faults and has no effect (08 R183). -/
  | trap (code : Nat)
  /-- It stalls. -/
  | stall

/-- The state after an instruction that faults: it has no effect, and the context goes on with the next one (08 R183). While an earlier
fault of the context waits to be taken, a further one stalls (14 R306). -/
def trapped (s : State) (c : Ctx) (code : Nat) : State := settle s (report (issued s c) code (ctxRep c) (some c))

/-- The state after an instruction whose sources are available, by what it does. -/
def finish (s : State) (c : Ctx) (e : Eff) : State :=
  match e with
  | .go t => t
  | .trap code => trapped s c code
  | .stall => stalled s c

/-- The fault of an instruction that its operands give, once the sources it is read from are available (08 R183). -/
def operandFault (s : State) (x : Context) (f : List Nat × Option Nat) : Option Nat := if srcsReady s x f.1 then f.2 else none

/-- An instruction whose word stands at the context's PC issues when the context may issue and its sources are available;
`eff` is given the state in which it has issued and the registers before it (08 R180, R183). A word with an illegal encoding
raises FW_ILLEGAL (08 R182); `pre` names a fault that some of the operands give, and the registers of those: no other source, stall or
reservation delays either. -/
def runInsn (s : State) (c : Ctx) (w : W32) (srcs : List Nat) (eff : State → Context → Eff)
    (pre : List Nat × Option Nat := ([], none)) : Out :=
  let x := getCtx s c
  if canIssue s c && fetch s x = some w then
    if legalWord w then
      match operandFault s x pre with
      | some e => .next (trapped s c e)
      | none => if srcsReady s x srcs then .next (finish s c (eff (issued s c) x)) else .next s
    else .next (trapped s c fIllegal)
  else .next s

/-! ### Reservations (08 R188, R189) -/

/-- The vector operations of form A (04 R89). -/
def formA (op : Nat) : Bool :=
  (0x01 ≤ op && op ≤ 0x0D) || (0x10 ≤ op && op ≤ 0x15) || (0x18 ≤ op && op ≤ 0x1E) || op = 0x20 || op = 0x21 ||
  (0x28 ≤ op && op ≤ 0x2B) || op = 0x30

/-- The scalar registers that an issued vector word reserves (08 R188). -/
def wordRegs (w : W128) : List Nat :=
  if wEng w ≠ 1 then []
  else
    let op := wOp w
    if op = 0x30 then
      [fld w 59 5, fld w 40 5, fld w 40 5 + 1, fld w 35 5, fld w 30 5, fld w 30 5 + 1, fld w 25 5]
    else if op = 0x38 || op = 0x39 then [fld w 62 5]
    else if op = 0x3A || op = 0x3B then [fld w 61 5, fld w 11 5]
    else if formA op then [fld w 59 5]
    else []

/-- A scalar register of a context is reserved by a queued vector word. -/
def regReserved (x : Context) (r : Nat) : Bool :=
  r ≠ 0 && (queueOf x .vector).any (fun q => (wordRegs q.word).contains r)

/-- The descriptor index that an issued DXFER reserves (08 R189, 07 R157). -/
def wordDesc (w : W128) : Option Nat := if wEng w = 3 && wOp w = 1 then some (fld w 81 10) else none

/-- A byte range of data memory meets a reserved descriptor of either context (08 R189). -/
def memReserved (s : State) (a : Nat) : Bool :=
  allCtxs.any (fun c => (queueOf (getCtx s c) .dma).any (fun q => wordDesc q.word = some (a / 64)))

/-! ### Results -/

/-- A scalar result of latency L goes to rd; s0 discards it (08 R178, R180). -/
def setReg (s : State) (c : Ctx) (rd : BitVec 5) (v : W32) (lat : Nat) : State :=
  modCtx s c (fun x =>
    let x := wrS x rd.toNat v
    if rd = 0 then x else { x with ready := sput 0 x.ready rd.toNat (s.steps + lat) })

/-- A result of latency L goes to a staging register. -/
def setStage (s : State) (c : Ctx) (ed : BitVec 3) (v : W128) (lat : Nat) : State :=
  modCtx s c (fun x =>
    let x := wrE x ed.toNat v
    let k := eKey ed.toNat
    { x with ready := sput 0 x.ready k (s.steps + lat) })

/-- An instruction that writes rd stalls while a queued word reserves it (08 R188), then executes. -/
def toReg (s : State) (x : Context) (c : Ctx) (rd : BitVec 5) (v : W32) (lat : Nat) : Eff :=
  if regReserved x rd.toNat then .stall else .go (setReg s c rd v lat)

/-- A taken branch: PC goes to the target and the branch costs 2 steps (08 R179, R180). -/
def jumpTo (s : State) (c : Ctx) (target : BitVec 16) : State :=
  modCtx s c (fun x => { x with pc := target, nextIssue := s.steps + 2 })

/-- The address ra + sext(IMM) of a data-memory access (08 R182). -/
def memAddr (x : Context) (ra : BitVec 5) (imm : BitVec 16) : Nat := (rdS x ra.toNat + imm.signExtend 32).toNat

/-- The checks on a data-memory access of `n` bytes (08 R184). -/
def memFault (a n : Nat) : Option Nat :=
  if a ≥ 65536 then some fDmemRange else if a % n ≠ 0 then some fFwMisaligned else none

end Sys2Proof.Machine
end

