-- ==== Sys2Proof/Machine/Handles.lean ====
section
/-!
DEFINITION. The handle operations (06 R139), the handle instructions (08 R190, R191) and the host's handle table window
(06 R144, 17 R388).
-/

namespace Sys2Proof.Machine

/-- Number of handle indices (06). -/
def handleCount : Nat := 512

/-- Pages `b` to `b + n - 1` lie in partition `p` (06 R136, 10 R230); no page lies in every partition. -/
def inPart (parts : List (Nat × Nat)) (p b n : Nat) : Bool :=
  let q := parts.getD p (0, 0)
  n = 0 || (q.1 ≤ b && b + n ≤ q.1 + q.2)

/-- Two page ranges share a page. -/
def overlap (b n b' n' : Nat) : Bool := n ≠ 0 && n' ≠ 0 && b < b' + n' && b' < b + n

/-- The checks of Allocate on a table of handles (06 R139): HANDLE_BUSY, HANDLE_RANGE, HANDLE_OVERLAP. -/
def allocFault (pages : Nat) (parts : List (Nat × Nat)) (hs : Sparse Handle) (h base np part : Nat) : Option Nat :=
  if (sget Handle.zero hs h).valid then some fBusy
  else if base + np > pages || !inPart parts part base np then some fRange
  else if (List.range handleCount).any (fun k =>
      let e := sget Handle.zero hs k
      k ≠ h && e.valid && overlap base np e.base.toNat e.npages.toNat) then some fOverlap
  else none

/-- The entry that Allocate leaves (06 R139): GEN advances, WGEN is kept, the window is closed, word 1 is cleared. -/
def allocEntry (e : Handle) (base np part : Nat) (wp win sp : Bool) : Handle :=
  { e with gen := e.gen + 1, valid := true, wp := wp, win := win, sp := sp, wopen := false, part := BitVec.ofNat 3 part,
           base := BitVec.ofNat 11 base, npages := BitVec.ofNat 11 np, vstep := 0, vsgen := 0, vvalid := false }

/-- Allocate h (06 R139). -/
def allocH (s : State) (h base np part : Nat) (wp win sp : Bool) : Except Nat State :=
  match allocFault (pageCount s) s.cfg.parts s.handles h base np part with
  | some e => .error e
  | none => .ok (emptyPages (setH s h (allocEntry (getH s h) base np part wp win sp)) base np)

/-- A handle in use, or not valid (06 R139). -/
def busyH (s : State) (h : Nat) : Bool := inUse s h || !(getH s h).valid

/-- Free h (06 R139). -/
def freeH (s : State) (h : Nat) : Except Nat State :=
  if busyH s h then .error fBusy
  else
    let e := getH s h
    .ok (emptyPages (setH s h { e with valid := false }) e.base.toNat e.npages.toNat)

/-- Two handles lie in different partitions (06 R139): by their PART fields (log 5); one that covers no page lies in every partition. -/
def apart (e f : Handle) : Bool := e.part ≠ f.part && e.npages ≠ 0 && f.npages ≠ 0

/-- Rebase h onto the pages of donor d (06 R139); the page states move with the pages. -/
def rebaseH (s : State) (h d : Nat) : Except Nat State :=
  if busyH s h || busyH s d || d = h then .error fBusy
  else if apart (getH s h) (getH s d) then .error fRange
  else
    let e := getH s h
    let f := getH s d
    let s := setH s h { e with base := f.base, npages := f.npages }
    .ok (emptyPages (setH s d { f with valid := false }) e.base.toNat e.npages.toNat)

/-- Set flags of h (06 R139). -/
def flagsH (s : State) (h : Nat) (wp win sp : Bool) : Except Nat State :=
  if busyH s h then .error fBusy else .ok (setH s h { getH s h with wp := wp, win := win, sp := sp })

/-- Drain n pages of h from page i (06 R139). -/
def drainH (s : State) (h i n : Nat) : Except Nat State :=
  let e := getH s h
  if !e.valid then .error fBusy
  else if i + n > e.npages.toNat then .error fExtent
  else .ok (emptyPages s (e.base.toNat + i) n)

/-- The name of a handle index (08 R190). -/
def handleName (s : State) (h : Nat) : W32 :=
  let e := getH s h
  BitVec.ofNat 32 (b2n e.valid * 2 ^ 13 + e.gen.toNat * 2 ^ 9 + h)

/-- The index that s[ra] names. -/
def hIdx (a : W32) : Nat := fld a 0 9

/-- A handle operation, by its operands (08 R191). -/
def handleOp (s : State) (op : Nat) (a b : W32) : Except Nat State :=
  match op with
  | 0 => allocH s (hIdx a) (fld b 0 11) (fld b 11 11) (fld b 22 3) (bit b 25) (bit b 26) (bit b 27)
  | 1 => freeH s (hIdx a)
  | 2 => rebaseH s (hIdx a) (fld b 0 9)
  | 3 => flagsH s (hIdx a) (bit b 0) (bit b 1) (bit b 2)
  | 4 => drainH s (hIdx a) (fld b 0 11) (fld b 11 11)
  | _ => .ok s

/-- The result that a handle instruction writes to rd: a name, or all ones where HALLOC was refused (08 R191). -/
def handleResult (s : State) (c : Ctx) (rd : BitVec 5) (v : W32) : State := modCtx s c (fun x => wrS x rd.toNat v)

/-- One handle instruction takes effect at the boundary that ends its step: done with its result, or refused with its fault
and CR.HREFUSED (08 R191). -/
def applyHandleOp (s : State) (o : HandleOp) : State :=
  match handleOp s o.op o.a o.b with
  | .ok t =>
    if o.op = 0 || o.op = 5 then handleResult t o.ctx o.rd (handleName t (hIdx o.a)) else t
  | .error e =>
    let t := report (modCtx s o.ctx (fun x => setCR x 0)) e (ctxRep o.ctx) (some o.ctx)
    if o.op = 0 then handleResult t o.ctx o.rd 0xFFFFFFFF else t

/-- The handle instructions of a step, C0's before C1's (log 6). -/
def applyHandleOps (s : State) : State :=
  let ops := s.stepOps
  (ops.filter (fun o => o.ctx = .c0) ++ ops.filter (fun o => o.ctx = .c1)).foldl applyHandleOp { s with stepOps := [] }

/-- A scalar register that receives a result of latency 2 later (08 R180, R191). -/
def claimReg (x : Context) (steps rd : Nat) : Context :=
  if rd = 0 then x else { x with ready := sput 0 x.ready rd (steps + 2) }

/-- A handle instruction issues: reserved operand bits raise FW_ILLEGAL, a reserved destination stalls (08 R183, R191). -/
def handleInsn (s : State) (c : Ctx) (op : Nat) (rd ra rb : BitVec 5) (resv : Nat) (writes : Bool) : Out :=
  runInsn s c (encR (0x30 + op) rd ra rb 0) [ra.toNat, rb.toNat]
    (fun t x =>
      if writes && regReserved x rd.toNat then .stall
      else
        let t := if writes then modCtx t c (fun y => claimReg y s.steps rd.toNat) else t
        .go { t with stepOps := t.stepOps ++ [{ ctx := c, op := op, rd := rd, a := rdS x ra.toNat, b := rdS x rb.toNat }] })
    ([rb.toNat], if (rdS (getCtx s c) rb.toNat).toNat &&& resv ≠ 0 then some fIllegal else none)

def execHalloc (c : Ctx) (rd ra rb : BitVec 5) (s : State) : Out := handleInsn s c 0 rd ra rb 0xF0000000 true
def execHfree (c : Ctx) (rd ra rb : BitVec 5) (s : State) : Out := handleInsn s c 1 rd ra rb 0xFFFFFFFF false
def execHrebase (c : Ctx) (rd ra rb : BitVec 5) (s : State) : Out := handleInsn s c 2 rd ra rb 0 false
def execHflags (c : Ctx) (rd ra rb : BitVec 5) (s : State) : Out := handleInsn s c 3 rd ra rb 0 false
def execHdrain (c : Ctx) (rd ra rb : BitVec 5) (s : State) : Out := handleInsn s c 4 rd ra rb 0 false
def execHrd (c : Ctx) (rd ra rb : BitVec 5) (s : State) : Out := handleInsn s c 5 rd ra rb 0xFFFFFFFF true

/-! ### The handle table window (06 R144, 17 R388) -/

/-- Handle entry word 0 (06 R136). -/
def handleWord0 (e : Handle) : Nat :=
  e.gen.toNat * 2 ^ 60 + b2n e.valid * 2 ^ 59 + b2n e.wp * 2 ^ 58 + b2n e.win * 2 ^ 57 + b2n e.sp * 2 ^ 56 +
  b2n e.wopen * 2 ^ 55 + e.wgen.toNat * 2 ^ 51 + e.part.toNat * 2 ^ 48 + e.base.toNat * 2 ^ 37 + e.npages.toNat * 2 ^ 26

/-- Handle entry word 1 (06 R137). -/
def handleWord1 (e : Handle) : Nat := e.vstep.toNat * 2 ^ 16 + e.vsgen.toNat * 2 ^ 4 + b2n e.vvalid * 2 ^ 3

/-- A host write refused (06 R144). -/
def hostRefused (s : State) : State := report s fHRefused 12 none

/-- One entry written by the host: Allocate where VALID is set, Free where it is cleared; GEN, WOPEN, WGEN as written are
ignored (06 R144). -/
def hostEntry (s : State) (h : Nat) (w : W64) : State :=
  if s.core = .running then hostRefused s
  else
    let r := if bit w 59 then allocH s h (fld w 37 11) (fld w 26 11) (fld w 48 3) (bit w 58) (bit w 57) (bit w 56)
             else freeH s h
    match r with
    | .ok t => t
    | .error _ => hostRefused s

/-- A host frame over the handle table window: entries in ascending index, word 0 acting only where both its registers are
written, word 1 ignored (17 R388). `first` is the number of the first register, `ws` the words. -/
def hostHandles (first : Nat) (ws : List W32) (s : State) : State :=
  let last := first + ws.length
  let at' (k : Nat) : Option W32 := if first ≤ k && k < last then ws[k - first]? else none
  (List.range (last / 4 + 1 - first / 4)).foldl (fun s i =>
    let h := first / 4 + i
    match at' (4 * h), at' (4 * h + 1) with
    | some lo, some hi => if h < handleCount then hostEntry s h (BitVec.ofNat 64 (lo.toNat + hi.toNat * 2 ^ 32)) else s
    | none, none => s
    | _, _ => if h < handleCount then hostRefused s else s) s

end Sys2Proof.Machine
end

