-- ==== Sys2Proof/Machine/Flags.lean ====
section
/-!
DEFINITION. The flag updates of one step boundary (09 R207) and the marking of waits (09 R208, R221, R222).
-/

namespace Sys2Proof.Machine

/-- May a flit addressed to `dst` be meant for this core (09 R212 check 1)? -/
def dstMatches (s : State) (dst : BitVec 20) : Bool := dst = ownFid s || dst = dstAll

/-- The outcome of the checks of 09 R212 on an arriving flit. -/
inductive FlitCheck where
  | format | state | unreach | stale | ok
  deriving DecidableEq, Repr

/-- KIND of a sync flit (09 R211). -/
def fKind (f : W64) : Nat := fld f 60 4
/-- DST. -/
def fDst (f : W64) : BitVec 20 := BitVec.ofNat 20 (fld f 40 20)
/-- SRC. -/
def fSrc (f : W64) : BitVec 20 := BitVec.ofNat 20 (fld f 20 20)
/-- FLAG of a SET flit. -/
def fFlag (f : W64) : Nat := fld f 10 10
/-- EGEN of a SET flit. -/
def fEgen (f : W64) : BitVec 4 := BitVec.ofNat 4 (fld f 6 4)

/-- READY, RUNNING or HELD (09 R212 check 2). -/
def syncOpen (s : State) : Bool := s.core = .ready || s.core = .running || s.core = .held

/-- The checks of 09 R212 in their order. A step broadcast may be addressed to every core (11). -/
def checkFlit (s : State) (f : W64) : FlitCheck :=
  if !dstMatches s (fDst f) || (fKind f = 1 && fDst f = dstAll) || fKind f = 0 || fKind f ≥ 7 then .format
  else if !syncOpen s then .state
  else if fKind f = 1 && (flagOwner s (fFlag f)).isNone then .unreach
  else if fKind f = 1 && fEgen f ≠ (getFlag s (fFlag f)).gen then .stale
  else .ok

/-- A flit discarded under checks 1 to 4 of 09 R212 is recorded; a flit that passes changes nothing here. -/
def discardFlit (s : State) (c : FlitCheck) : State :=
  match c with
  | .format => report s fSyncFormat 4 none
  | .state => report (count s 9 1) fStaleMsg 4 none
  | .unreach => report s fUnreach 4 none
  | .stale => report (count s 9 1) fStaleMsg 4 none
  | .ok => s

/-- A SET flit taken: checked, and set or discarded (09 R212). -/
def takeSet (s : State) (f : W64) : State :=
  let c := checkFlit s f
  if c = .ok then progress (pushSet s (fFlag f) none) else discardFlit s c

/-- A flag after `n` sets and the clears named of it (09 R207 points 2 and 3). -/
def flagAfter (v : Flag) (n : Nat) (clears : List (BitVec 4)) : Flag :=
  if n = 0 then (if clears.contains v.gen then { v with set := false } else v)
  else { set := true, gen := v.gen + BitVec.ofNat 4 n, lost := false, parked := false }

/-- The sets of a flag in one step, by the context that each setter belongs to. -/
def setsOf (sets : List (Nat × Option Ctx)) (f : Nat) : List (Option Ctx) := (sets.filter (fun e => e.1 = f)).map Prod.snd

/-- The oversets among the sets of a flag in one step: all where it was set, else all but the first (09 R207 point 2). -/
def oversets (v : Flag) (cs : List (Option Ctx)) : List (Option Ctx) := if v.set then cs else cs.tail

/-- One OVERSET recorded, counted and reported with the context of its set (14 R305). -/
def overset (s : State) (c : Option Ctx) : State := report (count s 11 1) fOverset 4 c

/-- A flag replaced; a change is progress (09 R223). -/
def changeFlag (s : State) (f : Nat) (v : Flag) : State := if v = getFlag s f then s else progress (setFlag s f v)

/-- One flag brought over the boundary, given the step's sets and clears. -/
def updateFlag (sets : List (Nat × Option Ctx)) (clears : List (Nat × BitVec 4)) (s : State) (f : Nat) : State :=
  let v := getFlag s f
  let cs := setsOf sets f
  let t := changeFlag s f (flagAfter v cs.length ((clears.filter (fun e => e.1 = f)).map Prod.snd))
  (oversets v cs).foldl overset t

/-- Keys without repeats. -/
def dedupNat : List Nat → List Nat
  | [] => []
  | x :: xs => if xs.contains x then dedupNat xs else x :: dedupNat xs

/-- Points 1 to 3 of 09 R207: self-addressed flits are checked, sets apply, clears apply. -/
def applyFlags (s : State) : State :=
  let s := s.selfFlits.foldl takeSet { s with selfFlits := [] }
  let sets := s.stepSets
  let clears := s.stepClears
  (dedupNat (sets.map Prod.fst ++ clears.map Prod.fst)).foldl (updateFlag sets clears) { s with stepSets := [], stepClears := [] }

/-- The reachable flags that await a given owner (09 R219). -/
def flagsOf (s : State) (src : BitVec 20) : List Nat := (s.cfg.flagmap.filter (fun e => e.2 = src)).map Prod.fst

/-- A flag's marks under one owner notice (09 R221, R222). -/
def markFlag (m : Mark) (v : Flag) : Flag :=
  match m with
  | .lost _ => if v.set then v else { v with lost := true, parked := false }
  | .park _ => if v.lost then v else { v with parked := true }
  | .unpark _ => { v with parked := false }

/-- SRC of an owner notice. -/
def markSrc : Mark → BitVec 20
  | .lost x => x
  | .park x => x
  | .unpark x => x

/-- A head word that waits on a flag of a lost owner is told of it again at this boundary (09 R221 point 4). -/
def tellHead (s : State) (src : BitVec 20) (c : Ctx) (e : Eng) : State :=
  match headOf s c e with
  | some q =>
    if headWait (getCtx s c) e = .lost && (flagsOf s src).contains (wFlag q.word) then modCtx s c (fun x => setHeadWait x e .pending)
    else s
  | none => s

/-- Every head word that waits on a flag of a lost owner. -/
def tellHeads (s : State) (src : BitVec 20) : State :=
  allEngs.foldl (fun s e => allCtxs.foldl (fun s c => tellHead s src c e) s) s

/-- One owner notice acts (09 R221, R222); a LOST discards the sender's incoming transfers (12 R272) and is reported once. -/
def applyMark (s : State) (m : Mark) : State :=
  let s := (flagsOf s (markSrc m)).foldl (fun s f => changeFlag s f (markFlag m (getFlag s f))) s
  match m with
  | .lost src =>
    tellHeads (report { s with rxTab := s.rxTab.filter (fun e => BitVec.ofNat 20 (e.sfid.toNat >>> 4) ≠ src) } fOwnerLost 4 none) src
  | _ => s

/-- Point 4 of 09 R207. -/
def applyMarks (s : State) : State := s.stepMarks.foldl applyMark { s with stepMarks := [] }

/-! ### Waits (09 R208) -/

/-- Takes a context's FWAIT out of WAITING; a held context resumes to RUNNING on its release (08 R180, 14 R316). -/
def resume (x : Context) : Context :=
  match x.run with
  | .held => { x with saved := .running, wait := .none }
  | _ => { x with run := .running, wait := .none }

/-- One context's FWAIT judged at the boundary: satisfied, released by owner loss, or still waiting on a parked owner. -/
def judgeFwait (s : State) (c : Ctx) : State :=
  match (getCtx s c).wait with
  | .flag f =>
    let v := getFlag s f
    if v.set then modCtx s c (fun x => { x with wait := .flagSat f v.gen })
    else if v.lost then modCtx s c (fun x => setCR (resume x) 1)
    else if v.parked then modCtx s c (fun x => setCR x 2)
    else s
  | _ => s

/-- The wait of one queue's head word judged at the boundary; CR.OWNER_LOST is set when the wait meets the LOST flag, not again while it
goes on (09 R221). -/
def judgeHead (s : State) (c : Ctx) (e : Eng) : State :=
  match headOf s c e with
  | some q =>
    if wWV q.word && unmet (getCtx s c) e then
      let v := getFlag s (wFlag q.word)
      if v.set then modCtx s c (fun x => setHeadWait x e (.satisfied v.gen))
      else if v.lost then
        if headWait (getCtx s c) e = .lost then s else modCtx s c (fun x => setCR (setHeadWait x e .lost) 1)
      else if v.parked then modCtx s c (fun x => setCR x 2)
      else s
    else s
  | none => s

/-- The flags of an SALL's range. -/
def sallFlags (base n : Nat) : List Nat := (List.range n).map (fun i => base + i)

/-- One running SALL judged at the boundary (09 R216, R221 point 5). DESIGN CHOICE (log 107): it waits on a PARKED flag where its range holds
one, be that flag set or not. -/
def judgeSall (s : State) (r : Running) : State :=
  match r.job with
  | .sall b n clr none =>
    let fs := sallFlags b n
    if fs.all (fun f => (getFlag s f).set) then
      setJob s r.id (.sall b n clr (some (fs.map (fun f => (f, (getFlag s f).gen)))))
    else if fs.any (fun f => (getFlag s f).lost) then modCtx (dropRun s r.id) r.ctx (fun x => setCR x 1)
    else if fs.any (fun f => (getFlag s f).parked) then modCtx s r.ctx (fun x => setCR x 2)
    else s
  | _ => s

/-- Point 5 of 09 R207: every wait judged against the flags. -/
def judgeWaits (s : State) : State :=
  let s := allCtxs.foldl judgeFwait s
  let s := allEngs.foldl (fun s e => allCtxs.foldl (fun s c => judgeHead s c e) s) s
  s.running.foldl judgeSall s

/-- Is any wait of the core on a PARKED flag (09 R223, R226)? Of an SALL log 107. -/
def parkedWait (s : State) : Bool :=
  let p (f : Nat) : Bool := (getFlag s f).parked
  allCtxs.any (fun c => match (getCtx s c).wait with | .flag f => p f | _ => false) ||
  allEngs.any (fun e => allCtxs.any (fun c => match headOf s c e with
    | some q => wWV q.word && unmet (getCtx s c) e && p (wFlag q.word)
    | none => false)) ||
  s.running.any (fun r => match r.job with
    | .sall b n _ none => (sallFlags b n).any p
    | _ => false)

end Sys2Proof.Machine
end

