-- ==== Sys2Proof/Machine/StepSeq.lean ====
section
/-!
DEFINITION. The step sequencer and the step parameter block (11 R253-R261).
-/

namespace Sys2Proof.Machine

/-- The reporter of the step sequencer (14 R305). -/
def seqRep : Nat := 12

/-- The training step that the core would take next. -/
def nextNum (s : State) : W64 := s.sb.num + 1

/-- The step block changed. -/
def modSb (s : State) (f : StepBlk → StepBlk) : State := { s with sb := f s.sb }

/-- State of buffer A or B (11 R254). -/
def bufSt (sb : StepBlk) (b : Bool) : BufSt := if b then sb.stB else sb.stA

/-- State of a buffer replaced. -/
def setBufSt (sb : StepBlk) (b : Bool) (v : BufSt) : StepBlk := if b then { sb with stB := v } else { sb with stA := v }

/-- Words of a buffer. -/
def bufOf (sb : StepBlk) (b : Bool) : Sparse W32 := if b then sb.bufB else sb.bufA

/-- A buffer is VALID. -/
def anyValid (sb : StepBlk) : Bool := sb.stA = .valid || sb.stB = .valid

/-- A refused write or command of the step block (11 R255, R256). -/
def stepRefused (s : State) : State := report s fStepParam seqRep none

/-! ### Step flits (11 R259, R260) -/

/-- Bits [39:0] of a step flit. -/
def stepBits (f : W64) : Nat := fld f 0 40

/-- A step broadcast (11 R260). -/
def stepFlit (kind : Nat) (n : W64) : W64 := syncFlit kind dstAll 0 (fld n 0 40)

/-- STEP_SKEW: raised, and one STEP_MISMATCH sent; no training step is admitted until a later STEP_START passes the checks. -/
def stepSkew (s : State) : State :=
  pushSync (report (modSb s (fun b => { b with skewed := true })) fStepSkew seqRep none) (stepFlit 6 (nextNum s)) none

/-- An arriving STEP_START that passes checks 1 and 2 (11 R260). -/
def takeStart (s : State) (f : W64) : State :=
  if !s.sb.en then s
  else if s.sb.leader then stepSkew s
  else if s.sb.pend.isSome then stepSkew (modSb s (fun b => { b with pend := none }))
  else if stepBits f ≠ fld (nextNum s) 0 40 then stepSkew s
  else modSb s (fun b => { b with pend := some f, skewed := false })

/-- A flit may be taken from SYNC_IN: the core takes flits, and has taken none in this step (01 R16). -/
def syncInOpen (s : State) : Bool := live s && s.core ≠ .init && !s.rxS

/-- A flit accepted from SYNC_IN (01 R16; 17 R387). -/
def acceptSync (s : State) : State := count { s with rxS := true } 19 1

/-- A STEP_START for the next training step is pending, or the leader's own copy of it has arrived (11 R261). -/
def startHeld (s : State) : Bool :=
  (match s.sb.pend with | some f => stepBits f = fld (nextNum s) 0 40 | none => false) ||
  (s.sb.leader && s.sb.copy = .arrived && s.sb.sentFor = some (nextNum s))

/-- Everything that an admission waits for: the three conditions of 11 R261, whatever EN (log 31), and no STEP_SKEW since the last
STEP_START that passed (R260). -/
def mayAdmit (s : State) : Bool := s.sb.req && anyValid s.sb && startHeld s && !s.sb.skewed

/-- Everything that the leader's STEP_START waits for (11 R259). DESIGN CHOICE (log 106): of the training steps that a flit was sent for, the
last alone is kept; a write to STEP_NUM leaves it, a restore clears it. -/
def maySend (s : State) : Bool := s.sb.en && s.sb.leader && s.sb.req && anyValid s.sb && s.sb.sentFor ≠ some (nextNum s)

/-- The sequencer's judgement at a step boundary, after the flag updates: what it finds due takes effect at that boundary (11 R259,
R261). -/
def judgeSeq (s : State) : State := modSb s (fun b => { b with sendDue := maySend s, admDue := mayAdmit s })

/-- The leader sends STEP_START; its own copy is on the way to the next boundary (11 R259). -/
def sendStart (s : State) : State :=
  pushSync (modSb s (fun b => { b with sentFor := some (nextNum s), copy := .sent, sendDue := false })) (stepFlit 5 (nextNum s)) none

/-- A buffer's state after an admission. -/
def admitBuf : BufSt → BufSt
  | .valid => .inForce
  | .inForce => .free
  | .free => .free

/-- An admission (11 R261): the set of GFLAG takes part in the updates of the step that follows. -/
def admitStep (s : State) : State :=
  pushSet (modSb s (fun b => { b with num := nextNum s, stA := admitBuf b.stA, stB := admitBuf b.stB, req := false,
                                      pend := none, copy := .none, admDue := false })) s.sb.gflag.toNat none

/-- What the last boundary found due has taken effect (11 R259, R261): whatever reads or writes the step block after that boundary meets
it so. -/
def seqDone (s : State) : State :=
  let s := if s.sb.sendDue then sendStart s else s
  if s.sb.admDue then admitStep s else s

/-- A step flit taken from SYNC_IN (11 R260, 09 R212): it meets the step block as the last boundary has left it. -/
def stepFlitIn (s : State) (f : W64) (kind : Nat) (take : State → State) : Out :=
  guarded (syncInOpen s && fKind f = kind) s
    (let t := acceptSync (seqDone s)
     match checkFlit t f with
     | .ok => take t
     | e => discardFlit t e)

/-- STEP_START_FLIT. -/
def execStepStartFlit (f : W64) (s : State) : Out := stepFlitIn s f 5 (fun t => takeStart t f)

/-- STEP_MISMATCH_FLIT. -/
def execStepMismatchFlit (f : W64) (s : State) : Out :=
  stepFlitIn s f 6 (fun t => if t.sb.en then report t fPeerSkew seqRep none else t)

/-- STEP_START_SEND. -/
def execStepStartSend (s : State) : Out := guarded (live s && s.sb.sendDue) s (sendStart s)

/-- STEP_ADMIT. -/
def execStepAdmit (s : State) : Out := guarded (live s && s.sb.admDue) s (seqDone s)

/-! ### Host writes (11 R255-R258) -/

/-- The code of a buffer's state (11 R254). -/
def bufCode : BufSt → Nat
  | .free => 0 | .valid => 1 | .inForce => 2

/-- STEP_PARAM_CTL as read (11 R257). -/
def ctlWord (sb : StepBlk) : Nat :=
  b2n sb.en * 2 ^ 31 + b2n sb.leader * 2 ^ 30 + sb.gflag.toNat * 2 ^ 20 + sb.rqflag.toNat * 2 ^ 10 + b2n sb.pend.isSome * 2 ^ 9 +
  bufCode sb.stB * 2 ^ 7 + bufCode sb.stA * 2 ^ 5 + b2n sb.req * 2 ^ 4

/-- A word of a buffer written (11 R255). -/
def writeParam (s : State) (b : Bool) (n : Nat) (v : W32) : State :=
  if bufSt s.sb b = .free then
    modSb s (fun k => if b then { k with bufB := sput 0 k.bufB n v } else { k with bufA := sput 0 k.bufA n v })
  else stepRefused s

/-- VALID_x (11 R255). -/
def doValid (s : State) (b : Bool) : State :=
  let w := bufOf s.sb b
  if bufSt s.sb b = .free && bufSt s.sb (!b) ≠ .valid &&
      (sget 0 w 0).toNat + (sget 0 w 1).toNat * 2 ^ 32 = (nextNum s).toNat then
    modSb s (fun k => setBufSt k b .valid)
  else stepRefused s

/-- WITHDRAW_x (11 R255). -/
def doWithdraw (s : State) (b : Bool) : State :=
  if bufSt s.sb b = .valid then modSb s (fun k => setBufSt k b .free) else stepRefused s

/-- STEP_NUM may be written, and EN, LEADER, GFLAG and RQFLAG changed, only while the core is neither RUNNING nor HELD (11 R256, R258). -/
def numOpen (s : State) : Bool := s.core ≠ .running && s.core ≠ .held

/-- The RW fields of STEP_PARAM_CTL take the values of a word (11 R257). -/
def ctlSet (s : State) (v : W32) : State :=
  modSb s (fun b => { b with en := bit v 31, leader := bit v 30, gflag := BitVec.ofNat 10 (fld v 20 10),
                             rqflag := BitVec.ofNat 10 (fld v 10 10) })

/-- A write of STEP_PARAM_CTL breaks 11 R258: it changes a RW field while the core is RUNNING or HELD, or it enables the sequencer with
one flag as GFLAG and RQFLAG. -/
def ctlBreach (s : State) (v : W32) : Bool :=
  (!numOpen s && fld v 10 22 ≠ fld (BitVec.ofNat 32 (ctlWord s.sb)) 10 22) || (bit v 31 && fld v 20 10 = fld v 10 10)

/-- The RW fields of a write to STEP_PARAM_CTL (11 R255, R257); where the write breaks 11 R258 they are left unspecified (00 R8). DESIGN
CHOICE (log 89): nothing but these four fields is. -/
def ctlFields (s : State) (v : W32) : State :=
  if ctlBreach s v then { ctlSet s (Config.freeWord s.freeCtr) with freeCtr := s.freeCtr + 1 } else ctlSet s v

/-- A write to STEP_PARAM_CTL: the fields, then the command; several commands are refused (11 R255). -/
def writeCtl (s : State) (v : W32) : State :=
  let s := ctlFields s v
  match fld v 0 4 with
  | 0 => s
  | 1 => doValid s false
  | 2 => doValid s true
  | 4 => doWithdraw s false
  | 8 => doWithdraw s true
  | _ => stepRefused s

/-- A write of STEP_NUM's low word: staged. -/
def writeNumLo (s : State) (v : W32) : State :=
  if numOpen s then modSb s (fun b => { b with stage := v }) else stepRefused s

/-- A write of STEP_NUM's high word: both words take effect, and a pending STEP flit is discarded. -/
def writeNumHi (s : State) (v : W32) : State :=
  if numOpen s then
    modSb s (fun b => { b with num := BitVec.ofNat 64 (v.toNat * 2 ^ 32 + b.stage.toNat), stage := 0, pend := none })
  else stepRefused s

/-- STEP_PARAM_WRITE. -/
def execStepParamWrite (b : Bool) (n : BitVec 4) (v : W32) (s : State) : Out :=
  hosted s true (regWrite ((if b then 0x1480 else 0x1440) + 4 * n.toNat) v) (writeParam (seqDone s) b n.toNat v)

/-- STEP_PARAM_VALID: a write of STEP_PARAM_CTL whose one command is VALID of the buffer. -/
def execStepParamValid (b : Bool) (v : W32) (s : State) : Out :=
  hosted s (fld v 0 4 = (if b then 2 else 1)) (regWrite 0x1408 v) (doValid (ctlFields (seqDone s) v) b)

/-- STEP_PARAM_WITHDRAW: a write of STEP_PARAM_CTL whose one command is WITHDRAW of the buffer. -/
def execStepParamWithdraw (b : Bool) (v : W32) (s : State) : Out :=
  hosted s (fld v 0 4 = (if b then 8 else 4)) (regWrite 0x1408 v) (doWithdraw (ctlFields (seqDone s) v) b)

/-- STEP_NUM_LO_WRITE. -/
def execStepNumLoWrite (v : W32) (s : State) : Out := hosted s true (regWrite 0x1400 v) (writeNumLo (seqDone s) v)

/-- STEP_NUM_HI_WRITE. -/
def execStepNumHiWrite (v : W32) (s : State) : Out := hosted s true (regWrite 0x1404 v) (writeNumHi (seqDone s) v)

end Sys2Proof.Machine
end

