-- ==== Sys2Proof/Machine/Vector.lean ====
section
/-!
DEFINITION. The vector engine (04): registers and views, element-wise words, compares and rearrangements, reductions and scans,
casts, MX blocks, trackers, random numbers, scratchpad and accumulator access.
-/

namespace Sys2Proof.Machine

/-! ### Registers and fields (04 R83-R90) -/

/-- Elements of a register in the view of a format (04 R84). -/
def viewCap (f : Nat) : Nat := 32768 / fmtBits f

/-- Bits of a mask register. -/
def maskCap : Nat := 2048

/-- Element i of a register in a view: its code. -/
def getE (x : Context) (f r i : Nat) : Nat :=
  let w := fmtBits f
  let p := w * i
  (ofLE (sgets 0 x.vregs (r * 4096 + p / 8) ((p % 8 + w + 7) / 8)) >>> (p % 8)) % 2 ^ w

/-- Element i of a register in a view written; the bits around a narrow element, padding bits of a run among them, keep their contents.
DESIGN CHOICE (log 72): 04 R86 keeps what lies beyond VL, 02 R37 has padding written as zero; the register keeps it. -/
def putE (f r : Nat) (x : Context) (e : Nat × Nat) : Context :=
  let w := fmtBits f
  let p := w * e.1
  let n := (p % 8 + w + 7) / 8
  let a := r * 4096 + p / 8
  let old := ofLE (sgets 0 x.vregs a n)
  let new := old - ((old >>> (p % 8)) % 2 ^ w) <<< (p % 8) + (e.2 % 2 ^ w) <<< (p % 8)
  { x with vregs := sputs 0 x.vregs a (toLE n new) }

/-- Elements written in a view. -/
def putEs (x : Context) (f r : Nat) (es : List (Nat × Nat)) : Context := es.foldl (putE f r) x

/-- Mask register n. -/
def getM (x : Context) (n : Nat) : BitVec 2048 := sget 0 x.masks n

/-- Mask register n written. -/
def putM (x : Context) (n : Nat) (v : BitVec 2048) : Context := { x with masks := sput 0 x.masks n v }

/-- Bits of VSTATUS set (04 R107). -/
def orStatus (x : Context) (v : W32) : Context := { x with vstatus := x.vstatus ||| v }

def vVD (w : W128) : Nat := fld w 88 5
def vVA (w : W128) : Nat := fld w 83 5
def vVB (w : W128) : Nat := fld w 78 5
def vVC (w : W128) : Nat := fld w 73 5
def vME (w : W128) : Bool := bit w 72
def vMS (w : W128) : Nat := fld w 69 3
def vFMT (w : W128) : Nat := fld w 65 4
def vBS (w : W128) : Bool := bit w 64
def vSB (w : W128) : Nat := fld w 59 5
def vVL (w : W128) : Nat := fld w 47 12
/-- Bits [46:44]. -/
def vFN3 (w : W128) : Nat := fld w 44 3
/-- DFMT of a cast. -/
def vDFMT (w : W128) : Nat := fld w 43 4
/-- TID of a cast. -/
def vTID (w : W128) : Nat := fld w 26 7

/-- Element i takes part (04 R86). -/
def activeE (x : Context) (w : W128) (i : Nat) : Bool := !vME w || bit (getM x (vMS w)) i

/-- The active elements of a form A word, ascending. -/
def actives (x : Context) (w : W128) : List Nat := (List.range (vVL w)).filter (activeE x w)

/-- The broadcast scalar in a format (04 R85): BF16 takes bits [15:0]. -/
def scalarAs (f : Nat) (v : W32) : Nat := v.toNat % 2 ^ fmtBits f

/-- The scalar s[SB] in the word's format. -/
def vScalar (x : Context) (w : W128) : Nat := scalarAs (vFMT w) (rdS x (vSB w))

/-- Element i of the first source. -/
def srcA (x : Context) (w : W128) (i : Nat) : Nat := getE x (vFMT w) (vVA w) i
/-- Element i of the second source, or the broadcast scalar. -/
def srcB (x : Context) (w : W128) (i : Nat) : Nat := if vBS w then vScalar x w else getE x (vFMT w) (vVB w) i
/-- Element i of the third source. -/
def srcC (x : Context) (w : W128) (i : Nat) : Nat := getE x (vFMT w) (vVC w) i

/-! ### How a form A word begins (04 R87, R88, R90, R91) -/

/-- FP32, BF16 or INT32. -/
def fmtAll (f : Nat) : Bool := f = 0 || f = 1 || f = 12
/-- FP32 or BF16. -/
def fmtFlt (f : Nat) : Bool := f = 0 || f = 1
/-- INT32. -/
def fmtInt (f : Nat) : Bool := f = 12
/-- FP32 or INT32. -/
def fmtWide (f : Nat) : Bool := f = 0 || f = 12
/-- FP32. -/
def fmtOne (f : Nat) : Bool := f = 0

/-- What a form A word checks beyond the common rules: reserved bits, a forbidden combination, whether FMT is read and allowed,
a further format condition, and a further extent condition. -/
structure VChk where
  resv   : Nat
  forbid : Bool
  reads  : Bool
  allow  : Nat → Bool
  badFmt : Bool
  badExt : Bool

/-- The checks of a form A word in their order (04 R88). -/
def vChecks (s : State) (w : W128) (k : VChk) : List (Bool × Nat) :=
  [(anyBit w k.resv || k.forbid, fOpcode),
   ((k.reads && (!fmtOn s (vFMT w) || !k.allow (vFMT w))) || k.badFmt, fFormat),
   ((k.reads && vVL w > viewCap (vFMT w)) || (vME w && vVL w > maskCap) || k.badExt, fExtent)]

/-- A word that works on the issuing context's bank alone: VL = 0 is a no-op (04 R87). -/
def bankRun (c : Ctx) (w : W128) (f : Context → Context) (s : State) : Got :=
  sure (if vVL w = 0 then s else modCtx s c f)

/-- A form A word over the bank. -/
def formAWord (s : State) (c : Ctx) (w : W128) (op : Nat) (k : VChk) (f : Context → Context) : Out :=
  engineWord s c .vector w op (fun s => beginWord s (vChecks s w k) [] .done (bankRun c w f))

/-- Maximal runs of consecutive numbers in an ascending list, as (first, count). -/
def runsOf : List Nat → List (Nat × Nat)
  | [] => []
  | i :: is =>
    match runsOf is with
    | (j, n) :: rs => if j = i + 1 then (i, n + 1) :: rs else (i, 1) :: (j, n) :: rs
    | [] => [(i, 1)]

/-- A tracker that a word reads or writes, and how (02 R52). -/
def trkFoot (tid : Nat) (wr : Bool) (use : TrkUse := .other) : Foot :=
  { place := .tracker, wr := wr, acc := false, lo := tid, len := 1, trk := use }

/-- The first `n` bytes of a vector register, as a word writes them. -/
def vregFoot (c : Ctx) (r n : Nat) : Foot := { place := .vreg c, wr := true, acc := false, lo := r * 4096, len := min n 4096 }

/-- The bytes of a vector register that hold some elements of a view. -/
def vregRuns (c : Ctx) (r f : Nat) (is : List Nat) : List Foot :=
  (runsOf is).map (fun e =>
    { place := .vreg c, wr := true, acc := false, lo := r * 4096 + e.1 * fmtBits f / 8,
      len := runBytes f (e.1 + e.2) - e.1 * fmtBits f / 8 })

/-- Only the common checks, with bits [46:0] reserved. -/
def plainChk (allow : Nat → Bool) : VChk :=
  { resv := lowMask 47, forbid := false, reads := true, allow := allow, badFmt := false, badExt := false }

/-- An element-wise word: each active element takes a function of its sources' codes. -/
def ewWord (s : State) (c : Ctx) (w : W128) (op : Nat) (allow : Nat → Bool) (f : Nat → Nat → Nat → Nat → Nat) : Out :=
  formAWord s c w op (plainChk allow) (fun x =>
    putEs x (vFMT w) (vVD w) ((actives x w).map (fun i => (i, f (vFMT w) (srcA x w i) (srcB x w i) (srcC x w i)))))

/-! ### Element-wise arithmetic (04 R92, R93) -/

/-- A result rounded once to FP32 or BF16. -/
def roundAs (f : Nat) (x : Num) : Nat := if f = 0 then (rne32 x).toNat else (rneBf16 x).toNat

/-- A floating-point function in FP32 and BF16, a wrapping one in INT32. -/
def arith (g : Num → Num → Num → Num) (h : W32 → W32 → W32 → W32) (f a b c : Nat) : Nat :=
  if f = 12 then (h (BitVec.ofNat 32 a) (BitVec.ofNat 32 b) (BitVec.ofNat 32 c)).toNat
  else roundAs f (g (decodeElem f a) (decodeElem f b) (decodeElem f c))

/-- A code of FP32 or BF16 widened to FP32 exactly, bit pattern by bit pattern. -/
def widen32 (f a : Nat) : W32 := if f = 1 then BitVec.ofNat 32 (a <<< 16) else BitVec.ofNat 32 a

/-- The magnitude of a value. -/
def absN : Num → Num
  | .nan => .nan
  | .inf _ => .inf false
  | .fin _ m e => .fin false m e

/-- Minimum or maximum of two codes (04 R92): NaN if either is NaN, +0 above -0, INT32 signed. -/
def minMax (wantMax : Bool) (f a b : Nat) : Nat :=
  if f = 12 then
    let less := (BitVec.ofNat 32 a).slt (BitVec.ofNat 32 b)
    if less = wantMax then b else a
  else
    let x := widen32 f a
    let y := widen32 f b
    if isNan32 x || isNan32 y then roundAs f .nan
    else if (ordKey x < ordKey y : Bool) = wantMax then b else a

def execVadd (c : Ctx) (w : W128) (s : State) : Out :=
  ewWord s c w 0x01 fmtAll (arith (fun a b _ => addN a b) (fun a b _ => a + b))
def execVsub (c : Ctx) (w : W128) (s : State) : Out :=
  ewWord s c w 0x02 fmtAll (arith (fun a b _ => addN a b.neg) (fun a b _ => a - b))
def execVmul (c : Ctx) (w : W128) (s : State) : Out :=
  ewWord s c w 0x03 fmtAll (arith (fun a b _ => mulN a b) (fun a b _ => a * b))
def execVfma (c : Ctx) (w : W128) (s : State) : Out :=
  ewWord s c w 0x04 fmtAll (arith (fun a b d => addN (mulN a b) d) (fun a b d => a * b + d))
def execVmin (c : Ctx) (w : W128) (s : State) : Out := ewWord s c w 0x05 fmtAll (fun f a b _ => minMax false f a b)
def execVmax (c : Ctx) (w : W128) (s : State) : Out := ewWord s c w 0x06 fmtAll (fun f a b _ => minMax true f a b)
def execVabs (c : Ctx) (w : W128) (s : State) : Out :=
  ewWord s c w 0x07 fmtAll (arith (fun a _ _ => absN a) (fun a _ _ => if bit a 31 then -a else a))
def execVneg (c : Ctx) (w : W128) (s : State) : Out :=
  ewWord s c w 0x08 fmtAll (arith (fun a _ _ => a.neg) (fun a _ _ => -a))

/-- A function of 04 R93 on a code. -/
def fnCode (g : Fn) (f a : Nat) : Nat :=
  if f = 0 then (fn32 g (BitVec.ofNat 32 a)).toNat else (fnBf16 g (BitVec.ofNat 16 a)).toNat

def execVsqrt (c : Ctx) (w : W128) (s : State) : Out := ewWord s c w 0x09 fmtFlt (fun f a _ _ => fnCode .sqrt f a)
def execVrcp (c : Ctx) (w : W128) (s : State) : Out := ewWord s c w 0x0A fmtFlt (fun f a _ _ => fnCode .rcp f a)
def execVrsqrt (c : Ctx) (w : W128) (s : State) : Out := ewWord s c w 0x0B fmtFlt (fun f a _ _ => fnCode .rsqrt f a)
def execVexp2 (c : Ctx) (w : W128) (s : State) : Out := ewWord s c w 0x0C fmtFlt (fun f a _ _ => fnCode .exp2 f a)
def execVlog2 (c : Ctx) (w : W128) (s : State) : Out := ewWord s c w 0x0D fmtFlt (fun f a _ _ => fnCode .log2 f a)

/-- A bitwise function of two INT32 codes. -/
def bits32 (g : W32 → W32 → W32) (a b : Nat) : Nat := (g (BitVec.ofNat 32 a) (BitVec.ofNat 32 b)).toNat

def execVand (c : Ctx) (w : W128) (s : State) : Out := ewWord s c w 0x10 fmtInt (fun _ a b _ => bits32 (· &&& ·) a b)
def execVor (c : Ctx) (w : W128) (s : State) : Out := ewWord s c w 0x11 fmtInt (fun _ a b _ => bits32 (· ||| ·) a b)
def execVxor (c : Ctx) (w : W128) (s : State) : Out := ewWord s c w 0x12 fmtInt (fun _ a b _ => bits32 (· ^^^ ·) a b)
def execVshl (c : Ctx) (w : W128) (s : State) : Out :=
  ewWord s c w 0x13 fmtInt (fun _ a b _ => bits32 (fun a b => a <<< (b.toNat % 32)) a b)
def execVshr (c : Ctx) (w : W128) (s : State) : Out :=
  ewWord s c w 0x14 fmtInt (fun _ a b _ => bits32 (fun a b => a >>> (b.toNat % 32)) a b)
def execVsra (c : Ctx) (w : W128) (s : State) : Out :=
  ewWord s c w 0x15 fmtInt (fun _ a b _ => bits32 (fun a b => a.sshiftRight (b.toNat % 32)) a b)

/-! ### Compare, select, rearrange (04 R94) -/

/-- A key that orders numbers with -0 equal to +0. -/
def cmpKey (w : W32) : Int := if w &&& 0x7FFFFFFF = 0 then 0 else ordKey w

/-- The comparisons of VCMP (04 R94). -/
def compare (cond f a b : Nat) : Bool :=
  let x := widen32 f a
  let y := widen32 f b
  let nan := f ≠ 12 && (isNan32 x || isNan32 y)
  let kx : Int := if f = 12 then x.toInt else cmpKey x
  let ky : Int := if f = 12 then y.toInt else cmpKey y
  if nan then cond = 1 || cond = 6
  else
    match cond with
    | 0 => kx = ky
    | 1 => kx ≠ ky
    | 2 => kx < ky
    | 3 => kx ≤ ky
    | 4 => kx > ky
    | 5 => kx ≥ ky
    | _ => false

/-- VCMP. -/
def execVcmp (c : Ctx) (w : W128) (s : State) : Out :=
  formAWord s c w 0x18
    { plainChk fmtAll with resv := lowMask 44, forbid := vVD w ≥ 8 || vFN3 w = 7, badExt := vVL w > maskCap }
    (fun x => putM x (vVD w)
      ((actives x w).foldl (fun m i => setBit m i (compare (vFN3 w) (vFMT w) (srcA x w i) (srcB x w i))) (getM x (vVD w))))

/-- VSEL. -/
def execVsel (c : Ctx) (w : W128) (s : State) : Out :=
  formAWord s c w 0x19 { plainChk fmtAll with forbid := !vME w } (fun x =>
    putEs x (vFMT w) (vVD w) ((List.range (vVL w)).map (fun i =>
      (i, if bit (getM x (vMS w)) i then srcB x w i else srcA x w i))))

/-- Mask logic (04 R94). -/
def maskFn (fn : Nat) (a b : BitVec 2048) : BitVec 2048 :=
  match fn with
  | 0 => a &&& b
  | 1 => a ||| b
  | 2 => a ^^^ b
  | 3 => a &&& ~~~b
  | 4 => ~~~a
  | 5 => ~~~0#2048
  | _ => 0

/-- MLOGIC: bits 0 to VL - 1. -/
def execMlogic (c : Ctx) (w : W128) (s : State) : Out :=
  formAWord s c w 0x1A
    { resv := lowMask 44, forbid := vVD w ≥ 8 || vME w || vFN3 w = 7, reads := false, allow := fmtAll, badFmt := false,
      badExt := vVL w > maskCap }
    (fun x =>
      let low : BitVec 2048 := BitVec.ofNat 2048 (lowMask (vVL w))
      let r := maskFn (vFN3 w) (getM x (vVA w % 8)) (getM x (vVB w % 8))
      putM x (vVD w % 8) ((getM x (vVD w % 8) &&& ~~~low) ||| (r &&& low)))

/-- VSLIDE. -/
def execVslide (c : Ctx) (w : W128) (s : State) : Out :=
  formAWord s c w 0x1B { plainChk fmtAll with resv := lowMask 35 } (fun x =>
    let sh := signed 12 (fld w 35 12)
    putEs x (vFMT w) (vVD w) ((actives x w).map (fun (i : Nat) =>
      let j : Int := (i : Int) - sh
      (i, if 0 ≤ j && j < (vVL w : Int) then srcA x w j.toNat else vScalar x w))))

/-- VIOTA. -/
def execViota (c : Ctx) (w : W128) (s : State) : Out :=
  formAWord s c w 0x1C (plainChk fmtInt) (fun x =>
    putEs x 12 (vVD w) ((actives x w).map (fun i => (i, (rdS x (vSB w) + BitVec.ofNat 32 i).toNat))))

/-- VCOMPRESS. -/
def execVcompress (c : Ctx) (w : W128) (s : State) : Out :=
  formAWord s c w 0x1D { plainChk fmtAll with forbid := !vME w } (fun x =>
    let got := (actives x w).map (srcA x w)
    putEs x (vFMT w) (vVD w) ((List.range (vVL w)).map (fun i => (i, got.getD i (vScalar x w)))))

/-- VSPLAT. -/
def execVsplat (c : Ctx) (w : W128) (s : State) : Out :=
  formAWord s c w 0x1E (plainChk fmtAll) (fun x =>
    putEs x (vFMT w) (vVD w) ((actives x w).map (fun i => (i, vScalar x w))))

/-! ### Reductions and scans (04 R95-R97) -/

/-- A leaf or a node of the reduction tree: its value and index. -/
abbrev Leaf := Option (W32 × Nat)

/-- The order key of MAX and MIN (04 R95): a NaN above every number for MAX, below for MIN; INT32 signed. -/
def redKey (f : Nat) (wantMax : Bool) (v : W32) : Int :=
  if f = 12 then v.toInt
  else if isNan32 v then (if wantMax then 2 ^ 33 else -(2 ^ 33))
  else ordKey v

/-- join of 04 R95. -/
def joinLeaf (f fn : Nat) (l r : Leaf) : Leaf :=
  match l, r with
  | none, r => r
  | l, none => l
  | some (a, i), some (b, j) =>
    if fn = 0 then some (if f = 12 then a + b else fadd a b, i)
    else if fn = 1 then some (if f = 12 then a * b else fmul a b, i)
    else if fn = 4 then some (a + b, i)
    else
      let mx := fn = 2 || fn = 5
      let ka := redKey f mx a
      let kb := redKey f mx b
      if (if mx then kb > ka else kb < ka) then some (b, j) else some (a, i)

/-- One level of the tree. -/
def pairUp (f fn : Nat) : List Leaf → List Leaf
  | a :: b :: t => joinLeaf f fn a b :: pairUp f fn t
  | l => l

/-- The tree reduced over at most `k` levels. -/
def treeUp (f fn : Nat) : Nat → List Leaf → Leaf
  | _, [] => none
  | _, [a] => a
  | 0, a :: _ => a
  | k + 1, l => treeUp f fn k (pairUp f fn l)

/-- The least power of two that is at least `n` (n at least 1). -/
def pow2Ceil (n : Nat) : Nat := if n ≤ 1 then 1 else 2 ^ (Nat.log2 (n - 1) + 1)

/-- The lane-order pairwise tree over `n` elements (04 R95). -/
def reduceTree (f fn : Nat) (leaves : List Leaf) : Leaf :=
  let n := pow2Ceil leaves.length
  treeUp f fn 13 (leaves ++ List.replicate (n - leaves.length) none)

/-- The result of a reduction with no active element (04 R96). -/
def emptyRed (f fn : Nat) : W32 :=
  match fn with
  | 1 => if f = 12 then 1 else 0x3F800000
  | 2 => if f = 12 then 0x80000000 else 0xFF800000
  | 3 => if f = 12 then 0x7FFFFFFF else 0x7F800000
  | 5 => 0xFFFF
  | 6 => 0xFFFF
  | _ => 0

/-- A NaN made canonical (02 R35). -/
def canon32 (v : W32) : W32 := if isNan32 v then nan32 else v

/-- The word that VRED writes (04 R95). -/
def redResult (f fn : Nat) (l : Leaf) : W32 :=
  match l with
  | none => emptyRed f fn
  | some (v, i) =>
    if fn = 5 || fn = 6 then BitVec.ofNat 32 i
    else if fn = 4 || f = 12 then v
    else canon32 v

/-- The leaf of element i. -/
def redLeaf (x : Context) (w : W128) (i : Nat) : Leaf :=
  if activeE x w i then some (if vFN3 w = 4 then 1 else widen32 (vFMT w) (srcA x w i), i) else none

/-- VRED. -/
def execVred (c : Ctx) (w : W128) (s : State) : Out :=
  formAWord s c w 0x20 { plainChk fmtAll with resv := lowMask 44, forbid := vFN3 w = 7 } (fun x =>
    let r := reduceTree (vFMT w) (vFN3 w) ((List.range (vVL w)).map (redLeaf x w))
    let x := putE 12 (vVD w) x (0, (redResult (vFMT w) (vFN3 w) r).toNat)
    if r = none then orStatus x 1 else x)

/-- The sum of a scan; an absent operand adds nothing (04 R97). -/
def scanAdd (f : Nat) (a b : Option W32) : Option W32 :=
  match a, b with
  | none, b => b
  | a, none => a
  | some a, some b => some (if f = 12 then a + b else fadd a b)

/-- One round of the scan at distance `d` over pairs (value, segment begun) (04 R97). -/
def scanRound (f d : Nat) (v : List (Option W32 × Bool)) : List (Option W32 × Bool) :=
  (List.range v.length).map (fun i =>
    let e := v.getD i (none, true)
    if i < d || e.2 then e
    else
      let p := v.getD (i - d) (none, true)
      (scanAdd f p.1 e.1, p.2))

/-- The rounds at distances `d`, `2 d`, ... while below the length; `k` bounds their number. -/
def scanRounds (f : Nat) : Nat → Nat → List (Option W32 × Bool) → List (Option W32 × Bool)
  | 0, _, v => v
  | k + 1, d, v => if d < v.length then scanRounds f k (2 * d) (scanRound f d v) else v

/-- VSCAN. -/
def execVscan (c : Ctx) (w : W128) (s : State) : Out :=
  formAWord s c w 0x21 { plainChk fmtWide with resv := lowMask 42 } (fun x =>
    let f := vFMT w
    let excl := bit w 46
    let seg := bit w 45
    let hm := getM x (fld w 42 3)
    let start (i : Nat) : Bool := i = 0 || (seg && bit hm i)
    let v0 := (List.range (vVL w)).map (fun i =>
      (if activeE x w i then some (BitVec.ofNat 32 (srcA x w i)) else none, start i))
    let v := scanRounds f 13 1 v0
    let out (v : W32) : Nat := if f = 12 then v.toNat else (canon32 v).toNat
    let val (i : Nat) : Nat :=
      if excl then
        (if i = 0 || start i then 0 else match (v.getD (i - 1) (none, true)).1 with | some y => out y | none => 0)
      else match (v.getD i (none, true)).1 with | some y => out y | none => 0
    let act := actives x w
    let y := putEs x f (vVD w) (act.map (fun i => (i, val i)))
    if act.isEmpty then orStatus y 1 else y)

/-! ### Casts, MX blocks, trackers (04 R98-R101) -/

/-- A tracker (02 R48). -/
def getTrk (s : State) (t : Nat) : Tracker := sget Tracker.reset s.trackers t

/-- A tracker replaced. -/
def setTrk (s : State) (t : Nat) (v : Tracker) : State := { s with trackers := sput Tracker.reset s.trackers t v }

/-- A tracker used by a cast or an observation of the step under way (02 R52). -/
def useTrk (s : State) (t : Nat) : State := { s with stepTrk := s.stepTrk ++ [t] }

/-- What a word's conversions met goes to VSTATUS, and one report of each code to the collector (04 R107). -/
def castStatus (s : State) (c : Ctx) (nan nonfin sat : Bool) : State :=
  let v : W32 := BitVec.ofNat 32 (b2n nan * 2 + b2n nonfin * 4 + b2n sat * 8)
  let s := modCtx s c (fun x => orStatus x v)
  let s := if nan then report s fCastNan 1 (some c) else s
  if nonfin then report s fNonfinite 1 (some c) else s

/-- The conversion that VCVT and VCAST share: observation, scale by `2^k`, conversion, results packed into VD (04 R98, R99). -/
def castRun (c : Ctx) (w : W128) (k : Int) (s : State) : State :=
  let x := getCtx s c
  let act := actives x w
  let vs := act.map (fun i => decodeElem (vFMT w) (srcA x w i))
  let s := if bit w 33 then useTrk (setTrk s (vTID w) (observeAll (getTrk s (vTID w)) vs)) (vTID w) else s
  let rs := vs.map (fun v => cvt (vDFMT w) (bit w 34) (scaleN v k))
  let s := modCtx s c (fun x => putEs x (vDFMT w) (vVD w) (act.zip (rs.map (fun r => r.code))))
  castStatus s c (rs.any (fun r => r.nan)) false (rs.any (fun r => r.sat))

/-- The checks on DFMT that VCVT and VCAST share. -/
def badDfmt (s : State) (w : W128) : Bool := !fmtOn s (vDFMT w) || vDFMT w = 11

/-- A masked VCVT to an FP6, FP4 or INT4 format is refused (04 R98); of VCAST no chapter says so, and it runs. -/
def badMasked (w : W128) : Bool := vME w && fmtBits (vDFMT w) < 8

/-- The places that a cast reads and writes beyond its own registers: the tracker, and the active elements of VD, which depend on it. -/
def castFoot (x : Context) (c : Ctx) (w : W128) (cast : Bool) : List Foot :=
  if vVL w = 0 then []
  else if cast then trkFoot (vTID w) (bit w 33) .through :: vregFoot c (vVC w) 1 :: vregRuns c (vVD w) (vDFMT w) (actives x w)
  else if bit w 33 then [trkFoot (vTID w) true .through] else []

/-- VCVT. -/
def execVcvt (c : Ctx) (w : W128) (s : State) : Out :=
  engineWord s c .vector w 0x28 (fun s => beginWord s
    (vChecks s w { plainChk fmtAll with resv := lowMask 26, badFmt := badDfmt s w || badMasked w || fld w 35 8 = 255,
                                        badExt := vVL w > viewCap (vDFMT w) }) [] .done
    (fun s => sure (if vVL w = 0 then s else castRun c w ((fld w 35 8 : Int) - 127) s)) (castFoot (getCtx s c) c w false))

/-- VCAST: PROP is read when the word starts; the dequantisation scale code 127 - PROP goes to byte 0 of VC (02 R51). DESIGN CHOICE (logs
67, 73): the UE8M0 scale, whose code the word does not carry, is written though FORMATS disables it; where VC is VD, that byte is
written last. -/
def execVcast (c : Ctx) (w : W128) (s : State) : Out :=
  engineWord s c .vector w 0x29 (fun s => beginWord s
    (vChecks s w { plainChk fmtOne with
      resv := lowMask 26 + 0xFF * 2 ^ 35,
      badFmt := badDfmt s w || vDFMT w ≠ (getTrk s (vTID w)).fmt.toNat,
      badExt := vVL w > viewCap (vDFMT w) }) [] .done
    (fun s => sure (
      if vVL w = 0 then s
      else
        let p := (getTrk s (vTID w)).prop.toInt
        modCtx (useTrk (castRun c w p s) (vTID w)) c (fun x => putE 10 (vVC w) x (0, (127 - p).toNat)))) (castFoot (getCtx s c) c w true))

/-- The checks that the two MX words share: ME 0, an MX element format, VL a multiple of 32. DESIGN CHOICE (log 67): the UE8M0 scales,
whose code the word does not carry, are not held to FORMATS; the same holds of VCAST's scale byte. -/
def mxChk (s : State) (w : W128) (reads : Bool) : VChk :=
  { resv := lowMask 43, forbid := vME w, reads := reads, allow := fmtOne,
    badFmt := !isMxFmt (vDFMT w) || !fmtOn s (vDFMT w),
    badExt := vVL w > viewCap (vDFMT w) || vVL w > 1024 || vVL w % 32 ≠ 0 }

/-- One MX block of VMXE: its scale, its codes, whether it was non-finite, whether an element was clamped (02 R44, 04 R107). -/
def mxBlock (x : Context) (w : W128) (b : Nat) : Nat × List Nat × Bool × Bool :=
  let xs := (List.range 32).map (fun i => decodeElem 0 (srcA x w (32 * b + i)))
  let r := mxEncode (vDFMT w) xs
  let clamped := !r.2.2 && xs.any (fun v => (cvt (vDFMT w) true (scaleN v (127 - (r.1 : Int) - mxUnit (vDFMT w)))).sat)
  (r.1, r.2.1, r.2.2, clamped)

/-- VMXE. DESIGN CHOICE (log 73): where VC is VD, the scale bytes are written after the elements. -/
def execVmxe (c : Ctx) (w : W128) (s : State) : Out :=
  engineWord s c .vector w 0x2A (fun s => beginWord s (vChecks s w (mxChk s w true)) [] .done
    (fun s => sure (
      let bs := (List.range (vVL w / 32)).map (mxBlock (getCtx s c) w)
      let codes := bs.flatMap (fun b => b.2.1)
      let s := modCtx s c (fun x =>
        putEs (putEs x (vDFMT w) (vVD w) ((List.range codes.length).zip codes)) 10 (vVC w)
          ((List.range bs.length).zip (bs.map (fun b => b.1))))
      if vVL w = 0 then s else castStatus s c false (bs.any (fun b => b.2.2.1)) (bs.any (fun b => b.2.2.2)))))

/-- VMXD. -/
def execVmxd (c : Ctx) (w : W128) (s : State) : Out :=
  engineWord s c .vector w 0x2B (fun s => beginWord s (vChecks s w (mxChk s w false)) [] .done
    (bankRun c w (fun x => putEs x 0 (vVD w) ((List.range (vVL w)).map (fun i =>
      (i, (mxDecode (vDFMT w) (getE x 10 (vVB w) (i / 32)) (getE x (vDFMT w) (vVA w) i)).toNat))))))

/-- A VTRK word of one function (04 R101), where `ready` lets it start. DESIGN CHOICE (log 74): "ignores ME and VL" says that the word has
no such fields; bits [78:0] are reserved, and one that is set refuses the word. -/
def trkWord (s : State) (c : Ctx) (w : W128) (fn : Nat) (ready : Bool) (f : State → Begin) : Out :=
  guarded (mayStart s c .vector w && chosen s c .vector && wOp w = 0x2C && fld w 91 2 = fn && ready) s
    (begun s c .vector (if anyBit w (lowMask 79) then .refuse fOpcode else f s))

/-- TID of a VTRK word. -/
def trkTid (w : W128) : Nat := fld w 84 7
/-- VR of a VTRK word. -/
def trkVr (w : W128) : Nat := fld w 79 5

/-- Element 16 of a tracker's image (04 R101). -/
def trkWord16 (t : Tracker) : Nat :=
  t.cur.toNat + t.fmt.toNat * 2 ^ 4 + t.margin.toNat * 2 ^ 8 + t.sinit.toNat * 2 ^ 12 + t.prop.toNat * 2 ^ 20

/-- The image of a tracker: elements 0 to 17 (04 R101). -/
def trkImage (t : Tracker) : List W32 :=
  trackerFields t ++ [BitVec.ofNat 32 (trkWord16 t), BitVec.ofNat 32 t.nf.toNat]

/-- VTRK READ. -/
def execVtrkRead (c : Ctx) (w : W128) (s : State) : Out :=
  trkWord s c w 0 true (fun _ => .start [] .done (fun s => sure (modCtx s c (fun x =>
    putEs x 12 (trkVr w) ((List.range 18).zip ((trkImage (getTrk s (trkTid w))).map BitVec.toNat)))))
    [trkFoot (trkTid w) false, vregFoot c (trkVr w) 72])

/-- VTRK WRITE: FMT, MARGIN and SINIT from element 16 of VR; another FMT, or SINIT -128, is refused (02 R48). DESIGN CHOICE (log 68): a
format that FORMATS disables is accepted; the word that casts through it is refused. -/
def execVtrkWrite (c : Ctx) (w : W128) (s : State) : Out :=
  trkWord s c w 1 true (fun s =>
    let v : W32 := BitVec.ofNat 32 (getE (getCtx s c) 12 (trkVr w) 16)
    if fld v 4 4 < 3 || fld v 4 4 > 7 || fld v 12 8 = 0x80 then .refuse fFormat
    else .start [] .done (fun s => sure (setTrk s (trkTid w)
      { getTrk s (trkTid w) with fmt := BitVec.ofNat 4 (fld v 4 4), margin := BitVec.ofNat 4 (fld v 8 4),
                                 sinit := BitVec.ofNat 8 (fld v 12 8) })) [trkFoot (trkTid w) true])

/-- VTRK RESET. -/
def execVtrkReset (c : Ctx) (w : W128) (s : State) : Out :=
  trkWord s c w 2 true (fun _ => .start [] .done (fun s => sure (setTrk s (trkTid w) Tracker.reset)) [trkFoot (trkTid w) true])

/-- VTRK ADVANCE (02 R50). Of an advance and the casts and observations of one step the advance comes first, so that a cast uses the
new PROP and an observation enters the new period's entry (02 R52): after a cast or an observation through the tracker, it starts in
a later step (log 75). -/
def execVtrkAdvance (c : Ctx) (w : W128) (s : State) : Out :=
  trkWord s c w 3 (!s.stepTrk.contains (trkTid w)) (fun _ =>
    .start [] .done (fun s => sure (setTrk s (trkTid w) (advanceTracker (getTrk s (trkTid w))))) [trkFoot (trkTid w) true .advance])

/-! ### Random numbers (04 R102, R103) -/

/-- Philox-4x32-10, `n` rounds to go. -/
def philox : Nat → W32 × W32 × W32 × W32 → W32 → W32 → W32 × W32 × W32 × W32
  | 0, c, _, _ => c
  | n + 1, (c0, c1, c2, c3), k0, k1 =>
    let p0 := 0xD2511F53 * c0.toNat
    let p1 := 0xCD9E8D57 * c2.toNat
    let h0 : W32 := BitVec.ofNat 32 (p0 >>> 32)
    let h1 : W32 := BitVec.ofNat 32 (p1 >>> 32)
    philox n (h1 ^^^ c1 ^^^ k0, BitVec.ofNat 32 p1, h0 ^^^ c3 ^^^ k1, BitVec.ofNat 32 p0) (k0 + 0x9E3779B9) (k1 + 0xBB67AE85)

/-- Output word SEL of element i's draw. -/
def randWord (x : Context) (w : W128) (i : Nat) : W32 :=
  let r (n : Nat) : W32 := rdS x n
  let o := philox 10 (r (fld w 25 5) + BitVec.ofNat 32 i, r (fld w 35 5), r (fld w 30 5), r (fld w 30 5 + 1))
    (r (fld w 40 5)) (r (fld w 40 5 + 1))
  match fld w 45 2 with
  | 0 => o.1
  | 1 => o.2.1
  | 2 => o.2.2.1
  | _ => o.2.2.2

/-- VRAND. -/
def execVrand (c : Ctx) (w : W128) (s : State) : Out :=
  formAWord s c w 0x30
    { plainChk fmtWide with resv := lowMask 25, forbid := fld w 40 5 = 31 || fld w 30 5 = 31 } (fun x =>
    putEs x (vFMT w) (vVD w) ((actives x w).map (fun (i : Nat) =>
      let r := randWord x w i
      (i, if vFMT w = 12 then r.toNat else (rne32 (.fin false (r.toNat >>> 8) (-24))).toNat))))

/-! ### Scratchpad and accumulator access (04 R104-R106) -/

/-- The element indices that a form B word moves: those that its mask lets take part (04 R86). -/
def movedE (x : Context) (me : Bool) (ms vl : Nat) : List Nat :=
  (List.range vl).filter (fun i => !me || bit (getM x ms) i)

/-- An element as VLOAD fills it (04 R104): widened exactly where W = 1. -/
def loadCode (f : Nat) (wide : Bool) (code : Nat) : Nat :=
  if !wide || fmtBits f = 32 then code
  else if f = 8 || f = 9 then (BitVec.ofInt 32 (signed (fmtBits f) code)).toNat
  else (rne32 (decodeElem f code)).toNat

/-- The view that VLOAD fills. -/
def loadView (f : Nat) (wide : Bool) : Nat :=
  if !wide then f else if f = 8 || f = 9 || f = 12 then 12 else 0

/-- Whole elements among the bytes that a read delivered, at most `n`. -/
def wholeE (f n len : Nat) : Nat := min n (8 * len / fmtBits f)

/-- Loads of runs of elements: (first element, count, byte offset); a failed access leaves the elements filled before it (06
R146). The image that has been filled is the run's data. -/
def loadRuns (c : Ctx) (h : Handle) (f view r : Nat) (g : Nat → Nat) : State → List (Nat × Nat × Nat) → Got
  | s, [] => sure s
  | s, (i, n, o) :: rs =>
    let d := wordRead s (wordWho s .vector c) h o (runBytes f n)
    let es := (List.range (wholeE f n d.data.length)).map (fun j => (i + j, g (unpackAt f d.data j)))
    let s := modCtx d.s c (fun x => putEs x view r es)
    let image := pack view (es.map Prod.snd)
    match d.fail with
    | some e => { s := s, data := image, fail := some e }
    | none =>
      let t := loadRuns c h f view r g s rs
      { t with data := image ++ t.data }

/-- The fields of VLOAD and VSTORE (04 R104). -/
structure BWord where
  vr   : Nat
  hidx : Nat
  hgen : Nat
  me   : Bool
  ms   : Nat
  fmt  : Nat
  vl   : Nat
  base : Nat

/-- Decodes them; the offset is s[SO] + OFF. -/
def bWord (x : Context) (w : W128) : BWord :=
  { vr := fld w 88 5, hidx := fld w 79 9, hgen := fld w 75 4, me := bit w 74, ms := fld w 71 3, fmt := fld w 67 4,
    vl := fld w 50 12, base := (rdS x (fld w 62 5)).toNat + fld w 27 23 }

/-- The checks of VLOAD and VSTORE in their order; a mask register bounds no VL here (04 R87, 06 R143). -/
def bChecks (s : State) (w : W128) (b : BWord) (acc wide : Bool) : List (Bool × Nat) :=
  [(anyBit w (lowMask 25), fOpcode),
   (!fmtOn s b.fmt || b.fmt = 11 || (acc && !fmtWide b.fmt) || (b.me && fmtBits b.fmt < 8), fFormat),
   (b.vl > viewCap b.fmt || (wide && b.vl > 1024), fExtent)]

/-- The run that VLOAD or VSTORE names, on which its checks are made (04 R104). -/
def bUse (b : BWord) (wr acc : Bool) : Use :=
  { idx := b.hidx, gen := b.hgen, wr := wr, acc := acc, runs := [((b.base : Int), runBytes b.fmt b.vl)] }

/-- The bytes that it accesses: those of the elements that take part (04 R86). -/
def bActs (b : BWord) (act : List Nat) (wr acc : Bool) : Use :=
  { bUse b wr acc with
    runs := (runsOf act).map (fun e => (((b.base + runBytes b.fmt e.1 : Nat) : Int), runBytes b.fmt e.2)) }

/-- VLOAD. DESIGN CHOICE (log 76): ACC, which has a meaning for VSTORE only, is not read here, nor W in VSTORE. -/
def execVload (c : Ctx) (w : W128) (s : State) : Out :=
  engineWord s c .vector w 0x38 (fun s =>
    let b := bWord (getCtx s c) w
    let wide := bit w 25
    let act := movedE (getCtx s c) b.me b.ms b.vl
    beginPart s (bChecks s w b false wide) [bUse b false false] [bActs b act false false] .done
      (fun s => loadRuns c (getH s b.hidx) b.fmt (loadView b.fmt wide) b.vr (loadCode b.fmt wide) s
        ((runsOf act).map (fun e => (e.1, e.2, b.base + runBytes b.fmt e.1))))
      (vregRuns c b.vr (loadView b.fmt wide) act))

/-- How a store of a format accumulates (06 R133). -/
def storeMode (f : Nat) (acc : Bool) : Acc := if acc then .accum (f = 12) else .write

/-- VSTORE. -/
def execVstore (c : Ctx) (w : W128) (s : State) : Out :=
  engineWord s c .vector w 0x39 (fun s =>
    let b := bWord (getCtx s c) w
    let acc := bit w 26
    let act := movedE (getCtx s c) b.me b.ms b.vl
    beginPart s (bChecks s w b acc false) [bUse b true acc] [bActs b act true acc] .done
      (fun s =>
        let x := getCtx s c
        writeRuns (wordWho s .vector c) (getH s b.hidx) (storeMode b.fmt acc) s
          ((runsOf act).map (fun e =>
            (b.base + runBytes b.fmt e.1, pack b.fmt ((List.range e.2).map (fun j => getE x b.fmt b.vr (e.1 + j))))))))

/-- The fields of VGATHER and VSCATTER (04 R105). -/
structure GWord where
  vr   : Nat
  hidx : Nat
  hgen : Nat
  fmt  : Nat
  rows : Nat
  rlen : Nat
  ipos : Nat
  offs : List (Option Int)

/-- Decodes them; each row's start in the handle, `none` for a null index. An index element beyond register VI reads as zero (log 86). -/
def gWord (x : Context) (w : W128) : GWord :=
  let rows := fld w 50 11
  let ipos := (rdS x (fld w 61 5)).toNat
  let coff := (rdS x (fld w 11 5)).toNat
  { vr := fld w 88 5, hidx := fld w 74 9, hgen := fld w 70 4, fmt := fld w 66 4, rows := rows, rlen := fld w 39 11,
    ipos := ipos,
    offs := (List.range rows).map (fun j =>
      let v : W32 := if ipos + j < 1024 then BitVec.ofNat 32 (getE x 12 (fld w 83 5) (ipos + j)) else 0
      if v = 0xFFFFFFFF then none else some ((coff : Int) + v.toInt * (fld w 16 23 : Int))) }

/-- The word moves no row. -/
def GWord.isEmpty (g : GWord) : Bool := g.rows = 0 || g.rlen = 0

/-- Bytes of a row segment. -/
def GWord.rowLen (g : GWord) : Nat := runBytes g.fmt g.rlen

/-- The checks of VGATHER and VSCATTER in their order (04 R105). DESIGN CHOICE (log 86): one that moves no row completes whatever IPOS + ROWS;
under ACC its alignment is judged on the index elements that it names, zero beyond VI. -/
def gChecks (s : State) (w : W128) (g : GWord) (acc : Bool) : List (Bool × Nat) :=
  [(anyBit w (lowMask 10), fOpcode),
   (!fmtOn s g.fmt || !fmtAll g.fmt || (acc && g.fmt = 1), fFormat),
   (!g.isEmpty && (g.rows * g.rlen > viewCap g.fmt || g.ipos + g.rows > 1024), fExtent)]

/-- The handle that VGATHER or VSCATTER names, with a run for each row that is not null. -/
def gUse (g : GWord) (wr acc : Bool) : Use :=
  { idx := g.hidx, gen := g.hgen, wr := wr, acc := acc,
    runs := g.offs.filterMap (fun o => o.map (fun v => (v, if g.isEmpty then 0 else g.rowLen))) }

/-- Rows gathered in ascending order; a null row reads as zero bits (04 R105). -/
def gatherRows (c : Ctx) (h : Handle) (g : GWord) : State → List (Nat × Option Int) → Got
  | s, [] => sure s
  | s, (j, o) :: rs =>
    match o with
    | none =>
      let s := modCtx s c (fun x => putEs x g.fmt g.vr ((List.range g.rlen).map (fun e => (j * g.rlen + e, 0))))
      let t := gatherRows c h g s rs
      { t with data := List.replicate g.rowLen 0 ++ t.data }
    | some v =>
      let t := loadRuns c h g.fmt g.fmt g.vr (fun k => k) s [(j * g.rlen, g.rlen, v.toNat)]
      match t.fail with
      | some _ => t
      | none =>
        let u := gatherRows c h g t.s rs
        { u with data := t.data ++ u.data }

/-- VGATHER. -/
def execVgather (c : Ctx) (w : W128) (s : State) : Out :=
  engineWord s c .vector w 0x3A (fun s =>
    let g := gWord (getCtx s c) w
    beginWord s (gChecks s w g false) [gUse g false false] .done
      (fun s => if g.isEmpty then sure s else gatherRows c (getH s g.hidx) g s ((List.range g.rows).zip g.offs))
      [vregFoot c g.vr (runBytes g.fmt (g.rows * g.rlen))])

/-- VSCATTER: rows in ascending order (04 R105). -/
def execVscatter (c : Ctx) (w : W128) (s : State) : Out :=
  engineWord s c .vector w 0x3B (fun s =>
    let g := gWord (getCtx s c) w
    let acc := bit w 10
    beginWord s (gChecks s w g acc) [gUse g true acc] .done
      (fun s =>
        if g.isEmpty then sure s
        else
          let x := getCtx s c
          writeRuns (wordWho s .vector c) (getH s g.hidx) (storeMode g.fmt acc) s
            (((List.range g.rows).zip g.offs).filterMap (fun e => e.2.map (fun v =>
              (v.toNat, pack g.fmt ((List.range g.rlen).map (fun k => getE x g.fmt g.vr (e.1 * g.rlen + k)))))))))

/-- Accumulator rows copied into a register, bit patterns unchanged (04 R106); `i` counts the rows done. A row whose read fails fills no
element (06 R146). -/
def vaccRows (c : Ctx) (vd base : Nat) : State → List Nat → Got
  | s, [] => sure s
  | s, i :: is =>
    let r := accReadRow c none (base + i) s (List.range 128)
    match r.2.2 with
    | some f => { s := r.1, data := [], fail := some f }
    | none =>
      let t := vaccRows c vd base (modCtx r.1 c (fun x => putEs x 0 vd ((List.range r.2.1.length).zip (r.2.1.map BitVec.toNat) |>.map
        (fun e => (128 * i + e.1, e.2))))) is
      { t with data := pack 0 (r.2.1.map BitVec.toNat) ++ t.data }

/-- VACC. -/
def execVacc (c : Ctx) (w : W128) (s : State) : Out :=
  engineWord s c .vector w 0x3C (fun s =>
    let base := fld w 76 12
    let rows := fld w 72 4
    beginWord s [(anyBit w (lowMask 72), fOpcode), (rows > 8 || base + rows > 4096, fExtent)] [] .done
      (fun s => vaccRows c (fld w 88 5) base s (List.range rows))
      [{ place := .acc, wr := false, acc := false, lo := base, len := rows }, vregFoot c (fld w 88 5) (rows * 512)])

/-- VSTAT (04 R107). -/
def execVstat (c : Ctx) (w : W128) (s : State) : Out :=
  engineWord s c .vector w 0x3F (fun _ =>
    if anyBit w (lowMask 87) then .refuse fOpcode
    else .start [] .done (fun s => sure (modCtx s c (fun x =>
      let y := putE 12 (fld w 88 5) x (0, x.vstatus.toNat)
      if bit w 87 then { y with vstatus := 0 } else y))))

/-- The operations of 04 R89. -/
def vectorOps : List Nat :=
  [0x00, 0x01, 0x02, 0x03, 0x04, 0x05, 0x06, 0x07, 0x08, 0x09, 0x0A, 0x0B, 0x0C, 0x0D, 0x10, 0x11, 0x12, 0x13, 0x14, 0x15,
   0x18, 0x19, 0x1A, 0x1B, 0x1C, 0x1D, 0x1E, 0x20, 0x21, 0x28, 0x29, 0x2A, 0x2B, 0x2C, 0x30, 0x38, 0x39, 0x3A, 0x3B, 0x3C,
   0x3F]

/-- VNOP. -/
def execVnop (c : Ctx) (w : W128) (s : State) : Out := nopWord s c .vector w vectorOps

end Sys2Proof.Machine
end

