-- ==== Sys2Proof/Machine/Row.lean ====
section
/-!
DEFINITION. The row engine and the stat store (05): row sums, the forward and backward operations, records, and how rows are
dealt to the row units.
-/

namespace Sys2Proof.Machine

/-! ### Operand slots and fields (05 R121, R122) -/

/-- A row-engine operand slot. -/
structure RSlot where
  fmt    : Nat
  hgen   : Nat
  hidx   : Nat
  off    : Nat
  stride : Nat

/-- Operand slot n of a context, from bits [92:0] of the RSET that wrote it. -/
def rslot (s : State) (c : Ctx) (n : Nat) : RSlot :=
  let w := sget 0 (getCtx s c).rslots n
  { fmt := fld w 86 4, hgen := fld w 82 4, hidx := fld w 73 9, off := fld w 46 27, stride := fld w 26 20 }

def rROWS (w : W128) : Nat := fld w 77 16
def rLEN (w : W128) : Nat := fld w 60 17
def rBASE (w : W128) : Nat := fld w 45 15
def rSX (w : W128) : Nat := fld w 42 3
def rSY (w : W128) : Nat := fld w 39 3
def rSG (w : W128) : Nat := fld w 36 3
def rSK (w : W128) : Nat := fld w 33 3
def rMASK (w : W128) : Nat := fld w 31 2
/-- PARAM: a BF16 code widened exactly (05 R113). -/
def rPARAM (w : W128) : W32 := BitVec.ofNat 32 (fld w 15 16 <<< 16)
def rSTW (w : W128) : Bool := bit w 14

/-- A backward operation. -/
def rBack (op : Nat) : Bool := op = 0x09 || op = 0x0A || op = 0x0B
/-- A softmax operation. -/
def rSoft (op : Nat) : Bool := op = 0x03 || op = 0x0B

/-- FP32, BF16 or FP16, enabled (05 R123). -/
def rowFmt (s : State) (f : Nat) : Bool := f ≤ 2 && fmtOn s f

/-- The runs of a slot's buffer: `rows` rows of `nb` bytes (03 R68, 06 R143). -/
def rRuns (l : RSlot) (rows nb : Nat) : List (Int × Nat) :=
  if nb = 0 then [] else (List.range rows).map (fun j => (((l.off + j * l.stride : Nat) : Int), nb))

/-- A slot named by a word. -/
def rUse (l : RSlot) (rows nb : Nat) (wr : Bool) : Use :=
  { idx := l.hidx, gen := l.hgen, wr := wr, acc := false, runs := rRuns l rows nb }

/-- Bytes of a mask row (05 R123). -/
def maskRowBytes (w : W128) : Nat := if rMASK w = 1 then (rLEN w + 7) / 8 else 4

/-- The checks of a row word in table order (05 R123); those against the end of a handle belong to check 5 of 06 R141, which says so.
DESIGN CHOICE (log 69): with MASK = 1, which reads no FMT, the mask slot's code is held to 02 R32 all the same. -/
def rowChecks (s : State) (c : Ctx) (w : W128) (op : Nat) : List (Bool × Nat) :=
  let used := [rSX w, rSY w] ++ (if rBack op then [rSG w] else [])
  [(anyBit w (lowMask 14) || rMASK w = 3 || (rMASK w ≠ 0 && !rSoft op), fOpcode),
   (used.any (fun n => !rowFmt s (rslot s c n).fmt) ||
      (rMASK w ≠ 0 && !fmtOn s (rslot s c (rSK w)).fmt) || (rMASK w = 2 && (rslot s c (rSK w)).fmt ≠ 12), fFormat),
   (rLEN w > 65536, fExtent),
   ((rBack op || rSTW w) && rBASE w + rROWS w > 32768, fExtent)]

/-- The buffers that a row word names (05 R123). -/
def rowUses (s : State) (c : Ctx) (w : W128) (op : Nat) : List Use :=
  let n := rLEN w
  let rows := if n = 0 then 0 else rROWS w
  let l (k : Nat) : RSlot := rslot s c k
  [rUse (l (rSX w)) rows (runBytes (l (rSX w)).fmt n) false] ++
  (if rBack op then [rUse (l (rSG w)) rows (runBytes (l (rSG w)).fmt n) false] else []) ++
  (if rMASK w ≠ 0 then [rUse (l (rSK w)) rows (maskRowBytes w) false] else []) ++
  [rUse (l (rSY w)) rows (runBytes (l (rSY w)).fmt n) true]

/-! ### Row sums and the operations (05 R112-R115) -/

/-- The tree of one chunk (05 R112, 04 R95). -/
def chunkSum (vs : List (Option W32)) : Leaf := reduceTree 0 0 (vs.map (fun v => v.map (fun x => (x, 0))))

/-- rowsum (05 R112): chunks of 64 in ascending order, earlier chunks on the left; `none` marks an absent element. -/
def rowsum (vs : List (Option W32)) : W32 :=
  match (chunks 64 (vs.length / 64 + 1) vs).foldl (fun t ch => joinLeaf 0 0 t (chunkSum ch)) none with
  | none => 0
  | some (v, _) => v

/-- rowsum with every element present. -/
def rowsumAll (vs : List W32) : W32 := rowsum (vs.map some)

/-- A mean: the sum divided exactly by n and rounded once (05 R113). -/
def meanOf (v : W32) (n : Nat) : W32 := divRne32 (dec32 v) n

/-- A product converted once to the output slot's format (05 R113). -/
def roundOut (f : Nat) (a b : W32) : Nat := (cvt f false (mulN (dec32 a) (dec32 b))).code

/-- An element widened exactly to FP32. -/
def widenCode (f code : Nat) : W32 := rne32 (decodeElem f code)

/-- The record of a row: STAT0 and STAT1 (05 R117). -/
abbrev StatRec := W32 × W32

/-- ROW_EMPTY (05 R114). -/
def rowEmpty : StatRec := (0xFF800000, 0)

/-- log2(e) as FP32 (05 R113). -/
def log2e : W32 := 0x3FB8AA3B

/-- lnf (05 R113): the output codes and the record. -/
def lnfRow (f : Nat) (eps : W32) (x : List W32) : List Nat × StatRec :=
  let n := x.length
  let mu := meanOf (rowsumAll x) n
  let d := x.map (fun v => fsub v mu)
  let var := meanOf (rowsumAll (d.map (fun v => fmul v v))) n
  let r := fn32 .rsqrt (fadd var eps)
  (d.map (fun v => roundOut f v r), (mu, r))

/-- rmsf (05 R113). -/
def rmsfRow (f : Nat) (eps : W32) (x : List W32) : List Nat × StatRec :=
  let ms := meanOf (rowsumAll (x.map (fun v => fmul v v))) x.length
  let r := fn32 .rsqrt (fadd ms eps)
  (x.map (fun v => roundOut f v r), (0, r))

/-- The greatest present value in the order of 04 R95. -/
def rowMax (zs : List (Option W32)) : Option W32 :=
  zs.foldl (fun m z => match m, z with
    | none, z => z
    | m, none => m
    | some a, some b => if redKey 0 true b > redKey 0 true a then some b else some a) none

/-- smf (05 R113, R114); an absent element is `none`. -/
def smfRow (f : Nat) (c : W32) (x : List (Option W32)) : List Nat × StatRec :=
  let z := x.map (fun v => v.map (fun y => fmul y c))
  let empty := (x.map (fun _ => 0), rowEmpty)
  match rowMax z with
  | none => empty
  | some m =>
    if m = 0xFF800000 then empty
    else
      let e := z.map (fun v => v.map (fun y => fn32 .exp2 (fmul (fsub y m) log2e)))
      let rs := fn32 .rcp (rowsum e)
      (e.map (fun v => match v with | some y => roundOut f y rs | none => 0), (m, rs))

/-- lnb (05 R115). -/
def lnbRow (f : Nat) (rec : StatRec) (x g : List W32) : List Nat :=
  let n := x.length
  let r := rec.2
  let h := x.map (fun v => fmul (fsub v rec.1) r)
  let a := meanOf (rowsumAll g) n
  let b := meanOf (rowsumAll ((g.zip h).map (fun e => fmul e.1 e.2))) n
  (g.zip h).map (fun e => roundOut f r (fsub (fsub e.1 a) (fmul e.2 b)))

/-- rmsb (05 R115). -/
def rmsbRow (f : Nat) (rec : StatRec) (x g : List W32) : List Nat :=
  let r := rec.2
  let h := x.map (fun v => fmul v r)
  let b := meanOf (rowsumAll ((g.zip h).map (fun e => fmul e.1 e.2))) x.length
  (g.zip h).map (fun e => roundOut f r (fsub e.1 (fmul e.2 b)))

/-- smb (05 R115) of a row that is not empty. -/
def smbRow (f : Nat) (c : W32) (rec : StatRec) (x : List (Option W32)) (g : List W32) : List Nat :=
  let y := x.map (fun v => v.map (fun t => fmul (fn32 .exp2 (fmul (fsub (fmul t c) rec.1) log2e)) rec.2))
  let dd := rowsum ((y.zip g).map (fun e => e.1.map (fun t => fmul e.2 t)))
  (y.zip g).map (fun e => match e.1 with
    | some t => roundOut f (fmul t (fsub e.2 dd)) c
    | none => 0)

/-! ### The stat store (05 R117, R118) -/

/-- A record read: a single-bit error is corrected and reported by the tier, an uncorrectable one fails (05 R118). DESIGN CHOICE (log 92):
the corrected record is written back, so that a second read of it meets no error. -/
def statRead (s : State) (c : Ctx) (k : Nat) : State × StatRec × Option Nat :=
  let v := sget 0 s.stat k
  let r : StatRec := (v.truncate 32, (v >>> 32).truncate 32)
  match sget .good s.statErr k with
  | .good => (s, r, none)
  | .single => (report { s with statErr := sput .good s.statErr k .good } fStatCe 9 (some c), r, none)
  | .double => (s, (0, 0), some fStat)

/-- A record written with valid check bits. -/
def statPut (s : State) (k : Nat) (r : StatRec) : State :=
  { s with stat := sput 0 s.stat k (BitVec.ofNat 64 (r.1.toNat + r.2.toNat * 2 ^ 32)), statErr := sput .good s.statErr k .good }

/-! ### One row -/

/-- A failure. -/
def failed (s : State) (f : Nat) : Got := { s := s, data := [], fail := some f }

/-- A row of a row word, on the port of the unit that holds it (06 R127). -/
def rowWho (c : Ctx) (id u : Nat) : Who := engWho .row c (10 + u) id

/-- Row j of a slot's buffer read as FP32 values. -/
def rowVals (s : State) (o : Who) (l : RSlot) (j n : Nat) : Got × List W32 :=
  let g := wordRead s o (getH s l.hidx) (l.off + j * l.stride) (runBytes l.fmt n)
  (g, (unpack l.fmt g.data n).map (widenCode l.fmt))

/-- Which elements of row j are present (05 R114). -/
def rowMask (s : State) (o : Who) (c : Ctx) (w : W128) (j : Nat) : Got × (Nat → Bool) :=
  if rMASK w = 0 then (sure s, fun _ => true)
  else
    let l := rslot s c (rSK w)
    let g := wordRead s o (getH s l.hidx) (l.off + j * l.stride) (maskRowBytes w)
    if rMASK w = 1 then (g, fun i => (ofLE g.data).testBit i)
    else (g, fun i => (i : Int) < signed 32 (leAt g.data 0 4))

/-- The output of row j written. -/
def rowOut (s : State) (o : Who) (c : Ctx) (w : W128) (j : Nat) (codes : List Nat) : Got :=
  let l := rslot s c (rSY w)
  wordWrite s o (getH s l.hidx) .write (l.off + j * l.stride) (pack l.fmt codes)

/-- The present elements. -/
def present (p : Nat → Bool) (vs : List W32) : List (Option W32) :=
  ((List.range vs.length).zip vs).map (fun e => if p e.1 then some e.2 else none)

/-- A forward row from its values. -/
def forward (op f : Nat) (prm : W32) (p : Nat → Bool) (x : List W32) : List Nat × StatRec :=
  if op = 0x01 then lnfRow f prm x else if op = 0x02 then rmsfRow f prm x else smfRow f prm (present p x)

/-- A backward row from its values. -/
def backward (op f : Nat) (prm : W32) (rec : StatRec) (p : Nat → Bool) (x g : List W32) : List Nat :=
  if op = 0x09 then lnbRow f rec x g else if op = 0x0A then rmsbRow f rec x g else smbRow f prm rec (present p x) g

/-- A forward row: operands, outputs, and the record where STW is 1 (05 R113). DESIGN CHOICE (log 96): of an SMF the mask row is read before
the x row. -/
def forwardRow (s : State) (o : Who) (c : Ctx) (w : W128) (j : Nat) : Got :=
  let m := rowMask s o c w j
  match m.1.fail with
  | some f => failed m.1.s f
  | none =>
    let x := rowVals m.1.s o (rslot s c (rSX w)) j (rLEN w)
    match x.1.fail with
    | some f => failed x.1.s f
    | none =>
      let r := forward (wOp w) (rslot s c (rSY w)).fmt (rPARAM w) m.2 x.2
      let g := rowOut x.1.s o c w j r.1
      match g.fail with
      | some f => failed g.s f
      | none => sure (if rSTW w then statPut g.s (rBASE w + j) r.2 else g.s)

/-- A backward row: the record first; an empty softmax row reads no operand (05 R115). DESIGN CHOICE (log 96): nor does it read its mask row;
and of any other row the mask row is read first, then x, then g, so that the first of them that fails decides the fault. -/
def backwardRow (s : State) (o : Who) (c : Ctx) (w : W128) (j : Nat) : Got :=
  let r := statRead s c (rBASE w + j)
  match r.2.2 with
  | some f => failed r.1 f
  | none =>
    if wOp w = 0x0B && r.2.1 = rowEmpty then rowOut r.1 o c w j (List.replicate (rLEN w) 0)
    else
      let m := rowMask r.1 o c w j
      match m.1.fail with
      | some f => failed m.1.s f
      | none =>
        let x := rowVals m.1.s o (rslot s c (rSX w)) j (rLEN w)
        match x.1.fail with
        | some f => failed x.1.s f
        | none =>
          let g := rowVals x.1.s o (rslot s c (rSG w)) j (rLEN w)
          match g.1.fail with
          | some f => failed g.1.s f
          | none => rowOut g.1.s o c w j (backward (wOp w) (rslot s c (rSY w)).fmt (rPARAM w) r.2.1 m.2 x.2 g.2)

/-- Row j of a running row word, on unit `u`. -/
def doRow (s : State) (r : Running) (u j : Nat) : Got :=
  let o := rowWho r.ctx r.id u
  if rBack (wOp r.word) then backwardRow s o r.ctx r.word j else forwardRow s o r.ctx r.word j

/-! ### Units (05 R110) -/

/-- The number of row units. -/
def unitCount (s : State) : Nat := if s.features.rowu then 2 else 1

/-- The row that a unit holds. -/
def unitRow (s : State) (u : Nat) : Option UnitRow := s.units.find? (fun r => r.unit = u)

/-- The next row of a running word that waits for a unit. -/
def waitingRow (r : Running) : Option Nat :=
  match r.job with
  | .rows next total _ bad => if next < total && !bad then some next else none
  | _ => none

/-- The word whose row a free unit takes: C0's before C1's (05 R110). -/
def nextRowWord (s : State) : Option Running :=
  match (runningOf s .row .c0).find? (fun r => (waitingRow r).isSome) with
  | some r => some r
  | none => (runningOf s .row .c1).find? (fun r => (waitingRow r).isSome)

/-- The word's next row counted as taken. -/
def takeRow : Job → Job
  | .rows next total left bad => .rows (next + 1) total left bad
  | j => j

/-- A free unit takes the next waiting row. -/
def dealUnit (s : State) (u : Nat) : State :=
  if (unitRow s u).isSome then s
  else
    match nextRowWord s with
    | none => s
    | some r =>
      match waitingRow r with
      | none => s
      | some j =>
        let s := setJob s r.id (takeRow r.job)
        { s with units := s.units ++ [{ unit := u, id := r.id, row := j }] }

/-- Every free unit takes a waiting row. -/
def dealRows (s : State) : State := (List.range (unitCount s)).foldl dealUnit s

/-- A unit gives up its row. -/
def freeUnit (s : State) (u : Nat) : State := { s with units := s.units.filter (fun r => r.unit ≠ u) }

/-- Rows of a word taken from the units that hold them. -/
def dropRows (s : State) (id : Nat) : State := { s with units := s.units.filter (fun r => r.id ≠ id) }

/-- A row of a word is finished: the word completes with its last row; a word that met a bad record ends with the last row that
had started (05 R118). -/
def rowFinished (s : State) (r : Running) (bad : Bool) : State :=
  match r.job with
  | .rows next total left b =>
    if b || bad then
      if s.units.any (fun u => u.id = r.id) then setJob s r.id (.rows next total (left - 1) true) else dropRun s r.id
    else if left ≤ 1 then setJob s r.id .done
    else setJob s r.id (.rows next total (left - 1) false)
  | _ => s

/-- What row `j` of a row word writes: its outputs, and its record where STW is 1 (05 R113, R117). -/
def rowFeet (s : State) (c : Ctx) (w : W128) (j : Nat) : List Foot :=
  let l := rslot s c (rSY w)
  { place := .spad, wr := true, acc := false, lo := physOf (getH s l.hidx) (l.off + j * l.stride), len := runBytes l.fmt (rLEN w) } ::
    (if !rBack (wOp w) && rSTW w then [{ place := .stat, wr := true, acc := false, lo := rBASE w + j, len := 1 }] else [])

/-- Row `j` that unit `u` holds, finished: it is computed and written, and the unit takes the next waiting row (05 R110). -/
def finishRow (s : State) (r : Running) (u j : Nat) : State :=
  let g := doRow (progress (freeUnit s u)) r u j
  match g.fail with
  | none => dealRows (rowFinished (wrote g.s r.id (rowFeet s r.ctx r.word j)) r false)
  | some f =>
    if f = fStat then dealRows (rowFinished (report g.s fStat 9 (some r.ctx)) r true)
    else dealRows (failWord (dropRows g.s r.id) r.ctx .row r.id f)

/-- ROW_DONE: a unit finishes its row (05 R110). A failed scratchpad access ends the word (06 R146); an uncorrectable record ends it after
the rows already started (05 R118). -/
def execRowDone (u : Nat) (s : State) : Out :=
  match unitRow s u with
  | none => .next s
  | some ur =>
    match findRun s ur.id with
    | none => .next s
    | some r => guarded (live s) s (finishRow s r u ur.row)

/-! ### Row engine words (05 R120-R124) -/

/-- The stat records that a row word reads or writes (05 R117, R122). -/
def rowFoot (w : W128) (op : Nat) : List Foot :=
  if rROWS w = 0 || rLEN w = 0 || !(rBack op || rSTW w) then []
  else [{ place := .stat, wr := !rBack op, acc := false, lo := rBASE w, len := rROWS w }]

/-- A row word over rows: with no row or no element it completes at once (05 R122). -/
def rowWord (s : State) (c : Ctx) (w : W128) (op : Nat) : Out :=
  engineWord s c .row w op (fun s =>
    let n := rROWS w
    beginWord s (rowChecks s c w op) (rowUses s c w op)
      (if n = 0 || rLEN w = 0 then .done else .rows 0 n n false) (fun s => sure (dealRows s)) (rowFoot w op))

def execLnf (c : Ctx) (w : W128) (s : State) : Out := rowWord s c w 0x01
def execRmsf (c : Ctx) (w : W128) (s : State) : Out := rowWord s c w 0x02
def execSmf (c : Ctx) (w : W128) (s : State) : Out := rowWord s c w 0x03
def execLnb (c : Ctx) (w : W128) (s : State) : Out := rowWord s c w 0x09
def execRmsb (c : Ctx) (w : W128) (s : State) : Out := rowWord s c w 0x0A
def execSmb (c : Ctx) (w : W128) (s : State) : Out := rowWord s c w 0x0B

/-- RSET: checks nothing but its reserved bits (05 R121). -/
def execRset (c : Ctx) (w : W128) (s : State) : Out :=
  engineWord s c .row w 0x04 (fun _ =>
    if anyBit w (lowMask 26) then .refuse fOpcode
    else .start [] .done (fun s => sure (modCtx s c (fun x =>
      { x with rslots := sput 0 x.rslots (fld w 90 3) (w.truncate 93) }))))

/-- The checks of RSAVE and RLOAD (05 R124). -/
def saveChecks (w : W128) : List (Bool × Nat) :=
  [(anyBit w (lowMask 42) || fld w 60 17 ≠ 0, fOpcode), (rBASE w + rROWS w > 32768, fExtent)]

/-- The buffer of RSAVE and RLOAD. -/
def saveUse (s : State) (c : Ctx) (w : W128) (wr : Bool) : Use :=
  let l := rslot s c (rSX w)
  { idx := l.hidx, gen := l.hgen, wr := wr, acc := false, runs := [((l.off : Int), 8 * rROWS w)] }

/-- Records read one after another, up to an uncorrectable one. -/
def statReads (c : Ctx) : State → List Nat → State × List Byte × Option Nat
  | s, [] => (s, [], none)
  | s, k :: ks =>
    let r := statRead s c k
    match r.2.2 with
    | some f => (r.1, [], some f)
    | none =>
      let t := statReads c r.1 ks
      (t.1, toLE 4 r.2.1.1.toNat ++ toLE 4 r.2.1.2.toNat ++ t.2.1, t.2.2)

/-- RSAVE: the records before an uncorrectable one are copied (05 R118, R124). -/
def execRsave (c : Ctx) (w : W128) (s : State) : Out :=
  engineWord s c .row w 0x10 (fun s =>
    beginWord s (saveChecks w) [saveUse s c w true] .done (fun s =>
      let l := rslot s c (rSX w)
      let r := statReads c s ((List.range (rROWS w)).map (fun j => rBASE w + j))
      let g := wordWrite r.1 (wordWho s .row c) (getH s l.hidx) .write l.off r.2.1
      match g.fail with
      | some f => failed g.s f
      | none => match r.2.2 with
        | some f => failed g.s f
        | none => g)
      [{ place := .stat, wr := false, acc := false, lo := rBASE w, len := rROWS w }])

/-- RLOAD: whole records delivered before a failed access are stored (05 R124, 06 R146). -/
def execRload (c : Ctx) (w : W128) (s : State) : Out :=
  engineWord s c .row w 0x11 (fun s =>
    beginWord s (saveChecks w) [saveUse s c w false] .done (fun s =>
      let l := rslot s c (rSX w)
      let g := wordRead s (wordWho s .row c) (getH s l.hidx) l.off (8 * rROWS w)
      let t := (List.range (min (rROWS w) (g.data.length / 8))).foldl (fun s k =>
        statPut s (rBASE w + k) (BitVec.ofNat 32 (leAt g.data (8 * k) 4), BitVec.ofNat 32 (leAt g.data (8 * k + 4) 4))) g.s
      { s := t, data := g.data, fail := g.fail })
      [{ place := .stat, wr := true, acc := false, lo := rBASE w, len := rROWS w }])

/-- The operations of 05 R120. -/
def rowOps : List Nat := [0x00, 0x01, 0x02, 0x03, 0x04, 0x09, 0x0A, 0x0B, 0x10, 0x11]

/-- RNOP. -/
def execRnop (c : Ctx) (w : W128) (s : State) : Out := nopWord s c .row w rowOps

end Sys2Proof.Machine
end

