-- ==== Sys2Proof/Machine/Dma.lean ====
section
/-!
DEFINITION. The DMA channels (07): descriptors, the checks and shapes of transfers, transfers within the scratchpad, the requests
of a fabric transfer and what its answers do, version tags, windows opened and closed.
-/

namespace Sys2Proof.Machine

/-! ### The descriptor (07 R159, R160) -/

/-- A descriptor's fields. -/
structure Desc where
  sk : Nat
  tk : Nat
  conv : Nat
  tr : Bool
  esize : Nat
  acc : Bool
  amode : Bool
  fp : Nat
  vmode : Nat
  rows : Nat
  rlen : Nat
  sh : Nat
  sgen : Nat
  sfid : BitVec 24
  saddr : Nat
  sstride : Nat
  th : Nat
  tgen : Nat
  tfid : BitVec 24
  wh : Nat
  whgen : Nat
  wgen : Nat
  taddr : Nat
  vh : Nat
  vgen : Nat
  tstride : Nat
  vstep : BitVec 48
  vsgen : BitVec 4

/-- An address of a location of kind `k`: 27 bits in the scratchpad and in a window, 48 in a stack interface. -/
def addrOf (k : Nat) (w : W64) : Nat := if k = 1 then fld w 0 48 else fld w 0 27

/-- The fields of eight descriptor words; reserved bits are ignored (00 R11). -/
def descOf (ws : List W64) : Desc :=
  let w (i : Nat) : W64 := ws.getD i 0
  let w0 := w 0
  { sk := fld w0 60 4, tk := fld w0 56 4, conv := fld w0 54 2, tr := bit w0 53, esize := fld w0 51 2, acc := bit w0 50,
    amode := bit w0 49, fp := fld w0 47 2, vmode := fld w0 45 2, rows := fld w0 29 16, rlen := fld w0 5 24,
    sh := fld (w 1) 55 9, sgen := fld (w 1) 51 4, sfid := BitVec.ofNat 24 (fld (w 1) 40 24),
    saddr := addrOf (fld w0 60 4) (w 2), sstride := fld (w 3) 0 40,
    th := fld (w 4) 55 9, tgen := fld (w 4) 51 4, tfid := BitVec.ofNat 24 (fld (w 4) 40 24),
    wh := fld (w 4) 31 9, whgen := fld (w 4) 27 4, wgen := fld (w 4) 23 4,
    taddr := addrOf (fld w0 56 4) (w 5), vh := fld (w 6) 55 9, vgen := fld (w 6) 51 4, tstride := fld (w 6) 0 40,
    vstep := BitVec.ofNat 48 (fld (w 7) 16 48), vsgen := BitVec.ofNat 4 (fld (w 7) 4 4) }

/-- The descriptor words at index `didx` of data memory (07 R157). -/
def descWords (s : State) (didx : Nat) : List W64 :=
  (List.range 8).map (fun i => BitVec.ofNat 64 (ofLE (dmemRead s (didx * 64 + 8 * i) 8)))

/-! ### Shapes (07 R163-R165) -/

/-- Bytes of an element for TR. -/
def Desc.esz (d : Desc) : Nat := 2 ^ d.esize

/-- Bytes of a source row. -/
def Desc.slen (d : Desc) : Nat := if d.conv = 1 then 128 * d.rlen else if d.conv = 2 then 66 * d.rlen else d.rlen

/-- Bytes of a target row. -/
def Desc.tlen (d : Desc) : Nat :=
  if d.tr then d.rows * d.esz else if d.conv = 1 then 66 * d.rlen else if d.conv = 2 then 128 * d.rlen else d.rlen

/-- Number of target rows. -/
def Desc.trows (d : Desc) : Nat := if d.tr then d.rlen / d.esz else d.rows

/-- The transfer moves nothing (07 R162). -/
def Desc.isEmpty (d : Desc) : Bool := d.rows = 0 || d.rlen = 0

/-- Starts of rows. -/
def rowStarts (base stride n : Nat) : List Nat := (List.range n).map (fun i => base + i * stride)

/-- Runs of rows, for the checks of 06 R141. -/
def rowRuns (base stride n len : Nat) : List (Int × Nat) := (rowStarts base stride n).map (fun (a : Nat) => ((a : Int), len))

/-- Bytes from the first byte of the first row to the last byte of the last. -/
def spanOf (stride n len : Nat) : Nat := if n = 0 then 0 else (n - 1) * stride + len

/-- Two sets of rows share a byte. -/
def rowsMeet (a sa na la b sb nb lb : Nat) : Bool :=
  a < b + spanOf sb nb lb && b < a + spanOf sa na la &&
    (rowStarts a sa na).any (fun x => (rowStarts b sb nb).any (fun y => x < y + lb && y < x + la))

/-! ### Checks (07 R161) -/

/-- Checks 1 to 4, after the word's reserved bits. DESIGN CHOICE (log 67): accumulating in a format that FORMATS disables is not refused,
since the descriptor carries no code for it. -/
def xferChecks (s : State) (w : W128) (d : Desc) : List (Bool × Nat) :=
  [(anyBit w (lowMask 81), fOpcode),
   (d.sk > 1 || d.tk > 2 || d.conv = 3 || d.esize = 3 || d.fp = 3 || (d.sk = 1 && d.tk ≠ 0) ||
      (d.tr && (d.tk ≠ 0 || d.conv ≠ 0)) || (d.acc && (d.tk ≠ 0 || d.conv = 1)) ||
      ((d.vmode = 1 || d.vmode = 2) && d.sk ≠ 1) || (d.vmode = 3 && d.tk ≠ 1), fOpcode),
   (d.fp = 1 && !s.features.fports, fFeature),
   ((d.acc && d.conv = 2 && d.amode) || (d.acc && d.tr && d.esize ≠ 2) || (d.conv ≠ 0 && !bit s.cfg.formats 11), fFormat),
   ((d.acc && (d.taddr % 4 ≠ 0 || d.tstride % 4 ≠ 0 || d.tlen % 4 ≠ 0)) ||
      (d.conv = 1 && (d.saddr % 4 ≠ 0 || d.sstride % 4 ≠ 0)) || (d.conv = 2 && (d.taddr % 4 ≠ 0 || d.tstride % 4 ≠ 0)),
    fMisaligned)]

/-- Check 5. A word with no row or no byte is a no-op, which names no byte and uses no tag (07 R162, 06 R143). -/
def xferExtent (s : State) (d : Desc) : Bool :=
  !d.isEmpty &&
  ((d.tr && d.rlen % d.esz ≠ 0) || (d.trows > 1 && d.tstride < d.tlen) ||
   (d.sk = 0 && d.tk = 0 &&
    rowsMeet (physOf (getH s d.sh) d.saddr) d.sstride d.rows d.slen (physOf (getH s d.th) d.taddr) d.tstride d.trows d.tlen) ||
   (d.sk = 1 && d.saddr + spanOf d.sstride d.rows d.slen > 2 ^ 48) ||
   (d.tk = 1 && d.taddr + spanOf d.tstride d.trows d.tlen > 2 ^ 48) ||
   ((d.vmode = 1 || d.vmode = 2) && d.saddr < 16) || (d.vmode = 3 && d.taddr < 16))

/-- The source handle's use. -/
def srcUse (d : Desc) : Use :=
  { idx := d.sh, gen := d.sgen, wr := false, acc := false,
    runs := if d.isEmpty then [] else rowRuns d.saddr d.sstride d.rows d.slen }

/-- The target handle's use. -/
def dstUse (d : Desc) : Use :=
  { idx := d.th, gen := d.tgen, wr := true, acc := d.acc,
    runs := if d.isEmpty then [] else rowRuns d.taddr d.tstride d.trows d.tlen }

/-- The tag handle's use: only its name is checked. -/
def tagUse (d : Desc) : Use := { idx := d.vh, gen := d.vgen, wr := false, acc := false, runs := [] }

/-- The handles that the word names: source, target, tag. -/
def xferUses (d : Desc) : List Use :=
  (if d.sk = 0 then [srcUse d] else []) ++ (if d.tk = 0 then [dstUse d] else []) ++
  (if d.vmode = 1 || d.vmode = 2 then [tagUse d] else [])

/-! ### Conversion and target images -/

/-- A list cut into pieces of `n` bytes; `k` bounds their number. -/
def cutBytes (n : Nat) : Nat → List Byte → List (List Byte)
  | 0, _ => []
  | k + 1, bs => if bs.isEmpty then [] else bs.take n :: cutBytes n k (bs.drop n)

/-- One block or element converted (07 R165): the target's bytes, and whether an encode met a NaN or infinity. -/
def convUnit (conv : Nat) (bs : List Byte) : List Byte × Bool :=
  if conv = 1 then bsEncode ((bytesW32 bs 32).map dec32)
  else if conv = 2 then (w32Bytes (bsDecode bs), false)
  else (bs, false)

/-- One source row converted. -/
def convRow (conv : Nat) (bs : List Byte) : List Byte × Bool :=
  if conv = 0 then (bs, false)
  else
    let us := (cutBytes (if conv = 1 then 128 else 66) (bs.length + 1) bs).map (convUnit conv)
    (us.flatMap Prod.fst, us.any Prod.snd)

/-- The target rows (offset and bytes) of source rows, and whether an encode met a NaN or infinity (07 R163-R165). -/
def targetRows (d : Desc) (rows : List (List Byte)) : List (Nat × List Byte) × Bool :=
  if d.tr then
    ((List.range d.trows).map (fun j => (d.taddr + j * d.tstride, rows.flatMap (fun r => bytesAt r (j * d.esz) d.esz))), false)
  else
    let cs := rows.map (convRow d.conv)
    ((rowStarts d.taddr d.tstride d.rows).zip (cs.map Prod.fst), cs.any Prod.snd)

/-- How the scratchpad target is written. -/
def Desc.mode (d : Desc) : Acc := if d.acc then .accum d.amode else .write

/-! ### Requests -/

/-- A run of bytes cut so that no piece crosses a 64-byte boundary (16 R356): (offset in the run, length); `k` bounds the
number of pieces. -/
def cutAligned : Nat → Nat → Nat → Nat → List (Nat × Nat)
  | 0, _, _, _ => []
  | k + 1, a, o, n =>
    if n = 0 then []
    else
      let p := min n (64 - (a + o) % 64)
      (o, p) :: cutAligned k a (o + p) (n - p)

/-- The pieces of a run of `n` bytes at interface address `a`. -/
def pieces64 (a n : Nat) : List (Nat × Nat) := cutAligned (n + 1) a 0 n

/-- Stack reads of a run whose first byte has place `pos` in the source. -/
def readReqs (a pos n : Nat) : List XReq := (pieces64 a n).map (fun p => .rd (a + p.1) (pos + p.1) p.2)

/-- Stack writes of a run. -/
def writeReqs (a : Nat) (bs : List Byte) : List XReq := (pieces64 a bs.length).map (fun p => .wr (a + p.1) (bytesAt bs p.1 p.2))

/-- Window writes of a target row: flits of 64 bytes from the row's start (16 R356). -/
def winReqs (o : Nat) (bs : List Byte) : List XReq :=
  let cs := cutBytes 64 (bs.length + 1) bs
  ((List.range cs.length).zip cs).map (fun e => .win (o + 64 * e.1) e.2)

/-- The data reads of a transfer from a stack. -/
def dataReads (d : Desc) : List XReq :=
  (List.range d.rows).flatMap (fun i => readReqs (d.saddr + i * d.sstride) (i * d.slen) d.slen)

/-- The tag header of a STAMP (07 R170, R171). -/
def stampBytes (d : Desc) : List Byte := toLE 6 d.vstep.toNat ++ [byteOf d.vsgen.toNat] ++ List.replicate 9 0

/-- The transfer with a phase begun: its requests, all of them unanswered. -/
def beginPhase (x : Xfer) (p : XPhase) (todo : List XReq) : Xfer := { x with phase := p, todo := todo, left := todo.length }

/-! ### Starting a transfer -/

/-- NONFINITE_BLOCK reported for a transfer (07 R165). -/
def nonfinite (s : State) (c : Ctx) (b : Bool) : State := if b then report s fNonfinite 3 (some c) else s

/-- A word of a DMA channel, on the channel's port (06 R127). -/
def dmaWho (c : Ctx) (id ch : Nat) : Who := engWho .dma c (12 + ch) id

/-- A transfer within the scratchpad, whole: the source is read, then the target is written in row order (log 3). DESIGN CHOICE (log 17):
where a read of the source fails, no byte of the target has been written (06 R146). -/
def spadToSpad (c : Ctx) (d : Desc) (o : Who) (s : State) : Got :=
  let r := readRows o (getH s d.sh) d.saddr d.sstride d.slen s (List.range d.rows)
  match r.2.2 with
  | some f => failed r.1 f
  | none =>
    let t := targetRows d r.2.1
    writeRuns o (getH s d.th) d.mode (nonfinite r.1 c t.2) t.1

/-- A transfer from the scratchpad to a stack or a window: the source is read and its requests stand ready. -/
def spadOut (c : Ctx) (d : Desc) (o : Who) (id : Nat) (x : Xfer) (s : State) : Got :=
  let r := readRows o (getH s d.sh) d.saddr d.sstride d.slen s (List.range d.rows)
  match r.2.2 with
  | some f => failed r.1 f
  | none =>
    let t := targetRows d r.2.1
    let todo := t.1.flatMap (fun e => if d.tk = 1 then writeReqs e.1 e.2 else winReqs e.1 e.2)
    sure (setJob (nonfinite r.1 c t.2) id (.xfer (beginPhase x .data todo)))

/-- A transfer from a stack: the tag header first for RECORD and CHECK (07 R172, R173). -/
def stackIn (d : Desc) (id : Nat) (x : Xfer) (s : State) : Got :=
  let y := if d.vmode = 1 || d.vmode = 2 then beginPhase x .header (readReqs (d.saddr - 16) 0 16)
           else beginPhase x .data (dataReads d)
  sure (setJob s id (.xfer y))

/-- The descriptor of a DXFER: copied from data memory when the word starts (07 R157). -/
def xferDesc (s : State) (c : Ctx) (w : W128) : List W64 :=
  match stalledWord s c .dma w with
  | some r => match r.job with
    | .stalled _ ws => ws
    | _ => descWords s (fld w 81 10)
  | none => descWords s (fld w 81 10)

/-- What a DXFER does when it starts. -/
def beginXfer (s : State) (c : Ctx) (w : W128) : Begin :=
  let ws := xferDesc s c w
  let d := descOf ws
  match firstFault (xferChecks s w d) with
  | some e => .refuse e
  | none =>
    let us := xferUses d
    match checkUses s us with
    | some e => .refuse e
    | none =>
      if xferExtent s d then .refuse fExtent
      else match heldPages s us with
        | p :: ps => .wait (p :: ps) (useIdx us) (useFoot s us) ws
        | [] =>
          let run (f : Who → Nat → State → Got) (s : State) : Got :=
            f (dmaWho c (newest s .dma c) (wCh w)) (newest s .dma c) s
          let x : Xfer := { ch := wCh w, desc := ws, src := getH s d.sh, dst := getH s d.th, phase := .data, todo := [],
                            left := 0, epoch := s.epoch, hdr := [], buf := [], got := [], nonfin := false }
          if d.isEmpty then .start (useIdx us) .done sure
          else if d.sk = 1 then .start (useIdx us) (.xfer x) (run (fun _ id => stackIn d id x)) (useFoot s us)
          else if d.tk = 0 then .start (useIdx us) .done (run (fun o _ => spadToSpad c d o)) (useFoot s us)
          else .start (useIdx us) (.xfer x) (run (fun o id => spadOut c d o id x)) (useFoot s us)

/-- What a DXFER accumulates into must wait: an earlier transfer of its queue has still to accumulate into the same elements as its data arrives,
and the words of one producer accumulate in queue order (01 R29, R30; 06 R129; log 95). -/
def sumsBehind (s : State) (c : Ctx) (w : W128) : Bool :=
  let sums := (useFoot s (xferUses (descOf (descWords s (fld w 81 10))))).filter (fun f => f.acc)
  s.running.any (fun r => r.eng = .dma && r.ctx = c && (match r.job with | .xfer _ | .stalled _ _ => true | _ => false) &&
    r.foot.any (fun a => a.acc && sums.any (fun b => a.meets b)))

/-- DXFER (07 R161). A stalled one does not go on in a step in which a window flit has taken its channel's port (07 R177). -/
def execDxfer (c : Ctx) (w : W128) (s : State) : Out :=
  if (if (stalledWord s c .dma w).isSome then flitOn s (wCh w) else sumsBehind s c w) then .next s
  else engineWord s c .dma w 1 (fun s => beginXfer s c w)

/-- The handle that DWOPEN and DWCLOSE name (07 R158). -/
def winUse (w : W128) : Use := { idx := fld w 84 9, gen := fld w 80 4, wr := false, acc := false, runs := [] }

/-- A window word: it takes effect at its start and holds no handle in use (07 R175). -/
def windowWord (s : State) (c : Ctx) (w : W128) (op : Nat) (bad : Handle → Bool) (f : State → Nat → State) : Out :=
  engineWord s c .dma w op (fun s =>
    let u := winUse w
    if anyBit w (lowMask 80) then .refuse fOpcode
    else match checkUses s [u] with
      | some e => .refuse e
      | none =>
        if !(getH s u.idx).win || bad (getH s u.idx) then .refuse fWindow
        else .start [] .done (fun s => sure (f s u.idx)))

/-- DWOPEN. -/
def execDwopen (c : Ctx) (w : W128) (s : State) : Out :=
  windowWord s c w 2 (fun h => h.wopen) (fun s h => setH s h { getH s h with wopen := true })

/-- DWCLOSE: WGEN advances, and the window's incoming transfers are discarded (07 R175, 12 R272). -/
def execDwclose (c : Ctx) (w : W128) (s : State) : Out :=
  windowWord s c w 3 (fun h => !h.wopen) (fun s h =>
    let s := setH s h { getH s h with wopen := false, wgen := (getH s h).wgen + 1 }
    { s with rxTab := s.rxTab.filter (fun e => e.whidx ≠ h) })

/-- DNOP. -/
def execDnop (c : Ctx) (w : W128) (s : State) : Out := nopWord s c .dma w [0, 1, 2, 3]

/-! ### Answers (07 R168-R173) -/

/-- A transfer ends without completing (07 R169, R392): its unanswered requests are abandoned. -/
def endXfer (s : State) (r : Running) (code : Nat) : State :=
  failWord (abandon s (.word r.id)) r.ctx .dma r.id code

/-- Bytes of the unit in which a transfer's arriving bytes are written. -/
def Desc.unit (d : Desc) : Nat := if d.conv = 1 then 128 else if d.conv = 2 then 66 else if d.acc then 4 else 1

/-- Every place from `a` for `n` bytes lies in some piece. -/
def arrived (ps : List (Nat × Nat)) (a n : Nat) : Bool :=
  (List.range n).all (fun i => ps.any (fun p => p.1 ≤ a + i && a + i < p.1 + p.2))

/-- The units that a piece touches. -/
def unitsOf (u pos n : Nat) : List Nat := if n = 0 then [] else (List.range ((pos + n - 1) / u - pos / u + 1)).map (fun i => pos / u + i)

/-- Where source bytes at place `pos` go, with their bytes (07 R163-R165). DESIGN CHOICE (log 97): a transposed transfer that does not
accumulate writes each byte by an access of its own. -/
def landRuns (d : Desc) (pos : Nat) (bs : List Byte) : List (Nat × List Byte) :=
  let i := pos / d.slen
  let col := pos % d.slen
  if d.tr then
    if d.acc then [(d.taddr + col / d.esz * d.tstride + i * d.esz, bs)]
    else ((List.range bs.length).zip bs).map (fun e =>
      (d.taddr + (col + e.1) / d.esz * d.tstride + i * d.esz + (col + e.1) % d.esz, [e.2]))
  else if d.conv = 1 then [(d.taddr + i * d.tstride + col / 128 * 66, (convUnit 1 bs).1)]
  else if d.conv = 2 then [(d.taddr + i * d.tstride + col / 66 * 128, (convUnit 2 bs).1)]
  else [(d.taddr + i * d.tstride + col, bs)]

/-- The runs that an arriving piece lets be written, and the transfer after it. -/
def landPiece (d : Desc) (x : Xfer) (pos : Nat) (bs : List Byte) : List (Nat × List Byte) × Bool × Xfer :=
  if d.unit = 1 then (landRuns d pos bs, false, x)
  else
    let buf := sputs 0 x.buf pos bs
    let got := x.got ++ [(pos, bs.length)]
    let u := d.unit
    let full := (unitsOf u pos bs.length).filter (fun k => arrived got (k * u) u)
    (full.flatMap (fun k => landRuns d (k * u) (sgets 0 buf (k * u) u)),
     d.conv = 1 && full.any (fun k => (convUnit 1 (sgets 0 buf (k * u) u)).2),
     { x with buf := buf, got := got })

/-- The tag in a header (07 R170). -/
def hdrTag (h : Sparse Byte) : BitVec 48 × BitVec 4 :=
  (BitVec.ofNat 48 (ofLE (sgets 0 h 0 6)), BitVec.ofNat 4 (sget 0 h 6).toNat)

/-- The tag handle's recorded tag equals the header's (07 R173). -/
def tagMatches (h : Handle) (t : BitVec 48 × BitVec 4) : Bool := h.vvalid && h.vstep = t.1 && h.vsgen = t.2

/-- The transfer's data is written: RECORD writes the tag handle's word 1 (07 R172). -/
def recordTag (s : State) (d : Desc) (x : Xfer) : State :=
  if d.vmode = 1 then
    let t := hdrTag x.hdr
    setH s d.vh { getH s d.vh with vstep := t.1, vsgen := t.2, vvalid := true }
  else s

/-- A phase of a transfer whose requests are all answered ends (07 R168, R171-R173). -/
def phaseDone (s : State) (r : Running) (d : Desc) (x : Xfer) : State :=
  match x.phase with
  | .header =>
    if d.vmode = 2 && !tagMatches (getH s d.vh) (hdrTag x.hdr) then endXfer s r fGather
    else setJob s r.id (.xfer (beginPhase x .data (dataReads d)))
  | .data =>
    if d.vmode = 3 then setJob s r.id (.xfer (beginPhase x .stamp (writeReqs (d.taddr - 16) (stampBytes d))))
    else setJob (recordTag s d x) r.id .done
  | .stamp => setJob s r.id .done

/-- One request of a transfer answered. -/
def answered (s : State) (r : Running) (d : Desc) (x : Xfer) : State :=
  let y := { x with left := x.left - 1 }
  if y.left = 0 then phaseDone s r d y else setJob s r.id (.xfer y)

/-- The places that runs of a buffer name. -/
def runsFeet (h : Handle) (acc : Bool) (rs : List (Nat × List Byte)) : List Foot :=
  rs.map (fun e => { place := .spad, wr := true, acc := acc, lo := physOf h e.1, len := e.2.length })

/-- Runs that arriving data lets a transfer write: stream-port accesses are progress (09 R223). -/
def landAt (s : State) (r : Running) (x : Xfer) (d : Desc) (l : List (Nat × List Byte)) : Got :=
  if l.isEmpty then sure s
  else
    let g := writeRuns (dmaWho r.ctx r.id x.ch) x.dst d.mode (progress s) l
    match g.fail with
    | some _ => g
    | none => sure (wrote g.s r.id (runsFeet x.dst d.acc l))

/-- A stack read's data arrives for a transfer. -/
def xferData (s : State) (r : Running) (x : Xfer) (pos : Nat) (bs : List Byte) : State :=
  let d := descOf x.desc
  match x.phase with
  | .header => answered s r d { x with hdr := sputs 0 x.hdr pos bs }
  | _ =>
    let l := landPiece d x pos bs
    let s := nonfinite s r.ctx (l.2.1 && !x.nonfin)
    let g := landAt s r x d l.1
    match g.fail with
    | some f => endXfer g.s r f
    | none => answered g.s r d { l.2.2 with nonfin := x.nonfin || l.2.1 }

/-- A stack read's data would be written: not in a step in which a window flit has taken the channel's port (07 R177). -/
def landsNow (s : State) (x : Xfer) (pos : Nat) (bs : List Byte) : Bool :=
  !flitOn s x.ch ||
    (match x.phase with
     | .header => true
     | _ => (landPiece (descOf x.desc) x pos bs).1.isEmpty)

/-- A write of a transfer is acknowledged. -/
def xferAck (s : State) (r : Running) (x : Xfer) : State := answered s r (descOf x.desc) x

/-- The transfer that a channel runs (07 R154). -/
def xferOn (s : State) (ch : Nat) : Option (Running × Xfer) :=
  s.running.findSome? (fun r => match r.job with | .xfer x => if x.ch = ch then some (r, x) else none | _ => none)

/-- The transfer of a running word. -/
def xferOf (s : State) (id : Nat) : Option (Running × Xfer) :=
  match findRun s id with
  | some r => match r.job with
    | .xfer x => some (r, x)
    | _ => none
  | none => none

/-- The fabric port of a channel's request (07 R167). -/
def portOf (s : State) (fp ch : Nat) : Port :=
  if !s.features.fports then .fa
  else if fp = 0 then .fa
  else if fp = 1 then .fb
  else if ch % 2 = 0 then .fa else .fb

end Sys2Proof.Machine
end

