-- ==== Sys2Proof/Machine/Window.lean ====
section
/-!
DEFINITION. Fabric flits as they stand on a port (16 R353-R356), arriving window writes and the incoming-transfer table (07 R176,
R177; 12 R270-R272), and host writes through the scratchpad page window (06 R151).
-/

namespace Sys2Proof.Machine

/-! ### Flit headers (16 R355) -/

/-- KIND. -/
def hKind (h : BitVec 128) : Nat := fld h 124 4
/-- Channel of TAG. -/
def hCh (h : BitVec 128) : Nat := fld h 122 2
/-- Request index of TAG. -/
def hIx (h : BitVec 128) : Nat := fld h 113 9
/-- LEN. -/
def hLen (h : BitVec 128) : Nat := fld h 106 7
/-- STATUS of a response. -/
def hStatus (h : BitVec 128) : Nat := fld h 56 2
/-- OKIND of a NACK. -/
def hOkind (h : BitVec 128) : Nat := fld h 102 4

def kRd : Nat := 1
def kRdRsp : Nat := 2
def kWr : Nat := 3
def kWrAck : Nat := 4
def kWin : Nat := 5
def kWinAck : Nat := 6
def kNack : Nat := 7

/-- The common part of a header. -/
def hdrOf (kind ch idx len : Nat) (rest : Nat) : BitVec 128 :=
  BitVec.ofNat 128 (kind * 2 ^ 124 + ch * 2 ^ 122 + idx * 2 ^ 113 + len * 2 ^ 106 + rest)

/-- A route word: DFID and SFID (16 R353). -/
def routeOf (dst src : BitVec 24) : BitVec 48 := BitVec.ofNat 48 (dst.toNat * 2 ^ 24 + src.toNat)

/-- SFID of a route word. -/
def sfidOf (r : BitVec 48) : BitVec 24 := BitVec.ofNat 24 (fld r 0 24)

/-- The first `n` payload bytes (16 R353). -/
def payload (d : BitVec 512) (n : Nat) : List Byte := toLE n d.toNat

/-- The link of a port is down (14 R324). -/
def linkDownP (s : State) : Port → Bool
  | .fa => s.linkA
  | .fb => s.linkB

/-- The port exists (16 R350). -/
def portExists (s : State) : Port → Bool
  | .fa => true
  | .fb => s.features.fports

/-- The number of the reporter of a port's receive checks (14 R305). -/
def portRep : Port → Nat
  | .fa => 10
  | .fb => 11

/-- A flit may arrive on a port: the core takes flits, the port is there with its link up, and it has taken none in this step (01
R16; 16 R353). -/
def rxOpen (s : State) (p : Port) : Bool :=
  live s && s.core ≠ .init && portExists s p && !linkDownP s p &&
    (match p with | .fa => !s.rxA | .fb => !s.rxB)

/-- A flit taken on a port (17 R387). -/
def countRx (s : State) (p : Port) : State :=
  match p with
  | .fa => count { s with rxA := true } 15 1
  | .fb => count { s with rxB := true } 17 1

/-- A port may send a flit in this step: its link is up and no flit has left on it in the step (01 R16, 14 R324). -/
def txOpen (s : State) (p : Port) : Bool :=
  live s && s.core ≠ .init && portExists s p && !linkDownP s p &&
    (match p with | .fa => !s.txA | .fb => !s.txB)

/-- A flit leaves on a port. -/
def sendFlit (s : State) (p : Port) (f : TxFlit) : State :=
  match p with
  | .fa => count { s with faTx := s.faTx ++ [f], txA := true } 14 1
  | .fb => count { s with fbTx := s.fbTx ++ [f], txB := true } 16 1

/-! ### Arriving window writes -/

/-- The fields of a window-write flit. -/
structure WinWr where
  sfid  : BitVec 24
  ch    : Nat
  idx   : Nat
  len   : Nat
  wh    : Nat
  whgen : Nat
  wgen  : Nat
  epoch : Nat
  off   : Nat
  cnt   : Nat
  last  : Nat
  data  : List Byte

/-- Decodes them. -/
def winWrOf (f : Flit) : WinWr :=
  let h := f.hdr
  { sfid := sfidOf f.route, ch := hCh h, idx := hIx h, len := hLen h, wh := fld h 97 9, whgen := fld h 93 4,
    wgen := fld h 89 4, epoch := fld h 85 4, off := fld h 58 27, cnt := fld h 31 27, last := fld h 4 27,
    data := payload f.data (hLen h) }

/-- Outcomes of the checks of 07 R176 and 12 R271. -/
inductive WinCheck where
  | late | stale | early | closed | protect | extent | ok
  deriving DecidableEq, Repr

/-- The checks in their order: the epoch after check 1 (12 R271). -/
def winCheck (s : State) (w : WinWr) : WinCheck :=
  let h := getH s w.wh
  if !h.valid || h.gen.toNat ≠ w.whgen || h.wgen.toNat ≠ w.wgen then .late
  else if w.epoch ≠ s.epoch.toNat then (if w.epoch = (s.epoch + 1).toNat then .early else .stale)
  else if !h.wopen then .closed
  else if !h.win || h.wp then .protect
  else if w.last ≥ extentOf h || w.off + w.len > extentOf h then .extent
  else .ok

/-- The acknowledgement of a window write (16 R355): 0 OK, 1 DROPPED, 2 REFUSED. -/
def winAckFlit (s : State) (w : WinWr) (status : Nat) : TxFlit :=
  { route := routeOf w.sfid s.cfg.fid,
    hdr := hdrOf kWinAck w.ch w.idx 0 (w.wh * 2 ^ 97 + w.off * 2 ^ 58 + status * 2 ^ 56), data := [] }

/-- An acknowledgement put on the way to the port its flit came in on. -/
def pushAck (s : State) (p : Port) (w : WinWr) (status : Nat) : State :=
  { s with winAcks := s.winAcks ++ [{ port := p, flit := winAckFlit s w status }] }

/-- The entry of the incoming-transfer table that a flit belongs to (12 R272). -/
def rxMatches (w : WinWr) (e : RxEntry) : Bool := e.sfid = w.sfid && e.ch = w.ch && e.whidx = w.wh

/-- A written flit's bytes counted: its entry opens, grows, and closes at COUNT (12 R272). -/
def countEntry (s : State) (w : WinWr) : State :=
  let old := s.rxTab.find? (rxMatches w)
  let e : RxEntry := match old with
    | some e => { e with cnt := e.cnt + w.len }
    | none => { sfid := w.sfid, ch := w.ch, whidx := w.wh, cnt := w.len, total := w.cnt }
  let rest := s.rxTab.filter (fun x => !rxMatches w x)
  { s with rxTab := if e.cnt ≥ e.total then rest else rest ++ [e] }

/-- The pages that a window write touches. -/
def winPages (s : State) (w : WinWr) : List Nat := runPages (getH s w.wh) ((w.off : Int), w.len)

/-- The fault that reports an access of no word: an uncorrectable scratchpad word the memory tier, a page state the given reporter
(14 R305). -/
def ownerless (s : State) (code rep : Nat) : State := report s code (if code = fSpadUe then 8 else rep) none

/-- Scratchpad bytes written from outside the engines (01 R26): they may meet those of a running word. -/
def outerFoot (a n : Nat) : List Foot := [{ place := .spad, wr := true, acc := false, lo := a, len := n }]

/-- A flit written in a step is counted and acknowledged at the step's boundary (07 R176; 12 R272): one whose write an access of the step has
failed is refused, and one whose window has closed since is counted in no entry (07 R175, R177). -/
def landFlit (s : State) (d : WinDone) : State :=
  let w := winWrOf d.flit
  if d.bad then pushAck s d.port w 2
  else pushAck (if (getH s w.wh).wgen.toNat = w.wgen then countEntry s w else s) d.port w 0

/-- The flits written in a step counted and acknowledged, in their order. -/
def landFlits (s : State) : State := s.winDone.foldl landFlit { s with winDone := [] }

/-- A flit that passes every check is written; a full table, or a failed port write, refuses it (07 R176, 12 R272). -/
def winStore (s : State) (p : Port) (f : Flit) : State :=
  let w := winWrOf f
  let tab := (landFlits s).rxTab
  if (tab.find? (rxMatches w)).isNone && tab.length ≥ 64 then
    pushAck (report s fRxLimit (portRep p) none) p w 2
  else
    let a := physOf (getH s w.wh) w.off
    let g := runWrite (flitWho p w.ch (portRep p)) .write (w.len + 1) s a w.data
    match g.fail with
    | some code => pushAck (ownerless g.s code (portRep p)) p w 2
    | none => progress { breach g.s none none (outerFoot a w.len) (outerFoot a w.len) with
        winDone := g.s.winDone ++ [{ port := p, flit := f, sp := flitPort p w.ch, lo := a, len := w.len, bad := false }] }

/-- A window-write flit judged and acted on (07 R176); a write to a protected page is held (13 R288). -/
def winTake (s : State) (p : Port) (f : Flit) : State :=
  let w := winWrOf f
  match winCheck s w with
  | .late => pushAck (report (count s 10 1) fLate (portRep p) none) p w 1
  | .stale => pushAck (report s fStaleEpoch (portRep p) none) p w 1
  | .early => pushAck (report s fEarlyEpoch (portRep p) none) p w 1
  | .closed => pushAck (report s fEarly (portRep p) none) p w 1
  | .protect => pushAck (report s fProtect (portRep p) none) p w 2
  | .extent => pushAck (report s fExtent (portRep p) none) p w 2
  | .ok =>
    let ps := (winPages s w).filter (protPage s)
    if ps.isEmpty then winStore s p f
    else urge { s with held := s.held ++ [.flit p f] } ps

/-- The flit's stream port is free in the step under way: its channel has made no access on it (07 R177). -/
def flitFits (s : State) (p : Port) (hdr : BitVec 128) : Bool := !channelOn s (flitPort p (hCh hdr) - 12)

/-- WIN_WR_RECEIVE: LEN counts at most 64 payload bytes (16 R355). -/
def execWinWrReceive (p : Port) (route : BitVec 48) (hdr : BitVec 128) (data : BitVec 512) (s : State) : Out :=
  guarded (rxOpen s p && hKind hdr = kWin && hLen hdr ≤ 64 && flitFits s p hdr) s
    (winTake (countRx s p) p { route := route, hdr := hdr, data := data })

/-- WIN_ACK_SEND: the oldest acknowledgement of a port leaves (16 R356). -/
def execWinAckSend (p : Port) (s : State) : Out :=
  match s.winAcks.find? (fun a => a.port = p) with
  | some a => guarded (txOpen s p) s (sendFlit { s with winAcks := s.winAcks.erase a } p a.flit)
  | none => .next s

/-! ### Host writes through the scratchpad page window (06 R151) -/

/-- One 64-bit word's part of a host write: the word is checked and corrected as a port access checks it, and one with an uncorrectable
error is not written. -/
def hostWord (a : Nat) (bs : List Byte) (s : State) (w : Nat) : State :=
  let lo := max a (8 * w)
  let hi := min (a + bs.length) (8 * w + 8)
  let put (s : State) : State := storeLine (cleanWords s [w]) hostWho .write lo ((bs.drop (lo - a)).take (hi - lo))
  match eccOf s w with
  | .good => put s
  | .single => put (corrected none s w)
  | .double => report s fSpadUe 8 none

/-- What a host access leaves of the step's records: with no step under way there is none, and the step that follows meets a store like any
other (01 R17). -/
def betweenSteps (s t : State) : State :=
  if s.stepSpad.isEmpty && s.stepPages.isEmpty then { t with stepSpad := [], stepPages := [] } else t

/-- Bytes of one frame written to a page by producer 0xE, judged as one write against the page's state. -/
def hostPage (s : State) (page off : Nat) (bs : List Byte) : State :=
  match admitAccess s hostWho .write page with
  | .error e => report s e 12 none
  | .ok t =>
    let a := page * 65536 + off
    let u := (wordsOf a bs.length).foldl (hostWord a bs) (takeOwners t hostWho .write a bs.length)
    breach (betweenSteps s u) none none (outerFoot a bs.length) (outerFoot a bs.length)

/-- A host write through the window: beyond the core's pages it is refused. -/
def hostSpad (s : State) (off : Nat) (bs : List Byte) : State :=
  let page := s.spadWin.toNat
  if bs.isEmpty then s
  else if page ≥ pageCount s then report s fExtent 12 none
  else hostPage s page off bs

/-- A host access of `n` bytes from offset `a` writes through the scratchpad page window to a page that a snapshot protects: it is held
until the protection lifts (13 R288). -/
def windowHeld (s : State) (a n : Nat) : Bool :=
  n ≠ 0 && a < 0x20000 && 0x10000 < a + n && s.spadWin.toNat < pageCount s && protPage s s.spadWin.toNat

/-- A host write of bytes at an offset, which does `t`: it acts at once where it can; held by page protection it waits, and its page moves
to the head of the copy order (13 R288). -/
def hostedAt (s : State) (b : Bool) (a : Nat) (bs : List Byte) (t : State) : Out :=
  if windowHeld s a bs.length then guarded (hostOk s && b) s (urge (later s (.write a bs)) [s.spadWin.toNat])
  else hosted s b (.write a bs) t

/-- SPAD_WINDOW_WRITE: the bytes of one frame within the window. -/
def execSpadWindowWrite (off : Nat) (bs : List Byte) (s : State) : Out :=
  hostedAt s (off + bs.length ≤ 65536) (0x10000 + off) bs (hostSpad s off bs)

/-- A held flit whose pages are no longer protected. -/
def unheld (s : State) : Held → Bool
  | .flit _ f => ((winPages s (winWrOf f)).filter (protPage s)).isEmpty

/-- A held flit takes effect: it is checked again (13 R288). -/
def applyHeld (s : State) : Held → State
  | .flit p f => winTake s p f

/-- Held writes whose protection has lifted take effect in their order. -/
def releaseHeld (s : State) : State :=
  let hs := s.held
  hs.foldl (fun s h => if unheld s h then applyHeld s h else { s with held := s.held ++ [h] }) { s with held := [] }

end Sys2Proof.Machine
end

