-- ==== Sys2Proof/Machine/Starter.lean ====
section
/-!
DEFINITION. The Starter engine (13): plans, snapshots and their copies, P records, the step digest, restore and replay.
-/

namespace Sys2Proof.Machine

/-- The reporter of the Starter engine (14 R305). -/
def stRep : Nat := 5

/-- The Starter engine's state changed. -/
def modSt (s : State) (f : Starter → Starter) : State := { s with st := f s.st }

/-- The copy's state changed. -/
def modSnap (s : State) (f : Snap → Snap) : State := modSt s (fun t => { t with cur := f t.cur })

/-! ### Slots and the P area (13 R280, R291) -/

/-- 2 MiB. -/
def mib2 : Nat := 2097152

/-- A slot: interface, base address and capacity in units of 2 MiB (13 R280). -/
def slotPlace (s : State) (k : Bool) : Option (BitVec 24 × Nat × Nat) :=
  match s.cfg.partner with
  | [] => none
  | [p] => some (p.sfid, p.rbase + b2n k * ((p.rlen - 1) / 2) * mib2, (p.rlen - 1) / 2)
  | ps => (ps.find? (fun p => p.pidx = b2n k)).map (fun p => (p.sfid, p.rbase, p.rlen - 1))

/-- The P areas: interface and base address (13 R280). -/
def pAreas (s : State) : List (BitVec 24 × Nat) := s.cfg.partner.map (fun p => (p.sfid, p.rbase + (p.rlen - 1) * mib2))

/-- The place of scratchpad page image k in a slot. -/
def spadImg (k : Nat) : Nat := 0x200000 + k * 65536

/-- The place of stack page image k in a slot. -/
def stkImg (nspad k : Nat) : Nat := (1 + (nspad + 31) / 32 + k) * mib2

/-! ### Requests -/

/-- What a request of the Starter engine is for: its `aux` modulo 8. -/
def purpose (aux : Nat) : Nat := aux % 8

def forCopy : Nat := 0
def forRecord : Nat := 1
def forSeal : Nat := 2
def forPage : Nat := 3
def forSlot : Nat := 4
def forLoad : Nat := 5

/-- Writes of bytes at an address of an interface. -/
def stWrites (why : Nat) (fid : BitVec 24) (a : Nat) (bs : List Byte) : List StReq :=
  (pieces64 a bs.length).map (fun p =>
    { sfid := fid, wr := true, addr := a + p.1, len := p.2, data := bytesAt bs p.1 p.2, aux := why })

/-- Reads of a run of bytes whose first byte has place `pos`. -/
def stReads (why : Nat) (fid : BitVec 24) (a pos n : Nat) : List StReq :=
  (pieces64 a n).map (fun p =>
    { sfid := fid, wr := false, addr := a + p.1, len := p.2, data := [], aux := why + 8 * (pos + p.1) })

/-- Requests put behind those that wait. -/
def pushReqs (s : State) (rs : List StReq) : State := modSt s (fun t => { t with todo := t.todo ++ rs })

/-- A request of one purpose waits or is unanswered. -/
def stBusy (s : State) (why : Nat) : Bool :=
  s.st.todo.any (fun r => purpose r.aux = why) || s.outst.any (fun r => r.owner = .starter && purpose r.aux = why)

/-- Requests of some purposes end: those unsent are dropped, those unanswered abandoned (07 R392). -/
def stAbandon (s : State) (whys : List Nat) : State :=
  let mine (r : Outst) : Bool := r.owner = .starter && whys.contains (purpose r.aux)
  modSt { s with outst := s.outst.filter (fun r => !mine r),
                 retired := s.retired ++ ((s.outst.filter mine).map (fun r => (r.ch, r.idx, r.kind))) }
    (fun t => { t with todo := t.todo.filter (fun r => !whys.contains (purpose r.aux)) })

/-! ### The plan (13 R282) -/

/-- The class of a plan entry enabled in a class mask (17 ST_CLASSMASK). -/
def classOn (mask : BitVec 5) (cls : Nat) : Bool := bit mask (cls + 1)

/-- A plan entry is well formed on its own. -/
def entryOk (hs : Sparse Handle) (w0 w1 : W64) : Bool :=
  fld w0 62 2 ≤ 1 && fld w0 60 2 ≤ 2 && fld w0 48 12 ≠ 0 && fld w0 9 4 = 0 && fld w1 48 16 = 0 &&
    (if fld w0 62 2 = 0 then
       let h := sget Handle.zero hs (fld w0 0 9)
       h.valid && fld w0 13 11 + fld w0 48 12 ≤ h.npages.toNat
     else fld w1 0 48 % mib2 = 0)

/-- The pages that an entry names, without their places in the copy. -/
def entryPages (hs : Sparse Handle) (w0 w1 : W64) : List CopyPage :=
  let stack := fld w0 62 2 = 1
  let h := sget Handle.zero hs (fld w0 0 9)
  (List.range (fld w0 48 12)).map (fun i =>
    { stack := stack, sfid := BitVec.ofNat 24 (fld w0 24 24),
      addr := if stack then fld w1 0 48 + i * mib2 else h.base.toNat + fld w0 13 11 + i,
      idx := 0, cls := fld w0 60 2, reading := false })

/-- The entries of a plan, two words each. -/
def planEntries : List W64 → List (W64 × W64)
  | a :: b :: t => (a, b) :: planEntries t
  | _ => []

/-- Two planned pages are one page. -/
def samePage (p q : CopyPage) : Bool := p.stack = q.stack && p.addr = q.addr && (!p.stack || p.sfid = q.sfid)

/-- No page twice. -/
def distinctPages : List CopyPage → Bool
  | [] => true
  | p :: ps => !ps.any (samePage p) && distinctPages ps

/-- Pages numbered in plan order, scratchpad pages and stack pages apart (13 R291). -/
def numberPages (a b : Nat) : List CopyPage → List CopyPage
  | [] => []
  | p :: ps => if p.stack then { p with idx := b } :: numberPages a (b + 1) ps else { p with idx := a } :: numberPages (a + 1) b ps

/-- The words of a plan at a data-memory address. -/
def planWords (s : State) (a : Nat) : List W64 :=
  let w (i : Nat) : W64 := BitVec.ofNat 64 (ofLE (sgets 0 s.dmem (a + 8 * i) 8))
  w 0 :: (List.range (2 * fld (w 0) 0 16)).map (fun i => w (i + 1))

/-- P_LEN and P_BASE of a plan. -/
def planPLen (ws : List W64) : Nat := fld (ws.getD 0 0) 32 16
def planPBase (ws : List W64) : Nat := fld (ws.getD 0 0) 16 16

/-- The header of a plan is in order. -/
def planHeadOk (a : Nat) (ws : List W64) : Bool :=
  let h := ws.getD 0 0
  a % 8 = 0 && fld h 48 16 = 0 && planPLen ws ≤ 4096 && planPLen ws % 8 = 0 && planPBase ws % 8 = 0 && fld h 0 16 ≤ 256 &&
    planPBase ws + planPLen ws ≤ 65536 && a + 8 * (1 + 2 * fld h 0 16) ≤ 65536

/-- Every page that a plan names. -/
def planAll (hs : Sparse Handle) (ws : List W64) : List CopyPage :=
  (planEntries ws.tail).flatMap (fun e => entryPages hs e.1 e.2)

/-- A plan is valid (13 R282). -/
def planOk (hs : Sparse Handle) (a : Nat) (ws : List W64) : Bool :=
  planHeadOk a ws && (planEntries ws.tail).all (fun e => entryOk hs e.1 e.2) && distinctPages (planAll hs ws) &&
    ((planAll hs ws).filter (fun p => p.stack)).length ≤ 4096

/-- The planned pages of the enabled classes, numbered (13 R278). -/
def planPages (hs : Sparse Handle) (mask : BitVec 5) (ws : List W64) : List CopyPage :=
  numberPages 0 0 ((planAll hs ws).filter (fun p => classOn mask p.cls))

/-- Numbers of scratchpad and stack pages. -/
def spadCount (ps : List CopyPage) : Nat := (ps.filter (fun p => !p.stack)).length
def stackCount (ps : List CopyPage) : Nat := (ps.filter (fun p => p.stack)).length

/-- The data-memory address of the plan in force: C0's where C0 is in the fence (13 R283). -/
def planAddr (s : State) : Nat :=
  let a (x : Context) : Option Nat := match x.wait with | .snapf _ p => some p.toNat | _ => none
  match (if inSnapf s.c0 then a s.c0 else none) with
  | some v => v
  | none => (a s.c1).getD 0

/-! ### The capture image and the P record (13 R287, R293) -/

/-- RUNSTATE's code (15 R346). -/
def runCode : RunSt → Nat
  | .running => 0 | .waiting => 1 | .halted => 2 | .held => 3

/-- RUNSTATE as captured: WAITING in SNAPF is stored as RUNNING. -/
def capRun (x : Context) : Nat := if inSnapf x then 0 else runCode x.run

/-- A context record. -/
def ctxImage (x : Context) : List Byte :=
  toLE 4 x.pc.toNat ++ toLE 4 (capRun x) ++ toLE 4 x.cr.toNat ++ toLE 4 x.vstatus.toNat ++
  (List.range 32).flatMap (fun i => toLE 4 (rdS x i).toNat) ++ (List.range 8).flatMap (fun i => toLE 16 (rdE x i).toNat) ++
  (List.range 16).flatMap (fun i => toLE 16 (sget 0 x.mslots i).toNat) ++
  (List.range 8).flatMap (fun i => toLE 16 (sget 0 x.rslots i).toNat)

/-- A queue: its count, then its words. -/
def queueImage (q : List QWord) : List Byte := toLE 16 q.length ++ q.flatMap (fun w => toLE 16 w.word.toNat)

/-- A byte of the page-state table as read (06 R149, R150). -/
def pageByte (s : State) (p : Nat) : Byte :=
  if s.checked then byteOf ((getPage s p).st.toNat + (getPage s p).prod.toNat * 4) else 3

/-- A handle entry, both words. -/
def handleImage (h : Handle) : List Byte := toLE 8 (handleWord0 h) ++ toLE 8 (handleWord1 h)

/-- TAG of a stream (10 R228); zero where there is none. -/
def streamTag (st : Stream) : W32 :=
  if st.len < 16 then 0 else BitVec.ofNat 32 (ofLE (sgets 0 st.bytes (st.len - 8) 4))

/-- BAKE_TAG (10, "Set registers"). -/
def bakeTag (s : State) : W32 := if s.bakeOn then streamTag s.bake else 0

/-- The step block's part of the image and of a P record (13 R287, R293). -/
def stepImage (s : State) : List Byte :=
  toLE 8 s.sb.num.toNat ++ toLE 8 (ctlWord s.sb) ++ (sgets 0 s.sb.bufA 0 16).flatMap (fun w => toLE 4 w.toNat) ++
  (sgets 0 s.sb.bufB 0 16).flatMap (fun w => toLE 4 w.toNat) ++ toLE 8 (s.sb.pend.getD 0).toNat

/-- The header of the image. -/
def headImage (s : State) : List Byte :=
  [0x48, 0x54, 0x37, 0x48] ++ toLE 4 1 ++ toLE 8 s.sb.num.toNat ++ toLE 4 s.cfg.fid.toNat ++ toLE 4 s.fw.crc.toNat ++
  toLE 8 s.fw.tag.toNat ++ toLE 4 (bakeTag s).toNat ++ [byteOf s.epoch.toNat, byteOf s.ilPtr, byteOf s.st.cmask.toNat]

/-- The parts of the capture image: offset and bytes. -/
def imageParts (s : State) (plan : List W64) : List (Nat × List Byte) :=
  [(0, headImage s), (0x40, ctxImage s.c0), (0x440, ctxImage s.c1)] ++
  (List.range 12).map (fun i =>
    (0x1000 + 1040 * i, queueImage (sget [] (if i < 6 then s.c0 else s.c1).queue (i % 6)))) ++
  [(0x5000, (List.range 1024).flatMap (fun f =>
      toLE 4 ((getFlag s f).gen.toNat * 2 ^ 10 + b2n (getFlag s f).set * 2 ^ 14 + f))),
   (0x6000, (List.range 512).flatMap (fun h => handleImage (getH s h))),
   (0x8000, (List.range (pageCount s)).map (pageByte s)),
   (0x9000, (List.range 128).flatMap (fun t => (trkImage (getTrk s t)).flatMap (fun w => toLE 4 w.toNat))),
   (0xC000, stepImage s),
   (0xD000, plan.flatMap (fun w => toLE 8 w.toNat))]

/-- The capture image (13 R287). -/
def captureImage (s : State) (plan : List W64) : Sparse Byte :=
  let m := (imageParts s plan).foldl (fun m e => sputs 0 m e.1 e.2) []
  s.dmem.foldl (fun m e => sput 0 m (0x10000 + e.1) e.2) m

/-- The body of a P record (13 R293). -/
def pBodyOf (s : State) (plan : List W64) : List Byte :=
  bytesAt (stepImage s) 0 160 ++ sgets 0 s.dmem (planPBase plan) (planPLen plan)

/-- The header of a P record. -/
def pHeader (body : List Byte) : List Byte :=
  [0x48, 0x54, 0x37, 0x50] ++ toLE 4 (body.length % 65536) ++ bytesAt body 0 8 ++ toLE 8 (crc64 body).toNat ++
  List.replicate 40 0

/-! ### Copying (13 R284-R295) -/

/-- The class digest of plan entries of one class (13 R294). -/
def classDigest (x : Snap) (cls : Nat) : W64 :=
  if classOn x.cmask cls then
    crc64 ((x.plan.filter (fun p => p.cls = cls)).flatMap (fun p =>
      toLE 8 (sget 0 x.digs (if p.stack then x.nspad + p.idx else p.idx)).toNat))
  else 0

/-- The descriptor (13 R292): digests are written with STATE COPIED. -/
def descBytes (s : State) (x : Snap) (state : Nat) : List Byte :=
  let full := state ≠ 0
  let d (v : W64) : List Byte := toLE 8 (if full then v.toNat else 0)
  [0x48, 0x54, 0x37, 0x53] ++ toLE 2 1 ++ [byteOf state, byteOf x.cmask.toNat] ++ toLE 8 x.cut.toNat ++
  toLE 8 s.serial.toNat ++ toLE 4 x.fid.toNat ++ toLE 4 x.fwCrc.toNat ++ toLE 8 x.tag.toNat ++ toLE 2 x.nspad ++
  toLE 2 x.nstack ++ toLE 4 0 ++ toLE 8 0 ++ d (crc64 (sgets 0 x.img 0 131072)) ++ d (classDigest x 0) ++ d (classDigest x 1) ++
  d (classDigest x 2) ++ d (if bit x.cmask 4 then crc64 x.pbody else 0) ++ List.replicate 160 0

/-- A write into the slot being copied. -/
def slotWrite (s : State) (why off : Nat) (bs : List Byte) : List StReq :=
  stWrites why s.st.cur.sfid (s.st.cur.base + off) bs

/-- The page-digest table. -/
def digestTable (x : Snap) : List Byte := (List.range (x.nspad + x.nstack)).flatMap (fun k => toLE 8 (sget 0 x.digs k).toNat)

/-- The writes with which a stage of the copy begins: 1 the image, 3 the digest table and the P record's body, 4 the P record's
header, 5 the descriptor with STATE COPIED. -/
def stageReqs (s : State) (k : Nat) : List StReq :=
  let x := s.st.cur
  if k = 1 then slotWrite s forCopy 0x10000 (sgets 0 x.img 0 131072)
  else if k = 3 then
    slotWrite s forCopy 0x3000 (digestTable x) ++ (if bit x.cmask 4 then slotWrite s forCopy 0x1040 x.pbody else [])
  else if k = 4 then (if bit x.cmask 4 then slotWrite s forCopy 0x1000 (pHeader x.pbody) else [])
  else if k = 5 then slotWrite s forCopy 0 (descBytes s x 1)
  else []

/-- An SSEAL that waits acts on a copy that has ended (13 R298). -/
def sealAct (s : State) (id : Nat) : State :=
  if s.st.snap = .copied then
    if (seqDone s).sb.num = s.st.cur.cut + 1 then
      setJob (pushReqs s (slotWrite s forSeal 48 (toLE 8 s.st.digest.toNat))) id (.seal 1)
    else setJob (modSt s (fun t => { t with snap := .idle })) id .done
  else setJob s id .done

/-- Every SSEAL that waits for the copy's end. -/
def wakeSeals (s : State) : State :=
  s.running.foldl (fun s r => match r.job with | .seal 0 => sealAct s r.id | _ => s) s

/-- The copy moves on when a stage's writes are acknowledged (13 R290, R293, R295); `n` bounds the stages passed at once. -/
def advanceCopy : Nat → State → State
  | 0, s => s
  | n + 1, s =>
    if s.st.snap ≠ .copying || stBusy s forCopy || stBusy s forPage then s
    else
      let k := s.st.cur.stage
      if k = 2 && !s.st.cur.pages.isEmpty then s
      else if k ≥ 5 then wakeSeals (modSt s (fun t => { t with snap := .copied }))
      else
        let s := modSnap s (fun x => { x with stage := k + 1 })
        advanceCopy n (pushReqs s (stageReqs s (k + 1)))

/-- The copy FAILS (13 R290): protection lifts and held writes proceed at the boundary, the slot is left as it is. -/
def copyFail (s : State) : State :=
  let s := stAbandon s [forCopy, forPage]
  let s := modSt s (fun t => { t with snap := .failed, cur := { t.cur with pages := [] } })
  wakeSeals (report s fCopyFail stRep none)

/-- The boundary at which protection lifts: pages that wait for the copy no more, read whole or dropped with it (13 R288, R290). -/
def liftPart (s : State) : State :=
  let ps := s.st.cur.pages
  modSt s (fun t => { t with
    protSpad := t.protSpad.filter (fun a => ps.any (fun p => !p.stack && p.addr = a)),
    protStk := t.protStk.filter (fun a => ps.any (fun p => p.stack && (p.sfid, p.addr) = a)) })

/-- A page's digest recorded and its image's writes begun (13 R288, R294). -/
def pageRead (s : State) (p : CopyPage) (bs : List Byte) : State :=
  let x := s.st.cur
  let key := if p.stack then x.nspad + p.idx else p.idx
  let s := modSnap s (fun y => { y with digs := sput 0 y.digs key (crc64 bs), pages := y.pages.filter (fun q => !samePage p q) })
  pushReqs s (slotWrite s forCopy (if p.stack then stkImg x.nspad p.idx else spadImg p.idx) bs)

/-- A scratchpad page as the Starter engine reads it: single-bit errors are corrected, an uncorrectable word is reported and reads
as zero bits (06 R152). -/
def starterRead (s : State) (page : Nat) : State × List Byte :=
  let ws := wordsOf (page * 65536) 65536
  let bad := marked s .double ws
  let s := (marked s .single ws).foldl (corrected none) s
  let s := bad.foldl (fun s _ => report s fSpadUe 8 none) s
  let bs := spadBytes s (page * 65536) 65536
  (s, ((List.range bs.length).zip bs).map (fun e => if bad.contains ((page * 65536 + e.1) / 8) then 0 else e.2))

/-- COPY_PAGE: the first planned page is read; a scratchpad page's protection lifts at the boundary of that step, a stack page's at that
of the step in which the last answer of its reads has arrived (13 R288). One of the two page buffers must be free. -/
def execCopyPage (s : State) : Out :=
  match s.st.cur.pages with
  | [] => .next s
  | p :: _ =>
    if live s && s.st.snap = .copying && (s.st.cur.stage = 1 || s.st.cur.stage = 2) && s.st.capture = none &&
        (s.st.todo.filter (fun r => purpose r.aux = forCopy)).length ≤ 1024 then
      if !p.stack then
        let r := starterRead s p.addr
        .next (settle s (pageRead r.1 p r.2))
      else if s.st.cur.pages.any (fun q => q.reading) then .next s
      else
        let rs := stReads forPage p.sfid p.addr 0 mib2
        .next (pushReqs (modSnap s (fun x =>
          { x with pages := x.pages.map (fun q => if samePage p q then { q with reading := true } else q), stkBuf := [],
                   stkLeft := rs.length })) rs)
    else .next s

/-- A stack page has been read whole. -/
def stackPageRead (s : State) : State :=
  match s.st.cur.pages.find? (fun q => q.reading) with
  | none => s
  | some p =>
    let bs := sgets 0 s.st.cur.stkBuf 0 mib2
    modSnap (pageRead s p bs) (fun x => { x with stkBuf := [], stkLeft := 0 })

/-! ### The fence (13 R283-R285) -/

/-- A context's SNAPF completes at a boundary: it may issue in the step that follows. -/
def endSnapf (s : State) (c : Ctx) : State :=
  match (getCtx s c).wait with
  | .snapf _ _ => modCtx s c (fun x => { resume x with nextIssue := s.steps })
  | _ => s

/-- Both contexts' fences complete. -/
def endFences (s : State) : State := woke s (endSnapf (endSnapf s .c0) .c1)

/-- The fences that a P record has ended complete at the boundary after its sample (13 R285). -/
def endPart (s : State) : State := if s.st.endDue then endFences (modSt s (fun t => { t with endDue := false })) else s

/-- The conditions of boundary B (13 R284). -/
def atB (s : State) : Bool :=
  live s && atBoundary s && s.core = .running && snapWait s && s.st.capture = none && s.running.isEmpty &&
    s.outst.isEmpty && orc s = 0 && s.st.snap ≠ .copying

/-- The copy begun at B: the sampled state, the planned pages, the OPEN descriptor (13 R284, R295). -/
def beginCopy (s : State) (slot : BitVec 24 × Nat × Nat) (plan : List W64) (ps : List CopyPage) : State :=
  let x : Snap := { sfid := slot.1, base := slot.2.1, cut := s.sb.num, cmask := s.st.cmask, fwCrc := s.fw.crc, tag := s.fw.tag,
                    fid := s.cfg.fid, img := captureImage s plan, plan := ps,
                    pages := ps.filter (fun p => !p.stack) ++ ps.filter (fun p => p.stack), nspad := spadCount ps,
                    nstack := stackCount ps, digs := [], pbody := pBodyOf s plan, stkBuf := [], stkLeft := 0, stage := 0 }
  let s := modSt s (fun t => { t with
    snap := .copying, capture := some s.steps, force := false, cur := x,
    protSpad := (ps.filter (fun p => !p.stack)).map (fun p => p.addr),
    protStk := (ps.filter (fun p => p.stack)).map (fun p => (p.sfid, p.addr)) })
  pushReqs s (slotWrite s forCopy 0 (descBytes s x 0))

/-- SNAPSHOT_CAPTURE (13 R284). -/
def execSnapshotCapture (s : State) : Out :=
  guarded (atB s) s
    (let s := seqDone s
     let a := planAddr s
     let ws := planWords s a
     if !planOk s.handles a ws then endFences (report s fSnapPlan stRep none)
     else
       let ps := planPages s.handles s.st.cmask ws
       match slotPlace s s.st.next with
       | none => endFences (report s fStSpace stRep none)
       | some slot =>
         if 1 + (spadCount ps + 31) / 32 + stackCount ps > slot.2.2 then endFences (report s fStSpace stRep none)
         else beginCopy s slot ws ps)

/-- CAPTURE_COMPLETE: 40 steps after B both fences complete (13 R284). -/
def execCaptureComplete (s : State) : Out :=
  match s.st.capture with
  | some b => guarded (live s && s.steps ≥ b + 40) s (endFences (modSt s (fun t => { t with capture := none })))
  | none => .next s

/-- The next stage of a P-only record (13 R285, R293): 1 the body, 2 the header; then PNEXT toggles. DESIGN
CHOICE (log 103): where no partner is named, so that there is nothing to write, it toggles at once. -/
def advanceRecord : Nat → State → State
  | 0, s => s
  | n + 1, s =>
    if s.st.pRec = 0 || stBusy s forRecord then s
    else if s.st.pRec = 1 then
      advanceRecord n (pushReqs (modSt s (fun t => { t with pRec := 2 }))
        ((pAreas s).flatMap (fun p => stWrites forRecord p.1 (p.2 + b2n s.st.pnext * 8192) (pHeader s.st.pBody))))
    else modSt s (fun t => { t with pRec := 0, pBody := [], pnext := !t.pnext })

/-- P_RECORD_SAMPLE: the P record is sampled at the boundary at which both contexts are in the fence; the fences complete at the next
(13 R285). -/
def execPRecordSample (s : State) : Out :=
  guarded (live s && atBoundary s && s.core = .running && snapReady s && !snapWait s && s.st.pRec = 0 && !s.st.endDue) s
    (let s := modSt (seqDone s) (fun t => { t with endDue := true })
     let a := planAddr s
     let ws := planWords s a
     if !planHeadOk a ws then report s fSnapPlan stRep none
     else
       let body := pBodyOf s ws
       advanceRecord 3 (pushReqs (modSt s (fun t => { t with pRec := 1, pBody := body }))
         ((pAreas s).flatMap (fun p => stWrites forRecord p.1 (p.2 + b2n s.st.pnext * 8192 + 64) body))))

/-! ### Starter words (13 R296-R298, R302) -/

/-- TNOP. -/
def execTnop (c : Ctx) (w : W128) (s : State) : Out := nopWord s c .starter w [0, 1, 2]

/-- The digest accumulator, which SFOLD and SSEAL write (13 R297, R298; 01 R26). -/
def daccFoot : List Foot := [{ place := .dacc, wr := true, acc := false, lo := 0, len := 1 }]

/-- SFOLD (13 R297): bytes delivered before a failed access are folded. -/
def execSfold (c : Ctx) (w : W128) (s : State) : Out :=
  engineWord s c .starter w 1 (fun s =>
    let off := fld w 53 27
    let n := fld w 26 27
    let h := fld w 84 9
    beginWord s [(anyBit w (lowMask 26), fOpcode)]
      [{ idx := h, gen := fld w 80 4, wr := false, acc := false, runs := [((off : Int), n)] }] .done
      (fun s =>
        let g := wordRead s (wordWho s .starter c) (getH s h) off n
        { s := modSt g.s (fun t => { t with dacc := crc64From t.dacc g.data }), data := [], fail := g.fail }) daccFoot)

/-- The replay's seal (13 R302). -/
def replaySeal (s : State) : Got :=
  if s.st.digest = s.st.restore.sdig && (seqDone s).sb.num = s.st.restore.cut + 1 then sure (modSt s (fun t => { t with rstate := .admitted }))
  else failed (modSt s (fun t => { t with rstate := .refused, rreason := 6 })) fMismatch

/-- SSEAL (13 R298). -/
def execSseal (c : Ctx) (w : W128) (s : State) : Out :=
  engineWord s c .starter w 2 (fun s =>
    let id := (headWord s c .starter).id
    if anyBit w (lowMask 93) then .refuse fOpcode
    else .start [] .done (fun s =>
      let s := modSt s (fun t => { t with digest := t.dacc, dacc := 0 })
      if s.st.rstate = .replaying then replaySeal s
      else if s.st.snap = .copying then sure (setJob s id (.seal 0))
      else if s.st.snap = .copied then sure (sealAct s id)
      else sure s) daccFoot)

/-- A write of a seal is acknowledged: STATE SEALED follows STEP_DIGEST, then NEXT toggles (13 R298). -/
def advanceSeal (s : State) : State :=
  if stBusy s forSeal then s
  else s.running.foldl (fun s r => match r.job with
    | .seal 1 => setJob (pushReqs s (slotWrite s forSeal 6 [2])) r.id (.seal 2)
    | .seal 2 => setJob (modSt s (fun t => { t with next := !t.next, snap := .idle })) r.id .done
    | _ => s) s

/-- A write of a seal fails: SNAP becomes FAILED, and the SSEAL completes (13 R290, R298). -/
def sealFail (s : State) : State :=
  let s := report (modSt (stAbandon s [forSeal]) (fun t => { t with snap := .failed })) fCopyFail stRep none
  s.running.foldl (fun s r => match r.job with
    | .seal (_ + 1) => setJob s r.id .done
    | _ => s) s

/-! ### Restore (13 R299-R301) -/

/-- Restore state changed. -/
def modRestore (s : State) (f : Restore → Restore) : State := modSt s (fun t => { t with restore := f t.restore })

/-- Bytes of the slot read. -/
def slotBytes (s : State) (off n : Nat) : List Byte := sgets 0 s.st.restore.buf off n

/-- A little-endian number of the slot read. -/
def slotNum (s : State) (off n : Nat) : Nat := ofLE (slotBytes s off n)

/-- RESTORE accepted (13 R299). -/
def restoreOk (s : State) : Bool :=
  s.core = .ready && s.bakeOn && (s.st.rstate = .none || s.st.rstate = .refused) && !s.cfg.partner.isEmpty

/-- A RESTORE or GO refused (13 R299). -/
def stRefused (s : State) : State := report s fStRefused stRep none

/-- A restore begun: the descriptor of the selected slot is read first (13 R300). -/
def beginRestore (s : State) : State :=
  match (if restoreOk s then slotPlace s s.st.rslot else none) with
  | none => stRefused s
  | some slot =>
    let s := modSt s (fun t => { t with
      rstate := .loading, rreason := 0,
      restore := { sfid := slot.1, base := slot.2.1, buf := [], stage := 0, err := false, cut := 0, sdig := 0 } })
    pushReqs s (stReads forSlot slot.1 slot.2.1 0 256)

/-- A write to ST_CTL: RSLOT and EN, FORCE set, then RESTORE (13, "Starter registers"). -/
def writeStCtl (s : State) (v : W32) : State :=
  let s := modSt s (fun t => { t with en := bit v 0, rslot := bit v 6, force := t.force || bit v 7 })
  if bit v 5 then beginRestore s else s

/-- RESTORE: a write of ST_CTL with RESTORE. -/
def execRestore (v : W32) (s : State) : Out := hosted s (bit v 5) (regWrite 0x1800 v) (writeStCtl s v)

/-- FORCE: a write of ST_CTL with FORCE. -/
def execForce (v : W32) (s : State) : Out := hosted s (bit v 7) (regWrite 0x1800 v) (writeStCtl s v)

/-- Check 1 of 13 R300: a sealed slot. -/
def slotSealed (s : State) : Bool :=
  slotBytes s 0 4 = [0x48, 0x54, 0x37, 0x53] && slotNum s 4 2 = 1 && slotNum s 6 1 = 2

/-- Check 2: the image and the identity. -/
def slotMine (s : State) : Bool :=
  slotNum s 28 4 = s.fw.crc.toNat && slotNum s 32 8 = s.fw.tag.toNat && slotNum s 24 4 = s.cfg.fid.toNat

/-- Page counts of the slot. -/
def slotNspad (s : State) : Nat := slotNum s 40 2
def slotNstack (s : State) : Nat := slotNum s 42 2

/-- The slot's class mask. -/
def slotMask (s : State) : BitVec 5 := BitVec.ofNat 5 (slotNum s 7 1)

/-- The reads of a slot after its descriptor. -/
def slotReads (s : State) : List StReq :=
  let r := s.st.restore
  let rd (off n : Nat) : List StReq := stReads forSlot r.sfid (r.base + off) off n
  rd 0x1000 4320 ++ rd 0x3000 (8 * (slotNspad s + slotNstack s)) ++ rd 0x10000 131072 ++ rd 0x200000 (65536 * slotNspad s) ++
  rd (stkImg (slotNspad s) 0) (mib2 * slotNstack s)

/-- The descriptor has been read: the rest of the slot follows where checks 1 and 2 hold. -/
def advanceRestore (s : State) : State :=
  if s.st.rstate ≠ .loading || stBusy s forSlot || s.st.restore.stage ≠ 0 then s
  else
    let s := modRestore s (fun r => { r with stage := 1 })
    if slotSealed s && slotMine s then pushReqs s (slotReads s) else s

/-- A byte, number and run of the captured image. -/
def imgNum (s : State) (off n : Nat) : Nat := slotNum s (0x10000 + off) n

/-- A captured queue. DESIGN CHOICE (log 102): of a count above 64, which 13 R287 gives no meaning, 64 words are taken. -/
def loadQueue (s : State) (id i : Nat) : List QWord :=
  (List.range (min 64 (imgNum s (0x1000 + 1040 * i) 4))).map (fun k =>
    { id := id + k, word := BitVec.ofNat 128 (imgNum s (0x1000 + 1040 * i + 16 + 16 * k) 16) })

/-- RUNSTATE of a code. DESIGN CHOICE (log 102): a code above 3, which 13 R287 gives no meaning, is HELD. -/
def runOf (k : Nat) : RunSt :=
  match k with
  | 0 => .running | 1 => .waiting | 2 => .halted | _ => .held

/-- A table filled from a function of its keys. -/
def fillTable {α : Type} [DecidableEq α] (d : α) (n : Nat) (f : Nat → α) : Sparse α :=
  (List.range n).foldl (fun m i => sput d m i (f i)) []

/-- A context as captured (13 R287, R301), reserved bits of its registers ignored (00 R11); what no class holds stays. -/
def loadCtx (s : State) (x : Context) (base q id : Nat) : Context :=
  let n (o k : Nat) : Nat := imgNum s (base + o) k
  let run := runOf (n 4 4)
  { x with
    pc := BitVec.ofNat 16 (n 0 4), run := run, saved := run, cr := BitVec.ofNat 32 (n 8 1 % 128), vstatus := BitVec.ofNat 32 (n 12 1 % 16),
    wait := .none, issued := false, nextIssue := 0, ready := [],
    regs := fillTable 0 32 (fun i => if i = 0 then 0 else BitVec.ofNat 32 (n (0x10 + 4 * i) 4)),
    estage := fillTable 0 8 (fun i => BitVec.ofNat 128 (n (0x90 + 16 * i) 16)),
    mslots := fillTable 0 16 (fun i => BitVec.ofNat 93 (n (0x110 + 16 * i) 16)),
    rslots := fillTable 0 8 (fun i => BitVec.ofNat 93 (n (0x210 + 16 * i) 16)),
    queue := fillTable [] 6 (fun e => loadQueue s (id + 64 * e) (q + e)), hwait := [] }

/-- A captured handle entry. -/
def loadHandle (s : State) (h : Nat) : Handle :=
  let w0 : W64 := BitVec.ofNat 64 (imgNum s (0x6000 + 16 * h) 8)
  let w1 : W64 := BitVec.ofNat 64 (imgNum s (0x6000 + 16 * h + 8) 8)
  { gen := BitVec.ofNat 4 (fld w0 60 4), valid := bit w0 59, wp := bit w0 58, win := bit w0 57, sp := bit w0 56,
    wopen := bit w0 55, wgen := BitVec.ofNat 4 (fld w0 51 4), part := BitVec.ofNat 3 (fld w0 48 3),
    base := BitVec.ofNat 11 (fld w0 37 11), npages := BitVec.ofNat 11 (fld w0 26 11), vstep := BitVec.ofNat 48 (fld w1 16 48),
    vsgen := BitVec.ofNat 4 (fld w1 4 4), vvalid := bit w1 3 }

/-- A captured flag; its marks are cleared (13 R301). -/
def loadFlag (s : State) (f : Nat) : Flag :=
  let w : W32 := BitVec.ofNat 32 (imgNum s (0x5000 + 4 * f) 4)
  { set := bit w 14, gen := BitVec.ofNat 4 (fld w 10 4), lost := false, parked := false }

/-- A captured tracker. -/
def loadTracker (s : State) (t : Nat) : Tracker :=
  let w (i : Nat) : W32 := BitVec.ofNat 32 (imgNum s (0x9000 + 72 * t + 4 * i) 4)
  { hist := fillTable 0 16 w, cur := BitVec.ofNat 4 (fld (w 16) 0 4), fmt := BitVec.ofNat 4 (fld (w 16) 4 4),
    margin := BitVec.ofNat 4 (fld (w 16) 8 4), sinit := BitVec.ofNat 8 (fld (w 16) 12 8), prop := BitVec.ofNat 8 (fld (w 16) 20 8),
    nf := BitVec.ofNat 16 (fld (w 17) 0 16) }

/-- State of a buffer of a code. -/
def bufStOf (k : Nat) : BufSt := if k = 1 then .valid else if k = 2 then .inForce else .free

/-- The captured step block: STEP_NUM is CUT_STEP, the pending flit is discarded (13 R301). -/
def loadStep (s : State) (b : StepBlk) : StepBlk :=
  let v : W32 := BitVec.ofNat 32 (imgNum s 0xC008 4)
  { b with
    num := BitVec.ofNat 64 (slotNum s 8 8), en := bit v 31, leader := bit v 30, gflag := BitVec.ofNat 10 (fld v 20 10),
    rqflag := BitVec.ofNat 10 (fld v 10 10), stB := bufStOf (fld v 7 2), stA := bufStOf (fld v 5 2), req := bit v 4, pend := none,
    bufA := fillTable 0 16 (fun i => BitVec.ofNat 32 (imgNum s (0xC010 + 4 * i) 4)),
    bufB := fillTable 0 16 (fun i => BitVec.ofNat 32 (imgNum s (0xC050 + 4 * i) 4)), sentFor := none, copy := .none,
    sendDue := false, admDue := false, skewed := false }

/-- The captured page states, where the core is in checked mode (06 R149). -/
def loadPages (s : State) : Sparse PageSt :=
  if s.checked then
    fillTable PageSt.empty (pageCount s) (fun p =>
      let b := imgNum s (0x8000 + p) 1
      { st := BitVec.ofNat 2 b, prod := BitVec.ofNat 4 (b / 4) })
  else s.pages

/-- Class S loaded from the capture image (13 R301). -/
def loadS (s : State) : State :=
  { s with
    c0 := loadCtx s s.c0 0x40 0 s.nextId, c1 := loadCtx s s.c1 0x440 6 (s.nextId + 384), nextId := s.nextId + 768,
    flags := fillTable Flag.zero 1024 (loadFlag s), handles := fillTable Handle.zero 512 (loadHandle s), pages := loadPages s,
    trackers := fillTable Tracker.reset 128 (loadTracker s), sb := loadStep s s.sb, epoch := BitVec.ofNat 4 (imgNum s 36 1),
    ilPtr := imgNum s 37 1, dmem := fillTable 0 65536 (fun a => byteOf (imgNum s (0x10000 + a) 1)), rxTab := [] }

/-- The captured plan. -/
def slotPlan (s : State) : List W64 :=
  let w (i : Nat) : W64 := BitVec.ofNat 64 (imgNum s (0xD000 + 8 * i) 8)
  w 0 :: (List.range (2 * min 256 (fld (w 0) 0 16))).map (fun i => w (i + 1))

/-- The captured handle table. -/
def slotHandles (s : State) : Sparse Handle := fillTable Handle.zero 512 (loadHandle s)

/-- The pages that the captured plan and handle table name, in the slot's classes (13 R301). -/
def slotPages (s : State) : List CopyPage := planPages (slotHandles s) (slotMask s) (slotPlan s)

/-- The image of a page in the slot. -/
def pageImage (s : State) (p : CopyPage) : List Byte :=
  if p.stack then slotBytes s (stkImg (slotNspad s) p.idx) mib2 else slotBytes s (spadImg p.idx) 65536

/-- The stored digest of page k. -/
def slotDigest (s : State) (k : Nat) : W64 := BitVec.ofNat 64 (slotNum s (0x3000 + 8 * k) 8)

/-- Check 4 of 13 R300. -/
def slotDigests (s : State) : Bool :=
  let n := slotNspad s
  let body := slotBytes s 0x1040 (slotNum s 0x1004 2)
  (List.range n).all (fun k => crc64 (slotBytes s (spadImg k) 65536) = slotDigest s k) &&
  (List.range (slotNstack s)).all (fun k => crc64 (slotBytes s (stkImg n k) mib2) = slotDigest s (n + k)) &&
  crc64 (slotBytes s 0x10000 131072) = BitVec.ofNat 64 (slotNum s 56 8) &&
  (List.range 3).all (fun c => !classOn (slotMask s) c ||
    crc64 (((slotPages s).filter (fun p => p.cls = c)).flatMap (fun p =>
      toLE 8 (slotDigest s (if p.stack then n + p.idx else p.idx)).toNat)) = BitVec.ofNat 64 (slotNum s (64 + 8 * c) 8)) &&
  (!bit (slotMask s) 4 ||
    (crc64 body = BitVec.ofNat 64 (slotNum s 0x1010 8) && crc64 body = BitVec.ofNat 64 (slotNum s 88 8)))

/-- Check 5 of 13 R300. -/
def slotInStep (s : State) : Bool :=
  !bit (slotMask s) 4 ||
    (slotNum s 0x1008 8 = slotNum s 8 8 &&
      (planPLen (slotPlan s) < 8 || slotNum s (0x1040 + 160) 8 = slotNum s 8 8))

/-- The first check of 13 R300 that fails: reason and fault. -/
def restoreFault (s : State) : Option (Nat × Nat) :=
  if !slotSealed s then some (1, fRestSlot)
  else if !slotMine s then some (2, fRestIdentity)
  else if s.st.restore.err then some (3, fRestRead)
  else if !slotDigests s then some (4, fRestDigest)
  else if !slotInStep s then some (5, fRestSkew)
  else none

/-- A table brought into canonical form over the keys below `n`. -/
def bounded {α : Type} [DecidableEq α] (d : α) (n : Nat) (raw : List (Nat × α)) : Sparse α :=
  snorm d (raw.filter (fun e => e.1 < n))

/-- A queue with unspecified words, numbered from `id`. -/
def freeQueue (q : List QWord) (id : Nat) : List QWord :=
  (List.range (min 64 q.length)).map (fun k => { id := id + k, word := ((q[k]?).getD default).word })

/-- A context with unspecified contents (13 R300; log 2): what a restore loads, and its vector bank and masks; the words of its queues
are numbered from `id`. -/
def freeCtx (x y : Context) (id : Nat) : Context :=
  { x with pc := y.pc, cr := y.cr, run := y.run, saved := y.saved, wait := y.wait, vstatus := y.vstatus,
           regs := bounded 0 32 (y.regs.filter (fun e => e.1 ≠ 0)), estage := bounded 0 8 y.estage,
           vregs := bounded 0 131072 y.vregs, masks := bounded 0 8 y.masks, mslots := bounded 0 16 y.mslots,
           rslots := bounded 0 8 y.rslots, queue := fillTable [] 6 (fun e => freeQueue (sget [] y.queue e) (id + 64 * e)),
           hwait := bounded .pending 6 y.hwait }

/-- The core's contents after a refused restore are unspecified (13 R300; log 2). -/
def freeContents (s : State) : State :=
  let f := Config.freeState s.freeCtr
  { s with
    freeCtr := s.freeCtr + 1, c0 := freeCtx s.c0 f.c0 s.nextId, c1 := freeCtx s.c1 f.c1 (s.nextId + 384),
    nextId := s.nextId + 768, flags := bounded Flag.zero 1024 f.flags,
    handles := bounded Handle.zero 512 f.handles, pages := bounded PageSt.empty (pageCount s) f.pages,
    trackers := bounded Tracker.reset 128 (f.trackers.map (fun e => (e.1, { e.2 with hist := bounded 0 16 e.2.hist }))),
    sb := { f.sb with bufA := bounded 0 16 f.sb.bufA, bufB := bounded 0 16 f.sb.bufB, sendDue := false, admDue := false },
    epoch := f.epoch, ilPtr := f.ilPtr, acc := bounded 0 524288 f.acc, stat := bounded 0 32768 f.stat,
    dmem := bounded 0 65536 f.dmem, spad := bounded 0 (pageCount s * 65536) f.spad }

/-- A refused restore (13 R300). -/
def restoreRefuse (s : State) (reason fault : Nat) : State :=
  let s := stAbandon s [forSlot, forLoad]
  report (freeContents (modSt s (fun t => { t with rstate := .refused, rreason := BitVec.ofNat 4 reason }))) fault stRep none

/-- A scratchpad page's image stored with valid check bits. -/
def loadSpadPage (img : State) (s : State) (p : CopyPage) : State :=
  let a := p.addr * 65536
  spadPut (cleanWords s (wordsOf a 65536)) a (pageImage img p)

/-- A restore that passes loads (13 R301); stack pages are written back before RSTATE becomes LOADED. -/
def restoreTake (s : State) : State :=
  let ps := slotPages s
  let t := (ps.filter (fun p => !p.stack)).foldl (loadSpadPage s) (loadS s)
  let rs := (ps.filter (fun p => p.stack)).flatMap (fun p => stWrites forLoad p.sfid p.addr (pageImage s p))
  let t := modSt t (fun u => { u with
    dacc := 0, next := !u.rslot, protSpad := [], protStk := [], rstate := if rs.isEmpty then .loaded else .loading,
    restore := { u.restore with stage := 2, cut := BitVec.ofNat 64 (slotNum s 8 8), sdig := BitVec.ofNat 64 (slotNum s 48 8) } })
  pushReqs t rs

/-- RESTORE_LOAD: the slot has been read; the restore is checked and loaded, or refused (13 R300, R301). -/
def execRestoreLoad (s : State) : Out :=
  guarded (live s && s.st.rstate = .loading && s.st.restore.stage = 1 && !stBusy s forSlot) s
    (match restoreFault s with
     | some (r, f) => restoreRefuse s r f
     | none => restoreTake s)

/-! ### Answers to the Starter engine's requests -/

/-- Data for a read. -/
def starterData (s : State) (aux : Nat) (bs : List Byte) : State :=
  if purpose aux = forPage then
    let s := modSnap s (fun x => { x with stkBuf := sputs 0 x.stkBuf (aux / 8) bs, stkLeft := x.stkLeft - 1 })
    if s.st.cur.stkLeft = 0 then stackPageRead s else s
  else advanceRestore (modRestore s (fun r => { r with buf := sputs 0 r.buf (aux / 8) bs }))

/-- A write acknowledged. -/
def starterAck (s : State) (aux : Nat) : State :=
  if purpose aux = forCopy then advanceCopy 6 s
  else if purpose aux = forRecord then advanceRecord 3 s
  else if purpose aux = forSeal then advanceSeal s
  else if s.st.rstate = .loading && s.st.restore.stage = 2 && !stBusy s forLoad then
    modSt s (fun t => { t with rstate := .loaded })
  else s

/-- An error status, a NACK, or the end that the deadlock detector gives a request (13 R290, R300). -/
def starterErr (s : State) (aux : Nat) : State :=
  if purpose aux = forCopy || purpose aux = forPage then copyFail s
  else if purpose aux = forRecord then
    report (modSt (stAbandon s [forRecord]) (fun t => { t with pRec := 0, pBody := [] })) fCopyFail stRep none
  else if purpose aux = forSeal then sealFail s
  else if purpose aux = forSlot then advanceRestore (modRestore s (fun r => { r with err := true }))
  else restoreRefuse s 3 fRestRead

end Sys2Proof.Machine
end

