-- ==== Sys2Proof/Machine/Fabric.lean ====
section
/-!
DEFINITION. Fabric requests as they leave and their answers as they arrive (07 R166-R169, R392; 16 R353-R356).
-/

namespace Sys2Proof.Machine

/-- A request index that no outstanding or abandoned request of a channel number holds (07 R166, R392). -/
def idxFree (s : State) (ch idx : Nat) : Bool :=
  !s.outst.any (fun r => r.ch = ch && r.idx = idx) && !s.retired.any (fun r => r.1 = ch && r.2.1 = idx)

/-- A request leaves on its port and is outstanding. -/
def sendReq (s : State) (p : Port) (f : TxFlit) (r : Outst) : State :=
  sendFlit { s with outst := s.outst ++ [r] } p f

/-- The flit of a stack read or write (16 R355). -/
def stackFlit (s : State) (fid : BitVec 24) (kind ch idx addr len : Nat) (bs : List Byte) : TxFlit :=
  { route := routeOf fid s.cfg.fid, hdr := hdrOf kind ch idx len (addr % 2 ^ 48 * 2 ^ 58), data := bs }

/-- The stack page of an address is protected by a snapshot (13 R288). -/
def protStack (s : State) (fid : BitVec 24) (addr : Nat) : Bool :=
  s.st.protStk.any (fun q => q.1 = fid && q.2 ≤ addr && addr < q.2 + mib2)

/-- A held write's stack page moves to the head of the copy order. -/
def urgeStack (s : State) (fid : BitVec 24) (addr : Nat) : State :=
  urgent s (fun q => q.stack && q.sfid = fid && q.addr ≤ addr && addr < q.addr + mib2)

/-- A transfer with its first request taken. -/
def popReq (s : State) (r : Running) (x : Xfer) : State := setJob s r.id (.xfer { x with todo := x.todo.tail })

/-- The Starter engine's first request of a kind. -/
def stNext (s : State) (wr : Bool) : Option StReq := s.st.todo.find? (fun r => r.wr = wr)

/-- The Starter engine's request taken. -/
def stPop (s : State) (r : StReq) : State := modSt s (fun t => { t with todo := t.todo.erase r })

/-- A request of the Starter engine leaves under a channel number, on that channel's port (07 R166; 13 R290). -/
def stSend (s : State) (wr : Bool) (ch idx : Nat) : State :=
  match stNext s wr with
  | none => s
  | some r =>
    let k := if wr then kWr else kRd
    sendReq (stPop s r) (portOf s 2 ch) (stackFlit s r.sfid k ch idx r.addr r.len r.data)
      { ch := ch, idx := idx, owner := .starter, kind := k, addr := r.addr, len := r.len, aux := r.aux }

/-- STK_RD_SEND. -/
def execStkRdSend (ch : BitVec 2) (starter : Bool) (idx : BitVec 9) (s : State) : Out :=
  let c := ch.toNat
  let i := idx.toNat
  if starter then guarded (txOpen s (portOf s 2 c) && idxFree s c i) s (stSend s false c i)
  else
    match xferOn s c with
    | none => .next s
    | some (r, x) =>
      let d := descOf x.desc
      match x.todo.head? with
      | some (.rd a pos n) =>
        guarded (txOpen s (portOf s d.fp c) && idxFree s c i) s
          (sendReq (popReq s r x) (portOf s d.fp c) (stackFlit s d.sfid kRd c i a n [])
            { ch := c, idx := i, owner := .word r.id, kind := kRd, addr := a, len := n, aux := pos })
      | _ => .next s

/-- STK_WR_SEND: a write to a protected stack page waits, and its page moves to the head of the copy order (07 R169, 13 R288). -/
def execStkWrSend (ch : BitVec 2) (starter : Bool) (idx : BitVec 9) (s : State) : Out :=
  let c := ch.toNat
  let i := idx.toNat
  if starter then guarded (txOpen s (portOf s 2 c) && idxFree s c i) s (stSend s true c i)
  else
    match xferOn s c with
    | none => .next s
    | some (r, x) =>
      let d := descOf x.desc
      match x.todo.head? with
      | some (.wr a bs) =>
        if protStack s d.tfid a then .next (urgeStack s d.tfid a)
        else
          guarded (txOpen s (portOf s d.fp c) && idxFree s c i) s
            (sendReq (popReq s r x) (portOf s d.fp c) (stackFlit s d.tfid kWr c i a bs.length bs)
              { ch := c, idx := i, owner := .word r.id, kind := kWr, addr := a, len := bs.length, aux := 0 })
      | _ => .next s

/-- A value for a 27-bit field; where it does not fit, the manual says nothing of the field, and a free value stands there (log
2). -/
def field27 (s : State) (k v : Nat) : Nat := if v < 2 ^ 27 then v else fld (Config.freeWord (s.freeCtr + k)) 0 27

/-- The header of a window write (16 R355). -/
def winHdr (s : State) (d : Desc) (x : Xfer) (ch idx off len : Nat) : BitVec 128 :=
  hdrOf kWin ch idx len (d.wh * 2 ^ 97 + d.whgen * 2 ^ 93 + d.wgen * 2 ^ 89 + x.epoch.toNat * 2 ^ 85 +
    field27 s 0 off * 2 ^ 58 + field27 s 1 (d.trows * d.tlen) * 2 ^ 31 +
    field27 s 2 (d.taddr + spanOf d.tstride d.trows d.tlen - 1) * 2 ^ 4)

/-- WIN_WR_SEND: the flit carries the epoch of its transfer's start (12 R270). -/
def execWinWrSend (ch : BitVec 2) (idx : BitVec 9) (s : State) : Out :=
  let c := ch.toNat
  let i := idx.toNat
  match xferOn s c with
  | none => .next s
  | some (r, x) =>
    let d := descOf x.desc
    match x.todo.head? with
    | some (.win o bs) =>
      guarded (txOpen s (portOf s d.fp c) && idxFree s c i) s
        (sendReq { popReq s r x with freeCtr := s.freeCtr + 3 } (portOf s d.fp c)
          { route := routeOf d.tfid s.cfg.fid, hdr := winHdr s d x c i o bs.length, data := bs }
          { ch := c, idx := i, owner := .word r.id, kind := kWin, addr := o, len := bs.length, aux := 0 })
    | _ => .next s

/-! ### Answers -/

/-- The outstanding request that an answer's TAG names, where its kind is the one answered (16 R356). -/
def askedFor (s : State) (h : BitVec 128) (kind : Nat) : Option Outst :=
  s.outst.find? (fun r => r.ch = hCh h && r.idx = hIx h && r.kind = kind)

/-- A request taken off the list of outstanding requests. -/
def closeReq (s : State) (r : Outst) : State := { s with outst := s.outst.erase r }

/-- A request of a transfer failed: the transfer ends (07 R169). -/
def failReq (s : State) (r : Outst) (code : Nat) : State :=
  match r.owner with
  | .starter => starterErr s r.aux
  | .word id =>
    match xferOf s id with
    | some (w, _) => endXfer s w code
    | none => s

/-- A read answered with data. -/
def dataReq (s : State) (r : Outst) (bs : List Byte) : State :=
  match r.owner with
  | .starter => starterData s r.aux bs
  | .word id =>
    match xferOf s id with
    | some (w, x) => xferData s w x r.aux bs
    | none => s

/-- A read's data can be taken in this step. -/
def dataFits (s : State) (r : Outst) (bs : List Byte) : Bool :=
  match r.owner with
  | .starter => true
  | .word id =>
    match xferOf s id with
    | some (_, x) => landsNow s x r.aux bs
    | none => true

/-- A write acknowledged. -/
def ackReq (s : State) (r : Outst) : State :=
  match r.owner with
  | .starter => starterAck s r.aux
  | .word id =>
    match xferOf s id with
    | some (w, x) => xferAck s w x
    | none => s

/-- An answer of a kind taken on a port. -/
def answer (s : State) (p : Port) (hdr : BitVec 128) (kind req : Nat) (f : State → Outst → State) : Out :=
  match askedFor s hdr req with
  | some r => guarded (rxOpen s p && hKind hdr = kind) s (f (closeReq (countRx s p) r) r)
  | none => .next s

/-- STK_RD_RSP: an error status ends the transfer or the copy (07 R169). Data for a channel whose port a window flit has taken in this step is
taken in the next (07 R177). -/
def execStkRdRsp (p : Port) (_route : BitVec 48) (hdr : BitVec 128) (data : BitVec 512) (s : State) : Out :=
  match askedFor s hdr kRd with
  | some r =>
    if hStatus hdr = 0 && !dataFits s r (payload data r.len) then .next s
    else answer s p hdr kRdRsp kRd (fun s r =>
      if hStatus hdr = 0 then dataReq s r (payload data r.len) else failReq s r fStackError)
  | none => .next s

/-- STK_WR_ACK. -/
def execStkWrAck (p : Port) (_route : BitVec 48) (hdr : BitVec 128) (_data : BitVec 512) (s : State) : Out :=
  answer s p hdr kWrAck kWr (fun s r => if hStatus hdr = 0 then ackReq s r else failReq s r fStackError)

/-- WIN_ACK: ERROR is treated as REFUSED (16 R355). -/
def execWinAck (p : Port) (_route : BitVec 48) (hdr : BitVec 128) (_data : BitVec 512) (s : State) : Out :=
  answer s p hdr kWinAck kWin (fun s r =>
    if hStatus hdr = 0 then ackReq s r else failReq s r (if hStatus hdr = 1 then fDropped else fRefused))

/-- NACK: it answers only a request of its OKIND (16 R356). -/
def execNack (p : Port) (_route : BitVec 48) (hdr : BitVec 128) (_data : BitVec 512) (s : State) : Out :=
  answer s p hdr kNack (hOkind hdr) (fun s r => failReq s r fLinkUnc)

/-- The kind of request that a flit would answer. -/
def answers (hdr : BitVec 128) : Option Nat :=
  if hKind hdr = kRdRsp then some kRd
  else if hKind hdr = kWrAck then some kWr
  else if hKind hdr = kWinAck then some kWin
  else if hKind hdr = kNack then some (hOkind hdr)
  else none

/-- A flit that the core discards: not a window write it can take, and no answer to an outstanding request (16 R356; log 16). -/
def discarded (s : State) (hdr : BitVec 128) : Bool :=
  if hKind hdr = kWin then hLen hdr > 64
  else match answers hdr with
    | some k => (askedFor s hdr k).isNone
    | none => true

/-- FABRIC_FLIT_DISCARD: nothing is recorded; the answer to an abandoned request frees its index (07 R392, 16 R356). -/
def execFabricFlitDiscard (p : Port) (_route : BitVec 48) (hdr : BitVec 128) (_data : BitVec 512) (s : State) : Out :=
  guarded (rxOpen s p && discarded s hdr) s
    (match answers hdr with
     | some k => { countRx s p with retired := s.retired.filter (fun r => r ≠ (hCh hdr, hIx hdr, k)) }
     | none => countRx s p)

end Sys2Proof.Machine
end

