-- ==== Sys2Proof/Machine/Scalar.lean ====
section
/-!
DEFINITION. The control core's instructions but for the handle instructions (08 R179-R196, 09 R206-R208).
-/

namespace Sys2Proof.Machine

/-! ### Arithmetic (08 R182) -/

/-- An instruction of form R with OP 0x00: rd takes a function of ra and rb. -/
def aluR (s : State) (c : Ctx) (fn lat : Nat) (rd ra rb : BitVec 5) (f : W32 → W32 → W32) : Out :=
  runInsn s c (encR 0 rd ra rb fn) [ra.toNat, rb.toNat]
    (fun t x => toReg t x c rd (f (rdS x ra.toNat) (rdS x rb.toNat)) lat)

/-- An instruction of form I: rd takes a function of ra and the immediate. -/
def aluI (s : State) (c : Ctx) (op : Nat) (rd ra : BitVec 5) (imm : BitVec 16) (f : W32 → W32) : Out :=
  runInsn s c (encI op rd ra imm) [ra.toNat] (fun t x => toReg t x c rd (f (rdS x ra.toNat)) 1)

/-- Shift amount: rb mod 32. -/
def shAmt (b : W32) : Nat := b.toNat % 32

/-- 1 or 0. -/
def bool32 (b : Bool) : W32 := if b then 1 else 0

/-- High 32 bits of the unsigned product. -/
def mulHi (a b : W32) : W32 := BitVec.ofNat 32 ((a.toNat * b.toNat) >>> 32)

/-- The shift that IMM[6:5] selects, by IMM[4:0] (08 R182). -/
def shiftImm (imm : BitVec 16) (a : W32) : W32 :=
  let n := fld imm 0 5
  match fld imm 5 2 with
  | 0 => a <<< n
  | 1 => a >>> n
  | _ => a.sshiftRight n

def execAdd (c : Ctx) (rd ra rb : BitVec 5) (s : State) : Out := aluR s c 0x000 1 rd ra rb (fun a b => a + b)
def execSub (c : Ctx) (rd ra rb : BitVec 5) (s : State) : Out := aluR s c 0x001 1 rd ra rb (fun a b => a - b)
def execAnd (c : Ctx) (rd ra rb : BitVec 5) (s : State) : Out := aluR s c 0x002 1 rd ra rb (fun a b => a &&& b)
def execOr (c : Ctx) (rd ra rb : BitVec 5) (s : State) : Out := aluR s c 0x003 1 rd ra rb (fun a b => a ||| b)
def execXor (c : Ctx) (rd ra rb : BitVec 5) (s : State) : Out := aluR s c 0x004 1 rd ra rb (fun a b => a ^^^ b)
def execSll (c : Ctx) (rd ra rb : BitVec 5) (s : State) : Out := aluR s c 0x005 1 rd ra rb (fun a b => a <<< shAmt b)
def execSrl (c : Ctx) (rd ra rb : BitVec 5) (s : State) : Out := aluR s c 0x006 1 rd ra rb (fun a b => a >>> shAmt b)
def execSra (c : Ctx) (rd ra rb : BitVec 5) (s : State) : Out :=
  aluR s c 0x007 1 rd ra rb (fun a b => a.sshiftRight (shAmt b))
def execSlt (c : Ctx) (rd ra rb : BitVec 5) (s : State) : Out := aluR s c 0x008 1 rd ra rb (fun a b => bool32 (a.slt b))
def execSltu (c : Ctx) (rd ra rb : BitVec 5) (s : State) : Out := aluR s c 0x009 1 rd ra rb (fun a b => bool32 (a.ult b))
def execMul (c : Ctx) (rd ra rb : BitVec 5) (s : State) : Out := aluR s c 0x00A 3 rd ra rb (fun a b => a * b)
def execMulhu (c : Ctx) (rd ra rb : BitVec 5) (s : State) : Out := aluR s c 0x00B 3 rd ra rb mulHi
def execAddi (c : Ctx) (rd ra : BitVec 5) (imm : BitVec 16) (s : State) : Out :=
  aluI s c 0x01 rd ra imm (fun a => a + imm.signExtend 32)
def execAndi (c : Ctx) (rd ra : BitVec 5) (imm : BitVec 16) (s : State) : Out :=
  aluI s c 0x02 rd ra imm (fun a => a &&& imm.zeroExtend 32)
def execOri (c : Ctx) (rd ra : BitVec 5) (imm : BitVec 16) (s : State) : Out :=
  aluI s c 0x03 rd ra imm (fun a => a ||| imm.zeroExtend 32)
def execXori (c : Ctx) (rd ra : BitVec 5) (imm : BitVec 16) (s : State) : Out :=
  aluI s c 0x04 rd ra imm (fun a => a ^^^ imm.zeroExtend 32)
def execSlti (c : Ctx) (rd ra : BitVec 5) (imm : BitVec 16) (s : State) : Out :=
  aluI s c 0x05 rd ra imm (fun a => bool32 (a.slt (imm.signExtend 32)))
def execShi (c : Ctx) (rd ra : BitVec 5) (imm : BitVec 16) (s : State) : Out := aluI s c 0x06 rd ra imm (shiftImm imm)

/-- LUI: RA is zero in its encoding. -/
def execLui (c : Ctx) (rd : BitVec 5) (imm : BitVec 16) (s : State) : Out :=
  runInsn s c (encI 0x07 rd 0 imm) [] (fun t x => toReg t x c rd (imm.zeroExtend 32 <<< 16) 1)

/-! ### Data memory (08 R184, R189) -/

/-- LW. -/
def execLw (c : Ctx) (rd ra : BitVec 5) (imm : BitVec 16) (s : State) : Out :=
  runInsn s c (encI 0x08 rd ra imm) [ra.toNat] (fun t x =>
    let a := memAddr x ra imm
    match memFault a 4 with
    | some e => .trap e
    | none => toReg t x c rd (BitVec.ofNat 32 (ofLE (dmemRead s a 4))) 2)

/-- A store of `n` bytes at `ra` + IMM: an address out of range or unaligned faults, a reserved descriptor stalls (08 R184, R189). -/
def storeInsn (s : State) (c : Ctx) (w : W32) (ra : BitVec 5) (src : Nat) (imm : BitVec 16) (n : Nat) (data : Context → Nat) : Out :=
  let a := memAddr (getCtx s c) ra imm
  runInsn s c w [ra.toNat, src]
    (fun t x => if memReserved t a then .stall else .go (dmemStore t (some c) a (toLE n (data x)))) ([ra.toNat], memFault a n)

/-- SW. -/
def execSw (c : Ctx) (rd ra : BitVec 5) (imm : BitVec 16) (s : State) : Out :=
  storeInsn s c (encI 0x09 rd ra imm) ra rd.toNat imm 4 (fun x => (rdS x rd.toNat).toNat)

/-- LDE. -/
def execLde (c : Ctx) (ed : BitVec 3) (ra : BitVec 5) (imm : BitVec 16) (s : State) : Out :=
  runInsn s c (encI 0x0A (ed.zeroExtend 5) ra imm) [ra.toNat] (fun t x =>
    let a := memAddr x ra imm
    match memFault a 16 with
    | some e => .trap e
    | none => .go (setStage t c ed (BitVec.ofNat 128 (ofLE (dmemRead s a 16))) 2))

/-- STE. -/
def execSte (c : Ctx) (ed : BitVec 3) (ra : BitVec 5) (imm : BitVec 16) (s : State) : Out :=
  storeInsn s c (encI 0x0B (ed.zeroExtend 5) ra imm) ra (eKey ed.toNat) imm 16 (fun x => (rdE x ed.toNat).toNat)

/-! ### Branches (08 R179, R180) -/

/-- A compare-and-branch of form B. -/
def branch (s : State) (c : Ctx) (op : Nat) (ra rb : BitVec 5) (off : BitVec 16) (f : W32 → W32 → Bool) : Out :=
  runInsn s c (encB op ra rb off) [ra.toNat, rb.toNat] (fun t x =>
    .go (if f (rdS x ra.toNat) (rdS x rb.toNat) then jumpTo t c (x.pc + off) else t))

def execBeq (c : Ctx) (ra rb : BitVec 5) (off : BitVec 16) (s : State) : Out := branch s c 0x10 ra rb off (fun a b => a = b)
def execBne (c : Ctx) (ra rb : BitVec 5) (off : BitVec 16) (s : State) : Out := branch s c 0x11 ra rb off (fun a b => a ≠ b)
def execBlt (c : Ctx) (ra rb : BitVec 5) (off : BitVec 16) (s : State) : Out := branch s c 0x12 ra rb off (fun a b => a.slt b)
def execBge (c : Ctx) (ra rb : BitVec 5) (off : BitVec 16) (s : State) : Out := branch s c 0x13 ra rb off (fun a b => !a.slt b)
def execBltu (c : Ctx) (ra rb : BitVec 5) (off : BitVec 16) (s : State) : Out := branch s c 0x14 ra rb off (fun a b => a.ult b)
def execBgeu (c : Ctx) (ra rb : BitVec 5) (off : BitVec 16) (s : State) : Out :=
  branch s c 0x15 ra rb off (fun a b => !a.ult b)

/-- A jump that writes the link (PC + 1) mod 2^16 to rd (08 R179). -/
def linkTo (t : State) (x : Context) (c : Ctx) (rd : BitVec 5) (target : BitVec 16) : Eff :=
  if regReserved x rd.toNat then .stall
  else .go (jumpTo (setReg t c rd ((x.pc + 1).zeroExtend 32) 2) c target)

/-- JAL. -/
def execJal (c : Ctx) (rd : BitVec 5) (off : BitVec 21) (s : State) : Out :=
  runInsn s c (encJ 0x16 rd off) [] (fun t x => linkTo t x c rd (x.pc + off.truncate 16))

/-- JALR. -/
def execJalr (c : Ctx) (rd ra : BitVec 5) (imm : BitVec 16) (s : State) : Out :=
  runInsn s c (encI 0x17 rd ra imm) [ra.toNat] (fun t x =>
    linkTo t x c rd ((rdS x ra.toNat + imm.signExtend 32).truncate 16))

/-- BCR: CR[9:7] are reserved and never match (08 R193). -/
def execBcr (c : Ctx) (mask : BitVec 10) (off : BitVec 16) (s : State) : Out :=
  runInsn s c (encC 0x18 mask off) [] (fun t x =>
    .go (if x.cr &&& mask.zeroExtend 32 &&& 0x7F ≠ 0 then jumpTo t c (x.pc + off) else t))

/-- CRCLR. -/
def execCrclr (c : Ctx) (mask : BitVec 10) (s : State) : Out :=
  runInsn s c (encC 0x19 mask 0) [] (fun t _ =>
    .go (modCtx t c (fun x => { x with cr := x.cr &&& ~~~(mask.zeroExtend 32) })))

/-! ### Staging and issuing engine words (08 R185-R187) -/

/-- EFLDI. -/
def execEfldi (c : Ctx) (ed : BitVec 3) (pos : BitVec 7) (imm : BitVec 16) (s : State) : Out :=
  runInsn s c (encEI 0x20 ed pos imm) [eKey ed.toNat] (fun t x =>
    .go (setStage t c ed (setFld (rdE x ed.toNat) pos.toNat 16 imm.toNat) 1))

/-- EFLD. -/
def execEfld (c : Ctx) (ed : BitVec 3) (pos : BitVec 7) (ra lenm1 : BitVec 5) (s : State) : Out :=
  runInsn s c (encER 0x21 ed pos ra lenm1) [ra.toNat, eKey ed.toNat] (fun t x =>
    .go (setStage t c ed (setFld (rdE x ed.toNat) pos.toNat (lenm1.toNat + 1) (rdS x ra.toNat).toNat) 1))

/-- ERD. -/
def execErd (c : Ctx) (rd : BitVec 5) (es : BitVec 3) (k : BitVec 2) (s : State) : Out :=
  runInsn s c (encR 0x22 rd (es.zeroExtend 5) (k.zeroExtend 5) 0) [eKey es.toNat] (fun t x =>
    toReg t x c rd (BitVec.ofNat 32 (fld (rdE x es.toNat) (32 * k.toNat) 32)) 1)

/-- The number of words a context may queue for an engine (10 R234). -/
def queueLimit (s : State) (c : Ctx) (e : Eng) : Nat :=
  let p := s.cfg.limits.getD (engNum e) (64, 64)
  match c with
  | .c0 => p.1
  | .c1 => p.2

/-- A word placed at the tail of a queue (08 R186). -/
def pushWord (s : State) (c : Ctx) (e : Eng) (w : W128) : State :=
  let s := modCtx s c (fun x => setQueue x e (queueOf x e ++ [{ id := s.nextId, word := w }]))
  { s with nextId := s.nextId + 1 }

/-- ISSUE: the staged word with CTX replaced goes to the tail of its engine's queue for this context; a full queue stalls
(08 R186, R187, 10 R234). -/
def execIssue (c : Ctx) (ed : BitVec 3) (s : State) : Out :=
  runInsn s c (BitVec.ofNat 32 (0x23 * 2 ^ 26 + ed.toNat * 2 ^ 23)) [eKey ed.toNat] (fun t x =>
    let w := setBit (rdE x ed.toNat) 115 (ctxNum c = 1)
    match engOf (wEng w) with
    | none => .trap fOpcode
    | some e => if (queueOf x e).length ≥ queueLimit s c e then .stall else .go (pushWord t c e w))

/-! ### Flags (09 R206-R208) -/

/-- The flag index that an instruction's operand names. -/
def flagIdx (v : W32) : Nat := fld v 0 10

/-- FSET: takes part in the flag updates of its step. -/
def execFset (c : Ctx) (ra : BitVec 5) (s : State) : Out :=
  runInsn s c (encR 0x28 0 ra 0 0) [ra.toNat] (fun t x => .go (pushSet t (flagIdx (rdS x ra.toNat)) (some c)))

/-- FCLR: names the generation in [13:10]. -/
def execFclr (c : Ctx) (ra : BitVec 5) (s : State) : Out :=
  runInsn s c (encR 0x29 0 ra 0 0) [ra.toNat] (fun t x =>
    .go (pushClear t (flagIdx (rdS x ra.toNat)) (BitVec.ofNat 4 (fld (rdS x ra.toNat) 10 4))))

/-- A context begins to wait. -/
def waitOn (s : State) (c : Ctx) (w : CtxWait) : State := modCtx s c (fun x => { x with run := .waiting, wait := w })

/-- FWAIT: judged from the boundary that ends its step (09 R208). -/
def execFwait (c : Ctx) (ra : BitVec 5) (s : State) : Out :=
  runInsn s c (encR 0x2A 0 ra 0 0) [ra.toNat] (fun t x => .go (waitOn t c (.flag (flagIdx (rdS x ra.toNat)))))

/-- The word that FRD and the flag window read of a flag, without its marks (08 R182, 09 R218). -/
def flagWord (s : State) (f : Nat) : Nat :=
  let v := getFlag s f
  b2n v.set * 2 ^ 14 + v.gen.toNat * 2 ^ 10 + f

/-- FRD. -/
def execFrd (c : Ctx) (rd ra : BitVec 5) (s : State) : Out :=
  runInsn s c (encR 0x2B rd ra 0 0) [ra.toNat] (fun t x =>
    toReg t x c rd (BitVec.ofNat 32 (flagWord s (flagIdx (rdS x ra.toNat)))) 2)

/-! ### Special registers, fences, halting (08 R194-R196) -/

/-- Word n of the step parameter block in force; zero while none has been in force (11 R254). -/
def paramWord (s : State) (n : Nat) : W32 :=
  if s.sb.stA = .inForce then sget 0 s.sb.bufA n
  else if s.sb.stB = .inForce then sget 0 s.sb.bufB n
  else 0

/-- The contents of a special register (08 R194). -/
def srdValue (s : State) (x : Context) (c : Ctx) (n : Nat) : W32 :=
  if n = 0 then x.cr
  else if n = 1 then BitVec.ofNat 32 (ctxNum c)
  else if n = 2 then s.cfg.fid.zeroExtend 32
  else if n = 3 then s.chainAddr.zeroExtend 32
  else if n = 0x10 then s.sb.num.truncate 32
  else if n = 0x11 then (s.sb.num >>> 32).truncate 32
  else if n = 0x40 then s.tmr.time.truncate 32
  else if n = 0x41 then (s.tmr.time >>> 32).truncate 32
  else paramWord s (n - 0x20)

/-- SRD. -/
def execSrd (c : Ctx) (rd : BitVec 5) (num : BitVec 12) (s : State) : Out :=
  runInsn s c (encI 0x38 rd 0 (num.zeroExtend 16)) [] (fun t x => toReg t x c rd (srdValue (seqDone s) x c num.toNat) 2)

/-- A pending swap, and whether its set holds LAYOUT (10 R249). -/
def pendingSwap (s : State) : Option Bool :=
  if s.pstate = .pending then some (s.proof.recs.any (fun r => r.1 = 0x0D)) else none

/-- SFENCE: waits where a swap of its kind is pending, otherwise completes in 1 step (08 R196, 10 R249, R250). -/
def execSfence (c : Ctx) (s : State) : Out :=
  runInsn s c (encR 0x3C 0 0 0 0) [] (fun t _ => .go (if pendingSwap s = some false then waitOn t c .sfence else t))

/-- LFENCE. -/
def execLfence (c : Ctx) (s : State) : Out :=
  runInsn s c (encR 0x3E 0 0 0 0) [] (fun t _ => .go (if pendingSwap s = some true then waitOn t c .lfence else t))

/-- A full snapshot is due at a SNAPF (13 R283). -/
def fullDue (s : State) : Bool :=
  s.st.en && s.st.rstate ≠ .replaying &&
    (s.st.force || (s.st.cadence ≠ 0 && s.sb.num.toNat % s.st.cadence.toNat = 0))

/-- A P record is due at a SNAPF (13 R283). -/
def pDue (s : State) : Bool :=
  !fullDue s && s.st.en && s.st.rstate ≠ .replaying && bit s.st.cmask 4 && s.st.pcadence ≠ 0 &&
    s.sb.num.toNat % s.st.pcadence.toNat = 0

/-- SNAPF: waits where a snapshot or a P record is due (13 R283). -/
def execSnapf (c : Ctx) (ra : BitVec 5) (s : State) : Out :=
  let q := seqDone s
  runInsn s c (encR 0x3D 0 ra 0 0) [ra.toNat] (fun t x =>
    .go (if fullDue q || pDue q then waitOn t c (.snapf (fullDue q) ((rdS x ra.toNat).truncate 16)) else t))

/-- HALT. -/
def execHalt (c : Ctx) (s : State) : Out :=
  runInsn s c (encR 0x3F 0 0 0 0) [] (fun t _ => .go (modCtx t c (fun x => { x with run := .halted })))

/-- CSTART: only C0 starts C1, and only from HALTED (08 R195). -/
def execCstart (c : Ctx) (ra : BitVec 5) (s : State) : Out :=
  runInsn s c (encR 0x3F 0 ra 0 1) [ra.toNat]
    (fun t x => .go (modCtx t .c1 (fun y =>
      { y with pc := (rdS x ra.toNat).truncate 16, run := .running, nextIssue := s.steps + 1 })))
    ([], if c = .c1 || s.c1.run ≠ .halted then some fIllegal else none)

/-- FW_ILLEGAL: the word at the PC has an illegal encoding (08 R182, R183). -/
def execFwIllegal (c : Ctx) (w : BitVec 32) (s : State) : Out :=
  guarded (canIssue s c && fetch s (getCtx s c) = some w && !legalWord w) s (trapped s c fIllegal)

/-- FW_PC_RANGE: the PC lies beyond the loaded image (08 R179, R183). -/
def execFwPcRange (c : Ctx) (s : State) : Out :=
  guarded (canIssue s c && (fetch s (getCtx s c)).isNone) s (trapped s c fPcRange)

/-- The observed generation of a satisfied SALL is cleared in the next step, and the word may complete (09 R216). -/
def takeSall (s : State) (r : Running) : State :=
  match r.job with
  | .sall _ _ clr (some gs) =>
    setJob (if clr then gs.foldl (fun s e => pushClear s e.1 e.2) s else s) r.id .done
  | _ => s

/-- WAIT_SATISFIED: a wait that a step boundary found satisfied is over (09 R208): the context goes on, the head word is
ready, or the SALL clears and completes. -/
def execWaitSatisfied (w : WaitRef) (s : State) : Out :=
  if live s then
    match w with
    | .fwait c =>
      match (getCtx s c).wait with
      | .flagSat _ _ =>
        .next (modCtx s c (fun x => match x.run with
          | .held => { x with saved := .running, wait := .none }
          | _ => { x with run := .running, wait := .none }))
      | _ => .next s
    | .head e c =>
      match headWait (getCtx s c) e with
      | .satisfied g => .next (modCtx s c (fun x => setHeadWait x e (.ready g)))
      | _ => .next s
    | .sall c =>
      match (runningOf s .sync c).find? (fun r => match r.job with | .sall _ _ _ (some _) => true | _ => false) with
      | some r => .next (takeSall s r)
      | none => .next s
  else .next s

/-- WORD_COMPLETE: a running word whose last write is complete leaves, and its completion flag is set (01 R20); what a word that has met
another on a place has written is unspecified (00 R8). -/
def execWordComplete (id : Nat) (s : State) : Out :=
  match findRun s id with
  | some r =>
    guarded (live s && r.job = .done && !waitsRise s r) s
      (let t := progress { leaveArray (dropRun s id) r.eng id with stepDone := s.stepDone ++ [r] }
       let t := if r.clash then freeFeet t r.wrote else t
       if wSV r.word then pushSet t (sFlag r.word) (some r.ctx) else t)
  | none => .next s

end Sys2Proof.Machine
end

