-- ==== Sys2Proof/Machine/Irash.lean ====
section
/-!
DEFINITION. The Irash stream and its records, the Proof set and the set swap (10 R227-R251; 12 R270, R273).
-/

namespace Sys2Proof.Machine

/-! ### Streams and records (10 R227-R229) -/

/-- The management reporter (14 R305). -/
def mgmtRep : Nat := 12

/-- Bytes that the Proof set holds at most. -/
def proofCap : Nat := 262144

/-- END's TYPE. -/
def recEnd : Nat := 0xFF

/-- The 64-bit word at a byte offset of a stream. -/
def streamWord (bs : Sparse Byte) (off : Nat) : W64 := BitVec.ofNat 64 (ofLE (sgets 0 bs off 8))

/-- The payload words of the record at `off`. -/
def payloadWords (bs : Sparse Byte) (off : Nat) : List W64 :=
  (List.range (fld (streamWord bs off) 32 32 / 8)).map (fun i => streamWord bs (off + 8 + 8 * i))

/-- The least and greatest payload length of a type, and the size of its entries (10 R229). -/
def recLen (t : Nat) : Option (Nat × Nat × Nat) :=
  match t with
  | 0x01 => some (64, 64, 64) | 0x02 => some (16, 8192, 16) | 0x03 => some (8, 8, 8) | 0x04 => some (8, 8, 8)
  | 0x05 => some (48, 48, 48) | 0x06 => some (0, 8192, 8) | 0x07 => some (8, 16, 8) | 0x08 => some (32, 64, 32)
  | 0x09 => some (128, 128, 128) | 0x0A => some (8, 8, 8) | 0x0B => some (8, 8, 8) | 0x0C => some (8, 8, 8)
  | 0x0D => some (8, 65544, 8) | 0x0E => some (8, 8, 8) | 0x0F => some (8, 8, 8) | 0xFF => some (8, 8, 8)
  | _ => none

/-- LEN is one that the type may have; a reserved type has no range of its own. -/
def lenOk (t n : Nat) : Bool :=
  n % 8 = 0 && (match recLen t with | some (lo, hi, u) => lo ≤ n && n ≤ hi && n % u = 0 | none => true)

/-- The bits of payload word `i` that a type names; every other bit is reserved (10 R230-R244, R228). -/
def recMask (t i : Nat) : Nat :=
  match t with
  | 0x01 => 0x3FFFFF
  | 0x02 => if i % 2 = 0 then 0x1FF else 0xFFFFFFFFFC000000
  | 0x03 => 0x77
  | 0x04 => 0x1FFF
  | 0x05 => 0x3FFF
  | 0x06 => 0x3FFFFFFF
  | 0x07 => 0x3FF
  | 0x08 => if i % 4 = 0 then 0xFFFFFFFFFFFFFFFF else if i % 4 = 1 then 0xFFFFFF0000000007
            else if i % 4 = 2 then 0xFFFFFFFFFFFF else 0xFFFFFFFFFFE00000
  | 0x09 => 0xFFFFFFFFFFFFFFFF
  | 0x0A => 1
  | 0x0B => 0xFB
  | 0x0C => 0x1FFFFF
  | 0x0D => if i = 0 then 0xFFFF000F else 0xFFFFFFFFFFFFFFF0
  | 0x0E => 0xFFFFFF
  | 0x0F => 0x3FFFF
  | _ => 0xFFFFFFFFFFFFFFFF

/-- Some reserved bit of a payload is set. -/
def resvSet (t : Nat) : Nat → List W64 → Bool
  | _, [] => false
  | i, w :: ws => (w &&& ~~~ BitVec.ofNat 64 (recMask t i)) != 0 || resvSet t (i + 1) ws

/-- Numbers in strictly ascending order. -/
def rising : List Nat → Bool
  | a :: b :: t => a < b && rising (b :: t)
  | _ => true

/-- Numbers that are all distinct. -/
def distinctNat : List Nat → Bool
  | [] => true
  | a :: t => !t.contains a && distinctNat t

/-- Rows and columns of a gang SHAPE (10 R232). -/
def shapeDims (shape : Nat) : Nat × Nat :=
  match shape with
  | 0 => (1, 1) | 1 => (1, 2) | 2 => (2, 1) | 3 => (2, 2) | 4 => (2, 4) | _ => (0, 0)

/-- Entry `c` of a FAULTMAP record (10 R238). -/
def faultEntry (ws : List W64) (c : Nat) : Nat := fld (ws.getD (c / 16) 0) (4 * (c % 16)) 4

/-- Is a FAULTMAP entry one that its code may have (10 R238, 14 R310)? -/
def faultEntryOk (c e : Nat) : Bool :=
  if !codeAssigned c then e = 0xF
  else if c = fWire || c = fMismatch then e = 0xF || e = 3
  else e ≤ 4 || e = 0xF

/-- Words in groups of `n`. -/
def groups (n : Nat) : Nat → List W64 → List (List W64)
  | 0, _ => []
  | k + 1, ws => if ws.isEmpty then [] else ws.take n :: groups n k (ws.drop n)

/-- The entries of a PARTNER record, four words each (10 R237). -/
def partnersOf (ws : List W64) : List Partner :=
  (groups 4 ws.length ws).map (fun g =>
    let w (i : Nat) : W64 := g.getD i 0
    { serial := w 0, pfid := BitVec.ofNat 24 (fld (w 1) 40 24), accept := bit (w 1) 2, pidx := fld (w 1) 0 2,
      rbase := fld (w 2) 0 48, sfid := BitVec.ofNat 24 (fld (w 3) 40 24), rlen := fld (w 3) 21 19 })

/-- The entries of a DOMAIN record: PIDX and PWRDOM (10 R236). -/
def domainsOf (ws : List W64) : List (Nat × Byte) := ws.map (fun w => (fld w 8 2, BitVec.ofNat 8 (fld w 0 8)))

/-- The partitions of a PARTITION record: BASE and NPAGES (10 R230). -/
def partsOf (ws : List W64) : List (Nat × Nat) := ws.map (fun w => (fld w 0 11, fld w 11 11))

/-- A field of a payload lies outside its range or encoding (10 R232-R244). -/
def badValue (t : Nat) (ws : List W64) : Bool :=
  let w := ws.getD 0 0
  match t with
  | 0x03 =>
    let d := shapeDims (fld w 0 3)
    fld w 0 3 > 4 || fld w 4 1 ≥ d.1 || fld w 5 2 ≥ d.2
  | 0x04 => !bit w 0
  | 0x05 => ws.any (fun v => fld v 0 7 = 0 || fld v 0 7 > 64 || fld v 7 7 = 0 || fld v 7 7 > 64)
  | 0x06 => !rising (ws.map (fun v => fld v 0 10)) || ws.any (fun v => fld v 10 20 = 0xFFFFF)
  | 0x07 => (domainsOf ws).any (fun d => d.1 > 1) || !distinctNat ((domainsOf ws).map Prod.fst)
  | 0x08 => (partnersOf ws).any (fun p => p.pidx > 1 || p.rbase % 2097152 ≠ 0 || p.rlen = 0) ||
            !distinctNat ((partnersOf ws).map (fun p => p.pidx))
  | 0x09 => (List.range 256).any (fun c => !faultEntryOk c (faultEntry ws c))
  | 0x0C => fld w 0 16 >>> (fld w 16 4 + 1) ≠ 0 || (!bit w 20 && (fld w 16 4 ≠ 0 || fld w 0 16 ≠ 0))
  | 0x0D => fld w 16 16 % 8 ≠ 0 || fld w 16 16 + 8 * (ws.length - 1) > 65536 || !rising (ws.tail.map (fun v => fld v 48 16))
  | 0x0F => fld w 0 18 < 25000 || fld w 0 18 > 200000
  | _ => false

/-- No two partitions share a page, and none passes the last one (10 R230). -/
def partsOk (pages : Nat) : List (Nat × Nat) → Bool
  | [] => true
  | p :: ps => (p.2 = 0 || p.1 + p.2 ≤ pages) && ps.all (fun q => !overlap p.1 p.2 q.1 q.2) && partsOk pages ps

/-- A payload judged on its own, in table order (10 R248 pass 1). -/
def payloadFault (f : Features) (t : Nat) (ws : List W64) : Option Nat :=
  let w := ws.getD 0 0
  if resvSet t 0 ws then some 0x07
  else if badValue t ws then some 0x08
  else if t = 0x03 && fld w 0 3 ≠ 0 && !f.gang then some 0x0B
  else if t = 0x01 && !partsOk f.pages (partsOf ws) then some 0x0C
  else if t = 0x0E && (fld w 0 4 ≠ 0 || fld w 0 24 = 0xFFFFF0) then some 0x0E
  else none

/-- A header judged as soon as it has arrived, in table order (10 R248 pass 1). -/
def headerFault (recs : List (Nat × Nat)) (h : W64) : Option Nat :=
  let t := fld h 0 8
  if !lenOk t (fld h 32 32) then some 0x03
  else if (recLen t).isNone then some 0x04
  else if fld h 8 8 ≠ 1 then some 0x05
  else if recs.any (fun r => r.1 = t) then some 0x06
  else if fld h 16 16 ≠ 0 then some 0x07
  else none

/-- What the records judged so far give: all in order as far as they go, END complete at an offset, or a failure with its reason,
type and header offset. -/
inductive Scan where
  | more (st : Stream)
  | ended (st : Stream)
  | bad (st : Stream) (reason type off : Nat)

/-- The records that have arrived are judged in stream order; `n` bounds their number. -/
def scanRecs (f : Features) : Nat → Stream → Scan
  | 0, st => .more st
  | n + 1, st =>
    if st.pos + 8 > st.len then .more st
    else
      let h := streamWord st.bytes st.pos
      let t := fld h 0 8
      match headerFault st.recs h with
      | some r => .bad st r t st.pos
      | none =>
        if st.pos + 8 + fld h 32 32 > st.len then .more st
        else match payloadFault f t (payloadWords st.bytes st.pos) with
          | some r => .bad st r t st.pos
          | none =>
            let st := { st with recs := st.recs ++ [(t, st.pos)], pos := st.pos + 8 + fld h 32 32 }
            if t = recEnd then .ended st else scanRecs f n st

/-- The offset of a type's header in a stream. -/
def recAt (st : Stream) (t : Nat) : Option Nat := (st.recs.find? (fun r => r.1 = t)).map Prod.snd

/-- The payload words of a type's record; none where it is absent. -/
def recWords (st : Stream) (t : Nat) : Option (List W64) := (recAt st t).map (payloadWords st.bytes)

/-! ### The configuration that a set gives (10 R229-R244) -/

/-- The entries of a HANDLES record (10 R231). -/
def handleEntries : List W64 → List (Nat × W64)
  | a :: b :: t => (fld a 0 9, b) :: handleEntries t
  | _ => []

/-- FAULTMAP as a table. -/
def faultTable (ws : List W64) : Sparse (BitVec 4) :=
  (List.range 256).foldl (fun m c => sput 0xF m c (BitVec.ofNat 4 (faultEntry ws c))) []

/-- The records of a stream that govern the core, defaults applied. -/
def cfgOf (pages : Nat) (st : Stream) : Cfg :=
  let d := Cfg.default pages
  let get (t : Nat) : Option (List W64) := recWords st t
  let one (t : Nat) (v : W64) : W64 := ((get t).getD []).getD 0 v
  let gang := one 0x03 0
  let rise := one 0x0B 1
  let cm := one 0x0C 0
  { parts := (match get 0x01 with | some ws => partsOf ws | none => d.parts),
    shape := fld gang 0 3, posr := fld gang 4 1, posc := fld gang 5 2,
    formats := BitVec.ofNat 13 (fld (one 0x04 0x1FFF) 0 13),
    limits := (match get 0x05 with | some ws => ws.map (fun w => (fld w 0 7, fld w 7 7)) | none => d.limits),
    flagmap := ((get 0x06).getD []).map (fun w => (fld w 0 10, BitVec.ofNat 20 (fld w 10 20))),
    domain := domainsOf ((get 0x07).getD []), partner := partnersOf ((get 0x08).getD []),
    faultmap := (match get 0x09 with | some ws => faultTable ws | none => d.faultmap),
    chk := bit (one 0x0A 1) 0, rlen := BitVec.ofNat 2 (fld rise 0 2), sfen := bit rise 3,
    sfl := BitVec.ofNat 4 (fld rise 4 4), ilMode := bit cm 20, plen := fld cm 16 4, pat := BitVec.ofNat 16 (fld cm 0 16),
    fid := BitVec.ofNat 24 (fld (one 0x0E 0) 0 24), freq := fld (one 0x0F 100000) 0 18 }

/-! ### The Proof set (10 R245, R246) -/

/-- A set command or window write refused (10 R245). -/
def setRefused (s : State) : State := report s fSetRefused mgmtRep none

/-- The Proof set fails: INVALID, SET_REJECT and SET_INVALID (10 R248). -/
def setFail (s : State) (reason type roff : Nat) : State :=
  report { s with pstate := .invalid, setRej := BitVec.ofNat 32 (reason * 2 ^ 24 + type * 2 ^ 16 + roff) } fSetInvalid mgmtRep none

/-- A failure that names a record by its type: 0xFFFF where it is absent (10 R248). -/
def setFailAt (s : State) (reason type : Nat) : State :=
  setFail s reason type (match recAt s.proof type with | some o => o / 8 | none => 0xFFFF)

/-- BEGIN: the Proof set's bytes are cleared (10 R245). -/
def beginSet (s : State) : State :=
  if s.pstate = .empty || s.pstate = .loading || s.pstate = .valid || s.pstate = .invalid then
    { s with pstate := .loading, proof := Stream.none }
  else setRefused s

/-- LOADED or any later state. -/
def loadedOn (s : State) : Bool := s.core = .loaded || s.core = .ready || s.core = .running || s.core = .held

/-- SWAP: pending in state VALID, from LOADED onward (10 R249). -/
def swapSet (s : State) : State :=
  if s.pstate = .valid && loadedOn s then { s with pstate := .pending } else setRefused s

/-- CANCEL (10 R251). -/
def cancelSet (s : State) : State := if s.pstate = .pending then { s with pstate := .valid } else setRefused s

/-- A write of SET_CTL: several commands at once are refused (10, "Set registers"). -/
def writeSetCtl (s : State) (v : W32) : State :=
  match fld v 0 1, fld v 2 2 with
  | 0, 0 => s
  | 1, 0 => beginSet s
  | 0, 1 => swapSet s
  | 0, 2 => cancelSet s
  | _, _ => setRefused s

/-- Bytes of a write received: those that the Proof set can hold. -/
def receiveBytes (st : Stream) (bs : List Byte) : Stream :=
  let part := bs.take (proofCap - st.len)
  { st with bytes := sputs 0 st.bytes st.len part, len := st.len + part.length }

/-- A stream without the bytes from `n` on. -/
def cutStream (st : Stream) (n : Nat) : Stream := { st with bytes := st.bytes.filter (fun e => e.1 < n), len := n }

/-- A write to the Proof set window (10 R246, R248): the records are judged as they arrive; bytes beyond END are not received. DESIGN
CHOICE (log 101): where a record fails in the middle of a write, the write's bytes beyond it are stored and counted. -/
def proofWrite (s : State) (off : Nat) (bs : List Byte) : State :=
  if s.pstate ≠ .loading then setRefused s
  else if off ≠ s.proof.len then setFail s 0x01 0 0
  else
    let total := s.proof.len + bs.length
    match scanRecs s.features (total + 1) (receiveBytes s.proof bs) with
    | .bad st r t o => setFail { s with proof := st } r t (o / 8)
    | .ended st =>
      let t := { s with proof := cutStream st st.pos, pstate := .checking }
      if total > st.pos then setRefused t else t
    | .more st =>
      let t := { s with proof := st }
      if total > proofCap then setFail t 0x02 0 0 else t

/-- PROOF_WINDOW_WRITE. -/
def execProofWindowWrite (off : Nat) (bs : List Byte) (s : State) : Out :=
  hosted s (!bs.isEmpty && off < proofCap) (.write (0x400000 + off) bs) (proofWrite s off bs)

/-- BEGIN. -/
def execBegin (s : State) : Out := hosted s true (regWrite 0x400 1) (beginSet s)
/-- SWAP. -/
def execSwap (s : State) : Out := hosted s true (regWrite 0x400 4) (swapSet s)
/-- CANCEL. -/
def execCancel (s : State) : Out := hosted s true (regWrite 0x400 8) (cancelSet s)

/-! ### Checking after END (10 R248 pass 2) -/

/-- END's CRC is that of every byte before it (10 R228). -/
def crcOk (st : Stream) : Bool :=
  fld (streamWord st.bytes (st.len - 8)) 32 32 = (crc32c (sgets 0 st.bytes 0 (st.len - 4))).toNat

/-- The table of handles that a HANDLES record leaves, entry by entry, or none where an entry fails (10 R231). -/
def installHandles (pages : Nat) (parts : List (Nat × Nat)) : Sparse Handle → List (Nat × W64) → Option (Sparse Handle)
  | hs, [] => some hs
  | hs, (h, w) :: t =>
    let base := fld w 37 11
    let np := fld w 26 11
    let part := fld w 48 3
    if !bit w 59 || (allocFault pages parts hs h base np part).isSome then none
    else
      installHandles pages parts
        (sput Handle.zero hs h (allocEntry (sget Handle.zero hs h) base np part (bit w 58) (bit w 57) (bit w 56))) t

/-- The entries of the set's HANDLES record. -/
def setHandles (st : Stream) : Option (List (Nat × W64)) := (recWords st 0x02).map handleEntries

/-- The first condition of pass 2 that fails: reason, and the type of the record named (0 where none is). -/
def crossFault (s : State) : Option (Nat × Nat) :=
  let st := s.proof
  let c := cfgOf (pageCount s) st
  let domOf (p : Partner) : Option Byte := (c.domain.find? (fun d => d.1 = p.pidx)).map Prod.snd
  if !crcOk st then some (0x09, recEnd)
  else if (recAt st 0x0E).isNone || (recAt st 0x0F).isNone then some (0x0A, 0)
  else if c.domain.any (fun d => !c.partner.any (fun p => p.pidx = d.1)) then some (0x08, 0x07)
  else if (match setHandles st with
      | some es => (installHandles (pageCount s) c.parts [] es).isNone
      | none => false) then some (0x0D, 0x02)
  else if c.partner.any (fun p => (domOf p).isNone) then some (0x0F, 0x08)
  else if c.partner.any (fun p => p.serial = s.serial || p.pfid = c.fid) then some (0x10, 0x08)
  else if c.partner.any (fun p => domOf p = some s.pwrdom && !p.accept) then some (0x11, 0x08)
  else none

/-- PROOF_CHECK_DONE: the Proof set becomes VALID or INVALID. -/
def execProofCheckDone (s : State) : Out :=
  guarded (live s && s.pstate = .checking) s
    (match crossFault s with
     | none => { s with pstate := .valid }
     | some (r, 0) => setFail s r 0 0
     | some (r, t) => setFailAt s r t)

/-! ### The swap (10 R247-R251) -/

/-- RUNNING or HELD. -/
def started (s : State) : Bool := s.core = .running || s.core = .held

/-- A context waits in a fence of a kind. -/
def inFence (w : CtxWait) (x : Context) : Bool := x.run = .waiting && x.wait = w

/-- Every engine queue of a context is empty. -/
def queuesEmpty (x : Context) : Bool := allEngs.all (fun e => (queueOf x e).isEmpty)

/-- The fence that admits the pending set: LFENCE for a set that holds LAYOUT, SFENCE for any other (10 R249). -/
def fenceKind (s : State) : CtxWait := if pendingSwap s = some true then .lfence else .sfence

/-- The quiescence of 10 R250 and, for LFENCE, ORC 0 (12 R273). -/
def quiet (s : State) : Bool :=
  let k := fenceKind s
  (inFence k s.c0 || inFence k s.c1) && (inFence k s.c0 || s.c0.run = .halted) && (inFence k s.c1 || s.c1.run = .halted) &&
    queuesEmpty s.c0 && queuesEmpty s.c1 && s.running.isEmpty && s.outst.isEmpty && (k ≠ .lfence || orc s = 0)

/-- A pending swap may be judged now, at a step boundary (10 R249, R250; 12 R273). -/
def swapDue (s : State) : Bool :=
  s.pstate = .pending && atBoundary s && (s.core = .loaded || s.core = .ready || (started s && quiet s))

/-- The handle table freed, keeping every GEN, with word 1 of each entry cleared (10 R231). -/
def freedHandles (hs : Sparse Handle) : Sparse Handle :=
  (List.range handleCount).foldl (fun m h =>
    let e := sget Handle.zero m h
    sput Handle.zero m h { e with valid := false, vstep := 0, vsgen := 0, vvalid := false }) hs

/-- The handle table that the set would leave; none where an entry of its HANDLES record fails (which stage one excludes). -/
def handlesAfter (s : State) (c : Cfg) : Option (Sparse Handle) :=
  match setHandles s.proof with
  | some es => installHandles (pageCount s) c.parts (freedHandles s.handles) es
  | none => some s.handles

/-- A valid handle's pages lie outside the set's partition (10 R248, PART_HANDLE). -/
def strayHandle (s : State) (c : Cfg) : Bool :=
  match handlesAfter s c with
  | none => true
  | some hs => (List.range handleCount).any (fun h =>
      let e := sget Handle.zero hs h
      e.valid && !inPart c.parts e.part.toNat e.base.toNat e.npages.toNat)

/-- The stage-two conditions, in table order (10 R248): reason and the record named. -/
def liveFault (s : State) : Option (Nat × Nat) :=
  let c := cfgOf (pageCount s) s.proof
  if started s && (recAt s.proof 0x02).isSome then some (0x20, 0x02)
  else if started s && (c.shape ≠ s.cfg.shape || c.posr ≠ s.cfg.posr || c.posc ≠ s.cfg.posc) then some (0x21, 0x03)
  else if started s && c.fid ≠ s.cfg.fid then some (0x22, 0x0E)
  else if strayHandle s c then some (0x23, 0x01)
  else if started s && (match recWords s.proof 0x0D with
      | some ws => fld (ws.getD 0 0) 0 4 ≠ (s.epoch + 1).toNat
      | none => false) then some (0x24, 0x0D)
  else none

/-- Checked mode turned on: every page OPEN; turned off: no page state; else unchanged (10 R239). -/
def swapMode (s : State) (chk : Bool) : State :=
  if chk = s.checked then s
  else { s with checked := chk, pages := if chk then sfill PageSt.empty [] 0 { st := 3, prod := 0 } (pageCount s) else [] }

/-- Pages of the valid entries of a table emptied (10 R231). -/
def emptyAll (s : State) (hs : Sparse Handle) : State :=
  hs.foldl (fun s e => if e.2.valid then emptyPages s e.2.base.toNat e.2.npages.toNat else s) s

/-- A HANDLES record installed: the pages that it frees or allocates end EMPTY (10 R231). -/
def swapHandles (s : State) (hs : Sparse Handle) : State := { emptyAll (emptyAll s s.handles) hs with handles := hs }

/-- Bytes of data memory set at a step boundary: the step that follows reads them. -/
def dmemPut (s : State) (a : Nat) (bs : List Byte) : State :=
  { s with dmem := sputs 0 s.dmem a bs, dmemStep := s.dmemStep.filter (fun d => d.addr < a || a + bs.length ≤ d.addr) }

/-- A LAYOUT record installed: the epoch, and its entries in data memory (10 R242, 12 R270); a core that a restore has loaded keeps the
captured epoch, from the load of its class S on (12 R274, 13 R301). -/
def swapLayout (s : State) (ws : List W64) : State :=
  let h := ws.getD 0 0
  let captured := s.st.rstate = .loaded || (s.st.rstate = .loading && s.st.restore.stage = 2)
  dmemPut { s with epoch := if captured then s.epoch else BitVec.ofNat 4 (fld h 0 4) } (fld h 16 16) (ws.tail.flatMap (fun w => toLE 8 w.toNat))

/-- LOST and PARKED cleared on every flag (09 R219). -/
def clearMarks (s : State) : State :=
  { s with flags := (List.range 1024).foldl (fun m f =>
      sput Flag.zero m f { sget Flag.zero m f with lost := false, parked := false }) s.flags }

/-- A same-domain partner is installed by override: PARTNER_SAME_DOMAIN and WARN_DOMAIN (10 R248). -/
def warnDomain (s : State) : State :=
  if s.cfg.partner.any (fun p => s.cfg.domain.any (fun d => d.1 = p.pidx && d.2 = s.pwrdom)) then
    report { s with warnDom := true } fSameDomain mgmtRep none
  else s

/-- The two sets exchanged: a former Bake set with a stream returns VALID, without one the Proof set is EMPTY (10 R247). -/
def exchangeSets (s : State) : State :=
  { s with bakeOn := true, bake := s.proof, proof := if s.bakeOn then s.bake else Stream.none,
           pstate := if s.bakeOn then .valid else .empty }

/-- The swap takes effect (10 R247, R251). -/
def takeSwap (s : State) : State :=
  let st := s.proof
  let c := cfgOf (pageCount s) st
  let hs := handlesAfter s c
  let s := swapMode (exchangeSets { s with cfg := c }) c.chk
  let s := match recAt st 0x02, hs with
    | some _, some hs => swapHandles s hs
    | _, _ => s
  let s := if (recAt st 0x06).isSome then clearMarks s else s
  let s := if (recAt st 0x0C).isSome then { s with ilPtr := 0 } else s
  let s := match recWords st 0x0D with
    | some ws => swapLayout s ws
    | none => s
  warnDomain { s with core := if s.core = .loaded then .ready else s.core }

/-- A context's set or layout fence completes at a boundary, with a CR bit where one is given; it may issue in the step that follows. -/
def endFence (w : CtxWait) (cr : Option Nat) (steps : Nat) (x : Context) : Context :=
  if inFence w x then
    let y := { resume x with nextIssue := steps }
    match cr with
    | some b => setCR y b
    | none => y
  else x

/-- Both contexts' fences of a kind complete. -/
def endSetFences (s : State) (w : CtxWait) (cr : Option Nat) : State :=
  woke s (modCtx (modCtx s .c0 (endFence w cr s.steps)) .c1 (endFence w cr s.steps))

/-- SET_SWAP: the stage-two checks run; the swap takes effect, or is rejected and both sets stay as they are (10 R250). -/
def execSetSwap (s : State) : Out :=
  guarded (live s && swapDue s) s
    (match liveFault s with
     | some (r, t) => endSetFences (setFailAt s r t) (fenceKind s) (some 5)
     | none => endSetFences (takeSwap s) (fenceKind s) (some 4))

/-- A fence that lost its pending swap completes with no CR bit set (10 R250). -/
def lostFences (s : State) : State :=
  let s := if pendingSwap s = some false then s else endSetFences s .sfence none
  if pendingSwap s = some true then s else endSetFences s .lfence none

end Sys2Proof.Machine
end

