-- ==== Sys2Proof/Machine/Loader.lean ====
section
/-!
DEFINITION. The firmware loader (08 R201-R204; 17 R378-R381, R389) and the host's writes to data memory (17 R390).
-/

namespace Sys2Proof.Machine

/-- The loader's state changed. -/
def modFw (s : State) (f : Fw → Fw) : State := { s with fw := f s.fw }

/-- A firmware command or window write refused (08 R204). -/
def fwRefused (s : State) : State := report s fFwRefused mgmtRep none

/-- A download is under way: from LOAD until LOADED or FAILED (17 R389). -/
def loading (s : State) : Bool := s.fw.st = .busy || s.fw.st = .receiving

/-- A write of FW_LEN (17 R380). -/
def writeFwLen (s : State) (v : W32) : State :=
  if s.core ≠ .addressed || loading s then fwRefused s else modFw s (fun f => { f with len := v })

/-- FW_CTL.LOAD: both memories are zeroed, while FW_STATUS shows BUSY (08 R203, 17 R378). -/
def startLoad (s : State) : State :=
  if s.core ≠ .addressed then fwRefused s
  else
    { modFw s (fun f => { f with st := .busy, reason := 0, rcvd := 0, crc := 0, tag := 0, buf := [] }) with
      imem := [], imemLen := 0, dmem := [], dmemStep := [] }

/-- A download fails: the reason is recorded, and the contents of both memories are unspecified (08 R203; log 2). -/
def loadFail (s : State) (reason : BitVec 4) : State :=
  report { modFw s (fun f => { f with st := .failed, reason := reason, buf := [] }) with
    freeCtr := s.freeCtr + 1, imem := bounded 0 65536 (Config.freeWords s.freeCtr), imemLen := 0,
    dmem := bounded 0 65536 (Config.freeCells s.freeCtr) } fFwLoadFail mgmtRep none

/-- A little-endian number of the image received. -/
def imageNum (f : Fw) (off n : Nat) : Nat := ofLE (sgets 0 f.buf off n)

/-- IMEM_LEN, ENTRY and DMEM_LEN (08 R201). -/
def imemLenOf (f : Fw) : Nat := imageNum f 8 4
def entryOf (f : Fw) : Nat := imageNum f 12 4
def dmemLenOf (f : Fw) : Nat := imageNum f 16 4

/-- The first header check that fails (08 R203, in table order): 1 BAD_MAGIC, 2 BAD_VERSION, 3 BAD_HEADER, 4 BAD_LENGTH,
5 BAD_ENTRY. -/
def headerReason (f : Fw) : Option (BitVec 4) :=
  if imageNum f 0 4 ≠ 0x46375448 then some 1
  else if imageNum f 4 2 ≠ 1 then some 2
  else if imageNum f 6 2 ≠ 0 || imageNum f 28 36 ≠ 0 then some 3
  else if imemLenOf f % 4 ≠ 0 || imemLenOf f < 4 || imemLenOf f > 262144 || dmemLenOf f % 4 ≠ 0 || dmemLenOf f > 65536 ||
      f.len.toNat ≠ 68 + imemLenOf f + dmemLenOf f then some 4
  else if entryOf f ≥ imemLenOf f / 4 then some 5
  else none

/-- The image's stored CRC. -/
def storedCrc (f : Fw) : W32 := BitVec.ofNat 32 (imageNum f (f.len.toNat - 4) 4)

/-- The image loaded: the core enters LOADED (08 R201, R203). -/
def loadImage (s : State) : State :=
  let f := s.fw
  let il := imemLenOf f
  { modFw s (fun g => { g with st := .loaded, crc := storedCrc f, buf := [] }) with
    imem := sputs 0 [] 0 ((List.range (il / 4)).map (fun i => BitVec.ofNat 32 (imageNum f (64 + 4 * i) 4))),
    imemLen := il / 4, entry := BitVec.ofNat 16 (entryOf f),
    dmem := sputs 0 [] 0 (sgets 0 f.buf (64 + il) (dmemLenOf f)), core := .loaded }

/-- The whole image has been received: its CRC is judged (08 R203). -/
def finishLoad (s : State) : State :=
  if s.fw.rcvd < s.fw.len.toNat then s
  else if crc32c (sgets 0 s.fw.buf 0 (s.fw.len.toNat - 4)) ≠ storedCrc s.fw then loadFail s 7
  else loadImage s

/-- Image bytes taken in their order (08 R203): after byte 63 the header is checked, after the last byte the CRC. A write that brings byte 63
and also passes FW_LEN fails for its header first, where that fails, in the order of the reasons (log 104). -/
def takeImage (s : State) (off : Nat) (bs : List Byte) : State :=
  if off ≠ s.fw.rcvd then loadFail s 6
  else
    let n := off + bs.length
    let t := modFw s (fun f => { f with buf := sputs 0 f.buf off bs, rcvd := min n f.len.toNat })
    let whole := s.fw.rcvd < 64 && n ≥ 64
    match if whole then headerReason t.fw else none with
    | some r => loadFail t r
    | none =>
      if n > s.fw.len.toNat then loadFail s 6
      else finishLoad (if whole then modFw t (fun f => { f with tag := BitVec.ofNat 64 (imageNum f 20 8) }) else t)

/-- A write to the instruction memory window (08 R203, R204): held during BUSY, refused where no download is under way. `resp` is
the response that a held write is answered with. -/
def imemWrite (s : State) (off : Nat) (bs : List Byte) (resp : List Byte) : State :=
  if s.core ≠ .addressed || !loading s then fwRefused s
  else if s.fw.st = .busy then modFw s (fun f => { f with held := f.held ++ [{ off := off, data := bs, resp := resp }] })
  else takeImage s off bs

/-- The symbols of a frame: K is 1 on the first alone (15 R327). -/
def frameSyms : List Byte → List (BitVec 9)
  | [] => []
  | b :: bs => (b.zeroExtend 9 ||| 0x100) :: bs.map (fun x => x.zeroExtend 9)

/-- A frame leaves on MC_OUT. -/
def sendFrame (s : State) (f : List Byte) : State := { s with mcOut := s.mcOut ++ frameSyms f }

/-- A held write is taken and answered (08 R203). -/
def takeHeld (s : State) (h : FwHeld) : State := sendFrame (imemWrite s h.off h.data []) h.resp

/-- Zeroing ends: an FW_LEN below 72 fails at once; the writes held are then taken in their order (08 R203). -/
def zeroDone (s : State) : State :=
  let hs := s.fw.held
  let s := modFw s (fun f => { f with held := [] })
  let s := if s.fw.len.toNat < 72 then loadFail s 4 else modFw s (fun f => { f with st := .receiving })
  hs.foldl takeHeld s

/-- LOAD. -/
def execLoad (s : State) : Out := hosted s true (regWrite 0x200 1) (startLoad s)

/-- Bytes of the instruction memory window (17 R373). -/
def imemWindow : Nat := 0x50044

/-- IMEM_WINDOW_WRITE. -/
def execImemWindowWrite (off : Nat) (bs : List Byte) (s : State) : Out :=
  hosted s (!bs.isEmpty && off + bs.length ≤ imemWindow) (.write (0x100000 + off) bs) (imemWrite s off bs [])

/-- A host write to data memory: refused during a download (17 R390). -/
def hostDmem (s : State) (off : Nat) (bs : List Byte) : State :=
  if loading s then fwRefused s else dmemWrite s off bs

/-- DMEM_WINDOW_WRITE. -/
def execDmemWindowWrite (off : Nat) (bs : List Byte) (s : State) : Out :=
  hosted s (!bs.isEmpty && off + bs.length ≤ 65536) (.write (0x200000 + off) bs) (hostDmem s off bs)

end Sys2Proof.Machine
end

