-- ==== Sys2Proof/Machine/Sync.lean ====
section
/-!
DEFINITION. The sync engine's words (09 R214-R217), arriving sync flits (R212, R220-R222) and the flag window (R218).
-/

namespace Sys2Proof.Machine

/-! ### Sync engine words -/

/-- SNOP. -/
def execSnop (c : Ctx) (w : W128) (s : State) : Out := nopWord s c .sync w [0, 1, 2]

/-- DFID of an SRSET. -/
def srDfid (w : W128) : BitVec 20 := BitVec.ofNat 20 (fld w 73 20)

/-- The SET flit of an SRSET (09 R211, R215). -/
def srFlit (s : State) (w : W128) : W64 :=
  syncFlit 1 (srDfid w) (ownFid s) (fld w 63 10 * 2 ^ 10 + fld w 59 4 * 2 ^ 6)

/-- SRSET: its flit waits for SYNC_OUT; a flit to the core itself arrives at the next boundary (09 R215). -/
def execSrset (c : Ctx) (w : W128) (s : State) : Out :=
  engineWord s c .sync w 1 (fun s =>
    let id := (headWord s c .sync).id
    if anyBit w (lowMask 59) || srDfid w = dstAll then .refuse fOpcode
    else if srDfid w = ownFid s then
      .start [] .done (fun t => sure { t with selfFlits := t.selfFlits ++ [srFlit t w] })
    else .start [] .srset (fun t => sure (pushSync t (srFlit t w) (some id))))

/-- SALL (09 R216). -/
def execSall (c : Ctx) (w : W128) (s : State) : Out :=
  engineWord s c .sync w 2 (fun _ =>
    let base := fld w 83 10
    let n := fld w 72 11
    if anyBit w (lowMask 71) then .refuse fOpcode
    else if base + n > 1024 then .refuse fExtent
    else .start [] (if n = 0 then .done else .sall base n (bit w 71) none) sure)

/-! ### Arriving flits -/

/-- SET_FLIT: a flit of KIND SET, or of a reserved KIND, is taken (09 R212). -/
def execSetFlit (f : W64) (s : State) : Out :=
  guarded (syncInOpen s && (fKind f ≤ 1 || fKind f ≥ 7)) s (takeSet (acceptSync s) f)

/-- An owner notice taken: it acts at the boundary of its step (09 R207 point 4, R212). -/
def noticeIn (s : State) (f : W64) (kind : Nat) (m : Mark) : Out :=
  guarded (syncInOpen s && fKind f = kind) s
    (let t := acceptSync s
     match checkFlit t f with
     | .ok => { t with stepMarks := t.stepMarks ++ [m] }
     | e => discardFlit t e)

/-- LOST_FLIT (09 R221). -/
def execLostFlit (f : W64) (s : State) : Out := noticeIn s f 2 (.lost (fSrc f))
/-- PARK_FLIT (09 R222). -/
def execParkFlit (f : W64) (s : State) : Out := noticeIn s f 3 (.park (fSrc f))
/-- UNPARK_FLIT (09 R222). -/
def execUnparkFlit (f : W64) (s : State) : Out := noticeIn s f 4 (.unpark (fSrc f))

/-! ### The flag window (09 R218) -/

/-- Host writes to flags are taken from READY onward. -/
def flagsOpen (s : State) : Bool := s.core = .ready || s.core = .running || s.core = .held

/-- LOSTCLR. -/
def lostClear (s : State) (f : Nat) : State := changeFlag s f { getFlag s f with lost := false, parked := false }

/-- A write of flag f's word: LOSTCLR, and SETCMD or CLRCMD, the set alone where both are 1. -/
def writeFlag (s : State) (f : Nat) (v : W32) : State :=
  if flagsOpen s then
    let s := if bit v 29 then lostClear s f else s
    if bit v 31 then pushSet s f none
    else if bit v 30 then pushClear s f (BitVec.ofNat 4 (fld v 10 4))
    else s
  else s

/-- The offset of a flag's word. -/
def flagAddr (f : BitVec 10) : Nat := 0x4000 + 4 * f.toNat

/-- SETCMD. -/
def execSetcmd (f : BitVec 10) (s : State) : Out :=
  hosted s (flagsOpen s) (regWrite (flagAddr f) 0x80000000) (pushSet s f.toNat none)
/-- CLRCMD. -/
def execClrcmd (f : BitVec 10) (g : BitVec 4) (s : State) : Out :=
  hosted s (flagsOpen s) (regWrite (flagAddr f) (0x40000000 ||| (g.zeroExtend 32 <<< 10))) (pushClear s f.toNat g)
/-- LOSTCLR. -/
def execLostclr (f : BitVec 10) (s : State) : Out := hosted s (flagsOpen s) (regWrite (flagAddr f) 0x20000000) (lostClear s f.toNat)

end Sys2Proof.Machine
end

