-- ==== Sys2Proof/Machine/Regs.lean ====
section
/-!
DEFINITION. The management address space (17 R372-R390): what every register and window reads, what a write of it does, and the
run control commands (15 R347, R348; 08 R178).
-/

namespace Sys2Proof.Machine

/-! ### Run control (15 R347, R348) -/

/-- A RUN_CTL command refused (15 R347). -/
def runRefused (s : State) : State := report s fStRefused mgmtRep none

/-- C0 starts at the image's entry index; the interleave pointer stands at entry 0 (08 R195, R198). -/
def startC0 (s : State) : State :=
  woke s (modCtx { s with ilPtr := 0 } .c0 (fun x => { x with pc := s.entry, run := .running, wait := .none }))

/-- No hold and no reset request is recorded, and no restore is under way or refused (14 R318, 13 R299). -/
def goFree (s : State) : Bool :=
  !anyHold s && !s.flt.resetReq && s.st.rstate ≠ .loading && s.st.rstate ≠ .refused

/-- GO (15 R347): a start, a replay (13 R302), or a restart of C0. -/
def goCmd (s : State) : State :=
  if goFree s && s.core = .ready then
    if s.st.rstate = .loaded then { modSt s (fun t => { t with rstate := .replaying }) with core := .running }
    else { modCtx (startC0 s) .c1 (fun x => { x with run := .halted }) with core := .running }
  else if goFree s && s.core = .running && s.c0.run = .halted then startC0 s
  else runRefused s

/-- A context's running words end (08 R178): their requests are abandoned, their rows freed, a flit or a seal still to be sent is
dropped. -/
def endWords (s : State) (c : Ctx) : State :=
  let mine := s.running.filter (fun r => r.ctx = c)
  let ids := mine.map (fun r => r.id)
  let s := if mine.any (fun r => match r.job with | .seal (_ + 1) => true | _ => false) then stAbandon s [forSeal] else s
  let s := mine.foldl (fun s r => leaveArray (abandon (dropRows s r.id) (.word r.id)) r.eng r.id) s
  dealRows { s with running := s.running.filter (fun r => r.ctx ≠ c),
                    syncQ := s.syncQ.filter (fun o => match o.word with | some id => !ids.contains id | none => true) }

/-- A context reset (08 R178, 14 R318). -/
def resetCtx (s : State) (c : Ctx) : State :=
  let s := endWords s c
  settleHolds (setCtx { s with stepOps := s.stepOps.filter (fun o => o.ctx ≠ c) } c Context.reset)

/-- CRST_C0 or CRST_C1 (15 R347). -/
def crstCmd (s : State) (c : Ctx) : State := if loadedOn s then resetCtx s c else runRefused s

/-- The notice that a core sends when it parks (KIND 3) or resumes (KIND 4) (09 R222). -/
def parkFlit (s : State) (kind : Nat) : W64 := syncFlit kind dstAll (ownFid s) 0

/-- PARK (15 R348). -/
def parkCmd (s : State) : State :=
  if (s.core = .running || s.core = .held) && !s.parked then pushSync { s with parked := true } (parkFlit s 3) none
  else runRefused s

/-- UNPARK (15 R348). -/
def unparkCmd (s : State) : State :=
  if s.parked then pushSync { s with parked := false } (parkFlit s 4) none else runRefused s

/-- A write of RUN_CTL: exactly one command; several are refused (15 R347). -/
def writeRunCtl (s : State) (v : W32) : State :=
  match fld v 0 5 with
  | 0 => s
  | 1 => goCmd s
  | 2 => parkCmd s
  | 4 => unparkCmd s
  | 8 => crstCmd s .c0
  | 16 => crstCmd s .c1
  | _ => runRefused s

/-- GO. -/
def execGo (s : State) : Out := hosted s true (regWrite 0x104 1) (goCmd s)
/-- PARK. -/
def execPark (s : State) : Out := hosted s true (regWrite 0x104 2) (parkCmd s)
/-- UNPARK. -/
def execUnpark (s : State) : Out := hosted s true (regWrite 0x104 4) (unparkCmd s)
/-- CRST. -/
def execCrst (c : Ctx) (s : State) : Out :=
  hosted s true (regWrite 0x104 (match c with | .c0 => 8 | .c1 => 16)) (crstCmd s c)

/-! ### Register contents (17 R373-R387) -/

/-- Code of CORE_STATE (15 R346). -/
def coreCode : CoreState → Nat
  | .init => 0 | .unaddressed => 1 | .addressed => 2 | .loaded => 3 | .ready => 4 | .running => 5 | .held => 6

/-- CORE_STATE. -/
def regCoreState (s : State) : Nat :=
  runCode s.c1.run * 2 ^ 12 + runCode s.c0.run * 2 ^ 10 + b2n s.parked * 2 ^ 8 + coreCode s.core

/-- CORE_FEATURES (17 R376). -/
def regFeatures (f : Features) : Nat :=
  b2n f.gang * 2 ^ 6 + b2n f.fports * 2 ^ 5 + b2n f.rowu * 2 ^ 4 + f.spad.toNat * 4 + f.vlanes.toNat

/-- STATE of FW_STATUS (17 R379). -/
def fwCode : FwSt → Nat
  | .idle => 0 | .busy => 1 | .receiving => 2 | .loaded => 3 | .failed => 4

/-- PSTATE (10 R245). -/
def pstateCode : PState → Nat
  | .empty => 0 | .loading => 1 | .checking => 2 | .valid => 3 | .invalid => 4 | .pending => 5

/-- SET_STATUS. -/
def regSetStatus (s : State) : Nat :=
  s.epoch.toNat * 2 ^ 28 + s.proof.len % 2 ^ 19 * 2 ^ 6 + b2n s.warnDom * 2 ^ 5 + b2n s.checked * 2 ^ 4 + b2n s.bakeOn * 2 ^ 3 +
  pstateCode s.pstate

/-- FLT_FIRST (14 R323). -/
def regFirst (f : Flt) : Nat :=
  b2n f.fValid * 2 ^ 31 + f.fRep.toNat * 2 ^ 12 +
  (match f.fCtx with | some c => 2 ^ 11 + ctxNum c * 2 ^ 10 | none => 0) + f.fCode.toNat

/-- FLT_HOLD (14 R323). -/
def regHold (s : State) : Nat :=
  b2n s.flt.resetReq * 2 ^ 7 + b2n s.flt.holdCore * 2 ^ 6 + b2n s.c1.hold * 2 ^ 5 + b2n s.c0.hold * 2 ^ 4

/-- ORC_STATUS (12 R275). -/
def regOrc (s : State) : Nat :=
  b2n ((inFence .lfence s.c0 || inFence .lfence s.c1) && pendingSwap s = some true && orc s ≠ 0) * 2 ^ 31 + orc s % 2 ^ 7

/-- RISE_CTL (17 R382). -/
def regRise (s : State) : Nat :=
  s.pwr.wave % 2 ^ 7 * 2 ^ 16 + b2n s.pwr.gnt * 2 ^ 10 + b2n s.pwr.req * 2 ^ 9 + b2n s.pwr.rising * 2 ^ 8 + s.cfg.rlen.toNat

/-- L of the hold in progress (03 R80). -/
def fillLen (s : State) : Nat := s.pwr.hSfl.toNat + 1

/-- SOFTFREEZE_CTL (17 R383). -/
def regSoft (s : State) : Nat :=
  (if s.pwr.filler then min (fillLen s) (max 1 s.pwr.holdPer) else 0) * 2 ^ 8 + s.cfg.sfl.toNat * 2 ^ 4 + b2n s.cfg.sfen * 2 ^ 3

/-- ACTIVITY (17 R385). -/
def regActivity (s : State) : Nat := b2n s.pwr.lend * 2 ^ 16 + s.pwr.budget.toNat * 2 ^ 8 + s.pwr.level.toNat

/-- Codes of RSTATE and SNAP (13, "Starter registers"). -/
def rstateCode : RState → Nat
  | .none => 0 | .loading => 1 | .loaded => 2 | .replaying => 3 | .admitted => 4 | .refused => 5
def snapCode : SnapSt → Nat
  | .idle => 0 | .copying => 1 | .copied => 2 | .failed => 3

/-- ST_STATUS. -/
def regStStatus (t : Starter) : Nat :=
  rstateCode t.rstate * 2 ^ 28 + t.rreason.toNat * 2 ^ 24 + snapCode t.snap * 2 ^ 22 + b2n t.next * 2 ^ 21 + b2n t.pnext * 2 ^ 20

/-- Halves of a wider quantity. -/
def loHalf (v : Nat) : Nat := v % 2 ^ 32
def hiHalf (v : Nat) : Nat := v / 2 ^ 32 % 2 ^ 32

/-- DL_STATUS as read: PARKED is live (09 R225). -/
def regDl (s : State) : Nat := (setBit s.tmr.dlStatus 30 (parkedWait s)).toNat

/-- The registers below the fault block. -/
def readLow (s : State) (a : Nat) : Nat :=
  match a with
  | 0x000 => 0x484B0700 | 0x004 => 0x00070200 | 0x008 => regFeatures s.features
  | 0x00C => loHalf s.serial.toNat | 0x010 => hiHalf s.serial.toNat | 0x014 => s.chainAddr.toNat | 0x018 => s.cfg.fid.toNat
  | 0x100 => regCoreState s
  | 0x204 => fwCode s.fw.st * 2 ^ 28 + s.fw.reason.toNat * 2 ^ 24 + s.fw.rcvd % 2 ^ 19
  | 0x208 => loHalf s.fw.tag.toNat | 0x20C => hiHalf s.fw.tag.toNat | 0x210 => s.fw.len.toNat | 0x214 => s.fw.crc.toNat
  | 0x300 => s.spadWin.toNat
  | 0x404 => regSetStatus s | 0x408 => s.setRej.toNat | 0x40C => (bakeTag s).toNat
  | 0x410 => if s.pstate = .valid || s.pstate = .pending then (streamTag s.proof).toNat else 0
  | _ => 0

/-- The fault, sync and power blocks. -/
def readMid (s : State) (a : Nat) : Nat :=
  let f := s.flt
  if 0x800 ≤ a && a < 0x820 then fld (f.actSig ||| f.actHold ||| f.actReset) (8 * (a - 0x800)) 32
  else if 0x820 ≤ a && a < 0x840 then fld f.sticky (8 * (a - 0x820)) 32
  else match a with
  | 0x840 => regFirst f | 0x844 => loHalf f.fTime.toNat | 0x848 => hiHalf f.fTime.toNat | 0x84C => f.count.toNat
  | 0x850 => f.recov.toNat | 0x854 => f.rest.toNat | 0x858 => f.wire.toNat | 0x85C => regHold s
  | 0xC00 => s.tmr.dlWindow.toNat | 0xC04 => regDl s | 0xC08 => s.tmr.lendThr.toNat | 0xC0C => regOrc s
  | 0x1000 => regRise s | 0x1004 => regSoft s
  | 0x1008 => b2n s.tmr.srValid * 2 ^ 31 + s.tmr.srCount.toNat | 0x100C => s.tmr.srNominal.toNat | 0x1010 => regActivity s
  | _ => 0

/-- The step, Starter and performance blocks. -/
def readHigh (s : State) (a : Nat) : Nat :=
  if 0x1440 ≤ a && a < 0x1480 then (sget 0 s.sb.bufA ((a - 0x1440) / 4)).toNat
  else if 0x1480 ≤ a && a < 0x14C0 then (sget 0 s.sb.bufB ((a - 0x1480) / 4)).toNat
  else if 0x2100 ≤ a && a < 0x21A8 then
    let v := (sget 0 (counters s) ((a - 0x2100) / 8)).toNat
    if a % 8 = 0 then loHalf v else hiHalf v
  else match a with
  | 0x1400 => loHalf s.sb.num.toNat | 0x1404 => hiHalf s.sb.num.toNat | 0x1408 => ctlWord s.sb
  | 0x1800 => b2n s.st.force * 2 ^ 7 + b2n s.st.rslot * 2 ^ 6 + b2n s.st.en
  | 0x1804 => regStStatus s.st
  | 0x1808 => s.st.cur.pages.length % 2 ^ 13 * 2 ^ 19 + s.cfg.partner.length % 4
  | 0x180C => s.st.cmask.toNat | 0x1810 => s.st.cadence.toNat | 0x1814 => s.st.pcadence.toNat
  | 0x1818 => loHalf s.st.digest.toNat | 0x181C => hiHalf s.st.digest.toNat
  | 0x2000 => b2n s.perfStop * 2
  | _ => 0

/-- A flag's word (09 R218). -/
def readFlag (s : State) (f : Nat) : Nat :=
  let v := getFlag s f
  b2n v.lost * 2 ^ 16 + b2n v.parked * 2 ^ 15 + b2n v.set * 2 ^ 14 + v.gen.toNat * 2 ^ 10 + f

/-- A register of the handle table window (17 R388), or four bytes of the page-state table (06 R150). -/
def readHandles (s : State) (a : Nat) : Nat :=
  if a < 0xA000 then
    let h := getH s ((a - 0x8000) / 16)
    let w := if a / 8 % 2 = 0 then handleWord0 h else handleWord1 h
    if a / 4 % 2 = 0 then loHalf w else hiHalf w
  else ofLE ((List.range 4).map (fun i => if a - 0xA000 + i < pageCount s then pageByte s (a - 0xA000 + i) else 0))

/-- The register at an offset that is a multiple of 4; an unassigned offset reads zero (15 R334, 17 R373). -/
def readReg (s : State) (a : Nat) : Nat :=
  if a < 0x800 then readLow s a
  else if a < 0x1400 then readMid s a
  else if a < 0x4000 then readHigh s a
  else if a < 0x5000 then readFlag s ((a - 0x4000) / 4)
  else if 0x8000 ≤ a && a < 0xA600 then readHandles s a
  else 0

/-! ### Windows (17 R373) -/

/-- What lies at an offset. -/
inductive Region where
  | spad | imem | dmem | proof | handle | reg
  deriving DecidableEq, Repr

/-- The window that an offset lies in, with its first offset and the offset past its last. -/
def regionOf (a : Nat) : Region × Nat × Nat :=
  if 0x8000 ≤ a && a < 0xA000 then (.handle, 0x8000, 0xA000)
  else if 0x10000 ≤ a && a < 0x20000 then (.spad, 0x10000, 0x20000)
  else if 0x100000 ≤ a && a < 0x150044 then (.imem, 0x100000, 0x150044)
  else if 0x200000 ≤ a && a < 0x210000 then (.dmem, 0x200000, 0x210000)
  else if 0x400000 ≤ a && a < 0x440000 then (.proof, 0x400000, 0x440000)
  else (.reg, a, a + 4)

/-- One 64-bit word met by a host read: corrected, or uncorrectable (06 R151, R152). -/
def hostReadWord (s : State) (w : Nat) : State :=
  match eccOf s w with
  | .good => s
  | .single => corrected none s w
  | .double => report s fSpadUe 8 none

/-- A host read through the scratchpad page window: no page state acts, an uncorrectable word reads zero (06 R148, R151); the bytes are
those after the last completed step and what the host has written since (01 R17). -/
def hostReadSpad (s : State) (off n : Nat) : State × List Byte :=
  if s.spadWin.toNat ≥ pageCount s then (s, List.replicate n 0)
  else
    let a := s.spadWin.toNat * 65536 + off
    ((wordsOf a n).foldl hostReadWord s,
     (List.range n).map (fun i => if eccOf s ((a + i) / 8) = .double then 0 else seenByte s hostWho (a + i)))

/-- A byte of instruction memory as the window shows it (17 R389). -/
def imemByte (s : State) (o : Nat) : Byte :=
  if loading s || o ≥ 0x40000 then 0 else BitVec.ofNat 8 (fld (sget 0 s.imem (o / 4)) (8 * (o % 4)) 8)

/-- A byte of data memory as the window shows it (17 R390). -/
def dmemWinByte (s : State) (o : Nat) : Byte := if loading s then 0 else dmemHost s o

/-- Reads of one run of bytes within a region. -/
def readRun (s : State) (r : Region) (lo a n : Nat) : State × List Byte :=
  match r with
  | .spad => hostReadSpad s (a - lo) n
  | .imem => (s, (List.range n).map (fun i => imemByte s (a - lo + i)))
  | .dmem => (s, (List.range n).map (fun i => dmemWinByte s (a - lo + i)))
  | .proof => (s, sgets 0 s.proof.bytes (a - lo) n)
  | .handle | .reg => (s, (List.range (n / 4)).flatMap (fun i => toLE 4 (readReg (seqDone s) (a + 4 * i))))

/-- The bytes that one RD frame reads, all between the same two steps (15 R334); `k` bounds the runs it falls into. -/
def frameRead : Nat → State → Nat → Nat → State × List Byte
  | 0, s, _, _ => (s, [])
  | k + 1, s, a, n =>
    if n = 0 then (s, [])
    else
      let (r, lo, hi) := regionOf a
      let m := min n (hi - a)
      let (s, bs) := readRun s r lo a m
      let (s, cs) := frameRead k s (a + m) (n - m)
      (s, bs ++ cs)

/-! ### Register writes (17 R373; 00 R10, R11) -/

/-- A write of FLT_HOLD (14 R316, R323). -/
def writeHold (s : State) (v : W32) : State := releases s (bit v 0) (bit v 1) (bit v 2)

/-- A fault register changed. -/
def modFlt (s : State) (f : Flt → Flt) : State := { s with flt := f s.flt }

/-- A timer register changed. -/
def modTmr (s : State) (f : Tmr → Tmr) : State := { s with tmr := f s.tmr }

/-- FLT_WIRE bits cleared: sampling of those pairs resumes (14 R307). -/
def clearWire (s : State) (m : BitVec 16) : State := modFlt s (fun f => { f with wire := f.wire &&& ~~~ m })

/-- FLT_STICKY bits cleared. -/
def clearSticky (s : State) (n : Nat) (v : W32) : State :=
  modFlt s (fun f => { f with sticky := f.sticky &&& ~~~ BitVec.ofNat 256 (v.toNat <<< (32 * n)) })

/-- PERF_CTL written (17 R386). -/
def writePerf (s : State) (clear stop : Bool) : State :=
  { s with perfStop := stop, perf := if clear then [] else s.perf }

/-- Fault registers written (14 R323). -/
def writeFlt (s : State) (a : Nat) (v : W32) : State :=
  if 0x820 ≤ a && a < 0x840 then clearSticky s ((a - 0x820) / 4) v
  else match a with
  | 0x840 => if bit v 31 then modFlt s (fun f => { f with fValid := false }) else s
  | 0x84C => modFlt s (fun f => { f with count := v })
  | 0x850 => modFlt s (fun f => { f with recov := BitVec.ofNat 16 v.toNat })
  | 0x854 => modFlt s (fun f => { f with rest := v })
  | 0x858 => clearWire s (BitVec.ofNat 16 v.toNat)
  | 0x85C => writeHold s v
  | _ => s

/-- Registers of the sync, step, Starter and performance blocks written. -/
def writeHigh (s : State) (a : Nat) (v : W32) : State :=
  if 0x1440 ≤ a && a < 0x1480 then writeParam (seqDone s) false ((a - 0x1440) / 4) v
  else if 0x1480 ≤ a && a < 0x14C0 then writeParam (seqDone s) true ((a - 0x1480) / 4) v
  else match a with
  | 0xC00 => modTmr s (fun t => { t with dlWindow := v })
  | 0xC04 => if bit v 31 then modTmr s (fun t => { t with dlStatus := setBit t.dlStatus 31 false }) else s
  | 0xC08 => modTmr s (fun t => { t with lendThr := v })
  | 0x1400 => writeNumLo (seqDone s) v
  | 0x1404 => writeNumHi (seqDone s) v
  | 0x1408 => writeCtl (seqDone s) v
  | 0x1800 => writeStCtl s v
  | 0x180C => modSt s (fun t => { t with cmask := (BitVec.ofNat 5 v.toNat) ||| 1 })
  | 0x1810 => modSt s (fun t => { t with cadence := v })
  | 0x1814 => modSt s (fun t => { t with pcadence := v })
  | 0x2000 => writePerf s (bit v 0) (bit v 1)
  | _ => s

/-- A register written under its access code; a read-only or unassigned offset ignores the write (00 R10, 15 R334). -/
def writeReg (s : State) (a : Nat) (v : W32) : State :=
  match a with
  | 0x104 => writeRunCtl s v
  | 0x200 => if bit v 0 then startLoad s else s
  | 0x210 => writeFwLen s v
  | 0x300 => { s with spadWin := BitVec.ofNat 11 v.toNat }
  | 0x400 => writeSetCtl s v
  | 0x404 => if bit v 5 then { s with warnDom := false } else s
  | _ =>
    if 0x800 ≤ a && a < 0x860 then writeFlt s a v
    else if 0x4000 ≤ a && a < 0x5000 then writeFlag s ((a - 0x4000) / 4) v
    else writeHigh s a v

/-- The 32-bit words of bytes. -/
def words32 (bs : List Byte) : List W32 := (List.range (bs.length / 4)).map (fun i => BitVec.ofNat 32 (leAt bs (4 * i) 4))

/-- A write of one run of bytes within a region; `resp` answers a write that the loader holds (08 R203). -/
def writeRun (s : State) (r : Region) (lo a : Nat) (bs resp : List Byte) : State :=
  match r with
  | .spad => hostSpad s (a - lo) bs
  | .imem => imemWrite s (a - lo) bs resp
  | .dmem => hostDmem s (a - lo) bs
  | .proof => proofWrite s (a - lo) bs
  | .handle => hostHandles ((a - lo) / 4) (words32 bs) s
  | .reg => writeReg s a (BitVec.ofNat 32 (leAt bs 0 4))

/-- The writes of one frame, in ascending address order (15 R334); `k` bounds the runs it falls into. Bytes of a Proof set write
past the window's end are judged with it (10 R248, OVERFLOW). -/
def frameWrite : Nat → State → Nat → List Byte → List Byte → State
  | 0, s, _, _, _ => s
  | k + 1, s, a, bs, resp =>
    if bs.isEmpty then s
    else
      let (r, lo, hi) := regionOf a
      let m := if r = .proof then bs.length else min bs.length (hi - a)
      frameWrite k (writeRun s r lo a (bs.take m) resp) (a + m) (bs.drop m) resp

/-! ### Host commands with a row of their own -/

/-- REGISTER_WRITE. -/
def execRegisterWrite (a : BitVec 24) (v : W32) (s : State) : Out :=
  hostedAt s (a.toNat % 4 = 0) a.toNat (toLE 4 v.toNat) (frameWrite 1 s a.toNat (toLE 4 v.toNat) [])

/-- HANDLE_WINDOW_WRITE: the registers of one frame from window offset `off` (06 R144, 17 R388). -/
def execHandleWindowWrite (off : Nat) (ws : List W32) (s : State) : Out :=
  hosted s (off % 4 = 0 && off + 4 * ws.length ≤ 0x2000) (.write (0x8000 + off) (ws.flatMap (fun w => toLE 4 w.toNat)))
    (hostHandles (off / 4) ws s)

/-- REL_CONTEXT. -/
def execRelContext (c : Ctx) (s : State) : Out :=
  hosted s true (regWrite 0x85C (match c with | .c0 => 1 | .c1 => 2)) (releaseCtx s c)

/-- REL_CORE. -/
def execRelCore (s : State) : Out := hosted s true (regWrite 0x85C 4) (releaseCore s)

/-- FLT_WIRE_CLEAR. -/
def execFltWireClear (m : BitVec 16) (s : State) : Out := hosted s true (regWrite 0x858 (m.zeroExtend 32)) (clearWire s m)

/-- CLEAR: a write of PERF_CTL with CLEAR. -/
def execClear (stop : Bool) (s : State) : Out :=
  hosted s true (regWrite 0x2000 (BitVec.ofNat 32 (1 + 2 * b2n stop))) (writePerf s true stop)

end Sys2Proof.Machine
end

