-- ==== Sys2Proof/Machine/Chain.lean ====
section
/-!
DEFINITION. The Uliuno chain (15 R327-R338): frames, what a core does with one addressed to it, and what it forwards.
-/

namespace Sys2Proof.Machine

/-! ### Frames (15 R329) -/

def frType (f : List Byte) : Nat := (f.getD 0 0).toNat
def frDst (f : List Byte) : Byte := f.getD 1 0
def frSeq (f : List Byte) : Byte := f.getD 2 0
def frStatus (f : List Byte) : Byte := f.getD 3 0
def frAddr (f : List Byte) : Nat := leAt f 4 3
def frLen (f : List Byte) : Nat := leAt f 7 2

/-- The payload of a whole frame. -/
def frPayload (f : List Byte) : List Byte := (f.drop 9).take (f.length - 11)

/-- A frame of its fields, with its CRC. -/
def mkFrame (type : Nat) (dst seq status : Byte) (addr len : Nat) (payload : List Byte) : List Byte :=
  let body := [byteOf type, dst, seq, status] ++ toLE 3 addr ++ toLE 2 len ++ payload
  body ++ toLE 2 (crc16 body).toNat

/-- The bytes that a frame occupies; an RD request has no payload (15 R329). -/
def frTotal (f : List Byte) : Nat := if frType f = 1 then 11 else 11 + frLen f

/-- Every byte of the frame is there, and none beyond it. -/
def frWhole (f : List Byte) : Bool := f.length ≥ 11 && f.length = frTotal f

/-- The CRC checks (15 R330). -/
def frCrcOk (f : List Byte) : Bool := (crc16 (f.take (f.length - 2))).toNat = leAt f (f.length - 2) 2

/-- A request (15 R329). -/
def frRequest (f : List Byte) : Bool := frType f < 0x80

/-- ADDR and LEN of an RD or WR break 15 R331, or pass the address space (15 R333, ERR_LEN). -/
def frBadLen (f : List Byte) : Bool :=
  frLen f < 4 || frLen f > 4096 || frLen f % 4 ≠ 0 || frAddr f % 4 ≠ 0 || frAddr f + frLen f > 0x1000000

/-! ### The core's place on the chain -/

/-- VCORE is within range: symbols are forwarded, whatever VMEM, unless a test instruction is loaded; while the core keeps its state,
an excursion of VCORE down to its keep-state level counts as within range (15 R328; 16 R369, R370). -/
def chainOn (s : State) : Bool :=
  ((550 ≤ s.vcore && s.vcore ≤ 850) || (s.powered && 500 ≤ s.vcore)) && transparent s

/-- A core takes a new frame: a request that a reset has cut short is over with it (15 R337). -/
def newFrame (s : State) : State := { s with cutReq := [] }

/-- The core acts on frames: from UNADDRESSED onward (15 R328). -/
def framesOn (s : State) : Bool := live s && s.core ≠ .init

/-- A request addressed to this core by its chain address (15 R331, R333). -/
def forMe (s : State) (f : List Byte) : Bool :=
  hostOk s && frRequest f && frType f ≠ 3 && s.chainAddr ≠ 0 && frDst f = s.chainAddr

/-- A broadcast WR (15 R336). -/
def isBroadcast (f : List Byte) : Bool := frType f = 2 && frDst f = 0xFF

/-- An ENUM frame on which cores act (15 R338). -/
def isEnum (f : List Byte) : Bool := frType f = 3 && frLen f = 1

/-- A whole frame whose CRC checks. -/
def frGood (f : List Byte) : Bool := frWhole f && frCrcOk f

/-- The response to a request: TYPE with bit 7 set, the core's own address, SEQ and ADDR unchanged (15 R333). -/
def response (dst : Byte) (f : List Byte) (status : Byte) (data : List Byte) : List Byte :=
  mkFrame (frType f + 0x80) dst (frSeq f) status (frAddr f) data.length data

/-- STATUS bits (15 R333). -/
def stAck : Byte := 0x01
def stErrType : Byte := 0x02
def stErrLen : Byte := 0x04
def stDup : Byte := 0x08
def stFull : Byte := 0x10
def stReset : Byte := 0x20

/-- The response emitted. -/
def respond (s : State) (f : List Byte) (status : Byte) (data : List Byte) : State :=
  sendFrame s (response s.chainAddr f status data)

/-- `n` reports of one fault. -/
def reportN (s : State) (code rep : Nat) : Nat → State
  | 0 => s
  | n + 1 => reportN (report s code rep none) code rep n

/-- RD (15 R333, R334). -/
def doRd (f : List Byte) (s : State) : State :=
  if frBadLen f then respond s f stErrLen []
  else
    let r := frameRead (frLen f) s (frAddr f) (frLen f)
    respond r.1 f stAck r.2

/-- Does a frame write into the instruction memory window while the loader holds such writes (08 R203)? -/
def heldFrame (s : State) (f : List Byte) : Bool :=
  s.core = .addressed && s.fw.st = .busy && frAddr f < 0x150044 && 0x100000 < frAddr f + frLen f

/-- WR: applied, or recognised as a repeat (15 R333-R335); a write that the loader holds is answered when it is taken (08
R203). -/
def doWr (f : List Byte) (s : State) : State :=
  if frBadLen f then respond s f stErrLen []
  else if s.seqWr = some (frSeq f) then respond s f (stAck ||| stDup) []
  else
    let ack := response s.chainAddr f stAck []
    let late := heldFrame s f
    let t := frameWrite (frLen f) { s with seqWr := some (frSeq f) } (frAddr f) (frPayload f) (if late then ack else [])
    if late then t else sendFrame t ack

/-- ERR_LEN of a request of reserved TYPE: LEN is above 4,096, or ADDR + LEN passes the address space (15 R333). -/
def frLong (f : List Byte) : Bool := frLen f > 4096 || frAddr f + frLen f > 0x1000000

/-- ERR_TYPE: a request of reserved TYPE addressed to this core has no effect (15 R333). -/
def doErrType (f : List Byte) (s : State) : State :=
  respond s f (if frLong f then stErrType ||| stErrLen else stErrType) []

/-- What a request addressed to this core does. -/
def doFrame (f : List Byte) (s : State) : State :=
  if frType f = 1 then doRd f s else if frType f = 2 then doWr f s else doErrType f s

/-- A broadcast WR applied, unless its SEQ repeats: from ADDRESSED onward (15 R335, R336). -/
def doBroadcast (f : List Byte) (s : State) : State :=
  if hostOk s && !frBadLen f && s.seqBc ≠ some (frSeq f) then
    frameWrite (frLen f) { s with seqBc := some (frSeq f) } (frAddr f) (frPayload f) []
  else s

/-- An ENUM frame with another VALUE or STATUS. -/
def enumFrame (f : List Byte) (status value : Byte) : List Byte :=
  mkFrame 3 (frDst f) (frSeq f) status (frAddr f) 1 [value]

/-- VALUE of an ENUM frame. -/
def enumValue (f : List Byte) : Byte := f.getD 9 0

/-- ENUM (15 R338): an unaddressed core takes VALUE as its address, or reports FULL; an addressed one forwards the frame. -/
def doEnum (f : List Byte) (s : State) : State :=
  let t := newFrame s
  if s.core = .unaddressed then
    if enumValue f ≠ 0 && enumValue f ≠ 0xFF then
      sendFrame { t with core := .addressed, chainAddr := enumValue f } (enumFrame f (frStatus f) (enumValue f + 1))
    else sendFrame t (enumFrame f (frStatus f ||| stFull) (enumValue f))
  else sendFrame t f

/-! ### Forwarding (15 R328, R332) -/

/-- K of a symbol (15 R327). -/
def symK (x : BitVec 9) : Bool := bit x 8
/-- The data byte of a symbol. -/
def symD (x : BitVec 9) : Byte := BitVec.ofNat 8 x.toNat

/-- Symbols cut before each K: the symbols before the first frame, and each frame's symbols. -/
def cutFrames : List (BitVec 9) → List (BitVec 9) × List (List (BitVec 9))
  | [] => ([], [])
  | x :: xs =>
    let r := cutFrames xs
    if symK x then ([], (x :: r.1) :: r.2) else (x :: r.1, r.2)

/-- A frame longer than 9 bytes is known by its LEN; what follows its last byte lies outside any frame. -/
def frameLen (f : List Byte) : Nat := if f.length < 9 then 11 else frTotal f

/-- A frame begins with one on which the core acts under a row of its own; symbols that follow its last lie outside it. -/
def acted (s : State) (g : List Byte) : Bool :=
  let f := g.take (frameLen g)
  frGood f && (forMe s f || (hostOk s && isBroadcast f) || (framesOn s && isEnum f))

/-- CHAIN_CRC occurrences of one frame's symbols: a truncated frame, a CRC that does not check, or symbols after its last (15 R332).
An ENUM frame whose LEN is not 1 records nothing (15 R338). -/
def frameFaults (f : List Byte) : Nat :=
  let n := frameLen f
  if f.length < n then 1
  else (if frType f = 3 && frLen f ≠ 1 then 0 else if frCrcOk (f.take n) then 0 else 1) + (f.length - n)

/-- The response to a request whose consumption a reset has cut short (15 R337). -/
def resetAnswer (s : State) (f : List Byte) : State :=
  if f.isEmpty then s else sendFrame s (mkFrame (frType f % 0x80 + 0x80) 0 (frSeq f) stReset (frAddr f) 0 [])

/-- Symbols of no new frame reach a request that a reset has cut short: they are consumed up to its last, which the response follows
(15 R337); one that turns out to go to another core is forwarded. The symbols left over are forwarded. -/
def cutFeed : List (BitVec 9) → State → State × List (BitVec 9)
  | [], s => (s, [])
  | x :: xs, s =>
    if s.cutReq.isEmpty then (s, x :: xs)
    else
      let f := s.cutReq ++ [symD x]
      if f.length = 2 && frDst f ≠ s.cutAddr then (sendFrame (newFrame s) f, xs)
      else if f.length ≥ frameLen f then (resetAnswer (newFrame s) f, xs)
      else cutFeed xs { s with cutReq := f }

/-- Symbols that the core does not consume leave in their order; from UNADDRESSED onward broken frames are recorded. -/
def doForward (syms : List (BitVec 9)) (s : State) : State :=
  let c := cutFrames syms
  let fs := c.2.map (fun f => f.map symD)
  let r := cutFeed c.1 s
  let t := if fs.isEmpty then r.1 else newFrame r.1
  let t := { t with mcOut := t.mcOut ++ r.2 ++ c.2.flatten }
  if framesOn s then reportN t fChainCrc mgmtRep (r.2.length + (fs.map frameFaults).foldl (· + ·) 0) else t

/-! ### What has arrived and is still to act (01 R17; 15 R336; 13 R288) -/

/-- What has arrived writes through the scratchpad page window to a page that a snapshot protects. -/
def mgmtHeld (s : State) : Mgmt → Bool
  | .write a bs => windowHeld s a bs.length
  | .frame f => frType f = 2 && !frBadLen f && s.seqWr ≠ some (frSeq f) && windowHeld s (frAddr f) (frLen f)
  | .bcast _ f => hostOk s && !frBadLen f && s.seqBc ≠ some (frSeq f) && windowHeld s (frAddr f) (frLen f)
  | .enum _ | .syms _ => false

/-- The first of what waits moves the page that holds it to the head of the copy order (13 R288). -/
def urgeFirst (s : State) : State :=
  match s.mgmt with
  | m :: _ => if mgmtHeld s m then urge s [s.spadWin.toNat] else s
  | [] => s

/-- What has arrived acts. -/
def doMgmt (s : State) : Mgmt → State
  | .write a bs => frameWrite bs.length s a bs []
  | .frame f => doFrame f s
  | .bcast fwd f => doBroadcast f (if fwd then sendFrame (newFrame s) f else s)
  | .enum f => doEnum f s
  | .syms xs => doForward xs s

/-- `n` bytes from offset `a` reach a register whose writes take effect before the boundary's own updates: the fault collector's (14 R320), the
set commands, which precede the judgement of a fence (10 R251), DL_STATUS, whose set of the step ended stays set (00 R10, 01 R28), and
PERF_CTL (17 R386). Every other write follows them. -/
def earlyReg (a n : Nat) : Bool :=
  let meets (lo hi : Nat) : Bool := a < hi && lo < a + n
  meets 0x400 0x404 || meets 0x800 0x860 || meets 0xC04 0xC08 || meets 0x2000 0x2004

/-- What has arrived writes such a register. -/
def isEarly : Mgmt → Bool
  | .write a bs => earlyReg a bs.length
  | .frame f => frType f = 2 && !frBadLen f && earlyReg (frAddr f) (frLen f)
  | .bcast _ f => !frBadLen f && earlyReg (frAddr f) (frLen f)
  | _ => false

/-- What waits acts in its order, `n` at most, until one must wait on: behind a write that the loader holds (08 R203), for a page to be
copied, with a report that cannot be presented yet (14 R306), or because it is none of those that may act here. -/
def runMgmt (may : Mgmt → Bool) : Nat → State → State
  | 0, s => s
  | n + 1, s =>
    match s.mgmt with
    | [] => s
    | m :: ms =>
      if !s.fw.held.isEmpty || mgmtHeld s m || !may m then s
      else
        let t := doMgmt { s with mgmt := ms } m
        if stalls s t then s else runMgmt may n (urgeFirst t)

/-- The writes to such registers that stand first act, before the boundary's updates; those of them that stand behind another access
wait, with all that follows them, for the next boundary, so that none acts behind the updates. -/
def earlyMgmt (n : Nat) (s : State) : State := runMgmt isEarly n s

/-- Every other access acts behind the boundary's updates. -/
def lateMgmt (n : Nat) (s : State) : State := runMgmt (fun m => !isEarly m) n s

/-- A frame that arrives and must be buffered acts at once where it can, and else waits (01 R17; 15 R336). -/
def takeFrame (s : State) (m : Mgmt) (t : State) : State :=
  if mcIdle s && !midStep s && !mgmtHeld s m then t
  else if mcIdle s then urgeFirst (later s m) else later s m

/-! ### The rows of the table -/

/-- RD. -/
def execRd (f : List Byte) (s : State) : Out :=
  guarded (forMe s f && frType f = 1 && frGood f) s (takeFrame s (.frame f) (doRd f s))

/-- WR. -/
def execWr (f : List Byte) (s : State) : Out :=
  guarded (forMe s f && frType f = 2 && frGood f) s (takeFrame s (.frame f) (doWr f s))

/-- ERR_TYPE. -/
def execErrType (f : List Byte) (s : State) : Out :=
  guarded (forMe s f && frType f ≠ 1 && frType f ≠ 2 && frGood f) s (takeFrame s (.frame f) (doErrType f s))

/-- WR_BROADCAST: forwarded cut-through, unchanged, by every core; buffered and applied from ADDRESSED onward. Behind a frame that the core
holds, it waits to be forwarded too (15 R336). -/
def execWrBroadcast (f : List Byte) (s : State) : Out :=
  guarded (chainOn s && isBroadcast f && frGood f) s
    (if mcIdle s then
       let t := sendFrame (newFrame s) f
       if hostOk s then takeFrame t (.bcast false f) (doBroadcast f t) else t
     else later s (.bcast true f))

/-- ENUM: stored and forwarded in full (15 R338). -/
def execEnum (f : List Byte) (s : State) : Out :=
  guarded (framesOn s && isEnum f && frGood f) s (takeFrame s (.enum f) (doEnum f s))

/-- MC_IN is stalled: a frame that must be buffered stands behind one that the core holds (15 R336), or an ENUM frame is still to be
forwarded. -/
def mcStalled (s : State) : Bool :=
  2 ≤ s.fw.held.length + s.mgmt.length || s.mgmt.any (fun m => match m with | .enum _ => true | _ => false)

/-- FRAME_FORWARD. -/
def execFrameForward (syms : List (BitVec 9)) (s : State) : Out :=
  guarded (chainOn s && !((cutFrames syms).2.map (fun f => f.map symD)).any (acted s)) s
    (if mcStalled s then later s (.syms syms) else doForward syms s)

/-- FW_ZERO_COMPLETE: the writes held are taken; the frames behind them follow, at once where no step is under way (08 R203, 15 R336). -/
def execFwZeroComplete (s : State) : Out :=
  guarded (live s && s.core = .addressed && s.fw.st = .busy) s
    (let t := zeroDone s
     if midStep t then t else runMgmt (fun _ => true) t.mgmt.length (urgeFirst t))

/-- A reset cuts short what still waits: an addressed request is answered (15 R337), every other frame is forwarded (R328). -/
def cutMgmt (s : State) : Mgmt → State
  | .frame f => resetAnswer s f
  | .bcast fwd f => if fwd then sendFrame s f else s
  | .enum f => sendFrame s f
  | .syms xs => { s with mcOut := s.mcOut ++ xs }
  | .write _ _ => s

/-- A reset ends what still waits, and what the loader holds (08 R203): requests, which have arrived whole, are answered in their order. -/
def cutWaiting (s : State) : State :=
  s.mgmt.foldl cutMgmt ((s.fw.held.map (fun h => h.resp)).foldl resetAnswer { s with mgmt := [], fw := { s.fw with held := [] } })

end Sys2Proof.Machine
end

