-- ==== Sys2Proof/Machine/Power.lean ====
section
/-!
DEFINITION. Timers (09 R223-R226; 14 R319, R325; 17 R384), the power manager's interface (03 R79-R81; 16 R364-R367), alarms and
links (14 R307, R308, R324), resets and supplies (15 R344, R345, R349; 16 R370).
-/

namespace Sys2Proof.Machine

/-- The reporter of timers and of the deadlock detector (14 R305). -/
def timerRep : Nat := 13

/-- The power state changed. -/
def modPwr (s : State) (f : Pwr → Pwr) : State := { s with pwr := f s.pwr }

/-- The core works past self-initialisation. -/
def awake (s : State) : Bool := live s && s.core ≠ .init

/-! ### The deadlock detector (09 R223, R224) -/

/-- A running word is stalled on a handshake, or an SALL waits (09 R223): protected pages (13 R288) and the grant of a Rise (03 R81)
stall a word in the same way. -/
def wordStalled (s : State) (r : Running) : Bool :=
  match r.job with
  | .xfer _ | .srset | .seal _ | .sall _ _ _ none | .stalled _ _ => true
  | .done => waitsRise s r
  | _ => false

/-- A queue's head word waits on a flag. -/
def headWaits (s : State) (c : Ctx) (e : Eng) : Bool :=
  match headOf s c e with
  | some q => wWV q.word && unmet (getCtx s c) e
  | none => false

/-- A queue is empty, has its head waiting on a flag, or has a running word of its engine stalled. -/
def queueBlocked (s : State) (c : Ctx) (e : Eng) : Bool :=
  (headOf s c e).isNone || headWaits s c e || s.running.any (fun r => r.eng = e && wordStalled s r)

/-- A context is WAITING or HALTED. -/
def ctxIdle (x : Context) : Bool := x.run = .waiting || x.run = .halted

/-- The core is blocked (09 R223). -/
def blocked (s : State) : Bool :=
  ctxIdle s.c0 && ctxIdle s.c1 && allEngs.all (fun e => allCtxs.all (fun c => queueBlocked s c e)) &&
    s.running.all (wordStalled s) &&
    (s.c0.run = .waiting || s.c1.run = .waiting || !queuesEmpty s.c0 || !queuesEmpty s.c1)

/-- A tick counts towards a deadlock (09 R223). -/
def dlCounts (s : State) : Bool :=
  blocked s && !s.tmr.progress && !parkedWait s && !s.parked && s.core ≠ .held && s.c0.run ≠ .held && s.c1.run ≠ .held

/-- A transfer is stalled on the fabric: it waits for an answer, or its port's link is down (09 R224). -/
def fabricStalled (s : State) (r : Running) : Bool :=
  match r.job with
  | .xfer x => s.outst.any (fun q => q.owner = .word r.id) || (!x.todo.isEmpty && linkDownP s (portOf s (descOf x.desc).fp x.ch))
  | _ => false

/-- The Starter engine's requests of one purpose are stalled on the fabric: they wait for an answer, or for a port whose link is up (09
R224; log 27). -/
def starterStalled (s : State) (why : Nat) : Bool :=
  s.outst.any (fun r => r.owner = .starter && purpose r.aux = why) ||
    (s.st.todo.any (fun r => purpose r.aux = why) && s.linkA && (!s.features.fports || s.linkB))

/-- A transfer ends without its completion flag, its requests abandoned (09 R224, 07 R392). -/
def endStalled (s : State) (r : Running) : State := dropRun (abandon s (.word r.id)) r.id

/-- A copy, a record or a seal of the Starter engine that is stalled on the fabric fails, and the SSEAL that waits for it ends
without its completion flag (09 R224, 13 R290). -/
def endStarter (s : State) : State :=
  let copy := s.st.snap = .copying && (starterStalled s forCopy || starterStalled s forPage)
  let s := if copy || starterStalled s forSeal then
      { s with running := s.running.filter (fun r => match r.job with | .seal _ => false | _ => true) } else s
  let s := if copy then starterErr s forCopy else s
  let s := if starterStalled s forRecord then starterErr s forRecord else s
  if starterStalled s forSeal then starterErr s forSeal else s

/-- A context's FWAIT released by the timer (09 R224). DEDUCED (log 99): so is the layout fence that open incoming transfers hold, whose
wait the detector ends (12 R274). -/
def timerRelease (orc : Nat) (x : Context) : Context :=
  match x.wait with
  | .flag _ => setCR (resume x) 3
  | .lfence => if orc = 0 then x else setCR (resume x) 3
  | _ => x

/-- The flag of a context's FWAIT. -/
def fwaitFlag (x : Context) : Option Nat :=
  match x.wait with
  | .flag f => some f
  | _ => none

/-- An engine's queue is blocked: it has a word that waits on a flag, or a running word that is stalled (09 R225). -/
def engBlocked (s : State) (e : Eng) : Bool :=
  allCtxs.any (fun c => headWaits s c e) || s.running.any (fun r => r.eng = e && wordStalled s r)

/-- DL_STATUS at a declaration (09 R225). -/
def dlWord (s : State) : W32 :=
  let flagF (x : Context) : Nat := (fwaitFlag x).getD 0
  BitVec.ofNat 32
    (2 ^ 31 + ((allEngs.map (fun e => if engBlocked s e then 2 ^ (24 + engNum e) else 0)).foldl (· + ·) 0) +
     b2n (fwaitFlag s.c1).isSome * 2 ^ 23 + b2n (fwaitFlag s.c0).isSome * 2 ^ 22 + flagF s.c1 * 2 ^ 12 + flagF s.c0 * 2 ^ 2)

/-- LOCAL_DEADLOCK declared (09 R224). -/
def declareDeadlock (s : State) : State :=
  let r : Report := { code := fDeadlock, rep := timerRep, ctx := none }
  let held := effReact s r = .holdCore || effReact s r = .resetReq
  let s := modTmr s (fun t => { t with dlStatus := dlWord s, dlCount := 0 })
  let s := endStarter ((s.running.filter (fabricStalled s)).foldl endStalled s)
  let s := if held then s else woke s <| modCtx (modCtx s .c0 (timerRelease (orc s))) .c1 (timerRelease (orc s))
  report s fDeadlock timerRep none

/-- The timers are at the step boundary after the last tick: an expiry takes effect here (01 R18). -/
def timersDue (s : State) : Bool := awake s && atBoundary s && !s.tmr.ticked

/-- LOCAL_DEADLOCK: the window is used up; a window of 0 disables the detector (09 R224, R225). -/
def execLocalDeadlock (s : State) : Out :=
  guarded (timersDue s && s.tmr.dlWindow ≠ 0 && s.tmr.dlCount ≥ s.tmr.dlWindow.toNat) s (declareDeadlock s)

/-! ### Rest, lending, measurement and the time base -/

/-- REST_EXPIRY: the interval is that of the last tick. It follows the occurrences of its boundary, one of which may have restarted the timer
(14 R319, R320). -/
def execRestExpiry (s : State) : Out :=
  guarded (timersDue s && s.flt.restRun && s.flt.restCnt ≥ max 1 s.flt.restIn.toNat) s (restExpire s)

/-- A context is WAITING, its flag wait not yet satisfied, or HALTED. -/
def lendIdle (x : Context) : Bool := ctxIdle x && (match x.wait with | .flagSat _ _ => false | _ => true)

/-- A lending wait: no matrix word runs, and each context is WAITING or HALTED (09 R226); the flag that a context waits for ends the wait. -/
def lendWait (s : State) : Bool := !engineBusy s .matrix && lendIdle s.c0 && lendIdle s.c1

/-- An offer is due: the threshold has passed, a wait is on a PARKED flag, or the core is parked (09 R226, 15 R348). DEDUCED (log 100): the
wait on a PARKED flag makes its offer within a lending wait only. -/
def lendDue (s : State) : Bool :=
  (lendWait s && ((s.tmr.lendThr ≠ 0 && s.tmr.lendCnt ≥ s.tmr.lendThr.toNat) || parkedWait s)) ||
    (s.parked && !engineBusy s .matrix)

/-- LEND_OFFER: PM_LEND goes high until the next PM_RISE_REQ (09 R226, 16 R367). -/
def execLendOffer (s : State) : Out :=
  guarded (timersDue s && lendDue s && !s.pwr.req) s (modPwr s (fun p => { p with lend := true }))

/-- Ticks of a measurement window (17 R384). -/
def windowLen (s : State) : Nat := s.cfg.freq / 100

/-- STEP_RATE_WINDOW: a window closes; `nominal` is what the replica counted in it (17 R384). -/
def execStepRateWindow (nominal : BitVec 24) (s : State) : Out :=
  guarded (timersDue s && !s.tmr.lost && s.tmr.winTicks ≥ windowLen s) s
    (modTmr s (fun t => { t with srValid := true, srCount := BitVec.ofNat 24 t.winSteps, srNominal := nominal, winSteps := 0,
                                 winTicks := t.winTicks - windowLen s }))

/-- TBASE_LOST: recorded once (14 R325). -/
def execTbaseLost (s : State) : Out :=
  guarded (timersDue s && !s.tmr.lost && s.tmr.sinceEdge ≥ 65536) s
    (report (modTmr s (fun t => { t with lost := true })) fTbase timerRep none)

/-- TBASE_RETURN: the timers resume (14 R325). -/
def execTbaseReturn (s : State) : Out :=
  guarded (awake s && s.tmr.lost) s (modTmr s (fun t => { t with lost := false, sinceEdge := 0 }))

/-- One tick of the time base (01 R18): TIME, the Rest timer, the deadlock window, the lending threshold, the measurement window
and LEND_TICKS; none while the time base is lost (14 R325). -/
def tickOn (s : State) : State :=
  let s := if s.pwr.lend then count s 20 1 else s
  { s with
    flt := { s.flt with restCnt := if s.flt.restRun then s.flt.restCnt + 1 else s.flt.restCnt, restIn := s.flt.rest },
    tmr := { s.tmr with
      time := s.tmr.time + 1, ticked := true, sinceEdge := 0, winTicks := s.tmr.winTicks + 1,
      dlCount := if dlCounts s then s.tmr.dlCount + 1 else s.tmr.dlCount,
      lendCnt := if lendWait s then s.tmr.lendCnt + 1 else 0 } }

/-- A tick of the time base reaches the core's timers. -/
def tick (s : State) : State := if live s && !s.tmr.lost then tickOn s else s

/-! ### Activity, budget and the Rise -/

/-- The level one code nearer to its target. -/
def towards (v t : BitVec 4) : BitVec 4 := if v < t then v + 1 else if t < v then v - 1 else v

/-- Gray code (16 R364). -/
def grayCode (v : BitVec 4) : BitVec 4 := v ^^^ (v >>> 1)

/-- ACTIVITY_UPDATE (16 R364): the target every 64 steps, one code towards it every 4; PM_ACTIVITY carries the level in Gray code. -/
def execActivityUpdate (s : State) : Out :=
  guarded (awake s && (s.pwr.tgtDue || s.pwr.moveDue)) s
    (modPwr s (fun p =>
      let t := if p.tgtDue then BitVec.ofNat 4 (min 15 (p.wavesDone / 4)) else p.target
      let v := if p.moveDue then towards p.level t else p.level
      { p with target := t, level := v, gray := grayCode v, tgtDue := false, moveDue := false }))

/-- BUDGET_SAMPLE (16 R365): a value is taken after three consecutive samples agree. -/
def execBudgetSample (code : Byte) (s : State) : Out :=
  guarded (awake s && s.pwr.smpDue) s
    (modPwr s (fun p =>
      let l := (p.samples ++ [code]).drop ((p.samples.length + 1) - 3)
      { p with samples := l, smpDue := false, budget := if l = [code, code, code] then code else p.budget }))

/-- This core requests the Rise of its gang: member (0, 0), or a core in no gang (03 R81). -/
def riseLead (s : State) : Bool := s.cfg.shape = 0 || (s.cfg.posr = 0 && s.cfg.posc = 0)

/-- PM_RISE_REQ: a Rise is required for the next wave; any lending offer is withdrawn (03 R81, 16 R366). -/
def execPmRiseReq (s : State) : Out :=
  guarded (awake s && s.pwr.need && engineBusy s .matrix && riseLead s && !s.pwr.req && !s.pwr.gnt && !s.pwr.rising) s
    (modPwr s (fun p => { p with req := true, lend := false }))

/-- W of a Rise (10 R240). -/
def riseLen (rlen : BitVec 2) : Nat := match rlen.toNat with | 0 => 16 | 1 => 32 | 2 => 64 | _ => 96

/-- The grant of a Rise goes down the gang as CTL[137] (16 R360): row 0 passes it on, where the shape uses a link for it (R361). -/
def riseLink (s : State) (b : Bool) : State :=
  if ganged s && passesCtl s then { s with mesh := { s.mesh with ctl := setBit s.mesh.ctl 137 b } } else s

/-- PM_RISE_GNT: the grant is resolved and wave 1 starts; another member of the gang takes it from the gang links (03 R81, 16
R360, R366). -/
def execPmRiseGnt (s : State) : Out :=
  guarded (awake s && !s.pwr.rising && (if riseLead s then s.pwr.req && !s.pwr.gnt else s.pwr.need && engineBusy s .matrix)) s
    (modPwr (riseLink (count s 5 1) true) (fun p =>
      { p with gnt := riseLead s, rising := true, need := false, wave := 1, w := riseLen s.cfg.rlen, holdPer := 0,
               filler := false, lend := false }))

/-- PM_RISE_GNT_LOWER (16 R366): the power manager lowers its level; another member of the gang, which passes RISE on, sees it fall on its
gang link (16 R360). -/
def execPmRiseGntLower (s : State) : Out :=
  guarded (s.pwr.gnt || (!riseLead s && bit s.mesh.ctl 137)) s (modPwr (riseLink s false) (fun p => { p with gnt := false }))

/-- FILLER_STOP: the filler stops after period L of a hold (03 R80). -/
def execFillerStop (s : State) : Out :=
  guarded (awake s && s.pwr.filler && s.pwr.holdPer ≥ fillLen s) s (modPwr s (fun p => { p with filler := false }))

/-! ### Broken pairs, alarms and links -/

/-- WIRE: a pair that was sampled at the last boundary reads (0,0) or (1,1) there and at the coming one, which records it and from which
on the pair is ignored; reporter 15 has none (14 R305, R307). A broken alarm pair no longer reads (1,0). -/
def execWire (r : BitVec 4) (s : State) : Out :=
  let n := r.toNat
  guarded (awake s && n ≠ 15 && bit s.flt.wireSeen n && !bit (ignored s.flt) n && !s.flt.repAck.contains n) s
    (modFlt s (fun f => { f with wireDue := setBit f.wireDue n true, fin := f.fin && n ≠ 14, finNew := f.finNew && n ≠ 14 }))

/-- FIN_ALARM: the pair changes to (1,0); the coming boundary records it (14 R308). -/
def execFinAlarm (s : State) : Out :=
  guarded (alive s && !s.flt.fin && !bit (ignored s.flt) 14) s (modFlt s (fun f => { f with fin := true, finNew := true }))

/-- FIN_QUIET. -/
def execFinQuiet (s : State) : Out :=
  guarded (alive s && s.flt.fin) s (modFlt s (fun f => { f with fin := false, finNew := false }))

/-- The level on a port's LINKDOWN pin. -/
def pinOf (s : State) (p : Port) : Bool :=
  match p with
  | .fa => s.pinA
  | .fb => s.pinB

/-- A port's LINKDOWN pin driven. -/
def setPin (s : State) (p : Port) (b : Bool) : State :=
  match p with
  | .fa => { s with pinA := b }
  | .fb => { s with pinB := b }

/-- A port's link level as the core has sampled it. -/
def setLink (s : State) (p : Port) (b : Bool) : State :=
  match p with
  | .fa => { s with linkA := b }
  | .fb => { s with linkB := b }

/-- The code of a link that goes down. -/
def linkCode : Port → Nat
  | .fa => fLinkDownA
  | .fb => fLinkDownB

/-- A pin changes: a core past self-initialisation samples it at the coming boundary (01 R16); before, nothing is recorded (15 R344). -/
def movePin (s : State) (p : Port) (b : Bool) : State := if awake s then setPin s p b else setLink (setPin s p b) p b

/-- LINK_DOWN: the pin is asserted (14 R324). -/
def execLinkDown (p : Port) (s : State) : Out := guarded (alive s && portExists s p && !pinOf s p) s (movePin s p true)

/-- LINKDOWN_DEASSERT (14 R324). -/
def execLinkdownDeassert (p : Port) (s : State) : Out := guarded (alive s && pinOf s p) s (movePin s p false)

/-- A boundary samples a port's pin: the one at which it becomes asserted records it (01 R16; 14 R324). -/
def sampleLink (s : State) (p : Port) : State :=
  setLink (if pinOf s p && !linkDownP s p then report s (linkCode p) (portRep p) none else s) p (pinOf s p)

/-- Both pins sampled. -/
def linkPart (s : State) : State := sampleLink (sampleLink s .fa) .fb

/-! ### Resets and supplies -/

/-- The state after a full reset (15 R349): what the surroundings hold (pins, supplies, wrapper, a request on its way), the sampled
identity and the symbols and flits already sent stay. -/
def fullReset (s : State) : State :=
  { State.reset with
    pending := s.pending, freeCtr := s.freeCtr, features := s.features, powered := s.powered, vcore := s.vcore, vmem := s.vmem,
    rstN := s.rstN, wir := s.wir, wrap := s.wrap, testRes := s.testRes, serial := s.serial, pwrdom := s.pwrdom, mcOut := s.mcOut,
    cutAddr := s.cutAddr, cutReq := s.cutReq, faTx := s.faTx, fbTx := s.fbTx, syncSent := s.syncSent, linkA := s.pinA,
    linkB := s.pinB, pinA := s.pinA, pinB := s.pinB, flt := { State.reset.flt with fin := s.flt.fin, finNew := s.flt.fin },
    pwr := { State.reset.pwr with gnt := s.pwr.gnt }, cfg := Cfg.default s.features.pages }

/-- A request that is arriving and may be this core's: one addressed to it, or one whose DST has not arrived (15 R337). -/
def arriving (s : State) (f : List Byte) : Bool :=
  hostOk s && s.chainAddr ≠ 0 && (forMe s f || (f.length = 1 && frRequest f && frType f ≠ 3))

/-- A reset cuts short the request `req` that is arriving, or none: its response follows its last symbol (15 R337). -/
def cutArriving (s : State) (req : List Byte) : State :=
  if !arriving s req then s
  else if req.length ≥ frameLen req then resetAnswer s req
  else { s with cutAddr := s.chainAddr, cutReq := req }

/-- An asserted RST_N is resolved: the core enters INIT (15 R343, R344). -/
def resetNow (s : State) : State := fullReset { cutWaiting s with rstN := false }

/-- RST_N_ASSERT: the core enters INIT at the boundary of the step under way, or at once where none is (01 R16; 15 R344); `req` is the
addressed request being consumed, or empty. A request that the loader holds, or that waits, is being consumed too, and has arrived whole (08
R203, 15 R337). -/
def execRstNAssert (req : List Byte) (s : State) : Out :=
  if !s.rstN || s.rstDue then .next s
  else if !alive s then .next { s with rstN := false }
  else
    let t := cutArriving (cutWaiting s) req
    .next (if midStep s && awake s then { t with rstDue := true } else resetNow t)

/-- RST_N_RELEASE: the identity is sampled and self-initialisation starts (15 R340, R345). -/
def execRstNRelease (die : BitVec 48) (inst : BitVec 16) (pwr : Byte) (s : State) : Out :=
  occurs (!s.rstN) s
    (if alive s then { s with rstN := true, serial := die ++ inst, pwrdom := pwr } else { s with rstN := true })

/-- SELF_INIT_COMPLETE (15 R343, R345). -/
def execSelfInitComplete (s : State) : Out := occurs (live s && s.core = .init) s { s with core := .unaddressed }

/-- A context with unspecified contents in canonical form. -/
def boundCtx (x : Context) : Context :=
  { x with regs := bounded 0 32 (x.regs.filter (fun e => e.1 ≠ 0)), estage := bounded 0 8 x.estage, ready := bounded 0 40 x.ready,
           vregs := bounded 0 131072 x.vregs, masks := bounded 0 8 x.masks, mslots := bounded 0 16 x.mslots,
           rslots := bounded 0 8 x.rslots, queue := bounded [] 6 x.queue, hwait := bounded .pending 6 x.hwait }

/-- A running word with unspecified contents, its record of the context in canonical form. -/
def boundRun (r : Running) : Running :=
  match r.job with
  | .stalled x ws => { r with job := .stalled (boundCtx x) ws }
  | _ => r

/-- The array and its links with unspecified contents in canonical form. -/
def boundMesh (m : Mesh) : Mesh :=
  { m with cells := bounded 0 16384 m.cells, shadows := bounded 0 16384 m.shadows,
           slices := m.slices.map (fun x => { x with loads := x.loads.filter (fun e => e.1 < 16384) }), geOut := snorm 0 m.geOut, geExp := snorm 0 m.geExp,
           gsOut := snorm 0 m.gsOut }

/-- The core with unspecified contents (16 R369, R370; log 2): every table is in its canonical form; what the surroundings hold and
what has been sent stay. -/
def freeAll (s : State) : State :=
  let f := Config.freeState s.freeCtr
  { f with
    pending := s.pending, freeCtr := s.freeCtr + 1, features := s.features, powered := s.powered, vcore := s.vcore, vmem := s.vmem,
    rstN := s.rstN && !s.rstDue, rstDue := false, wir := s.wir, wrap := s.wrap, testRes := s.testRes, mcOut := s.mcOut, cutReq := [],
    faTx := s.faTx,
    fbTx := s.fbTx, syncSent := s.syncSent, mgmt := [], stepDone := [],
    pinA := s.pinA, pinB := s.pinB, c0 := boundCtx f.c0, c1 := boundCtx f.c1, running := f.running.map boundRun,
    flags := bounded Flag.zero 1024 f.flags,
    accOwn := bounded 0 (s.features.pages * 16384) f.accOwn,
    spad := bounded 0 (s.features.pages * 65536) f.spad, spadErr := bounded .good (s.features.pages * 8192) f.spadErr,
    pages := bounded PageSt.empty s.features.pages f.pages, handles := bounded Handle.zero 512 f.handles,
    acc := bounded 0 524288 f.acc, accErr := bounded .good 524288 f.accErr, mesh := boundMesh f.mesh,
    stat := bounded 0 32768 f.stat, statErr := bounded .good 32768 f.statErr, imem := bounded 0 65536 f.imem,
    dmem := bounded 0 65536 f.dmem,
    trackers := bounded Tracker.reset 128 (f.trackers.map (fun e => (e.1, { e.2 with hist := bounded 0 16 e.2.hist }))),
    scrub := bounded 0 64 f.scrub, perf := bounded 0 21 f.perf, perfStep := bounded 0 21 f.perfStep, perfLast := bounded 0 21 f.perfLast, winDone := [],
    flt := { f.flt with fin := s.flt.fin }, pwr := { f.pwr with gnt := s.pwr.gnt } }

/-- SUPPLY_CHANGE: within range, and on any excursion that stays above the keep-state levels, the core runs on, at whatever rate the
supplies give (01 R15, 16 R370); beyond the absolute maximum the surroundings keep out (log 54). -/
def execSupplyChange (vcore vmem : Nat) (s : State) : Out :=
  guarded (s.powered && 500 ≤ vcore && vcore ≤ 880 && 660 ≤ vmem && vmem ≤ 830) s { s with vcore := vcore, vmem := vmem }

/-- What the core and its wrapper lose with a supply: every content is unspecified (15 R349; 16 R370). -/
def loseAll (s : State) : State :=
  let f := Config.freeState s.freeCtr
  { freeAll s with wir := f.wir, wrap := f.wrap, testRes := f.testRes }

/-- SUPPLY_LOSS: a supply falls below its keep-state level and all core state is lost (16 R370, 15 R349). -/
def execSupplyLoss (vcore vmem : Nat) (s : State) : Out :=
  occurs (vcore < 500 || vmem < 660) s
    (let t := { s with powered := false, vcore := vcore, vmem := vmem }
     if s.powered then loseAll t else t)

/-- SUPPLY_UP: a supply is back within range; with both the core awaits the release of RST_N, and where RST_N was not asserted its
contents stay unspecified (15 R328, R344; 16 R370). The supplies come up in either order. -/
def execSupplyUp (vcore vmem : Nat) (s : State) : Out :=
  let c := 550 ≤ vcore && vcore ≤ 850
  let m := 700 ≤ vmem && vmem ≤ 800
  occurs (!s.powered && (c || m) && vcore ≤ 880 && vmem ≤ 830) s
    (let t := { s with vcore := vcore, vmem := vmem }
     if c && m then
       let t := { t with powered := true }
       if t.rstN then t else fullReset t
     else t)

end Sys2Proof.Machine
end

