-- ==== Sys2Proof/Machine/Ring.lean ====
section
/-!
DEFINITION. One step of the step ring and its boundary (01 R12, R16; 03 R78-R80; 06 R130-R132; 09 R207; 14 R320), and the memory
tier's own corrections (06 R152, R153).
-/

namespace Sys2Proof.Machine

/-! ### Bank clashes (06 R125, R130-R132) -/

/-- The bank of a physical address (06 R125). -/
def bankOf (a : Nat) : Nat := (a / 256 % 64) ^^^ (a / 16384 % 64)

/-- The engine that owns a port; the DMA channels' ports also carry the Starter engine's transfers and fabric receives (06 R127). -/
def portEng (p : Nat) : Option Eng :=
  if p < 6 then some .matrix else if p < 10 then some .vector else if p < 12 then some .row else none

/-- A port may make an access: its owner is present, and has a word that runs or has made an access in the step; the ports of the DMA
channels are never idle for want of a word (06 R127). -/
def portActive (s : State) (p : Nat) : Bool :=
  p < 16 && (p ≠ 11 || s.features.rowu) &&
    (match portEng p with
     | some e => engineBusy s e || s.stepSpad.any (fun x => portEng x.port = some e)
     | none => true)

/-- The accesses of a step, port and address: each of the 16 ports presents one at most, within the scratchpad (01 R12). -/
def portAccesses (s : State) : List Nat → List (Nat × Nat) → List (Nat × Nat)
  | _, [] => []
  | seen, (p, a) :: t =>
    if portActive s p && !seen.contains p && a < pageCount s * 65536 then (p, a) :: portAccesses s (p :: seen) t
    else portAccesses s seen t

/-- The largest number of accesses that meet in one bank (06 R130). -/
def kMax (as : List (Nat × Nat)) : Nat :=
  (as.map (fun x => (as.filter (fun y => bankOf y.2 = bankOf x.2)).length)).foldl max 0

/-- BANK_CLASH and BANK_CLASH_XS (06 R132). -/
def countClash (s : State) (k : Nat) : State := if k ≥ 2 then count (count s 3 1) 4 (k - 1) else s

/-! ### The array's wave or hold (03 R78-R80) -/

/-- The array advances a wave: a matrix word runs and no Rise waits for its grant. -/
def waves (s : State) (hold : Bool) : Bool := !hold && engineBusy s .matrix && !s.pwr.need

/-- The array's place after a wave (03 R53): with the last wave of a slice the next one's weights move from the shadow registers into the
cells, and the count starts again (03 R62, R63). -/
def nextWave (m : Mesh) : Mesh :=
  match m.slices with
  | x :: _ => if m.wave + 1 ≥ x.waves then nextSlice m else { m with wave := m.wave + 1 }
  | [] => { m with wave := m.wave + 1 }

/-- A wave completes (03 R53): a Rise counts it and ends with its last (03 R79, 16 R366). -/
def doWave (s : State) : State :=
  modPwr (progress (count { s with mesh := nextWave s.mesh } 2 1)) (fun p =>
    let last := p.rising && p.wave ≥ p.w
    { p with waves := p.waves + 1, holdPer := 0, filler := false, rising := p.rising && !last,
             req := p.req && !last, wave := if p.rising && !last then p.wave + 1 else 0 })

/-- The nominal period beyond which a hold requires a Rise (03 R79, R80). -/
def releasePoint (sfen : Bool) (sfl : BitVec 4) : Nat := if sfen then (sfl.toNat + 2) / 2 else 1

/-- A frozen step of `n` nominal periods: a hold begins under the settings in force, or goes on; a long one requires a Rise and ends
one under way (03 R79, R80; 10 R240). -/
def doHold (s : State) (n : Nat) : State :=
  modPwr (count s 1 1) (fun p =>
    let first := p.holdPer = 0
    let sf := if first then s.cfg.sfen else p.hSfen
    let sl := if first then s.cfg.sfl else p.hSfl
    let per := p.holdPer + max 1 n
    let long := per > releasePoint sf sl
    { p with holdPer := per, hSfen := sf, hSfl := sl, filler := if first then sf else p.filler, need := p.need || long,
             rising := p.rising && !long, req := p.req && !(p.rising && long),
             wave := if p.rising && !long then p.wave else 0 })

/-- The ring's own part of a step. -/
def ringPart (s : State) (hold : Bool) (periods : Nat) (lines : List (Nat × Nat)) : State :=
  let as := portAccesses s [] lines
  let s := countClash (count { s with steps := s.steps + 1 } 0 1) (kMax as)
  let s := if as.isEmpty then s else progress s
  if waves s hold then doWave s else doHold s periods

/-! ### The boundary -/

/-- Arriving and self-addressed sets are known, and a set of RQFLAG makes the sequencer hold a request, whatever EN (11 R259;
log 31); then the flag updates (09 R207 points 1 to 3). -/
def flagPart (s : State) : State :=
  let s := s.selfFlits.foldl takeSet { s with selfFlits := [] }
  let s := if s.stepSets.any (fun e => e.1 = s.sb.rqflag.toNat) then modSb s (fun b => { b with req := true }) else s
  applyFlags s

/-- SYNC_OUT accepts one flit (01 R16): the SRSET that sent it may complete (09 R215). -/
def syncPart (s : State) : State :=
  match s.syncQ with
  | [] => s
  | o :: t =>
    let s := count { s with syncQ := t, syncSent := s.syncSent ++ [o.flit] } 18 1
    match o.word with
    | some id => setJob s id .done
    | none => s

/-- The leader's own copy of its STEP_START arrives (11 R259). -/
def copyPart (s : State) : State :=
  modSb s (fun b => { b with copy := match b.copy with | .sent => .arrived | c => c })

/-- Progress resets the deadlock count, the end of a lending wait its own; the step counts towards the measurement and the monitor
of the time base (09 R223, R226; 14 R325; 17 R384); no tick has passed since this boundary (01 R18). -/
def timerPart (s : State) : State :=
  modTmr s (fun t =>
    { t with dlCount := if t.progress then 0 else t.dlCount, progress := false, ticked := false,
             lendCnt := if lendWait s then t.lendCnt else 0, sinceEdge := t.sinceEdge + 1, winSteps := t.winSteps + 1 })

/-- The activity and budget counts of 64, 4 and 16 steps (16 R364, R365). -/
def powerPart (s : State) : State :=
  modPwr s (fun p =>
    let p := if p.sinceTgt + 1 ≥ 64 then { p with sinceTgt := 0, tgtDue := true, wavesDone := p.waves, waves := 0 }
             else { p with sinceTgt := p.sinceTgt + 1 }
    let p := if p.sinceMove + 1 ≥ 4 then { p with sinceMove := 0, moveDue := true } else { p with sinceMove := p.sinceMove + 1 }
    if p.sinceSmp + 1 ≥ 16 then { p with sinceSmp := 0, smpDue := true } else { p with sinceSmp := p.sinceSmp + 1 })

/-- What lasted only for the step is over. -/
def clearPart (s : State) : State :=
  let f (x : Context) : Context := { x with issued := false }
  { modCtx (modCtx s .c0 f) .c1 f with
    txA := false, txB := false, rxA := false, rxB := false, rxS := false, dmemStep := [], stepSpad := [], stepPages := [],
    stepAcc := [], stepTrk := [], stepDone := [], mesh := { s.mesh with unready := none } }

/-- The updates of a boundary but for the collector's: the flags (09 R207), handle operations (08 R191), owner notices, waits, and the
fences that lost their swap (10 R250) or whose P record is sampled (13 R285). -/
def updatePart (s : State) : State := endPart (lostFences (judgeWaits (applyMarks (applyHandleOps (flagPart s)))))

/-- What the collector and the pins do at a boundary: the management writes that precede it, the links as sampled, the occurrences (14 R320,
R324). The counts of the step before are final when those writes come (17 R386). -/
def collectPart (s : State) : State :=
  let t := commitCounts s
  collect (linkPart (earlyMgmt t.mgmt.length t))

/-- What follows a boundary's updates: page protection that lifts and the held writes that it lets proceed (13 R288), the management accesses
that have arrived within the step (01 R17), and rows that wait for a unit which the end of a word has freed (05 R110). -/
def hostPart (s : State) : State :=
  let t := releaseHeld (liftPart s)
  dealRows (lateMgmt t.mgmt.length (urgeFirst t))

/-- The boundary that ends a step: the flits written in it, the collector, the updates, SYNC_OUT, the step sequencer (11 R259, R261), what
was held, and the counts. -/
def boundary (s : State) : State :=
  timerPart (hostPart (flushCounts (clearPart (powerPart (judgeSeq (copyPart (syncPart (updatePart (collectPart (landFlits s))))))))))

/-- STEP: one cycle of the step ring and its boundary; a reset asserted within it is resolved there, and nothing else of the boundary is
left (01 R16; 15 R344). -/
def execStep (hold : Bool) (periods : Nat) (lines : List (Nat × Nat)) (s : State) : Out :=
  occurs (awake s) s (if s.rstDue then resetNow s else boundary (ringPart (seqDone s) hold periods lines))

/-! ### Corrections of the memory tier (06 R152, R153) -/

/-- ECC_WRITEBACK: a corrected word is written back. -/
def execEccWriteback (w : Nat) (s : State) : Out := guarded (awake s && s.wbPend.contains w) s (cleanWords s [w])

/-- The address of the line in row `r` of a bank (06 R125). -/
def lineAddr (bank r : Nat) : Nat := r * 16384 + (bank ^^^ (r % 64)) * 256

/-- Rows of a bank. -/
def bankRows (s : State) : Nat := pageCount s * 4

/-- One word of a scrubbed line: a single-bit error is corrected in place (06 R153). -/
def scrubWord (s : State) (w : Nat) : State :=
  match eccOf s w with
  | .single => report (count (cleanWords s [w]) 12 1) fSpadCe 8 none
  | _ => s

/-- Completed scrubber passes over the whole tier: the least of the banks' passes. -/
def passes (s : State) : Nat :=
  ((List.range 64).map (fun b => sget 0 s.scrub b / bankRows s)).foldl min (sget 0 s.scrub 0 / bankRows s)

/-- SCRUB: the next row of a bank is read and corrected; an uncorrectable line is reported and left as it is (06 R153, 17 R387). -/
def execScrub (bank : Nat) (s : State) : Out :=
  guarded (awake s && bank < 64) s
    (let n := sget 0 s.scrub bank
     let a := lineAddr bank (n % bankRows s)
     let ws := wordsOf a 256
     let t := if (marked s .double ws).isEmpty then ws.foldl scrubWord s else report s fSpadUe 8 none
     let u := { t with scrub := sput 0 t.scrub bank (n + 1) }
     if passes u > passes s then count u 13 1 else u)

end Sys2Proof.Machine
end

