-- ==== Sys2Proof/Machine/Wrapper.lean ====
section
/-!
DEFINITION. The test wrapper (16 R350, R368, R369): the wrapper instruction register, the bypass bit, the boundary register and the
result register, each shifted between WSI and WSO. Each command loads its instruction and shifts the bits of `wsi` through the register
that it selects, bit 0 first; with none given it shifts nothing. The order of the boundary cells is the model's (log 22).
-/

namespace Sys2Proof.Machine

/-- The wrapper has a supply. -/
def wrapOn (s : State) : Bool := s.powered

/-! ### The boundary register (16 R350, R368) -/

/-- The signals of a fabric port: width, and whether the core receives it. -/
def fabricCells : List (Nat × Bool) :=
  [(48, false), (128, false), (512, false), (1, false), (1, true), (48, true), (128, true), (512, true), (1, true), (1, false)]

/-- The signals of the gang links: GE_OUT, GW_IN, GS_OUT, GN_IN. -/
def gangCells : List (Nat × Bool) :=
  [(2048, false), (144, false), (1, false), (1, true), (2, true), (2048, true), (144, true), (1, true), (1, false), (2, false),
   (4096, false), (144, false), (1, false), (1, true), (2, true), (4096, true), (144, true), (1, true), (1, false), (2, false)]

/-- The functional signals of the core in the order of 16 R350's table: one cell for each of their bits, from bit 0 up. -/
def boundCells (f : Features) : List (Nat × Bool) :=
  fabricCells ++ (if f.fports then fabricCells else []) ++
  [(64, false), (1, false), (1, true), (64, true), (1, true), (1, false)] ++ (if f.gang then gangCells else []) ++
  [(8, true), (1, true), (1, true), (1, false), (8, false), (1, false), (1, false), (1, true),
   (2, false), (2, true), (4, false), (1, false), (1, true), (1, false), (8, true), (1, true), (48, true), (16, true), (8, true),
   (1, true), (1, true)] ++ (if f.fports then [(1, true)] else [])

/-- The number of boundary cells. -/
def boundLen (f : Features) : Nat := ((boundCells f).map Prod.fst).foldl (· + ·) 0

/-- The cells of one direction, as a mask. -/
def cellMask (inp : Bool) : List (Nat × Bool) → Nat
  | [] => 0
  | (n, i) :: t => cellMask inp t * 2 ^ n + (if i = inp then 2 ^ n - 1 else 0)

/-- The input cells capture the levels of the functional inputs; the output cells keep theirs. -/
def capture (f : Features) (bound pins : Nat) : Nat :=
  (bound &&& cellMask false (boundCells f)) ||| (pins &&& cellMask true (boundCells f))

/-- What the boundary register drives on the functional outputs: under WS_EXTEST and WS_CLAMP. -/
def driven (s : State) : Option Nat :=
  if s.wir = 0x01 || s.wir = 0x04 then some (s.wrap.bound &&& cellMask false (boundCells s.features)) else none

/-! ### Shifting -/

/-- Bits shifted through a register of `n` cells: its contents after, and the bits that leave it. -/
def shiftReg (n v : Nat) : List Bool → Nat × List Bool
  | [] => (v, [])
  | b :: bs =>
    let r := shiftReg n (v / 2 + b2n b * 2 ^ (n - 1)) bs
    (r.1, (v % 2 = 1) :: r.2)

/-- Bits that leave on WSO. -/
def wsoOut (s : State) (bs : List Bool) : State := { s with wrap := { s.wrap with wso := s.wrap.wso ++ bs } }

/-- Bits shifted through the bypass register. -/
def shiftBypass (s : State) (wsi : List Bool) : State :=
  let r := shiftReg 1 (b2n s.wrap.bypass) wsi
  wsoOut { s with wrap := { s.wrap with bypass := r.1 = 1 } } r.2

/-- Bits shifted through the boundary register. -/
def shiftBound (s : State) (wsi : List Bool) : State :=
  let r := shiftReg (boundLen s.features) s.wrap.bound wsi
  wsoOut { s with wrap := { s.wrap with bound := r.1 } } r.2

/-- Bits shifted through the result register's copy of the result: the result stays. -/
def shiftResult (s : State) (wsi : List Bool) : State := wsoOut s (shiftReg 64 s.testRes.toNat wsi).2

/-- Bits shifted through the scan chains of the logic tier: what leaves them is unspecified (log 2). -/
def shiftScan (s : State) (wsi : List Bool) : State :=
  let m := snorm 0 (Config.freeWords s.freeCtr)
  wsoOut { s with freeCtr := s.freeCtr + 1 } ((List.range wsi.length).map (fun i => (sget 0 m i).toNat % 2 = 1))

/-! ### Instructions -/

/-- A code that is or acts as WS_BYPASS is loaded: after another instruction the core's contents are unspecified, unless RST_N is
asserted (16 R369). -/
def toBypass (s : State) (code : Byte) : State :=
  let t := { s with wir := code }
  if transparent s then t
  else if t.rstN then freeAll t else fullReset t

/-- Another instruction is loaded: the core no longer operates functionally (16 R369). -/
def loadWir (s : State) (code : Byte) : State := { s with wir := code }

/-- WS_BYPASS, or a code that acts as it. -/
def execWsBypass (s : State) (code : Byte := 0) (wsi : List Bool := []) : Out :=
  occurs (wrapOn s && !testCodes.contains code) s (shiftBypass (toBypass s code) wsi)
/-- WS_EXTEST: the inputs stand at `pins`. -/
def execWsExtest (s : State) (pins : Nat := 0) (wsi : List Bool := []) : Out :=
  occurs (wrapOn s) s
    (shiftBound { loadWir s 0x01 with wrap := { s.wrap with bound := capture s.features s.wrap.bound pins } } wsi)
/-- WS_PRELOAD. -/
def execWsPreload (s : State) (wsi : List Bool := []) : Out := occurs (wrapOn s) s (shiftBound (loadWir s 0x02) wsi)
/-- WS_INTEST_SCAN. -/
def execWsIntestScan (s : State) (wsi : List Bool := []) : Out := occurs (wrapOn s) s (shiftScan (loadWir s 0x03) wsi)
/-- WS_CLAMP. -/
def execWsClamp (s : State) (wsi : List Bool := []) : Out := occurs (wrapOn s) s (shiftBypass (loadWir s 0x04) wsi)
/-- WS_SAFE: every REQ and PM output low, FAULT at (0,1). -/
def execWsSafe (s : State) (wsi : List Bool := []) : Out :=
  occurs (wrapOn s) s
    (let t := modPwr (loadWir s 0x05) (fun p => { p with req := false, lend := false, level := 0, gray := 0 })
     shiftBypass (modFlt t (fun f => { f with out := false })) wsi)
/-- WT_MBIST. -/
def execWtMbist (s : State) : Out := occurs (wrapOn s) s (loadWir s 0x10)
/-- WT_LBIST. -/
def execWtLbist (s : State) : Out := occurs (wrapOn s) s (loadWir s 0x11)
/-- WT_RING. -/
def execWtRing (s : State) : Out := occurs (wrapOn s) s (loadWir s 0x12)
/-- WT_RESULT. -/
def execWtResult (s : State) (wsi : List Bool := []) : Out := occurs (wrapOn s) s (shiftResult (loadWir s 0x13) wsi)

/-- The result register after a test: DONE and PASS; the first failing bank and the failing words of a memory test, the WRCK periods
of WT_RING. -/
def testResult (s : State) (pass : Bool) (bank : BitVec 6) (words : BitVec 24) (wrck : W32) : W64 :=
  let r := setBit (setBit s.testRes 63 true) 62 pass
  if s.wir = 0x12 then setFld r 0 32 wrck.toNat else setFld (setFld r 56 6 bank.toNat) 32 24 words.toNat

/-- TEST_DONE: a built-in test completes. -/
def execTestDone (pass : Bool) (bank : BitVec 6) (words : BitVec 24) (wrck : W32) (s : State) : Out :=
  occurs (wrapOn s && (s.wir = 0x10 || s.wir = 0x11 || s.wir = 0x12)) s
    { s with testRes := testResult s pass bank words wrck }

/-- WRSTN_LOW: WS_BYPASS is loaded. -/
def execWrstnLow (s : State) : Out := occurs (wrapOn s) s (toBypass s 0)

end Sys2Proof.Machine
end

