-- ==== Sys2Proof/Machine/Dispatch.lean ====
section
/-! DEFINITION. Every command and its meaning, one arm for each constructor. -/

namespace Sys2Proof.Machine

def exec (i : Instr) (s : State) : Host.Outcome State Fault Refusal :=
  match i with
  | .step hold periods lines => Sys2Proof.Machine.execStep hold periods lines s
  | .eccWriteback w => Sys2Proof.Machine.execEccWriteback w s
  | .scrub bank => Sys2Proof.Machine.execScrub bank s
  | .add c rd ra rb => Sys2Proof.Machine.execAdd c rd ra rb s
  | .sub c rd ra rb => Sys2Proof.Machine.execSub c rd ra rb s
  | .and c rd ra rb => Sys2Proof.Machine.execAnd c rd ra rb s
  | .or c rd ra rb => Sys2Proof.Machine.execOr c rd ra rb s
  | .xor c rd ra rb => Sys2Proof.Machine.execXor c rd ra rb s
  | .sll c rd ra rb => Sys2Proof.Machine.execSll c rd ra rb s
  | .srl c rd ra rb => Sys2Proof.Machine.execSrl c rd ra rb s
  | .sra c rd ra rb => Sys2Proof.Machine.execSra c rd ra rb s
  | .slt c rd ra rb => Sys2Proof.Machine.execSlt c rd ra rb s
  | .sltu c rd ra rb => Sys2Proof.Machine.execSltu c rd ra rb s
  | .mul c rd ra rb => Sys2Proof.Machine.execMul c rd ra rb s
  | .mulhu c rd ra rb => Sys2Proof.Machine.execMulhu c rd ra rb s
  | .addi c rd ra imm => Sys2Proof.Machine.execAddi c rd ra imm s
  | .andi c rd ra imm => Sys2Proof.Machine.execAndi c rd ra imm s
  | .ori c rd ra imm => Sys2Proof.Machine.execOri c rd ra imm s
  | .xori c rd ra imm => Sys2Proof.Machine.execXori c rd ra imm s
  | .slti c rd ra imm => Sys2Proof.Machine.execSlti c rd ra imm s
  | .shi c rd ra imm => Sys2Proof.Machine.execShi c rd ra imm s
  | .lui c rd imm => Sys2Proof.Machine.execLui c rd imm s
  | .lw c rd ra imm => Sys2Proof.Machine.execLw c rd ra imm s
  | .sw c rd ra imm => Sys2Proof.Machine.execSw c rd ra imm s
  | .lde c ed ra imm => Sys2Proof.Machine.execLde c ed ra imm s
  | .ste c ed ra imm => Sys2Proof.Machine.execSte c ed ra imm s
  | .beq c ra rb off => Sys2Proof.Machine.execBeq c ra rb off s
  | .bne c ra rb off => Sys2Proof.Machine.execBne c ra rb off s
  | .blt c ra rb off => Sys2Proof.Machine.execBlt c ra rb off s
  | .bge c ra rb off => Sys2Proof.Machine.execBge c ra rb off s
  | .bltu c ra rb off => Sys2Proof.Machine.execBltu c ra rb off s
  | .bgeu c ra rb off => Sys2Proof.Machine.execBgeu c ra rb off s
  | .jal c rd off => Sys2Proof.Machine.execJal c rd off s
  | .jalr c rd ra imm => Sys2Proof.Machine.execJalr c rd ra imm s
  | .bcr c mask off => Sys2Proof.Machine.execBcr c mask off s
  | .crclr c mask => Sys2Proof.Machine.execCrclr c mask s
  | .efldi c ed pos imm => Sys2Proof.Machine.execEfldi c ed pos imm s
  | .efld c ed pos ra lenm1 => Sys2Proof.Machine.execEfld c ed pos ra lenm1 s
  | .erd c rd es k => Sys2Proof.Machine.execErd c rd es k s
  | .issue c ed => Sys2Proof.Machine.execIssue c ed s
  | .fset c ra => Sys2Proof.Machine.execFset c ra s
  | .fclr c ra => Sys2Proof.Machine.execFclr c ra s
  | .fwait c ra => Sys2Proof.Machine.execFwait c ra s
  | .frd c rd ra => Sys2Proof.Machine.execFrd c rd ra s
  | .halloc c rd ra rb => Sys2Proof.Machine.execHalloc c rd ra rb s
  | .hfree c rd ra rb => Sys2Proof.Machine.execHfree c rd ra rb s
  | .hrebase c rd ra rb => Sys2Proof.Machine.execHrebase c rd ra rb s
  | .hflags c rd ra rb => Sys2Proof.Machine.execHflags c rd ra rb s
  | .hdrain c rd ra rb => Sys2Proof.Machine.execHdrain c rd ra rb s
  | .hrd c rd ra rb => Sys2Proof.Machine.execHrd c rd ra rb s
  | .srd c rd num => Sys2Proof.Machine.execSrd c rd num s
  | .sfence c => Sys2Proof.Machine.execSfence c s
  | .snapf c ra => Sys2Proof.Machine.execSnapf c ra s
  | .lfence c => Sys2Proof.Machine.execLfence c s
  | .halt c => Sys2Proof.Machine.execHalt c s
  | .cstart c ra => Sys2Proof.Machine.execCstart c ra s
  | .fwIllegal c w => Sys2Proof.Machine.execFwIllegal c w s
  | .fwPcRange c => Sys2Proof.Machine.execFwPcRange c s
  | .waitSatisfied w => Sys2Proof.Machine.execWaitSatisfied w s
  | .wordComplete id => Sys2Proof.Machine.execWordComplete id s
  | .mnop c w => Sys2Proof.Machine.execMnop c w s
  | .mset c w => Sys2Proof.Machine.execMset c w s
  | .mma c w g => Sys2Proof.Machine.execMma c w g s
  | .mdrain c w => Sys2Proof.Machine.execMdrain c w s
  | .mzero c w => Sys2Proof.Machine.execMzero c w s
  | .mma6 c w g => Sys2Proof.Machine.execMma6 c w g s
  | .vnop c w => Sys2Proof.Machine.execVnop c w s
  | .vadd c w => Sys2Proof.Machine.execVadd c w s
  | .vsub c w => Sys2Proof.Machine.execVsub c w s
  | .vmul c w => Sys2Proof.Machine.execVmul c w s
  | .vfma c w => Sys2Proof.Machine.execVfma c w s
  | .vmin c w => Sys2Proof.Machine.execVmin c w s
  | .vmax c w => Sys2Proof.Machine.execVmax c w s
  | .vabs c w => Sys2Proof.Machine.execVabs c w s
  | .vneg c w => Sys2Proof.Machine.execVneg c w s
  | .vsqrt c w => Sys2Proof.Machine.execVsqrt c w s
  | .vrcp c w => Sys2Proof.Machine.execVrcp c w s
  | .vrsqrt c w => Sys2Proof.Machine.execVrsqrt c w s
  | .vexp2 c w => Sys2Proof.Machine.execVexp2 c w s
  | .vlog2 c w => Sys2Proof.Machine.execVlog2 c w s
  | .vand c w => Sys2Proof.Machine.execVand c w s
  | .vor c w => Sys2Proof.Machine.execVor c w s
  | .vxor c w => Sys2Proof.Machine.execVxor c w s
  | .vshl c w => Sys2Proof.Machine.execVshl c w s
  | .vshr c w => Sys2Proof.Machine.execVshr c w s
  | .vsra c w => Sys2Proof.Machine.execVsra c w s
  | .vcmp c w => Sys2Proof.Machine.execVcmp c w s
  | .vsel c w => Sys2Proof.Machine.execVsel c w s
  | .mlogic c w => Sys2Proof.Machine.execMlogic c w s
  | .vslide c w => Sys2Proof.Machine.execVslide c w s
  | .viota c w => Sys2Proof.Machine.execViota c w s
  | .vcompress c w => Sys2Proof.Machine.execVcompress c w s
  | .vsplat c w => Sys2Proof.Machine.execVsplat c w s
  | .vred c w => Sys2Proof.Machine.execVred c w s
  | .vscan c w => Sys2Proof.Machine.execVscan c w s
  | .vcvt c w => Sys2Proof.Machine.execVcvt c w s
  | .vcast c w => Sys2Proof.Machine.execVcast c w s
  | .vmxe c w => Sys2Proof.Machine.execVmxe c w s
  | .vmxd c w => Sys2Proof.Machine.execVmxd c w s
  | .vtrkRead c w => Sys2Proof.Machine.execVtrkRead c w s
  | .vtrkWrite c w => Sys2Proof.Machine.execVtrkWrite c w s
  | .vtrkReset c w => Sys2Proof.Machine.execVtrkReset c w s
  | .vtrkAdvance c w => Sys2Proof.Machine.execVtrkAdvance c w s
  | .vrand c w => Sys2Proof.Machine.execVrand c w s
  | .vload c w => Sys2Proof.Machine.execVload c w s
  | .vstore c w => Sys2Proof.Machine.execVstore c w s
  | .vgather c w => Sys2Proof.Machine.execVgather c w s
  | .vscatter c w => Sys2Proof.Machine.execVscatter c w s
  | .vacc c w => Sys2Proof.Machine.execVacc c w s
  | .vstat c w => Sys2Proof.Machine.execVstat c w s
  | .rnop c w => Sys2Proof.Machine.execRnop c w s
  | .lnf c w => Sys2Proof.Machine.execLnf c w s
  | .rmsf c w => Sys2Proof.Machine.execRmsf c w s
  | .smf c w => Sys2Proof.Machine.execSmf c w s
  | .rset c w => Sys2Proof.Machine.execRset c w s
  | .lnb c w => Sys2Proof.Machine.execLnb c w s
  | .rmsb c w => Sys2Proof.Machine.execRmsb c w s
  | .smb c w => Sys2Proof.Machine.execSmb c w s
  | .rsave c w => Sys2Proof.Machine.execRsave c w s
  | .rload c w => Sys2Proof.Machine.execRload c w s
  | .rowDone u => Sys2Proof.Machine.execRowDone u s
  | .dnop c w => Sys2Proof.Machine.execDnop c w s
  | .dxfer c w => Sys2Proof.Machine.execDxfer c w s
  | .dwopen c w => Sys2Proof.Machine.execDwopen c w s
  | .dwclose c w => Sys2Proof.Machine.execDwclose c w s
  | .stkRdSend ch starter idx => Sys2Proof.Machine.execStkRdSend ch starter idx s
  | .stkWrSend ch starter idx => Sys2Proof.Machine.execStkWrSend ch starter idx s
  | .winWrSend ch idx => Sys2Proof.Machine.execWinWrSend ch idx s
  | .stkRdRsp p route hdr data => Sys2Proof.Machine.execStkRdRsp p route hdr data s
  | .stkWrAck p route hdr data => Sys2Proof.Machine.execStkWrAck p route hdr data s
  | .winAck p route hdr data => Sys2Proof.Machine.execWinAck p route hdr data s
  | .nack p route hdr data => Sys2Proof.Machine.execNack p route hdr data s
  | .fabricFlitDiscard p route hdr data => Sys2Proof.Machine.execFabricFlitDiscard p route hdr data s
  | .winWrReceive p route hdr data => Sys2Proof.Machine.execWinWrReceive p route hdr data s
  | .winAckSend p => Sys2Proof.Machine.execWinAckSend p s
  | .snop c w => Sys2Proof.Machine.execSnop c w s
  | .srset c w => Sys2Proof.Machine.execSrset c w s
  | .sall c w => Sys2Proof.Machine.execSall c w s
  | .setFlit f => Sys2Proof.Machine.execSetFlit f s
  | .lostFlit f => Sys2Proof.Machine.execLostFlit f s
  | .parkFlit f => Sys2Proof.Machine.execParkFlit f s
  | .unparkFlit f => Sys2Proof.Machine.execUnparkFlit f s
  | .stepStartFlit f => Sys2Proof.Machine.execStepStartFlit f s
  | .stepMismatchFlit f => Sys2Proof.Machine.execStepMismatchFlit f s
  | .stepStartSend => Sys2Proof.Machine.execStepStartSend s
  | .stepAdmit => Sys2Proof.Machine.execStepAdmit s
  | .tnop c w => Sys2Proof.Machine.execTnop c w s
  | .sfold c w => Sys2Proof.Machine.execSfold c w s
  | .sseal c w => Sys2Proof.Machine.execSseal c w s
  | .setSwap => Sys2Proof.Machine.execSetSwap s
  | .snapshotCapture => Sys2Proof.Machine.execSnapshotCapture s
  | .captureComplete => Sys2Proof.Machine.execCaptureComplete s
  | .pRecordSample => Sys2Proof.Machine.execPRecordSample s
  | .copyPage => Sys2Proof.Machine.execCopyPage s
  | .restoreLoad => Sys2Proof.Machine.execRestoreLoad s
  | .localDeadlock => Sys2Proof.Machine.execLocalDeadlock s
  | .restExpiry => Sys2Proof.Machine.execRestExpiry s
  | .lendOffer => Sys2Proof.Machine.execLendOffer s
  | .stepRateWindow nominal => Sys2Proof.Machine.execStepRateWindow nominal s
  | .activityUpdate => Sys2Proof.Machine.execActivityUpdate s
  | .budgetSample code => Sys2Proof.Machine.execBudgetSample code s
  | .tbaseLost => Sys2Proof.Machine.execTbaseLost s
  | .wire r => Sys2Proof.Machine.execWire r s
  | .pmRiseReq => Sys2Proof.Machine.execPmRiseReq s
  | .pmRiseGnt => Sys2Proof.Machine.execPmRiseGnt s
  | .fillerStop => Sys2Proof.Machine.execFillerStop s
  | .rstNAssert req => Sys2Proof.Machine.execRstNAssert req s
  | .rstNRelease die inst pwr => Sys2Proof.Machine.execRstNRelease die inst pwr s
  | .selfInitComplete => Sys2Proof.Machine.execSelfInitComplete s
  | .supplyChange vcore vmem => Sys2Proof.Machine.execSupplyChange vcore vmem s
  | .supplyLoss vcore vmem => Sys2Proof.Machine.execSupplyLoss vcore vmem s
  | .finAlarm => Sys2Proof.Machine.execFinAlarm s
  | .linkDown p => Sys2Proof.Machine.execLinkDown p s
  | .linkdownDeassert p => Sys2Proof.Machine.execLinkdownDeassert p s
  | .rd f => Sys2Proof.Machine.execRd f s
  | .wr f => Sys2Proof.Machine.execWr f s
  | .wrBroadcast f => Sys2Proof.Machine.execWrBroadcast f s
  | .enum f => Sys2Proof.Machine.execEnum f s
  | .frameForward syms => Sys2Proof.Machine.execFrameForward syms s
  | .registerWrite a v => Sys2Proof.Machine.execRegisterWrite a v s
  | .go => Sys2Proof.Machine.execGo s
  | .park => Sys2Proof.Machine.execPark s
  | .unpark => Sys2Proof.Machine.execUnpark s
  | .crst c => Sys2Proof.Machine.execCrst c s
  | .load => Sys2Proof.Machine.execLoad s
  | .fwZeroComplete => Sys2Proof.Machine.execFwZeroComplete s
  | .imemWindowWrite off bs => Sys2Proof.Machine.execImemWindowWrite off bs s
  | .dmemWindowWrite off bs => Sys2Proof.Machine.execDmemWindowWrite off bs s
  | .spadWindowWrite off bs => Sys2Proof.Machine.execSpadWindowWrite off bs s
  | .begin => Sys2Proof.Machine.execBegin s
  | .swap => Sys2Proof.Machine.execSwap s
  | .cancel => Sys2Proof.Machine.execCancel s
  | .proofWindowWrite off bs => Sys2Proof.Machine.execProofWindowWrite off bs s
  | .proofCheckDone => Sys2Proof.Machine.execProofCheckDone s
  | .setcmd f => Sys2Proof.Machine.execSetcmd f s
  | .clrcmd f g => Sys2Proof.Machine.execClrcmd f g s
  | .lostclr f => Sys2Proof.Machine.execLostclr f s
  | .handleWindowWrite off ws => Sys2Proof.Machine.execHandleWindowWrite off ws s
  | .stepParamWrite b n v => Sys2Proof.Machine.execStepParamWrite b n v s
  | .stepParamValid b v => Sys2Proof.Machine.execStepParamValid b v s
  | .stepParamWithdraw b v => Sys2Proof.Machine.execStepParamWithdraw b v s
  | .stepNumLoWrite v => Sys2Proof.Machine.execStepNumLoWrite v s
  | .stepNumHiWrite v => Sys2Proof.Machine.execStepNumHiWrite v s
  | .relContext c => Sys2Proof.Machine.execRelContext c s
  | .relCore => Sys2Proof.Machine.execRelCore s
  | .fltWireClear m => Sys2Proof.Machine.execFltWireClear m s
  | .force v => Sys2Proof.Machine.execForce v s
  | .restore v => Sys2Proof.Machine.execRestore v s
  | .clear stop => Sys2Proof.Machine.execClear stop s
  | .wsBypass code wsi => Sys2Proof.Machine.execWsBypass s code wsi
  | .wsExtest pins wsi => Sys2Proof.Machine.execWsExtest s pins wsi
  | .wsPreload wsi => Sys2Proof.Machine.execWsPreload s wsi
  | .wsIntestScan wsi => Sys2Proof.Machine.execWsIntestScan s wsi
  | .wsClamp wsi => Sys2Proof.Machine.execWsClamp s wsi
  | .wsSafe wsi => Sys2Proof.Machine.execWsSafe s wsi
  | .wtMbist => Sys2Proof.Machine.execWtMbist s
  | .wtLbist => Sys2Proof.Machine.execWtLbist s
  | .wtRing => Sys2Proof.Machine.execWtRing s
  | .wtResult wsi => Sys2Proof.Machine.execWtResult s wsi
  | .testDone pass bank words wrck => Sys2Proof.Machine.execTestDone pass bank words wrck s
  | .wrstnLow => Sys2Proof.Machine.execWrstnLow s
  | .errType f => Sys2Proof.Machine.execErrType f s
  | .tbaseReturn => Sys2Proof.Machine.execTbaseReturn s
  | .finQuiet => Sys2Proof.Machine.execFinQuiet s
  | .pmRiseGntLower => Sys2Proof.Machine.execPmRiseGntLower s
  | .supplyUp vcore vmem => Sys2Proof.Machine.execSupplyUp vcore vmem s

end Sys2Proof.Machine
end

