-- ==== Sys2Proof/Safety.lean ====
section
/-!
DEFINITION. The terms that statements about the core use: canonical tables, the core hold, when an instruction is ready and when
an engine word starts, and what such a command leaves as it was.
-/

namespace Sys2Proof.Machine

/-! ### Invariants -/

/-- Every table of a context is in its canonical form, and nothing is stored for s0 (08 R178). -/
def CtxCanon (x : Context) : Prop :=
  swf 0 x.regs = true ∧ sget 0 x.regs 0 = 0 ∧ swf 0 x.estage = true ∧ swf 0 x.ready = true ∧ swf 0 x.vregs = true ∧
  swf 0 x.masks = true ∧ swf 0 x.mslots = true ∧ swf 0 x.rslots = true ∧ swf [] x.queue = true ∧
  swf HWait.pending x.hwait = true

/-- The array's tables are in their canonical form. -/
def MeshCanon (m : Mesh) : Prop :=
  swf 0 m.cells = true ∧ swf 0 m.shadows = true ∧ swf 0 m.geOut = true ∧ swf 0 m.geExp = true ∧ swf 0 m.gsOut = true

/-- The context record that a word started and stalled has kept is in its canonical form. -/
def JobCanon : Job → Prop
  | .stalled x _ => CtxCanon x
  | _ => True

/-- Every memory and table of the core is in its canonical form: keys strictly rising, no entry equal to what an unlisted key
reads as. -/
def Canon (s : State) : Prop :=
  CtxCanon s.c0 ∧ CtxCanon s.c1 ∧ swf Flag.zero s.flags = true ∧ swf 0 s.spad = true ∧ swf EccMark.good s.spadErr = true ∧
  swf 0 s.scrub = true ∧ swf PageSt.empty s.pages = true ∧ swf Handle.zero s.handles = true ∧ swf 0 s.acc = true ∧
  swf EccMark.good s.accErr = true ∧ swf 0 s.stat = true ∧ swf EccMark.good s.statErr = true ∧ swf 0 s.imem = true ∧
  swf 0 s.dmem = true ∧ swf Tracker.reset s.trackers = true ∧ swf 0 s.perf = true ∧ swf 0 s.perfStep = true ∧
  swf 0 s.perfLast = true ∧ swf 0 s.accOwn = true ∧ MeshCanon s.mesh ∧ ∀ r ∈ s.running, JobCanon r.job

/-- CORE_STATE tells the core hold: a HELD core has one, a RUNNING core has none (14 R315, 15 R346). -/
def HoldInv (s : State) : Prop :=
  (s.core = .held → s.flt.holdCore = true) ∧ (s.core = .running → s.flt.holdCore = false)

/-- The commands after which the core's contents are unspecified: the wrapper's return to functional operation and the loss of
a supply (16 R369, R370). -/
def losesContents : Instr → Bool
  | .wsBypass _ _ | .wrstnLow | .supplyLoss _ _ => true
  | _ => false

/-- The commands through which the firmware loader acts, the boundary at which management accesses that have waited act (01 R17), and the
commands after which the core's contents are new: every other command leaves instruction memory alone (08 R203). -/
def reachesImem : Instr → Bool
  | .step _ _ _ | .load | .fwZeroComplete | .imemWindowWrite _ _ | .registerWrite _ _ | .wr _ | .wrBroadcast _ => true
  | .rstNAssert _ | .supplyUp _ _ | .supplyLoss _ _ | .wsBypass _ _ | .wrstnLow => true
  | _ => false

/-! ### Commands -/

/-- The command answers a next state, of which `P` holds. -/
def Answers (i : Instr) (s : State) (P : State → Prop) : Prop := ∃ t, exec i s = .next t ∧ P t

/-! ### Control-core instructions -/

/-- The instruction `w` stands at the context's PC, the context may issue, and every source is available (08 R180). -/
def Ready (s : State) (c : Ctx) (w : W32) (srcs : List Nat) : Prop :=
  canIssue s c = true ∧ fetch s (getCtx s c) = some w ∧ srcsReady s (getCtx s c) srcs = true

/-- A context record that has issued an instruction with no effect of its own: PC at the next instruction. -/
def stepped (x : Context) : Context := { x with pc := x.pc + 1, run := .running, wait := .none, issued := true }

/-- What a step in which context `c` issues leaves as it was: everything but the context; the retired instruction is counted, and the
core makes progress (09 R223, 17 R387). -/
def OnlyCtx (s t : State) (c : Ctx) : Prop :=
  t = { setCtx s c (getCtx t c) with
          perfStep := sput 0 s.perfStep (6 + ctxNum c) (sget 0 s.perfStep (6 + ctxNum c) + 1),
          tmr := { s.tmr with progress := true } }

/-- Registers and readiness of a context may change; it has issued, and its PC stands at the next instruction. -/
def OnlyRegs (x y : Context) : Prop := y = { stepped x with regs := y.regs, ready := y.ready }

/-- Staging registers and readiness of a context may change; it has issued, and its PC stands at the next instruction. -/
def OnlyStage (x y : Context) : Prop := y = { stepped x with estage := y.estage, ready := y.ready }

/-- Register `rd` holds `v` (nothing is written where it is s0), every other register keeps its value, and `rd` is usable after
`lat` steps (08 R178, R180). -/
def WritesReg (s : State) (x y : Context) (rd : BitVec 5) (v : W32) (lat : Nat) : Prop :=
  (∀ n : Nat, rdS y n = if n = rd.toNat ∧ n ≠ 0 then v else rdS x n) ∧
  (∀ k : Nat, sget 0 y.ready k =
    if k = rd.toNat ∧ k ≠ 0 then s.steps + lat else sget 0 x.ready k)

/-- Staging register `ed` holds `v`, every other keeps its value, and `ed` is usable after `lat` steps. -/
def WritesStage (s : State) (x y : Context) (ed : BitVec 3) (v : W128) (lat : Nat) : Prop :=
  (∀ n : Nat, rdE y n = if n = ed.toNat then v else rdE x n) ∧
  (∀ k : Nat, sget 0 y.ready k =
    if k = eKey ed.toNat then s.steps + lat else sget 0 x.ready k)

/-- The instruction stalls: the context reports WAITING and tries again, and nothing else changes (08 R188). -/
def Stalls (i : Instr) (s : State) (c : Ctx) : Prop :=
  exec i s = .next (setCtx s c { getCtx s c with run := .waiting, wait := .stall })

/-- The instruction `i` of context `c`, whose word is `w`, completes with `v` in `rd`, and changes nothing else; where a queued word
reserves `rd` it stalls (08 R188). -/
def RegResult (i : Instr) (s : State) (c : Ctx) (w : W32) (srcs : List Nat) (rd : BitVec 5) (v : W32) (lat : Nat) : Prop :=
  Ready s c w srcs →
    if regReserved (getCtx s c) rd.toNat then Stalls i s c
    else
      Answers i s fun t => OnlyCtx s t c ∧ OnlyRegs (getCtx s c) (getCtx t c) ∧ WritesReg s (getCtx s c) (getCtx t c) rd v lat

/-- The instruction `i` of context `c` completes with `v` in staging register `ed`, and changes nothing else. -/
def StageResult (i : Instr) (s : State) (c : Ctx) (w : W32) (srcs : List Nat) (ed : BitVec 3) (v : W128) (lat : Nat) : Prop :=
  Ready s c w srcs →
    Answers i s fun t => OnlyCtx s t c ∧ OnlyStage (getCtx s c) (getCtx t c) ∧ WritesStage s (getCtx s c) (getCtx t c) ed v lat

/-- The branch completes: it goes to `target` at a cost of 2 steps where `taken`, else to the next instruction; nothing else changes
(08 R179, R180). -/
def Branches (i : Instr) (s : State) (c : Ctx) (w : W32) (srcs : List Nat) (taken : Prop) (target : BitVec 16) : Prop :=
  Ready s c w srcs →
    Answers i s fun t => OnlyCtx s t c ∧
      (taken → getCtx t c = { stepped (getCtx s c) with pc := target, nextIssue := s.steps + 2 }) ∧
      (¬ taken → getCtx t c = stepped (getCtx s c))

/-- The jump completes: the index of the instruction after it goes to `rd`, PC to `target`, at a cost of 2 steps; where a queued word
reserves `rd` it stalls. -/
def Jumps (i : Instr) (s : State) (c : Ctx) (w : W32) (srcs : List Nat) (rd : BitVec 5) (target : BitVec 16) : Prop :=
  Ready s c w srcs →
    if regReserved (getCtx s c) rd.toNat then Stalls i s c
    else
      Answers i s fun t => OnlyCtx s t c ∧
        getCtx t c = { stepped (getCtx s c) with regs := (getCtx t c).regs, ready := (getCtx t c).ready, pc := target,
                                                 nextIssue := s.steps + 2 } ∧
        WritesReg s (getCtx s c) (getCtx t c) rd (BitVec.ofNat 32 (((getCtx s c).pc.toNat + 1) % 65536)) 2

/-- The instruction faults: it has no effect, the context goes on with the next instruction, and the fault is reported for it
(08 R183, 14 R305); while an earlier fault of the context waits to be taken or its acknowledge is still high, it stalls (14 R306). -/
def Traps (i : Instr) (s : State) (c : Ctx) (code : Nat) : Prop :=
  if reporting s (6 + ctxNum c) = true then exec i s = .next s
  else Answers i s fun t => getCtx t c = stepped (getCtx s c) ∧
    t = { setCtx s c (getCtx t c) with
            perfStep := sput 0 s.perfStep (6 + ctxNum c) (sget 0 s.perfStep (6 + ctxNum c) + 1),
            tmr := { s.tmr with progress := true },
            flt := { s.flt with reports := s.flt.reports ++ [{ code := code, rep := 6 + ctxNum c, ctx := some c }] } }

/-! ### Engine words -/

/-- The engine may take `w`, of operation `op`, from the head of the context's queue (08 R197), and no such word of it stands started and
stalled. -/
def Starts (s : State) (c : Ctx) (e : Eng) (w : W128) (op : Nat) : Prop :=
  mayStart s c e w = true ∧ chosen s c e = true ∧ wOp w = op ∧ stalledWord s c e w = none

/-- No word that runs or has completed in the step shares with the starting word a place that one of them writes, but where their queue or a
chapter orders them (01 R26, 08 R200). -/
def Alone (s : State) (c : Ctx) (e : Eng) (foot : List Foot) : Prop := foes s (some (e, c)) (some (headWord s c e).id) foot = []

/-- A context record whose head word of an engine has left its queue; the next head's wait begins (08 R187). -/
def popped (x : Context) (e : Eng) : Context := setHeadWait (setQueue x e (queueOf x e).tail) e .pending

/-- The state in which the head word has left its queue: counted, and progress (08 R187, 09 R223, 17 R387). -/
def taken (s : State) (c : Ctx) (e : Eng) : State :=
  { setCtx s c (popped (getCtx s c) e) with
      perfStep := sput 0 s.perfStep 8 (sget 0 s.perfStep 8 + 1), tmr := { s.tmr with progress := true } }

/-- The state in which the head word `w` has left its queue and runs with the handles `hs` in use and the places `foot` to access; `j` is
what it still has to do before it completes (08 R187, 06 R140, 01 R20). -/
def ran (s : State) (c : Ctx) (e : Eng) (w : W128) (hs : List Nat) (j : Job) (foot : List Foot) : State :=
  { taken s c e with
      running := s.running ++ [{ id := (headWord s c e).id, eng := e, ctx := c, word := w, handles := hs, job := j, foot := foot,
                                 wrote := writtenFeet j foot, since := s.steps }] }

/-- The word is refused when it starts: it leaves its queue with its fault, and does nothing else (06 R141, 14 R305); while an earlier fault
of the engine waits to be taken or its acknowledge is still high, it stays at its head (14 R306). -/
def Refuses (i : Instr) (s : State) (c : Ctx) (e : Eng) (code : Nat) : Prop :=
  exec i s = .next (if reporting s (engNum e) then s else { taken s c e with
    flt := { s.flt with reports := s.flt.reports ++ [{ code := code, rep := engNum e, ctx := some c }] } })

/-- No page is tracked or protected, every stored word is good, and no other access of the step is under way: an access of a word neither
fails nor changes a page's state, and reads what is stored (06 R131, R149, R152; 13 R288). -/
def Plain (s : State) : Prop :=
  s.checked = false ∧ s.st.protSpad = [] ∧ s.spadErr = [] ∧ s.wbPend = [] ∧ s.accErr = [] ∧ s.statErr = [] ∧ s.stepSpad = [] ∧
  s.stepAcc = []

/-- Every handle that the word names is valid under its generation, has the flags that its use needs, and holds every run of the
word (06 R141). -/
def UsesFit (s : State) (us : List Use) : Prop :=
  ∀ u ∈ us, let h := getH s u.idx
    h.valid = true ∧ h.gen.toNat = u.gen ∧ (u.wr = true ∨ u.acc = true → h.wp = false) ∧ (u.acc = true → h.sp = true) ∧
    ∀ r ∈ u.runs, (u.acc = true → r.1 % 4 = 0) ∧ (r.2 ≠ 0 → 0 ≤ r.1 ∧ r.1 + r.2 ≤ h.npages.toNat * 65536)

/-- The word is refused with the code of the first of the conditions that holds, in their order (04 R88, 05 R123, 06 R141, 07 R161); where
none holds this says nothing. -/
def RefusedInOrder (i : Instr) (s : State) (c : Ctx) (e : Eng) : List (Prop × Nat) → Prop
  | [] => True
  | (b, code) :: rest => (b → Refuses i s c e code) ∧ (¬ b → RefusedInOrder i s c e rest)

/-- The checks on the handles that a word names, in their order (06 R141): a stale name, a protected handle, a handle that no word may
accumulate into, a run of an accumulating word that is not aligned, a run beyond its handle's end. -/
def HandleChecks (s : State) (us : List Use) : List (Prop × Nat) :=
  [(∃ u ∈ us, (getH s u.idx).valid = false ∨ (getH s u.idx).gen.toNat ≠ u.gen, fStale),
   (∃ u ∈ us, (u.wr = true ∨ u.acc = true) ∧ (getH s u.idx).wp = true, fProtect),
   (∃ u ∈ us, u.acc = true ∧ (getH s u.idx).sp = false, fAccum),
   (∃ u ∈ us, u.acc = true ∧ ∃ r ∈ u.runs, r.1 % 4 ≠ 0, fMisaligned),
   (∃ u ∈ us, ∃ r ∈ u.runs, r.2 ≠ 0 ∧ ¬ (0 ≤ r.1 ∧ r.1 + r.2 ≤ (getH s u.idx).npages.toNat * 65536), fExtent)]

/-- No other producer than the engine and context has accumulated into a 4-byte element of the runs since its last plain write (01 R29). -/
def Sole (s : State) (c : Ctx) (e : Eng) (rs : List (Nat × List Byte)) : Prop :=
  ∀ r ∈ rs, ∀ k : Nat, r.1 < 4 * k + 4 → 4 * k < r.1 + r.2.length →
    sget 0 s.accOwn k = 0 ∨ sget 0 s.accOwn k = ownerCode (wordWho s e c)

/-- The word has run on its context's vector bank: of the bank, the elements of register `r` in the view of format `f` for which
`new` gives a code hold it, and every other element keeps its contents; `rest` is the state but for the bank (04 R83, R84). -/
def Fills (s t rest : State) (c : Ctx) (f r : Nat) (new : Nat → Option Nat) : Prop :=
  t = setCtx rest c { getCtx rest c with vregs := (getCtx t c).vregs } ∧
  ∀ q j : Nat, q < 32 → j < viewCap f → getE (getCtx t c) f q j =
    match (if q = r then new j else none) with
    | some v => v % 2 ^ fmtBits f
    | none => getE (getCtx s c) f q j

/-- Bytes after runs were stored one after another, each run an address and its bytes. -/
def storeRuns (rs : List (Nat × List Byte)) (m : Nat → Byte) : Nat → Byte :=
  rs.foldl (fun m r b => if r.1 ≤ b ∧ b < r.1 + r.2.length then r.2.getD (b - r.1) 0 else m b) m

/-- Bytes after runs were accumulated one after another: each 4 bytes of a run, from its start, are added to those that stand there,
as INT32 or as FP32 with one rounding (06 R133). -/
def accumRuns (int : Bool) (rs : List (Nat × List Byte)) (m : Nat → Byte) : Nat → Byte :=
  rs.foldl (fun m r b =>
    if r.1 ≤ b ∧ b < r.1 + r.2.length then
      let k := (b - r.1) / 4 * 4
      let old : W32 := m (r.1 + k + 3) ++ m (r.1 + k + 2) ++ m (r.1 + k + 1) ++ m (r.1 + k)
      let new : W32 := r.2.getD (k + 3) 0 ++ r.2.getD (k + 2) 0 ++ r.2.getD (k + 1) 0 ++ r.2.getD k 0
      let v : W32 := if int then old + new else fadd old new
      byteOf (v.toNat / 2 ^ (8 * ((b - r.1) % 4)))
    else m b) m

/-- The word has run on the scratchpad: its bytes are as `new` makes them of those before; `rest` is the state but for them, the record of
the step's accesses and the record of who has accumulated. -/
def Stores (s t rest : State) (new : (Nat → Byte) → Nat → Byte) : Prop :=
  t = { rest with spad := t.spad, stepSpad := t.stepSpad, accOwn := t.accOwn } ∧ ∀ b : Nat, sget 0 t.spad b = new (sget 0 s.spad) b

/-- A form A word starts and passes the common checks: bits below `resv` are zero, FMT is enabled and among `fmts`, and VL
elements fit the register (04 R87, R88, R90, R91). -/
def FormA (s : State) (c : Ctx) (w : W128) (op resv : Nat) (fmts : List Nat) : Prop :=
  Starts s c .vector w op ∧ w.toNat % 2 ^ resv = 0 ∧ vFMT w ∈ fmts ∧ s.cfg.formats.getLsbD (vFMT w) = true ∧
  vVL w ≤ 32768 / fmtBits (vFMT w)

/-- A form A word that starts is refused in the order of 04 R88: a bit below `resv` that is set or a combination that the word forbids, a
format that FORMATS disables or the word does not take (`reads`: FMT is read) or a bad format of its own, a VL beyond the register, or
beyond the mask where the word is masked, or a bad extent of its own. -/
def FormARefused (i : Instr) (s : State) (c : Ctx) (w : W128) (op resv : Nat) (forbid : Prop) (reads : Bool) (fmts : List Nat)
    (badFmt badExt : Prop) : Prop :=
  Starts s c .vector w op → RefusedInOrder i s c .vector
    [(w.toNat % 2 ^ resv ≠ 0 ∨ forbid, fOpcode),
     (reads = true ∧ (s.cfg.formats.getLsbD (vFMT w) = false ∨ vFMT w ∉ fmts) ∨ badFmt, fFormat),
     (reads = true ∧ 32768 / fmtBits (vFMT w) < vVL w ∨ vME w = true ∧ 2048 < vVL w ∨ badExt, fExtent)]

/-- Element `i` takes part in a form A word (04 R86). -/
abbrev Active (x : Context) (w : W128) (i : Nat) : Prop := i < vVL w ∧ (vME w = true → (getM x (vMS w)).getLsbD i = true)

end Sys2Proof.Machine
end

