-- ==== Sys2Proof/Certificates/Slice0/Obligations.lean ====
section
/-!
DEFINITION. The statements about the core: what each command does and leaves as it was, and what every command keeps. A clause that
rests on a choice of the model names its log entry.
-/

open Sys2Proof Sys2Proof.Machine

/-! ### Whole machine -/

/-- The command at the front of the queue acts on the state with the queue's rest; on an empty queue one tick of the time base passes,
which changes nothing where the core is not powered or TBASE is lost (the tick is the model's choice, log 4). -/
def Obligations.StepRunsFront : Prop :=
  ∀ s : State,
    (∀ (c : Instr) (cs : List Instr), step { s with pending := c :: cs } = exec c { s with pending := cs }) ∧
    (s.pending = [] → step s = .next (tick s)) ∧
    (live s = false ∨ s.tmr.lost = true → tick s = s)

/-- 01 R18, 09 R223, R226, 14 R319, R325, 17 R387: a tick of the time base advances TIME and the running timers and nothing else: the Rest
timer where it runs (under the interval that FLT_REST holds now), the deadlock window where the core is blocked and makes no progress, the
lending wait, which the flag that a context waits for ends, LEND_TICKS while an offer stands; the next boundary is marked as still to come, at
which alone an expiry takes effect. When a tick passes is the model's choice (log 4). -/
def Obligations.TickMovesTimers : Prop :=
  ∀ s : State, live s = true → s.tmr.lost = false →
    let t := tick s
    let idle (x : Context) : Prop := x.run = .waiting ∨ x.run = .halted
    let lends (x : Context) : Prop := idle x ∧ ∀ (f : Nat) (g : BitVec 4), x.wait ≠ .flagSat f g
    let arrayIdle : Prop := ∀ r ∈ s.running, r.eng ≠ .matrix
    t = { s with
      perfStep := t.perfStep, flt := { s.flt with restCnt := if s.flt.restRun then s.flt.restCnt + 1 else s.flt.restCnt, restIn := s.flt.rest },
      tmr := { s.tmr with time := s.tmr.time + 1, ticked := true, sinceEdge := 0, winTicks := s.tmr.winTicks + 1, dlCount := t.tmr.dlCount,
                          lendCnt := t.tmr.lendCnt } } ∧
    (s.pwr.lend = false → t.perfStep = s.perfStep) ∧
    (s.pwr.lend = true → t.perfStep = sput 0 s.perfStep 20 (sget 0 s.perfStep 20 + 1)) ∧
    (arrayIdle ∧ lends s.c0 ∧ lends s.c1 → t.tmr.lendCnt = s.tmr.lendCnt + 1) ∧
    (¬ (arrayIdle ∧ lends s.c0 ∧ lends s.c1) → t.tmr.lendCnt = 0) ∧
    (s.tmr.progress = true ∨ s.parked = true ∨ s.core = .held ∨ s.c0.run = .held ∨ s.c1.run = .held ∨ s.c0.run = .running ∨
      s.c1.run = .running ∨ parkedWait s = true → t.tmr.dlCount = s.tmr.dlCount) ∧
    (s.tmr.progress = false → s.parked = false → s.core ≠ .held → parkedWait s = false → s.running = [] →
      (∀ (c : Ctx) (e : Eng), queueOf (getCtx s c) e = []) → idle s.c0 → idle s.c1 → s.c0.run = .waiting ∨ s.c1.run = .waiting →
      t.tmr.dlCount = s.tmr.dlCount + 1)

/-- 15 R344, R349: at reset both contexts have zero registers and banks, every store, flag, handle, page and tracker is at its reset
value, no word is queued or runs, both sets are empty, no fault is recorded, and the core is in INIT. The bank that a flag's waits and
pages start from is as 06 R149, 09 R205 and 02 R48 say. -/
def Obligations.ResetValues : Prop :=
  let s := State.reset
  (∀ (c : Ctx) (n : Nat), rdS (getCtx s c) n = 0 ∧ rdE (getCtx s c) n = 0 ∧ getM (getCtx s c) n = 0) ∧
  (∀ (c : Ctx) (f q j : Nat), getE (getCtx s c) f q j = 0) ∧
  (∀ (c : Ctx) (e : Eng), queueOf (getCtx s c) e = []) ∧
  (∀ c : Ctx, (getCtx s c).cr = 0 ∧ (getCtx s c).vstatus = 0 ∧ (getCtx s c).hold = false) ∧
  s.running = [] ∧ s.core = .init ∧ s.parked = false ∧ s.chainAddr = 0 ∧ s.epoch = 0 ∧ s.cfg.fid = 0 ∧
  (∀ a : Nat, sget 0 s.spad a = 0 ∧ sget 0 s.acc a = 0 ∧ sget 0 s.stat a = 0 ∧ sget 0 s.imem a = 0 ∧ sget 0 s.dmem a = 0) ∧
  (∀ f : Nat, getFlag s f = Flag.zero) ∧ (∀ h : Nat, (getH s h).valid = false ∧ (getH s h).gen = 0) ∧
  (∀ p : Nat, getPage s p = PageSt.empty) ∧
  (∀ t : Nat, sget Tracker.reset s.trackers t =
    { hist := [], cur := 0, fmt := 3, margin := 0, sinit := 0, prop := 0, nf := 0 }) ∧
  s.pstate = .empty ∧ s.sb.num = 0 ∧ s.sb.stA = .free ∧ s.sb.stB = .free ∧ s.flt.count = 0 ∧ s.flt.fValid = false ∧
  s.flt.holdCore = false ∧ s.flt.sticky = 0 ∧ s.st.rstate = .none ∧ s.st.snap = .idle ∧ s.st.dacc = 0 ∧ s.st.next = false

/-- The state after reset has both invariants: every table is canonical, and CORE_STATE tells the core hold. -/
def Obligations.ResetHasInvariants : Prop := Canon State.reset ∧ HoldInv State.reset

/-- Every command answers a next state in every state, leaves the queue's rest and the design-time options as they are, and keeps every
table canonical: the spec gives every command an effect or, where its conditions do not hold, none (log 1). -/
def Obligations.EveryCommandAnswers : Prop :=
  ∀ (i : Instr) (s : State), Answers i s fun t =>
    t.pending = s.pending ∧ t.features = s.features ∧ (Canon s → Canon t)

/-- Every step, tick included, keeps every memory and table canonical, in every state; and every step whose command does not lose the
core's contents keeps the rule that CORE_STATE tells the core hold: HELD where there is one, RUNNING only where there is none
(14 R315, 15 R346). -/
def Obligations.StepKeepsInvariants : Prop :=
  (∀ s t : State, Canon s → step s = .next t → Canon t) ∧
  (∀ s t : State, HoldInv s → (∀ i ∈ s.pending.head?, losesContents i = false) → step s = .next t → HoldInv t)

/-- 08 R179, R203: no command changes any word of instruction memory, the image's length or its entry but those of the firmware loader
(LOAD, the end of zeroing, a write to its window), the commands that carry a write to a register or a window (REGISTER_WRITE, WR,
WR_BROADCAST), the boundary at which such a write that has waited acts (01 R17), a full reset, the supplies, and the wrapper's return to
functional operation: neither an instruction nor a word of an engine writes instruction memory. -/
def Obligations.InstructionMemoryStays : Prop :=
  ∀ (i : Instr) (s t : State),
    reachesImem i = false ∨ s.rstDue = false ∧ s.mgmt = [] ∧ (∃ (hold : Bool) (n : Nat) (lines : List (Nat × Nat)), i = .step hold n lines) →
    exec i s = .next t → t.imemLen = s.imemLen ∧ t.entry = s.entry ∧ ∀ k : Nat, sget 0 t.imem k = sget 0 s.imem k

/-! ### Control core -/

/-- 08 R182, OP 0x00: each instruction of form R computes rd from ra and rb modulo 2^32, shifts by rb mod 32, compares signed and
unsigned, with the latency of the table; a reserved rd stalls (R188). Nothing else changes. -/
def Obligations.RegisterArithmetic : Prop :=
  ∀ (s : State) (c : Ctx) (rd ra rb : BitVec 5), Canon s →
    let x := getCtx s c
    let a := rdS x ra.toNat
    let b := rdS x rb.toNat
    let srcs := [ra.toNat, rb.toNat]
    let w (fn : BitVec 11) : W32 := 0x00#6 ++ rd ++ ra ++ rb ++ fn
    RegResult (.add c rd ra rb) s c (w 0x000) srcs rd (BitVec.ofNat 32 (a.toNat + b.toNat)) 1 ∧
    RegResult (.sub c rd ra rb) s c (w 0x001) srcs rd (BitVec.ofInt 32 (a.toInt - b.toInt)) 1 ∧
    RegResult (.and c rd ra rb) s c (w 0x002) srcs rd (a &&& b) 1 ∧
    RegResult (.or c rd ra rb) s c (w 0x003) srcs rd (a ||| b) 1 ∧
    RegResult (.xor c rd ra rb) s c (w 0x004) srcs rd (a ^^^ b) 1 ∧
    RegResult (.sll c rd ra rb) s c (w 0x005) srcs rd (BitVec.ofNat 32 (a.toNat * 2 ^ (b.toNat % 32))) 1 ∧
    RegResult (.srl c rd ra rb) s c (w 0x006) srcs rd (BitVec.ofNat 32 (a.toNat / 2 ^ (b.toNat % 32))) 1 ∧
    RegResult (.sra c rd ra rb) s c (w 0x007) srcs rd (BitVec.ofInt 32 (a.toInt / 2 ^ (b.toNat % 32))) 1 ∧
    RegResult (.slt c rd ra rb) s c (w 0x008) srcs rd (if a.toInt < b.toInt then 1 else 0) 1 ∧
    RegResult (.sltu c rd ra rb) s c (w 0x009) srcs rd (if a.toNat < b.toNat then 1 else 0) 1 ∧
    RegResult (.mul c rd ra rb) s c (w 0x00A) srcs rd (BitVec.ofNat 32 (a.toNat * b.toNat)) 3 ∧
    RegResult (.mulhu c rd ra rb) s c (w 0x00B) srcs rd (BitVec.ofNat 32 (a.toNat * b.toNat / 2 ^ 32)) 3

/-- 08 R182, OP 0x01 to 0x07: the immediate instructions; SHI where IMM[6:5] is not 3 and IMM[15:7] is zero. -/
def Obligations.ImmediateArithmetic : Prop :=
  ∀ (s : State) (c : Ctx) (rd ra : BitVec 5) (imm : BitVec 16), Canon s →
    let x := getCtx s c
    let a := rdS x ra.toNat
    let w (op : BitVec 6) : W32 := op ++ rd ++ ra ++ imm
    let n := imm.toNat % 32
    RegResult (.addi c rd ra imm) s c (w 0x01) [ra.toNat] rd (BitVec.ofInt 32 (a.toNat + imm.toInt)) 1 ∧
    RegResult (.andi c rd ra imm) s c (w 0x02) [ra.toNat] rd (BitVec.ofNat 32 (a.toNat &&& imm.toNat)) 1 ∧
    RegResult (.ori c rd ra imm) s c (w 0x03) [ra.toNat] rd (BitVec.ofNat 32 (a.toNat ||| imm.toNat)) 1 ∧
    RegResult (.xori c rd ra imm) s c (w 0x04) [ra.toNat] rd (BitVec.ofNat 32 (a.toNat ^^^ imm.toNat)) 1 ∧
    RegResult (.slti c rd ra imm) s c (w 0x05) [ra.toNat] rd (if a.toInt < imm.toInt then 1 else 0) 1 ∧
    (imm.toNat / 128 = 0 → imm.toNat / 32 % 4 = 0 →
      RegResult (.shi c rd ra imm) s c (w 0x06) [ra.toNat] rd (BitVec.ofNat 32 (a.toNat * 2 ^ n)) 1) ∧
    (imm.toNat / 128 = 0 → imm.toNat / 32 % 4 = 1 →
      RegResult (.shi c rd ra imm) s c (w 0x06) [ra.toNat] rd (BitVec.ofNat 32 (a.toNat / 2 ^ n)) 1) ∧
    (imm.toNat / 128 = 0 → imm.toNat / 32 % 4 = 2 →
      RegResult (.shi c rd ra imm) s c (w 0x06) [ra.toNat] rd (BitVec.ofInt 32 (a.toInt / 2 ^ n)) 1) ∧
    RegResult (.lui c rd imm) s c (0x07#6 ++ rd ++ 0#5 ++ imm : W32) [] rd (imm ++ 0#16 : W32) 1

/-- 08 R182, R184: LW and LDE read data memory, least significant byte first, at ra + sext(IMM), which lies within data memory and
is aligned; every byte has its value before the step. -/
def Obligations.LoadsReadDataMemory : Prop :=
  ∀ (s : State) (c : Ctx) (rd ra : BitVec 5) (ed : BitVec 3) (imm : BitVec 16), Canon s →
    let x := getCtx s c
    let a := (BitVec.ofInt 32 ((rdS x ra.toNat).toNat + imm.toInt)).toNat
    (a < 65536 → a % 4 = 0 →
      RegResult (.lw c rd ra imm) s c (0x08#6 ++ rd ++ ra ++ imm : W32) [ra.toNat] rd
        (dmemByte s (a + 3) ++ dmemByte s (a + 2) ++ dmemByte s (a + 1) ++ dmemByte s a : W32) 2) ∧
    (a < 65536 → a % 16 = 0 →
      ∃ v : W128, (∀ i : Nat, i < 16 → fld v (8 * i) 8 = (dmemByte s (a + i)).toNat) ∧
        StageResult (.lde c ed ra imm) s c (0x0A#6 ++ 0#2 ++ ed ++ ra ++ imm : W32) [ra.toNat] ed v 2)

/-- 08 R182, R184: SW and STE store 4 and 16 bytes, least significant first, at ra + sext(IMM), where the address lies within data memory,
is aligned, and no queued DXFER reserves it. Of two stores to one byte in one step C1's stays, and the host's of that step over both (01
R17). Every other byte of data memory is unchanged, and a read in the same step still finds every byte as it was before the step. -/
def Obligations.StoresWriteDataMemory : Prop :=
  ∀ (s : State) (c : Ctx) (rd ra : BitVec 5) (ed : BitVec 3) (imm : BitVec 16), Canon s →
    let x := getCtx s c
    let a := (BitVec.ofInt 32 ((rdS x ra.toNat).toNat + imm.toInt)).toNat
    let later (b : Nat) : Prop := ∃ d ∈ s.dmemStep, d.addr = b ∧ (d.ctx = none ∨ c = .c0 ∧ d.ctx = some .c1)
    let stores (n v : Nat) (t : State) : Prop :=
      (∀ b : Nat, (a ≤ b ∧ b < a + n ∧ ¬ later b → (sget 0 t.dmem b).toNat = v / 2 ^ (8 * (b - a)) % 256) ∧
        (¬ (a ≤ b ∧ b < a + n ∧ ¬ later b) → sget 0 t.dmem b = sget 0 s.dmem b) ∧ dmemByte t b = dmemByte s b) ∧
      OnlyCtx { s with dmem := t.dmem, dmemStep := t.dmemStep } t c ∧ getCtx t c = stepped x
    (a < 65536 → a % 4 = 0 → memReserved s a = false →
      Ready s c (0x09#6 ++ rd ++ ra ++ imm : W32) [ra.toNat, rd.toNat] →
      Answers (.sw c rd ra imm) s (stores 4 (rdS x rd.toNat).toNat)) ∧
    (a < 65536 → a % 16 = 0 → memReserved s a = false →
      Ready s c (0x0B#6 ++ 0#2 ++ ed ++ ra ++ imm : W32) [ra.toNat, eKey ed.toNat] →
      Answers (.ste c ed ra imm) s (stores 16 (rdE x ed.toNat).toNat))

/-- 08 R183, R184, R189: an access at or beyond 65,536 raises FW_DMEM_RANGE, whether aligned or not; any other unaligned access raises
FW_MISALIGNED; neither is held by a reservation, nor by the data of a store. A store to a reserved descriptor stalls. 08 R179, R180, R182,
R183: a word at the PC with an illegal encoding raises FW_ILLEGAL, and a fetch at or beyond the image's length FW_PC_RANGE, with no effect,
whatever sources, stalls or reservations there are; the context goes on with the next instruction. -/
def Obligations.InstructionsFault : Prop :=
  (∀ (s : State) (c : Ctx) (rd ra : BitVec 5) (ed : BitVec 3) (imm : BitVec 16),
     let a := (BitVec.ofInt 32 ((rdS (getCtx s c) ra.toNat).toNat + imm.toInt)).toNat
     let one (i : Instr) (w : W32) (srcs : List Nat) (n : Nat) (store : Bool) : Prop :=
       (Ready s c w [ra.toNat] →
         (65536 ≤ a → Traps i s c fDmemRange) ∧ (a < 65536 → a % n ≠ 0 → Traps i s c fFwMisaligned)) ∧
       (Ready s c w srcs → a < 65536 → a % n = 0 → store = true → memReserved s a = true → Stalls i s c)
     one (.lw c rd ra imm) (0x08#6 ++ rd ++ ra ++ imm : W32) [ra.toNat] 4 false ∧
     one (.sw c rd ra imm) (0x09#6 ++ rd ++ ra ++ imm : W32) [ra.toNat, rd.toNat] 4 true ∧
     one (.lde c ed ra imm) (0x0A#6 ++ 0#2 ++ ed ++ ra ++ imm : W32) [ra.toNat] 16 false ∧
     one (.ste c ed ra imm) (0x0B#6 ++ 0#2 ++ ed ++ ra ++ imm : W32) [ra.toNat, eKey ed.toNat] 16 true) ∧
  (∀ (s : State) (c : Ctx) (w : W32),
     let op := fld w 26 6
     let rd := fld w 21 5
     let ra := fld w 16 5
     let rb := fld w 11 5
     let fn := fld w 0 11
     let n := fld w 0 12
     let legal : Prop :=
       op = 0x00 ∧ fn ≤ 0x00B ∨ 0x01 ≤ op ∧ op ≤ 0x05 ∨ op = 0x06 ∧ fld w 5 2 ≠ 3 ∧ fld w 7 9 = 0 ∨ op = 0x07 ∧ ra = 0 ∨
       op = 0x08 ∨ op = 0x09 ∨ (op = 0x0A ∨ op = 0x0B) ∧ rd < 8 ∨ 0x10 ≤ op ∧ op ≤ 0x18 ∨ op = 0x19 ∧ fld w 0 16 = 0 ∨
       op = 0x20 ∧ fld w 16 7 ≤ 112 ∨ op = 0x21 ∧ fld w 16 7 + fld w 6 5 + 1 ≤ 128 ∧ fld w 0 6 = 0 ∨
       op = 0x22 ∧ ra < 8 ∧ rb < 4 ∧ fn = 0 ∨ op = 0x23 ∧ fld w 0 23 = 0 ∨
       0x28 ≤ op ∧ op ≤ 0x2A ∧ rd = 0 ∧ rb = 0 ∧ fn = 0 ∨ op = 0x2B ∧ rb = 0 ∧ fn = 0 ∨ 0x30 ≤ op ∧ op ≤ 0x35 ∧ fn = 0 ∨
       op = 0x38 ∧ ra = 0 ∧ fld w 12 4 = 0 ∧ (n ≤ 0x003 ∨ n = 0x010 ∨ n = 0x011 ∨ 0x020 ≤ n ∧ n ≤ 0x02F ∨ n = 0x040 ∨ n = 0x041) ∨
       (op = 0x3C ∨ op = 0x3E) ∧ fld w 0 26 = 0 ∨ op = 0x3D ∧ rd = 0 ∧ fld w 0 16 = 0 ∨
       op = 0x3F ∧ (fld w 0 26 = 0 ∨ rd = 0 ∧ rb = 0 ∧ fn = 0x001)
     (canIssue s c = true → fetch s (getCtx s c) = some w → ¬ legal → Traps (.fwIllegal c w) s c fIllegal) ∧
     (canIssue s c = true → s.imemLen ≤ (getCtx s c).pc.toNat → Traps (.fwPcRange c) s c fPcRange))

/-- 08 R179, R180, R182, R193: each compare-and-branch goes to its own index plus OFF, modulo 2^16, exactly where ra compares with rb as
named, at a cost of 2 steps, and otherwise to the next instruction. JAL and JALR write (PC + 1) mod 2^16 to rd and go to PC + OFF or to
ra + sext(IMM), modulo 2^16. CRCLR clears the CR bits set in MASK and no other; BCR branches exactly where a MASK bit below bit 7 meets
a set CR bit (bits 9 to 7 never match). -/
def Obligations.ControlTransfers : Prop :=
  (∀ (s : State) (c : Ctx) (ra rb : BitVec 5) (off : BitVec 16),
     let x := getCtx s c
     let a := rdS x ra.toNat
     let b := rdS x rb.toNat
     let srcs := [ra.toNat, rb.toNat]
     let w (op : BitVec 6) : W32 := op ++ ra ++ rb ++ off
     let target := BitVec.ofInt 16 (x.pc.toNat + off.toInt)
     Branches (.beq c ra rb off) s c (w 0x10) srcs (a = b) target ∧
     Branches (.bne c ra rb off) s c (w 0x11) srcs (a ≠ b) target ∧
     Branches (.blt c ra rb off) s c (w 0x12) srcs (a.toInt < b.toInt) target ∧
     Branches (.bge c ra rb off) s c (w 0x13) srcs (b.toInt ≤ a.toInt) target ∧
     Branches (.bltu c ra rb off) s c (w 0x14) srcs (a.toNat < b.toNat) target ∧
     Branches (.bgeu c ra rb off) s c (w 0x15) srcs (b.toNat ≤ a.toNat) target) ∧
  (∀ (s : State) (c : Ctx) (rd ra : BitVec 5) (off : BitVec 21) (imm : BitVec 16), Canon s →
     let x := getCtx s c
     Jumps (.jal c rd off) s c (0x16#6 ++ rd ++ off : W32) [] rd (BitVec.ofInt 16 (x.pc.toNat + off.toInt)) ∧
     Jumps (.jalr c rd ra imm) s c (0x17#6 ++ rd ++ ra ++ imm : W32) [ra.toNat] rd
       (BitVec.ofInt 16 ((rdS x ra.toNat).toNat + imm.toInt))) ∧
  (∀ (s : State) (c : Ctx) (mask : BitVec 10) (off : BitVec 16),
     let x := getCtx s c
     Branches (.bcr c mask off) s c (0x18#6 ++ mask ++ off : W32) []
       (∃ k : Nat, k < 7 ∧ mask.getLsbD k = true ∧ x.cr.getLsbD k = true) (BitVec.ofInt 16 (x.pc.toNat + off.toInt)) ∧
     (Ready s c (0x19#6 ++ mask ++ 0#16 : W32) [] →
       Answers (.crclr c mask) s fun t => OnlyCtx s t c ∧ getCtx t c = { stepped x with cr := (getCtx t c).cr } ∧
         ∀ k : Nat, (getCtx t c).cr.getLsbD k = (x.cr.getLsbD k && !mask.getLsbD k)))

/-- 08 R182, R185: EFLDI and EFLD replace the named bits of e[ED] and keep the others; e[ED] is a source of both, and each waits, changing
nothing, while an earlier result of e[ED] is not available. EFLDI with POS > 112 and EFLD with POS + LEN > 128 raise FW_ILLEGAL. -/
def Obligations.StagingFields : Prop :=
  ∀ (s : State) (c : Ctx) (ed : BitVec 3) (pos : BitVec 7) (imm : BitVec 16) (ra lenm1 : BitVec 5), Canon s →
    let x := getCtx s c
    let e := rdE x ed.toNat
    let p := pos.toNat
    let n := lenm1.toNat + 1
    let wi : W32 := 0x20#6 ++ ed ++ pos ++ imm
    let wr : W32 := 0x21#6 ++ ed ++ pos ++ ra ++ lenm1 ++ 0#6
    (p ≤ 112 → ∃ v : W128,
      (∀ k : Nat, k < 128 → v.getLsbD k = if p ≤ k ∧ k < p + 16 then imm.getLsbD (k - p) else e.getLsbD k) ∧
      StageResult (.efldi c ed pos imm) s c wi [eKey ed.toNat] ed v 1) ∧
    (p + n ≤ 128 → ∃ v : W128,
      (∀ k : Nat, k < 128 →
        v.getLsbD k = if p ≤ k ∧ k < p + n then (rdS x ra.toNat).getLsbD (k - p) else e.getLsbD k) ∧
      StageResult (.efld c ed pos ra lenm1) s c wr [ra.toNat, eKey ed.toNat] ed v 1) ∧
    (p ≤ 112 → canIssue s c = true → fetch s x = some wi → srcsReady s x [eKey ed.toNat] = false →
      exec (.efldi c ed pos imm) s = .next s) ∧
    (p + n ≤ 128 → canIssue s c = true → fetch s x = some wr → srcsReady s x [ra.toNat, eKey ed.toNat] = false →
      exec (.efld c ed pos ra lenm1) s = .next s) ∧
    (112 < p → canIssue s c = true → fetch s x = some wi → Traps (.efldi c ed pos imm) s c fIllegal) ∧
    (128 < p + n → canIssue s c = true → fetch s x = some wr → Traps (.efld c ed pos ra lenm1) s c fIllegal)

/-- 08 R186, R187: ISSUE places e[ED], with bit 115 the issuing context's number, at the tail of the queue of its engine for this
context, where that queue is below its limit (10 R234); a full queue stalls; ENG 6 to 15 places nothing and raises
OPCODE_RESERVED. -/
def Obligations.IssuePushesWord : Prop :=
  ∀ (s : State) (c : Ctx) (ed : BitVec 3), Canon s →
    let x := getCtx s c
    let v := rdE x ed.toNat
    let i : Instr := .issue c ed
    Ready s c (0x23#6 ++ ed ++ 0#23 : W32) [eKey ed.toNat] →
      (∀ e : Eng, engOf (fld v 124 4) = some e →
        (queueLimit s c e ≤ (queueOf x e).length → Stalls i s c) ∧
        ((queueOf x e).length < queueLimit s c e → Answers i s fun t =>
          (∃ w : W128, (∀ k : Nat, k < 128 → w.getLsbD k = if k = 115 then decide (c = .c1) else v.getLsbD k) ∧
            queueOf (getCtx t c) e = queueOf x e ++ [{ id := s.nextId, word := w }]) ∧
          (∀ e' : Eng, e' ≠ e → queueOf (getCtx t c) e' = queueOf x e') ∧
          getCtx t c = { stepped x with queue := (getCtx t c).queue } ∧ OnlyCtx { s with nextId := s.nextId + 1 } t c)) ∧
      (6 ≤ fld v 124 4 → Traps i s c fOpcode)

/-- 08 R182, 09 R206 to R208: FSET and FCLR take part in the flag updates of their step, FCLR with the generation in s[ra][13:10];
FWAIT makes its context WAITING on the flag of s[ra][9:0]. FRD reads a flag's set bit, generation and index, ERD one of the four 32-bit
parts of a staging register. -/
def Obligations.FlagsAndStagingReads : Prop :=
  (∀ (s : State) (c : Ctx) (ra : BitVec 5),
     let x := getCtx s c
     let f := (rdS x ra.toNat).toNat % 1024
     let w (op : BitVec 6) : W32 := op ++ 0#5 ++ ra ++ 0#5 ++ 0#11
     (Ready s c (w 0x28) [ra.toNat] →
       Answers (.fset c ra) s fun t => getCtx t c = stepped x ∧ OnlyCtx { s with stepSets := s.stepSets ++ [(f, some c)] } t c) ∧
     (Ready s c (w 0x29) [ra.toNat] →
       Answers (.fclr c ra) s fun t => getCtx t c = stepped x ∧
         OnlyCtx { s with stepClears := s.stepClears ++ [(f, BitVec.ofNat 4 ((rdS x ra.toNat).toNat / 1024))] } t c) ∧
     (Ready s c (w 0x2A) [ra.toNat] →
       Answers (.fwait c ra) s fun t => OnlyCtx s t c ∧ getCtx t c = { stepped x with run := .waiting, wait := .flag f })) ∧
  (∀ (s : State) (c : Ctx) (rd ra : BitVec 5) (es : BitVec 3) (k : BitVec 2), Canon s →
     let x := getCtx s c
     let f := BitVec.ofNat 10 (rdS x ra.toNat).toNat
     let v := getFlag s f.toNat
     RegResult (.frd c rd ra) s c (0x2B#6 ++ rd ++ ra ++ 0#5 ++ 0#11 : W32) [ra.toNat] rd
       (0#17 ++ BitVec.ofBool v.set ++ v.gen ++ f : W32) 2 ∧
     RegResult (.erd c rd es k) s c (0x22#6 ++ rd ++ 0#2 ++ es ++ 0#3 ++ k ++ 0#11 : W32) [eKey es.toNat] rd
       (BitVec.ofNat 32 ((rdE x es.toNat).toNat / 2 ^ (32 * k.toNat))) 1)

/-- 08 R194: SRD reads each special register of the table, the step registers as an admission that the last boundary found due leaves them
(11 R261; that it comes before the read is the model's choice, log 82); any other number raises FW_ILLEGAL. -/
def Obligations.SpecialRegisterReads : Prop :=
  ∀ (s : State) (c : Ctx) (rd : BitVec 5) (n : BitVec 12), Canon s →
    let x := getCtx s c
    let w : W32 := 0x38#6 ++ rd ++ 0#5 ++ 0#4 ++ n
    let b := (seqDone s).sb
    let reads (v : W32) : Prop := RegResult (.srd c rd n) s c w [] rd v 2
    (n = 0x000 → reads x.cr) ∧ (n = 0x001 → reads (if c = .c1 then 1 else 0)) ∧
    (n = 0x002 → reads (BitVec.ofNat 32 s.cfg.fid.toNat)) ∧ (n = 0x003 → reads (BitVec.ofNat 32 s.chainAddr.toNat)) ∧
    (n = 0x010 → reads (BitVec.ofNat 32 b.num.toNat)) ∧ (n = 0x011 → reads (BitVec.ofNat 32 (b.num.toNat / 2 ^ 32))) ∧
    (n = 0x040 → reads (BitVec.ofNat 32 s.tmr.time.toNat)) ∧ (n = 0x041 → reads (BitVec.ofNat 32 (s.tmr.time.toNat / 2 ^ 32))) ∧
    (0x020 ≤ n.toNat → n.toNat ≤ 0x02F → reads
      (if b.stA = .inForce then sget 0 b.bufA (n.toNat - 0x20)
       else if b.stB = .inForce then sget 0 b.bufB (n.toNat - 0x20) else 0)) ∧
    (¬ (n.toNat ≤ 3 ∨ n = 0x010 ∨ n = 0x011 ∨ 0x020 ≤ n.toNat ∧ n.toNat ≤ 0x02F ∨ n = 0x040 ∨ n = 0x041) →
      canIssue s c = true → fetch s x = some w → Traps (.srd c rd n) s c fIllegal)

/-- 08 R191: a handle instruction whose reserved operand bits are zero waits for the boundary of its step with its operands; HALLOC
and HRD, which write rd, stall while rd is reserved. Reserved operand bits raise FW_ILLEGAL, whatever s[ra] waits for (R183). -/
def Obligations.HandleInstructionsIssue : Prop :=
  ∀ (s : State) (c : Ctx) (rd ra rb : BitVec 5), Canon s →
    let x := getCtx s c
    let a := rdS x ra.toNat
    let b := rdS x rb.toNat
    let one (i : Instr) (op : Nat) (resv : Prop) (writes : Bool) : Prop :=
      let w : W32 := BitVec.ofNat 6 (0x30 + op) ++ rd ++ ra ++ rb ++ 0#11
      (Ready s c w [rb.toNat] → resv → Traps i s c fIllegal) ∧
      (Ready s c w [ra.toNat, rb.toNat] →
        (¬ resv → writes = true → regReserved x rd.toNat = true → Stalls i s c) ∧
        (¬ resv → (writes = true → regReserved x rd.toNat = false) → Answers i s fun t =>
          OnlyCtx { s with stepOps := s.stepOps ++ [{ ctx := c, op := op, rd := rd, a := a, b := b }] } t c ∧
          getCtx t c = { stepped x with ready := (getCtx t c).ready } ∧
          (∀ k : Nat, sget 0 (getCtx t c).ready k =
            if writes = true ∧ k = rd.toNat ∧ k ≠ 0 then s.steps + 2 else sget 0 x.ready k)))
    one (.halloc c rd ra rb) 0 (b.toNat / 2 ^ 28 ≠ 0) true ∧ one (.hfree c rd ra rb) 1 (b ≠ 0) false ∧
    one (.hrebase c rd ra rb) 2 False false ∧ one (.hflags c rd ra rb) 3 False false ∧
    one (.hdrain c rd ra rb) 4 False false ∧ one (.hrd c rd ra rb) 5 (b ≠ 0) true

/-- 08 R195, R196, 10 R249, 13 R283: HALT makes its context HALTED; SFENCE, LFENCE and SNAPF wait exactly where a swap of their kind is
pending or a snapshot or P record is due (in the training step that the last boundary's admission leaves, 11 R261; log 82), and otherwise
go on. A full snapshot is due in a core that is enabled and does not replay, where FORCE is set or the training step is a multiple of
CADENCE; a P record where no full one is, class P is enabled and the training step is a multiple of PCADENCE; a zero cadence never is. CSTART of C0 starts a HALTED C1, and raises FW_ILLEGAL from C1 or while C1 is not HALTED, whatever ra waits for (R183). -/
def Obligations.FencesAndHalting : Prop :=
  ∀ (s : State) (c : Ctx) (ra : BitVec 5),
    let x := getCtx s c
    let layout : Prop := ∃ r ∈ s.proof.recs, r.1 = 0x0D
    let num := (seqDone s).sb.num.toNat
    let on : Prop := s.st.en = true ∧ s.st.rstate ≠ .replaying
    let full : Prop := on ∧ (s.st.force = true ∨ s.st.cadence ≠ 0 ∧ num % s.st.cadence.toNat = 0)
    let prec : Prop := on ∧ ¬ full ∧ s.st.cmask.getLsbD 4 = true ∧ s.st.pcadence ≠ 0 ∧ num % s.st.pcadence.toNat = 0
    let fence (i : Instr) (w : W32) (srcs : List Nat) (waits : Prop) (k : CtxWait) : Prop :=
      Ready s c w srcs → Answers i s fun t => OnlyCtx s t c ∧
        (waits → getCtx t c = { stepped x with run := .waiting, wait := k }) ∧ (¬ waits → getCtx t c = stepped x)
    fence (.sfence c) (0x3C#6 ++ 0#26 : W32) [] (s.pstate = .pending ∧ ¬ layout) .sfence ∧
    fence (.lfence c) (0x3E#6 ++ 0#26 : W32) [] (s.pstate = .pending ∧ layout) .lfence ∧
    (full → fence (.snapf c ra) (0x3D#6 ++ 0#5 ++ ra ++ 0#16 : W32) [ra.toNat] True
      (.snapf true (BitVec.ofNat 16 (rdS x ra.toNat).toNat))) ∧
    (¬ full → fence (.snapf c ra) (0x3D#6 ++ 0#5 ++ ra ++ 0#16 : W32) [ra.toNat] prec
      (.snapf false (BitVec.ofNat 16 (rdS x ra.toNat).toNat))) ∧
    (Ready s c (0x3F#6 ++ 0#26 : W32) [] →
      Answers (.halt c) s fun t => OnlyCtx s t c ∧ getCtx t c = { stepped x with run := .halted }) ∧
    (Ready s c (0x3F#6 ++ 0#5 ++ ra ++ 0#5 ++ 0x001#11 : W32) [] → c = .c1 ∨ s.c1.run ≠ .halted → Traps (.cstart c ra) s c fIllegal) ∧
    (Ready s c (0x3F#6 ++ 0#5 ++ ra ++ 0#5 ++ 0x001#11 : W32) [ra.toNat] →
      (c = .c0 → s.c1.run = .halted → Answers (.cstart c ra) s fun t =>
        t.c1 = { s.c1 with pc := BitVec.ofNat 16 (rdS x ra.toNat).toNat, run := .running, nextIssue := s.steps + 1 } ∧
        OnlyCtx { s with c1 := t.c1 } t c ∧ t.c0 = stepped x))

/-- 01 R20, 09 R208, R216: a satisfied FWAIT lets its context run on, a satisfied head word is ready, a satisfied SALL clears its
flags where it says so and may complete; a word whose work is done leaves and sets its completion flag for its context. A product whose
waves still wait for the grant of a Rise does not complete (03 R81); with one that completes, its slices leave the array (03 R62). What a
word that has met another on a place has written is unspecified (00 R8): a free value. -/
def Obligations.WaitsEndAndWordsComplete : Prop :=
  ∀ (s : State), live s = true →
    (∀ (c : Ctx) (f : Nat) (g : BitVec 4), (getCtx s c).wait = .flagSat f g → (getCtx s c).run = .waiting →
      exec (.waitSatisfied (.fwait c)) s = .next (setCtx s c { getCtx s c with run := .running, wait := .none })) ∧
    (∀ (c : Ctx) (e : Eng) (g : BitVec 4), CtxCanon (getCtx s c) → headWait (getCtx s c) e = .satisfied g →
      Answers (.waitSatisfied (.head e c)) s fun t =>
        t = setCtx s c { getCtx s c with hwait := (getCtx t c).hwait } ∧ headWait (getCtx t c) e = .ready g ∧
        ∀ e' : Eng, e' ≠ e → headWait (getCtx t c) e' = headWait (getCtx s c) e') ∧
    (∀ (r : Running) (f n : Nat) (clr : Bool) (gs : List (Nat × BitVec 4)), r.job = .sall f n clr (some gs) → r.eng = .sync →
      (∀ q ∈ s.running, q.id = r.id ↔ q = r) → runningOf s .sync r.ctx = [r] →
      exec (.waitSatisfied (.sall r.ctx)) s = .next { s with
        stepClears := s.stepClears ++ (if clr then gs else []),
        running := s.running.map (fun q => if q = r then { r with job := .done } else q) }) ∧
    (∀ r : Running, findRun s r.id = some r → r.job = .done →
      let held : Prop := s.pwr.need = true ∧ r.eng = .matrix ∧ (wOp r.word = 2 ∨ wOp r.word = 6) ∧ ∃ f ∈ r.foot, f.len ≠ 0
      let t : State := { s with running := s.running.filter (fun q => q.id ≠ r.id), stepDone := s.stepDone ++ [r],
                                mesh := if r.eng = .matrix then endSlices r.id s.mesh else s.mesh,
                                tmr := { s.tmr with progress := true } }
      let u := if r.clash then freeFeet t r.wrote else t
      (held → exec (.wordComplete r.id) s = .next s) ∧
      (¬ held → exec (.wordComplete r.id) s = .next { u with
        stepSets := s.stepSets ++ (if r.word.getLsbD 103 then [(r.word.toNat / 2 ^ 93 % 1024, some r.ctx)] else []) }))

/-- 06 R139, 08 R190, R191, 14 R305: the operation that a boundary applies for a handle instruction acts, unless it is refused, on entry
s[ra][8:0] and, in checked mode, on the pages it names, which become EMPTY but for a state bit that an access of the same step has set (01
R28), and HALLOC and HRD write the entry's name; nothing else changes (in checked
mode the elements of an emptied page have no producer any more, 01 R29). That Rebase compares the two PART fields, of handles that cover a
page, is the model's choice (log 5). A refused one leaves every entry and page as it was, reports the fault of R139 for its context, sets CR.HREFUSED, and for HALLOC
writes all ones to rd. -/
def Obligations.HandleOperations : Prop :=
  (∀ (s : State) (c : Ctx) (rd : BitVec 5) (a b : W32), Canon s →
     let x := getCtx s c
     let h := a.toNat % 512
     let d := b.toNat % 512
     let e := getH s h
     let f := getH s d
     let lo := b.toNat % 2048
     let hi := b.toNat / 2048 % 2048
     let part := b.toNat / 2 ^ 22 % 8
     let idle (k : Nat) : Prop := inUse s k = false ∧ (getH s k).valid = true
     let apart : Prop := e.part ≠ f.part ∧ e.npages ≠ 0 ∧ f.npages ≠ 0
     let acts (op : Nat) (entry : Nat → Handle) (first n : Nat) : Prop :=
       let t := applyHandleOp s { ctx := c, op := op, rd := rd, a := a, b := b }
       t = setCtx { s with handles := t.handles, pages := t.pages, accOwn := t.accOwn } c { x with regs := (getCtx t c).regs } ∧
       (s.checked = false → t.accOwn = s.accOwn) ∧
       (∀ k : Nat, getH t k = entry k) ∧
       (∀ p : Nat, getPage t p = if s.checked = true ∧ first ≤ p ∧ p < first + n then
           (let k := (getPage s p).st &&& ~~~(pageBase s p).st
            if k = 0 then PageSt.empty else { st := k, prod := (getPage s p).prod })
         else getPage s p) ∧
       (∀ k : Nat, rdS (getCtx t c) k = if (op = 0 ∨ op = 5) ∧ k = rd.toNat ∧ k ≠ 0 then
         BitVec.ofNat 32 ((if (entry h).valid then 8192 else 0) + (entry h).gen.toNat * 512 + h) else rdS x k)
     let fresh : Handle :=
       { gen := e.gen + 1, valid := true, wp := b.getLsbD 25, win := b.getLsbD 26, sp := b.getLsbD 27, wopen := false,
         wgen := e.wgen, part := BitVec.ofNat 3 part, base := BitVec.ofNat 11 lo, npages := BitVec.ofNat 11 hi, vstep := 0,
         vsgen := 0, vvalid := false }
     let only (k : Nat) (v : Handle) : Nat → Handle := fun j => if j = k then v else getH s j
     (e.valid = false → lo + hi ≤ pageCount s →
       (hi ≠ 0 → (s.cfg.parts.getD part (0, 0)).1 ≤ lo ∧
         lo + hi ≤ (s.cfg.parts.getD part (0, 0)).1 + (s.cfg.parts.getD part (0, 0)).2) →
       (∀ k : Nat, k < 512 → k ≠ h → (getH s k).valid = true → ∀ p : Nat, lo ≤ p ∧ p < lo + hi →
         ¬ ((getH s k).base.toNat ≤ p ∧ p < (getH s k).base.toNat + (getH s k).npages.toNat)) →
       acts 0 (only h fresh) lo hi) ∧
     (idle h → acts 1 (only h { e with valid := false }) e.base.toNat e.npages.toNat) ∧
     (idle h → idle d → d ≠ h → ¬ apart → acts 2 (fun k =>
       if k = h then { e with base := f.base, npages := f.npages } else if k = d then { f with valid := false } else getH s k)
       e.base.toNat e.npages.toNat) ∧
     (idle h → acts 3 (only h { e with wp := b.getLsbD 0, win := b.getLsbD 1, sp := b.getLsbD 2 }) 0 0) ∧
     (e.valid = true → lo + hi ≤ e.npages.toNat → acts 4 (getH s) (e.base.toNat + lo) hi) ∧
     acts 5 (getH s) 0 0) ∧
  (∀ (s : State) (c : Ctx) (rd : BitVec 5) (a b : W32), Canon s →
     let x := getCtx s c
     let h := a.toNat % 512
     let d := b.toNat % 512
     let e := getH s h
     let lo := b.toNat % 2048
     let hi := b.toNat / 2048 % 2048
     let part := b.toNat / 2 ^ 22 % 8
     let busy (k : Nat) : Prop := inUse s k = true ∨ (getH s k).valid = false
     let refused (op code : Nat) : Prop :=
       let t := applyHandleOp s { ctx := c, op := op, rd := rd, a := a, b := b }
       t = { setCtx s c { x with regs := (getCtx t c).regs, cr := (getCtx t c).cr } with
               flt := { s.flt with reports := s.flt.reports ++ [{ code := code, rep := 6 + ctxNum c, ctx := some c }] } } ∧
       (∀ k : Nat, k < 32 → (getCtx t c).cr.getLsbD k = (decide (k = 0) || x.cr.getLsbD k)) ∧
       (∀ k : Nat, rdS (getCtx t c) k = if op = 0 ∧ k = rd.toNat ∧ k ≠ 0 then 0xFFFFFFFF else rdS x k)
     let outside : Prop := pageCount s < lo + hi ∨ hi ≠ 0 ∧ ¬ ((s.cfg.parts.getD part (0, 0)).1 ≤ lo ∧
       lo + hi ≤ (s.cfg.parts.getD part (0, 0)).1 + (s.cfg.parts.getD part (0, 0)).2)
     (e.valid = true → refused 0 fBusy) ∧
     (e.valid = false → outside → refused 0 fRange) ∧
     (e.valid = false → ¬ outside →
       (∃ k : Nat, k < 512 ∧ k ≠ h ∧ (getH s k).valid = true ∧ ∃ p : Nat, lo ≤ p ∧ p < lo + hi ∧
         (getH s k).base.toNat ≤ p ∧ p < (getH s k).base.toNat + (getH s k).npages.toNat) → refused 0 fOverlap) ∧
     (busy h → refused 1 fBusy) ∧
     (busy h ∨ busy d ∨ d = h → refused 2 fBusy) ∧
     (¬ busy h → ¬ busy d → d ≠ h → e.part ≠ (getH s d).part → e.npages ≠ 0 → (getH s d).npages ≠ 0 → refused 2 fRange) ∧
     (busy h → refused 3 fBusy) ∧
     (e.valid = false → refused 4 fBusy) ∧
     (e.valid = true → e.npages.toNat < lo + hi → refused 4 fExtent))


/-! ### The step ring -/

/-- 01 R12, R16, 08 R184, R191, 09 R223, 17 R386: where no write is held and no management access waits, a step keeps every memory and every
register but those that its boundary writes for handle instructions, ends what lasted for the step, and sends one sync flit. Every counter
takes the events of the step before it and of this step, a step, a wave or a frozen step and a sync flit among them: those of the step before
are in the counters for good, and those of this step follow the writes to PERF_CTL at its boundary (log 93). The boundary applies the handle instructions of the step, one of each context at most, C0's before C1's (the model's
choice, log 6): O21 says what each does. Any progress of the step, a wave of the array or a flag that changes, leaves the deadlock count at
zero; without any it keeps its value. That each step sends one flit is the model's choice (log 44), and so is the moment at which a send or an admission
that the last boundary found due is made (log 82). -/
def Obligations.StepEndsTheStep : Prop :=
  ∀ (s : State) (hold : Bool) (n : Nat) (lines : List (Nat × Nat)), awake s = true → s.rstDue = false → s.held = [] →
    s.mgmt = [] →
    let u := seqDone s
    let waves : Prop := hold = false ∧ s.pwr.need = false ∧ ∃ r ∈ s.running, r.eng = .matrix
    Answers (.step hold n lines) s fun t =>
      let applied (h : State) : Prop :=
        t.handles = h.handles ∧ t.pages = h.pages ∧ t.accOwn = h.accOwn ∧
        (∀ (c : Ctx) (k : Nat), rdS (getCtx t c) k = rdS (getCtx h c) k) ∧
        (∀ c : Ctx, (getCtx t c).cr.getLsbD 0 = (getCtx h c).cr.getLsbD 0) ∧
        ∀ r ∈ h.flt.reports.drop s.flt.reports.length, r ∈ t.flt.reports
      t.spad = s.spad ∧ t.spadErr = s.spadErr ∧ t.acc = s.acc ∧ t.stat = s.stat ∧ t.dmem = s.dmem ∧ t.imem = s.imem ∧
      t.trackers = s.trackers ∧ t.cfg = s.cfg ∧ t.tmr.time = s.tmr.time ∧ t.steps = s.steps + 1 ∧
      (s.stepOps = [] → applied s) ∧ (∀ o : HandleOp, s.stepOps = [o] → applied (applyHandleOp s o)) ∧
      (∀ o p : HandleOp, s.stepOps = [o, p] → applied (if o.ctx = .c1 ∧ p.ctx = .c0
        then applyHandleOp (applyHandleOp s p) o else applyHandleOp (applyHandleOp s o) p)) ∧
      (∀ c : Ctx, (getCtx t c).estage = (getCtx s c).estage ∧ (getCtx t c).vregs = (getCtx s c).vregs ∧
        (getCtx t c).masks = (getCtx s c).masks ∧ (getCtx t c).mslots = (getCtx s c).mslots ∧
        (getCtx t c).rslots = (getCtx s c).rslots ∧ (getCtx t c).pc = (getCtx s c).pc ∧
        (getCtx t c).queue = (getCtx s c).queue ∧ (getCtx t c).issued = false) ∧
      t.stepSets = [] ∧ t.stepClears = [] ∧ t.stepMarks = [] ∧ t.stepOps = [] ∧ t.selfFlits = [] ∧ t.dmemStep = [] ∧
      t.stepSpad = [] ∧ t.stepPages = [] ∧ t.stepAcc = [] ∧ t.stepTrk = [] ∧ t.stepDone = [] ∧ t.winDone = [] ∧ t.rstDue = false ∧
      t.txA = false ∧ t.txB = false ∧ t.rxA = false ∧ t.rxB = false ∧ t.rxS = false ∧
      t.tmr.progress = false ∧ t.tmr.ticked = false ∧ t.tmr.winSteps = s.tmr.winSteps + 1 ∧
      (s.tmr.progress = true ∨ (∃ f : Nat, getFlag t f ≠ getFlag s f) ∨ waves → t.tmr.dlCount = 0) ∧
      (s.tmr.progress = false → ¬ waves → lines = [] → u.stepSets = [] → s.stepClears = [] → s.stepMarks = [] → s.selfFlits = [] →
        t.tmr.dlCount = s.tmr.dlCount) ∧
      (t.tmr.dlCount = 0 ∨ t.tmr.dlCount = s.tmr.dlCount) ∧
      t.syncQ = u.syncQ.tail ∧ t.syncSent = s.syncSent ++ (u.syncQ.take 1).map (fun o => o.flit) ∧
      (s.perfStop = true → t.perf = s.perf) ∧
      (s.perfStop = false → Canon s → ∀ k : Nat, sget 0 t.perf k = sget 0 s.perf k + BitVec.ofNat 48 (sget 0 s.perfLast k)) ∧
      t.perfStop = s.perfStop ∧ t.perfStep = [] ∧
      (Canon s → (∀ k : Nat, k ∉ [0, 1, 2, 3, 4, 9, 11, 18] → sget 0 t.perfLast k = sget 0 s.perfStep k) ∧
        (∀ k : Nat, sget 0 s.perfStep k ≤ sget 0 t.perfLast k) ∧ sget 0 t.perfLast 0 = sget 0 s.perfStep 0 + 1 ∧
        (waves → sget 0 t.perfLast 2 = sget 0 s.perfStep 2 + 1 ∧ sget 0 t.perfLast 1 = sget 0 s.perfStep 1) ∧
        (¬ waves → sget 0 t.perfLast 1 = sget 0 s.perfStep 1 + 1 ∧ sget 0 t.perfLast 2 = sget 0 s.perfStep 2) ∧
        sget 0 t.perfLast 18 = sget 0 s.perfStep 18 + (if u.syncQ = [] then 0 else 1))

/-- 09 R207 points 2 to 4, R221, R222: at the boundary every set of the step advances its flag's GEN and leaves it set and unmarked, a
clear applies where no set does and it names GEN, then LOST, PARK and UNPARK notices mark the flags of their owner. Every set of a set
flag, and every set after the first of a clear one, records OVERSET with the context of its set (14 R305), and counter 11 counts them
(log 93); with nothing else to report, the boundary of a step reports just these. Which of the sets of one step counts as the first is the model's
choice (log 80), and the moment of an admission's set log 82. -/
def Obligations.FlagUpdates : Prop :=
  (∀ (s : State) (hold : Bool) (n : Nat) (lines : List (Nat × Nat)), awake s = true → s.rstDue = false → Canon s → s.selfFlits = [] →
     s.mgmt = [] → Answers (.step hold n lines) s fun t => ∀ f : Nat,
       let v := getFlag s f
       let k := ((seqDone s).stepSets.filter (fun e => e.1 = f)).length
       let u : Flag := if k = 0 then (if (f, v.gen) ∈ s.stepClears then { v with set := false } else v)
         else { set := true, gen := v.gen + BitVec.ofNat 4 k, lost := false, parked := false }
       let owned (x : BitVec 20) : Prop := (f, x) ∈ s.cfg.flagmap
       getFlag t f = s.stepMarks.foldl (fun v m =>
         match m with
         | .lost x => if owned x ∧ v.set = false then { v with lost := true, parked := false } else v
         | .park x => if owned x ∧ v.lost = false then { v with parked := true } else v
         | .unpark x => if owned x then { v with parked := false } else v) u) ∧
  (∀ (s : State) (hold : Bool) (n : Nat) (lines : List (Nat × Nat)), awake s = true → s.rstDue = false → Canon s → s.selfFlits = [] →
     s.flt.reports = [] → s.stepMarks = [] → s.stepOps = [] → s.held = [] → s.mgmt = [] → s.pinA = s.linkA → s.pinB = s.linkB → (∀ e ∈ (seqDone s).stepSets, e.1 < 1024) →
     let extra (f : Nat) : List (Option Ctx) :=
       ((((seqDone s).stepSets.filter (fun e => e.1 = f)).map (fun e => e.2)).drop (if (getFlag s f).set then 0 else 1))
     Answers (.step hold n lines) s fun t =>
       (∀ r ∈ t.flt.reports, r.code = fOverset ∧ r.rep = 4) ∧
       (∀ o : Option Ctx, (t.flt.reports.filter (fun r => r.ctx = o)).length =
         ((List.range 1024).map (fun f => ((extra f).filter (fun x => x = o)).length)).sum) ∧
       sget 0 t.perfLast 11 = sget 0 s.perfStep 11 + ((List.range 1024).map (fun f => (extra f).length)).sum)

/-- 09 R208, R216, R221, R222: FWAITs, head words and running SALLs are judged against the flags that the boundary leaves: a set flag satisfies
every wait on it with the flag's GEN, a LOST one releases an FWAIT or keeps a head word from starting with CR.OWNER_LOST, a PARKED
one sets CR.OWNER_PARKED and keeps waiting (at each boundary, log 85). CR.OWNER_LOST is set when the wait meets the LOST flag and not
again while it goes on. An SALL whose flags are all set takes their generations; where one is not and one is LOST it ends, with
CR.OWNER_LOST and without its completion flag; where none is LOST and one is PARKED it sets CR.OWNER_PARKED and waits on. No fault is
recorded at the boundary. -/
def Obligations.WaitsJudged : Prop :=
  ∀ (s : State) (hold : Bool) (n : Nat) (lines : List (Nat × Nat)) (c : Ctx), awake s = true → s.rstDue = false → Canon s → occurrences s = [] →
    s.stepOps = [] → s.selfFlits = [] → s.mgmt = [] → s.held = [] → s.pinA = s.linkA → s.pinB = s.linkB →
    Answers (.step hold n lines) s fun t =>
      let x := getCtx s c
      let y := getCtx t c
      (∀ f : Nat, x.wait = .flag f → x.run = .waiting →
        ((getFlag t f).set = true → y.wait = .flagSat f (getFlag t f).gen ∧ y.run = .waiting) ∧
        ((getFlag t f).set = false → (getFlag t f).lost = true → y.wait = .none ∧ y.run = .running ∧ y.cr.getLsbD 1 = true) ∧
        ((getFlag t f).set = false → (getFlag t f).lost = false → (getFlag t f).parked = true →
          y.wait = .flag f ∧ y.run = .waiting ∧ y.cr.getLsbD 2 = true) ∧
        ((getFlag t f).set = false → (getFlag t f).lost = false → (getFlag t f).parked = false →
          y.wait = .flag f ∧ y.run = .waiting)) ∧
      (∀ (e : Eng) (q : QWord), headOf s c e = some q → wWV q.word = true → headWait x e = .pending →
        ((getFlag t (wFlag q.word)).set = true → headWait y e = .satisfied (getFlag t (wFlag q.word)).gen) ∧
        ((getFlag t (wFlag q.word)).set = false →
          ((getFlag t (wFlag q.word)).lost = true → headWait y e = .lost ∧ y.cr.getLsbD 1 = true) ∧
          ((getFlag t (wFlag q.word)).lost = false → headWait y e = .pending ∧
            ((getFlag t (wFlag q.word)).parked = true → y.cr.getLsbD 2 = true)))) ∧
      (∀ (e : Eng) (q : QWord), headOf s c e = some q → wWV q.word = true → headWait x e = .lost → s.stepMarks = [] →
        ((getFlag t (wFlag q.word)).set = true → headWait y e = .satisfied (getFlag t (wFlag q.word)).gen) ∧
        ((getFlag t (wFlag q.word)).set = false → headWait y e = .lost ∧
          (x.wait = .none → s.running = [] → (∀ e' : Eng, e' ≠ e → headOf s c e' = none) →
            y.cr.getLsbD 1 = x.cr.getLsbD 1))) ∧
      (∀ (r : Running) (b m : Nat) (clr : Bool), r ∈ s.running → r.ctx = c → r.job = .sall b m clr none →
        (∀ q ∈ s.running, q.id = r.id → q = r) → (∀ o ∈ s.syncQ, o.word ≠ some r.id) →
        let all : Prop := ∀ i : Nat, i < m → (getFlag t (b + i)).set = true
        let lost : Prop := ∃ i : Nat, i < m ∧ (getFlag t (b + i)).lost = true
        let parked : Prop := ∃ i : Nat, i < m ∧ (getFlag t (b + i)).parked = true
        (all → findRun t r.id = some { r with job := .sall b m clr (some ((List.range m).map (fun i =>
          (b + i, (getFlag t (b + i)).gen)))) }) ∧
        (¬ all → lost → findRun t r.id = none ∧ y.cr.getLsbD 1 = true ∧ t.stepSets = []) ∧
        (¬ all → ¬ lost → findRun t r.id = some r ∧ (parked → y.cr.getLsbD 2 = true))) ∧
      (∀ k : Nat, x.cr.getLsbD k = true → y.cr.getLsbD k = true)

/-- 14 R309, R310, R313: the default reactions of the assigned codes, the reactions that FAULTMAP gives, and HOLD_CONTEXT without a
context acting as SIGNAL; WIRE and RESTORE_MISMATCH always hold the core. -/
def Obligations.FaultReactions : Prop :=
  let log : List Nat := [0x01, 0x03, 0x05, 0x2D, 0x30, 0x31, 0x41, 0x42, 0x64, 0x65, 0x85, 0xA4, 0xA6, 0xA7, 0xE6]
  let holdContext : List Nat :=
    [0x07, 0x20, 0x21, 0x22, 0x23, 0x24, 0x25, 0x26, 0x27, 0x28, 0x60, 0x61, 0x62, 0x63, 0x82, 0x83, 0x84]
  let holdCore : List Nat := [0x02, 0x04, 0x06, 0x29, 0xA0, 0xA1, 0xA2, 0xA3, 0xA8, 0xA9, 0xC0, 0xC1, 0xE5]
  let signal : List Nat :=
    [0x2A, 0x2B, 0x2C, 0x2E, 0x2F, 0x40, 0x80, 0x81, 0xA5, 0xAA, 0xAB, 0xAC, 0xAD, 0xAE, 0xAF, 0xC2, 0xE0, 0xE1, 0xE2, 0xE3,
     0xE4, 0xE7, 0xE8, 0xE9]
  (∀ k : Nat, codeAssigned k = true ↔ k ∈ log ∨ k ∈ holdContext ∨ k ∈ holdCore ∨ k ∈ signal) ∧
  ∀ (s : State) (r : Report),
    let m := (sget 0xF s.cfg.faultmap r.code).toNat
    let fixed : Prop := r.code = 0xC1 ∨ r.code = 0xE5
    let hold : Prop := r.ctx ≠ none
    (fixed → effReact s r = .holdCore) ∧
    (¬ fixed → m = 0 → effReact s r = .log) ∧ (¬ fixed → m = 1 → effReact s r = .signal) ∧
    (¬ fixed → m = 2 → effReact s r = if hold then .holdCtx else .signal) ∧
    (¬ fixed → m = 3 → effReact s r = .holdCore) ∧ (¬ fixed → m = 4 → effReact s r = .resetReq) ∧
    (¬ fixed → m = 15 → (r.code ∈ log → effReact s r = .log) ∧ (r.code ∈ signal → effReact s r = .signal) ∧
      (r.code ∈ holdCore → effReact s r = .holdCore) ∧
      (r.code ∈ holdContext → effReact s r = if hold then .holdCtx else .signal))

/-- 14 R306, R311, R312, R314, R315, R317, R320, R321: a report that meets a boundary where nothing else is to be recorded or released is
recorded: sticky bit, count, first fault; its reaction sets the part of R391, starts the Rest timer again and holds the context or the
core; the output follows. -/
def Obligations.FaultsAreRecorded : Prop :=
  ∀ (s : State) (hold : Bool) (n : Nat) (lines : List (Nat × Nat)) (r : Report), awake s = true → s.rstDue = false →
    s.flt.reports = [r] → r.rep ∉ s.flt.repAck → r.rep < 16 → s.flt.wire.getLsbD r.rep = false → r.code < 256 → s.flt.wireDue = 0 → s.flt.finNew = false →
    s.flt.rel0 = false → s.flt.rel1 = false → s.flt.relC = false → s.mgmt = [] → s.pinA = s.linkA → s.pinB = s.linkB →
    Answers (.step hold n lines) s fun t =>
      let f := s.flt
      let g := t.flt
      let hit (k : Nat) : Bool := decide (k = r.code)
      let kept (p q : BitVec 256) : Prop := p = q
      let set (p q : BitVec 256) : Prop := ∀ k : Nat, k < 256 → p.getLsbD k = (hit k || q.getLsbD k)
      let again : Prop := g.restRun = true ∧ g.restCnt = 0
      let coreHeld : Prop := g.holdCore = true ∧ t.core = (if s.core = .running then .held else s.core) ∧
        ∀ c : Ctx, (getCtx t c).run = .held
      set g.sticky f.sticky ∧ g.count = (if f.count = 0xFFFFFFFF then f.count else f.count + 1) ∧ g.repAck = [r.rep] ∧
      (if f.fValid then g.fCode = f.fCode ∧ g.fRep = f.fRep ∧ g.fCtx = f.fCtx ∧ g.fTime = f.fTime
       else g.fCode.toNat = r.code ∧ g.fRep.toNat = r.rep ∧ g.fCtx = r.ctx ∧ g.fTime = s.tmr.time) ∧ g.fValid = true ∧
      (g.out = true ↔ ∃ k : Nat, g.actSig.getLsbD k = true ∨ g.actHold.getLsbD k = true ∨ g.actReset.getLsbD k = true) ∧
      (effReact s r = .log → kept g.actSig f.actSig ∧ kept g.actHold f.actHold ∧ kept g.actReset f.actReset ∧
        g.restRun = f.restRun ∧ g.restCnt = f.restCnt ∧ g.holdCore = f.holdCore) ∧
      (effReact s r = .signal → set g.actSig f.actSig ∧ kept g.actHold f.actHold ∧ kept g.actReset f.actReset ∧ again ∧
        g.holdCore = f.holdCore) ∧
      (effReact s r = .holdCtx → kept g.actSig f.actSig ∧ set g.actHold f.actHold ∧ kept g.actReset f.actReset ∧ again ∧
        g.holdCore = f.holdCore ∧ t.core = s.core ∧
        ∀ c : Ctx, r.ctx = some c → (getCtx t c).run = .held ∧ (getCtx t c).hold = true ∧
          (getCtx t (otherCtx c)).hold = (getCtx s (otherCtx c)).hold) ∧
      (effReact s r = .holdCore → kept g.actSig f.actSig ∧ set g.actHold f.actHold ∧ kept g.actReset f.actReset ∧ again ∧
        coreHeld ∧ g.resetReq = f.resetReq) ∧
      (effReact s r = .resetReq → kept g.actSig f.actSig ∧ kept g.actHold f.actHold ∧ set g.actReset f.actReset ∧ again ∧
        coreHeld ∧ g.resetReq = true)

/-- 06 R125, R152, R153: a write-back gives its word valid check bits; the scrubber walks a bank's rows in ascending order and wraps,
corrects single-bit errors in place with SPAD_ECC_CE, and leaves a line that holds an uncorrectable word as it is, with SPAD_ECC_UE. No
stored byte changes. While an earlier report of the memory tier waits to be taken or its acknowledge is still high, a row that would report
stalls (14 R306; that the whole command does is the model's reading, log 94, as are several reports of one row). -/
def Obligations.MemoryTierCorrects : Prop :=
  ∀ s : State, awake s = true → Canon s →
    (∀ w : Nat, w ∈ s.wbPend → Answers (.eccWriteback w) s fun t =>
      t = { s with spadErr := t.spadErr, wbPend := s.wbPend.filter (fun x => x ≠ w) } ∧
      ∀ x : Nat, eccOf t x = if x = w then .good else eccOf s x) ∧
    (∀ bank : Nat, bank < 64 →
      let row := sget 0 s.scrub bank % (4 * pageCount s)
      let first := (row * 16384 + (bank ^^^ (row % 64)) * 256) / 8
      let words := (List.range 32).map (fun i => first + i)
      let ues := words.filter (fun x => eccOf s x = .double)
      let ces := if ues = [] then words.filter (fun x => eccOf s x = .single) else []
      (reporting s 8 = true → ues ≠ [] ∨ ces ≠ [] → exec (.scrub bank) s = .next s) ∧
      (reporting s 8 = false ∨ ues = [] ∧ ces = [] → Answers (.scrub bank) s fun t =>
        t = { s with spadErr := t.spadErr, wbPend := s.wbPend.filter (fun x => x ∉ ces), scrub := t.scrub,
                     perfStep := t.perfStep, flt := { s.flt with reports := t.flt.reports } } ∧
        (∀ x : Nat, eccOf t x = if x ∈ ces then .good else eccOf s x) ∧
        (∀ b : Nat, sget 0 t.scrub b = if b = bank then sget 0 s.scrub b + 1 else sget 0 s.scrub b) ∧
        t.flt.reports = s.flt.reports ++ ces.map (fun _ => { code := fSpadCe, rep := 8, ctx := none }) ++
          (if ues = [] then [] else [{ code := fSpadUe, rep := 8, ctx := none }])))

/-! ### Vector engine -/

/-- 04 R85, R86, R88, R89, R91-R93: each element-wise word that passes its checks writes, for every active element, the function of its
sources' elements rounded once, and nothing else; INT32 wraps. One that fails a check is refused with the first fault in the order of R88,
and nothing else changes; so is every other form A word. -/
def Obligations.VectorElementwise : Prop :=
  ∀ (s : State) (c : Ctx) (w : W128), Canon s →
    let x := getCtx s c
    let f := vFMT w
    let a (j : Nat) : Nat := getE x f (vVA w) j
    let b (j : Nat) : Nat := if vBS w then (rdS x (vSB w)).toNat % 2 ^ fmtBits f else getE x f (vVB w) j
    let d (j : Nat) : Nat := getE x f (vVC w) j
    let ew (i : Instr) (op : Nat) (fmts : List Nat) (g : Nat → Nat) : Prop :=
      FormARefused i s c w op 47 False true fmts False False ∧ (FormA s c w op 47 fmts →
        Answers i s fun t => Fills s t (ran s c .vector w [] .done []) c f (vVD w) (fun j => if Active x w j then some (g j) else none))
    let v (n : Nat) : W32 := BitVec.ofNat 32 n
    let q (n : Nat) : Machine.Num := decodeElem f n
    let num (r : Machine.Num) (z : W32) : Nat := if f = 12 then z.toNat else roundAs f r
    let fn (k : Fn) (j : Nat) : Nat := if f = 0 then (fn32 k (v (a j))).toNat else (fnBf16 k (BitVec.ofNat 16 (a j))).toNat
    ew (.vadd c w) 0x01 [0, 1, 12] (fun j => num (addN (q (a j)) (q (b j))) (v (a j) + v (b j))) ∧
    ew (.vsub c w) 0x02 [0, 1, 12] (fun j => num (addN (q (a j)) (q (b j)).neg) (v (a j) - v (b j))) ∧
    ew (.vmul c w) 0x03 [0, 1, 12] (fun j => num (mulN (q (a j)) (q (b j))) (v (a j) * v (b j))) ∧
    ew (.vfma c w) 0x04 [0, 1, 12] (fun j => num (addN (mulN (q (a j)) (q (b j))) (q (d j))) (v (a j) * v (b j) + v (d j))) ∧
    ew (.vmin c w) 0x05 [0, 1, 12] (fun j => minMax false f (a j) (b j)) ∧
    ew (.vmax c w) 0x06 [0, 1, 12] (fun j => minMax true f (a j) (b j)) ∧
    ew (.vabs c w) 0x07 [0, 1, 12] (fun j => num (absN (q (a j))) (if (v (a j)).getLsbD 31 then -v (a j) else v (a j))) ∧
    ew (.vneg c w) 0x08 [0, 1, 12] (fun j => num (q (a j)).neg (-v (a j))) ∧
    ew (.vsqrt c w) 0x09 [0, 1] (fn .sqrt) ∧ ew (.vrcp c w) 0x0A [0, 1] (fn .rcp) ∧ ew (.vrsqrt c w) 0x0B [0, 1] (fn .rsqrt) ∧
    ew (.vexp2 c w) 0x0C [0, 1] (fn .exp2) ∧ ew (.vlog2 c w) 0x0D [0, 1] (fn .log2) ∧
    ew (.vand c w) 0x10 [12] (fun j => (v (a j) &&& v (b j)).toNat) ∧
    ew (.vor c w) 0x11 [12] (fun j => (v (a j) ||| v (b j)).toNat) ∧
    ew (.vxor c w) 0x12 [12] (fun j => (v (a j) ^^^ v (b j)).toNat) ∧
    ew (.vshl c w) 0x13 [12] (fun j => a j * 2 ^ (b j % 32)) ∧
    ew (.vshr c w) 0x14 [12] (fun j => a j / 2 ^ (b j % 32)) ∧
    ew (.vsra c w) 0x15 [12] (fun j => (BitVec.ofInt 32 ((v (a j)).toInt / 2 ^ (b j % 32))).toNat) ∧
    (let fn := fld w 44 3
     let df := fld w 43 4
     let off : Prop := ¬ (df ≤ 12 ∧ s.cfg.formats.getLsbD df = true)
     let wide : Prop := 32768 / fmtBits df < vVL w
     let mxFmt : Prop := df ∉ [3, 4, 5, 6, 7, 8] ∨ off
     let mxExt : Prop := wide ∨ 1024 < vVL w ∨ vVL w % 32 ≠ 0
     let masked : Prop := vME w = true
     FormARefused (.vcmp c w) s c w 0x18 44 (8 ≤ vVD w ∨ fn = 7) true [0, 1, 12] False (2048 < vVL w) ∧
     FormARefused (.vsel c w) s c w 0x19 47 (¬ masked) true [0, 1, 12] False False ∧
     FormARefused (.mlogic c w) s c w 0x1A 44 (8 ≤ vVD w ∨ masked ∨ fn = 7) false [] False (2048 < vVL w) ∧
     FormARefused (.vslide c w) s c w 0x1B 35 False true [0, 1, 12] False False ∧
     FormARefused (.viota c w) s c w 0x1C 47 False true [12] False False ∧
     FormARefused (.vcompress c w) s c w 0x1D 47 (¬ masked) true [0, 1, 12] False False ∧
     FormARefused (.vsplat c w) s c w 0x1E 47 False true [0, 1, 12] False False ∧
     FormARefused (.vred c w) s c w 0x20 44 (fn = 7) true [0, 1, 12] False False ∧
     FormARefused (.vscan c w) s c w 0x21 42 False true [0, 12] False False ∧
     FormARefused (.vcvt c w) s c w 0x28 26 False true [0, 1, 12] (off ∨ df = 11 ∨ masked ∧ fmtBits df < 8 ∨ fld w 35 8 = 255) wide ∧
     FormARefused (.vcast c w) s c w 0x29 26 (fld w 35 8 ≠ 0) true [0]
       (off ∨ df = 11 ∨ df ≠ (sget Tracker.reset s.trackers (fld w 26 7)).fmt.toNat) wide ∧
     FormARefused (.vmxe c w) s c w 0x2A 43 masked true [0] mxFmt mxExt ∧
     FormARefused (.vmxd c w) s c w 0x2B 43 masked false [] mxFmt mxExt ∧
     FormARefused (.vrand c w) s c w 0x30 25 (fld w 40 5 = 31 ∨ fld w 30 5 = 31) true [0, 12] False False)

/-- 04 R94, R102, R103: the words that select, slide, count, pack, splat and draw write the elements that their rules name, and
nothing else. -/
def Obligations.VectorRearranges : Prop :=
  ∀ (s : State) (c : Ctx) (w : W128), Canon s →
    let x := getCtx s c
    let f := vFMT w
    let a (j : Nat) : Nat := getE x f (vVA w) j
    let k := (rdS x (vSB w)).toNat % 2 ^ fmtBits f
    let b (j : Nat) : Nat := if vBS w then k else getE x f (vVB w) j
    let fills (i : Instr) (new : Nat → Option Nat) : Prop :=
      Answers i s fun t => Fills s t (ran s c .vector w [] .done []) c f (vVD w) new
    let sel (j : Nat) : Bool := (getM x (vMS w)).getLsbD j
    let shift : Int := (BitVec.ofNat 12 (w.toNat / 2 ^ 35)).toInt
    let from' (j : Nat) : Nat := ((j : Int) - shift).toNat
    let picked : List Nat := (List.range (vVL w)).filter sel
    let draw (j : Nat) : W32 :=
      let r (n : Nat) : W32 := rdS x n
      let o := philox 10 (r (fld w 25 5) + BitVec.ofNat 32 j, r (fld w 35 5), r (fld w 30 5), r (fld w 30 5 + 1))
        (r (fld w 40 5)) (r (fld w 40 5 + 1))
      [o.1, o.2.1, o.2.2.1, o.2.2.2].getD (fld w 45 2) 0
    (FormA s c w 0x19 47 [0, 1, 12] → vME w = true →
      fills (.vsel c w) (fun j => if j < vVL w then some (if sel j then b j else a j) else none)) ∧
    (FormA s c w 0x1B 35 [0, 1, 12] →
      fills (.vslide c w) (fun j =>
        if Active x w j then some (if 0 ≤ (j : Int) - shift ∧ from' j < vVL w then a (from' j) else k) else none)) ∧
    (FormA s c w 0x1C 47 [12] →
      fills (.viota c w) (fun j => if Active x w j then some ((rdS x (vSB w)).toNat + j) else none)) ∧
    (FormA s c w 0x1D 47 [0, 1, 12] → vME w = true →
      fills (.vcompress c w) (fun j => if j < vVL w then some (if j < picked.length then a (picked.getD j 0) else k) else none)) ∧
    (FormA s c w 0x1E 47 [0, 1, 12] → fills (.vsplat c w) (fun j => if Active x w j then some k else none)) ∧
    (FormA s c w 0x30 25 [0, 12] → fld w 40 5 ≠ 31 → fld w 30 5 ≠ 31 →
      fills (.vrand c w) (fun j => if Active x w j then
        some (if f = 12 then (draw j).toNat else (rne32 (.fin false ((draw j).toNat / 256) (-24))).toNat) else none)) ∧
    (FormA s c w 0x30 25 [0, 12] → fld w 40 5 = 31 ∨ fld w 30 5 = 31 → Refuses (.vrand c w) s c .vector fOpcode)

/-- 04 R94: VCMP writes bit i of mask VD for each active element, MLOGIC bits 0 to VL - 1 of a mask; every other mask and bit keeps
its contents, and nothing else changes. -/
def Obligations.MaskWords : Prop :=
  ∀ (s : State) (c : Ctx) (w : W128), Canon s →
    let x := getCtx s c
    let f := vFMT w
    let a (j : Nat) : Nat := getE x f (vVA w) j
    let b (j : Nat) : Nat := if vBS w then (rdS x (vSB w)).toNat % 2 ^ fmtBits f else getE x f (vVB w) j
    let u (n : Nat) : W32 := if f = 1 then BitVec.ofNat 32 (n * 65536) else BitVec.ofNat 32 n
    let nan (j : Nat) : Prop := f ≠ 12 ∧ (isNan32 (u (a j)) = true ∨ isNan32 (u (b j)) = true)
    let key (n : W32) : Int := if f = 12 then n.toInt else if n &&& 0x7FFFFFFF = 0 then 0 else ordKey n
    let ka (j : Nat) : Int := key (u (a j))
    let kb (j : Nat) : Int := key (u (b j))
    let cond := fld w 44 3
    let holds (j : Nat) : Prop :=
      (nan j ∧ (cond = 1 ∨ cond = 6)) ∨
      (¬ nan j ∧ (cond = 0 ∧ ka j = kb j ∨ cond = 1 ∧ ka j ≠ kb j ∨ cond = 2 ∧ ka j < kb j ∨ cond = 3 ∧ ka j ≤ kb j ∨
        cond = 4 ∧ kb j < ka j ∨ cond = 5 ∧ kb j ≤ ka j))
    let writes (i : Instr) (d : Nat) (written : Nat → Prop) (bit : Nat → Prop) : Prop :=
      Answers i s fun t =>
        t = setCtx (ran s c .vector w [] .done []) c { popped x .vector with masks := (getCtx t c).masks } ∧
        (∀ n : Nat, n ≠ d → getM (getCtx t c) n = getM x n) ∧
        ∀ j : Nat, j < 2048 → (written j → ((getM (getCtx t c) d).getLsbD j = true ↔ bit j)) ∧
          (¬ written j → (getM (getCtx t c) d).getLsbD j = (getM x d).getLsbD j)
    let ma (j : Nat) : Prop := (getM x (vVA w % 8)).getLsbD j = true
    let mb (j : Nat) : Prop := (getM x (vVB w % 8)).getLsbD j = true
    (FormA s c w 0x18 44 [0, 1, 12] → vVD w < 8 → cond ≠ 7 → vVL w ≤ 2048 →
      writes (.vcmp c w) (vVD w) (Active x w) holds) ∧
    (Starts s c .vector w 0x1A → w.toNat % 2 ^ 44 = 0 → vVD w < 8 → vME w = false → cond ≠ 7 → vVL w ≤ 2048 →
      writes (.mlogic c w) (vVD w) (fun j => j < vVL w) (fun j =>
        cond = 0 ∧ ma j ∧ mb j ∨ cond = 1 ∧ (ma j ∨ mb j) ∨ cond = 2 ∧ ¬ (ma j ↔ mb j) ∨ cond = 3 ∧ ma j ∧ ¬ mb j ∨
        cond = 4 ∧ ¬ ma j ∨ cond = 5))

/-- 04 R87, R95-R97: VRED writes the tree's result to element 0 of VD, VSCAN the scan to its active elements; with no active element
VSTATUS.EMPTY is set; VL = 0 writes nothing. Nothing else changes. The tree joins neighbours, level by level, the lower index on the left; an
absent one leaves the other as it is, so that a longer row of absent leaves changes nothing. The scan adds, at distances 1, 2, 4 and so on,
what stands that far below, to every element whose segment has not begun within reach. -/
def Obligations.VectorReductions : Prop :=
  ∀ (s : State) (c : Ctx) (w : W128), Canon s →
    let x := getCtx s c
    let f := vFMT w
    let a (j : Nat) : Nat := getE x f (vVA w) j
    let u (n : Nat) : W32 := if f = 1 then BitVec.ofNat 32 (n * 65536) else BitVec.ofNat 32 n
    let fn := fld w 44 3
    let r0 := ran s c .vector w [] .done []
    let rest (none : Prop) [Decidable none] : State :=
      setCtx r0 c { popped x .vector with vstatus := if none then x.vstatus ||| 1 else x.vstatus }
    let key (n : W32) : Int :=
      if f = 12 then n.toInt else if isNan32 n then (if fn = 2 ∨ fn = 5 then 2 ^ 33 else -(2 ^ 33)) else ordKey n
    let join (l r : Option (W32 × Nat)) : Option (W32 × Nat) :=
      match l, r with
      | none, r => r
      | l, none => l
      | some p, some q =>
        if fn = 0 then some (if f = 12 then p.1 + q.1 else fadd p.1 q.1, p.2)
        else if fn = 1 then some (if f = 12 then p.1 * q.1 else fmul p.1 q.1, p.2)
        else if fn = 4 then some (p.1 + q.1, p.2)
        else if fn = 2 ∨ fn = 5 then (if key p.1 < key q.1 then some q else some p)
        else if key q.1 < key p.1 then some q else some p
    let leaf (i : Nat) : Option (W32 × Nat) := if Active x w i then some (if fn = 4 then 1 else u (a i), i) else none
    let tree : Option (W32 × Nat) := Nat.repeat (fun (t : Nat → Option (W32 × Nat)) i => join (t (2 * i)) (t (2 * i + 1))) 11 leaf 0
    let result : W32 :=
      match tree with
      | some (v, i) =>
        if fn = 5 ∨ fn = 6 then BitVec.ofNat 32 i else if fn ≠ 4 ∧ f ≠ 12 ∧ isNan32 v = true then 0x7FC00000 else v
      | none =>
        if fn = 1 then (if f = 12 then 1 else 0x3F800000) else if fn = 2 then (if f = 12 then 0x80000000 else 0xFF800000)
        else if fn = 3 then (if f = 12 then 0x7FFFFFFF else 0x7F800000) else if fn = 5 ∨ fn = 6 then 0xFFFF else 0
    let head (i : Nat) : Bool := i = 0 || (w.getLsbD 45 && (getM x (fld w 42 3)).getLsbD i)
    let sum (l r : Option W32) : Option W32 :=
      match l, r with
      | none, r => r
      | l, none => l
      | some p, some q => some (if f = 12 then p + q else fadd p q)
    let round (d : Nat) (v : Nat → Option W32 × Bool) (i : Nat) : Option W32 × Bool :=
      if i < d ∨ (v i).2 = true then v i else (sum (v (i - d)).1 (v i).1, (v (i - d)).2)
    let v : Nat → Option W32 × Bool := (Nat.repeat (fun (p : Nat × (Nat → Option W32 × Bool)) => (2 * p.1, round p.1 p.2)) 10
      (1, fun i => (if Active x w i then some (BitVec.ofNat 32 (a i)) else none, head i))).2
    let value (i : Nat) : Nat :=
      match (if w.getLsbD 46 = false then (v i).1 else if head i then none else (v (i - 1)).1) with
      | some y => if f = 0 ∧ isNan32 y = true then 0x7FC00000 else y.toNat
      | none => 0
    (FormA s c w 0x20 44 [0, 1, 12] → fn ≠ 7 →
      (vVL w = 0 → exec (.vred c w) s = .next r0) ∧
      (vVL w ≠ 0 → Answers (.vred c w) s fun t => Fills s t (rest (∀ i : Nat, i < vVL w → ¬ Active x w i)) c 12 (vVD w)
        (fun j => if j = 0 then some result.toNat else none))) ∧
    (FormA s c w 0x21 42 [0, 12] →
      (vVL w = 0 → exec (.vscan c w) s = .next r0) ∧
      (vVL w ≠ 0 → Answers (.vscan c w) s fun t => Fills s t (rest (∀ i : Nat, i < vVL w → ¬ Active x w i)) c f (vVD w)
        (fun j => if Active x w j then some (value j) else none)))

/-- 04 R98-R100, R107, 02 R42, R44, R49, R51: conversions write their codes packed in the view of DFMT, VCAST the dequantisation
scale and VMXE the block scales to VC; VSTATUS collects what they met, and CAST_NAN and NONFINITE_BLOCK are reported once; while an earlier
report of the engine waits to be taken or its acknowledge is still high, a word that would report stalls (14 R306; that the whole word does is
the model's reading, log 94). A word that
observes or casts through a tracker meets no unordered use of it. Where VC is VD the scales are written last (the model's choice, log 73);
a source format without a row in R39 follows FP32's (log 71), and the bits of VD beyond the written elements stay (log 72). A masked VCAST to
a format narrower than 8 bits runs, where a masked VCVT is refused (log 12), and the scale bytes that VCAST, VMXE and VMXD write or read are
not held to FORMATS (log 67): the model's choices. -/
def Obligations.VectorConversions : Prop :=
  ∀ (s : State) (c : Ctx) (w : W128), Canon s →
    let x := getCtx s c
    let f := vFMT w
    let df := fld w 43 4
    let tid := fld w 26 7
    let r0 := ran s c .vector w [] .done []
    let after (foot : List Foot) : State := ran s c .vector w [] .done foot
    let alone (foot : List Foot) : Prop := Alone s c .vector foot
    let val (j : Nat) : Machine.Num := decodeElem f (getE x f (vVA w) j)
    let act := (List.range (vVL w)).filter (fun j => Active x w j)
    let on (d : Nat) : Prop := d ≤ 12 ∧ s.cfg.formats.getLsbD d = true
    let bits (nan nonfin sat : Bool) : W32 :=
      (if nan then 2 else 0) ||| (if nonfin then 4 else 0) ||| (if sat then 8 else 0)
    let rest (foot : List Foot) (obs cast nan nonfin sat : Bool) : State :=
      { setCtx (after foot) c { popped x .vector with vstatus := x.vstatus ||| bits nan nonfin sat } with
          trackers := if obs then sput Tracker.reset s.trackers tid (observeAll (sget Tracker.reset s.trackers tid) (act.map val))
                      else s.trackers,
          stepTrk := s.stepTrk ++ (if vVL w = 0 then [] else (if obs then [tid] else []) ++ (if cast then [tid] else [])),
          flt := { s.flt with reports := s.flt.reports ++ (if nan then [{ code := fCastNan, rep := 1, ctx := some c }] else []) ++
            (if nonfin then [{ code := fNonfinite, rep := 1, ctx := some c }] else []) } }
    let conv (k : Int) (j : Nat) : Cvt := cvt df (w.getLsbD 34) (scaleN (val j) k)
    let casts (cast : Bool) (k : Int) (m : State) : Prop :=
      Fills s m (rest (castFoot x c w cast) (w.getLsbD 33) cast (act.any (fun j => (conv k j).nan)) false (act.any (fun j => (conv k j).sat))) c df (vVD w)
        (fun j => if Active x w j then some (conv k j).code else none)
    let castOk : Prop := on df ∧ df ≠ 11 ∧ vVL w ≤ viewCap df
    let mxOk : Prop := df ∈ [3, 4, 5, 6, 7, 8] ∧ on df ∧ vME w = false ∧ vVL w ≤ viewCap df ∧ vVL w ≤ 1024 ∧ vVL w % 32 = 0
    let trk := sget Tracker.reset s.trackers tid
    let block (b : Nat) := mxEncode df ((List.range 32).map (fun i => val (32 * b + i)))
    let clamped (b : Nat) : Bool := (List.range 32).any (fun i =>
      (cvt df true (scaleN (val (32 * b + i)) (127 - ((block b).1 : Int) - mxUnit df))).sat)
    let answers (i : Instr) (reports : Bool) (P : State → Prop) : Prop :=
      (reports = true → reporting s 1 = true → exec i s = .next s) ∧ (reports = false ∨ reporting s 1 = false → Answers i s P)
    let nans (k : Int) : Bool := act.any (fun j => (conv k j).nan)
    (FormA s c w 0x28 26 [0, 1, 12] → castOk → (vME w = true → 8 ≤ fmtBits df) → fld w 35 8 ≠ 255 → alone (castFoot x c w false) →
      answers (.vcvt c w) (nans ((fld w 35 8 : Int) - 127)) (casts false ((fld w 35 8 : Int) - 127))) ∧
    (FormA s c w 0x29 26 [0] → castOk → fld w 35 8 = 0 → df = trk.fmt.toNat → alone (castFoot x c w true) →
      answers (.vcast c w) (nans trk.prop.toInt) fun t => ∃ m : State, casts true trk.prop.toInt m ∧
        Fills m t m c 10 (vVC w) (fun j => if j = 0 ∧ vVL w ≠ 0 then some (127 - trk.prop.toInt).toNat else none)) ∧
    (FormA s c w 0x2A 43 [0] → mxOk →
      let bs := List.range (vVL w / 32)
      answers (.vmxe c w) (bs.any (fun b => (block b).2.2)) fun t => ∃ m : State,
        Fills s m (rest [] false false false (bs.any (fun b => (block b).2.2)) (bs.any (fun b => !(block b).2.2 && clamped b))) c df (vVD w)
          (fun j => if j < vVL w then some ((block (j / 32)).2.1.getD (j % 32) 0) else none) ∧
        Fills m t m c 10 (vVC w) (fun j => if j < vVL w / 32 then some (block j).1 else none)) ∧
    (Starts s c .vector w 0x2B → w.toNat % 2 ^ 43 = 0 → mxOk →
      Answers (.vmxd c w) s fun t => Fills s t r0 c 0 (vVD w) (fun j =>
        if j < vVL w then some (mxDecode df (getE x 10 (vVB w) (j / 32)) (getE x df (vVA w) j)).toNat else none))

/-- 02 R48, R50, 04 R101, R107: the four tracker words and VSTAT; a tracker write that names another format, or SINIT -128, is
refused with FORMAT_CODE. Nothing else changes. An advance comes before the casts and observations of its step through the same tracker,
so one that they have used waits for a later step (the model's choice, log 75); a VTRK word with a reserved bit set is refused
(log 74), and a disabled format is accepted in FMT (log 68). -/
def Obligations.TrackersAndStatus : Prop :=
  ∀ (s : State) (c : Ctx) (w : W128), Canon s →
    let x := getCtx s c
    let tid := fld w 84 7
    let vr := fld w 79 5
    let k := sget Tracker.reset s.trackers tid
    let r0 := ran s c .vector w [] .done []
    let used (wr : Bool) (use : TrkUse) : Foot := { place := .tracker, wr := wr, acc := false, lo := tid, len := 1, trk := use }
    let read : List Foot := [used false .other, { place := .vreg c, wr := true, acc := false, lo := vr * 4096, len := 72 }]
    let v : W32 := BitVec.ofNat 32 (getE x 12 vr 16)
    let hmax := (List.range 16).foldl (fun m i => max m (sget 0 k.hist i).toNat) 0
    let trk (fn : Nat) : Prop := Starts s c .vector w 0x2C ∧ fld w 91 2 = fn ∧ w.toNat % 2 ^ 79 = 0
    let bad (i : Instr) (fn : Nat) : Prop :=
      Starts s c .vector w 0x2C → fld w 91 2 = fn → w.toNat % 2 ^ 79 ≠ 0 → Refuses i s c .vector fOpcode
    let sets (i : Instr) (use : TrkUse) (new : Tracker) : Prop := Alone s c .vector [used true use] → Answers i s fun t =>
      t = { ran s c .vector w [] .done [used true use] with trackers := t.trackers } ∧
      ∀ n : Nat, sget Tracker.reset t.trackers n = if n = tid then new else sget Tracker.reset s.trackers n
    (trk 0 → Alone s c .vector read → Answers (.vtrkRead c w) s fun t => Fills s t (ran s c .vector w [] .done read) c 12 vr (fun j =>
      if j < 16 then some (sget 0 k.hist j).toNat
      else if j = 16 then some (0#4 ++ k.prop ++ k.sinit ++ k.margin ++ k.fmt ++ k.cur).toNat
      else if j = 17 then some k.nf.toNat else none)) ∧
    (trk 1 → 3 ≤ fld v 4 4 → fld v 4 4 ≤ 7 → fld v 12 8 ≠ 0x80 → sets (.vtrkWrite c w) .other
      { k with fmt := v.extractLsb' 4 4, margin := v.extractLsb' 8 4, sinit := v.extractLsb' 12 8 }) ∧
    (trk 1 → ¬ (3 ≤ fld v 4 4 ∧ fld v 4 4 ≤ 7 ∧ fld v 12 8 ≠ 0x80) → Refuses (.vtrkWrite c w) s c .vector fFormat) ∧
    (trk 2 → sets (.vtrkReset c w) .other { hist := [], cur := 0, fmt := 3, margin := 0, sinit := 0, prop := 0, nf := 0 }) ∧
    (trk 3 → tid ∈ s.stepTrk → exec (.vtrkAdvance c w) s = .next s) ∧
    (trk 3 → tid ∉ s.stepTrk → sets (.vtrkAdvance c w) .advance { k with
      cur := k.cur + 1, hist := sput 0 k.hist (k.cur + 1).toNat 0,
      prop := if hmax = 0 then k.sinit
        else BitVec.ofInt 8 (max (-127) (min 127 (propK k.fmt.toNat (dec32 (BitVec.ofNat 32 hmax)) - (k.margin.toNat : Int)))) }) ∧
    bad (.vtrkRead c w) 0 ∧ bad (.vtrkWrite c w) 1 ∧ bad (.vtrkReset c w) 2 ∧ (tid ∉ s.stepTrk → bad (.vtrkAdvance c w) 3) ∧
    (Starts s c .vector w 0x3F → w.toNat % 2 ^ 87 ≠ 0 → Refuses (.vstat c w) s c .vector fOpcode) ∧
    (Starts s c .vector w 0x3F → w.toNat % 2 ^ 87 = 0 → Answers (.vstat c w) s fun t =>
      Fills s t (setCtx r0 c { popped x .vector with vstatus := if w.getLsbD 87 then 0 else x.vstatus }) c 12 (fld w 88 5)
        (fun j => if j = 0 then some x.vstatus.toNat else none))

/-! ### Words on the scratchpad and the stores -/

/-- 04 R86, R88, R104-R106, 06 R141, R146-R149, R152: in a plain state, VLOAD fills the elements that its mask lets take part, widened where
W = 1, VGATHER the segments that its index register names, zero where the index is null, and VACC accumulator rows, where they exist, each
alone on its places (01 R26). Nothing else changes. The first check that fails refuses each with its fault. In checked mode a VLOAD from a
page that is EMPTY ends with SLOT_UNFILLED; from any other it runs, and a FILLED page of another producer becomes CONSUMED. A VLOAD that
meets an uncorrectable word in the first line it reads ends with SPAD_ECC_UE of the memory tier, and fills nothing. That the engine reports
SLOT_UNFILLED and the memory tier, as reporter 8, SPAD_ECC_UE is the model's reading (log 7); while that reporter has an earlier report that
waits or an acknowledge still high, the word stalls instead (14 R306, log 94). That ACC in VLOAD is not
read is the model's choice (log 76), and so are: the bits of a register around the elements that are filled stay (log 72), a gather of no row
completes whatever IPOS + ROWS, an index element beyond VI reading as zero (log 86), only the words of the bytes wanted are checked (log 88). -/
def Obligations.VectorLoads : Prop :=
  ∀ (s : State) (c : Ctx) (w : W128), Canon s →
    let x := getCtx s c
    let mem (h o f n j : Nat) : Nat := unpackAt f (spadBytes s ((getH s h).base.toNat * 65536 + o) (runBytes f n)) j
    (let h := fld w 79 9
     let f := fld w 67 4
     let vl := fld w 50 12
     let base := (rdS x (fld w 62 5)).toNat + fld w 27 23
     let me := w.getLsbD 74
     let wide := w.getLsbD 25
     let takes (j : Nat) : Prop := j < vl ∧ (me = true → (getM x (fld w 71 3)).getLsbD j = true)
     let view := if wide = false then f else if f ∈ [8, 9, 12] then 12 else 0
     let bytes := runBytes f vl
     let us : List Use := [{ idx := h, gen := fld w 75 4, wr := false, acc := false, runs := [((base : Int), bytes)] }]
     let act := (List.range vl).filter (fun j => me = false ∨ (getM x (fld w 71 3)).getLsbD j = true)
     let foot := useFoot s [{ idx := h, gen := fld w 75 4, wr := false, acc := false,
                              runs := (runsOf act).map (fun e => (((base + runBytes f e.1 : Nat) : Int), runBytes f e.2)) }] ++
       vregRuns c (fld w 88 5) view act
     let checks : List (Prop × Nat) :=
       [(w.toNat % 2 ^ 25 ≠ 0, fOpcode),
        (¬ (f ≤ 12 ∧ s.cfg.formats.getLsbD f = true) ∨ f = 11 ∨ me = true ∧ fmtBits f < 8, fFormat),
        (32768 / fmtBits f < vl ∨ wide = true ∧ 1024 < vl, fExtent)]
     let fills (t rest : State) : Prop := Fills s t rest c view (fld w 88 5)
       (fun j => if takes j then some (
          let code := mem h base f vl j
          if wide = false ∨ fmtBits f = 32 then code
          else if f = 8 ∨ f = 9 then (BitVec.ofInt 32 (BitVec.ofNat (fmtBits f) code).toInt).toNat
          else (rne32 (decodeElem f code)).toNat) else none)
     let done := ran s c .vector w [h] .done foot
     let at' := (getH s h).base.toNat * 65536 + base
     let ends (code rep : Nat) : Prop := exec (.vload c w) s = .next (if reporting s rep then s else { taken s c .vector with
       flt := { s.flt with reports := s.flt.reports ++ [{ code := code, rep := rep, ctx := some c }] } })
     Starts s c .vector w 0x38 →
       RefusedInOrder (.vload c w) s c .vector (checks ++ HandleChecks s us) ∧
       ((∀ e ∈ checks, ¬ e.1) → UsesFit s us → Alone s c .vector foot → Plain s → Answers (.vload c w) s fun t => fills t done) ∧
       ((∀ e ∈ checks, ¬ e.1) → UsesFit s us → Alone s c .vector foot → s.checked = true → s.spadErr = [] → s.stepSpad = [] →
         s.stepPages = [] → (∀ r ∈ s.running, r.id ≠ (headWord s c .vector).id) → me = false → vl ≠ 0 →
         (at' + bytes - 1) / 65536 = at' / 65536 →
         let k := getPage s (at' / 65536)
         (k.st = 0 → ends fUnfilled 1) ∧
         (k.st ≠ 0 → Answers (.vload c w) s fun t =>
           fills t { done with pages := t.pages, stepPages := t.stepPages, stepSpad := t.stepSpad } ∧
           ∀ q : Nat, getPage t q =
             if q = at' / 65536 ∧ k.st = 1 ∧ k.prod.toNat ≠ 2 + ctxNum c then { st := 2, prod := k.prod } else getPage s q)) ∧
       ((∀ e ∈ checks, ¬ e.1) → UsesFit s us → s.checked = false → (∀ r ∈ s.running, r.id ≠ (headWord s c .vector).id) → me = false →
         let first := (List.range (min bytes (256 - at' % 256))).map (fun i => (at' + i) / 8)
         (∃ q ∈ first, eccOf s q = .double) → (∀ q ∈ first, eccOf s q ≠ .single) → ends fSpadUe 8)) ∧
    (let h := fld w 74 9
     let f := fld w 66 4
     let rows := fld w 50 11
     let n := fld w 39 11
     let ipos := (rdS x (fld w 61 5)).toNat
     let ix (j : Nat) : W32 := if ipos + j < 1024 then BitVec.ofNat 32 (getE x 12 (fld w 83 5) (ipos + j)) else 0
     let at' (j : Nat) : Int := (rdS x (fld w 11 5)).toNat + (ix j).toInt * (fld w 16 23 : Int)
     let checks : List (Prop × Nat) :=
       [(w.toNat % 2 ^ 10 ≠ 0, fOpcode), (s.cfg.formats.getLsbD f = false ∨ f ∉ [0, 1, 12], fFormat),
        (rows ≠ 0 ∧ n ≠ 0 ∧ (32768 / fmtBits f < rows * n ∨ 1024 < ipos + rows), fExtent)]
     let us : List Use := [{ idx := h, gen := fld w 70 4, wr := false, acc := false,
                             runs := (List.range rows).filterMap (fun j =>
                               if ix j = 0xFFFFFFFF then none else some (at' j, if rows = 0 ∨ n = 0 then 0 else runBytes f n)) }]
     let foot := useFoot s us ++ [vregFoot c (fld w 88 5) (runBytes f (rows * n))]
     Starts s c .vector w 0x3A → RefusedInOrder (.vgather c w) s c .vector (checks ++ HandleChecks s us) ∧
     ((∀ e ∈ checks, ¬ e.1) → UsesFit s us → Alone s c .vector foot → Plain s →
     Answers (.vgather c w) s fun t => Fills s t (ran s c .vector w [h] .done foot) c f (fld w 88 5) (fun k =>
       if k < rows * n then
         some (if ix (k / n) = 0xFFFFFFFF then 0 else mem h (at' (k / n)).toNat f n (k % n))
       else none))) ∧
    (let rows := fld w 72 4
     let base := fld w 76 12
     let foot : List Foot :=
       [{ place := .acc, wr := false, acc := false, lo := base, len := rows }, vregFoot c (fld w 88 5) (rows * 512)]
     Starts s c .vector w 0x3C → w.toNat % 2 ^ 72 = 0 → rows ≤ 8 → base + rows ≤ 4096 → Alone s c .vector foot → Plain s →
     Answers (.vacc c w) s fun t => Fills s t (ran s c .vector w [] .done foot) c 0 (fld w 88 5) (fun k =>
       if k < 128 * rows then some (sget 0 s.acc ((base + k / 128) * 128 + k % 128)).toNat else none)) ∧
    (Starts s c .vector w 0x3C → RefusedInOrder (.vacc c w) s c .vector
      [(w.toNat % 2 ^ 72 ≠ 0, fOpcode), (8 < fld w 72 4 ∨ 4096 < fld w 76 12 + fld w 72 4, fExtent)])

/-- 04 R86, R88, R104, R105, 06 R133, R141, R146-R149: in a plain state, VSTORE stores or accumulates the elements that its mask lets take
part, VSCATTER the segments of its rows in ascending order, null rows left out, each alone on its places (01 R26), and accumulating where
no other producer has (01 R29). Every other byte and everything else is unchanged. The first check that fails refuses each with its fault.
In checked mode a VSTORE to an EMPTY page leaves it FILLED by this producer, to a page that this producer has FILLED or to an OPEN one
leaves the page's state; to any other it ends with SLOT_UNDRAINED, or MULTI_PRODUCER where it accumulates behind another producer, and
stores nothing; that the engine reports both is the model's reading (log 7), and while an earlier report of it waits, or its acknowledge is
still high, the word stalls instead (14 R306, log 94). That W in VSTORE is not read and that masked elements from 2,048 upward are not selected are the model's choices (log
76), and so is that a scatter of no row completes whatever IPOS + ROWS, an index element beyond VI reading as zero (log 86). -/
def Obligations.VectorStores : Prop :=
  ∀ (s : State) (c : Ctx) (w : W128), Canon s →
    let x := getCtx s c
    let stores (i : Instr) (op h f : Nat) (acc : Bool) (checks : List (Prop × Nat)) (us acts : List Use)
        (runs : List (Nat × List Byte)) : Prop :=
      Starts s c .vector w op → RefusedInOrder i s c .vector (checks ++ HandleChecks s us) ∧
      ((∀ e ∈ checks, ¬ e.1) → UsesFit s us → Alone s c .vector (useFoot s acts) → Plain s → (acc = true → Sole s c .vector runs) →
      Answers i s fun t => Stores s t (ran s c .vector w [h] .done (useFoot s acts)) (if acc then accumRuns (f = 12) runs else storeRuns runs))
    let addr (h o : Nat) : Nat := (getH s h).base.toNat * 65536 + o
    (let h := fld w 79 9
     let f := fld w 67 4
     let vl := fld w 50 12
     let base := (rdS x (fld w 62 5)).toNat + fld w 27 23
     let me := w.getLsbD 74
     let acc := w.getLsbD 26
     let e (j : Nat) : Nat := getE x f (fld w 88 5) j
     let act := (List.range vl).filter (fun j => me = false ∨ (getM x (fld w 71 3)).getLsbD j = true)
     let checks : List (Prop × Nat) :=
       [(w.toNat % 2 ^ 25 ≠ 0, fOpcode),
        (¬ (f ≤ 12 ∧ s.cfg.formats.getLsbD f = true) ∨ f = 11 ∨ acc = true ∧ f ≠ 0 ∧ f ≠ 12 ∨ me = true ∧ fmtBits f < 8, fFormat),
        (32768 / fmtBits f < vl, fExtent)]
     let us : List Use := [{ idx := h, gen := fld w 75 4, wr := true, acc := acc, runs := [((base : Int), runBytes f vl)] }]
     let acts : List Use := [{ idx := h, gen := fld w 75 4, wr := true, acc := acc,
                               runs := (runsOf act).map (fun e => (((base + runBytes f e.1 : Nat) : Int), runBytes f e.2)) }]
     let runs : List (Nat × List Byte) :=
       if me then act.map (fun j => (addr h (base + fmtBits f / 8 * j), pack f [e j])) else [(addr h base, pack f ((List.range vl).map e))]
     stores (.vstore c w) 0x39 h f acc checks us acts runs ∧
     (Starts s c .vector w 0x39 → (∀ e ∈ checks, ¬ e.1) → UsesFit s us → Alone s c .vector (useFoot s acts) → s.checked = true →
       s.st.protSpad = [] → s.spadErr = [] → s.wbPend = [] → s.stepSpad = [] → s.stepPages = [] →
       (∀ r ∈ s.running, r.id ≠ (headWord s c .vector).id) → me = false → vl ≠ 0 →
       (addr h base + runBytes f vl - 1) / 65536 = addr h base / 65536 →
       let k := getPage s (addr h base / 65536)
       let own : Prop := k.prod.toNat = 2 + ctxNum c
       let lets : Prop := k.st = 0 ∨ k.st = 1 ∧ own ∨ k.st = 3
       (lets → (acc = true → k.st = 3 → Sole s c .vector runs) → Answers (.vstore c w) s fun t =>
         Stores s t { ran s c .vector w [h] .done (useFoot s acts) with pages := t.pages, stepPages := t.stepPages }
           (if acc then accumRuns (f = 12) runs else storeRuns runs) ∧
         ∀ q : Nat, getPage t q = if q = addr h base / 65536 ∧ k.st = 0 then { st := 1, prod := BitVec.ofNat 4 (2 + ctxNum c) }
           else getPage s q) ∧
       (¬ lets → exec (.vstore c w) s = .next (if reporting s 1 then s else { taken s c .vector with
         flt := { s.flt with reports := s.flt.reports ++
           [{ code := if acc = true ∧ k.prod.toNat ≠ 2 + ctxNum c then fMulti else fUndrained, rep := 1, ctx := some c }] } })))) ∧
    (let h := fld w 74 9
     let f := fld w 66 4
     let rows := fld w 50 11
     let n := fld w 39 11
     let acc := w.getLsbD 10
     let ipos := (rdS x (fld w 61 5)).toNat
     let ix (j : Nat) : W32 := if ipos + j < 1024 then BitVec.ofNat 32 (getE x 12 (fld w 83 5) (ipos + j)) else 0
     let at' (j : Nat) : Int := (rdS x (fld w 11 5)).toNat + (ix j).toInt * (fld w 16 23 : Int)
     let empty : Prop := rows = 0 ∨ n = 0
     let named := (List.range rows).filter (fun j => ix j ≠ 0xFFFFFFFF)
     let us : List Use := [{ idx := h, gen := fld w 70 4, wr := true, acc := acc,
                             runs := named.map (fun j => (at' j, if empty then 0 else runBytes f n)) }]
     stores (.vscatter c w) 0x3B h f acc
       [(w.toNat % 2 ^ 10 ≠ 0, fOpcode), (s.cfg.formats.getLsbD f = false ∨ f ∉ [0, 1, 12] ∨ acc = true ∧ f = 1, fFormat),
        (¬ empty ∧ (32768 / fmtBits f < rows * n ∨ 1024 < ipos + rows), fExtent)] us us
       (if empty then [] else named.map (fun j =>
         (addr h (at' j).toNat, pack f ((List.range n).map (fun k => getE x f (fld w 88 5) (j * n + k)))))))

/-- 03 R65, R66, R70, 04 R88, 05 R120, R121, 07 R156, 09 R214, 13 R296: a no-operation word of each engine only completes; MSET and
RSET write one operand slot of their context, MZERO accumulator rows; a reserved bit that is set, or rows beyond the store, refuse them. A word of a reserved OP is refused with OPCODE_RESERVED (the
engine meets it under the name of its no-operation, log 11). -/
def Obligations.NoOperationsSlotsAndZero : Prop :=
  ∀ (s : State) (c : Ctx) (w : W128), Canon s →
    let x := getCtx s c
    let nop (i : Instr) (e : Eng) (ops : List Nat) : Prop :=
      (Starts s c e w 0 → exec i s = .next (ran s c e w [] .done [])) ∧
      (∀ op : Nat, Starts s c e w op → op ∉ ops → Refuses i s c e fOpcode)
    nop (.mnop c w) .matrix [0, 1, 2, 3, 4, 6] ∧
    nop (.vnop c w) .vector ([0x00, 0x01, 0x02, 0x03, 0x04, 0x05, 0x06, 0x07, 0x08, 0x09, 0x0A, 0x0B, 0x0C, 0x0D, 0x10, 0x11, 0x12,
      0x13, 0x14, 0x15, 0x18, 0x19, 0x1A, 0x1B, 0x1C, 0x1D, 0x1E, 0x20, 0x21, 0x28, 0x29, 0x2A, 0x2B, 0x2C, 0x30, 0x38, 0x39,
      0x3A, 0x3B, 0x3C, 0x3F]) ∧
    nop (.rnop c w) .row [0x00, 0x01, 0x02, 0x03, 0x04, 0x09, 0x0A, 0x0B, 0x10, 0x11] ∧
    nop (.dnop c w) .dma [0, 1, 2, 3] ∧ nop (.snop c w) .sync [0, 1, 2] ∧ nop (.tnop c w) .starter [0, 1, 2] ∧
    (Starts s c .matrix w 1 → w.toNat % 2 ^ 15 ≠ 0 → Refuses (.mset c w) s c .matrix fOpcode) ∧
    (Starts s c .row w 4 → w.toNat % 2 ^ 26 ≠ 0 → Refuses (.rset c w) s c .row fOpcode) ∧
    (Starts s c .matrix w 4 → RefusedInOrder (.mzero c w) s c .matrix
      [(w.toNat % 2 ^ 68 ≠ 0, fOpcode), (4096 < fld w 68 12 + fld w 80 13, fExtent)]) ∧
    (Starts s c .matrix w 1 → w.toNat % 2 ^ 15 = 0 → Answers (.mset c w) s fun t =>
      t = setCtx (ran s c .matrix w [] .done []) c { popped x .matrix with mslots := (getCtx t c).mslots } ∧
      ∀ n : Nat, (sget 0 (getCtx t c).mslots n).toNat =
        if n = fld w 89 4 then w.toNat % 2 ^ 93 else (sget 0 x.mslots n).toNat) ∧
    (Starts s c .row w 4 → w.toNat % 2 ^ 26 = 0 → Answers (.rset c w) s fun t =>
      t = setCtx (ran s c .row w [] .done []) c { popped x .row with rslots := (getCtx t c).rslots } ∧
      ∀ n : Nat, (sget 0 (getCtx t c).rslots n).toNat =
        if n = fld w 90 3 then w.toNat % 2 ^ 93 else (sget 0 x.rslots n).toNat) ∧
    (let base := fld w 68 12
     let rows := fld w 80 13
     let zeroed (k : Nat) : Prop := base * 128 ≤ k ∧ k < (base + rows) * 128
     let foot : List Foot := [{ place := .acc, wr := true, acc := false, lo := base, len := rows }]
     Starts s c .matrix w 4 → w.toNat % 2 ^ 68 = 0 → base + rows ≤ 4096 → Alone s c .matrix foot → Answers (.mzero c w) s fun t =>
      t = { ran s c .matrix w [] .done foot with acc := t.acc, accErr := t.accErr, stepAcc := t.stepAcc } ∧
      ∀ k : Nat, (zeroed k → sget 0 t.acc k = 0 ∧ sget .good t.accErr k = .good) ∧
        (¬ zeroed k → sget 0 t.acc k = sget 0 s.acc k ∧ sget .good t.accErr k = sget .good s.accErr k))

/-- 03 R69, R66, R67, 02 R49, 06 R141: in a plain state, MDRAIN casts accumulator rows into its destination buffer, row by row or, with T =
1, column by column, and its tracker observes the entries where OBS is 1, alone on its places (01 R26), and accumulating where no other
producer has (01 R29). Nothing else changes. A TSCALE of 0xFF refuses it only where it is applied. The first check that fails refuses it
with its fault, and nothing else changes; that a drain of no row or column is still held to the extents of its fields is the model's choice
(log 28). -/
def Obligations.AccumulatorDrains : Prop :=
  ∀ (s : State) (c : Ctx) (w : W128), Canon s →
    let rows := fld w 80 13
    let base := fld w 68 12
    let cols := fld w 60 8
    let d := mslot s c (fld w 56 4)
    let tid := fld w 47 7
    let accum := w.getLsbD 55
    let fp8 : Prop := d.fmt = 3 ∨ d.fmt = 4
    let v (i j : Nat) : W32 := sget 0 s.acc ((base + i) * 128 + j)
    let code (i j : Nat) : Nat :=
      if fp8 then (cvt d.fmt d.sat (scaleN (dec32 (v i j)) ((d.tscale : Int) - 127))).code
      else if d.fmt = 0 then (if isNan32 (v i j) then 0x7FC00000 else (v i j).toNat)
      else (cvt d.fmt false (dec32 (v i j))).code
    let bytes := fmtBits d.fmt / 8
    let at' (o : Nat) : Nat := (getH s d.hidx).base.toNat * 65536 + d.off + o
    let empty : Prop := rows = 0 ∨ cols = 0
    let runs : List (Nat × List Byte) :=
      if empty then []
      else if d.t then (List.range cols).flatMap (fun j =>
        (List.range rows).map (fun i => (at' (j * d.stride + i * bytes), toLE bytes (code i j))))
      else (List.range rows).map (fun i => (at' (i * d.stride), pack d.fmt ((List.range cols).map (code i))))
    let checks : List (Prop × Nat) :=
      [(w.toNat % 2 ^ 47 ≠ 0, fOpcode),
       (¬ (d.fmt ≤ 4 ∧ s.cfg.formats.getLsbD d.fmt = true) ∨ accum = true ∧ d.fmt ≠ 0 ∨ ¬ empty ∧ fp8 ∧ d.tscale = 255, fFormat),
       (4096 < base + rows ∨ 128 < cols, fExtent)]
    let us : List Use :=
      [{ idx := d.hidx, gen := d.hgen, wr := true, acc := accum,
                 runs := if empty then [((d.off : Int), 0)]
                   else if d.t then (List.range cols).map (fun j => (((d.off + j * d.stride : Nat) : Int), bytes * rows))
                   else (List.range rows).map (fun i => (((d.off + i * d.stride : Nat) : Int), bytes * cols)) }]
    let foot : List Foot := useFoot s us ++ (if empty then []
      else { place := .acc, wr := false, acc := false, lo := base, len := rows } ::
        (if w.getLsbD 54 then [{ place := .tracker, wr := true, acc := false, lo := tid, len := 1, trk := .through }] else []))
    Starts s c .matrix w 3 → RefusedInOrder (.mdrain c w) s c .matrix (checks ++ HandleChecks s us) ∧
    ((∀ e ∈ checks, ¬ e.1) → UsesFit s us → Alone s c .matrix foot → Plain s → (accum = true → Sole s c .matrix runs) →
    Answers (.mdrain c w) s fun t =>
      Stores s t { ran s c .matrix w [d.hidx] .done foot with trackers := t.trackers, stepTrk := t.stepTrk }
        (if accum then accumRuns false runs else storeRuns runs) ∧
      ∀ n : Nat, sget Tracker.reset t.trackers n =
        if w.getLsbD 54 = true ∧ n = tid ∧ ¬ empty then
          observeAll (sget Tracker.reset s.trackers n)
            ((List.range rows).flatMap (fun i => (List.range cols).map (fun j => dec32 (v i j))))
        else sget Tracker.reset s.trackers n)

/-! ### Matrix products and rows -/

/-- 03 R55-R60, R62, R67, R68, R72, R77, 02 R41: in a plain state on a core that is not ganged, each output element of MMA and MMA6 is
the running sum of R57 over its operands as their slots lay them out: three fused products per index for FP32, one for 16-bit
formats, one exact scaled sum per group of 32 for the others. With DST = 0 it is left at its accumulator entry, with DST = 1 it is
cast into the destination buffer, whose folded pieces leave nothing in memory but that and change no accumulator row outside the halves that
they use. Masked rows and all else stay. The first check that fails refuses a product with its fault. A product whose waves need a Rise not
yet granted starts and stalls (R81). In a gang (R73-R76) a member of the bottom row holds, or with DST = 1 drains, the results of its share of N,
computed over its share of K from its own operands, the activations that the west link brings to a column other than 0, and, below a second
row, the partial sums from the north; a member of the upper row sends its partial sums south. A member that refuses its word, or whose word
disagrees with that of member (0, 0) in OP, M, N, K, DST, ACCUM, MX, MASK or a format (MMA6: OP, ACCUM or a format), or beside which another
refuses, takes its fault, or GANG_MISMATCH, and its word does not count as started. A member answers on ST 0 where it is ready, 1 where it
refuses or disagrees, else 2, waits while one is not ready, and starts with START (16 R360). The model's choices: how link transfers are keyed
and what the worst of ST is (log 14), an A whose rows run along k is read whole under a mask (log 91), an empty product is held to the
accumulator's extent (log 28), MX = 1 with a format that is no MX element format is FORMAT_CODE (log 66), and so is a TSCALE of 0xFF where
every row is masked out (log 70). Where an earlier report of the engine waits, a refusal stalls (log 94). A core of shape 1 x 1 is at (0, 0)
(10 R232). -/
def Obligations.MatrixProducts : Prop :=
  ∀ (s : State) (c : Ctx) (w : W128) (g : GangIn), Canon s →
    let one (i : Instr) (op : Nat) (resv : Bool) (p : Mma) (hs : List Nat) : Prop :=
      let a := p.a
      let b := p.b
      let row (l : Slot) (f n r : Nat) : List Byte :=
        spadBytes s ((getH s l.hidx).base.toNat * 65536 + (l.off + r * l.stride)) (runBytes f n)
      let ca (m k : Nat) : Nat := if a.t then unpackAt a.fmt (row a a.fmt p.m k) m else unpackAt a.fmt (row a a.fmt p.k m) k
      let cb (n k : Nat) : Nat := if b.t then unpackAt b.fmt (row b b.fmt p.k n) k else unpackAt b.fmt (row b b.fmt p.n k) n
      let num (l : Slot) (f : Nat) (code : Nat) : Machine.Num :=
        if p.mx then scaleN (decodeElem l.fmt code) (if l.fmt = 8 then -6 else 0) else decodeElem f code
      let scale (l : Slot) (r gr : Nat) : Nat := ((row l 10 (p.k / 32) r).getD gr 0).toNat
      let exp (l sl : Slot) (r gr : Nat) : Int :=
        (if fmtBits l.fmt ≤ 8 then (l.tscale : Int) - 127 else 0) + (if p.mx then (scale sl r gr : Int) - 127 else 0)
      let bad (m n gr : Nat) : Prop := p.mx = true ∧ (scale p.sa m gr = 255 ∨ scale p.sb n gr = 255)
      let group (m n gr : Nat) : W32 :=
        if bad m n gr then 0x7FC00000
        else rne32 (scaleN (((List.range (min 32 (p.k - 32 * gr))).map (fun i => 32 * gr + i)).foldl
          (fun v k => addN v (mulN (num a a.fmt (ca m k)) (num b b.fmt (cb n k)))) (.fin false 0 0))
          (exp a p.sa m gr + exp b p.sb n gr))
      let bf (v : Nat) : Machine.Num := decodeElem 1 v
      let three (v : W32) (x y : Nat × Nat) : W32 :=
        fmaN (fmaN (fmaN v (bf x.1) (bf y.1)) (bf x.1) (bf y.2)) (bf x.2) (bf y.1)
      let elem (m n : Nat) (init : W32) : W32 :=
        if fmtBits a.fmt ≤ 8 then (List.range ((p.k + 31) / 32)).foldl (fun v gr => fadd v (group m n gr)) init
        else (List.range p.k).foldl (fun v k =>
          if a.fmt = 0 then three v (splitFp32 (BitVec.ofNat 32 (ca m k))) (splitFp32 (BitVec.ofNat 32 (cb n k)))
          else fmaN v (decodeElem a.fmt (ca m k)) (decodeElem b.fmt (cb n k))) init
      let mrow := spadBytes s ((getH s p.msk.hidx).base.toNat * 65536 + p.msk.off) (maskBytes p)
      let kept (m : Nat) : Bool :=
        p.mask = 0 || (mrow.getD ((if p.mask = 1 then m else m / 16) / 8) 0).getLsbD ((if p.mask = 1 then m else m / 16) % 8)
      let empty : Prop := p.m = 0 ∨ p.n = 0 ∨ p.k = 0
      let rows := (List.range p.m).filter kept
      let blocks := List.range ((p.n + 127) / 128)
      let cols (jb : Nat) : List Nat := (List.range (min 128 (p.n - 128 * jb))).map (fun j => 128 * jb + j)
      let key (m n : Nat) : Nat := (p.base + n / 128 * p.m + m) * 128 + n % 128
      let foot := useFoot s (mmaActs s c g p) ++ mmaFoot s c g p
      let r0 := ran s c .matrix w hs .done foot
      let d := p.d
      let at' (o : Nat) : Nat := (getH s d.hidx).base.toNat * 65536 + d.off + o
      let code (m n : Nat) : Nat := drainCode d (elem m n 0)
      let bytes := fmtBits d.fmt / 8
      let runs : List (Nat × List Byte) := if empty then [] else blocks.flatMap (fun jb =>
        (chunks 2048 (rows.length + 1) rows).flatMap (fun ms =>
          if d.t then (cols jb).flatMap (fun n => ms.map (fun m => (at' (n * d.stride + m * bytes), toLE bytes (code m n))))
          else ms.map (fun m => (at' (m * d.stride + 128 * jb * bytes), pack d.fmt ((cols jb).map (code m))))))
      let on (f : Nat) : Prop := f ≤ 12 ∧ s.cfg.formats.getLsbD f = true
      let pair : Prop := a.fmt = b.fmt ∧ a.fmt ≤ 2 ∨ a.fmt ∈ [8, 9] ∧ b.fmt ∈ [8, 9] ∨ a.fmt ∈ [3, 4, 5, 6, 7] ∧ b.fmt ∈ [3, 4, 5, 6, 7]
      let checks : List (Prop × Nat) :=
        [(resv = true ∨ p.mask = 3, fOpcode),
         (¬ on a.fmt ∨ ¬ on b.fmt ∨ ¬ pair ∨ op = 6 ∧ ¬ (a.fmt ∈ [1, 2, 3, 4, 8] ∧ b.fmt ∈ [1, 2, 3, 4, 8]) ∨
          p.mx = true ∧ ¬ (a.fmt ∈ [3, 4, 5, 6, 7, 8] ∧ b.fmt ∈ [3, 4, 5, 6, 7, 8] ∧ on 10) ∨
          fmtBits a.fmt ≤ 8 ∧ ¬ empty ∧ (a.tscale = 255 ∨ b.tscale = 255) ∨
          p.dst = true ∧ (¬ on d.fmt ∨ 4 < d.fmt ∨ p.accum = true ∧ d.fmt ≠ 0 ∨ ¬ empty ∧ d.fmt ∈ [3, 4] ∧ d.tscale = 255), fFormat),
         (p.dst = false ∧ 4096 < p.base + p.m * (if op = 6 then 1 else (p.n + 127) / 128) ∨ p.dst = true ∧ p.base % 2048 ≠ 0 ∨
          p.mx = true ∧ (p.k % 32 ≠ 0 ∨ p.sa.t = true ∨ p.sb.t = true) ∨ p.mask ≠ 0 ∧ p.msk.t = true, fExtent)]
      let folds : List (List Nat) := blocks.flatMap (fun _ => chunks 2048 (rows.length + 1) rows)
      Starts s c .matrix w op → s.cfg.shape = 0 → s.cfg.posr = 0 → s.cfg.posc = 0 →
        RefusedInOrder i s c .matrix (checks ++ HandleChecks s (mmaUses s p)) ∧
        ((∀ e ∈ checks, ¬ e.1) → UsesFit s (mmaUses s p) → Plain s →
        (s.pwr.need = true → ¬ empty → Answers i s fun t =>
          t = { ran s c .matrix w hs (.stalled (getCtx s c) []) foot with ilPtr := t.ilPtr }) ∧
        (s.pwr.need = false ∨ empty → Alone s c .matrix foot → p.dst = false → Answers i s fun t =>
          t = { r0 with acc := t.acc, ilPtr := t.ilPtr, mesh := t.mesh, stepAcc := t.stepAcc } ∧
          (∀ m n : Nat, m < p.m → n < p.n → ¬ empty → kept m = true →
            sget 0 t.acc (key m n) = elem m n (if p.accum then sget 0 s.acc (key m n) else 0)) ∧
          (∀ k : Nat, (∀ m n : Nat, m < p.m → n < p.n → ¬ empty → kept m = true → k ≠ key m n) → sget 0 t.acc k = sget 0 s.acc k)) ∧
        (s.pwr.need = false ∨ empty → Alone s c .matrix foot → p.dst = true → (p.accum = true → Sole s c .matrix runs) → Answers i s fun t =>
          Stores s t { r0 with acc := t.acc, ilPtr := t.ilPtr, trackers := t.trackers, mesh := t.mesh, stepAcc := t.stepAcc,
                               stepTrk := t.stepTrk }
            (if p.accum then accumRuns false runs else storeRuns runs) ∧
          (∀ k : Nat, empty ∨ (∀ x i j : Nat, x < folds.length → i < (folds.getD x []).length → j < 128 →
            k ≠ ((p.base / 2048 + x) % 2 * 2048 + i) * 128 + j) → sget 0 t.acc k = sget 0 s.acc k) ∧
          ∀ n : Nat, sget Tracker.reset t.trackers n =
            if p.obs = true ∧ n = p.tid ∧ ¬ empty then observeAll (sget Tracker.reset s.trackers n)
              (blocks.flatMap (fun jb => rows.flatMap (fun m => (cols jb).map (fun j => dec32 (elem m j 0)))))
            else sget Tracker.reset s.trackers n))
    let p := mmaOf s c w
    let q := mma6Of s c w
    let h := ctlHead g.ctl
    let formats (p : Mma) : Prop := ctlFmts g.ctl = (p.a.fmt, p.b.fmt)
    let sameMma : Prop := fld h 116 8 = 2 ∧ fld h 77 16 = p.m ∧ fld h 61 16 = p.n ∧ fld h 45 16 = p.k ∧ h.getLsbD 20 = p.dst ∧
      h.getLsbD 19 = p.accum ∧ h.getLsbD 18 = p.mx ∧ fld h 13 2 = p.mask ∧ formats p
    let sameMma6 : Prop := fld h 116 8 = 6 ∧ h.getLsbD 72 = q.accum ∧ formats q
    let gang (i : Instr) (op : Nat) (resv : Bool) (p : Mma) (same : Prop) [Decidable same] : Prop :=
      let kl := kShare s p
      let nl := nShare s p
      let empty : Prop := p.m = 0 ∨ p.n = 0 ∨ p.k = 0
      let bytesOf (l : Slot) (f n r : Nat) : List Byte :=
        spadBytes s ((getH s l.hidx).base.toNat * 65536 + (l.off + r * l.stride)) (runBytes f n)
      let rows : List Nat :=
        if p.mask = 0 then List.range p.m
        else if gangLead s then (List.range p.m).filter (fun m =>
          let k := if p.mask = 1 then m else m / 16
          ((bytesOf p.msk 10 (maskBytes p) 0).getD (k / 8) 0).getLsbD (k % 8))
        else g.rows
      let a := opndA s g p rows ((if p.a.t then List.range kl else rows).map (bytesOf p.a p.a.fmt (if p.a.t then p.m else kl)))
        (rows.map (bytesOf p.sa 10 (kl / 32)))
      let b := opndB p ((List.range (if p.b.t then nl else kl)).map (bytesOf p.b p.b.fmt (if p.b.t then kl else nl)))
        ((List.range nl).map (bytesOf p.sb 10 (kl / 32)))
      let last := sliceCount s p - 1
      let key (m n : Nat) : Nat := (p.base + n / 128 * p.m + m) * 128 + n % 128
      let value (init : Nat → Nat → W32) (x n : Nat) : W32 :=
        if gangRows s = 2 then sliceSum p a b kl last x n (psumOf g p last (n / 128) x (n % 128)) else elemSum a b p.mx kl 0 x n (init x n)
      let result := value (fun x n => if p.accum then sget 0 s.acc (key (rows.getD x 0) n) else 0)
      let foot := useFoot s (mmaActs s c g p) ++ mmaFoot s c g p
      let none' : Prop := empty ∨ gangBottom s = false
      let blocks := List.range ((nl + 127) / 128)
      let cols (jb : Nat) : List Nat := (List.range (min 128 (nl - 128 * jb))).map (fun j => 128 * jb + j)
      let listed := (List.range rows.length).zip rows
      let folds : List (List (Nat × Nat)) := blocks.flatMap (fun _ => chunks 2048 (rows.length + 1) listed)
      let d := p.d
      let at' (o : Nat) : Nat := (getH s d.hidx).base.toNat * 65536 + d.off + o
      let bytes := fmtBits d.fmt / 8
      let code (x n : Nat) : Nat := drainCode d (value (fun _ _ => 0) x n)
      let runs : List (Nat × List Byte) := if none' then [] else blocks.flatMap (fun jb =>
        (chunks 2048 (rows.length + 1) listed).flatMap (fun ms =>
          if d.t then (cols jb).flatMap (fun n => ms.map (fun e => (at' (n * d.stride + e.2 * bytes), toLE bytes (code e.1 n))))
          else ms.map (fun e => (at' (e.2 * d.stride + 128 * jb * bytes), pack d.fmt ((cols jb).map (code e.1))))))
      let first : Option Nat := match firstFault (mmaChecks s p resv) with
        | some e => some e
        | none => checkUses s (mmaUses s p)
      let ready : Bool := mayStart s c .matrix w && (if gangLead s then chosen s c .matrix else h.getLsbD 115 == decide (c = .c1))
      let differs : Prop := gangLead s = false ∧ ¬ same
      let own : BitVec 2 := if ready = false then 2 else if differs ∨ first.isSome = true then 1 else 0
      let acts : Prop := own ≠ 2 ∧ g.status ≠ 2 ∧ (gangLead s = true ∨ ctlStart g.ctl = true ∨ own = 1 ∨ g.status = 1)
      let passes : Prop := s.cfg.posr = 0 ∧ (s.cfg.posc + 1 < gangCols s ∨ gangRows s = 2)
      let drives (start : Bool) (m : Mesh) : Prop :=
        (¬ passes → m.ctl = 0 ∧ m.st = own) ∧
        (passes → m.st = (if own.toNat < g.down.toNat then g.down else own) ∧ (gangLead s = false → m.ctl = g.ctl) ∧
          (gangLead s = true → own = 2 → m.ctl = s.mesh.ctl) ∧
          (gangLead s = true → own ≠ 2 → ctlHead m.ctl = w ∧ ctlFmts m.ctl = (p.a.fmt, p.b.fmt) ∧ ctlStart m.ctl = start ∧
            m.ctl.getLsbD 137 = s.pwr.gnt))
      let refused (code : Nat) : Prop :=
        if reporting s 0 = true then exec i s = .next s
        else Answers i s fun t => drives false t.mesh ∧
          t = { setCtx s c (popped (getCtx s c) .matrix) with
            mesh := { s.mesh with ctl := t.mesh.ctl, st := t.mesh.st }, tmr := { s.tmr with progress := true },
            flt := { s.flt with reports := s.flt.reports ++ [{ code := code, rep := 0, ctx := some c }] } }
      ganged s = true → live s = true → wOp w = op → stalledWord s c .matrix w = none →
        (¬ acts → Answers i s fun t => drives false t.mesh ∧
          t = { s with mesh := { s.mesh with ctl := t.mesh.ctl, st := t.mesh.st,
                                             unready := if gangLead s = true ∧ c = .c0 ∧ own ≠ 2 ∧ g.status = 2
                                               then some (headWord s c .matrix).id else s.mesh.unready } }) ∧
        (acts → (∀ code : Nat, first = some code → refused code) ∧
          (first = none → g.status = 1 ∨ differs → refused fGang) ∧
          (first = none → g.status ≠ 1 → ¬ differs → Plain s →
          (s.pwr.need = true → ¬ empty → Answers i s fun t => drives true t.mesh ∧
            t = { ran s c .matrix w (useIdx (mmaUses s p)) (.stalled (getCtx s c) []) foot with
                    ilPtr := t.ilPtr, mesh := { s.mesh with ctl := t.mesh.ctl, st := t.mesh.st } }) ∧
          (s.pwr.need = false ∨ empty → g.agree = true → Alone s c .matrix foot → rows.Nodup → (∀ m ∈ rows, m < p.m) →
          (p.dst = false → Answers i s fun t => drives true t.mesh ∧
            t = { ran s c .matrix w (useIdx (mmaUses s p)) .done foot with
                    acc := t.acc, ilPtr := t.ilPtr, mesh := t.mesh, stepAcc := t.stepAcc } ∧
            (¬ none' → ∀ x n : Nat, x < rows.length → n < nl → sget 0 t.acc (key (rows.getD x 0) n) = result x n) ∧
            (∀ k : Nat, (¬ none' → ∀ x n : Nat, x < rows.length → n < nl → k ≠ key (rows.getD x 0) n) →
              sget 0 t.acc k = sget 0 s.acc k) ∧
            (¬ empty → gangBottom s = false → ∀ j x n : Nat, j < sliceCount s p → x < rows.length → n < nl →
              fld (sget 0 t.mesh.gsOut (linkKey j (n / 128) (waveAt p x 0 + n % 128) 0)) (32 * (n % 128)) 32 =
                (sliceSum p a b kl j x n (psumOf g p j (n / 128) x (n % 128))).toNat)) ∧
          (p.dst = true → (p.accum = true → Sole s c .matrix runs) → Answers i s fun t => drives true t.mesh ∧
            Stores s t { ran s c .matrix w (useIdx (mmaUses s p)) .done foot with
                acc := t.acc, ilPtr := t.ilPtr, trackers := t.trackers, mesh := t.mesh, stepAcc := t.stepAcc, stepTrk := t.stepTrk }
              (if p.accum then accumRuns false runs else storeRuns runs) ∧
            (∀ k : Nat, none' ∨ (∀ x i j : Nat, x < folds.length → i < (folds.getD x []).length → j < 128 →
              k ≠ ((p.base / 2048 + x) % 2 * 2048 + i) * 128 + j) → sget 0 t.acc k = sget 0 s.acc k) ∧
            ∀ n : Nat, sget Tracker.reset t.trackers n =
              if p.obs = true ∧ n = p.tid ∧ ¬ none' then observeAll (sget Tracker.reset s.trackers n)
                (blocks.flatMap (fun jb => listed.flatMap (fun e => (cols jb).map (fun j => dec32 (value (fun _ _ => 0) e.1 j)))))
              else sget Tracker.reset s.trackers n))))
    one (.mma c w g) 2 (w.getLsbD 8) p (useIdx (mmaUses s p)) ∧
    one (.mma6 c w g) 6 (decide (w.toNat % 2 ^ 72 ≠ 0)) q (useIdx (mmaUses s q)) ∧
    gang (.mma c w g) 2 (w.getLsbD 8) p sameMma ∧ gang (.mma6 c w g) 6 (decide (w.toNat % 2 ^ 72 ≠ 0)) q sameMma6

/-- 05 R110-R112, R122: a row word that passes its checks starts, its rows are dealt to free units in ascending order, and with no row
or no element it is done at once. RSAVE and RLOAD copy records, 8 bytes each, between the stat store and the buffer. Each is alone on
its places (01 R26). 05 R123, R124, 06 R141: the first check that fails refuses the word with its fault, and nothing else changes. That a
mask slot's code is held to FORMATS where MASK is 1 is the model's choice (log 69), and so is that a word of no row or no element is still held
to the stat store's extent (log 28); that a handle's state is judged before the extent of its buffer follows 06 R141 (log 108). -/
def Obligations.RowWordsStart : Prop :=
  ∀ (s : State) (c : Ctx) (w : W128), Canon s →
    let rows := fld w 77 16
    let id := (headWord s c .row).id
    let base := fld w 45 15
    let l := rslot s c (fld w 42 3)
    let addr := (getH s l.hidx).base.toNat * 65536 + l.off
    let use (wr : Bool) : List Use :=
      [{ idx := l.hidx, gen := l.hgen, wr := wr, acc := false, runs := [((l.off : Int), 8 * rows)] }]
    let on (k : Nat) : Prop := s.cfg.formats.getLsbD (rslot s c k).fmt = true
    let held (k : Nat) : Prop := (rslot s c k).fmt ≤ 2 ∧ on k
    let mask := fld w 31 2
    let msk := fld w 33 3
    let word (i : Instr) (op : Nat) (back soft : Bool) : Prop :=
      let checks : List (Prop × Nat) :=
        [(w.toNat % 2 ^ 14 ≠ 0 ∨ mask = 3 ∨ mask ≠ 0 ∧ soft = false, fOpcode),
         (¬ held (fld w 42 3) ∨ ¬ held (fld w 39 3) ∨ back = true ∧ ¬ held (fld w 36 3) ∨
          mask ≠ 0 ∧ ¬ ((rslot s c msk).fmt ≤ 12 ∧ on msk) ∨ mask = 2 ∧ (rslot s c msk).fmt ≠ 12, fFormat),
         (65536 < fld w 60 17, fExtent),
         ((back = true ∨ w.getLsbD 14 = true) ∧ 32768 < base + rows, fExtent)]
      (Starts s c .row w op → RefusedInOrder i s c .row (checks ++ HandleChecks s (rowUses s c w op))) ∧
      (Starts s c .row w op → (∀ e ∈ checks, ¬ e.1) → UsesFit s (rowUses s c w op) → Plain s →
      (∀ q ∈ s.running, q.eng ≠ .row ∧ q.id ≠ id) → s.units = [] →
      let hs := useIdx (rowUses s c w op)
      let foot := useFoot s (rowUses s c w op) ++ rowFoot w op
      Alone s c .row foot →
      if rows = 0 ∨ fld w 60 17 = 0 then exec i s = .next (ran s c .row w hs .done foot)
      else
        let k := min rows (if s.features.rowu then 2 else 1)
        exec i s = .next { ran s c .row w hs (.rows k rows rows false) foot with
          units := (List.range k).map (fun u => { unit := u, id := id, row := u }) })
    let copy (i : Instr) (op : Nat) (us : List Use) : Prop :=
      Starts s c .row w op → RefusedInOrder i s c .row
        ([(w.toNat % 2 ^ 42 ≠ 0 ∨ fld w 60 17 ≠ 0, fOpcode), (32768 < base + rows, fExtent)] ++ HandleChecks s us)
    let stat (wr : Bool) : List Foot :=
      useFoot s (use (!wr)) ++ [{ place := .stat, wr := wr, acc := false, lo := base, len := rows }]
    word (.lnf c w) 0x01 false false ∧ word (.rmsf c w) 0x02 false false ∧ word (.smf c w) 0x03 false true ∧
    word (.lnb c w) 0x09 true false ∧ word (.rmsb c w) 0x0A true false ∧ word (.smb c w) 0x0B true true ∧
    copy (.rsave c w) 0x10 (use true) ∧ copy (.rload c w) 0x11 (use false) ∧
    (Starts s c .row w 0x10 → w.toNat % 2 ^ 42 = 0 → fld w 60 17 = 0 → base + rows ≤ 32768 → UsesFit s (use true) → Plain s →
      Alone s c .row (stat false) →
      Answers (.rsave c w) s fun t => Stores s t (ran s c .row w [l.hidx] .done (stat false)) (storeRuns
        [(addr, (List.range rows).flatMap (fun k => toLE 8 (sget 0 s.stat (base + k)).toNat))])) ∧
    (Starts s c .row w 0x11 → w.toNat % 2 ^ 42 = 0 → fld w 60 17 = 0 → base + rows ≤ 32768 → UsesFit s (use false) → Plain s →
      Alone s c .row (stat true) →
      Answers (.rload c w) s fun t => t = { ran s c .row w [l.hidx] .done (stat true) with stat := t.stat } ∧
        ∀ k : Nat, sget 0 t.stat k =
          if base ≤ k ∧ k < base + rows then BitVec.ofNat 64 (leAt (spadBytes s addr (8 * rows)) (8 * (k - base)) 8)
          else sget 0 s.stat k)

/-- 05 R110, R112-R115: when a unit finishes row `j` of a word, in a plain state, the row's outputs are those of its operation over its
operands, mask and record; a forward row with STW = 1 leaves its record, and what the row has written counts as written by its word (06 R146).
A word's last row completes it. Row sums are those of R112. The word has met no other on its places (01 R26). -/
def Obligations.RowsComplete : Prop :=
  ∀ (s : State) (u : Nat) (ur : UnitRow) (r : Running) (next total left : Nat), Canon s → Plain s → live s = true →
    unitRow s u = some ur → findRun s ur.id = some r → r.eng = .row → r.job = .rows next total left false →
    r.clash = false → (∀ q ∈ s.running, q.id = r.id ↔ q = r) →
    let w := r.word
    let c := r.ctx
    let j := ur.row
    let op := wOp w
    let n := fld w 60 17
    let sl (k : Nat) : RSlot := rslot s c k
    let x := sl (fld w 42 3)
    let y := sl (fld w 39 3)
    let gs := sl (fld w 36 3)
    let k := sl (fld w 33 3)
    let bytesOf (l : RSlot) (m : Nat) : List Byte :=
      spadBytes s ((getH s l.hidx).base.toNat * 65536 + (l.off + j * l.stride)) m
    let vals (l : RSlot) : List W32 := (List.range n).map (fun i => rne32 (decodeElem l.fmt (unpackAt l.fmt (bytesOf l (runBytes l.fmt n)) i)))
    let xs := vals x
    let g := vals gs
    let prm : W32 := BitVec.ofNat 32 (fld w 15 16 * 65536)
    let rec' := sget 0 s.stat (fld w 45 15 + j)
    let st0 : W32 := rec'.extractLsb' 0 32
    let st1 : W32 := rec'.extractLsb' 32 32
    let here (i : Nat) : Bool :=
      if fld w 31 2 = 0 then true
      else if fld w 31 2 = 1 then ((bytesOf k ((n + 7) / 8)).getD (i / 8) 0).getLsbD (i % 8)
      else decide ((i : Int) < (BitVec.ofNat 32 (leAt (bytesOf k 4) 0 4)).toInt)
    let mean (v : W32) : W32 := divRne32 (dec32 v) n
    let out (a b : W32) : Nat := (cvt y.fmt false (mulN (dec32 a) (dec32 b))).code
    let each (f : Nat → W32) : List W32 := (List.range n).map f
    let at' (vs : List W32) (i : Nat) : W32 := vs.getD i 0
    let codes (f : Nat → Nat) : List Nat := (List.range n).map f
    let some' (f : Nat → W32) : List (Option W32) := (List.range n).map (fun i => if here i then some (f i) else none)
    let mu := mean (rowsumAll xs)
    let dev := each (fun i => fsub (at' xs i) mu)
    let lnR := fn32 .rsqrt (fadd (mean (rowsumAll (each (fun i => fmul (at' dev i) (at' dev i))))) prm)
    let rmR := fn32 .rsqrt (fadd (mean (rowsumAll (each (fun i => fmul (at' xs i) (at' xs i))))) prm)
    let z (i : Nat) : W32 := fmul (at' xs i) prm
    let top := rowMax (some' z)
    let none' : Prop := top = none ∨ top = some 0xFF800000
    let m := top.getD 0
    let e (i : Nat) : W32 := fn32 .exp2 (fmul (fsub (z i) m) 0x3FB8AA3B)
    let rs := fn32 .rcp (rowsum (some' e))
    let lnH (i : Nat) : W32 := fmul (fsub (at' xs i) st0) st1
    let rmH (i : Nat) : W32 := fmul (at' xs i) st1
    let lnA := mean (rowsumAll g)
    let lnB := mean (rowsumAll (each (fun i => fmul (at' g i) (lnH i))))
    let rmB := mean (rowsumAll (each (fun i => fmul (at' g i) (rmH i))))
    let sy (i : Nat) : W32 := fmul (fn32 .exp2 (fmul (fsub (z i) st0) 0x3FB8AA3B)) st1
    let dd := rowsum (some' (fun i => fmul (at' g i) (sy i)))
    let places : List Foot := { place := .spad, wr := true, acc := false, lo := (getH s y.hidx).base.toNat * 65536 + (y.off + j * y.stride),
                                len := runBytes y.fmt n } ::
      (if op ≤ 3 ∧ w.getLsbD 14 = true then [{ place := .stat, wr := true, acc := false, lo := fld w 45 15 + j, len := 1 }] else [])
    let rest : State :=
      let p : State := { s with units := s.units.filter (fun q => q.unit ≠ u), tmr := { s.tmr with progress := true },
                                running := s.running.map (fun q => if q.id = r.id then { q with wrote := q.wrote ++ places } else q) }
      dealRows (setJob p r.id (if left ≤ 1 then .done else .rows next total (left - 1) false))
    let done (ys : List Nat) (stats : Option (W32 × W32)) : Prop :=
      Answers (.rowDone u) s fun t =>
        Stores s t { rest with stat := t.stat } (storeRuns
          [((getH s y.hidx).base.toNat * 65536 + (y.off + j * y.stride), pack y.fmt ys)]) ∧
        ∀ q : Nat, sget 0 t.stat q = match (if q = fld w 45 15 + j ∧ w.getLsbD 14 = true then stats else none) with
          | some v => v.2 ++ v.1
          | none => sget 0 s.stat q
    (op = 0x01 → n ≠ 0 → done (codes (fun i => out (at' dev i) lnR)) (some (mu, lnR))) ∧
    (op = 0x02 → n ≠ 0 → done (codes (fun i => out (at' xs i) rmR)) (some (0, rmR))) ∧
    (op = 0x03 → n ≠ 0 → (none' → done (codes (fun _ => 0)) (some (0xFF800000, 0))) ∧
      (¬ none' → done (codes (fun i => if here i then out (e i) rs else 0)) (some (m, rs)))) ∧
    (op = 0x09 → n ≠ 0 → done (codes (fun i => out st1 (fsub (fsub (at' g i) lnA) (fmul (lnH i) lnB)))) none) ∧
    (op = 0x0A → n ≠ 0 → done (codes (fun i => out st1 (fsub (at' g i) (fmul (rmH i) rmB)))) none) ∧
    (op = 0x0B → n ≠ 0 → (st0 = 0xFF800000 → st1 = 0 → done (codes (fun _ => 0)) none) ∧
      (¬ (st0 = 0xFF800000 ∧ st1 = 0) →
        done (codes (fun i => if here i then out (fmul (sy i) (fsub (at' g i) dd)) prm else 0)) none))

/-! ### DMA channels, fabric and windows -/

/-- 07 R157, R161-R166, R171-R173, R175, 02 R46, R47: in a plain state, a DXFER that passes its checks moves, transposes or converts
its rows within the scratchpad and is done; to or from a stack or window it stands with its requests ready, a RECORD or CHECK with
those of its tag header first; with no row or byte it is done. Its rows meet those of no other word (01 R26), and it accumulates where no
other producer has (01 R29). The first check of R161 that fails refuses it with its fault, and nothing else changes. An accumulating one waits while
an earlier transfer of its queue has still to accumulate into one of its elements (01 R29, R30; log 95). DWOPEN and DWCLOSE open
and close a window, or are refused with WINDOW_STATE. That the source is read whole at the start (log 17), and the cut into requests
(log 18), are the model's choices, and so is that a format which FORMATS disables does not refuse an accumulating one (log 67), and that the
whole word stalls where an earlier report of the engine holds back its NONFINITE_BLOCK (14 R306, log 94). -/
def Obligations.DmaWords : Prop :=
  ∀ (s : State) (c : Ctx) (w : W128), Canon s →
    let ws := descWords s (fld w 81 10)
    let d := descOf ws
    let us := xferUses d
    let hs := useIdx us
    let foot := useFoot s us
    let slen := if d.conv = 1 then 128 * d.rlen else if d.conv = 2 then 66 * d.rlen else d.rlen
    let trows := if d.tr then d.rlen / 2 ^ d.esize else d.rows
    let tlen := if d.tr then d.rows * 2 ^ d.esize else if d.conv = 1 then 66 * d.rlen else if d.conv = 2 then 128 * d.rlen else d.rlen
    let src (i o n : Nat) : List Byte := spadBytes s ((getH s d.sh).base.toNat * 65536 + (d.saddr + i * d.sstride + o)) n
    let dst (o : Nat) : Nat := (getH s d.th).base.toNat * 65536 + o
    let blk (i k : Nat) : List Byte × Bool :=
      if d.conv = 1 then bsEncode ((bytesW32 (src i (128 * k) 128) 32).map dec32) else (w32Bytes (bsDecode (src i (66 * k) 66)), false)
    let rows : List (Nat × List Byte) :=
      if d.tr then (List.range (d.rlen / 2 ^ d.esize)).map (fun j => (d.taddr + j * d.tstride,
        (List.range d.rows).flatMap (fun i => src i (j * 2 ^ d.esize) (2 ^ d.esize))))
      else (List.range d.rows).map (fun i => (d.taddr + i * d.tstride,
        if d.conv = 0 then src i 0 d.rlen else (List.range d.rlen).flatMap (fun k => (blk i k).1)))
    let bad : Prop := d.conv = 1 ∧ ∃ i k : Nat, i < d.rows ∧ k < d.rlen ∧ (blk i k).2 = true
    let noted (p : State) (b : Prop) [Decidable b] : State :=
      { p with flt := { s.flt with reports := s.flt.reports ++ (if b then [{ code := fNonfinite, rep := 3, ctx := some c }] else []) } }
    let job (p : XPhase) (todo : List XReq) : Job := .xfer
      { ch := fld w 91 2, desc := ws, src := getH s d.sh, dst := getH s d.th, phase := p, todo := todo, left := todo.length,
        epoch := s.epoch, hdr := [], buf := [], got := [], nonfin := false }
    let data : List XReq := (List.range d.rows).flatMap (fun i => readReqs (d.saddr + i * d.sstride) (i * slen) slen)
    let fresh : Prop := ∀ q ∈ s.running, q.id ≠ (headWord s c .dma).id
    let h := fld w 84 9
    let named : Prop := (getH s h).valid = true ∧ (getH s h).gen.toNat = fld w 80 4
    let window (i : Instr) (op : Nat) (isOpen : Bool) (new : Handle) (tab : List RxEntry) : Prop :=
      Starts s c .dma w op → w.toNat % 2 ^ 80 = 0 →
        (¬ named → Refuses i s c .dma fStale) ∧
        (named → (getH s h).win = false ∨ (getH s h).wopen ≠ isOpen → Refuses i s c .dma fWindow) ∧
        (named → (getH s h).win = true → (getH s h).wopen = isOpen → Answers i s fun t =>
          t = { ran s c .dma w [] .done [] with handles := t.handles, rxTab := tab } ∧
          ∀ k : Nat, getH t k = if k = h then new else getH s k)
    let checks : List (Prop × Nat) :=
      [(w.toNat % 2 ^ 81 ≠ 0, fOpcode),
       (1 < d.sk ∨ 2 < d.tk ∨ d.conv = 3 ∨ d.esize = 3 ∨ d.fp = 3 ∨ d.sk = 1 ∧ d.tk ≠ 0 ∨ d.tr = true ∧ (d.tk ≠ 0 ∨ d.conv ≠ 0) ∨
        d.acc = true ∧ (d.tk ≠ 0 ∨ d.conv = 1) ∨ (d.vmode = 1 ∨ d.vmode = 2) ∧ d.sk ≠ 1 ∨ d.vmode = 3 ∧ d.tk ≠ 1, fOpcode),
       (d.fp = 1 ∧ s.features.fports = false, fFeature),
       (d.acc = true ∧ (d.conv = 2 ∧ d.amode = true ∨ d.tr = true ∧ d.esize ≠ 2) ∨ d.conv ≠ 0 ∧ s.cfg.formats.getLsbD 11 = false, fFormat),
       (d.acc = true ∧ (d.taddr % 4 ≠ 0 ∨ d.tstride % 4 ≠ 0 ∨ tlen % 4 ≠ 0) ∨ d.conv = 1 ∧ (d.saddr % 4 ≠ 0 ∨ d.sstride % 4 ≠ 0) ∨
        d.conv = 2 ∧ (d.taddr % 4 ≠ 0 ∨ d.tstride % 4 ≠ 0), fMisaligned)]
    let srcAt (i : Nat) : Nat := (getH s d.sh).base.toNat * 65536 + (d.saddr + i * d.sstride)
    let meets : Prop := ∃ i j : Nat, i < d.rows ∧ j < trows ∧ srcAt i < dst (d.taddr + j * d.tstride) + tlen ∧
      dst (d.taddr + j * d.tstride) < srcAt i + slen
    let extent : Prop := d.rows ≠ 0 ∧ d.rlen ≠ 0 ∧
      (d.tr = true ∧ d.rlen % 2 ^ d.esize ≠ 0 ∨ 1 < trows ∧ d.tstride < tlen ∨ d.sk = 0 ∧ d.tk = 0 ∧ meets ∨
       d.sk = 1 ∧ 2 ^ 48 < d.saddr + (d.rows - 1) * d.sstride + slen ∨
       d.tk = 1 ∧ 2 ^ 48 < d.taddr + (trows - 1) * d.tstride + (if trows = 0 then 0 else tlen) ∨
       (d.vmode = 1 ∨ d.vmode = 2) ∧ d.saddr < 16 ∨ d.vmode = 3 ∧ d.taddr < 16)
    let all : List (Prop × Nat) := checks ++ HandleChecks s us ++ [(extent, fExtent)]
    let rowsTo : List (Nat × List Byte) := rows.map (fun r => (dst r.1, r.2))
    let behind : Prop := ∃ r ∈ s.running, r.eng = .dma ∧ r.ctx = c ∧ ((∃ x : Xfer, r.job = .xfer x) ∨ ∃ x ds, r.job = .stalled x ds) ∧
      ∃ a ∈ r.foot, ∃ b ∈ foot, a.acc = true ∧ b.acc = true ∧ a.meets b = true
    (Starts s c .dma w 1 → behind → exec (.dxfer c w) s = .next s) ∧
    (Starts s c .dma w 1 → ¬ behind → RefusedInOrder (.dxfer c w) s c .dma all) ∧
    (Starts s c .dma w 1 → ¬ behind → (∀ e ∈ all, ¬ e.1) → Plain s → Alone s c .dma foot → (d.acc = true → Sole s c .dma rowsTo) →
      (d.rows = 0 ∨ d.rlen = 0 → exec (.dxfer c w) s = .next (ran s c .dma w hs .done [])) ∧
      (d.rows ≠ 0 → d.rlen ≠ 0 → d.sk = 0 → bad → reporting s 3 = true → exec (.dxfer c w) s = .next s) ∧
      (d.rows ≠ 0 → d.rlen ≠ 0 → d.sk = 0 → d.tk = 0 → ¬ bad ∨ reporting s 3 = false →
        ∃ b : Bool, (b = true ↔ bad) ∧ Answers (.dxfer c w) s fun t =>
        Stores s t (noted (ran s c .dma w hs .done foot) b)
          (if d.acc then accumRuns d.amode rowsTo else storeRuns rowsTo)) ∧
      (d.rows ≠ 0 → d.rlen ≠ 0 → d.sk = 1 → fresh → exec (.dxfer c w) s = .next (ran s c .dma w hs
        (if d.vmode = 1 ∨ d.vmode = 2 then job .header (readReqs (d.saddr - 16) 0 16) else job .data data) foot)) ∧
      (d.rows ≠ 0 → d.rlen ≠ 0 → d.sk = 0 → d.tk ≠ 0 → fresh → ¬ bad ∨ reporting s 3 = false →
        ∃ b : Bool, (b = true ↔ bad) ∧ exec (.dxfer c w) s = .next (noted (ran s c .dma w hs (job .data
          (rows.flatMap (fun r => if d.tk = 1 then writeReqs r.1 r.2 else winReqs r.1 r.2))) foot) b))) ∧
    window (.dwopen c w) 2 false { getH s h with wopen := true } s.rxTab ∧
    window (.dwclose c w) 3 true { getH s h with wopen := false, wgen := (getH s h).wgen + 1 }
      (s.rxTab.filter (fun e => e.whidx ≠ h))

/-- 07 R166, R167, 16 R353, R355, R356: where its port may send and the index is free, a channel's or the Starter engine's first
request leaves as one flit of its kind with its fields in place, and is outstanding under its index. Requests of a run never cross a
64-byte boundary and cover it whole. That a channel's first request leaves first (log 18), and the port of the Starter engine's
requests (log 27), are the model's choices. A window write's figure that its 27-bit field cannot hold stands as a free value (log 2). -/
def Obligations.FabricRequests : Prop :=
  ∀ (s : State) (ch : BitVec 2) (idx : BitVec 9),
    let put (u : State) (p : Port) (f : TxFlit) : State :=
      match p with
      | .fa => { u with faTx := u.faTx ++ [f], txA := true, perfStep := sput 0 u.perfStep 14 (sget 0 u.perfStep 14 + 1) }
      | .fb => { u with fbTx := u.fbTx ++ [f], txB := true, perfStep := sput 0 u.perfStep 16 (sget 0 u.perfStep 16 + 1) }
    let hdr (kind : BitVec 4) (len : Nat) (rest : BitVec 106) : BitVec 128 := kind ++ ch ++ idx ++ BitVec.ofNat 7 len ++ rest
    let stk (kind : BitVec 4) (fid : BitVec 24) (a len : Nat) (bs : List Byte) : TxFlit :=
      { route := fid ++ s.cfg.fid, hdr := hdr kind len (BitVec.ofNat 48 a ++ 0#58), data := bs }
    let asked (own : Owner) (kind a len aux : Nat) : State :=
      { s with outst := s.outst ++ [{ ch := ch.toNat, idx := idx.toNat, owner := own, kind := kind, addr := a, len := len, aux := aux }] }
    let free (p : Port) : Prop := txOpen s p = true ∧ idxFree s ch.toNat idx.toNat = true
    let port (fp : Nat) : Port :=
      if s.features.fports = false ∨ fp = 0 then .fa else if fp = 1 then .fb else if ch.toNat % 2 = 0 then .fa else .fb
    let taken' (u : State) (r : Running) (x : Xfer) : State :=
      { u with running := u.running.map (fun q => if q.id = r.id then { q with job := .xfer { x with todo := x.todo.tail } } else q) }
    let winRest (d : Desc) (x : Xfer) (fo fc fl : BitVec 27) : BitVec 106 :=
      BitVec.ofNat 9 d.wh ++ BitVec.ofNat 4 d.whgen ++ BitVec.ofNat 4 d.wgen ++ x.epoch ++ fo ++ fc ++ fl ++ 0#4
    (∀ a n : Nat, (∀ p ∈ pieces64 a n, 0 < p.2 ∧ (a + p.1) / 64 = (a + p.1 + p.2 - 1) / 64) ∧
      ∀ i : Nat, i < n → ∃ p ∈ pieces64 a n, p.1 ≤ i ∧ i < p.1 + p.2) ∧
    (∀ (r : Running) (x : Xfer), xferOn s ch.toNat = some (r, x) →
      let d := descOf x.desc
      let p := port d.fp
      (∀ a pos n : Nat, x.todo.head? = some (.rd a pos n) → n ≤ 64 → free p →
        exec (.stkRdSend ch false idx) s = .next (put (taken' (asked (.word r.id) 1 a n pos) r x) p (stk 1 d.sfid a n []))) ∧
      (∀ (a : Nat) (bs : List Byte), x.todo.head? = some (.wr a bs) → bs.length ≤ 64 → protStack s d.tfid a = false → free p →
        exec (.stkWrSend ch false idx) s = .next (put (taken' (asked (.word r.id) 3 a bs.length 0) r x) p
          (stk 3 d.tfid a bs.length bs))) ∧
      (∀ (o : Nat) (bs : List Byte), x.todo.head? = some (.win o bs) → bs.length ≤ 64 → free p →
        ∃ fo fc fl : BitVec 27,
          (o < 2 ^ 27 → fo.toNat = o) ∧ (d.trows * d.tlen < 2 ^ 27 → fc.toNat = d.trows * d.tlen) ∧
          (d.taddr + spanOf d.tstride d.trows d.tlen - 1 < 2 ^ 27 → fl.toNat = d.taddr + spanOf d.tstride d.trows d.tlen - 1) ∧
          exec (.winWrSend ch idx) s = .next (put { taken' (asked (.word r.id) 5 o bs.length 0) r x with freeCtr := s.freeCtr + 3 } p
            { route := d.tfid ++ s.cfg.fid, hdr := hdr 5 bs.length (winRest d x fo fc fl), data := bs }))) ∧
    (∀ q : StReq, q.len ≤ 64 → free (port 2) →
      let left (u : State) : State := { u with st := { s.st with todo := s.st.todo.erase q } }
      (s.st.todo.find? (fun r => r.wr = false) = some q → exec (.stkRdSend ch true idx) s =
        .next (put (left (asked .starter 1 q.addr q.len q.aux)) (port 2) (stk 1 q.sfid q.addr q.len q.data))) ∧
      (s.st.todo.find? (fun r => r.wr = true) = some q → exec (.stkWrSend ch true idx) s =
        .next (put (left (asked .starter 3 q.addr q.len q.aux)) (port 2) (stk 3 q.sfid q.addr q.len q.data))))

/-- 07 R168-R173, R392, 16 R355, R356: an answer to an outstanding request of a transfer closes it; data lands where the shape of the
transfer says, a failed status or a NACK ends the transfer with its fault and abandons its other requests; the last answer of a phase
begins the next or completes the word. Data for a channel whose port a window write has taken in the step is taken in a later one (R177). Where
an earlier report of the engine waits, an answer that would end the transfer is taken later (14 R306; log 94). An answer to no outstanding request changes nothing but the index that it frees. That an arriving
STK_RD or STK_WR is discarded too (log 16), and when CHECK compares its tag (log 19), are the model's choices. A port takes one flit a
step (01 R16). -/
def Obligations.FabricAnswers : Prop :=
  ∀ (s : State) (p : Port) (route : BitVec 48) (hdr : BitVec 128) (data : BitVec 512), rxOpen s p = true →
    let kind := fld hdr 124 4
    let status := fld hdr 56 2
    let ctr := if p = .fa then 15 else 17
    let seen : State := { s with perfStep := sput 0 s.perfStep ctr (sget 0 s.perfStep ctr + 1),
                                 rxA := s.rxA || decide (p = .fa), rxB := s.rxB || decide (p = .fb) }
    let asks (k : Nat) (o : Outst) : Prop := s.outst.find? (fun r => r.ch = fld hdr 122 2 && r.idx = fld hdr 113 9 && r.kind = k) = some o
    (∀ (o : Outst) (id : Nat) (r : Running) (x : Xfer), o.owner = .word id → xferOf s id = some (r, x) →
      let d := descOf x.desc
      let closed : State := { seen with outst := s.outst.erase o }
      let cell : Nat × Nat → Nat := fun e => x.dst.base.toNat * 65536 +
        (if d.tr then d.taddr + e.2 / 2 ^ d.esize * d.tstride + e.1 * 2 ^ d.esize + e.2 % 2 ^ d.esize else d.taddr + e.1 * d.tstride + e.2)
      let col := o.aux % d.slen
      let row := o.aux / d.slen
      let places : List Foot :=
        (if d.tr then (List.range o.len).map (fun e => (cell (row, col + e), 1)) else [(cell (row, col), o.len)]).map
          (fun e => { place := .spad, wr := true, acc := false, lo := e.1, len := e.2 })
      let went : State := { closed with
        tmr := { s.tmr with progress := true },
        running := s.running.map (fun q => if q.id = r.id then { q with wrote := q.wrote ++ places } else q) }
      let mine (q : Outst) : Bool := q.owner = .word r.id
      let ended (code : Nat) : State := if reporting s 3 then s else { closed with
        outst := closed.outst.filter (fun q => !mine q),
        retired := s.retired ++ (closed.outst.filter mine).map (fun q => (q.ch, q.idx, q.kind)),
        running := s.running.filter (fun q => q.id ≠ r.id),
        flt := { s.flt with reports := s.flt.reports ++ [{ code := code, rep := 3, ctx := some r.ctx }] } }
      let bs := payload data o.len
      (asks 1 o → kind = 2 → status ≠ 0 → exec (.stkRdRsp p route hdr data) s = .next (ended fStackError)) ∧
      (asks 1 o → kind = 2 → status = 0 → x.phase = .header → exec (.stkRdRsp p route hdr data) s =
        .next (settle s (answered closed r d { x with hdr := sputs 0 x.hdr o.aux bs }))) ∧
      (asks 1 o → kind = 2 → status = 0 → x.phase = .data → d.conv = 0 → d.acc = false → o.len ≠ 0 → flitOn s x.ch = true →
        exec (.stkRdRsp p route hdr data) s = .next s) ∧
      (asks 1 o → kind = 2 → status = 0 → x.phase = .data → d.conv = 0 → d.acc = false → o.len ≠ 0 → flitOn s x.ch = false →
        r.clash = false → Canon s → Plain s →
        Answers (.stkRdRsp p route hdr data) s fun t => Stores s t (answered went r d x)
          (storeRuns (((List.range o.len).zip bs).map (fun e => (cell (row, col + e.1), [e.2]))))) ∧
      (asks 3 o → kind = 4 → status ≠ 0 → exec (.stkWrAck p route hdr data) s = .next (ended fStackError)) ∧
      (asks 3 o → kind = 4 → status = 0 → exec (.stkWrAck p route hdr data) s = .next (answered closed r d x)) ∧
      (asks 5 o → kind = 6 → status = 0 → exec (.winAck p route hdr data) s = .next (answered closed r d x)) ∧
      (asks 5 o → kind = 6 → status = 1 → exec (.winAck p route hdr data) s = .next (ended fDropped)) ∧
      (asks 5 o → kind = 6 → 2 ≤ status → exec (.winAck p route hdr data) s = .next (ended fRefused)) ∧
      (asks (fld hdr 102 4) o → kind = 7 → exec (.nack p route hdr data) s = .next (ended fLinkUnc))) ∧
    (let req := if kind = 2 then 1 else if kind = 4 then 3 else if kind = 6 then 5 else fld hdr 102 4
     (kind = 2 ∨ kind = 4 ∨ kind = 6 ∨ kind = 7 → (∀ o : Outst, ¬ asks req o) → exec (.fabricFlitDiscard p route hdr data) s =
       .next { seen with retired := s.retired.filter (fun r => r ≠ (fld hdr 122 2, fld hdr 113 9, req)) }) ∧
     (kind = 0 ∨ kind = 1 ∨ kind = 3 ∨ 8 ≤ kind → exec (.fabricFlitDiscard p route hdr data) s = .next seen)) ∧
    ∀ (r : Running) (x : Xfer) (d : Desc),
      let job (j : Job) : State := { s with running := s.running.map (fun q => if q.id = r.id then { q with job := j } else q) }
      let stage (q : XPhase) (todo : List XReq) : State :=
        job (.xfer { x with phase := q, todo := todo, left := todo.length })
      let tag := hdrTag x.hdr
      let h := getH s d.vh
      let same : Prop := h.vvalid = true ∧ h.vstep = tag.1 ∧ h.vsgen = tag.2
      (1 < x.left → answered s r d x = job (.xfer { x with left := x.left - 1 })) ∧
      (x.left = 1 → x.phase = .header → (d.vmode = 2 → same) → answered s r d x = stage .data (dataReads d)) ∧
      (x.left = 1 → x.phase = .header → d.vmode = 2 → ¬ same → answered s r d x = endXfer s r fGather) ∧
      (x.left = 1 → x.phase = .data → d.vmode = 3 → answered s r d x = stage .stamp (writeReqs (d.taddr - 16)
        (toLE 6 d.vstep.toNat ++ [BitVec.ofNat 8 d.vsgen.toNat] ++ List.replicate 9 0))) ∧
      (x.left = 1 → x.phase = .data → d.vmode = 1 → answered s r d x =
        { job .done with handles := sput Handle.zero s.handles d.vh { h with vstep := tag.1, vsgen := tag.2, vvalid := true } }) ∧
      (x.left = 1 → x.phase = .data → d.vmode = 0 ∨ d.vmode = 2 → answered s r d x = job .done) ∧
      (x.left = 1 → x.phase = .stamp → answered s r d x = job .done)

/-- 07 R176, 12 R271, R272, 13 R288, 16 R355, R356: an arriving window write takes the first outcome that applies, with its fault and
acknowledgement; one that passes writes its bytes, in a plain state, where no running word meets them (01 R26), and is, at the boundary of its
step, counted in its entry of the incoming-transfer table and acknowledged, unless a later access of the step has failed its write (06 R148);
a port that has taken a flit in the step takes no other (01 R16), and a stream port that its channel has used in the step takes none (R177); an
acknowledgement leaves on the port that its write came in on. Where an earlier report of the port waits, a write that would be refused is taken
later (14 R306; log 94). -/
def Obligations.WindowWrites : Prop :=
  ∀ (s : State) (p : Port) (route : BitVec 48) (hdr : BitVec 128) (data : BitVec 512),
    let i : Instr := .winWrReceive p route hdr data
    let h := getH s (fld hdr 97 9)
    let len := fld hdr 106 7
    let off := fld hdr 58 27
    let extent := h.npages.toNat * 65536
    let next := (s.epoch.toNat + 1) % 16
    let epoch := fld hdr 85 4
    let ctr := if p = .fa then 15 else 17
    let place : List Foot := [{ place := .spad, wr := true, acc := false, lo := h.base.toNat * 65536 + off, len := len }]
    let rep := if p = .fa then 10 else 11
    let ackHdr (status : BitVec 2) : BitVec 128 :=
      6#4 ++ BitVec.ofNat 11 (fld hdr 113 11) ++ 0#7 ++ BitVec.ofNat 9 (fld hdr 97 9) ++ 0#12 ++ BitVec.ofNat 27 off ++ status ++ 0#56
    let ack (status : BitVec 2) : WinAck :=
      { port := p, flit := { route := BitVec.ofNat 24 route.toNat ++ s.cfg.fid, hdr := ackHdr status, data := [] } }
    let seen : State := { s with perfStep := sput 0 s.perfStep ctr (sget 0 s.perfStep ctr + 1),
                                 rxA := s.rxA || decide (p = .fa), rxB := s.rxB || decide (p = .fb) }
    let out (code : Nat) (status : BitVec 2) : State := if reporting s rep then s else
      { seen with winAcks := s.winAcks ++ [ack status],
                  flt := { s.flt with reports := s.flt.reports ++ [{ code := code, rep := rep, ctx := none }] } }
    let live' : Prop := h.valid = true ∧ h.gen.toNat = fld hdr 93 4 ∧ h.wgen.toNat = fld hdr 89 4
    let inEpoch : Prop := live' ∧ epoch = s.epoch.toNat
    let open' : Prop := inEpoch ∧ h.wopen = true
    let allowed : Prop := open' ∧ h.win = true ∧ h.wp = false
    let fits : Prop := fld hdr 4 27 < extent ∧ off + len ≤ extent
    let mine (e : RxEntry) : Bool := e.sfid = BitVec.ofNat 24 route.toNat && e.ch = fld hdr 122 2 && e.whidx = fld hdr 97 9
    let counted := (landFlits s).rxTab
    let full : Prop := counted.find? mine = none ∧ 64 ≤ counted.length
    let entry : RxEntry := match s.rxTab.find? mine with
      | some e => { e with cnt := e.cnt + len }
      | none => { sfid := BitVec.ofNat 24 route.toNat, ch := fld hdr 122 2, whidx := fld hdr 97 9, cnt := len, total := fld hdr 31 27 }
    let others := s.rxTab.filter (fun e => !mine e)
    let chan := (if p = .fa then 0 else 2) + fld hdr 122 2 % 2
    let done (n : Nat) (b : Bool) : WinDone :=
      { port := p, flit := { route := route, hdr := hdr, data := data }, sp := 12 + chan, lo := h.base.toNat * 65536 + off, len := n, bad := b }
    ((p = .fa → s.rxA = true) → (p = .fb → s.rxB = true) → exec i s = .next s) ∧
    (channelOn s chan = true → exec i s = .next s) ∧
    (rxOpen s p = true → fld hdr 124 4 = 5 → len ≤ 64 → channelOn s chan = false →
      (¬ live' → exec i s = .next (if reporting s rep then s else let t := out fLate 1
        { t with perfStep := sput 0 t.perfStep 10 (sget 0 t.perfStep 10 + 1) })) ∧
      (live' → epoch ≠ s.epoch.toNat → epoch ≠ next → exec i s = .next (out fStaleEpoch 1)) ∧
      (live' → epoch ≠ s.epoch.toNat → epoch = next → exec i s = .next (out fEarlyEpoch 1)) ∧
      (inEpoch → h.wopen = false → exec i s = .next (out fEarly 1)) ∧
      (open' → h.win = false ∨ h.wp = true → exec i s = .next (out fProtect 2)) ∧
      (allowed → ¬ fits → exec i s = .next (out fExtent 2)) ∧
      (allowed → fits → s.st.protSpad = [] → full → exec i s = .next (out fRxLimit 2)) ∧
      (allowed → fits → ¬ full → Canon s → Plain s → foes s none none place = [] → Answers i s fun t =>
        Stores s t { seen with winDone := s.winDone ++ [done len false], tmr := { s.tmr with progress := true } }
          (storeRuns [(h.base.toNat * 65536 + off, payload data len)]))) ∧
    (∀ (hold : Bool) (n k : Nat) (lines : List (Nat × Nat)) (b : Bool), awake s = true → s.rstDue = false → s.held = [] → s.mgmt = [] →
      s.stepMarks = [] → s.winDone = [done k b] → Answers (.step hold n lines) s fun t =>
        t.winDone = [] ∧ t.winAcks = s.winAcks ++ [ack (if b then 2 else 0)] ∧
        t.rxTab = if b = true ∨ h.wgen.toNat ≠ fld hdr 89 4 then s.rxTab
                  else if entry.total ≤ entry.cnt then others else others ++ [entry]) ∧
    (∀ a : WinAck, s.winAcks.find? (fun a => a.port = p) = some a → txOpen s p = true →
      exec (.winAckSend p) s = .next (let u : State := { s with winAcks := s.winAcks.erase a }
        match p with
        | .fa => { u with faTx := s.faTx ++ [a.flit], txA := true, perfStep := sput 0 s.perfStep 14 (sget 0 s.perfStep 14 + 1) }
        | .fb => { u with fbTx := s.fbTx ++ [a.flit], txB := true, perfStep := sput 0 s.perfStep 16 (sget 0 s.perfStep 16 + 1) }))

/-! ### Sync words and flits, the step sequencer -/

/-- 09 R211, R212, R215, R216, R221, R222: an SRSET's flit waits for SYNC_OUT, or, to the core itself, for the next boundary; an SALL waits
on its range; an arriving flit takes the first outcome of R212: a format fault, a stale message in a state that takes none, an
unreachable flag, a stale generation, or the set or the notice that acts at the boundary. One flit is taken a step (01 R16). That an
SRSET to the core itself may complete at once is the model's choice (log 26). Where an earlier report of the sync engine waits, a flit that
would report another is taken later (14 R306; log 94). -/
def Obligations.SyncWordsAndFlits : Prop :=
  (∀ (s : State) (c : Ctx) (w : W128),
    let own : BitVec 20 := s.cfg.fid.extractLsb' 4 20
    let dst : BitVec 20 := w.extractLsb' 73 20
    let flit : W64 := 1#4 ++ dst ++ own ++ w.extractLsb' 63 10 ++ w.extractLsb' 59 4 ++ 0#6
    let base := fld w 83 10
    let n := fld w 72 11
    (Starts s c .sync w 1 →
      (w.toNat % 2 ^ 59 ≠ 0 ∨ dst = 0xFFFFF → Refuses (.srset c w) s c .sync fOpcode) ∧
      (w.toNat % 2 ^ 59 = 0 → dst ≠ 0xFFFFF → dst = own → exec (.srset c w) s =
        .next { ran s c .sync w [] .done [] with selfFlits := s.selfFlits ++ [flit] }) ∧
      (w.toNat % 2 ^ 59 = 0 → dst ≠ 0xFFFFF → dst ≠ own → exec (.srset c w) s =
        .next { ran s c .sync w [] .srset [] with syncQ := s.syncQ ++ [{ flit := flit, word := some (headWord s c .sync).id }] })) ∧
    (Starts s c .sync w 2 →
      (w.toNat % 2 ^ 71 ≠ 0 → Refuses (.sall c w) s c .sync fOpcode) ∧
      (w.toNat % 2 ^ 71 = 0 → 1024 < base + n → Refuses (.sall c w) s c .sync fExtent) ∧
      (w.toNat % 2 ^ 71 = 0 → base + n ≤ 1024 → n = 0 → exec (.sall c w) s = .next (ran s c .sync w [] .done [])) ∧
      (w.toNat % 2 ^ 71 = 0 → base + n ≤ 1024 → n ≠ 0 → exec (.sall c w) s =
        .next (ran s c .sync w [] (.sall base n (w.getLsbD 71) none) [])))) ∧
  (∀ (s : State) (f : W64), s.rxS = true → exec (.setFlit f) s = .next s ∧ exec (.lostFlit f) s = .next s ∧
    exec (.parkFlit f) s = .next s ∧ exec (.unparkFlit f) s = .next s ∧ exec (.stepStartFlit f) s = .next s ∧
    exec (.stepMismatchFlit f) s = .next s) ∧
  ∀ (s : State) (f : W64), live s = true → s.core ≠ .init → s.rxS = false →
    let own : BitVec 20 := s.cfg.fid.extractLsb' 4 20
    let kind := fld f 60 4
    let dst : BitVec 20 := f.extractLsb' 40 20
    let src : BitVec 20 := f.extractLsb' 20 20
    let flag := fld f 10 10
    let open' : Prop := s.core = .ready ∨ s.core = .running ∨ s.core = .held
    let seen : State := { s with rxS := true, perfStep := sput 0 s.perfStep 19 (sget 0 s.perfStep 19 + 1) }
    let noted (u : State) (code : Nat) : State := if reporting s 4 then s else
      { u with flt := { s.flt with reports := s.flt.reports ++ [{ code := code, rep := 4, ctx := none }] } }
    let stale : State := noted { seen with perfStep := sput 0 seen.perfStep 9 (sget 0 seen.perfStep 9 + 1) } fStaleMsg
    let notice (i : Instr) (k : Nat) (m : Mark) : Prop := kind = k →
      (dst ≠ own → dst ≠ 0xFFFFF → exec i s = .next (noted seen fSyncFormat)) ∧
      (dst = own ∨ dst = 0xFFFFF → ¬ open' → exec i s = .next stale) ∧
      (dst = own ∨ dst = 0xFFFFF → open' → exec i s = .next { seen with stepMarks := s.stepMarks ++ [m] })
    (kind = 0 ∨ 7 ≤ kind → exec (.setFlit f) s = .next (noted seen fSyncFormat)) ∧
    (kind = 1 →
      (dst ≠ own ∨ dst = 0xFFFFF → exec (.setFlit f) s = .next (noted seen fSyncFormat)) ∧
      (dst = own → dst ≠ 0xFFFFF →
        (¬ open' → exec (.setFlit f) s = .next stale) ∧
        (open' → (∀ e ∈ s.cfg.flagmap, e.1 ≠ flag) → exec (.setFlit f) s = .next (noted seen fUnreach)) ∧
        (open' → (∃ e ∈ s.cfg.flagmap, e.1 = flag) → (getFlag s flag).gen ≠ f.extractLsb' 6 4 →
          exec (.setFlit f) s = .next stale) ∧
        (open' → (∃ e ∈ s.cfg.flagmap, e.1 = flag) → (getFlag s flag).gen = f.extractLsb' 6 4 →
          exec (.setFlit f) s =
            .next { seen with stepSets := s.stepSets ++ [(flag, none)], tmr := { s.tmr with progress := true } }))) ∧
    notice (.lostFlit f) 2 (.lost src) ∧ notice (.parkFlit f) 3 (.park src) ∧ notice (.unparkFlit f) 4 (.unpark src)

/-- 11 R254 to R261: what an arriving step flit, the leader's own request, an admission and the host's writes do to the step block. A
refused one reports STEP_SKEW, with one STEP_MISMATCH, or STEP_PARAM; nothing else of the core changes. The boundary judges what is due;
a send or an admission acts where it was found due, and STEP_SKEW keeps admissions back until a later STEP_START passes. A set of RQFLAG makes
the sequencer hold a request at its boundary, and the leader's own copy arrives at the boundary after its sending. A write of STEP_PARAM_CTL
that breaks R258 leaves its four fields unspecified (00 R8). That EN does not hold back the request and the admission (log 31), that a
leader's own copy does not end its STEP_SKEW (log 65), that what is due is done before a flit or a write of the block that comes first
(log 82), and that a breach of R258 frees those fields alone (log 89), are the model's choices. Where an earlier report of the reporter waits,
what would report another happens later (14 R306; log 94). -/
def Obligations.StepSequencer : Prop :=
  ∀ s : State, live s = true → s.core ≠ .init → s.rxS = false →
    let b := s.sb
    let next : W64 := b.num + 1
    let own : BitVec 20 := s.cfg.fid.extractLsb' 4 20
    let open' : Prop := s.core = .ready ∨ s.core = .running ∨ s.core = .held
    let seen : State := { s with rxS := true, perfStep := sput 0 s.perfStep 19 (sget 0 s.perfStep 19 + 1) }
    let noted (u : State) (code rep : Nat) : State := if reporting s rep then s else
      { u with flt := { s.flt with reports := s.flt.reports ++ [{ code := code, rep := rep, ctx := none }] } }
    let stale : State := noted { seen with perfStep := sput 0 seen.perfStep 9 (sget 0 seen.perfStep 9 + 1) } fStaleMsg 4
    let toAll (kind : BitVec 4) (n : W64) : SyncOut := { flit := kind ++ 0xFFFFF#20 ++ n.extractLsb' 0 40, word := none }
    let skew (u : State) : State :=
      if reporting s 12 then s
      else { noted u fStepSkew 12 with syncQ := s.syncQ ++ [toAll 6 next], sb := { u.sb with skewed := true } }
    let refused (u : State) : State := noted u fStepParam 12
    let admits : BufSt → BufSt := fun x => if x = .valid then .inForce else .free
    (reporting s 4 = false → reporting s 12 = false → ∀ f : W64, (fld f 60 4 = 5 → exec (.stepStartFlit f) s = exec (.stepStartFlit f) (seqDone s)) ∧
      (fld f 60 4 = 6 → exec (.stepMismatchFlit f) s = exec (.stepMismatchFlit f) (seqDone s))) ∧
    (b.sendDue = false → b.admDue = false → ∀ f : W64,
      let dst : BitVec 20 := f.extractLsb' 40 20
      let mine : Prop := dst = own ∨ dst = 0xFFFFF
      let flit (i : Instr) (kind : Nat) (taken : Prop) : Prop := fld f 60 4 = kind →
        (¬ mine → exec i s = .next (noted seen fSyncFormat 4)) ∧ (mine → ¬ open' → exec i s = .next stale) ∧
        (mine → open' → b.en = false → exec i s = .next seen) ∧ (mine → open' → b.en = true → taken)
      flit (.stepStartFlit f) 5
        ((b.leader = true → exec (.stepStartFlit f) s = .next (skew seen)) ∧
         (b.leader = false → b.pend ≠ none → exec (.stepStartFlit f) s = .next (skew { seen with sb := { b with pend := none } })) ∧
         (b.leader = false → b.pend = none → f.extractLsb' 0 40 ≠ next.extractLsb' 0 40 →
           exec (.stepStartFlit f) s = .next (skew seen)) ∧
         (b.leader = false → b.pend = none → f.extractLsb' 0 40 = next.extractLsb' 0 40 →
           exec (.stepStartFlit f) s = .next { seen with sb := { b with pend := some f, skewed := false } })) ∧
      flit (.stepMismatchFlit f) 6 (exec (.stepMismatchFlit f) s = .next (noted seen fPeerSkew 12))) ∧
    (let sent : State := { s with sb := { b with sentFor := some next, copy := .sent, sendDue := false }, syncQ := s.syncQ ++ [toAll 5 next] }
     let u : State := if b.sendDue then sent else s
     exec .stepStartSend s = .next u ∧
     exec .stepAdmit s = .next (if b.admDue then
       { u with sb := { u.sb with num := next, stA := admits b.stA, stB := admits b.stB, req := false, pend := none, copy := .none,
                                  admDue := false },
                stepSets := s.stepSets ++ [(b.gflag.toNat, none)] } else s)) ∧
    (∀ (hold : Bool) (n : Nat) (lines : List (Nat × Nat)), s.mgmt = [] → s.rstDue = false → Answers (.step hold n lines) s fun t =>
      let d := t.sb
      let u := seqDone s
      let asked : Prop := ∃ e ∈ u.stepSets, e.1 = u.sb.rqflag.toNat
      let valid' : Prop := d.stA = .valid ∨ d.stB = .valid
      d = { u.sb with req := d.req, copy := if u.sb.copy = .sent then .arrived else u.sb.copy, sendDue := d.sendDue, admDue := d.admDue } ∧
      (asked → d.req = true) ∧ (¬ asked → u.selfFlits = [] → d.req = u.sb.req) ∧
      (d.sendDue = true ↔ d.en = true ∧ d.leader = true ∧ d.req = true ∧ valid' ∧ d.sentFor ≠ some (d.num + 1)) ∧
      (d.admDue = true ↔ d.req = true ∧ valid' ∧ d.skewed = false ∧
        ((∃ f : W64, d.pend = some f ∧ f.extractLsb' 0 40 = (d.num + 1).extractLsb' 0 40) ∨
          d.leader = true ∧ d.copy = .arrived ∧ d.sentFor = some (d.num + 1)))) ∧
    (mcOpen s = true → reporting s 12 = false → ∀ (k : Bool) (n : BitVec 4) (v : W32),
      exec (.stepParamWrite k n v) s = exec (.stepParamWrite k n v) (seqDone s) ∧
      (fld v 0 4 = (if k then 2 else 1) → exec (.stepParamValid k v) s = exec (.stepParamValid k v) (seqDone s)) ∧
      (fld v 0 4 = (if k then 8 else 4) → exec (.stepParamWithdraw k v) s = exec (.stepParamWithdraw k v) (seqDone s)) ∧
      exec (.stepNumLoWrite v) s = exec (.stepNumLoWrite v) (seqDone s) ∧
      exec (.stepNumHiWrite v) s = exec (.stepNumHiWrite v) (seqDone s)) ∧
    (mcOpen s = true → b.sendDue = false → b.admDue = false → ∀ (k : Bool) (n : BitVec 4) (v : W32),
      let st := if k then b.stB else b.stA
      let other := if k then b.stA else b.stB
      let words := if k then b.bufB else b.bufA
      let set (c : StepBlk) (x : BufSt) : StepBlk := if k then { c with stB := x } else { c with stA := x }
      let fields : StepBlk := { b with en := v.getLsbD 31, leader := v.getLsbD 30, gflag := v.extractLsb' 20 10,
                                       rqflag := v.extractLsb' 10 10 }
      let named : W64 := sget 0 words 1 ++ sget 0 words 0
      let may : Prop := st = .free ∧ other ≠ .valid ∧ named = next
      let legal : Prop := (s.core = .running ∨ s.core = .held → fields = b) ∧
        ¬ (v.getLsbD 31 = true ∧ v.extractLsb' 20 10 = v.extractLsb' 10 10)
      let loose (i : Instr) (u : State) (c : StepBlk) : Prop := Answers i s fun t =>
        t = { u with freeCtr := s.freeCtr + 1, sb := { c with en := t.sb.en, leader := t.sb.leader, gflag := t.sb.gflag,
                                                               rqflag := t.sb.rqflag } }
      (st = .free → Answers (.stepParamWrite k n v) s fun t =>
        t = { s with sb := { b with bufA := t.sb.bufA, bufB := t.sb.bufB } } ∧
        (if k then t.sb.bufA = b.bufA else t.sb.bufB = b.bufB) ∧
        (swf 0 b.bufA = true → swf 0 b.bufB = true →
          ∀ i : Nat, sget 0 (if k then t.sb.bufB else t.sb.bufA) i = if i = n.toNat then v else sget 0 words i)) ∧
      (st ≠ .free → exec (.stepParamWrite k n v) s = .next (refused s)) ∧
      (fld v 0 4 = (if k then 2 else 1) →
        (legal → may → exec (.stepParamValid k v) s = .next { s with sb := set fields .valid }) ∧
        (legal → ¬ may → exec (.stepParamValid k v) s = .next (refused { s with sb := fields })) ∧
        (¬ legal → may → loose (.stepParamValid k v) s (set b .valid)) ∧
        (¬ legal → ¬ may → reporting s 12 = true → exec (.stepParamValid k v) s = .next s) ∧
        (¬ legal → ¬ may → reporting s 12 = false → loose (.stepParamValid k v) (refused s) b)) ∧
      (legal → fld v 0 4 = 0 → exec (.registerWrite 0x1408 v) s = .next { s with sb := fields }) ∧
      (¬ legal → fld v 0 4 = 0 → loose (.registerWrite 0x1408 v) s b) ∧
      (legal → fld v 0 4 ∉ [0, 1, 2, 4, 8] → exec (.registerWrite 0x1408 v) s = .next (refused { s with sb := fields })) ∧
      (fld v 0 4 = (if k then 8 else 4) →
        (legal → st = .valid → exec (.stepParamWithdraw k v) s = .next { s with sb := set fields .free }) ∧
        (legal → st ≠ .valid → exec (.stepParamWithdraw k v) s = .next (refused { s with sb := fields })) ∧
        (¬ legal → st = .valid → loose (.stepParamWithdraw k v) s (set b .free)) ∧
        (¬ legal → st ≠ .valid → reporting s 12 = true → exec (.stepParamWithdraw k v) s = .next s) ∧
        (¬ legal → st ≠ .valid → reporting s 12 = false → loose (.stepParamWithdraw k v) (refused s) b)) ∧
      (s.core ≠ .running → s.core ≠ .held →
        exec (.stepNumLoWrite v) s = .next { s with sb := { b with stage := v } } ∧
        exec (.stepNumHiWrite v) s = .next { s with sb := { b with num := v ++ b.stage, stage := 0, pend := none } }) ∧
      (s.core = .running ∨ s.core = .held →
        exec (.stepNumLoWrite v) s = .next (refused s) ∧ exec (.stepNumHiWrite v) s = .next (refused s)))

/-! ### The Starter engine -/

/-- 13 R294, R296 to R298, R302: SFOLD continues DACC over a run of its handle, in a plain state where no earlier word still reads or writes
its places (log 13), after the checks of 06 R141; SSEAL latches and clears DACC, and then admits or refuses a replay, waits for a copy under
way, seals the slot of the step just ended or leaves it, or just completes; a replay that it would refuse waits while an earlier report of the engine does (14 R306; log 94). The CRC-64 has the check value of R294. -/
def Obligations.StarterWords : Prop :=
  crc64 [0x31, 0x32, 0x33, 0x34, 0x35, 0x36, 0x37, 0x38, 0x39] = 0x6C40DF5F0B497347 ∧
  ∀ (s : State) (c : Ctx) (w : W128),
    let h := fld w 84 9
    let off := fld w 53 27
    let n := fld w 26 27
    let named : Prop := (getH s h).valid = true ∧ (getH s h).gen.toNat = fld w 80 4
    let fits : Prop := n = 0 ∨ off + n ≤ (getH s h).npages.toNat * 65536
    let t := s.st
    let latched : Starter := { t with digest := t.dacc, dacc := 0 }
    let us : List Use := [{ idx := h, gen := fld w 80 4, wr := false, acc := false, runs := [((off : Int), n)] }]
    let foot : List Foot := useFoot s us ++ daccFoot
    let run (j : Job) (x : Starter) : State := { ran s c .starter w [] j daccFoot with st := x }
    let fresh : Prop := (∀ q ∈ s.running, q.id ≠ (headWord s c .starter).id) ∧ Alone s c .starter daccFoot
    let num := (seqDone s).sb.num
    let same : Prop := t.dacc = t.restore.sdig ∧ num = t.restore.cut + 1
    (Starts s c .starter w 1 →
      (w.toNat % 2 ^ 26 ≠ 0 → Refuses (.sfold c w) s c .starter fOpcode) ∧
      (w.toNat % 2 ^ 26 = 0 → ¬ named → Refuses (.sfold c w) s c .starter fStale) ∧
      (w.toNat % 2 ^ 26 = 0 → named → ¬ fits → Refuses (.sfold c w) s c .starter fExtent) ∧
      (w.toNat % 2 ^ 26 = 0 → named → fits → Plain s → Alone s c .starter foot → exec (.sfold c w) s = .next { ran s c .starter w [h] .done foot with
        st := { t with dacc := crc64From t.dacc (spadBytes s ((getH s h).base.toNat * 65536 + off) n) } })) ∧
    (Starts s c .starter w 2 →
      (w.toNat % 2 ^ 93 ≠ 0 → Refuses (.sseal c w) s c .starter fOpcode) ∧
      (w.toNat % 2 ^ 93 = 0 → fresh →
        (t.rstate = .replaying → same → exec (.sseal c w) s = .next (run .done { latched with rstate := .admitted })) ∧
        (t.rstate = .replaying → ¬ same → exec (.sseal c w) s = .next (if reporting s 5 then s else { taken s c .starter with
          st := { latched with rstate := .refused, rreason := 6 },
          flt := { s.flt with reports := s.flt.reports ++ [{ code := fMismatch, rep := 5, ctx := some c }] } })) ∧
        (t.rstate ≠ .replaying → t.snap = .copying → exec (.sseal c w) s = .next (run (.seal 0) latched)) ∧
        (t.rstate ≠ .replaying → t.snap = .copied → num = t.cur.cut + 1 → exec (.sseal c w) s = .next (run (.seal 1)
          { latched with todo := t.todo ++ stWrites forSeal t.cur.sfid (t.cur.base + 48) (toLE 8 t.dacc.toNat) })) ∧
        (t.rstate ≠ .replaying → t.snap = .copied → num ≠ t.cur.cut + 1 →
          exec (.sseal c w) s = .next (run .done { latched with snap := .idle })) ∧
        (t.rstate ≠ .replaying → t.snap = .idle ∨ t.snap = .failed → exec (.sseal c w) s = .next (run .done latched))))

/-- 13 R280, R299 to R301: a write of ST_CTL sets its fields; a RESTORE reads the slot's descriptor where R299 accepts it, else reports
ST_REFUSED, as GO does while a restore loads or is refused; a slot read is refused at its first failed check, its contents then free values
(log 2), or loads class S from its image, whose reserved bits of CR and VSTATUS are ignored (00 R11). The digests judged are those of every
page, of the image, of the enabled classes and of the P record; a P record is of the same step as the slot. That class P is read back, and its
digest and its step judged, only where the slot's CLASSMASK holds P is the model's choice (log 33). Where an earlier report of the reporter
waits, what would report another happens later (14 R306; log 94). -/
def Obligations.Restores : Prop :=
  (∀ (s : State) (k : Bool),
    (∀ p : Partner, s.cfg.partner = [p] → slotPlace s k =
      some (p.sfid, p.rbase + (if k then (p.rlen - 1) / 2 * 2097152 else 0), (p.rlen - 1) / 2)) ∧
    (∀ p q : Partner, s.cfg.partner = [p, q] → p.pidx = 0 → q.pidx = 1 → slotPlace s k =
      if k then some (q.sfid, q.rbase, q.rlen - 1) else some (p.sfid, p.rbase, p.rlen - 1))) ∧
  (∀ (s : State) (v : W32), mcOpen s = true →
    let x : Starter := { s.st with en := v.getLsbD 0, rslot := v.getLsbD 6, force := s.st.force || v.getLsbD 7 }
    let may : Prop := s.core = .ready ∧ s.bakeOn = true ∧ (s.st.rstate = .none ∨ s.st.rstate = .refused)
    let starts (i : Instr) : Prop :=
      (¬ (may ∧ s.cfg.partner ≠ []) → exec i s = .next (if reporting s 5 then s else { s with
        st := x, flt := { s.flt with reports := s.flt.reports ++ [{ code := fStRefused, rep := 5, ctx := none }] } })) ∧
      ∀ (fid : BitVec 24) (a cap : Nat), may → slotPlace s (v.getLsbD 6) = some (fid, a, cap) → exec i s = .next { s with
        st := { x with rstate := .loading, rreason := 0, todo := s.st.todo ++ stReads forSlot fid a 0 256,
                       restore := { sfid := fid, base := a, buf := [], stage := 0, err := false, cut := 0, sdig := 0 } } }
    (s.st.rstate = .loading ∨ s.st.rstate = .refused → exec .go s = .next (if reporting s 12 then s else { s with
      flt := { s.flt with reports := s.flt.reports ++ [{ code := fStRefused, rep := 12, ctx := none }] } })) ∧
    (v.getLsbD 7 = true → v.getLsbD 5 = false → exec (.force v) s = .next { s with st := x }) ∧
    (v.getLsbD 7 = true → v.getLsbD 5 = true → starts (.force v)) ∧ (v.getLsbD 5 = true → starts (.restore v))) ∧
  ∀ s : State, live s = true → s.st.rstate = .loading → s.st.restore.stage = 1 → (∀ q ∈ s.st.todo, q.aux % 8 ≠ forSlot) →
    (∀ o ∈ s.outst, o.owner = .starter → o.aux % 8 ≠ forSlot) →
    let b (o n : Nat) : Nat := ofLE (sgets 0 s.st.restore.buf o n)
    let img (o n : Nat) : Nat := b (0x10000 + o) n
    let isSealed : Prop := sgets 0 s.st.restore.buf 0 4 = [0x48, 0x54, 0x37, 0x53] ∧ b 4 2 = 1 ∧ b 6 1 = 2
    let mine : Prop := b 28 4 = s.fw.crc.toNat ∧ b 32 8 = s.fw.tag.toNat ∧ b 24 4 = s.cfg.fid.toNat
    let err : Prop := s.st.restore.err = true
    let bytes (o n : Nat) : List Byte := sgets 0 s.st.restore.buf o n
    let num (o : Nat) : W64 := BitVec.ofNat 64 (b o 8)
    let nsp := b 40 2
    let nst := b 42 2
    let mask : BitVec 5 := BitVec.ofNat 5 (b 7 1)
    let stored (k : Nat) : W64 := num (0x3000 + 8 * k)
    let body := bytes 0x1040 (b 0x1004 2)
    let digests : Prop :=
      (∀ k : Nat, k < nsp → crc64 (bytes (0x200000 + k * 65536) 65536) = stored k) ∧
      (∀ k : Nat, k < nst → crc64 (bytes ((1 + (nsp + 31) / 32 + k) * 2097152) 2097152) = stored (nsp + k)) ∧
      crc64 (bytes 0x10000 131072) = num 56 ∧
      (∀ k : Nat, k < 3 → mask.getLsbD (k + 1) = true → crc64 (((slotPages s).filter (fun p => p.cls = k)).flatMap (fun p =>
        toLE 8 (stored (if p.stack then nsp + p.idx else p.idx)).toNat)) = num (64 + 8 * k)) ∧
      (mask.getLsbD 4 = true → crc64 body = num 0x1010 ∧ crc64 body = num 88)
    let inStep : Prop := mask.getLsbD 4 = true →
      b 0x1008 8 = b 8 8 ∧ (planPLen (slotPlan s) < 8 ∨ b (0x1040 + 160) 8 = b 8 8)
    let refused (reason : BitVec 4) (code : Nat) : Prop := if reporting s 5 then exec .restoreLoad s = .next s else Answers .restoreLoad s fun t => t = { s with
      freeCtr := t.freeCtr, c0 := t.c0, c1 := t.c1, nextId := t.nextId, flags := t.flags, handles := t.handles, pages := t.pages,
      trackers := t.trackers, sb := t.sb, epoch := t.epoch, ilPtr := t.ilPtr, acc := t.acc, stat := t.stat,
      dmem := t.dmem, spad := t.spad, outst := t.outst, retired := t.retired,
      st := { s.st with rstate := .refused, rreason := reason, todo := t.st.todo },
      flt := { s.flt with reports := s.flt.reports ++ [{ code := code, rep := 5, ctx := none }] } }
    (¬ isSealed → refused 1 fRestSlot) ∧ (isSealed → ¬ mine → refused 2 fRestIdentity) ∧
    (isSealed → mine → err → refused 3 fRestRead) ∧
    (isSealed → mine → ¬ err → ¬ digests → refused 4 fRestDigest) ∧
    (isSealed → mine → ¬ err → digests → ¬ inStep → refused 5 fRestSkew) ∧
    (isSealed → mine → ¬ err → digests → inStep → Answers .restoreLoad s fun t =>
      let stack : Prop := ∃ p ∈ slotPages s, p.stack = true
      t = { s with
        c0 := t.c0, c1 := t.c1, nextId := t.nextId, flags := t.flags, handles := t.handles, pages := t.pages, trackers := t.trackers,
        sb := t.sb, epoch := BitVec.ofNat 4 (img 36 1), ilPtr := img 37 1, dmem := t.dmem, rxTab := [], spad := t.spad,
        spadErr := t.spadErr, wbPend := t.wbPend, st := { s.st with
          dacc := 0, next := !s.st.rslot, protSpad := [], protStk := [], rstate := t.st.rstate, todo := t.st.todo,
          restore := { s.st.restore with stage := 2, cut := BitVec.ofNat 64 (b 8 8), sdig := BitVec.ofNat 64 (b 48 8) } } } ∧
      (¬ stack → t.st.rstate = .loaded ∧ t.st.todo = s.st.todo) ∧ (stack → t.st.rstate = .loading) ∧
      t.sb.num.toNat = b 8 8 ∧ t.sb.pend = none ∧
      (∀ f : Nat, f < 1024 → let k : W32 := BitVec.ofNat 32 (img (0x5000 + 4 * f) 4)
        getFlag t f = { set := k.getLsbD 14, gen := k.extractLsb' 10 4, lost := false, parked := false }) ∧
      (∀ a : Nat, a < 65536 → (sget 0 t.dmem a).toNat = img (0x10000 + a) 1) ∧
      (∀ c : Ctx, let y := getCtx t c
        let o := if c = .c0 then 0x40 else 0x440
        y.pc.toNat = img o 4 % 65536 ∧ y.cr.toNat = img (o + 8) 4 % 128 ∧ y.vstatus.toNat = img (o + 12) 4 % 16 ∧
        (∀ k : Nat, 0 < k → k < 32 → (rdS y k).toNat = img (o + 0x10 + 4 * k) 4) ∧
        (∀ k : Nat, k < 8 → (rdE y k).toNat = img (o + 0x90 + 16 * k) 16) ∧
        y.vregs = (getCtx s c).vregs ∧ y.masks = (getCtx s c).masks) ∧
      (∀ h : Nat, h < 512 → let k : W64 := BitVec.ofNat 64 (img (0x6000 + 16 * h) 8)
        let x := getH t h
        x.gen = k.extractLsb' 60 4 ∧ x.valid = k.getLsbD 59 ∧ x.base = k.extractLsb' 37 11 ∧ x.npages = k.extractLsb' 26 11))

/-- 13 R282 to R288, R290, R293, R295: at boundary B, before anything of the next step, an invalid plan or a slot too small ends the
snapshot with its fault, and the fences complete; else the core samples class S, protects the planned pages and begins the OPEN descriptor's
write. Both fences complete 40 steps later. A P record is sampled and the fences complete at the next boundary. The first planned page is
read for the copy; the protection of a page that waits for the copy no more lifts at the next boundary. That the requests of the Starter
engine count among those outstanding (log 32), that a plan starts at a multiple of 8 and one fence for a full snapshot makes both so (log
33), that a parked core captures too (log 49), that a HELD context counts as in no fence (log 36), and that PNEXT toggles at once where no partner
is named (log 103), are the model's choices. Where an earlier report of the engine waits, what would report another happens later (14 R306;
log 94). -/
def Obligations.Snapshots : Prop :=
  ∀ s : State,
    let resumed (x : Context) : Context :=
      match x.wait with
      | .snapf _ _ => if x.run = .held then { x with saved := .running, wait := .none, nextIssue := s.steps }
                      else { x with run := .running, wait := .none, nextIssue := s.steps }
      | _ => x
    let wakes : Prop := ∃ x ∈ [s.c0, s.c1], x.run ≠ .running ∧ (resumed x).run = .running
    let ended (u : State) : State := { u with
      c0 := resumed s.c0, c1 := resumed s.c1, tmr := { u.tmr with lendCnt := if wakes then 0 else u.tmr.lendCnt } }
    let now := seqDone s
    let begun : Prop := s.tmr.progress = false ∧ s.c0.issued = false ∧ s.c1.issued = false ∧ s.stepOps = [] ∧ s.dmemStep = [] ∧
      s.stepSpad = [] ∧ s.stepPages = [] ∧ s.stepAcc = [] ∧ s.stepTrk = [] ∧ s.stepSets = [] ∧ s.stepClears = [] ∧ s.stepMarks = [] ∧
      s.selfFlits = []
    let fence (x : Context) : Prop := x.run = .waiting ∧ ∃ (full : Bool) (p : BitVec 16), x.wait = .snapf full p
    let forFull (x : Context) : Prop := x.run = .waiting ∧ ∃ p : BitVec 16, x.wait = .snapf true p
    let ready : Prop := (fence s.c0 ∨ fence s.c1) ∧ (fence s.c0 ∨ s.c0.run = .halted) ∧ (fence s.c1 ∨ s.c1.run = .halted)
    let noted (u : State) (code : Nat) : State := if reporting s 5 then s else
      { u with flt := { s.flt with reports := s.flt.reports ++ [{ code := code, rep := 5, ctx := none }] } }
    let a := planAddr s
    let ws := planWords s a
    let ps := planPages s.handles s.st.cmask ws
    let spads := ps.filter (fun p => !p.stack)
    let stks := ps.filter (fun p => p.stack)
    let units := 1 + (spads.length + 31) / 32 + stks.length
    let head : W64 := ws.getD 0 0
    let plen := fld head 32 16
    let pbase := fld head 16 16
    let headOk : Prop := a % 8 = 0 ∧ fld head 48 16 = 0 ∧ plen ≤ 4096 ∧ plen % 8 = 0 ∧ pbase % 8 = 0 ∧ fld head 0 16 ≤ 256 ∧
      pbase + plen ≤ 65536 ∧ a + 8 * (1 + 2 * fld head 0 16) ≤ 65536
    (∀ (full : Bool) (p : BitVec 16), s.c0.run = .waiting → s.c0.wait = .snapf full p → a = p.toNat) ∧
    (∀ (full : Bool) (p : BitVec 16), s.c0.run = .halted → s.c1.wait = .snapf full p → a = p.toNat) ∧
    (planOk s.handles a ws = true ↔ headOk ∧ (∀ e ∈ planEntries ws.tail,
        fld e.1 62 2 ≤ 1 ∧ fld e.1 60 2 ≤ 2 ∧ fld e.1 48 12 ≠ 0 ∧ fld e.1 9 4 = 0 ∧ fld e.2 48 16 = 0 ∧
        (fld e.1 62 2 = 0 → (getH s (fld e.1 0 9)).valid = true ∧
          fld e.1 13 11 + fld e.1 48 12 ≤ (getH s (fld e.1 0 9)).npages.toNat) ∧
        (fld e.1 62 2 = 1 → fld e.2 0 48 % 2097152 = 0)) ∧
      (planAll s.handles ws).Pairwise (fun p q => ¬ (p.stack = q.stack ∧ p.addr = q.addr ∧ (p.stack = true → p.sfid = q.sfid))) ∧
      ((planAll s.handles ws).filter (fun p => p.stack)).length ≤ 4096) ∧
    (atB s = true ↔ live s = true ∧ begun ∧ s.core = .running ∧ ready ∧ (forFull s.c0 ∨ forFull s.c1) ∧ s.st.capture = none ∧ s.running = [] ∧ s.outst = [] ∧
      s.rxTab = [] ∧ s.st.snap ≠ .copying) ∧
    (atB s = true →
      (planOk s.handles a ws = false → exec .snapshotCapture s = .next (noted (ended now) fSnapPlan)) ∧
      (planOk s.handles a ws = true → (∀ v, slotPlace s s.st.next = some v → v.2.2 < units) →
        exec .snapshotCapture s = .next (noted (ended now) fStSpace)) ∧
      (∀ (fid : BitVec 24) (base cap : Nat), planOk s.handles a ws = true → slotPlace s s.st.next = some (fid, base, cap) →
        units ≤ cap → Answers .snapshotCapture s fun t =>
          let x := t.st.cur
          t = { now with st := { s.st with
            snap := .copying, capture := some s.steps, force := false, cur := x, protSpad := spads.map (fun p => p.addr),
            protStk := stks.map (fun p => (p.sfid, p.addr)), todo := s.st.todo ++ stWrites forCopy fid base (descBytes s x 0) } } ∧
          x.sfid = fid ∧ x.base = base ∧ x.cut = now.sb.num ∧ x.cmask = s.st.cmask ∧ x.pages = spads ++ stks ∧ x.stage = 0 ∧
          (Canon s → (∀ (c : Ctx) (e : Eng), (queueOf (getCtx s c) e).length ≤ 64) →
            (∀ k : Nat, k < 65536 → sget 0 x.img (0x10000 + k) = sget 0 s.dmem k) ∧
            (∀ f : Nat, f < 1024 → ofLE (sgets 0 x.img (0x5000 + 4 * f) 4) =
              (getFlag s f).gen.toNat * 2 ^ 10 + (if (getFlag s f).set then 2 ^ 14 else 0) + f) ∧
            (∀ k : Nat, k < 32 → ofLE (sgets 0 x.img (0x50 + 4 * k) 4) = (rdS s.c0 k).toNat ∧
              ofLE (sgets 0 x.img (0x450 + 4 * k) 4) = (rdS s.c1 k).toNat)))) ∧
    (∀ k : Nat, live s = true → s.st.capture = some k →
      (s.steps < k + 40 → exec .captureComplete s = .next s) ∧
      (k + 40 ≤ s.steps → exec .captureComplete s = .next (ended { s with st := { s.st with capture := none } }))) ∧
    (live s = true → begun → s.core = .running → ready → ¬ forFull s.c0 → ¬ forFull s.c1 → s.st.pRec = 0 →
      s.st.endDue = false →
      (¬ headOk → exec .pRecordSample s = .next (noted { now with st := { s.st with endDue := true } } fSnapPlan)) ∧
      (headOk → s.cfg.partner ≠ [] → Answers .pRecordSample s fun t =>
        let body := t.st.pBody
        t = { now with st := { s.st with
          endDue := true, pRec := 1, pBody := body,
          todo := s.st.todo ++ s.cfg.partner.flatMap (fun p => stWrites forRecord p.sfid
            (p.rbase + (p.rlen - 1) * 2097152 + (if s.st.pnext then 8192 else 0) + 64) body) } } ∧
        body.take 8 = toLE 8 now.sb.num.toNat ∧ body.drop 160 = sgets 0 s.dmem pbase plen) ∧
      (headOk → s.cfg.partner = [] → stBusy s forRecord = false → exec .pRecordSample s =
        .next { now with st := { s.st with endDue := true, pRec := 0, pBody := [], pnext := !s.st.pnext } })) ∧
    (∀ (hold : Bool) (n : Nat) (lines : List (Nat × Nat)), awake s = true → s.rstDue = false → s.mgmt = [] → Answers (.step hold n lines) s fun t =>
      let waits (q : CopyPage → Bool) : Bool := s.st.cur.pages.any q
      t.st.protSpad = s.st.protSpad.filter (fun q => waits (fun p => !p.stack && p.addr = q)) ∧
      t.st.protStk = s.st.protStk.filter (fun q => waits (fun p => p.stack && (p.sfid, p.addr) = q)) ∧ t.st.endDue = false ∧
      ∀ (c : Ctx) (full : Bool) (p : BitVec 16), s.st.endDue = true → (getCtx s c).wait = .snapf full p →
        (getCtx t c).wait = .none ∧ (getCtx t c).nextIssue = s.steps + 1) ∧
    (∀ (p : CopyPage) (l : List CopyPage), live s = true → s.st.snap = .copying → s.st.cur.stage = 1 ∨ s.st.cur.stage = 2 →
      s.st.capture = none → (s.st.todo.filter (fun r => r.aux % 8 = forCopy)).length ≤ 1024 → s.st.cur.pages = p :: l →
      let x := s.st.cur
      (p.stack = false → s.spadErr = [] → exec .copyPage s = .next { s with st := { s.st with
        cur := { x with digs := sput 0 x.digs p.idx (crc64 (spadBytes s (p.addr * 65536) 65536)),
                        pages := x.pages.filter (fun q => !samePage p q) },
        todo := s.st.todo ++ stWrites forCopy x.sfid (x.base + (0x200000 + p.idx * 65536)) (spadBytes s (p.addr * 65536) 65536) } }) ∧
      (p.stack = true → (∀ q ∈ x.pages, q.reading = false) →
        let rs := stReads forPage p.sfid p.addr 0 2097152
        exec .copyPage s = .next { s with st := { s.st with
          cur := { x with pages := x.pages.map (fun q => if samePage p q then { q with reading := true } else q),
                          stkBuf := [], stkLeft := rs.length },
          todo := s.st.todo ++ rs } }))

/-! ### Timers, alarms, links and power -/

/-- 09 R224 to R226, 14 R307, R308, R319, R324, R325, 17 R384: what an expired window, an alarm, a broken pair, a link level and the time
base do; an expiry takes effect at the boundary after its tick, before anything of the next step (01 R18). A broken pair and an alarm are recorded at the next boundary (log 81), which samples the LINKDOWN pins too (01 R16) and records one
that has become asserted. A declared deadlock records what is blocked, ends transfers stalled on the fabric and releases FWAITs, and layout
fences that incoming transfers hold (12 R274; log 99), unless its reaction holds the core; with no copy, record or seal of the Starter engine
under way it does nothing else. That a running SALL that waits, and words that page protection or a Rise holds, count as blocked is the model's
reading (log 15), and so is that a wait on a PARKED flag makes its offer in a lending wait alone (log 100). Where an earlier report of the timers
waits, what would report another happens later (14 R306; log 94). -/
def Obligations.TimersAndPins : Prop :=
  ∀ s : State, awake s = true →
    let f := s.flt
    let due : Prop := atBoundary s = true ∧ s.tmr.ticked = false
    let noted (u : State) (code rep : Nat) : State := if reporting s rep then s else
      { u with flt := { f with reports := f.reports ++ [{ code := code, rep := rep, ctx := none }] } }
    let holds (t : State) (code rep : Nat) : Prop :=
      t.c0.run = .held ∧ t.c1.run = .held ∧ t.core = (if s.core = .running then .held else s.core) ∧
      t.flt.count = (if f.count = 0xFFFFFFFF then f.count else f.count + 1) ∧ t.flt.restRun = true ∧ t.flt.restCnt = 0 ∧
      t.flt.fValid = true ∧ t.flt.holdCore = true ∧ t.flt.out = true ∧ t.flt.wire = f.wire ||| f.wireDue ∧ t.flt.actSig = f.actSig ∧
      t.flt.actReset = f.actReset ∧
      (∀ k : Nat, k < 256 → t.flt.sticky.getLsbD k = (decide (k = code) || f.sticky.getLsbD k) ∧
        t.flt.actHold.getLsbD k = (decide (k = code) || f.actHold.getLsbD k)) ∧
      (f.fValid = true → t.flt.fRep = f.fRep ∧ t.flt.fCtx = f.fCtx ∧ t.flt.fCode = f.fCode ∧ t.flt.fTime = f.fTime) ∧
      (f.fValid = false → t.flt.fRep.toNat = rep ∧ t.flt.fCtx = none ∧ t.flt.fCode.toNat = code ∧ t.flt.fTime = s.tmr.time)
    let recorded (t : State) (code rep : Nat) : Prop :=
      t.flt.count = (if f.count = 0xFFFFFFFF then f.count else f.count + 1) ∧ t.flt.repAck = [rep] ∧ t.flt.fValid = true ∧
      (∀ k : Nat, k < 256 → t.flt.sticky.getLsbD k = (decide (k = code) || f.sticky.getLsbD k)) ∧
      (f.fValid = false → t.flt.fRep.toNat = rep ∧ t.flt.fCtx = none ∧ t.flt.fCode.toNat = code ∧ t.flt.fTime = s.tmr.time)
    let idle (x : Context) : Prop := (x.run = .waiting ∨ x.run = .halted) ∧ ∀ (k : Nat) (g : BitVec 4), x.wait ≠ .flagSat k g
    let arrayIdle : Prop := ∀ r ∈ s.running, r.eng ≠ .matrix
    let stuck (q : Running) : Prop :=
      match q.job with
      | .xfer _ | .srset | .seal _ | .sall _ _ _ none | .stalled _ _ => True
      | .done => s.pwr.need = true ∧ q.eng = .matrix ∧ (wOp q.word = 2 ∨ wOp q.word = 6) ∧ ∃ a ∈ q.foot, a.len ≠ 0
      | _ => False
    let blocks (e : Eng) : Prop :=
      (∃ (c : Ctx) (w : QWord), headOf s c e = some w ∧ wWV w.word = true ∧
        (headWait (getCtx s c) e = .pending ∨ headWait (getCtx s c) e = .lost)) ∨ ∃ q ∈ s.running, q.eng = e ∧ stuck q
    let down (fp ch : Nat) : Bool :=
      if s.features.fports = false ∨ fp = 0 then s.linkA else if fp = 1 then s.linkB else if ch % 2 = 0 then s.linkA else s.linkB
    (∀ q : Running, fabricStalled s q = true ↔ ∃ x : Xfer, q.job = .xfer x ∧
      ((∃ o ∈ s.outst, o.owner = .word q.id) ∨ x.todo ≠ [] ∧ down (descOf x.desc).fp x.ch = true)) ∧
    (¬ due → exec .localDeadlock s = .next s ∧ exec .restExpiry s = .next s ∧ exec .lendOffer s = .next s ∧ exec .tbaseLost s = .next s ∧
      ∀ n : BitVec 24, exec (.stepRateWindow n) s = .next s) ∧
    (s.tmr.dlWindow ≠ 0 → s.tmr.dlWindow.toNat ≤ s.tmr.dlCount → s.st.todo = [] → reporting s 13 = true → exec .localDeadlock s = .next s) ∧
    (due → reporting s 13 = false → s.tmr.dlWindow ≠ 0 → s.tmr.dlWindow.toNat ≤ s.tmr.dlCount → s.st.todo = [] → (∀ o ∈ s.outst, o.owner ≠ .starter) →
      (∀ (c : Ctx) (k : Nat), (getCtx s c).wait = .flag k → k < 1024) →
      let r : Report := { code := fDeadlock, rep := 13, ctx := none }
      let keeps : Prop := effReact s r = .holdCore ∨ effReact s r = .resetReq
      let gone (id : Nat) : Bool := s.running.any (fun q => fabricStalled s q && q.id = id)
      let free (x : Context) : Context := setCR (if x.run = .held then { x with saved := .running, wait := .none }
        else { x with run := .running, wait := .none }) 3
      let freed (x : Context) : Context :=
        match x.wait with
        | .flag _ => free x
        | .lfence => if s.rxTab = [] then x else free x
        | _ => x
      let wakes : Prop := ∃ x ∈ [s.c0, s.c1], x.run ≠ .running ∧ (freed x).run = .running
      Answers .localDeadlock s fun t =>
        t = { noted s fDeadlock 13 with
          tmr := { s.tmr with dlStatus := t.tmr.dlStatus, dlCount := 0, lendCnt := t.tmr.lendCnt }, running := s.running.filter (fun q => !gone q.id),
          outst := s.outst.filter (fun o => match o.owner with | .word id => !gone id | .starter => true), retired := t.retired,
          c0 := t.c0, c1 := t.c1 } ∧
        (keeps → t.c0 = s.c0 ∧ t.c1 = s.c1) ∧ (¬ keeps → t.c0 = freed s.c0 ∧ t.c1 = freed s.c1) ∧
        t.tmr.lendCnt = (if ¬ keeps ∧ wakes then 0 else s.tmr.lendCnt) ∧
        t.tmr.dlStatus.getLsbD 31 = true ∧
        (∀ k : Nat, (s.c0.wait = .flag k → t.tmr.dlStatus.getLsbD 22 = true ∧ fld t.tmr.dlStatus 2 10 = k) ∧
          (s.c1.wait = .flag k → t.tmr.dlStatus.getLsbD 23 = true ∧ fld t.tmr.dlStatus 12 10 = k)) ∧
        (∀ e : Eng, t.tmr.dlStatus.getLsbD (24 + engNum e) = true ↔ blocks e)) ∧
    (f.restRun = true → max 1 f.restIn.toNat ≤ f.restCnt → due → exec .restExpiry s = .next { s with flt := { f with
      actSig := 0, restRun := false, restCnt := 0, out := (f.actHold ||| f.actReset) != 0,
      recov := if f.actSig = 0 ∨ f.recov = 0xFFFF then f.recov else f.recov + 1 } }) ∧
    ((arrayIdle ∧ idle s.c0 ∧ idle s.c1 ∧
        (s.tmr.lendThr ≠ 0 ∧ s.tmr.lendThr.toNat ≤ s.tmr.lendCnt ∨ parkedWait s = true)) ∨ (s.parked = true ∧ arrayIdle) →
      s.pwr.req = false → due → exec .lendOffer s = .next { s with pwr := { s.pwr with lend := true } }) ∧
    (∀ n : BitVec 24, due → s.tmr.lost = false → s.cfg.freq / 100 ≤ s.tmr.winTicks → exec (.stepRateWindow n) s = .next { s with tmr := { s.tmr with
      srValid := true, srCount := BitVec.ofNat 24 s.tmr.winSteps, srNominal := n, winSteps := 0,
      winTicks := s.tmr.winTicks - s.cfg.freq / 100 } }) ∧
    (due → s.tmr.lost = false → 65536 ≤ s.tmr.sinceEdge →
      exec .tbaseLost s = .next (noted { s with tmr := { s.tmr with lost := true } } fTbase 13)) ∧
    (s.tmr.lost = true → exec .tbaseReturn s = .next { s with tmr := { s.tmr with lost := false, sinceEdge := 0 } }) ∧
    (∀ r : BitVec 4, r ≠ 15 → f.wireSeen.getLsbD r.toNat = true → (f.wire ||| f.wireDue).getLsbD r.toNat = false → r.toNat ∉ f.repAck →
      Answers (.wire r) s fun t =>
        t = { s with flt := { f with wireDue := t.flt.wireDue, fin := f.fin && decide (r ≠ 14), finNew := f.finNew && decide (r ≠ 14) } } ∧
        ∀ k : Nat, k < 16 → t.flt.wireDue.getLsbD k = (decide (k = r.toNat) || f.wireDue.getLsbD k)) ∧
    (f.fin = false → (f.wire ||| f.wireDue).getLsbD 14 = false → exec .finAlarm s = .next { s with flt := { f with fin := true, finNew := true } }) ∧
    (f.fin = true → exec .finQuiet s = .next { s with flt := { f with fin := false, finNew := false } }) ∧
    (∀ (hold : Bool) (n : Nat) (lines : List (Nat × Nat)), f.reports = [] → f.rel0 = false → f.rel1 = false → f.relC = false →
      s.rstDue = false → s.mgmt = [] → Answers (.step hold n lines) s fun t =>
        t.linkA = s.pinA ∧ t.linkB = s.pinB ∧ t.pinA = s.pinA ∧ t.pinB = s.pinB ∧
        (f.wireDue = 0 → f.finNew = false →
          (s.pinA = true → s.linkA = false → s.pinB = s.linkB → 10 ∉ f.repAck → f.wire.getLsbD 10 = false → recorded t fLinkDownA 10) ∧
          (s.pinB = true → s.linkB = false → s.pinA = s.linkA → 11 ∉ f.repAck → f.wire.getLsbD 11 = false → recorded t fLinkDownB 11)) ∧
        (s.pinA = s.linkA → s.pinB = s.linkB → ∀ r : Nat, r < 15 → (∀ k : Nat, k < 16 → f.wireDue.getLsbD k = decide (k = r)) → f.fin = false ∨ f.finNew = false ∨ r = 14 →
          holds t fWire r) ∧
        (s.pinA = s.linkA → s.pinB = s.linkB → f.wireDue = 0 → f.wire.getLsbD 14 = false → f.fin = true → f.finNew = true →
          effReact s { code := fFin, rep := 14, ctx := none } = .holdCore → holds t fFin 14)) ∧
    (s.pinA = false → exec (.linkDown .fa) s = .next { s with pinA := true }) ∧
    (s.features.fports = true → s.pinB = false → exec (.linkDown .fb) s = .next { s with pinB := true }) ∧
    (s.pinA = true → exec (.linkdownDeassert .fa) s = .next { s with pinA := false }) ∧
    (s.pinB = true → exec (.linkdownDeassert .fb) s = .next { s with pinB := false })

/-- 03 R79 to R81, 10 R240, 16 R364 to R367, 01 R15: a step advances a wave of the array or freezes it: a hold past its release point
requires a Rise; a Rise is requested by its lead, granted, and ends with its last wave; the grant goes down a gang as bit 137 of its control
link (16 R360). The level moves one code towards its target; a
budget is taken from three equal samples. The choices of the model: the grant at a member that is not the lead (log 50), a hold that lasts
at least one nominal period (log 51), and a supply from its keep-state level to its maximum, which changes nothing else (log 54). -/
def Obligations.PowerInterface : Prop :=
  ∀ s : State, awake s = true →
    let p := s.pwr
    let pwr (q : Pwr) : State := { s with pwr := q }
    let arrayRuns : Prop := ∃ r ∈ s.running, r.eng = .matrix
    let lead : Prop := s.cfg.shape = 0 ∨ (s.cfg.posr = 0 ∧ s.cfg.posc = 0)
    let target : BitVec 4 := if p.tgtDue then BitVec.ofNat 4 (min 15 (p.wavesDone / 4)) else p.target
    let level : BitVec 4 :=
      if p.moveDue ∧ p.level < target then p.level + 1 else if p.moveDue ∧ target < p.level then p.level - 1 else p.level
    let due : Bool := decide (64 ≤ p.sinceTgt + 1)
    let granted (b : Bool) (t : State) : Prop := ∀ k : Nat, k < 144 →
      t.mesh.ctl.getLsbD k = if k = 137 ∧ s.cfg.posr = 0 ∧ (s.cfg.posc + 1 < gangCols s ∨ gangRows s = 2) then b else s.mesh.ctl.getLsbD k
    (∀ (hold : Bool) (n : Nat) (lines : List (Nat × Nat)),
      let wave : Prop := hold = false ∧ arrayRuns ∧ p.need = false
      let first : Bool := decide (p.holdPer = 0)
      let on : Bool := if first then s.cfg.sfen else p.hSfen
      let len := (if first then s.cfg.sfl else p.hSfl).toNat + 1
      let long : Prop := (if on then (len + 1) / 2 else 1) < p.holdPer + max 1 n
      s.rstDue = false → s.mgmt = [] → Answers (.step hold n lines) s fun t =>
        let q := t.pwr
        q.gnt = p.gnt ∧ q.lend = p.lend ∧ q.level = p.level ∧ q.target = p.target ∧ q.budget = p.budget ∧ q.samples = p.samples ∧
        q.w = p.w ∧
        (wave → q.wavesDone = (if due then p.waves + 1 else p.wavesDone) ∧ q.waves = (if due then 0 else p.waves + 1) ∧
          q.need = false ∧ q.holdPer = 0 ∧ q.filler = false ∧
          (p.rising = true → p.wave < p.w → q.rising = true ∧ q.req = p.req ∧ q.wave = p.wave + 1) ∧
          (p.rising = true → p.w ≤ p.wave → q.rising = false ∧ q.req = false) ∧
          (p.rising = false → q.rising = false ∧ q.req = p.req)) ∧
        (¬ wave → q.wavesDone = (if due then p.waves else p.wavesDone) ∧ q.waves = (if due then 0 else p.waves) ∧
          q.holdPer = p.holdPer + max 1 n ∧ q.filler = (if first then s.cfg.sfen else p.filler) ∧
          (long → q.need = true ∧ q.rising = false ∧ (p.rising = true → q.req = false) ∧ (p.rising = false → q.req = p.req)) ∧
          (¬ long → q.need = p.need ∧ q.rising = p.rising ∧ q.req = p.req)) ∧
        (p.sinceTgt = 63 → q.tgtDue = true) ∧ (p.sinceMove = 3 → q.moveDue = true) ∧ (p.sinceSmp = 15 → q.smpDue = true)) ∧
    (p.tgtDue = true ∨ p.moveDue = true → exec .activityUpdate s = .next (pwr { p with
      target := target, tgtDue := false, moveDue := false, level := level, gray := level ^^^ (level >>> 1) })) ∧
    (∀ code : Byte, p.smpDue = true → Answers (.budgetSample code) s fun t =>
      t = pwr { p with samples := t.pwr.samples, smpDue := false, budget := t.pwr.budget } ∧
      (∀ (l : List Byte) (x y : Byte), p.samples = l ++ [x, y] → t.pwr.samples = [x, y, code] ∧
        t.pwr.budget = if x = code ∧ y = code then code else p.budget) ∧
      (p.samples.length < 2 → t.pwr.samples = p.samples ++ [code] ∧ t.pwr.budget = p.budget)) ∧
    (p.need = true → arrayRuns → lead → p.req = false → p.gnt = false → p.rising = false →
      exec .pmRiseReq s = .next (pwr { p with req := true, lend := false })) ∧
    (p.rising = false → lead ∧ p.req = true ∧ p.gnt = false ∨ ¬ lead ∧ p.need = true ∧ arrayRuns → Answers .pmRiseGnt s fun t =>
      t = { s with
        perfStep := sput 0 s.perfStep 5 (sget 0 s.perfStep 5 + 1), mesh := { s.mesh with ctl := t.mesh.ctl },
        pwr := { p with gnt := t.pwr.gnt, rising := true, need := false, wave := 1, holdPer := 0, filler := false, lend := false,
                        w := [16, 32, 64, 96].getD s.cfg.rlen.toNat 0 } } ∧
      (t.pwr.gnt = true ↔ lead) ∧ granted true t) ∧
    (p.gnt = true ∨ ¬ lead ∧ s.mesh.ctl.getLsbD 137 = true → Answers .pmRiseGntLower s fun t =>
      t = { s with mesh := { s.mesh with ctl := t.mesh.ctl }, pwr := { p with gnt := false } } ∧ granted false t) ∧
    (p.filler = true → p.hSfl.toNat + 1 ≤ p.holdPer → exec .fillerStop s = .next (pwr { p with filler := false })) ∧
    (∀ vcore vmem : Nat, 500 ≤ vcore → vcore ≤ 880 → 660 ≤ vmem → vmem ≤ 830 →
      exec (.supplyChange vcore vmem) s = .next { s with vcore := vcore, vmem := vmem })

/-! ### Resets, supplies and the wrapper -/

/-- 15 R337, R340, R344, R345, R349, 16 R350, R368 to R370: an assertion of RST_N, at the boundary of the step under way where there is one
(01 R16), brings everything but what the surroundings hold (pin
levels and the power manager's grant among it: log 45) and what was sent to its reset contents, and answers the request that it cuts
short with STATUS RESET after the request's last symbol (log 46); a frame that still waits behind another is answered so, or forwarded (R328,
R336; what of them waits and when it is answered: log 40); its release samples the identity, which stands until the next (log
8); a lost supply, and a return to WS_BYPASS while RST_N is released, leave contents of which nothing is said (logs 2, 56). A test
instruction loads the WIR and shifts its bits through the register it selects (the order of the boundary cells: log 22), WS_SAFE sets
the outputs too; WT_MBIST, WT_LBIST and WT_RING load the WIR and shift nothing (log 83); a test's end sets its result (what ends a test: log
47). -/
def Obligations.ResetsAndSupplies : Prop :=
  (∀ (n v : Nat) (bs : List Bool), 0 < n → v < 2 ^ n → let r := shiftReg n v bs
    r.1 < 2 ^ n ∧ r.2.length = bs.length ∧
    (∀ k : Nat, k < n → r.1.testBit k = if k + bs.length < n then v.testBit (k + bs.length) else bs.getD (k + bs.length - n) false) ∧
    (∀ k : Nat, k < bs.length → r.2.getD k false = if k < n then v.testBit k else bs.getD (k - n) false)) ∧
  ∀ s : State,
    let reset (u : State) : State := { State.reset with
      pending := u.pending, freeCtr := u.freeCtr, features := u.features, powered := u.powered, vcore := u.vcore, vmem := u.vmem,
      rstN := u.rstN, wir := u.wir, wrap := u.wrap, testRes := u.testRes, serial := u.serial, pwrdom := u.pwrdom, mcOut := u.mcOut,
      cutAddr := u.cutAddr, cutReq := u.cutReq, faTx := u.faTx, fbTx := u.fbTx, syncSent := u.syncSent, linkA := u.pinA,
      linkB := u.pinB, pinA := u.pinA, pinB := u.pinB, flt := { State.reset.flt with fin := u.flt.fin, finNew := u.flt.fin },
      pwr := { State.reset.pwr with gnt := u.pwr.gnt }, cfg := Cfg.default u.features.pages }
    let kept (u t : State) : Prop := t.pending = u.pending ∧ t.freeCtr = s.freeCtr + 1 ∧ t.features = u.features ∧
      t.powered = u.powered ∧ t.vcore = u.vcore ∧ t.vmem = u.vmem ∧ t.rstN = u.rstN ∧ t.mcOut = u.mcOut ∧ t.cutReq = [] ∧
      t.faTx = u.faTx ∧ t.fbTx = u.fbTx ∧ t.syncSent = u.syncSent ∧ t.pinA = u.pinA ∧ t.pinB = u.pinB ∧ t.mgmt = [] ∧
      t.flt.fin = u.flt.fin ∧ t.pwr.gnt = u.pwr.gnt
    let symbols (f : List Byte) : List (BitVec 9) := (f.zipIdx).map (fun e => (if e.2 = 0 then 1#1 else 0#1) ++ e.1)
    let cutAnswer (f : List Byte) : List (BitVec 9) :=
      let body : List Byte := [byteOf (0x80 + (f.getD 0 0).toNat % 0x80), 0, f.getD 2 0, 0x20] ++ [4, 5, 6].map (fun i => f.getD i 0) ++ [0, 0]
      symbols (body ++ [(crc16 body).extractLsb' 0 8, (crc16 body).extractLsb' 8 8])
    let bypassed (u : State) (bs : List Bool) : State :=
      { u with wrap := { u.wrap with bypass := bs.getLastD u.wrap.bypass, wso := u.wrap.wso ++ (u.wrap.bypass :: bs).take bs.length } }
    let bounded (u : State) (v : Nat) (bs : List Bool) : State :=
      let r := shiftReg (boundLen u.features) v bs
      { u with wrap := { u.wrap with bound := r.1, wso := u.wrap.wso ++ r.2 } }
    let toBypass (i : Instr) (code : Byte) (bs : List Bool) : Prop := s.powered = true → code ∉ testCodes →
      let u := bypassed { s with wir := code } bs
      (s.wir ∉ testCodes → exec i s = .next u) ∧ (s.wir ∈ testCodes → s.rstN = false → exec i s = .next (reset u)) ∧
      (s.wir ∈ testCodes → s.rstN = true → Answers i s fun t => kept u t ∧ t.wir = code ∧ t.wrap = u.wrap ∧ t.testRes = u.testRes)
    (∀ f : List Byte, s.rstN = true → alive s = true →
      let i : Instr := .rstNAssert f
      let off (out : List (BitVec 9)) (a : Byte) (q : List Byte) : State :=
        if midStep s = true ∧ awake s = true then { s with
          rstDue := true, mgmt := [], fw := { s.fw with held := [] }, mcOut := s.mcOut ++ out, cutAddr := a, cutReq := q }
        else { reset { s with rstN := false } with mcOut := s.mcOut ++ out, cutAddr := a, cutReq := q }
      let cut (out : List (BitVec 9)) : State := off out s.cutAddr s.cutReq
      let mine : Prop := arriving s f = true
      (s.rstDue = true → exec i s = .next s) ∧
      (s.rstDue = false →
      (s.fw.held = [] → s.mgmt = [] →
        (¬ mine → exec i s = .next (cut [])) ∧ (mine → frameLen f ≤ f.length → exec i s = .next (cut (cutAnswer f))) ∧
        (mine → f.length < frameLen f → exec i s = .next (off [] s.chainAddr f))) ∧
      (∀ h : FwHeld, s.fw.held = [h] → s.mgmt = [] → h.resp ≠ [] → ¬ mine → exec i s = .next (cut (cutAnswer h.resp))) ∧
      (∀ m : Mgmt, s.fw.held = [] → s.mgmt = [m] → ¬ mine →
        (∀ g : List Byte, m = .frame g → g ≠ [] → exec i s = .next (cut (cutAnswer g))) ∧
        (∀ g : List Byte, m = .bcast true g ∨ m = .enum g → exec i s = .next (cut (symbols g))) ∧
        (∀ x : List (BitVec 9), m = .syms x → exec i s = .next (cut x)) ∧
        (∀ (a : Nat) (bs : List Byte), m = .write a bs → exec i s = .next (cut []))))) ∧
    (∀ (hold : Bool) (n : Nat) (lines : List (Nat × Nat)), awake s = true → s.rstDue = true → s.fw.held = [] → s.mgmt = [] →
      exec (.step hold n lines) s = .next (reset { s with rstN := false })) ∧
    (∀ d : Byte, chainOn s = true → s.cutReq ≠ [] → s.fw.held = [] → s.mgmt = [] →
      let f := s.cutReq ++ [d]
      let i : Instr := .frameForward [0#1 ++ d]
      let idle : State := { s with cutReq := [] }
      (f.length = 2 → d ≠ s.cutAddr → exec i s = .next { idle with mcOut := s.mcOut ++ symbols f }) ∧
      (¬ (f.length = 2 ∧ d ≠ s.cutAddr) → frameLen f ≤ f.length → exec i s = .next { idle with mcOut := s.mcOut ++ cutAnswer f }) ∧
      (¬ (f.length = 2 ∧ d ≠ s.cutAddr) → f.length < frameLen f → exec i s = .next { s with cutReq := f })) ∧
    (∀ f : List Byte, s.rstN = true → alive s = false → exec (.rstNAssert f) s = .next { s with rstN := false }) ∧
    (∀ (die : BitVec 48) (inst : BitVec 16) (pwr : Byte), s.rstN = false →
      (alive s = true → exec (.rstNRelease die inst pwr) s =
        .next { s with rstN := true, serial := BitVec.ofNat 64 (die.toNat * 2 ^ 16 + inst.toNat), pwrdom := pwr }) ∧
      (alive s = false → exec (.rstNRelease die inst pwr) s = .next { s with rstN := true })) ∧
    (live s = true → s.core = .init → exec .selfInitComplete s = .next { s with core := .unaddressed }) ∧
    (∀ v m : Nat, v < 500 ∨ m < 660 →
      (s.powered = true → Answers (.supplyLoss v m) s (kept { s with powered := false, vcore := v, vmem := m })) ∧
      (s.powered = false → exec (.supplyLoss v m) s = .next { s with vcore := v, vmem := m })) ∧
    (∀ v m : Nat, s.powered = false → v ≤ 880 → m ≤ 830 →
      let core : Prop := 550 ≤ v ∧ v ≤ 850
      let mem : Prop := 700 ≤ m ∧ m ≤ 800
      let u : State := { s with powered := true, vcore := v, vmem := m }
      (core → mem → exec (.supplyUp v m) s = .next (if s.rstN then u else reset u)) ∧
      ((core ∧ ¬ mem) ∨ (mem ∧ ¬ core) → exec (.supplyUp v m) s = .next { s with vcore := v, vmem := m })) ∧
    (∀ (code : Byte) (bs : List Bool), toBypass (.wsBypass code bs) code bs) ∧ toBypass .wrstnLow 0 [] ∧
    (s.powered = true → ∀ bs : List Bool,
      (∀ pins : Nat, exec (.wsExtest pins bs) s = .next (bounded { s with wir := 0x01 } (capture s.features s.wrap.bound pins) bs)) ∧
      exec (.wsPreload bs) s = .next (bounded { s with wir := 0x02 } s.wrap.bound bs) ∧
      (Answers (.wsIntestScan bs) s fun t => ∃ out : List Bool, out.length = bs.length ∧
        t = { s with wir := 0x03, freeCtr := s.freeCtr + 1, wrap := { s.wrap with wso := s.wrap.wso ++ out } }) ∧
      exec (.wsClamp bs) s = .next (bypassed { s with wir := 0x04 } bs) ∧
      exec (.wsSafe bs) s = .next (bypassed { s with
        wir := 0x05, pwr := { s.pwr with req := false, lend := false, level := 0, gray := 0 }, flt := { s.flt with out := false } } bs) ∧
      exec .wtMbist s = .next { s with wir := 0x10 } ∧ exec .wtLbist s = .next { s with wir := 0x11 } ∧
      exec .wtRing s = .next { s with wir := 0x12 } ∧
      exec (.wtResult bs) s = .next { s with
        wir := 0x13, wrap := { s.wrap with wso := s.wrap.wso ++ (shiftReg 64 s.testRes.toNat bs).2 } }) ∧
    ∀ (pass : Bool) (bank : BitVec 6) (words : BitVec 24) (wrck : W32), s.powered = true →
      let i : Instr := .testDone pass bank words wrck
      let memory : W64 := 1#1 ++ BitVec.ofBool pass ++ bank ++ words ++ s.testRes.extractLsb' 0 32
      let ring : W64 := 1#1 ++ BitVec.ofBool pass ++ s.testRes.extractLsb' 32 30 ++ wrck
      (s.wir = 0x10 ∨ s.wir = 0x11 → exec i s = .next { s with testRes := memory }) ∧
      (s.wir = 0x12 → exec i s = .next { s with testRes := ring })

/-! ### The chain and the host's reads -/

/-- 15 R329 to R336: a good RD or WR addressed to the core is answered in its place: ERR_LEN with no effect where LEN or ADDR breaks R331,
ACK with the bytes that the frame's offset reads, ACK once what stands at the offset has been written as its own row writes it (several
registers in ascending order, R334), ACK and DUP where SEQ repeats; a reserved TYPE is answered ERR_TYPE, with ERR_LEN where its LEN or range
is too large; a broadcast is forwarded and written unless its SEQ repeats. A WR of image bytes during BUSY is held with its answer (08 R203).
A frame that arrives within a step waits for its boundary (01 R17), one that finds another waiting waits behind it (R336; log 40), and a
broadcast behind another waits to be forwarded too; one to a page that a snapshot protects waits, and the page is copied first (13 R288). Where an earlier report holds back one that a frame would
make, the frame is taken later (14 R306; log 94). -/
def Obligations.ChainRequests : Prop :=
  crc16 [0x31, 0x32, 0x33, 0x34, 0x35, 0x36, 0x37, 0x38, 0x39] = 0x29B1 ∧
  ∀ (s : State) (f : List Byte),
    let b (i : Nat) : Byte := f.getD i 0
    let type := (b 0).toNat
    let addr : BitVec 24 := b 6 ++ b 5 ++ b 4
    let n := (b 7).toNat + (b 8).toNat * 256
    let off (lo : Nat) : Nat := addr.toNat - lo
    let inWin (lo hi : Nat) : Prop := lo ≤ addr.toNat ∧ addr.toNat + n ≤ hi
    let noWin : Prop := ¬ (0x8000 ≤ addr.toNat ∧ addr.toNat < 0xA000) ∧ ¬ (0x10000 ≤ addr.toNat ∧ addr.toNat < 0x20000) ∧
      ¬ (0x100000 ≤ addr.toNat ∧ addr.toNat < 0x150044) ∧ ¬ (0x200000 ≤ addr.toNat ∧ addr.toNat < 0x210000) ∧
      ¬ (0x400000 ≤ addr.toNat ∧ addr.toNat < 0x440000)
    let bytes := (f.drop 9).take n
    let word (i : Nat) : W32 := b (12 + 4 * i) ++ b (11 + 4 * i) ++ b (10 + 4 * i) ++ b (9 + 4 * i)
    let symbols (g : List Byte) : List (BitVec 9) := (g.zipIdx).map (fun e => (if e.2 = 0 then 1#1 else 0#1) ++ e.1)
    let answer (status : Byte) (data : List Byte) : List Byte :=
      let body : List Byte := [byteOf (type + 0x80), s.chainAddr, b 2, status, b 4, b 5, b 6, byteOf data.length, byteOf (data.length / 256)] ++
        data
      body ++ [(crc16 body).extractLsb' 0 8, (crc16 body).extractLsb' 8 8]
    let sent (u : State) (g : List Byte) : State := { u with mcOut := u.mcOut ++ symbols g }
    let isGood : Prop := f.length = (if type = 1 then 11 else 11 + n) ∧
      (crc16 (f.take (f.length - 2))).toNat = (b (f.length - 2)).toNat + (b (f.length - 1)).toNat * 256
    let idle : Prop := s.fw.held = [] ∧ s.mgmt = []
    let toMe : Prop := hostOk s = true ∧ s.chainAddr ≠ 0 ∧ b 1 = s.chainAddr ∧ isGood
    let mine : Prop := toMe ∧ mcOpen s = true
    let held : Prop := addr.toNat < 0x20000 ∧ 0x10000 < addr.toNat + n ∧ s.spadWin.toNat < pageCount s ∧ s.spadWin.toNat ∈ s.st.protSpad
    let noWins : Prop := ∀ a : Nat, addr.toNat ≤ a → a < addr.toNat + n → ¬ (0x8000 ≤ a ∧ a < 0xA000) ∧ ¬ (0x10000 ≤ a ∧ a < 0x20000) ∧
      ¬ (0x100000 ≤ a ∧ a < 0x150044) ∧ ¬ (0x200000 ≤ a ∧ a < 0x210000) ∧ ¬ (0x400000 ≤ a ∧ a < 0x440000)
    let badLen : Prop := n < 4 ∨ 4096 < n ∨ n % 4 ≠ 0 ∨ addr.toNat % 4 ≠ 0 ∨ 0x1000000 < addr.toNat + n
    let row (i : Instr) : Prop :=
      (noWin ∧ n = 4 ∧ i = .registerWrite addr (word 0)) ∨ (inWin 0x10000 0x20000 ∧ i = .spadWindowWrite (off 0x10000) bytes) ∨
      (inWin 0x200000 0x210000 ∧ i = .dmemWindowWrite (off 0x200000) bytes) ∨
      (inWin 0x100000 0x150044 ∧ ¬ (s.core = .addressed ∧ s.fw.st = .busy) ∧ i = .imemWindowWrite (off 0x100000) bytes) ∨
      (inWin 0x400000 0x440000 ∧ i = .proofWindowWrite (off 0x400000) bytes) ∨
      (inWin 0x8000 0xA000 ∧ i = .handleWindowWrite (off 0x8000) ((List.range (n / 4)).map word))
    let registers (u : State) : State := (List.range (n / 4)).foldl (fun v i => writeReg v (addr.toNat + 4 * i) (word i)) u
    let waiting (m : Mgmt) : State := { s with mgmt := s.mgmt ++ [m] }
    let quiet : Prop := s.flt.reports = [] ∧ s.flt.repAck = []
    let loading : Prop := s.fw.st = .busy ∨ s.fw.st = .receiving
    (∀ v : W32, mcOpen s = true → noWin → addr.toNat % 4 = 0 → exec (.registerWrite addr v) s = .next (settle s (writeReg s addr.toNat v))) ∧
    (mine → type = 1 →
      (badLen → exec (.rd f) s = .next (sent s (answer 0x04 []))) ∧
      (¬ badLen → noWins → exec (.rd f) s = .next (sent s (answer 0x01
        ((List.range (n / 4)).flatMap (fun i => toLE 4 (readReg (seqDone s) (addr.toNat + 4 * i))))))) ∧
      (¬ badLen → inWin 0x8000 0xA000 → exec (.rd f) s = .next (sent s (answer 0x01
        ((List.range (n / 4)).flatMap (fun i => toLE 4 (readReg (seqDone s) (addr.toNat + 4 * i))))))) ∧
      (¬ badLen → inWin 0x200000 0x210000 → exec (.rd f) s = .next (sent s (answer 0x01
        ((List.range n).map (fun i => if loading then 0 else sget 0 s.dmem (off 0x200000 + i)))))) ∧
      (¬ badLen → inWin 0x100000 0x150044 → exec (.rd f) s = .next (sent s (answer 0x01 ((List.range n).map (fun i =>
        let o := off 0x100000 + i
        if loading ∨ 0x40000 ≤ o then 0 else (sget 0 s.imem (o / 4)).extractLsb' (8 * (o % 4)) 8))))) ∧
      (¬ badLen → inWin 0x10000 0x20000 → s.spadErr = [] → exec (.rd f) s = .next (sent s (answer 0x01
        (if pageCount s ≤ s.spadWin.toNat then List.replicate n 0
         else (List.range n).map (fun i => sget 0 s.spad (s.spadWin.toNat * 65536 + off 0x10000 + i)))))) ∧
      (¬ badLen → inWin 0x400000 0x440000 → exec (.rd f) s = .next (sent s (answer 0x01 (sgets 0 s.proof.bytes (off 0x400000) n))))) ∧
    (mine → type = 2 →
      (badLen → exec (.wr f) s = .next (sent s (answer 0x04 []))) ∧
      (¬ badLen → s.seqWr = some (b 2) → exec (.wr f) s = .next (sent s (answer 0x09 []))) ∧
      (¬ badLen → s.seqWr ≠ some (b 2) → ¬ held →
        (∀ i : Instr, row i → quiet → Answers i { s with seqWr := some (b 2) } fun t => exec (.wr f) s = .next (sent t (answer 0x01 []))) ∧
        (noWins → exec (.wr f) s = .next (settle s (sent (registers { s with seqWr := some (b 2) }) (answer 0x01 [])))) ∧
        (inWin 0x100000 0x150044 → s.core = .addressed → s.fw.st = .busy →
          exec (.wr f) s = .next { s with seqWr := some (b 2), fw := { s.fw with
            held := s.fw.held ++ [{ off := off 0x100000, data := bytes, resp := answer 0x01 [] }] } }) ∧
        (addr = 0x1400 → n = 8 → s.core ≠ .running → s.core ≠ .held → exec (.wr f) s = .next (sent { seqDone s with
          seqWr := some (b 2), sb := { (seqDone s).sb with num := word 1 ++ word 0, stage := 0, pend := none } } (answer 0x01 []))))) ∧
    (isGood → type = 2 → b 1 = 0xFF → chainOn s = true →
      let on : State := sent { s with cutReq := [] } f
      let took : State := { on with seqBc := some (b 2) }
      (hostOk s = false → idle → exec (.wrBroadcast f) s = .next on) ∧
      (mcOpen s = true → badLen ∨ s.seqBc = some (b 2) → exec (.wrBroadcast f) s = .next on) ∧
      (mcOpen s = true → ¬ badLen → s.seqBc ≠ some (b 2) → ¬ held →
        (∀ i : Instr, row i → quiet → Answers i took fun t => exec (.wrBroadcast f) s = .next t) ∧
        (noWins → exec (.wrBroadcast f) s = .next (settle s (registers took))) ∧
        (inWin 0x100000 0x150044 → s.core = .addressed → s.fw.st = .busy → exec (.wrBroadcast f) s = .next { took with fw := { s.fw with
          held := [{ off := off 0x100000, data := bytes, resp := [] }] } })) ∧
      (hostOk s = true → idle → midStep s = true → ¬ held → exec (.wrBroadcast f) s = .next { on with mgmt := [.bcast false f] }) ∧
      (¬ idle → exec (.wrBroadcast f) s = .next (waiting (.bcast true f)))) ∧
    (mine → type = 0 ∨ 3 < type ∧ type < 0x80 →
      exec (.errType f) s = .next (sent s (answer (if 4096 < n ∨ 0x1000000 < addr.toNat + n then 0x06 else 0x02) []))) ∧
    (toMe → ¬ idle ∨ midStep s = true ∧ (type = 2 → ¬ held) →
      (type = 1 → exec (.rd f) s = .next (waiting (.frame f))) ∧ (type = 2 → exec (.wr f) s = .next (waiting (.frame f))) ∧
      (type = 0 ∨ 3 < type ∧ type < 0x80 → exec (.errType f) s = .next (waiting (.frame f)))) ∧
    (mine → type = 2 → ¬ badLen → s.seqWr ≠ some (b 2) → held →
      let first (q : CopyPage) : Bool := !q.stack && decide (q.addr = s.spadWin.toNat)
      exec (.wr f) s = .next { s with mgmt := [.frame f], st := { s.st with cur := { s.st.cur with
        pages := s.st.cur.pages.filter first ++ s.st.cur.pages.filter (fun q => !first q) } } }) ∧
    (toMe → type = 1 → badLen → s.fw.held = [] → s.mgmt = [.frame f] → s.rstDue = false → ∀ (hold : Bool) (k : Nat) (lines : List (Nat × Nat)),
      Answers (.step hold k lines) s fun t => t.mgmt = [] ∧ t.mcOut = s.mcOut ++ symbols (answer 0x04 []))

/-- 15 R328, R332, R338: an ENUM frame of LEN 1 gives an unaddressed core its address, or meets FULL, or passes; symbols that the core does
not consume leave unchanged, in every state in which VCORE is within range; from UNADDRESSED onward a broken frame, a truncated
one and a symbol outside any frame record CHAIN_CRC (what of a frame records it, and what its row takes: log 42). A frame on which the
core acts is not forwarded, whatever follows it. An ENUM frame that finds another frame held, or a step under way, waits, and what follows
it or a second waiting frame waits behind it (R336; log 40). That the chain passes symbols on down to the keep-state level of VCORE, below its
range (16 R370), is the model's reading (log 84). Where an earlier report of the reporter waits, a frame that would report another is taken later
(14 R306; log 94). -/
def Obligations.ChainForwards : Prop :=
  ∀ s : State,
    let symbols (g : List Byte) : List (BitVec 9) := (g.zipIdx).map (fun e => (if e.2 = 0 then 1#1 else 0#1) ++ e.1)
    let sent (u : State) (l : List (BitVec 9)) : State := { u with mcOut := s.mcOut ++ l, cutReq := [] }
    let crcFault (u : State) : State := if reporting s 12 then s else
      { u with flt := { s.flt with reports := s.flt.reports ++ [{ code := fChainCrc, rep := 12, ctx := none }] } }
    let frame (body : List Byte) : List Byte := body ++ [(crc16 body).extractLsb' 0 8, (crc16 body).extractLsb' 8 8]
    let on : Prop := live s = true ∧ s.core ≠ .init
    let free : Prop := s.fw.held = [] ∧ s.mgmt = [] ∧ midStep s = false
    let stalled : Prop := 2 ≤ s.fw.held.length + s.mgmt.length ∨ ∃ g : List Byte, Mgmt.enum g ∈ s.mgmt
    let waiting (m : Mgmt) : State := { s with mgmt := s.mgmt ++ [m] }
    (on → ∀ dst seq status a0 a1 a2 v : Byte,
      let enum (st x : Byte) : List Byte := frame [3, dst, seq, st, a0, a1, a2, 1, 0, x]
      (¬ free → exec (.enum (enum status v)) s = .next (waiting (.enum (enum status v)))) ∧
      (free → s.core = .unaddressed → v ≠ 0 → v ≠ 0xFF → exec (.enum (enum status v)) s =
        .next (sent { s with core := .addressed, chainAddr := v } (symbols (enum status (v + 1))))) ∧
      (free → s.core = .unaddressed → v = 0 ∨ v = 0xFF → exec (.enum (enum status v)) s =
        .next (sent s (symbols (enum (status ||| 0x10) v)))) ∧
      (free → s.core ≠ .unaddressed → exec (.enum (enum status v)) s = .next (sent s (symbols (enum status v))))) ∧
    (chainOn s = true → ∀ f : List Byte,
      let n := (f.getD 7 0).toNat + (f.getD 8 0).toNat * 256
      let whole : Prop := f.length = (if f.getD 0 0 = 1 then 11 else 11 + n)
      let crc : Prop := (crc16 (f.take (f.length - 2))).toNat =
        (f.getD (f.length - 2) 0).toNat + (f.getD (f.length - 1) 0).toNat * 256
      let taken : Prop := (hostOk s = true ∧ (f.getD 0 0).toNat < 0x80 ∧ f.getD 0 0 ≠ 3 ∧ s.chainAddr ≠ 0 ∧ f.getD 1 0 = s.chainAddr) ∨
        (hostOk s = true ∧ f.getD 0 0 = 2 ∧ f.getD 1 0 = 0xFF) ∨ (on ∧ f.getD 0 0 = 3 ∧ n = 1)
      (whole → crc → ¬ taken → stalled → exec (.frameForward (symbols f)) s = .next (waiting (.syms (symbols f)))) ∧
      (whole → crc → taken → ∀ ds : List Byte, exec (.frameForward (symbols f ++ ds.map (fun d => 0#1 ++ d))) s = .next s) ∧
      (¬ stalled →
      (whole → crc → ¬ taken → exec (.frameForward (symbols f)) s = .next (sent s (symbols f))) ∧
      (whole → ¬ crc → on → ¬ (f.getD 0 0 = 3 ∧ n ≠ 1) →
        exec (.frameForward (symbols f)) s = .next (crcFault (sent s (symbols f)))) ∧
      (9 ≤ f.length → f.length < (if f.getD 0 0 = 1 then 11 else 11 + n) → on →
        exec (.frameForward (symbols f)) s = .next (crcFault (sent s (symbols f)))) ∧
      (whole → f.getD 0 0 = 3 → n ≠ 1 → exec (.frameForward (symbols f)) s = .next (sent s (symbols f))) ∧
      (∀ d : Byte, on → s.cutReq = [] → exec (.frameForward [0#1 ++ d]) s = .next (crcFault (sent s [0#1 ++ d]))) ∧
      (whole → ¬ on → exec (.frameForward (symbols f)) s = .next (sent s (symbols f)))))

/-- 17 R374 to R387, 14 R323, 15 R342, R346, 09 R218, 11 R257, 06 R136, R137: what the registers read, from the state that they show. A counter
reads with the counts of the step that the last boundary ended, which follow every write to PERF_CTL there (17 R386; log 93). -/
def Obligations.RegistersRead : Prop :=
  ∀ s : State,
    let one (b : Bool) : BitVec 1 := BitVec.ofBool b
    let reg (a : Nat) (v : W32) : Prop := readReg s a = v.toNat
    let pair (a : Nat) (v : W64) : Prop := reg a (v.extractLsb' 0 32) ∧ reg (a + 4) (v.extractLsb' 32 32)
    let ft := s.features
    let f := s.flt
    let p := s.pwr
    let t := s.st
    let run (x : RunSt) : BitVec 2 := match x with | .running => 0 | .waiting => 1 | .halted => 2 | .held => 3
    let core : BitVec 4 := match s.core with
      | .init => 0 | .unaddressed => 1 | .addressed => 2 | .loaded => 3 | .ready => 4 | .running => 5 | .held => 6
    let fw : BitVec 4 := match s.fw.st with | .idle => 0 | .busy => 1 | .receiving => 2 | .loaded => 3 | .failed => 4
    let buf (x : BufSt) : BitVec 2 := match x with | .free => 0 | .valid => 1 | .inForce => 2
    let rstate : BitVec 4 := match t.rstate with
      | .none => 0 | .loading => 1 | .loaded => 2 | .replaying => 3 | .admitted => 4 | .refused => 5
    let snap : BitVec 2 := match t.snap with | .idle => 0 | .copying => 1 | .copied => 2 | .failed => 3
    let first : BitVec 2 := match f.fCtx with | none => 0 | some .c0 => 2 | some .c1 => 3
    reg 0x0 0x484B0700 ∧ reg 0x4 0x00070200 ∧ reg 0x8 (0#25 ++ one ft.gang ++ one ft.fports ++ one ft.rowu ++ ft.spad ++ ft.vlanes) ∧
    pair 0xC s.serial ∧ reg 0x14 (0#24 ++ s.chainAddr) ∧ reg 0x18 (0#8 ++ s.cfg.fid) ∧
    reg 0x100 (0#18 ++ run s.c1.run ++ run s.c0.run ++ 0#1 ++ one s.parked ++ 0#4 ++ core) ∧
    reg 0x204 (fw ++ s.fw.reason ++ 0#5 ++ BitVec.ofNat 19 s.fw.rcvd) ∧ pair 0x208 s.fw.tag ∧ reg 0x210 s.fw.len ∧ reg 0x214 s.fw.crc ∧
    reg 0x300 (0#21 ++ s.spadWin) ∧ reg 0x408 s.setRej ∧
    (∀ n : Nat, n < 8 → reg (0x800 + 4 * n) ((f.actSig ||| f.actHold ||| f.actReset).extractLsb' (32 * n) 32) ∧
      reg (0x820 + 4 * n) (f.sticky.extractLsb' (32 * n) 32)) ∧
    reg 0x840 (one f.fValid ++ 0#15 ++ f.fRep ++ first ++ 0#2 ++ f.fCode) ∧ pair 0x844 f.fTime ∧ reg 0x84C f.count ∧
    reg 0x850 (0#16 ++ f.recov) ∧ reg 0x854 f.rest ∧ reg 0x858 (0#16 ++ f.wire) ∧
    reg 0x85C (0#24 ++ one f.resetReq ++ one f.holdCore ++ one s.c1.hold ++ one s.c0.hold ++ 0#4) ∧
    reg 0xC00 s.tmr.dlWindow ∧ reg 0xC08 s.tmr.lendThr ∧
    reg 0x1000 (0#9 ++ BitVec.ofNat 7 p.wave ++ 0#5 ++ one p.gnt ++ one p.req ++ one p.rising ++ 0#6 ++ s.cfg.rlen) ∧
    reg 0x1008 (one s.tmr.srValid ++ 0#7 ++ s.tmr.srCount) ∧ reg 0x100C (0#8 ++ s.tmr.srNominal) ∧
    reg 0x1010 (0#15 ++ one p.lend ++ p.budget ++ 0#4 ++ p.level) ∧ pair 0x1400 s.sb.num ∧
    reg 0x1408 (one s.sb.en ++ one s.sb.leader ++ s.sb.gflag ++ s.sb.rqflag ++ one s.sb.pend.isSome ++ buf s.sb.stB ++ buf s.sb.stA ++
      one s.sb.req ++ 0#4) ∧
    (∀ n : Nat, n < 16 → reg (0x1440 + 4 * n) (sget 0 s.sb.bufA n) ∧ reg (0x1480 + 4 * n) (sget 0 s.sb.bufB n)) ∧
    reg 0x1800 (0#24 ++ one t.force ++ one t.rslot ++ 0#5 ++ one t.en) ∧
    reg 0x1804 (rstate ++ t.rreason ++ snap ++ one t.next ++ one t.pnext ++ 0#20) ∧ reg 0x180C (0#27 ++ t.cmask) ∧
    reg 0x1810 t.cadence ∧ reg 0x1814 t.pcadence ∧ pair 0x1818 t.digest ∧ reg 0x2000 (0#30 ++ one s.perfStop ++ 0#1) ∧
    (Canon s → ∀ n : Nat, n < 21 → pair (0x2100 + 8 * n)
      (0#16 ++ (sget 0 s.perf n + if s.perfStop then 0 else BitVec.ofNat 48 (sget 0 s.perfLast n)))) ∧
    (∀ n : Nat, n < 1024 → let v := getFlag s n
      reg (0x4000 + 4 * n) (0#15 ++ one v.lost ++ one v.parked ++ one v.set ++ v.gen ++ BitVec.ofNat 10 n)) ∧
    (∀ n : Nat, n < 512 → let h := getH s n
      pair (0x8000 + 16 * n) (h.gen ++ one h.valid ++ one h.wp ++ one h.win ++ one h.sp ++ one h.wopen ++ h.wgen ++ h.part ++ h.base ++
        h.npages ++ 0#26) ∧
      pair (0x8008 + 16 * n) (h.vstep ++ 0#8 ++ h.vsgen ++ one h.vvalid ++ 0#3))

/-! ### The loader and the memory windows -/

/-- 08 R201 to R204, 17 R378 to R381, R389, R390, 06 R151: LOAD zeroes both memories; during BUSY image writes are held; image bytes are
taken in their order, judged after byte 63 and after the last, and the image is loaded, or the download fails with the reason of the first
failed check and both memories' contents are free values (log 2). While a write is held, or a step is under way, a further one waits (01 R17;
log 40). A host write of data memory stores its bytes, which the next step sees; one of a scratchpad page that no running word accesses (log
13) stores its bytes; one of a page that a snapshot protects waits, and the page is copied first (13 R288). Refused ones change nothing but
their report; where an earlier one of the reporter waits, what would report another happens later (14 R306; log 94). That an image write which
brings byte 63 and also passes FW_LEN fails for its header first is the model's choice (log 104). -/
def Obligations.LoaderAndWindows : Prop :=
  ∀ s : State, hostOk s = true →
    let noted (u : State) (code : Nat) : State := if reporting s 12 then s else
      { u with flt := { s.flt with reports := s.flt.reports ++ [{ code := code, rep := 12, ctx := none }] } }
    let w := s.fw
    let busy : Prop := w.st = .busy
    let receiving : Prop := w.st = .receiving
    let fails (i : Instr) (reason : BitVec 4) : Prop := Answers i s fun t =>
      t = noted { s with
        freeCtr := s.freeCtr + 1, imem := t.imem, imemLen := 0, dmem := t.dmem,
        fw := { w with st := .failed, reason := reason, buf := [], rcvd := t.fw.rcvd, tag := t.fw.tag, held := [] } } fFwLoadFail
    let symbols (g : List Byte) : List (BitVec 9) := (g.zipIdx).map (fun e => (if e.2 = 0 then 1#1 else 0#1) ++ e.1)
    let waits (i : Instr) (a : Nat) (bs : List Byte) : Prop := exec i s = .next { s with mgmt := s.mgmt ++ [.write a bs] }
    (mcOpen s = true → s.core = .addressed → exec .load s = .next { s with
      imem := [], imemLen := 0, dmem := [], dmemStep := [],
      fw := { w with st := .busy, reason := 0, rcvd := 0, crc := 0, tag := 0, buf := [] } }) ∧
    (mcOpen s = true → s.core ≠ .addressed → exec .load s = .next (noted s fFwRefused)) ∧
    (mcOpen s = false → waits .load 0x200 [1, 0, 0, 0]) ∧
    (s.core = .addressed → busy → w.held = [] → s.mgmt = [] →
      (w.len.toNat < 72 → fails .fwZeroComplete 4) ∧
      (72 ≤ w.len.toNat → exec .fwZeroComplete s = .next { s with fw := { w with st := .receiving, held := [] } })) ∧
    (s.core = .addressed → busy → 72 ≤ w.len.toNat → s.mgmt = [] → midStep s = false → ∀ h : FwHeld, w.held = [h] → h.data ≠ [] →
      h.off + h.data.length ≤ 0x50044 → reporting s 12 = false → Answers (.imemWindowWrite h.off h.data) { s with fw := { w with st := .receiving, held := [] } }
        fun t => exec .fwZeroComplete s = .next { t with mcOut := t.mcOut ++ symbols h.resp }) ∧
    (s.core = .addressed → busy → 72 ≤ w.len.toNat → w.held = [] → midStep s = false → ∀ m : Mgmt, s.mgmt = [m] → mgmtHeld s m = false →
      s.flt.reports = [] → s.flt.repAck = [] →
      exec .fwZeroComplete s = .next (doMgmt { s with fw := { w with st := .receiving }, mgmt := [] } m)) ∧
    ∀ (off : Nat) (bs : List Byte), bs ≠ [] →
      (mcOpen s = false →
        (off + bs.length ≤ 0x50044 → waits (.imemWindowWrite off bs) (0x100000 + off) bs) ∧
        (off + bs.length ≤ 65536 → waits (.dmemWindowWrite off bs) (0x200000 + off) bs ∧
          (s.spadWin.toNat ∉ s.st.protSpad → waits (.spadWindowWrite off bs) (0x10000 + off) bs))) ∧
      (off + bs.length ≤ 65536 → s.spadWin.toNat < pageCount s → s.spadWin.toNat ∈ s.st.protSpad →
        let pages := s.st.cur.pages
        let first (q : CopyPage) : Bool := !q.stack && decide (q.addr = s.spadWin.toNat)
        exec (.spadWindowWrite off bs) s = .next { s with
          mgmt := s.mgmt ++ [.write (0x10000 + off) bs],
          st := { s.st with cur := { s.st.cur with pages := pages.filter first ++ pages.filter (fun q => !first q) } } }) ∧
      (mcOpen s = true →
      let i : Instr := .imemWindowWrite off bs
      let img (o : Nat) : Byte := if off ≤ o ∧ o < off + bs.length then bs.getD (o - off) 0 else sget 0 w.buf o
      let run (o n : Nat) : List Byte := (List.range n).map (fun k => img (o + k))
      let num (o n : Nat) : Nat := ofLE (run o n)
      let len := w.len.toNat
      let il := num 8 4
      let dl := num 16 4
      let inOrder : Prop := off = w.rcvd ∧ off + bs.length ≤ len
      let head : Prop := w.rcvd < 64 ∧ 64 ≤ off + bs.length
      let magic : Prop := num 0 4 = 0x46375448
      let version : Prop := magic ∧ num 4 2 = 1
      let zeros : Prop := version ∧ num 6 2 = 0 ∧ ∀ k : Nat, 28 ≤ k → k < 64 → img k = 0
      let sizes : Prop := zeros ∧ il % 4 = 0 ∧ 4 ≤ il ∧ il ≤ 262144 ∧ dl % 4 = 0 ∧ dl ≤ 65536 ∧ len = 68 + il + dl
      let entry : Prop := sizes ∧ num 12 4 < il / 4
      let stored : W32 := BitVec.ofNat 32 (num (len - 4) 4)
      let good : Prop := crc32c (run 0 (len - 4)) = stored
      let tag : W64 := if w.rcvd < 64 ∧ 64 ≤ off + bs.length then BitVec.ofNat 64 (num 20 8) else w.tag
      (off + bs.length ≤ 0x50044 → swf 0 w.buf = true →
        (s.core ≠ .addressed ∨ ¬ busy ∧ ¬ receiving → exec i s = .next (noted s fFwRefused)) ∧
        (s.core = .addressed → busy → exec i s = .next { s with fw := { w with held := [{ off := off, data := bs, resp := [] }] } }) ∧
        (s.core = .addressed → receiving →
          (¬ inOrder → fails i 6) ∧
          (inOrder → head → (¬ magic → fails i 1) ∧ (magic → ¬ version → fails i 2) ∧ (version → ¬ zeros → fails i 3) ∧
            (zeros → ¬ sizes → fails i 4) ∧ (sizes → ¬ entry → fails i 5)) ∧
          (inOrder → (head → entry) → off + bs.length < len → Answers i s fun t =>
            t = { s with fw := { w with buf := t.fw.buf, rcvd := off + bs.length, tag := tag } } ∧
            ∀ o : Nat, sget 0 t.fw.buf o = img o) ∧
          (inOrder → (head → entry) → off + bs.length = len → ¬ good → fails i 7) ∧
          (inOrder → (head → entry) → off + bs.length = len → good → Answers i s fun t =>
            t = { s with
              fw := { w with st := .loaded, rcvd := len, tag := tag, crc := stored, buf := [] }, imem := t.imem, imemLen := il / 4,
              entry := BitVec.ofNat 16 (num 12 4), dmem := t.dmem, core := .loaded } ∧
            (∀ k : Nat, sget 0 t.imem k = if k < il / 4 then img (67 + 4 * k) ++ img (66 + 4 * k) ++ img (65 + 4 * k) ++ img (64 + 4 * k)
              else 0) ∧
            (∀ k : Nat, sget 0 t.dmem k = if k < dl then img (64 + il + k) else 0)))) ∧
      (off + bs.length ≤ 65536 →
        (busy ∨ receiving → exec (.dmemWindowWrite off bs) s = .next (noted s fFwRefused)) ∧
        (¬ busy → ¬ receiving → Canon s → Answers (.dmemWindowWrite off bs) s fun t => t = { s with dmem := t.dmem } ∧
          ∀ k : Nat, sget 0 t.dmem k = (if off ≤ k ∧ k < off + bs.length then bs.getD (k - off) 0 else sget 0 s.dmem k) ∧
            dmemByte t k = sget 0 t.dmem k) ∧
        (let p := s.spadWin.toNat
         let g := getPage s p
         let spills : Prop := s.checked = true ∧ (g.st = 2 ∨ g.st = 1 ∧ g.prod ≠ 0xE)
         let fresh : PageSt := if g.st = 0 then { st := 1, prod := 0xE } else g
         (pageCount s ≤ p → exec (.spadWindowWrite off bs) s = .next (noted s fExtent)) ∧
         (p < pageCount s → p ∉ s.st.protSpad →
           (spills → exec (.spadWindowWrite off bs) s = .next (noted s fUndrained)) ∧
           (¬ spills → Canon s → s.spadErr = [] → s.wbPend = [] → foes s none none (outerFoot (p * 65536 + off) bs.length) = [] →
             Answers (.spadWindowWrite off bs) s fun t => Stores s t { s with pages := t.pages, stepPages := t.stepPages } (storeRuns [(p * 65536 + off, bs)]) ∧
             ∀ q : Nat, getPage t q = if s.checked = true ∧ q = p then fresh else getPage s q)))))

/-! ### Configuration sets -/

/-- 10 R227, R228, R230 to R238, R241, R242, R244 to R246, R248, R249, R251: what BEGIN, SWAP, CANCEL and writes of the Proof set window do
in each of its states. A write is received in order and judged record by record, its header when it has arrived and its payload when it is
whole: a reserved bit, a field outside its range or encoding, an absent feature, a bad partition, a bad FID. END ends the loading; a stream
that passes the store's end before it is OVERFLOW. A write of two parts acts as its parts in turn. After END the set is judged as a whole. That a write's bytes beyond a record that fails are stored
and counted is the model's choice (log 101). Where an earlier report of the reporter waits, what would report another happens later (14 R306;
log 94). -/
def Obligations.ProofSetLoads : Prop :=
  (∀ (ft : Features) (t : Nat) (ws : List W64),
    let w : W64 := ws.getD 0 0
    let all : Nat := 0xFFFFFFFFFFFFFFFF
    let named (i : Nat) : Nat :=
      if t = 0x02 then (if i % 2 = 0 then 0x1FF else 0xFFFFFFFFFC000000)
      else if t = 0x08 then [all, 0xFFFFFF0000000007, 0xFFFFFFFFFFFF, 0xFFFFFFFFFFE00000].getD (i % 4) 0
      else if t = 0x0D then (if i = 0 then 0xFFFF000F else 0xFFFFFFFFFFFFFFF0)
      else [all, 0x3FFFFF, 0, 0x77, 0x1FFF, 0x3FFF, 0x3FFFFFFF, 0x3FF, 0, all, 1, 0xFB, 0x1FFFFF, 0, 0xFFFFFF, 0x3FFFF].getD t all
    let reserved : Prop := ∃ i k : Nat, i < ws.length ∧ k < 64 ∧ (ws.getD i 0).getLsbD k = true ∧ (named i).testBit k = false
    let dims : Nat × Nat := [(1, 1), (1, 2), (2, 1), (2, 2), (2, 4)].getD (fld w 0 3) (0, 0)
    let parts : List (Nat × Nat) := ws.map (fun v => (fld v 0 11, fld v 11 11))
    let entryOk (k e : Nat) : Prop := if codeAssigned k = false then e = 15 else if k = 0xC1 ∨ k = 0xE5 then e = 3 ∨ e = 15 else e ≤ 4 ∨ e = 15
    let value : Prop :=
      t = 0x03 ∧ (4 < fld w 0 3 ∨ dims.1 ≤ fld w 4 1 ∨ dims.2 ≤ fld w 5 2) ∨ t = 0x04 ∧ w.getLsbD 0 = false ∨
      t = 0x05 ∧ (∃ v ∈ ws, fld v 0 7 = 0 ∨ 64 < fld v 0 7 ∨ fld v 7 7 = 0 ∨ 64 < fld v 7 7) ∨
      t = 0x06 ∧ (¬ (ws.map (fun v => fld v 0 10)).Pairwise (fun a b => a < b) ∨ ∃ v ∈ ws, fld v 10 20 = 0xFFFFF) ∨
      t = 0x07 ∧ ((∃ v ∈ ws, 1 < fld v 8 2) ∨ ¬ (ws.map (fun v => fld v 8 2)).Nodup) ∨
      t = 0x08 ∧ ((∃ q ∈ partnersOf ws, 1 < q.pidx ∨ q.rbase % 2097152 ≠ 0 ∨ q.rlen = 0) ∨
        ¬ ((partnersOf ws).map (fun q => q.pidx)).Nodup) ∨
      t = 0x09 ∧ (∃ k : Nat, k < 256 ∧ ¬ entryOk k (fld (ws.getD (k / 16) 0) (4 * (k % 16)) 4)) ∨
      t = 0x0C ∧ (2 ^ (fld w 16 4 + 1) ≤ fld w 0 16 ∨ w.getLsbD 20 = false ∧ (fld w 16 4 ≠ 0 ∨ fld w 0 16 ≠ 0)) ∨
      t = 0x0D ∧ (fld w 16 16 % 8 ≠ 0 ∨ 65536 < fld w 16 16 + 8 * (ws.length - 1) ∨
        ¬ (ws.tail.map (fun v => fld v 48 16)).Pairwise (fun a b => a < b)) ∨
      t = 0x0F ∧ (fld w 0 18 < 25000 ∨ 200000 < fld w 0 18)
    let gang : Prop := t = 0x03 ∧ fld w 0 3 ≠ 0 ∧ ft.gang = false
    let range : Prop := t = 0x01 ∧ ((∃ q ∈ parts, q.2 ≠ 0 ∧ ft.pages < q.1 + q.2) ∨
      ∃ i j g : Nat, i < j ∧ j < parts.length ∧ (parts.getD i (0, 0)).1 ≤ g ∧ g < (parts.getD i (0, 0)).1 + (parts.getD i (0, 0)).2 ∧
        (parts.getD j (0, 0)).1 ≤ g ∧ g < (parts.getD j (0, 0)).1 + (parts.getD j (0, 0)).2)
    let fid : Prop := t = 0x0E ∧ (fld w 0 4 ≠ 0 ∨ fld w 0 24 = 0xFFFFF0)
    (reserved → payloadFault ft t ws = some 0x07) ∧ (¬ reserved → value → payloadFault ft t ws = some 0x08) ∧
    (¬ reserved → ¬ value → (gang → payloadFault ft t ws = some 0x0B) ∧ (range → payloadFault ft t ws = some 0x0C) ∧
      (fid → payloadFault ft t ws = some 0x0E) ∧ (¬ gang → ¬ range → ¬ fid → payloadFault ft t ws = none))) ∧
  ∀ s : State, live s = true →
    let noted (u : State) (code : Nat) : State := if reporting s 12 then s else
      { u with flt := { s.flt with reports := s.flt.reports ++ [{ code := code, rep := 12, ctx := none }] } }
    let refused (i : Instr) : Prop := exec i s = .next (noted s fSetRefused)
    let invalid (u : State) (reason type roff : Nat) : State :=
      noted { u with pstate := .invalid, setRej := BitVec.ofNat 32 (reason * 2 ^ 24 + type * 2 ^ 16 + roff) } fSetInvalid
    let p := s.proof
    let later : Prop := s.core = .loaded ∨ s.core = .ready ∨ s.core = .running ∨ s.core = .held
    (mcOpen s = true →
    (s.pstate ≠ .checking → s.pstate ≠ .pending → exec .begin s = .next { s with pstate := .loading, proof := Stream.none }) ∧
    (s.pstate = .checking ∨ s.pstate = .pending → refused .begin) ∧
    (s.pstate = .valid → later → exec .swap s = .next { s with pstate := .pending }) ∧
    (¬ (s.pstate = .valid ∧ later) → refused .swap) ∧
    (s.pstate = .pending → exec .cancel s = .next { s with pstate := .valid }) ∧ (s.pstate ≠ .pending → refused .cancel) ∧
    (∀ (off : Nat) (bs : List Byte), bs ≠ [] → off < 262144 →
      let i : Instr := .proofWindowWrite off bs
      let n := p.len + bs.length
      let put : State := { s with proof := { p with bytes := sputs 0 p.bytes p.len bs, len := n } }
      let head : W64 := BitVec.ofNat 64 (ofLE (sgets 0 put.proof.bytes p.pos 8))
      let type := fld head 0 8
      let after := p.pos + 8 + fld head 32 32
      let bad := payloadFault s.features type (payloadWords put.proof.bytes p.pos)
      let took (k : Nat) : Stream := { put.proof with recs := p.recs ++ [(type, p.pos)], pos := k }
      (s.pstate ≠ .loading → refused i) ∧
      (s.pstate = .loading → off ≠ p.len → exec i s = .next (invalid s 0x01 0 0)) ∧
      (s.pstate = .loading → off = p.len → n ≤ 262144 →
        (n < p.pos + 8 → exec i s = .next put) ∧
        (∀ r : Nat, p.pos + 8 ≤ n → headerFault p.recs head = some r → exec i s = .next (invalid put r type (p.pos / 8))) ∧
        (p.pos + 8 ≤ n → headerFault p.recs head = none →
          (n < after → exec i s = .next put) ∧
          (∀ r : Nat, after ≤ n → bad = some r → exec i s = .next (invalid put r type (p.pos / 8))) ∧
          (after = n → bad = none → type ≠ 0xFF → exec i s = .next { put with proof := took n }) ∧
          (after = n → bad = none → type = 0xFF → swf 0 p.bytes = true → (∀ k : Nat, p.len ≤ k → sget 0 p.bytes k = 0) →
            Answers i s fun t => t = { s with proof := { took n with bytes := t.proof.bytes }, pstate := .checking } ∧
              ∀ k : Nat, sget 0 t.proof.bytes k = sget 0 put.proof.bytes k) ∧
          (after < n → bad = none → type = 0xFF → reporting s 12 = true → exec i s = .next s) ∧
          (after < n → bad = none → type = 0xFF → reporting s 12 = false → swf 0 p.bytes = true → Answers i s fun t =>
            t = noted { s with proof := { took after with bytes := t.proof.bytes, len := after }, pstate := .checking } fSetRefused ∧
              ∀ k : Nat, k < after → sget 0 t.proof.bytes k = sget 0 put.proof.bytes k))) ∧
      (s.pstate = .loading → off = p.len → 262144 < n → Answers (.proofWindowWrite off (bs.take (262144 - off))) s fun t =>
        (t.pstate = .loading → exec i s = .next (invalid t 0x02 0 0)) ∧ (t.pstate = .invalid → exec i s = .next t) ∧
        (t.pstate = .checking → exec i s = .next (noted t fSetRefused))) ∧
      (∀ (as : List Byte) (t u : State), s.pstate = .loading → off = p.len → swf 0 p.bytes = true → as ≠ [] →
        n + as.length ≤ 262144 → reporting s 12 = false → exec i s = .next t → t.pstate = .loading → exec (.proofWindowWrite n as) t = .next u →
        exec (.proofWindowWrite off (bs ++ as)) s = .next u))) ∧
    (∀ recs : List (Nat × Nat), ∀ h : W64,
      let type := fld h 0 8
      let len := fld h 32 32
      let frame : Prop := len % 8 = 0 ∧ ∀ lo hi unit : Nat, recLen type = some (lo, hi, unit) → lo ≤ len ∧ len ≤ hi ∧ len % unit = 0
      let known : Prop := frame ∧ (1 ≤ type ∧ type ≤ 0xF ∨ type = 0xFF)
      let version : Prop := known ∧ fld h 8 8 = 1
      let once : Prop := version ∧ ∀ r ∈ recs, r.1 ≠ type
      (¬ frame → headerFault recs h = some 0x03) ∧ (frame → ¬ known → headerFault recs h = some 0x04) ∧
      (known → ¬ version → headerFault recs h = some 0x05) ∧ (version → ¬ once → headerFault recs h = some 0x06) ∧
      (once → fld h 16 16 ≠ 0 → headerFault recs h = some 0x07) ∧ (once → fld h 16 16 = 0 → headerFault recs h = none)) ∧
    (s.pstate = .checking →
      let i : Instr := .proofCheckDone
      let crc : Prop := (BitVec.ofNat 64 (ofLE (sgets 0 p.bytes (p.len - 8) 8))).extractLsb' 32 32 = crc32c (sgets 0 p.bytes 0 (p.len - 4))
      let has (t : Nat) : Prop := ∃ r ∈ p.recs, r.1 = t
      let roff (t : Nat) : Nat := match recAt p t with | some o => o / 8 | none => 0xFFFF
      (¬ crc → exec i s = .next (invalid s 0x09 0xFF (roff 0xFF))) ∧
      (crc → ¬ (has 0x0E ∧ has 0x0F) → exec i s = .next (invalid s 0x0A 0 0)) ∧
      let c := cfgOf (pageCount s) p
      let orphan : Prop := ∃ d ∈ c.domain, ∀ q ∈ c.partner, q.pidx ≠ d.1
      let es : List (Nat × W64) := handleEntries ((recWords p 0x02).getD [])
      let one (k : Nat) : Nat × W64 := es.getD k (0, 0)
      let part (k : Nat) : Nat × Nat := c.parts.getD (fld (one k).2 48 3) (0, 0)
      let lo (k : Nat) : Nat := fld (one k).2 37 11
      let hi (k : Nat) : Nat := fld (one k).2 37 11 + fld (one k).2 26 11
      let badEntry : Prop := ∃ k : Nat, k < es.length ∧
        ((one k).2.getLsbD 59 = false ∨ pageCount s < hi k ∨
         lo k < hi k ∧ ¬ ((part k).1 ≤ lo k ∧ hi k ≤ (part k).1 + (part k).2) ∨
         ∃ j : Nat, j < k ∧ ((one j).1 = (one k).1 ∨ ∃ g : Nat, lo j ≤ g ∧ g < hi j ∧ lo k ≤ g ∧ g < hi k))
      let domain (q : Partner) : Option Byte := (c.domain.find? (fun d => d.1 = q.pidx)).map (fun d => d.2)
      let alone : Prop := ∃ q ∈ c.partner, ∀ d ∈ c.domain, d.1 ≠ q.pidx
      let self : Prop := ∃ q ∈ c.partner, q.serial = s.serial ∨ q.pfid = c.fid
      let near : Prop := ∃ q ∈ c.partner, domain q = some s.pwrdom ∧ q.accept = false
      let fails (r t : Nat) : Prop := exec i s = .next (invalid s r t (roff t))
      (crc → has 0x0E → has 0x0F →
        (orphan → fails 0x08 0x07) ∧ (¬ orphan → badEntry → fails 0x0D 0x02) ∧
        (¬ orphan → ¬ badEntry → alone → fails 0x0F 0x08) ∧ (¬ orphan → ¬ badEntry → ¬ alone → self → fails 0x10 0x08) ∧
        (¬ orphan → ¬ badEntry → ¬ alone → ¬ self → near → fails 0x11 0x08) ∧
        (¬ orphan → ¬ badEntry → ¬ alone → ¬ self → ¬ near → exec i s = .next { s with pstate := .valid })))

/-- 09 R219, 10 R229 to R231, R236, R237, R239, R241 to R244, R247 to R251, 12 R270, R274: a pending swap that is due at a boundary and passes
stage two exchanges the sets, puts the set's records in force, with the defaults of those it lacks, and completes the fences with
CR.SET_SWAPPED; one that fails leaves both sets and completes them with CR.SET_REJECTED. A running core's swap is due at the quiescence of
R250 alone, in which a HELD context counts as in no fence (log 36), the Starter engine's requests count among those outstanding (log 32), and
parking counts for nothing (log 49). A core that a restore has loaded keeps its captured epoch, from the load of its class S on (12 R274). Where an
earlier report of the reporter waits, a swap that would report another happens later (14 R306; log 94). A fence whose swap is cancelled completes at the next boundary with neither bit. -/
def Obligations.SetsSwap : Prop :=
  (∀ (s : State) (hold : Bool) (n : Nat) (lines : List (Nat × Nat)) (c : Ctx), awake s = true → s.rstDue = false → s.pstate ≠ .pending → s.mgmt = [] →
    s.pinA = s.linkA → s.pinB = s.linkB → occurrences s = [] → (getCtx s c).run = .waiting →
    (getCtx s c).wait = .sfence ∨ (getCtx s c).wait = .lfence → Answers (.step hold n lines) s fun t =>
      let y := getCtx t c
      y.run = .running ∧ y.wait = .none ∧ y.nextIssue = s.steps + 1 ∧ y.cr.getLsbD 4 = (getCtx s c).cr.getLsbD 4 ∧
      y.cr.getLsbD 5 = (getCtx s c).cr.getLsbD 5) ∧
  ∀ s : State, live s = true → s.pstate = .pending → Canon s →
    let i : Instr := .setSwap
    let p := s.proof
    let going : Prop := s.core = .running ∨ s.core = .held
    let layout : Prop := ∃ r ∈ p.recs, r.1 = 0x0D
    let kind : CtxWait := fenceKind s
    let fenced (x : Context) : Prop := x.run = .waiting ∧ x.wait = kind
    let still (x : Context) : Prop := fenced x ∨ x.run = .halted
    let calm : Prop := (fenced s.c0 ∨ fenced s.c1) ∧ still s.c0 ∧ still s.c1 ∧
      (∀ (c : Ctx) (e : Eng), queueOf (getCtx s c) e = []) ∧ s.running = [] ∧ s.outst = [] ∧ (layout → s.rxTab = [])
    let begun : Prop := s.tmr.progress = false ∧ s.c0.issued = false ∧ s.c1.issued = false ∧ s.stepOps = [] ∧ s.dmemStep = [] ∧
      s.stepSpad = [] ∧ s.stepPages = [] ∧ s.stepAcc = [] ∧ s.stepTrk = [] ∧ s.stepSets = [] ∧ s.stepClears = [] ∧ s.stepMarks = [] ∧
      s.selfFlits = []
    let due : Prop := begun ∧ (s.core = .loaded ∨ s.core = .ready ∨ going ∧ calm)
    let freed (k : Nat) (x y : Context) : Prop :=
      (fenced x → y = { x with run := .running, wait := .none, nextIssue := s.steps, cr := y.cr } ∧
        ∀ j : Nat, j < 32 → y.cr.getLsbD j = (decide (j = k) || x.cr.getLsbD j)) ∧ (¬ fenced x → y = x)
    let words (t : Nat) : Option (List W64) := recWords p t
    let lacks (t : Nat) : Prop := recAt p t = none
    let c := cfgOf (pageCount s) p
    let entries : List (Nat × W64) := handleEntries ((words 0x02).getD [])
    let stageOne : Prop := lacks 0x02 ∨ installHandles (pageCount s) c.parts [] entries ≠ none
    let lent : Nat := if fenced s.c0 ∨ fenced s.c1 then 0 else s.tmr.lendCnt
    let fails (r t : Nat) : Prop := if reporting s 12 then exec i s = .next s else Answers i s fun u =>
      let roff := match recAt p t with | some o => o / 8 | none => 0xFFFF
      u = { s with
        c0 := u.c0, c1 := u.c1, tmr := { s.tmr with lendCnt := lent }, pstate := .invalid, setRej := BitVec.ofNat 32 (r * 2 ^ 24 + t * 2 ^ 16 + roff),
        flt := { s.flt with reports := s.flt.reports ++ [{ code := fSetInvalid, rep := 12, ctx := none }] } } ∧
      freed 5 s.c0 u.c0 ∧ freed 5 s.c1 u.c1
    let handlesLive : Prop := going ∧ ¬ lacks 0x02
    let gangLive : Prop := going ∧ ¬ (c.shape = s.cfg.shape ∧ c.posr = s.cfg.posr ∧ c.posc = s.cfg.posc)
    let fidLive : Prop := going ∧ c.fid ≠ s.cfg.fid
    let stray : Prop := lacks 0x02 ∧ ∃ h : Nat, h < 512 ∧ (getH s h).valid = true ∧ (getH s h).npages ≠ 0 ∧
      let part := c.parts.getD (getH s h).part.toNat (0, 0)
      ¬ (part.1 ≤ (getH s h).base.toNat ∧ (getH s h).base.toNat + (getH s h).npages.toNat ≤ part.1 + part.2)
    let epochLive : Prop := going ∧ ∃ ws : List W64, words 0x0D = some ws ∧ fld (ws.getD 0 0) 0 4 ≠ (s.epoch.toNat + 1) % 16
    (layout → kind = .lfence) ∧ (¬ layout → kind = .sfence) ∧
    (¬ due → exec i s = .next s) ∧
    (due → stageOne → (handlesLive → fails 0x20 0x02) ∧ (¬ handlesLive → gangLive → fails 0x21 0x03) ∧
      (¬ handlesLive → ¬ gangLive → fidLive → fails 0x22 0x0E) ∧ (¬ handlesLive → ¬ gangLive → ¬ fidLive → stray → fails 0x23 0x01) ∧
      (¬ handlesLive → ¬ gangLive → ¬ fidLive → ¬ stray → epochLive → fails 0x24 0x0D)) ∧
    let sameDomain : Prop := ∃ q ∈ c.partner, ∃ d ∈ c.domain, d.1 = q.pidx ∧ d.2 = s.pwrdom
    (due → stageOne → ¬ handlesLive → ¬ gangLive → ¬ fidLive → ¬ stray → ¬ epochLive → sameDomain → reporting s 12 = true →
      exec i s = .next s) ∧
    (due → stageOne → ¬ handlesLive → ¬ gangLive → ¬ fidLive → ¬ stray → ¬ epochLive → ¬ sameDomain ∨ reporting s 12 = false →
      Answers i s fun u =>
      u = { s with
        c0 := u.c0, c1 := u.c1, tmr := { s.tmr with lendCnt := lent }, cfg := c, bakeOn := true, bake := p, proof := if s.bakeOn then s.bake else Stream.none,
        pstate := if s.bakeOn then .valid else .empty, core := if s.core = .loaded then .ready else s.core, checked := c.chk,
        pages := u.pages, accOwn := u.accOwn, handles := u.handles, flags := u.flags, ilPtr := u.ilPtr, epoch := u.epoch, dmem := u.dmem,
        warnDom := u.warnDom, flt := { s.flt with reports := u.flt.reports } } ∧
      freed 4 s.c0 u.c0 ∧ freed 4 s.c1 u.c1 ∧
      (lacks 0x02 → u.handles = s.handles ∧ u.accOwn = s.accOwn ∧ (c.chk = s.checked → u.pages = s.pages) ∧
        (c.chk = true → s.checked = false → ∀ q : Nat, q < pageCount s → getPage u q = { st := 3, prod := 0 })) ∧
      (¬ lacks 0x02 → ∀ h : Nat, h < 512 →
        ((∀ e ∈ entries, e.1 ≠ h) → getH u h = { getH s h with valid := false, vstep := 0, vsgen := 0, vvalid := false }) ∧
        (∀ w : W64, (h, w) ∈ entries → getH u h =
          { gen := (getH s h).gen + 1, valid := true, wp := w.getLsbD 58, win := w.getLsbD 57, sp := w.getLsbD 56, wopen := false,
            wgen := (getH s h).wgen, part := w.extractLsb' 48 3, base := w.extractLsb' 37 11, npages := w.extractLsb' 26 11, vstep := 0,
            vsgen := 0, vvalid := false }) ∧
        (c.chk = true → ∀ q : Nat,
          (getH s h).valid = true ∧ (getH s h).base.toNat ≤ q ∧ q < (getH s h).base.toNat + (getH s h).npages.toNat ∨
          (getH u h).valid = true ∧ (getH u h).base.toNat ≤ q ∧ q < (getH u h).base.toNat + (getH u h).npages.toNat →
          getPage u q = PageSt.empty)) ∧
      (lacks 0x06 → u.flags = s.flags) ∧
      (¬ lacks 0x06 → ∀ f : Nat, f < 1024 → getFlag u f = { getFlag s f with lost := false, parked := false }) ∧
      (lacks 0x0C → u.ilPtr = s.ilPtr) ∧ (¬ lacks 0x0C → u.ilPtr = 0) ∧
      (lacks 0x0D → u.epoch = s.epoch ∧ u.dmem = s.dmem) ∧
      (∀ (h : W64) (es : List W64), words 0x0D = some (h :: es) →
        u.epoch = (if s.st.rstate = .loaded ∨ s.st.rstate = .loading ∧ s.st.restore.stage = 2 then s.epoch else h.extractLsb' 0 4) ∧ ∀ a : Nat,
        let at' : Prop := fld h 16 16 ≤ a ∧ a < fld h 16 16 + 8 * es.length
        let b : Byte := (es.getD ((a - fld h 16 16) / 8) 0).extractLsb' (8 * ((a - fld h 16 16) % 8)) 8
        sget 0 u.dmem a = (if at' then b else sget 0 s.dmem a)) ∧
      (sameDomain → u.warnDom = true ∧ u.flt.reports = s.flt.reports ++ [{ code := fSameDomain, rep := 12, ctx := none }]) ∧
      (¬ sameDomain → u.warnDom = s.warnDom ∧ u.flt.reports = s.flt.reports)) ∧
    (∀ w : W64, (words 0x0E = some [w] → c.fid = w.extractLsb' 0 24) ∧ (words 0x0F = some [w] → c.freq = fld w 0 18) ∧
      (words 0x04 = some [w] → c.formats = w.extractLsb' 0 13) ∧ (words 0x0A = some [w] → c.chk = w.getLsbD 0) ∧
      (words 0x0B = some [w] → c.rlen = w.extractLsb' 0 2 ∧ c.sfen = w.getLsbD 3 ∧ c.sfl = w.extractLsb' 4 4) ∧
      (words 0x0C = some [w] → c.ilMode = w.getLsbD 20 ∧ c.plen = fld w 16 4 ∧ c.pat = w.extractLsb' 0 16) ∧
      (words 0x03 = some [w] → c.shape = fld w 0 3 ∧ c.posr = fld w 4 1 ∧ c.posc = fld w 5 2)) ∧
    (∀ ws : List W64, (words 0x06 = some ws → c.flagmap = ws.map (fun w => (fld w 0 10, w.extractLsb' 10 20))) ∧
      (words 0x01 = some ws → c.parts = ws.map (fun w => (fld w 0 11, fld w 11 11))) ∧
      (words 0x05 = some ws → c.limits = ws.map (fun w => (fld w 0 7, fld w 7 7))) ∧
      (words 0x07 = some ws → c.domain = ws.map (fun w => (fld w 8 2, w.extractLsb' 0 8))) ∧
      (words 0x08 = some ws → ws.length % 4 = 0 → c.partner.length = ws.length / 4 ∧ ∀ k : Nat, k < ws.length / 4 →
        let w (j : Nat) : W64 := ws.getD (4 * k + j) 0
        c.partner[k]? = some { serial := w 0, pfid := (w 1).extractLsb' 40 24, accept := (w 1).getLsbD 2, pidx := fld (w 1) 0 2,
                               rbase := fld (w 2) 0 48, sfid := (w 3).extractLsb' 40 24, rlen := fld (w 3) 21 19 }) ∧
      (words 0x09 = some ws → ∀ k : Nat, k < 256 → (sget 0xF c.faultmap k).toNat = fld (ws.getD (k / 16) 0) (4 * (k % 16)) 4)) ∧
    (lacks 0x04 → c.formats = 0x1FFF) ∧ (lacks 0x06 → c.flagmap = []) ∧ (lacks 0x07 → c.domain = []) ∧ (lacks 0x08 → c.partner = []) ∧ (lacks 0x09 → c.faultmap = []) ∧
    (lacks 0x0A → c.chk = true) ∧ (lacks 0x0B → c.rlen = 1 ∧ c.sfen = false) ∧ (lacks 0x0C → c.ilMode = false) ∧
    (lacks 0x03 → c.shape = 0) ∧ (lacks 0x05 → c.limits = List.replicate 6 (64, 64)) ∧
    (lacks 0x01 → c.parts = (0, pageCount s) :: List.replicate 7 (0, 0))

/-! ### Host commands -/

/-- 09 R206, R218, R222, 14 R308, R316 to R318, 15 R347 to R349, 17 R386, 08 R178, R195: what a run control command, a write of the flag
window, a release, and the clears do; a refused run control command changes nothing but its report. Releases take effect at the next
boundary, before its occurrences. 01 R17, 15 R336, R348: a host command acts between two steps; one that arrives within a step, or behind
another, waits as its write, and the boundary carries out what waits. What CRST leaves (log 35), what GO starts (log 38), and which registers
a waiting write reaches before the boundary's own updates (log 81), are the model's choices. Where an earlier report of the reporter waits, a
command that would be refused is taken later (14 R306; log 94). -/
def Obligations.HostCommands : Prop :=
  ∀ s : State, hostOk s = true →
    let f := s.flt
    let st := s.st
    let noted (u : State) (code : Nat) : State := if reporting s 12 then s else
      { u with flt := { f with reports := f.reports ++ [{ code := code, rep := 12, ctx := none }] } }
    let refused (i : Instr) : Prop := exec i s = .next (noted s fStRefused)
    let holdFree : Prop := f.holdCore = false ∧ s.c0.hold = false ∧ s.c1.hold = false ∧ f.resetReq = false
    let free : Prop := holdFree ∧ st.rstate ≠ .loading ∧ st.rstate ≠ .refused
    let fromEntry : Context := { s.c0 with pc := s.entry, run := .running, wait := .none }
    let own : BitVec 20 := s.cfg.fid.extractLsb' 4 20
    let toAll (kind : BitVec 4) : SyncOut := { flit := kind ++ 0xFFFFF#20 ++ own ++ 0#20, word := none }
    let later : Prop := s.core = .loaded ∨ s.core = .ready ∨ s.core = .running ∨ s.core = .held
    let open' : Prop := s.core = .ready ∨ s.core = .running ∨ s.core = .held
    let onChain : Prop := s.core = .running ∨ s.core = .held
    let begun : Prop := s.tmr.progress = false ∧ s.c0.issued = false ∧ s.c1.issued = false ∧ s.stepOps = [] ∧ s.dmemStep = [] ∧
      s.stepSpad = [] ∧ s.stepPages = [] ∧ s.stepAcc = [] ∧ s.stepTrk = []
    let put (a : Nat) (v : W32) : Mgmt := .write a (toLE 4 v.toNat)
    let waits (i : Instr) (m : Mgmt) : Prop := exec i s = .next { s with mgmt := s.mgmt ++ [m] }
    (mcOpen s = true ↔ s.fw.held = [] ∧ s.mgmt = [] ∧ begun) ∧
    (mcOpen s = false →
      waits .go (put 0x104 1) ∧ waits .park (put 0x104 2) ∧ waits .unpark (put 0x104 4) ∧ waits (.crst .c0) (put 0x104 8) ∧
      waits (.crst .c1) (put 0x104 16) ∧ waits .begin (put 0x400 1) ∧ waits .swap (put 0x400 4) ∧ waits .cancel (put 0x400 8) ∧
      waits (.relContext .c0) (put 0x85C 1) ∧ waits (.relContext .c1) (put 0x85C 2) ∧ waits .relCore (put 0x85C 4) ∧
      (∀ m : BitVec 16, waits (.fltWireClear m) (put 0x858 (0#16 ++ m))) ∧
      (∀ stop : Bool, waits (.clear stop) (put 0x2000 (if stop then 3 else 1))) ∧
      (open' → ∀ (k : BitVec 10) (g : BitVec 4), waits (.setcmd k) (put (0x4000 + 4 * k.toNat) 0x80000000) ∧
        waits (.lostclr k) (put (0x4000 + 4 * k.toNat) 0x20000000) ∧
        waits (.clrcmd k g) (put (0x4000 + 4 * k.toNat) (1#2 ++ 0#16 ++ g ++ 0#10))) ∧
      (∀ (a : BitVec 24) (v : W32), a.toNat % 4 = 0 → a.toNat < 0x10000 ∨ 0x20000 ≤ a.toNat → waits (.registerWrite a v) (put a.toNat v)) ∧
      (∀ (k : Bool) (n : BitVec 4) (v : W32), waits (.stepParamWrite k n v) (put ((if k then 0x1480 else 0x1440) + 4 * n.toNat) v) ∧
        waits (.stepNumLoWrite v) (put 0x1400 v) ∧ waits (.stepNumHiWrite v) (put 0x1404 v) ∧
        (fld v 0 4 = (if k then 2 else 1) → waits (.stepParamValid k v) (put 0x1408 v)) ∧
        (fld v 0 4 = (if k then 8 else 4) → waits (.stepParamWithdraw k v) (put 0x1408 v)) ∧
        (v.getLsbD 5 = true → waits (.restore v) (put 0x1800 v)) ∧ (v.getLsbD 7 = true → waits (.force v) (put 0x1800 v))) ∧
      (∀ (o : Nat) (bs : List Byte), bs ≠ [] → o < 262144 → waits (.proofWindowWrite o bs) (.write (0x400000 + o) bs)) ∧
      (∀ (o : Nat) (ws : List W32), o % 4 = 0 → o + 4 * ws.length ≤ 0x2000 →
        waits (.handleWindowWrite o ws) (.write (0x8000 + o) (ws.flatMap (fun v => toLE 4 v.toNat))))) ∧
    (∀ (hold : Bool) (n : Nat) (lines : List (Nat × Nat)) (m : Mgmt), s.rstDue = false → s.fw.held = [] → s.mgmt = [m] →
      Answers (.step hold n lines) s fun t =>
        (∀ v : W32, (m = put 0x300 v → t.mgmt = [] ∧ t.spadWin = v.extractLsb' 0 11) ∧
          (m = put 0xC00 v → t.mgmt = [] ∧ t.tmr.dlWindow = v) ∧ (m = put 0x854 v → t.mgmt = [] ∧ t.flt.rest = v)) ∧
        (∀ v : W32, m = put 0xC04 v → v.getLsbD 31 = true → t.mgmt = [] ∧
          ∀ k : Nat, k < 32 → t.tmr.dlStatus.getLsbD k = (s.tmr.dlStatus.getLsbD k && decide (k ≠ 31))) ∧
        (m = put 0x104 2 → onChain → s.parked = false → t.mgmt = [] ∧ t.parked = true) ∧
        (m = put 0x104 4 → s.parked = true → t.mgmt = [] ∧ t.parked = false) ∧
        (m = put 0x400 8 → s.pstate = .pending → t.mgmt = [] ∧ t.pstate = .valid) ∧
        (∀ (o : Nat) (bs : List Byte), m = .write (0x200000 + o) bs → o + bs.length ≤ 65536 → s.fw.st ≠ .busy → s.fw.st ≠ .receiving →
          Canon s → t.mgmt = [] ∧ ∀ k : Nat, sget 0 t.dmem k = if o ≤ k ∧ k < o + bs.length then bs.getD (k - o) 0 else sget 0 s.dmem k)) ∧
    (mcOpen s = true →
    (free → s.core = .ready → st.rstate = .loaded →
      exec .go s = .next { s with core := .running, st := { st with rstate := .replaying } }) ∧
    (free → s.core = .ready → st.rstate ≠ .loaded →
      exec .go s = .next { s with
        core := .running, ilPtr := 0, c0 := fromEntry, c1 := { s.c1 with run := .halted },
        tmr := { s.tmr with lendCnt := if s.c0.run = .running then s.tmr.lendCnt else 0 } }) ∧
    (free → s.core = .running → s.c0.run = .halted →
      exec .go s = .next { s with ilPtr := 0, c0 := fromEntry, tmr := { s.tmr with lendCnt := 0 } }) ∧
    (¬ (free ∧ (s.core = .ready ∨ s.core = .running ∧ s.c0.run = .halted)) → refused .go) ∧
    (onChain → s.parked = false → exec .park s = .next { s with parked := true, syncQ := s.syncQ ++ [toAll 3] }) ∧
    (¬ (onChain ∧ s.parked = false) → refused .park) ∧
    (s.parked = true → exec .unpark s = .next { s with parked := false, syncQ := s.syncQ ++ [toAll 4] }) ∧
    (s.parked = false → refused .unpark) ∧
    (∀ c : Ctx, (¬ later → refused (.crst c)) ∧ (later → Answers (.crst c) s fun t =>
      let other := getCtx s (otherCtx c)
      let ended (id : Nat) : Prop := ∃ r ∈ s.running, r.ctx = c ∧ r.id = id
      t = setCtx { s with
        running := t.running, outst := t.outst, retired := t.retired, units := t.units, mesh := t.mesh, syncQ := t.syncQ, st := { st with todo := t.st.todo },
        stepOps := s.stepOps.filter (fun o => o.ctx ≠ c),
        flt := { f with actHold := if f.holdCore || other.hold then f.actHold else 0 } } c Context.reset ∧
      t.running.map (fun r => (r.id, r.eng, r.ctx, r.word, r.handles)) =
        (s.running.filter (fun r => r.ctx ≠ c)).map (fun r => (r.id, r.eng, r.ctx, r.word, r.handles)) ∧
      (∀ o : Outst, o ∈ t.outst → o ∈ s.outst ∧ ∀ id : Nat, o.owner = .word id → ¬ ended id) ∧
      (∀ o : Outst, o ∈ s.outst → o.owner ≠ .starter → (∀ id : Nat, o.owner = .word id → ¬ ended id) → o ∈ t.outst) ∧
      (∀ o : SyncOut, o ∈ t.syncQ ↔ o ∈ s.syncQ ∧ ∀ id : Nat, o.word = some id → ¬ ended id) ∧
      ((∀ r ∈ s.running, r.ctx = c → ∀ k : Nat, r.job ≠ .seal (k + 1)) → t.st.todo = st.todo))) ∧
    (∀ (k : BitVec 10) (g : BitVec 4),
      (open' → exec (.setcmd k) s = .next { s with stepSets := s.stepSets ++ [(k.toNat, none)] } ∧
        exec (.clrcmd k g) s = .next { s with stepClears := s.stepClears ++ [(k.toNat, g)] } ∧
        (Canon s → Answers (.lostclr k) s fun t => t = { s with flags := t.flags, tmr := { s.tmr with progress := t.tmr.progress } } ∧
          (t.tmr.progress = true ↔ s.tmr.progress = true ∨ (getFlag s k.toNat).lost = true ∨ (getFlag s k.toNat).parked = true) ∧ ∀ j : Nat,
          getFlag t j = if j = k.toNat then { getFlag s j with lost := false, parked := false } else getFlag s j)) ∧
      (¬ open' → exec (.setcmd k) s = .next s ∧ exec (.clrcmd k g) s = .next s ∧ exec (.lostclr k) s = .next s)) ∧
    (exec (.relContext .c0) s = .next { s with flt := { f with rel0 := true } }) ∧
    (exec (.relContext .c1) s = .next { s with flt := { f with rel1 := true } }) ∧
    (exec .relCore s = .next { s with flt := { f with relC := true } }) ∧
    (∀ m : BitVec 16, exec (.fltWireClear m) s = .next { s with flt := { f with wire := f.wire &&& ~~~m } }) ∧
    (∀ stop : Bool, exec (.clear stop) s = .next { s with perfStop := stop, perf := [] })) ∧
    (∀ (hold : Bool) (n : Nat) (lines : List (Nat × Nat)), s.rstDue = false → s.mgmt = [] → s.pinA = s.linkA → s.pinB = s.linkB →
      Answers (.step hold n lines) s fun t =>
      let rel (c : Ctx) : Bool := if c = .c0 then f.rel0 else f.rel1
      let own (c : Ctx) : Bool := (getCtx s c).hold && rel c
      let core : Bool := f.relC && f.holdCore && !f.resetReq
      let left : Bool := (s.c0.hold && !f.rel0) || (s.c1.hold && !f.rel1) || (f.holdCore && !core)
      t.flt.rel0 = false ∧ t.flt.rel1 = false ∧ t.flt.relC = false ∧
      (occurrences s = [] →
        t.flt.holdCore = (f.holdCore && !core) ∧ t.core = (if core = true ∧ s.core = .held then .running else s.core) ∧
        t.flt.actHold = (if (own .c0 || own .c1 || core) && !left then 0 else f.actHold) ∧
        (∀ c : Ctx, let x := getCtx s c
          let leaves : Prop := x.run = .held ∧ (own c || core) = true ∧ (x.hold = false ∨ rel c = true) ∧ (f.holdCore = false ∨ core = true)
          (getCtx t c).hold = (x.hold && !rel c) ∧ (x.run = .held → ¬ leaves → (getCtx t c).run = .held) ∧
          (leaves → (getCtx t c).cr.getLsbD 6 = true ∧ (x.wait = .none → (getCtx t c).run = x.saved)) ∧
          (¬ leaves → (getCtx t c).cr.getLsbD 6 = x.cr.getLsbD 6))) ∧
      (f.reports = [] → f.wireDue = 0 → core = true → f.fin = true → f.wire.getLsbD 14 = false →
        effReact s { code := fFin, rep := 14, ctx := none } = .holdCore →
        t.flt.holdCore = true ∧ t.flt.sticky.getLsbD fFin = true ∧ t.c0.run = .held ∧ t.c1.run = .held ∧
        t.core = (if s.core = .running ∨ s.core = .held then .held else s.core)))

/-- 00 R10, R11, 06 R144, 14 R323, 15 R347, 17 R373, R388: a write of a register acts under its access code; a write of a command register
acts as the command whose bit it sets; one of a read-only or unassigned offset changes nothing. A write of a whole handle entry allocates or
frees it, a refused or a half one changes nothing but its report, entries in ascending order; a state bit of a page that an access of the
step has set stays set (01 R28). O59 says when such a write acts (log 81). Where an earlier report of the reporter waits, a write that would report
another is taken later; several reports of one frame wait together (14 R306; log 94). -/
def Obligations.HostWrites : Prop :=
  ∀ s : State, mcOpen s = true →
    let u := seqDone s
    let f := s.flt
    let noted (u : State) (code : Nat) : State := if reporting s 12 then s else
      { u with flt := { f with reports := f.reports ++ [{ code := code, rep := 12, ctx := none }] } }
    let w (a : BitVec 24) (v : W32) (t : State) : Prop := exec (.registerWrite a v) s = .next t
    let readOnly : List (BitVec 24) := [0x0, 0x4, 0x8, 0xC, 0x10, 0x14, 0x18, 0x100, 0x204, 0x208, 0x20C, 0x214, 0x408, 0x40C, 0x410, 0x800,
      0x81C, 0x844, 0x848, 0xC0C, 0x1000, 0x1004, 0x1008, 0x100C, 0x1010, 0x1804, 0x1808, 0x1818, 0x181C, 0x2100, 0x5000, 0xA000, 0x20000]
    (∀ (v : W32) (a : BitVec 24), a ∈ readOnly → w a v s) ∧
    (∀ v : W32,
      (v.extractLsb' 0 5 = 1 → exec (.registerWrite 0x104 v) s = exec .go s) ∧ (v.extractLsb' 0 5 = 2 → exec (.registerWrite 0x104 v) s = exec .park s) ∧
      (v.extractLsb' 0 5 = 4 → exec (.registerWrite 0x104 v) s = exec .unpark s) ∧
      (v.extractLsb' 0 5 = 8 → exec (.registerWrite 0x104 v) s = exec (.crst .c0) s) ∧
      (v.extractLsb' 0 5 = 16 → exec (.registerWrite 0x104 v) s = exec (.crst .c1) s) ∧
      (v.extractLsb' 0 5 ∉ [0, 1, 2, 4, 8, 16] → w 0x104 v (noted s fStRefused)) ∧
      (v.getLsbD 0 = true → exec (.registerWrite 0x200 v) s = exec .load s) ∧
      (s.core = .addressed → s.fw.st ≠ .busy → s.fw.st ≠ .receiving → w 0x210 v { s with fw := { s.fw with len := v } }) ∧
      (s.core ≠ .addressed ∨ s.fw.st = .busy ∨ s.fw.st = .receiving → w 0x210 v (noted s fFwRefused)) ∧
      w 0x300 v { s with spadWin := v.extractLsb' 0 11 } ∧
      (v.extractLsb' 0 4 = 1 → exec (.registerWrite 0x400 v) s = exec .begin s) ∧
      (v.extractLsb' 0 4 = 4 → exec (.registerWrite 0x400 v) s = exec .swap s) ∧
      (v.extractLsb' 0 4 = 8 → exec (.registerWrite 0x400 v) s = exec .cancel s) ∧
      (v.extractLsb' 0 4 = 12 → w 0x400 v (noted s fSetRefused)) ∧
      (v.getLsbD 5 = true → w 0x404 v { s with warnDom := false }) ∧
      (∀ n : Nat, n < 8 → ∀ t : State, w (BitVec.ofNat 24 (0x820 + 4 * n)) v t →
        t = { s with flt := { f with sticky := t.flt.sticky } } ∧ ∀ k : Nat, k < 256 →
          t.flt.sticky.getLsbD k = (f.sticky.getLsbD k && !(decide (k / 32 = n) && v.getLsbD (k % 32)))) ∧
      (v.getLsbD 31 = true → w 0x840 v { s with flt := { f with fValid := false } }) ∧ w 0x84C v { s with flt := { f with count := v } } ∧
      w 0x850 v { s with flt := { f with recov := v.extractLsb' 0 16 } } ∧ w 0x854 v { s with flt := { f with rest := v } } ∧
      exec (.registerWrite 0x858 v) s = exec (.fltWireClear (v.extractLsb' 0 16)) s ∧
      (v.extractLsb' 0 3 = 0 → w 0x85C v s) ∧ (v.extractLsb' 0 3 = 1 → exec (.registerWrite 0x85C v) s = exec (.relContext .c0) s) ∧
      (v.extractLsb' 0 3 = 2 → exec (.registerWrite 0x85C v) s = exec (.relContext .c1) s) ∧
      (v.extractLsb' 0 3 = 4 → exec (.registerWrite 0x85C v) s = exec .relCore s) ∧
      w 0xC00 v { s with tmr := { s.tmr with dlWindow := v } } ∧ w 0xC08 v { s with tmr := { s.tmr with lendThr := v } } ∧
      exec (.registerWrite 0x1400 v) s = exec (.stepNumLoWrite v) s ∧ exec (.registerWrite 0x1404 v) s = exec (.stepNumHiWrite v) s ∧
      (let fields : StepBlk := { u.sb with
         en := v.getLsbD 31, leader := v.getLsbD 30, gflag := v.extractLsb' 20 10, rqflag := v.extractLsb' 10 10 }
       v.extractLsb' 0 4 = 0 → (s.core = .running ∨ s.core = .held → fields = u.sb) →
         ¬ (v.getLsbD 31 = true ∧ v.extractLsb' 20 10 = v.extractLsb' 10 10) → w 0x1408 v { u with sb := fields }) ∧
      (∀ b : Bool, (v.extractLsb' 0 4 = (if b then 2 else 1) → exec (.registerWrite 0x1408 v) s = exec (.stepParamValid b v) s) ∧
        (v.extractLsb' 0 4 = (if b then 8 else 4) → exec (.registerWrite 0x1408 v) s = exec (.stepParamWithdraw b v) s) ∧
        ∀ n : BitVec 4, exec (.registerWrite (BitVec.ofNat 24 ((if b then 0x1480 else 0x1440) + 4 * n.toNat)) v) s =
          exec (.stepParamWrite b n v) s) ∧
      (v.getLsbD 5 = true → exec (.registerWrite 0x1800 v) s = exec (.restore v) s) ∧
      (v.getLsbD 5 = false → w 0x1800 v { s with st := { s.st with
        en := v.getLsbD 0, rslot := v.getLsbD 6, force := s.st.force || v.getLsbD 7 } }) ∧
      w 0x180C v { s with st := { s.st with cmask := v.extractLsb' 0 5 ||| 1 } } ∧ w 0x1810 v { s with st := { s.st with cadence := v } } ∧
      w 0x1814 v { s with st := { s.st with pcadence := v } } ∧
      (v.getLsbD 0 = true → exec (.registerWrite 0x2000 v) s = exec (.clear (v.getLsbD 1)) s) ∧
      (v.getLsbD 0 = false → w 0x2000 v { s with perfStop := v.getLsbD 1 }) ∧
      (∀ k : BitVec 10, let a : BitVec 24 := BitVec.ofNat 24 (0x4000 + 4 * k.toNat)
        (v.extractLsb' 29 3 = 4 ∨ v.extractLsb' 29 3 = 6 → exec (.registerWrite a v) s = exec (.setcmd k) s) ∧
        (v.extractLsb' 29 3 = 2 → exec (.registerWrite a v) s = exec (.clrcmd k (v.extractLsb' 10 4)) s) ∧
        (v.extractLsb' 29 3 = 1 → exec (.registerWrite a v) s = exec (.lostclr k) s) ∧ (v.extractLsb' 29 3 = 0 → w a v s))) ∧
    (∀ (h : Nat) (lo hi : W32), h < 512 → Canon s →
      let i : Instr := .handleWindowWrite (16 * h) [lo, hi]
      let word : W64 := hi ++ lo
      let e := getH s h
      let base := fld word 37 11
      let n := fld word 26 11
      let part := s.cfg.parts.getD (fld word 48 3) (0, 0)
      let refused : Prop := exec i s = .next (noted s fHRefused)
      let fits : Prop := base + n ≤ pageCount s ∧ (n ≠ 0 → part.1 ≤ base ∧ base + n ≤ part.1 + part.2) ∧
        ∀ k : Nat, k < 512 → k ≠ h → (getH s k).valid = true → ∀ p : Nat, base ≤ p ∧ p < base + n →
          ¬ ((getH s k).base.toNat ≤ p ∧ p < (getH s k).base.toNat + (getH s k).npages.toNat)
      let acts (v : Handle) (first m : Nat) : Prop := Answers i s fun t => t = { s with handles := t.handles, pages := t.pages, accOwn := t.accOwn } ∧
        (∀ k : Nat, getH t k = if k = h then v else getH s k) ∧
        ∀ p : Nat, getPage t p = if s.checked = true ∧ first ≤ p ∧ p < first + m then emptied (pageBase s p) (getPage s p) else getPage s p
      (s.core = .running → refused) ∧
      (s.core ≠ .running → word.getLsbD 59 = true → e.valid = false → fits → acts
        { gen := e.gen + 1, valid := true, wp := word.getLsbD 58, win := word.getLsbD 57, sp := word.getLsbD 56, wopen := false,
          wgen := e.wgen, part := word.extractLsb' 48 3, base := word.extractLsb' 37 11, npages := word.extractLsb' 26 11, vstep := 0,
          vsgen := 0, vvalid := false } base n) ∧
      (s.core ≠ .running → word.getLsbD 59 = true → e.valid = true → refused) ∧
      (s.core ≠ .running → word.getLsbD 59 = false → e.valid = true → inUse s h = false →
        acts { e with valid := false } e.base.toNat e.npages.toNat) ∧
      (s.core ≠ .running → word.getLsbD 59 = false → e.valid = false ∨ inUse s h = true → refused) ∧
      (exec (.handleWindowWrite (16 * h) [lo]) s = .next (noted s fHRefused)) ∧
      (exec (.handleWindowWrite (16 * h + 4) [hi]) s = .next (noted s fHRefused)) ∧
      (exec (.handleWindowWrite (16 * h + 8) [lo, hi]) s = .next s) ∧
      (∀ ws : List W32, 4 * h + ws.length ≤ 2048 → reporting s 12 = false →
        exec (.handleWindowWrite (16 * h) ws) s = .next (hostHandles (4 * h) ws s)) ∧
      (∀ (x y : W32) (ws : List W32) (t : State), h + ws.length / 4 + 1 < 512 → reporting s 12 = false →
        exec (.handleWindowWrite (16 * h) [lo, hi, x, y]) s = .next t →
        exec (.handleWindowWrite (16 * h) (lo :: hi :: x :: y :: ws)) s = .next (hostHandles (4 * (h + 1)) ws t)))
end

