-- ==== Sys2Proof/Laws/Dispatch.lean ====
section
/-! SUPPORT. The meaning that each command calls, one equation per arm, so that no proof unfolds the dispatch. -/

namespace Sys2Proof.Machine

variable (s : State)

@[simp] theorem exec_step (hold : Bool) (periods : Nat) (lines : List (Nat × Nat)) : exec (.step hold periods lines) s = execStep hold periods lines s := rfl
@[simp] theorem exec_eccWriteback (w : Nat) : exec (.eccWriteback w) s = execEccWriteback w s := rfl
@[simp] theorem exec_scrub (bank : Nat) : exec (.scrub bank) s = execScrub bank s := rfl
@[simp] theorem exec_add (c : Ctx) (rd ra rb : BitVec 5) : exec (.add c rd ra rb) s = execAdd c rd ra rb s := rfl
@[simp] theorem exec_sub (c : Ctx) (rd ra rb : BitVec 5) : exec (.sub c rd ra rb) s = execSub c rd ra rb s := rfl
@[simp] theorem exec_and (c : Ctx) (rd ra rb : BitVec 5) : exec (.and c rd ra rb) s = execAnd c rd ra rb s := rfl
@[simp] theorem exec_or (c : Ctx) (rd ra rb : BitVec 5) : exec (.or c rd ra rb) s = execOr c rd ra rb s := rfl
@[simp] theorem exec_xor (c : Ctx) (rd ra rb : BitVec 5) : exec (.xor c rd ra rb) s = execXor c rd ra rb s := rfl
@[simp] theorem exec_sll (c : Ctx) (rd ra rb : BitVec 5) : exec (.sll c rd ra rb) s = execSll c rd ra rb s := rfl
@[simp] theorem exec_srl (c : Ctx) (rd ra rb : BitVec 5) : exec (.srl c rd ra rb) s = execSrl c rd ra rb s := rfl
@[simp] theorem exec_sra (c : Ctx) (rd ra rb : BitVec 5) : exec (.sra c rd ra rb) s = execSra c rd ra rb s := rfl
@[simp] theorem exec_slt (c : Ctx) (rd ra rb : BitVec 5) : exec (.slt c rd ra rb) s = execSlt c rd ra rb s := rfl
@[simp] theorem exec_sltu (c : Ctx) (rd ra rb : BitVec 5) : exec (.sltu c rd ra rb) s = execSltu c rd ra rb s := rfl
@[simp] theorem exec_mul (c : Ctx) (rd ra rb : BitVec 5) : exec (.mul c rd ra rb) s = execMul c rd ra rb s := rfl
@[simp] theorem exec_mulhu (c : Ctx) (rd ra rb : BitVec 5) : exec (.mulhu c rd ra rb) s = execMulhu c rd ra rb s := rfl
@[simp] theorem exec_addi (c : Ctx) (rd ra : BitVec 5) (imm : BitVec 16) : exec (.addi c rd ra imm) s = execAddi c rd ra imm s := rfl
@[simp] theorem exec_andi (c : Ctx) (rd ra : BitVec 5) (imm : BitVec 16) : exec (.andi c rd ra imm) s = execAndi c rd ra imm s := rfl
@[simp] theorem exec_ori (c : Ctx) (rd ra : BitVec 5) (imm : BitVec 16) : exec (.ori c rd ra imm) s = execOri c rd ra imm s := rfl
@[simp] theorem exec_xori (c : Ctx) (rd ra : BitVec 5) (imm : BitVec 16) : exec (.xori c rd ra imm) s = execXori c rd ra imm s := rfl
@[simp] theorem exec_slti (c : Ctx) (rd ra : BitVec 5) (imm : BitVec 16) : exec (.slti c rd ra imm) s = execSlti c rd ra imm s := rfl
@[simp] theorem exec_shi (c : Ctx) (rd ra : BitVec 5) (imm : BitVec 16) : exec (.shi c rd ra imm) s = execShi c rd ra imm s := rfl
@[simp] theorem exec_lui (c : Ctx) (rd : BitVec 5) (imm : BitVec 16) : exec (.lui c rd imm) s = execLui c rd imm s := rfl
@[simp] theorem exec_lw (c : Ctx) (rd ra : BitVec 5) (imm : BitVec 16) : exec (.lw c rd ra imm) s = execLw c rd ra imm s := rfl
@[simp] theorem exec_sw (c : Ctx) (rd ra : BitVec 5) (imm : BitVec 16) : exec (.sw c rd ra imm) s = execSw c rd ra imm s := rfl
@[simp] theorem exec_lde (c : Ctx) (ed : BitVec 3) (ra : BitVec 5) (imm : BitVec 16) : exec (.lde c ed ra imm) s = execLde c ed ra imm s := rfl
@[simp] theorem exec_ste (c : Ctx) (ed : BitVec 3) (ra : BitVec 5) (imm : BitVec 16) : exec (.ste c ed ra imm) s = execSte c ed ra imm s := rfl
@[simp] theorem exec_beq (c : Ctx) (ra rb : BitVec 5) (off : BitVec 16) : exec (.beq c ra rb off) s = execBeq c ra rb off s := rfl
@[simp] theorem exec_bne (c : Ctx) (ra rb : BitVec 5) (off : BitVec 16) : exec (.bne c ra rb off) s = execBne c ra rb off s := rfl
@[simp] theorem exec_blt (c : Ctx) (ra rb : BitVec 5) (off : BitVec 16) : exec (.blt c ra rb off) s = execBlt c ra rb off s := rfl
@[simp] theorem exec_bge (c : Ctx) (ra rb : BitVec 5) (off : BitVec 16) : exec (.bge c ra rb off) s = execBge c ra rb off s := rfl
@[simp] theorem exec_bltu (c : Ctx) (ra rb : BitVec 5) (off : BitVec 16) : exec (.bltu c ra rb off) s = execBltu c ra rb off s := rfl
@[simp] theorem exec_bgeu (c : Ctx) (ra rb : BitVec 5) (off : BitVec 16) : exec (.bgeu c ra rb off) s = execBgeu c ra rb off s := rfl
@[simp] theorem exec_jal (c : Ctx) (rd : BitVec 5) (off : BitVec 21) : exec (.jal c rd off) s = execJal c rd off s := rfl
@[simp] theorem exec_jalr (c : Ctx) (rd ra : BitVec 5) (imm : BitVec 16) : exec (.jalr c rd ra imm) s = execJalr c rd ra imm s := rfl
@[simp] theorem exec_bcr (c : Ctx) (mask : BitVec 10) (off : BitVec 16) : exec (.bcr c mask off) s = execBcr c mask off s := rfl
@[simp] theorem exec_crclr (c : Ctx) (mask : BitVec 10) : exec (.crclr c mask) s = execCrclr c mask s := rfl
@[simp] theorem exec_efldi (c : Ctx) (ed : BitVec 3) (pos : BitVec 7) (imm : BitVec 16) : exec (.efldi c ed pos imm) s = execEfldi c ed pos imm s := rfl
@[simp] theorem exec_efld (c : Ctx) (ed : BitVec 3) (pos : BitVec 7) (ra lenm1 : BitVec 5) : exec (.efld c ed pos ra lenm1) s = execEfld c ed pos ra lenm1 s := rfl
@[simp] theorem exec_erd (c : Ctx) (rd : BitVec 5) (es : BitVec 3) (k : BitVec 2) : exec (.erd c rd es k) s = execErd c rd es k s := rfl
@[simp] theorem exec_issue (c : Ctx) (ed : BitVec 3) : exec (.issue c ed) s = execIssue c ed s := rfl
@[simp] theorem exec_fset (c : Ctx) (ra : BitVec 5) : exec (.fset c ra) s = execFset c ra s := rfl
@[simp] theorem exec_fclr (c : Ctx) (ra : BitVec 5) : exec (.fclr c ra) s = execFclr c ra s := rfl
@[simp] theorem exec_fwait (c : Ctx) (ra : BitVec 5) : exec (.fwait c ra) s = execFwait c ra s := rfl
@[simp] theorem exec_frd (c : Ctx) (rd ra : BitVec 5) : exec (.frd c rd ra) s = execFrd c rd ra s := rfl
@[simp] theorem exec_halloc (c : Ctx) (rd ra rb : BitVec 5) : exec (.halloc c rd ra rb) s = execHalloc c rd ra rb s := rfl
@[simp] theorem exec_hfree (c : Ctx) (rd ra rb : BitVec 5) : exec (.hfree c rd ra rb) s = execHfree c rd ra rb s := rfl
@[simp] theorem exec_hrebase (c : Ctx) (rd ra rb : BitVec 5) : exec (.hrebase c rd ra rb) s = execHrebase c rd ra rb s := rfl
@[simp] theorem exec_hflags (c : Ctx) (rd ra rb : BitVec 5) : exec (.hflags c rd ra rb) s = execHflags c rd ra rb s := rfl
@[simp] theorem exec_hdrain (c : Ctx) (rd ra rb : BitVec 5) : exec (.hdrain c rd ra rb) s = execHdrain c rd ra rb s := rfl
@[simp] theorem exec_hrd (c : Ctx) (rd ra rb : BitVec 5) : exec (.hrd c rd ra rb) s = execHrd c rd ra rb s := rfl
@[simp] theorem exec_srd (c : Ctx) (rd : BitVec 5) (num : BitVec 12) : exec (.srd c rd num) s = execSrd c rd num s := rfl
@[simp] theorem exec_sfence (c : Ctx) : exec (.sfence c) s = execSfence c s := rfl
@[simp] theorem exec_snapf (c : Ctx) (ra : BitVec 5) : exec (.snapf c ra) s = execSnapf c ra s := rfl
@[simp] theorem exec_lfence (c : Ctx) : exec (.lfence c) s = execLfence c s := rfl
@[simp] theorem exec_halt (c : Ctx) : exec (.halt c) s = execHalt c s := rfl
@[simp] theorem exec_cstart (c : Ctx) (ra : BitVec 5) : exec (.cstart c ra) s = execCstart c ra s := rfl
@[simp] theorem exec_fwIllegal (c : Ctx) (w : BitVec 32) : exec (.fwIllegal c w) s = execFwIllegal c w s := rfl
@[simp] theorem exec_fwPcRange (c : Ctx) : exec (.fwPcRange c) s = execFwPcRange c s := rfl
@[simp] theorem exec_waitSatisfied (w : WaitRef) : exec (.waitSatisfied w) s = execWaitSatisfied w s := rfl
@[simp] theorem exec_wordComplete (id : Nat) : exec (.wordComplete id) s = execWordComplete id s := rfl
@[simp] theorem exec_mnop (c : Ctx) (w : W128) : exec (.mnop c w) s = execMnop c w s := rfl
@[simp] theorem exec_mset (c : Ctx) (w : W128) : exec (.mset c w) s = execMset c w s := rfl
@[simp] theorem exec_mma (c : Ctx) (w : W128) (g : GangIn) : exec (.mma c w g) s = execMma c w g s := rfl
@[simp] theorem exec_mdrain (c : Ctx) (w : W128) : exec (.mdrain c w) s = execMdrain c w s := rfl
@[simp] theorem exec_mzero (c : Ctx) (w : W128) : exec (.mzero c w) s = execMzero c w s := rfl
@[simp] theorem exec_mma6 (c : Ctx) (w : W128) (g : GangIn) : exec (.mma6 c w g) s = execMma6 c w g s := rfl
@[simp] theorem exec_vnop (c : Ctx) (w : W128) : exec (.vnop c w) s = execVnop c w s := rfl
@[simp] theorem exec_vadd (c : Ctx) (w : W128) : exec (.vadd c w) s = execVadd c w s := rfl
@[simp] theorem exec_vsub (c : Ctx) (w : W128) : exec (.vsub c w) s = execVsub c w s := rfl
@[simp] theorem exec_vmul (c : Ctx) (w : W128) : exec (.vmul c w) s = execVmul c w s := rfl
@[simp] theorem exec_vfma (c : Ctx) (w : W128) : exec (.vfma c w) s = execVfma c w s := rfl
@[simp] theorem exec_vmin (c : Ctx) (w : W128) : exec (.vmin c w) s = execVmin c w s := rfl
@[simp] theorem exec_vmax (c : Ctx) (w : W128) : exec (.vmax c w) s = execVmax c w s := rfl
@[simp] theorem exec_vabs (c : Ctx) (w : W128) : exec (.vabs c w) s = execVabs c w s := rfl
@[simp] theorem exec_vneg (c : Ctx) (w : W128) : exec (.vneg c w) s = execVneg c w s := rfl
@[simp] theorem exec_vsqrt (c : Ctx) (w : W128) : exec (.vsqrt c w) s = execVsqrt c w s := rfl
@[simp] theorem exec_vrcp (c : Ctx) (w : W128) : exec (.vrcp c w) s = execVrcp c w s := rfl
@[simp] theorem exec_vrsqrt (c : Ctx) (w : W128) : exec (.vrsqrt c w) s = execVrsqrt c w s := rfl
@[simp] theorem exec_vexp2 (c : Ctx) (w : W128) : exec (.vexp2 c w) s = execVexp2 c w s := rfl
@[simp] theorem exec_vlog2 (c : Ctx) (w : W128) : exec (.vlog2 c w) s = execVlog2 c w s := rfl
@[simp] theorem exec_vand (c : Ctx) (w : W128) : exec (.vand c w) s = execVand c w s := rfl
@[simp] theorem exec_vor (c : Ctx) (w : W128) : exec (.vor c w) s = execVor c w s := rfl
@[simp] theorem exec_vxor (c : Ctx) (w : W128) : exec (.vxor c w) s = execVxor c w s := rfl
@[simp] theorem exec_vshl (c : Ctx) (w : W128) : exec (.vshl c w) s = execVshl c w s := rfl
@[simp] theorem exec_vshr (c : Ctx) (w : W128) : exec (.vshr c w) s = execVshr c w s := rfl
@[simp] theorem exec_vsra (c : Ctx) (w : W128) : exec (.vsra c w) s = execVsra c w s := rfl
@[simp] theorem exec_vcmp (c : Ctx) (w : W128) : exec (.vcmp c w) s = execVcmp c w s := rfl
@[simp] theorem exec_vsel (c : Ctx) (w : W128) : exec (.vsel c w) s = execVsel c w s := rfl
@[simp] theorem exec_mlogic (c : Ctx) (w : W128) : exec (.mlogic c w) s = execMlogic c w s := rfl
@[simp] theorem exec_vslide (c : Ctx) (w : W128) : exec (.vslide c w) s = execVslide c w s := rfl
@[simp] theorem exec_viota (c : Ctx) (w : W128) : exec (.viota c w) s = execViota c w s := rfl
@[simp] theorem exec_vcompress (c : Ctx) (w : W128) : exec (.vcompress c w) s = execVcompress c w s := rfl
@[simp] theorem exec_vsplat (c : Ctx) (w : W128) : exec (.vsplat c w) s = execVsplat c w s := rfl
@[simp] theorem exec_vred (c : Ctx) (w : W128) : exec (.vred c w) s = execVred c w s := rfl
@[simp] theorem exec_vscan (c : Ctx) (w : W128) : exec (.vscan c w) s = execVscan c w s := rfl
@[simp] theorem exec_vcvt (c : Ctx) (w : W128) : exec (.vcvt c w) s = execVcvt c w s := rfl
@[simp] theorem exec_vcast (c : Ctx) (w : W128) : exec (.vcast c w) s = execVcast c w s := rfl
@[simp] theorem exec_vmxe (c : Ctx) (w : W128) : exec (.vmxe c w) s = execVmxe c w s := rfl
@[simp] theorem exec_vmxd (c : Ctx) (w : W128) : exec (.vmxd c w) s = execVmxd c w s := rfl
@[simp] theorem exec_vtrkRead (c : Ctx) (w : W128) : exec (.vtrkRead c w) s = execVtrkRead c w s := rfl
@[simp] theorem exec_vtrkWrite (c : Ctx) (w : W128) : exec (.vtrkWrite c w) s = execVtrkWrite c w s := rfl
@[simp] theorem exec_vtrkReset (c : Ctx) (w : W128) : exec (.vtrkReset c w) s = execVtrkReset c w s := rfl
@[simp] theorem exec_vtrkAdvance (c : Ctx) (w : W128) : exec (.vtrkAdvance c w) s = execVtrkAdvance c w s := rfl
@[simp] theorem exec_vrand (c : Ctx) (w : W128) : exec (.vrand c w) s = execVrand c w s := rfl
@[simp] theorem exec_vload (c : Ctx) (w : W128) : exec (.vload c w) s = execVload c w s := rfl
@[simp] theorem exec_vstore (c : Ctx) (w : W128) : exec (.vstore c w) s = execVstore c w s := rfl
@[simp] theorem exec_vgather (c : Ctx) (w : W128) : exec (.vgather c w) s = execVgather c w s := rfl
@[simp] theorem exec_vscatter (c : Ctx) (w : W128) : exec (.vscatter c w) s = execVscatter c w s := rfl
@[simp] theorem exec_vacc (c : Ctx) (w : W128) : exec (.vacc c w) s = execVacc c w s := rfl
@[simp] theorem exec_vstat (c : Ctx) (w : W128) : exec (.vstat c w) s = execVstat c w s := rfl
@[simp] theorem exec_rnop (c : Ctx) (w : W128) : exec (.rnop c w) s = execRnop c w s := rfl
@[simp] theorem exec_lnf (c : Ctx) (w : W128) : exec (.lnf c w) s = execLnf c w s := rfl
@[simp] theorem exec_rmsf (c : Ctx) (w : W128) : exec (.rmsf c w) s = execRmsf c w s := rfl
@[simp] theorem exec_smf (c : Ctx) (w : W128) : exec (.smf c w) s = execSmf c w s := rfl
@[simp] theorem exec_rset (c : Ctx) (w : W128) : exec (.rset c w) s = execRset c w s := rfl
@[simp] theorem exec_lnb (c : Ctx) (w : W128) : exec (.lnb c w) s = execLnb c w s := rfl
@[simp] theorem exec_rmsb (c : Ctx) (w : W128) : exec (.rmsb c w) s = execRmsb c w s := rfl
@[simp] theorem exec_smb (c : Ctx) (w : W128) : exec (.smb c w) s = execSmb c w s := rfl
@[simp] theorem exec_rsave (c : Ctx) (w : W128) : exec (.rsave c w) s = execRsave c w s := rfl
@[simp] theorem exec_rload (c : Ctx) (w : W128) : exec (.rload c w) s = execRload c w s := rfl
@[simp] theorem exec_rowDone (u : Nat) : exec (.rowDone u) s = execRowDone u s := rfl
@[simp] theorem exec_dnop (c : Ctx) (w : W128) : exec (.dnop c w) s = execDnop c w s := rfl
@[simp] theorem exec_dxfer (c : Ctx) (w : W128) : exec (.dxfer c w) s = execDxfer c w s := rfl
@[simp] theorem exec_dwopen (c : Ctx) (w : W128) : exec (.dwopen c w) s = execDwopen c w s := rfl
@[simp] theorem exec_dwclose (c : Ctx) (w : W128) : exec (.dwclose c w) s = execDwclose c w s := rfl
@[simp] theorem exec_stkRdSend (ch : BitVec 2) (starter : Bool) (idx : BitVec 9) : exec (.stkRdSend ch starter idx) s = execStkRdSend ch starter idx s := rfl
@[simp] theorem exec_stkWrSend (ch : BitVec 2) (starter : Bool) (idx : BitVec 9) : exec (.stkWrSend ch starter idx) s = execStkWrSend ch starter idx s := rfl
@[simp] theorem exec_winWrSend (ch : BitVec 2) (idx : BitVec 9) : exec (.winWrSend ch idx) s = execWinWrSend ch idx s := rfl
@[simp] theorem exec_stkRdRsp (p : Port) (route : BitVec 48) (hdr : BitVec 128) (data : BitVec 512) : exec (.stkRdRsp p route hdr data) s = execStkRdRsp p route hdr data s := rfl
@[simp] theorem exec_stkWrAck (p : Port) (route : BitVec 48) (hdr : BitVec 128) (data : BitVec 512) : exec (.stkWrAck p route hdr data) s = execStkWrAck p route hdr data s := rfl
@[simp] theorem exec_winAck (p : Port) (route : BitVec 48) (hdr : BitVec 128) (data : BitVec 512) : exec (.winAck p route hdr data) s = execWinAck p route hdr data s := rfl
@[simp] theorem exec_nack (p : Port) (route : BitVec 48) (hdr : BitVec 128) (data : BitVec 512) : exec (.nack p route hdr data) s = execNack p route hdr data s := rfl
@[simp] theorem exec_fabricFlitDiscard (p : Port) (route : BitVec 48) (hdr : BitVec 128) (data : BitVec 512) : exec (.fabricFlitDiscard p route hdr data) s = execFabricFlitDiscard p route hdr data s := rfl
@[simp] theorem exec_winWrReceive (p : Port) (route : BitVec 48) (hdr : BitVec 128) (data : BitVec 512) : exec (.winWrReceive p route hdr data) s = execWinWrReceive p route hdr data s := rfl
@[simp] theorem exec_winAckSend (p : Port) : exec (.winAckSend p) s = execWinAckSend p s := rfl
@[simp] theorem exec_snop (c : Ctx) (w : W128) : exec (.snop c w) s = execSnop c w s := rfl
@[simp] theorem exec_srset (c : Ctx) (w : W128) : exec (.srset c w) s = execSrset c w s := rfl
@[simp] theorem exec_sall (c : Ctx) (w : W128) : exec (.sall c w) s = execSall c w s := rfl
@[simp] theorem exec_setFlit (f : W64) : exec (.setFlit f) s = execSetFlit f s := rfl
@[simp] theorem exec_lostFlit (f : W64) : exec (.lostFlit f) s = execLostFlit f s := rfl
@[simp] theorem exec_parkFlit (f : W64) : exec (.parkFlit f) s = execParkFlit f s := rfl
@[simp] theorem exec_unparkFlit (f : W64) : exec (.unparkFlit f) s = execUnparkFlit f s := rfl
@[simp] theorem exec_stepStartFlit (f : W64) : exec (.stepStartFlit f) s = execStepStartFlit f s := rfl
@[simp] theorem exec_stepMismatchFlit (f : W64) : exec (.stepMismatchFlit f) s = execStepMismatchFlit f s := rfl
@[simp] theorem exec_stepStartSend : exec (.stepStartSend) s = execStepStartSend s := rfl
@[simp] theorem exec_stepAdmit : exec (.stepAdmit) s = execStepAdmit s := rfl
@[simp] theorem exec_tnop (c : Ctx) (w : W128) : exec (.tnop c w) s = execTnop c w s := rfl
@[simp] theorem exec_sfold (c : Ctx) (w : W128) : exec (.sfold c w) s = execSfold c w s := rfl
@[simp] theorem exec_sseal (c : Ctx) (w : W128) : exec (.sseal c w) s = execSseal c w s := rfl
@[simp] theorem exec_setSwap : exec (.setSwap) s = execSetSwap s := rfl
@[simp] theorem exec_snapshotCapture : exec (.snapshotCapture) s = execSnapshotCapture s := rfl
@[simp] theorem exec_captureComplete : exec (.captureComplete) s = execCaptureComplete s := rfl
@[simp] theorem exec_pRecordSample : exec (.pRecordSample) s = execPRecordSample s := rfl
@[simp] theorem exec_copyPage : exec (.copyPage) s = execCopyPage s := rfl
@[simp] theorem exec_restoreLoad : exec (.restoreLoad) s = execRestoreLoad s := rfl
@[simp] theorem exec_localDeadlock : exec (.localDeadlock) s = execLocalDeadlock s := rfl
@[simp] theorem exec_restExpiry : exec (.restExpiry) s = execRestExpiry s := rfl
@[simp] theorem exec_lendOffer : exec (.lendOffer) s = execLendOffer s := rfl
@[simp] theorem exec_stepRateWindow (nominal : BitVec 24) : exec (.stepRateWindow nominal) s = execStepRateWindow nominal s := rfl
@[simp] theorem exec_activityUpdate : exec (.activityUpdate) s = execActivityUpdate s := rfl
@[simp] theorem exec_budgetSample (code : Byte) : exec (.budgetSample code) s = execBudgetSample code s := rfl
@[simp] theorem exec_tbaseLost : exec (.tbaseLost) s = execTbaseLost s := rfl
@[simp] theorem exec_wire (r : BitVec 4) : exec (.wire r) s = execWire r s := rfl
@[simp] theorem exec_pmRiseReq : exec (.pmRiseReq) s = execPmRiseReq s := rfl
@[simp] theorem exec_pmRiseGnt : exec (.pmRiseGnt) s = execPmRiseGnt s := rfl
@[simp] theorem exec_fillerStop : exec (.fillerStop) s = execFillerStop s := rfl
@[simp] theorem exec_rstNAssert (req : List Byte) : exec (.rstNAssert req) s = execRstNAssert req s := rfl
@[simp] theorem exec_rstNRelease (die : BitVec 48) (inst : BitVec 16) (pwr : Byte) : exec (.rstNRelease die inst pwr) s = execRstNRelease die inst pwr s := rfl
@[simp] theorem exec_selfInitComplete : exec (.selfInitComplete) s = execSelfInitComplete s := rfl
@[simp] theorem exec_supplyChange (vcore vmem : Nat) : exec (.supplyChange vcore vmem) s = execSupplyChange vcore vmem s := rfl
@[simp] theorem exec_supplyLoss (vcore vmem : Nat) : exec (.supplyLoss vcore vmem) s = execSupplyLoss vcore vmem s := rfl
@[simp] theorem exec_finAlarm : exec (.finAlarm) s = execFinAlarm s := rfl
@[simp] theorem exec_linkDown (p : Port) : exec (.linkDown p) s = execLinkDown p s := rfl
@[simp] theorem exec_linkdownDeassert (p : Port) : exec (.linkdownDeassert p) s = execLinkdownDeassert p s := rfl
@[simp] theorem exec_rd (f : List Byte) : exec (.rd f) s = execRd f s := rfl
@[simp] theorem exec_wr (f : List Byte) : exec (.wr f) s = execWr f s := rfl
@[simp] theorem exec_wrBroadcast (f : List Byte) : exec (.wrBroadcast f) s = execWrBroadcast f s := rfl
@[simp] theorem exec_enum (f : List Byte) : exec (.enum f) s = execEnum f s := rfl
@[simp] theorem exec_frameForward (syms : List (BitVec 9)) : exec (.frameForward syms) s = execFrameForward syms s := rfl
@[simp] theorem exec_registerWrite (a : BitVec 24) (v : W32) : exec (.registerWrite a v) s = execRegisterWrite a v s := rfl
@[simp] theorem exec_go : exec (.go) s = execGo s := rfl
@[simp] theorem exec_park : exec (.park) s = execPark s := rfl
@[simp] theorem exec_unpark : exec (.unpark) s = execUnpark s := rfl
@[simp] theorem exec_crst (c : Ctx) : exec (.crst c) s = execCrst c s := rfl
@[simp] theorem exec_load : exec (.load) s = execLoad s := rfl
@[simp] theorem exec_fwZeroComplete : exec (.fwZeroComplete) s = execFwZeroComplete s := rfl
@[simp] theorem exec_imemWindowWrite (off : Nat) (bs : List Byte) : exec (.imemWindowWrite off bs) s = execImemWindowWrite off bs s := rfl
@[simp] theorem exec_dmemWindowWrite (off : Nat) (bs : List Byte) : exec (.dmemWindowWrite off bs) s = execDmemWindowWrite off bs s := rfl
@[simp] theorem exec_spadWindowWrite (off : Nat) (bs : List Byte) : exec (.spadWindowWrite off bs) s = execSpadWindowWrite off bs s := rfl
@[simp] theorem exec_begin : exec (.begin) s = execBegin s := rfl
@[simp] theorem exec_swap : exec (.swap) s = execSwap s := rfl
@[simp] theorem exec_cancel : exec (.cancel) s = execCancel s := rfl
@[simp] theorem exec_proofWindowWrite (off : Nat) (bs : List Byte) : exec (.proofWindowWrite off bs) s = execProofWindowWrite off bs s := rfl
@[simp] theorem exec_proofCheckDone : exec (.proofCheckDone) s = execProofCheckDone s := rfl
@[simp] theorem exec_setcmd (f : BitVec 10) : exec (.setcmd f) s = execSetcmd f s := rfl
@[simp] theorem exec_clrcmd (f : BitVec 10) (g : BitVec 4) : exec (.clrcmd f g) s = execClrcmd f g s := rfl
@[simp] theorem exec_lostclr (f : BitVec 10) : exec (.lostclr f) s = execLostclr f s := rfl
@[simp] theorem exec_handleWindowWrite (off : Nat) (ws : List W32) : exec (.handleWindowWrite off ws) s = execHandleWindowWrite off ws s := rfl
@[simp] theorem exec_stepParamWrite (b : Bool) (n : BitVec 4) (v : W32) : exec (.stepParamWrite b n v) s = execStepParamWrite b n v s := rfl
@[simp] theorem exec_stepParamValid (b : Bool) (v : W32) : exec (.stepParamValid b v) s = execStepParamValid b v s := rfl
@[simp] theorem exec_stepParamWithdraw (b : Bool) (v : W32) : exec (.stepParamWithdraw b v) s = execStepParamWithdraw b v s := rfl
@[simp] theorem exec_stepNumLoWrite (v : W32) : exec (.stepNumLoWrite v) s = execStepNumLoWrite v s := rfl
@[simp] theorem exec_stepNumHiWrite (v : W32) : exec (.stepNumHiWrite v) s = execStepNumHiWrite v s := rfl
@[simp] theorem exec_relContext (c : Ctx) : exec (.relContext c) s = execRelContext c s := rfl
@[simp] theorem exec_relCore : exec (.relCore) s = execRelCore s := rfl
@[simp] theorem exec_fltWireClear (m : BitVec 16) : exec (.fltWireClear m) s = execFltWireClear m s := rfl
@[simp] theorem exec_force (v : W32) : exec (.force v) s = execForce v s := rfl
@[simp] theorem exec_restore (v : W32) : exec (.restore v) s = execRestore v s := rfl
@[simp] theorem exec_clear (stop : Bool) : exec (.clear stop) s = execClear stop s := rfl
@[simp] theorem exec_wsBypass (code : Byte) (wsi : List Bool) : exec (.wsBypass code wsi) s = execWsBypass s code wsi := rfl
@[simp] theorem exec_wsExtest (pins : Nat) (wsi : List Bool) : exec (.wsExtest pins wsi) s = execWsExtest s pins wsi := rfl
@[simp] theorem exec_wsPreload (wsi : List Bool) : exec (.wsPreload wsi) s = execWsPreload s wsi := rfl
@[simp] theorem exec_wsIntestScan (wsi : List Bool) : exec (.wsIntestScan wsi) s = execWsIntestScan s wsi := rfl
@[simp] theorem exec_wsClamp (wsi : List Bool) : exec (.wsClamp wsi) s = execWsClamp s wsi := rfl
@[simp] theorem exec_wsSafe (wsi : List Bool) : exec (.wsSafe wsi) s = execWsSafe s wsi := rfl
@[simp] theorem exec_wtMbist : exec (.wtMbist) s = execWtMbist s := rfl
@[simp] theorem exec_wtLbist : exec (.wtLbist) s = execWtLbist s := rfl
@[simp] theorem exec_wtRing : exec (.wtRing) s = execWtRing s := rfl
@[simp] theorem exec_wtResult (wsi : List Bool) : exec (.wtResult wsi) s = execWtResult s wsi := rfl
@[simp] theorem exec_testDone (pass : Bool) (bank : BitVec 6) (words : BitVec 24) (wrck : W32) : exec (.testDone pass bank words wrck) s = execTestDone pass bank words wrck s := rfl
@[simp] theorem exec_wrstnLow : exec (.wrstnLow) s = execWrstnLow s := rfl
@[simp] theorem exec_errType (f : List Byte) : exec (.errType f) s = execErrType f s := rfl
@[simp] theorem exec_tbaseReturn : exec (.tbaseReturn) s = execTbaseReturn s := rfl
@[simp] theorem exec_finQuiet : exec (.finQuiet) s = execFinQuiet s := rfl
@[simp] theorem exec_pmRiseGntLower : exec (.pmRiseGntLower) s = execPmRiseGntLower s := rfl
@[simp] theorem exec_supplyUp (vcore vmem : Nat) : exec (.supplyUp vcore vmem) s = execSupplyUp vcore vmem s := rfl

end Sys2Proof.Machine
end

