-- ==== Sys2Proof/Laws/Encode.lean ====
section
/-! SUPPORT. Each encoding of 08 R181 as its fields in order, the fields read back, and which words are legal. -/

namespace Sys2Proof.Machine

/-- Two fields laid side by side, as a number. -/
theorem toNat_append_add {m n : Nat} (x : BitVec m) (y : BitVec n) : (x ++ y).toNat = x.toNat * 2 ^ n + y.toNat := by
  rw [BitVec.toNat_append, ← Nat.shiftLeft_add_eq_or_of_lt y.isLt, Nat.shiftLeft_eq]

theorem encR_fields (op : Nat) (rd ra rb : BitVec 5) (fn : Nat) (hf : fn < 2048) :
    encR op rd ra rb fn = (BitVec.ofNat 6 op ++ rd ++ ra ++ rb ++ BitVec.ofNat 11 fn : W32) := by
  apply BitVec.eq_of_toNat_eq
  have := rd.isLt; have := ra.isLt; have := rb.isLt
  unfold encR
  rw [toNat_append_add, toNat_append_add, toNat_append_add, toNat_append_add]
  simp only [BitVec.toNat_ofNat]
  omega
theorem encI_fields (op : Nat) (rd ra : BitVec 5) (imm : BitVec 16) :
    encI op rd ra imm = (BitVec.ofNat 6 op ++ rd ++ ra ++ imm : W32) := by
  apply BitVec.eq_of_toNat_eq
  have := rd.isLt; have := ra.isLt; have := imm.isLt
  unfold encI
  rw [toNat_append_add, toNat_append_add, toNat_append_add]
  simp only [BitVec.toNat_ofNat]
  omega
theorem encB_fields (op : Nat) (ra rb : BitVec 5) (off : BitVec 16) :
    encB op ra rb off = (BitVec.ofNat 6 op ++ ra ++ rb ++ off : W32) := encI_fields op ra rb off
theorem encJ_fields (op : Nat) (rd : BitVec 5) (off : BitVec 21) :
    encJ op rd off = (BitVec.ofNat 6 op ++ rd ++ off : W32) := by
  apply BitVec.eq_of_toNat_eq
  have := rd.isLt; have := off.isLt
  unfold encJ
  rw [toNat_append_add, toNat_append_add]
  simp only [BitVec.toNat_ofNat]
  omega
theorem encEI_fields (op : Nat) (ed : BitVec 3) (pos : BitVec 7) (imm : BitVec 16) :
    encEI op ed pos imm = (BitVec.ofNat 6 op ++ ed ++ pos ++ imm : W32) := by
  apply BitVec.eq_of_toNat_eq
  have := ed.isLt; have := pos.isLt; have := imm.isLt
  unfold encEI
  rw [toNat_append_add, toNat_append_add, toNat_append_add]
  simp only [BitVec.toNat_ofNat]
  omega
theorem encER_fields (op : Nat) (ed : BitVec 3) (pos : BitVec 7) (ra l : BitVec 5) :
    encER op ed pos ra l = (BitVec.ofNat 6 op ++ ed ++ pos ++ ra ++ l ++ 0#6 : W32) := by
  apply BitVec.eq_of_toNat_eq
  have := ed.isLt; have := pos.isLt; have := ra.isLt; have := l.isLt
  unfold encER
  rw [toNat_append_add, toNat_append_add, toNat_append_add, toNat_append_add, toNat_append_add]
  simp only [BitVec.toNat_ofNat]
  omega
theorem encC_fields (op : Nat) (m : BitVec 10) (off : BitVec 16) :
    encC op m off = (BitVec.ofNat 6 op ++ m ++ off : W32) := by
  apply BitVec.eq_of_toNat_eq
  have := m.isLt; have := off.isLt
  unfold encC
  rw [toNat_append_add, toNat_append_add]
  simp only [BitVec.toNat_ofNat]
  omega

/-! ### Fields read back -/

theorem fld_encR {op : Nat} {rd ra rb : BitVec 5} {fn : Nat} (ho : op < 64) (hf : fn < 2048) :
    fld (encR op rd ra rb fn) 26 6 = op ∧ fld (encR op rd ra rb fn) 21 5 = rd.toNat ∧ fld (encR op rd ra rb fn) 16 5 = ra.toNat ∧
      fld (encR op rd ra rb fn) 11 5 = rb.toNat ∧ fld (encR op rd ra rb fn) 0 11 = fn := by
  have := rd.isLt; have := ra.isLt; have := rb.isLt
  unfold encR fld
  simp only [BitVec.toNat_ofNat, Nat.shiftRight_eq_div_pow]
  omega
theorem fld_encI {op : Nat} {rd ra : BitVec 5} {imm : BitVec 16} (ho : op < 64) :
    fld (encI op rd ra imm) 26 6 = op ∧ fld (encI op rd ra imm) 21 5 = rd.toNat ∧ fld (encI op rd ra imm) 16 5 = ra.toNat ∧
      fld (encI op rd ra imm) 0 16 = imm.toNat ∧ fld (encI op rd ra imm) 5 2 = fld imm 5 2 ∧
      fld (encI op rd ra imm) 7 9 = fld imm 7 9 ∧ fld (encI op rd ra imm) 12 4 = fld imm 12 4 ∧
      fld (encI op rd ra imm) 0 12 = fld imm 0 12 := by
  have := rd.isLt; have := ra.isLt; have := imm.isLt
  unfold encI fld
  simp only [BitVec.toNat_ofNat, Nat.shiftRight_eq_div_pow]
  omega
theorem fld_encJ {op : Nat} {rd : BitVec 5} {off : BitVec 21} (ho : op < 64) : fld (encJ op rd off) 26 6 = op := by
  have := rd.isLt; have := off.isLt
  unfold encJ fld
  simp only [BitVec.toNat_ofNat, Nat.shiftRight_eq_div_pow]
  omega
theorem fld_encEI {op : Nat} {ed : BitVec 3} {pos : BitVec 7} {imm : BitVec 16} (ho : op < 64) :
    fld (encEI op ed pos imm) 26 6 = op ∧ fld (encEI op ed pos imm) 16 7 = pos.toNat ∧ fld (encEI op ed pos imm) 0 23 =
      pos.toNat * 65536 + imm.toNat := by
  have := ed.isLt; have := pos.isLt; have := imm.isLt
  unfold encEI fld
  simp only [BitVec.toNat_ofNat, Nat.shiftRight_eq_div_pow]
  omega
theorem fld_encER {op : Nat} {ed : BitVec 3} {pos : BitVec 7} {ra l : BitVec 5} (ho : op < 64) :
    fld (encER op ed pos ra l) 26 6 = op ∧ fld (encER op ed pos ra l) 16 7 = pos.toNat ∧
      fld (encER op ed pos ra l) 6 5 = l.toNat ∧ fld (encER op ed pos ra l) 0 6 = 0 := by
  have := ed.isLt; have := pos.isLt; have := ra.isLt; have := l.isLt
  unfold encER fld
  simp only [BitVec.toNat_ofNat, Nat.shiftRight_eq_div_pow]
  omega
theorem fld_encC {op : Nat} {m : BitVec 10} {off : BitVec 16} (ho : op < 64) :
    fld (encC op m off) 26 6 = op ∧ fld (encC op m off) 0 16 = off.toNat := by
  have := m.isLt; have := off.isLt
  unfold encC fld
  simp only [BitVec.toNat_ofNat, Nat.shiftRight_eq_div_pow]
  omega

/-! ### Legal words (08 R182) -/

variable {rd ra rb : BitVec 5} {imm : BitVec 16}

theorem legal_alu {fn : Nat} (h : fn ≤ 0x00B) : legalWord (encR 0 rd ra rb fn) = true := by
  obtain ⟨h1, h2, h3, h4, h5⟩ := fld_encR (op := 0) (rd := rd) (ra := ra) (rb := rb) (fn := fn) (by omega) (by omega)
  unfold legalWord
  simp [h1, h5, h]
theorem legal_immediate {op : Nat} (h : 1 ≤ op ∧ op ≤ 5 ∨ op = 8 ∨ op = 9 ∨ op = 0x17) : legalWord (encI op rd ra imm) = true := by
  obtain ⟨h1, -⟩ := fld_encI (op := op) (rd := rd) (ra := ra) (imm := imm) (by omega)
  unfold legalWord
  rw [h1]
  rcases h with ⟨ha, hb⟩ | rfl | rfl | rfl
  · have : op = 1 ∨ op = 2 ∨ op = 3 ∨ op = 4 ∨ op = 5 := by omega
    rcases this with rfl | rfl | rfl | rfl | rfl <;> rfl
  all_goals rfl
theorem legal_shi (h : fld imm 5 2 ≠ 3) (k : fld imm 7 9 = 0) : legalWord (encI 6 rd ra imm) = true := by
  obtain ⟨h1, h2, h3, h4, h5, h6, h7⟩ := fld_encI (op := 6) (rd := rd) (ra := ra) (imm := imm) (by omega)
  unfold legalWord
  simp [h1, h5, h6, h, k]
theorem legal_lui : legalWord (encI 7 rd 0 imm) = true := by
  obtain ⟨h1, h2, h3, -⟩ := fld_encI (op := 7) (rd := rd) (ra := 0) (imm := imm) (by omega)
  unfold legalWord
  rw [h1, h3]
  rfl
theorem legal_estage {op : Nat} {ed : BitVec 3} (h : op = 0x0A ∨ op = 0x0B) :
    legalWord (encI op (ed.zeroExtend 5) ra imm) = true := by
  obtain ⟨h1, h2, -⟩ := fld_encI (op := op) (rd := ed.zeroExtend 5) (ra := ra) (imm := imm) (by omega)
  have : (ed.zeroExtend 5).toNat < 8 := by
    have := ed.isLt
    simp only [BitVec.truncate_eq_setWidth, BitVec.toNat_setWidth]
    omega
  unfold legalWord
  rw [h1, h2]
  rcases h with rfl | rfl <;> simpa using this
theorem legal_branch {op : Nat} {off : BitVec 16} (h : 0x10 ≤ op) (k : op ≤ 0x18) : legalWord (encB op ra rb off) = true := by
  obtain ⟨h1, -⟩ := fld_encI (op := op) (rd := ra) (ra := rb) (imm := off) (by omega)
  have e : encB op ra rb off = encI op ra rb off := rfl
  have : op = 0x10 ∨ op = 0x11 ∨ op = 0x12 ∨ op = 0x13 ∨ op = 0x14 ∨ op = 0x15 ∨ op = 0x16 ∨ op = 0x17 ∨ op = 0x18 := by omega
  unfold legalWord
  rw [e, h1]
  rcases this with rfl | rfl | rfl | rfl | rfl | rfl | rfl | rfl | rfl <;> rfl
theorem legal_jal {off : BitVec 21} : legalWord (encJ 0x16 rd off) = true := by
  unfold legalWord
  rw [fld_encJ (by omega)]
  rfl
theorem legal_bcr {m : BitVec 10} {off : BitVec 16} : legalWord (encC 0x18 m off) = true := by
  unfold legalWord
  rw [(fld_encC (by omega)).1]
  rfl
theorem legal_crclr {m : BitVec 10} : legalWord (encC 0x19 m 0) = true := by
  obtain ⟨h1, h2⟩ := fld_encC (op := 0x19) (m := m) (off := 0) (by omega)
  unfold legalWord
  rw [h1, h2]
  rfl
theorem legal_efldi {ed : BitVec 3} {pos : BitVec 7} (h : pos.toNat ≤ 112) : legalWord (encEI 0x20 ed pos imm) = true := by
  obtain ⟨h1, h2, -⟩ := fld_encEI (op := 0x20) (ed := ed) (pos := pos) (imm := imm) (by omega)
  unfold legalWord
  simp [h1, h2, h]
theorem legal_efld {ed : BitVec 3} {pos : BitVec 7} {l : BitVec 5} (h : pos.toNat + l.toNat + 1 ≤ 128) :
    legalWord (encER 0x21 ed pos ra l) = true := by
  obtain ⟨h1, h2, h3, h4⟩ := fld_encER (op := 0x21) (ed := ed) (pos := pos) (ra := ra) (l := l) (by omega)
  unfold legalWord
  simp [h1, h2, h3, h4, h]
theorem legal_erd {es : BitVec 3} {k : BitVec 2} : legalWord (encR 0x22 rd (es.zeroExtend 5) (k.zeroExtend 5) 0) = true := by
  obtain ⟨h1, h2, h3, h4, h5⟩ := fld_encR (op := 0x22) (rd := rd) (ra := es.zeroExtend 5) (rb := k.zeroExtend 5) (fn := 0)
    (by omega) (by omega)
  have a : (es.zeroExtend 5).toNat < 8 := by
    have := es.isLt
    simp only [BitVec.truncate_eq_setWidth, BitVec.toNat_setWidth]
    omega
  have b : (k.zeroExtend 5).toNat < 4 := by
    have := k.isLt
    simp only [BitVec.truncate_eq_setWidth, BitVec.toNat_setWidth]
    omega
  unfold legalWord
  rw [h1, h3, h4, h5]
  exact Bool.and_eq_true_iff.mpr ⟨Bool.and_eq_true_iff.mpr ⟨decide_eq_true a, decide_eq_true b⟩, rfl⟩
theorem legal_issue {ed : BitVec 3} : legalWord (BitVec.ofNat 32 (0x23 * 2 ^ 26 + ed.toNat * 2 ^ 23)) = true := by
  revert ed; decide
theorem legal_flag {op : Nat} (h : 0x28 ≤ op) (k : op ≤ 0x2A) : legalWord (encR op 0 ra 0 0) = true := by
  obtain ⟨h1, h2, h3, h4, h5⟩ := fld_encR (op := op) (rd := 0) (ra := ra) (rb := 0) (fn := 0) (by omega) (by omega)
  unfold legalWord
  rw [h1, h2, h4, h5]
  have : op = 0x28 ∨ op = 0x29 ∨ op = 0x2A := by omega
  rcases this with rfl | rfl | rfl <;> rfl
theorem legal_frd : legalWord (encR 0x2B rd ra 0 0) = true := by
  obtain ⟨h1, h2, h3, h4, h5⟩ := fld_encR (op := 0x2B) (rd := rd) (ra := ra) (rb := 0) (fn := 0) (by omega) (by omega)
  unfold legalWord
  rw [h1, h4, h5]
  rfl
theorem legal_handle {op : Nat} (h : op ≤ 5) : legalWord (encR (0x30 + op) rd ra rb 0) = true := by
  obtain ⟨h1, h2, h3, h4, h5⟩ := fld_encR (op := 0x30 + op) (rd := rd) (ra := ra) (rb := rb) (fn := 0) (by omega) (by omega)
  unfold legalWord
  rw [h1, h5]
  have : op = 0 ∨ op = 1 ∨ op = 2 ∨ op = 3 ∨ op = 4 ∨ op = 5 := by omega
  rcases this with rfl | rfl | rfl | rfl | rfl | rfl <;> rfl
theorem legal_srd {n : BitVec 12} (h : srdKnown n.toNat = true) : legalWord (encI 0x38 rd 0 (n.zeroExtend 16)) = true := by
  obtain ⟨h1, h2, h3, h4, h5, h6, h7, h8⟩ := fld_encI (op := 0x38) (rd := rd) (ra := 0) (imm := n.zeroExtend 16) (by omega)
  have hn := n.isLt
  have e : (n.zeroExtend 16).toNat = n.toNat := by
    simp only [BitVec.truncate_eq_setWidth, BitVec.toNat_setWidth]
    omega
  have a : fld (n.zeroExtend 16) 12 4 = 0 := by
    unfold fld; rw [e, Nat.shiftRight_eq_div_pow]; omega
  have b : fld (n.zeroExtend 16) 0 12 = n.toNat := by
    unfold fld; rw [e, Nat.shiftRight_eq_div_pow]; omega
  unfold legalWord
  rw [h1, h3, h7, h8, a, b]
  simp [h]
theorem legal_fence {op : Nat} (h : op = 0x3C ∨ op = 0x3E) : legalWord (encR op 0 0 0 0) = true := by
  rcases h with rfl | rfl <;> decide
theorem legal_snapf : legalWord (encR 0x3D 0 ra 0 0) = true := by
  obtain ⟨h1, h2, h3, h4, h5⟩ := fld_encR (op := 0x3D) (rd := 0) (ra := ra) (rb := 0) (fn := 0) (by omega) (by omega)
  unfold legalWord
  rw [h1, h2, h4, h5]
  rfl
theorem legal_halt : legalWord (encR 0x3F 0 0 0 0) = true := by decide
theorem legal_cstart : legalWord (encR 0x3F 0 ra 0 1) = true := by
  obtain ⟨h1, h2, h3, h4, h5⟩ := fld_encR (op := 0x3F) (rd := 0) (ra := ra) (rb := 0) (fn := 1) (by omega) (by omega)
  unfold legalWord
  rw [h1, h2, h4, h5]
  rfl

end Sys2Proof.Machine
end

