-- ==== Sys2Proof/Laws/Sparse.lean ====
section
/-! SUPPORT. Laws of the sparse tables: what a read gives after a write, and that writing keeps the canonical form. -/

namespace Sys2Proof.Machine

theorem swfFrom_mono {α : Type} [DecidableEq α] (d : α) (lo lo' : Nat) (h : lo' ≤ lo) :
    ∀ m : Sparse α, swfFrom d lo m = true → swfFrom d lo' m = true := by
  intro m hm
  cases m with
  | nil => rfl
  | cons e t =>
    obtain ⟨k, v⟩ := e
    simp only [swfFrom, Bool.and_eq_true, decide_eq_true_eq] at *
    exact ⟨⟨Nat.le_trans h hm.1.1, hm.1.2⟩, hm.2⟩

/-- A key below every listed one reads the default. -/
theorem sget_low {α : Type} [DecidableEq α] (d : α) : ∀ (m : Sparse α) (lo i : Nat), swfFrom d lo m = true → i < lo → sget d m i = d := by
  intro m lo i hm hi
  cases m with
  | nil => rfl
  | cons e t =>
    obtain ⟨k, v⟩ := e
    simp only [swfFrom, Bool.and_eq_true, decide_eq_true_eq] at hm
    have h1 : i ≠ k := by omega
    have h2 : i < k := by omega
    simp [sget, h1, h2]

/-- A read after a write: the value at the key written, what was there elsewhere. -/
theorem sget_sput {α : Type} [DecidableEq α] (d : α) :
    ∀ (m : Sparse α) (lo i j : Nat) (v : α), swfFrom d lo m = true →
      sget d (sput d m i v) j = if j = i then v else sget d m j := by
  intro m
  induction m with
  | nil =>
    intro lo i j v _
    by_cases hv : v = d <;> by_cases hj : j = i <;> simp [sput, sget, hv, hj]
  | cons e t ih =>
    intro lo i j v hm
    obtain ⟨k, w⟩ := e
    have hm' := hm
    simp only [swfFrom, Bool.and_eq_true, decide_eq_true_eq] at hm
    obtain ⟨⟨hlo, hw⟩, ht⟩ := hm
    simp only [sput]
    by_cases h1 : i < k
    · simp only [h1, if_true]
      by_cases hv : v = d
      · simp only [hv, if_true]
        by_cases hj : j = i
        · subst hj
          have : j ≠ k := by omega
          simp [sget, this, h1]
        · simp [hj]
      · simp only [hv, if_false, sget]
        by_cases hj : j = i
        · simp [hj]
        · simp only [hj, if_false]
          by_cases h2 : j < i
          · have h3 : j ≠ k := by omega
            have h4 : j < k := by omega
            simp [h2, h3, h4]
          · simp [h2]
    · simp only [h1, if_false]
      by_cases h2 : i = k
      · simp only [h2, if_true]
        by_cases hv : v = d
        · simp only [hv, if_true]
          by_cases hj : j = k
          · simp only [hj, if_true]; exact sget_low d t (k + 1) k ht (by omega)
          · simp only [hj, if_false, sget]
            by_cases h3 : j < k
            · simp only [h3, if_true]; exact sget_low d t (k + 1) j ht (by omega)
            · simp [h3]
        · simp only [hv, if_false, sget]
          by_cases hj : j = k <;> simp [hj]
      · simp only [h2, if_false, sget]
        by_cases hj : j = k
        · have : j ≠ i := by omega
          have h5 : k ≠ i := by omega
          simp [hj, h5]
        · simp only [hj, if_false]
          by_cases h3 : j < k
          · have : j ≠ i := by omega
            simp [h3, this]
          · simp only [h3, if_false]
            exact ih (k + 1) i j v ht

theorem swfFrom_sput {α : Type} [DecidableEq α] (d : α) :
    ∀ (m : Sparse α) (lo i : Nat) (v : α), swfFrom d lo m = true → lo ≤ i → swfFrom d lo (sput d m i v) = true := by
  intro m
  induction m with
  | nil =>
    intro lo i v _ hi
    by_cases hv : v = d <;> simp [sput, swfFrom, hv, hi]
  | cons e t ih =>
    intro lo i v hm hi
    obtain ⟨k, w⟩ := e
    have hm' := hm
    simp only [swfFrom, Bool.and_eq_true, decide_eq_true_eq] at hm
    obtain ⟨⟨hlo, hw⟩, ht⟩ := hm
    simp only [sput]
    by_cases h1 : i < k
    · by_cases hv : v = d
      · simp [h1, hv, hm']
      · have h2 : i + 1 ≤ k := h1
        simp [h1, hv, swfFrom, hi, h2, hw, ht]
    · by_cases h2 : i = k
      · by_cases hv : v = d
        · simp only [h1, h2, hv, if_false, if_true, Nat.lt_irrefl]
          exact swfFrom_mono d (k + 1) lo (by omega) t ht
        · simp [h2, hv, swfFrom, hlo, ht]
      · simp only [h1, h2, if_false, swfFrom, Bool.and_eq_true, decide_eq_true_eq]
        exact ⟨⟨hlo, hw⟩, ih (k + 1) i v ht (by omega)⟩

/-- A write keeps the canonical form. -/
theorem swf_sput {α : Type} [DecidableEq α] (d : α) (m : Sparse α) (i : Nat) (v : α) (h : swf d m = true) :
    swf d (sput d m i v) = true := swfFrom_sput d m 0 i v h (Nat.zero_le i)

/-- A read after a write, for a table in canonical form. -/
theorem sget_sput_wf {α : Type} [DecidableEq α] (d : α) (m : Sparse α) (i j : Nat) (v : α) (h : swf d m = true) :
    sget d (sput d m i v) j = if j = i then v else sget d m j := sget_sput d m 0 i j v h

theorem swf_foldl {α β : Type} [DecidableEq α] (d : α) (f : Sparse α → β → Sparse α)
    (hf : ∀ m b, swf d m = true → swf d (f m b) = true) :
    ∀ (l : List β) (m : Sparse α), swf d m = true → swf d (l.foldl f m) = true := by
  intro l
  induction l with
  | nil => intro m h; exact h
  | cons b t ih => intro m h; exact ih _ (hf m b h)

/-- Bringing a raw list into canonical form gives the canonical form. -/
theorem swf_snorm {α : Type} [DecidableEq α] (d : α) (raw : List (Nat × α)) : swf d (snorm d raw) = true :=
  swf_foldl d _ (fun m e h => swf_sput d m e.1 e.2 h) raw [] rfl

theorem swf_bounded {α : Type} [DecidableEq α] (d : α) (n : Nat) (raw : List (Nat × α)) : swf d (bounded d n raw) = true :=
  swf_snorm d _

theorem swf_sputs {α : Type} [DecidableEq α] (d : α) :
    ∀ (vs : List α) (m : Sparse α) (i : Nat), swf d m = true → swf d (sputs d m i vs) = true := by
  intro vs
  induction vs with
  | nil => intro m i h; exact h
  | cons v t ih => intro m i h; exact ih _ _ (swf_sput d m i v h)

theorem swf_sfill {α : Type} [DecidableEq α] (d : α) (v : α) :
    ∀ (n : Nat) (m : Sparse α) (i : Nat), swf d m = true → swf d (sfill d m i v n) = true := by
  intro n
  induction n with
  | zero => intro m i h; exact h
  | succ n ih => intro m i h; exact ih _ _ (swf_sput d m i v h)

theorem swf_fillTable {α : Type} [DecidableEq α] (d : α) (n : Nat) (f : Nat → α) : swf d (fillTable d n f) = true :=
  swf_foldl d _ (fun m i h => swf_sput d m i (f i) h) (List.range n) [] rfl

/-- A run of writes: the value written at each key of the run, what was there elsewhere. -/
theorem sget_sputs {α : Type} [DecidableEq α] (d : α) :
    ∀ (vs : List α) (m : Sparse α) (i j : Nat), swf d m = true →
      sget d (sputs d m i vs) j = if i ≤ j ∧ j < i + vs.length then vs.getD (j - i) d else sget d m j := by
  intro vs
  induction vs with
  | nil =>
    intro m i j _
    have : ¬ (i ≤ j ∧ j < i + ([] : List α).length) := by simp
    simp only [sputs, this, if_false]
  | cons v t ih =>
    intro m i j h
    simp only [sputs]
    rw [ih _ (i + 1) j (swf_sput d m i v h), sget_sput_wf d m i j v h]
    by_cases h1 : j = i
    · subst h1
      have : ¬ (j + 1 ≤ j ∧ j < j + 1 + t.length) := by omega
      have h2 : j ≤ j ∧ j < j + (v :: t).length := by simp
      simp only [this, h2, if_false, if_true, and_self, Nat.sub_self]
      rfl
    · by_cases h2 : i + 1 ≤ j ∧ j < i + 1 + t.length
      · have h3 : i ≤ j ∧ j < i + (v :: t).length := by simp only [List.length_cons]; omega
        obtain ⟨k, hk⟩ : ∃ k, j - i = k + 1 := ⟨j - i - 1, by omega⟩
        have h4 : j - (i + 1) = k := by omega
        simp only [h2, h3, if_true, and_self, hk, h4]
        rfl
      · have h3 : ¬ (i ≤ j ∧ j < i + (v :: t).length) := by simp only [List.length_cons]; omega
        simp only [h1, h2, h3, if_false]

/-- A filtered table keeps the canonical form. -/
theorem swfFrom_filter {α : Type} [DecidableEq α] (d : α) (p : Nat × α → Bool) :
    ∀ (m : Sparse α) (lo : Nat), swfFrom d lo m = true → swfFrom d lo (m.filter p) = true := by
  intro m
  induction m with
  | nil => intro lo h; exact h
  | cons e t ih =>
    intro lo h
    obtain ⟨k, v⟩ := e
    simp only [swfFrom, Bool.and_eq_true, decide_eq_true_eq] at h
    by_cases hp : p (k, v) = true
    · simp only [List.filter_cons, hp, if_true, swfFrom, Bool.and_eq_true, decide_eq_true_eq]
      exact ⟨h.1, ih _ h.2⟩
    · simp only [List.filter_cons, hp, if_false]
      exact swfFrom_mono d (k + 1) lo (by omega) _ (ih _ h.2)

/-- Equal tables in canonical form are those that read alike: reads decide them. -/
theorem swfFrom_ext {α : Type} [DecidableEq α] (d : α) :
    ∀ (m m' : Sparse α) (lo : Nat), swfFrom d lo m = true → swfFrom d lo m' = true →
      (∀ i, lo ≤ i → sget d m i = sget d m' i) → m = m' := by
  intro m
  induction m with
  | nil =>
    intro m' lo _ h' he
    cases m' with
    | nil => rfl
    | cons e t =>
      obtain ⟨k, v⟩ := e
      simp only [swfFrom, Bool.and_eq_true, decide_eq_true_eq] at h'
      have := he k h'.1.1
      simp [sget] at this
      exact absurd this.symm h'.1.2
  | cons e t ih =>
    intro m' lo h h' he
    obtain ⟨k, v⟩ := e
    have h0 := h
    simp only [swfFrom, Bool.and_eq_true, decide_eq_true_eq] at h
    cases m' with
    | nil =>
      have := he k h.1.1
      simp [sget] at this
      exact absurd this h.1.2
    | cons e' t' =>
      obtain ⟨k', v'⟩ := e'
      have h0' := h'
      simp only [swfFrom, Bool.and_eq_true, decide_eq_true_eq] at h'
      have hk : k = k' := by
        rcases Nat.lt_trichotomy k k' with hlt | heq | hgt
        · have := he k h.1.1
          have hne : k ≠ k' := by omega
          simp [sget, hne, hlt] at this
          exact absurd this h.1.2
        · exact heq
        · have := he k' h'.1.1
          have hne : k' ≠ k := by omega
          simp [sget, hne, hgt] at this
          exact absurd this.symm h'.1.2
      subst hk
      have hv : v = v' := by
        have := he k h.1.1
        simpa [sget] using this
      subst hv
      have : t = t' := ih t' (k + 1) h.2 h'.2 (by
        intro i hi
        have := he i (by omega)
        have h1 : i ≠ k := by omega
        have h2 : ¬ i < k := by omega
        simpa [sget, h1, h2] using this)
      rw [this]

end Sys2Proof.Machine
end

