-- ==== Sys2Proof/Laws/Keep.lean ====
section
/-!
SUPPORT. What every shared operation keeps: the queue of commands, the design-time options, instruction memory, the core hold's
invariant, and the canonical form of every table. One lemma per operation, named keep_<operation>; callers chain them.
-/

namespace Sys2Proof.Machine

/-- The queue and the design-time options stay, and every table keeps its canonical form. -/
def Ok (s t : State) : Prop := t.pending = s.pending ∧ t.features = s.features ∧ (Canon s → Canon t)

/-- As `Ok`, and the invariant of the core hold stays. -/
def Mid (s t : State) : Prop := Ok s t ∧ (HoldInv s → HoldInv t)

/-- As `Mid`, and instruction memory, the image's length and its entry stay. -/
def Keep (s t : State) : Prop := Mid s t ∧ t.imem = s.imem ∧ t.imemLen = s.imemLen ∧ t.entry = s.entry

theorem Ok.refl (s : State) : Ok s s := ⟨rfl, rfl, id⟩
theorem Ok.trans {s t u : State} (h : Ok s t) (k : Ok t u) : Ok s u := ⟨k.1.trans h.1, k.2.1.trans h.2.1, k.2.2 ∘ h.2.2⟩
theorem Mid.refl (s : State) : Mid s s := ⟨.refl s, id⟩
theorem Mid.trans {s t u : State} (h : Mid s t) (k : Mid t u) : Mid s u := ⟨h.1.trans k.1, k.2 ∘ h.2⟩
theorem Keep.refl (s : State) : Keep s s := ⟨.refl s, rfl, rfl, rfl⟩
theorem Keep.trans {s t u : State} (h : Keep s t) (k : Keep t u) : Keep s u :=
  ⟨h.1.trans k.1, k.2.1.trans h.2.1, k.2.2.1.trans h.2.2.1, k.2.2.2.trans h.2.2.2⟩
theorem Keep.mid {s t : State} (h : Keep s t) : Mid s t := h.1
theorem Keep.ok {s t : State} (h : Keep s t) : Ok s t := h.1.1

variable {r s t a b : State}

theorem keep_ite {p : Prop} [Decidable p] (ha : Keep r a) (hb : Keep r b) : Keep r (if p then a else b) := by
  split <;> assumption

theorem keep_foldl {α : Type} {f : State → α → State} (hf : ∀ s x, Keep r s → Keep r (f s x)) :
    ∀ (l : List α) (s : State), Keep r s → Keep r (l.foldl f s) := by
  intro l
  induction l with
  | nil => intro s h; exact h
  | cons x t ih => intro s h; exact ih _ (hf s x h)

/-! ### Fields of which `Keep` says nothing -/

/-- Any of the other fields may be replaced. -/
theorem keep_any
    {v_freeCtr : Nat} {v_powered : Bool} {v_vcore : Nat} {v_vmem : Nat} {v_rstN : Bool} {v_rstDue : Bool} {v_wir : Byte} {v_wrap : Wrap}
    {v_testRes : W64} {v_parked : Bool} {v_serial : W64} {v_pwrdom : Byte} {v_chainAddr : Byte} {v_seqWr : Option Byte}
    {v_seqBc : Option Byte} {v_mcOut : List (BitVec 9)} {v_cutAddr : Byte} {v_cutReq : List Byte}
    {v_stepSets : List (Nat × Option Ctx)} {v_stepClears : List (Nat × BitVec 4)} {v_stepMarks : List Mark}
    {v_stepOps : List HandleOp} {v_selfFlits : List W64} {v_syncQ : List SyncOut} {v_syncSent : List W64}
    {v_stepSpad : List SpadAcc} {v_stepPages : List (Nat × PageSt)} {v_wbPend : List Nat} {v_checked : Bool}
    {v_stepAcc : List AccStore} {v_dmemStep : List DmemStore} {v_stepTrk : List Nat} {v_spadWin : BitVec 11}
    {v_nextId : Nat} {v_units : List UnitRow} {v_outst : List Outst}
    {v_retired : List (Nat × Nat × Nat)} {v_rxTab : List RxEntry} {v_winAcks : List WinAck} {v_winDone : List WinDone} {v_held : List Held}
    {v_faTx : List TxFlit} {v_fbTx : List TxFlit} {v_txA : Bool} {v_txB : Bool} {v_rxA : Bool} {v_rxB : Bool}
    {v_rxS : Bool} {v_linkA : Bool} {v_linkB : Bool} {v_epoch : BitVec 4} {v_ilPtr : Nat} {v_pstate : PState}
    {v_proof : Stream} {v_bakeOn : Bool} {v_bake : Stream} {v_cfg : Cfg} {v_setRej : W32} {v_warnDom : Bool} {v_fw : Fw}
    {v_mgmt : List Mgmt} {v_pinA : Bool} {v_pinB : Bool} {v_stepDone : List Running} {v_sb : StepBlk} {v_tmr : Tmr} {v_pwr : Pwr} {v_perfStop : Bool} {v_steps : Nat} {v_st : Starter} (h : Keep r s) :
    Keep r { s with
        freeCtr := v_freeCtr, powered := v_powered, vcore := v_vcore, vmem := v_vmem, rstN := v_rstN, rstDue := v_rstDue, wir := v_wir,
        wrap := v_wrap, testRes := v_testRes, parked := v_parked, serial := v_serial, pwrdom := v_pwrdom,
        chainAddr := v_chainAddr, seqWr := v_seqWr, seqBc := v_seqBc, mcOut := v_mcOut, cutAddr := v_cutAddr,
        cutReq := v_cutReq, stepSets := v_stepSets, stepClears := v_stepClears, stepMarks := v_stepMarks,
        stepOps := v_stepOps, selfFlits := v_selfFlits, syncQ := v_syncQ, syncSent := v_syncSent, stepSpad := v_stepSpad,
        stepPages := v_stepPages, wbPend := v_wbPend, checked := v_checked, stepAcc := v_stepAcc, dmemStep := v_dmemStep,
        stepTrk := v_stepTrk, spadWin := v_spadWin, nextId := v_nextId, units := v_units,
        outst := v_outst, retired := v_retired, rxTab := v_rxTab, winAcks := v_winAcks, winDone := v_winDone, held := v_held, faTx := v_faTx,
        fbTx := v_fbTx, txA := v_txA, txB := v_txB, rxA := v_rxA, rxB := v_rxB, rxS := v_rxS, linkA := v_linkA,
        linkB := v_linkB, epoch := v_epoch, ilPtr := v_ilPtr, pstate := v_pstate, proof := v_proof, bakeOn := v_bakeOn,
        bake := v_bake, cfg := v_cfg, setRej := v_setRej, warnDom := v_warnDom, fw := v_fw,
        mgmt := v_mgmt, pinA := v_pinA, pinB := v_pinB, stepDone := v_stepDone, sb := v_sb, tmr := v_tmr,
        pwr := v_pwr, perfStop := v_perfStop, steps := v_steps, st := v_st } :=
  h.trans ⟨⟨⟨rfl, rfl, id⟩, id⟩, rfl, rfl, rfl⟩
/-- The collector's other fields may be replaced. -/
theorem keep_flt {v : Flt} (h : Keep r s) (hv : v.holdCore = s.flt.holdCore) : Keep r { s with flt := v } :=
  h.trans ⟨⟨⟨rfl, rfl, id⟩, fun k => ⟨fun e => hv.trans (k.1 e), fun e => hv.trans (k.2 e)⟩⟩, rfl, rfl, rfl⟩

/-! ### One table replaced -/

theorem keep_c0 {x : Context} (h : Keep r s) (hx : CtxCanon s.c0 → CtxCanon x) : Keep r { s with c0 := x } :=
  h.trans ⟨⟨⟨rfl, rfl, fun k => ⟨hx k.1, k.2⟩⟩, id⟩, rfl, rfl, rfl⟩
theorem keep_c1 {x : Context} (h : Keep r s) (hx : CtxCanon s.c1 → CtxCanon x) : Keep r { s with c1 := x } :=
  h.trans ⟨⟨⟨rfl, rfl, fun k => ⟨k.1, hx k.2.1, k.2.2⟩⟩, id⟩, rfl, rfl, rfl⟩

theorem keep_flags {v : Sparse Flag} (h : Keep r s) (hv : swf Flag.zero s.flags = true → swf Flag.zero v = true) :
    Keep r { s with flags := v } :=
  h.trans ⟨⟨⟨rfl, rfl, fun k => by unfold Canon at *; simp_all⟩, id⟩, rfl, rfl, rfl⟩
theorem keep_spad {v : Sparse Byte} (h : Keep r s) (hv : swf 0 s.spad = true → swf 0 v = true) : Keep r { s with spad := v } :=
  h.trans ⟨⟨⟨rfl, rfl, fun k => by unfold Canon at *; simp_all⟩, id⟩, rfl, rfl, rfl⟩
theorem keep_spadErr {v : Sparse EccMark} {w : List Nat} (h : Keep r s)
    (hv : swf EccMark.good s.spadErr = true → swf EccMark.good v = true) : Keep r { s with spadErr := v, wbPend := w } :=
  h.trans ⟨⟨⟨rfl, rfl, fun k => by unfold Canon at *; simp_all⟩, id⟩, rfl, rfl, rfl⟩
theorem keep_accOwn {v : Sparse Nat} (h : Keep r s) (hv : swf 0 s.accOwn = true → swf 0 v = true) : Keep r { s with accOwn := v } :=
  h.trans ⟨⟨⟨rfl, rfl, fun k => by unfold Canon at *; simp_all⟩, id⟩, rfl, rfl, rfl⟩
theorem keep_scrub {v : Sparse Nat} (h : Keep r s) (hv : swf 0 s.scrub = true → swf 0 v = true) : Keep r { s with scrub := v } :=
  h.trans ⟨⟨⟨rfl, rfl, fun k => by unfold Canon at *; simp_all⟩, id⟩, rfl, rfl, rfl⟩
theorem keep_pages {v : Sparse PageSt} {c : Bool} (h : Keep r s)
    (hv : swf PageSt.empty s.pages = true → swf PageSt.empty v = true) : Keep r { s with checked := c, pages := v } :=
  h.trans ⟨⟨⟨rfl, rfl, fun k => by unfold Canon at *; simp_all⟩, id⟩, rfl, rfl, rfl⟩
theorem keep_handles {v : Sparse Handle} (h : Keep r s)
    (hv : swf Handle.zero s.handles = true → swf Handle.zero v = true) : Keep r { s with handles := v } :=
  h.trans ⟨⟨⟨rfl, rfl, fun k => by unfold Canon at *; simp_all⟩, id⟩, rfl, rfl, rfl⟩
theorem keep_acc {v : Sparse W32} {w : Sparse EccMark} (h : Keep r s) (hv : swf 0 s.acc = true → swf 0 v = true)
    (hw : swf EccMark.good s.accErr = true → swf EccMark.good w = true) : Keep r { s with acc := v, accErr := w } :=
  h.trans ⟨⟨⟨rfl, rfl, fun k => by unfold Canon at *; simp_all⟩, id⟩, rfl, rfl, rfl⟩
theorem keep_stat {v : Sparse W64} {w : Sparse EccMark} (h : Keep r s) (hv : swf 0 s.stat = true → swf 0 v = true)
    (hw : swf EccMark.good s.statErr = true → swf EccMark.good w = true) : Keep r { s with stat := v, statErr := w } :=
  h.trans ⟨⟨⟨rfl, rfl, fun k => by unfold Canon at *; simp_all⟩, id⟩, rfl, rfl, rfl⟩
theorem keep_dmem {v : Sparse Byte} {w : List DmemStore} (h : Keep r s) (hv : swf 0 s.dmem = true → swf 0 v = true) :
    Keep r { s with dmem := v, dmemStep := w } :=
  h.trans ⟨⟨⟨rfl, rfl, fun k => by unfold Canon at *; simp_all⟩, id⟩, rfl, rfl, rfl⟩
theorem keep_trackers {v : Sparse Tracker} (h : Keep r s)
    (hv : swf Tracker.reset s.trackers = true → swf Tracker.reset v = true) : Keep r { s with trackers := v } :=
  h.trans ⟨⟨⟨rfl, rfl, fun k => by unfold Canon at *; simp_all⟩, id⟩, rfl, rfl, rfl⟩
theorem keep_mesh {v : Mesh} (h : Keep r s) (hv : MeshCanon s.mesh → MeshCanon v) : Keep r { s with mesh := v } :=
  h.trans ⟨⟨⟨rfl, rfl, fun k => by unfold Canon at *; simp_all⟩, id⟩, rfl, rfl, rfl⟩
/-- The running words may be replaced by others whose records are canonical. -/
theorem keep_running {v : List Running} (h : Keep r s) (hv : Canon r → Canon s → ∀ q ∈ v, JobCanon q.job) :
    Keep r { s with running := v } := by
  refine ⟨⟨⟨h.1.1.1, h.1.1.2.1, fun k => ?_⟩, h.1.2⟩, h.2⟩
  have q := h.1.1.2.2 k
  have := hv k q
  unfold Canon at *
  simp_all
theorem canon_running (k : Canon s) : ∀ q ∈ s.running, JobCanon q.job := k.2.2.2.2.2.2.2.2.2.2.2.2.2.2.2.2.2.2.2.2
theorem keep_perfs {v : Sparse (BitVec 48)} {w l : Sparse Nat} {p : Bool} (h : Keep r s)
    (hv : swf 0 s.perf = true → swf 0 v = true) (hw : swf 0 s.perfStep = true → swf 0 w = true)
    (hl : swf 0 s.perfStep = true → swf 0 s.perfLast = true → swf 0 l = true) :
    Keep r { s with perf := v, perfStep := w, perfLast := l, perfStop := p } :=
  h.trans ⟨⟨⟨rfl, rfl, fun k => by unfold Canon at *; simp_all⟩, id⟩, rfl, rfl, rfl⟩

/-! ### Contexts -/

theorem canon_getCtx (k : Canon s) (c : Ctx) : CtxCanon (getCtx s c) := by cases c <;> first | exact k.1 | exact k.2.1

theorem keep_setCtx {c : Ctx} {x : Context} (h : Keep r s) (hx : CtxCanon (getCtx s c) → CtxCanon x) : Keep r (setCtx s c x) := by
  cases c <;> first | exact keep_c0 h hx | exact keep_c1 h hx

/-- A context record that is canonical where the state at the start is. -/
theorem keep_setCtxFrom {c : Ctx} {x : Context} (h : Keep r s) (hx : Canon r → CtxCanon x) : Keep r (setCtx s c x) := by
  have k1 : Canon r → Canon (setCtx s c x) := fun k =>
    have q := h.1.1.2.2 k
    match c with
    | .c0 => ⟨hx k, q.2⟩
    | .c1 => ⟨q.1, hx k, q.2.2⟩
  cases c <;> exact ⟨⟨⟨h.1.1.1, h.1.1.2.1, k1⟩, h.1.2⟩, h.2⟩
theorem keep_modCtx {c : Ctx} {f : Context → Context} (h : Keep r s) (hf : ∀ x, CtxCanon x → CtxCanon (f x)) :
    Keep r (modCtx s c f) := keep_setCtx h (hf _)

variable {x : Context}

theorem ctx_wrS (h : CtxCanon x) (n : Nat) (v : W32) : CtxCanon (wrS x n v) := by
  unfold wrS
  split
  · exact h
  · next hn =>
    have h1 : swf 0 (sput 0 x.regs n v) = true := swf_sput 0 _ _ _ h.1
    have h2 : sget 0 (sput 0 x.regs n v) 0 = 0 := by
      rw [sget_sput_wf 0 _ _ _ _ h.1]
      have : ¬ 0 = n := fun e => hn e.symm
      simp only [this, if_false]; exact h.2.1
    exact ⟨h1, h2, h.2.2⟩
theorem ctx_wrE (h : CtxCanon x) (n : Nat) (v : W128) : CtxCanon (wrE x n v) :=
  ⟨h.1, h.2.1, swf_sput 0 _ _ _ h.2.2.1, h.2.2.2⟩
theorem ctx_ready (h : CtxCanon x) (n v : Nat) : CtxCanon { x with ready := sput 0 x.ready n v } :=
  ⟨h.1, h.2.1, h.2.2.1, swf_sput 0 _ _ _ h.2.2.2.1, h.2.2.2.2⟩
theorem ctx_vregs {v : Sparse Byte} (h : CtxCanon x) (hv : swf 0 v = true) : CtxCanon { x with vregs := v } :=
  ⟨h.1, h.2.1, h.2.2.1, h.2.2.2.1, hv, h.2.2.2.2.2⟩
theorem ctx_masks {v : Sparse (BitVec 2048)} (h : CtxCanon x) (hv : swf 0 v = true) : CtxCanon { x with masks := v } :=
  ⟨h.1, h.2.1, h.2.2.1, h.2.2.2.1, h.2.2.2.2.1, hv, h.2.2.2.2.2.2⟩
theorem ctx_mslots {v : Sparse (BitVec 93)} (h : CtxCanon x) (hv : swf 0 v = true) : CtxCanon { x with mslots := v } :=
  ⟨h.1, h.2.1, h.2.2.1, h.2.2.2.1, h.2.2.2.2.1, h.2.2.2.2.2.1, hv, h.2.2.2.2.2.2.2⟩
theorem ctx_rslots {v : Sparse (BitVec 93)} (h : CtxCanon x) (hv : swf 0 v = true) : CtxCanon { x with rslots := v } :=
  ⟨h.1, h.2.1, h.2.2.1, h.2.2.2.1, h.2.2.2.2.1, h.2.2.2.2.2.1, h.2.2.2.2.2.2.1, hv, h.2.2.2.2.2.2.2.2⟩
theorem ctx_setQueue (h : CtxCanon x) (e : Eng) (q : List QWord) : CtxCanon (setQueue x e q) :=
  ⟨h.1, h.2.1, h.2.2.1, h.2.2.2.1, h.2.2.2.2.1, h.2.2.2.2.2.1, h.2.2.2.2.2.2.1, h.2.2.2.2.2.2.2.1,
   swf_sput [] _ _ _ h.2.2.2.2.2.2.2.2.1, h.2.2.2.2.2.2.2.2.2⟩
theorem ctx_setHeadWait (h : CtxCanon x) (e : Eng) (w : HWait) : CtxCanon (setHeadWait x e w) :=
  ⟨h.1, h.2.1, h.2.2.1, h.2.2.2.1, h.2.2.2.2.1, h.2.2.2.2.2.1, h.2.2.2.2.2.2.1, h.2.2.2.2.2.2.2.1, h.2.2.2.2.2.2.2.2.1,
   swf_sput HWait.pending _ _ _ h.2.2.2.2.2.2.2.2.2⟩
theorem ctx_setCR (h : CtxCanon x) (n : Nat) : CtxCanon (setCR x n) := h
theorem ctx_reset : CtxCanon Context.reset := by unfold CtxCanon; decide

/-! ### Ops -/

theorem keep_report {code rep : Nat} {ctx : Option Ctx} (h : Keep r s) : Keep r (report s code rep ctx) := h
theorem keep_count {i n : Nat} (h : Keep r s) : Keep r (count s i n) := keep_perfs h id (swf_sput 0 _ _ _) (fun _ => id)
theorem keep_progress (h : Keep r s) : Keep r (progress s) := h
theorem swf_addCounts {p : Bool} {n : Sparse Nat} {m : Sparse (BitVec 48)} (k : swf 0 m = true) : swf 0 (addCounts p n m) = true := by
  unfold addCounts
  split
  · exact k
  · exact swf_foldl 0 _ (fun m e hm => swf_sput 0 _ _ _ hm) _ _ k
theorem keep_commitCounts (h : Keep r s) : Keep r (commitCounts s) := keep_perfs h swf_addCounts id (fun _ _ => rfl)
theorem keep_flushCounts (h : Keep r s) : Keep r (flushCounts s) := keep_perfs h id (fun _ => rfl) (fun k _ => k)
theorem keep_woke (h : Keep r t) : Keep r (woke s t) := keep_ite (a := { t with tmr := _ }) h h
/-- A command that reports nothing further does not stall. -/
theorem settle_same (h : t.flt.reports = s.flt.reports) : settle s t = t := by
  unfold settle stalls
  rw [h, List.drop_length]
  rfl
/-- A command that hands over one report stalls while its reporter cannot present it (14 R306). -/
theorem stalls_one {q : Report} (h : t.flt.reports = s.flt.reports ++ [q]) : stalls s t = reporting s q.rep := by
  unfold stalls
  rw [h, List.drop_left]
  exact Bool.or_false _
theorem settle_one {q : Report} (h : t.flt.reports = s.flt.reports ++ [q]) : settle s t = if reporting s q.rep then s else t := by
  unfold settle
  rw [stalls_one h]
theorem guarded_same {b : Bool} (h : t.flt.reports = s.flt.reports) : guarded b s t = .next (if b then t else s) := by
  unfold guarded
  rw [settle_same h]
theorem guarded_one {b : Bool} {q : Report} (h : t.flt.reports = s.flt.reports ++ [q]) :
    guarded b s t = .next (if b then if reporting s q.rep then s else t else s) := by
  unfold guarded
  rw [settle_one h]
theorem keep_settle (h : Keep r s) (k : Keep r t) : Keep r (settle s t) := keep_ite h k
theorem keep_popHead {c : Ctx} {e : Eng} (h : Keep r s) : Keep r (popHead s c e) :=
  keep_modCtx h (fun _ hx => ctx_setHeadWait (ctx_setQueue hx _ _) _ _)
/-- Words that run already, with other jobs than one started and stalled. -/
theorem keep_runningOf {v : List Running} (h : Keep r s) (hv : ∀ q ∈ v, q ∈ s.running ∨ JobCanon q.job) :
    Keep r { s with running := v } :=
  keep_running h fun _ k q hq => (hv q hq).elim (canon_running k q) id
theorem keep_dropRun {id : Nat} (h : Keep r s) : Keep r (dropRun s id) :=
  keep_runningOf h fun _ hq => .inl (List.mem_filter.1 hq).1
theorem keep_setJob {id : Nat} {j : Job} (h : Keep r s) (hj : JobCanon j) : Keep r (setJob s id j) :=
  keep_runningOf h fun q hq => by
    obtain ⟨p, hp, rfl⟩ := List.mem_map.1 hq
    split <;> first | exact .inr hj | exact .inl hp
theorem keep_startWord {c : Ctx} {e : Eng} {q : QWord} {hs : List Nat} {j : Job} {fs : List Foot} (h : Keep r s)
    (hj : Canon r → JobCanon j) : Keep r (startWord s c e q hs j fs) := by
  have k : Keep r (progress (count (popHead s c e) 8 1)) := keep_progress (keep_count (keep_popHead h))
  refine keep_running k fun k0 k1 p hp => ?_
  rcases List.mem_append.1 hp with hp | hp
  · exact canon_running k1 p hp
  · cases List.mem_singleton.1 hp
    exact hj k0
theorem keep_refuseWord {c : Ctx} {e : Eng} {code : Nat} (h : Keep r s) : Keep r (refuseWord s c e code) :=
  keep_report (keep_progress (keep_count (keep_popHead h)))
theorem keep_addWrote {id : Nat} {fs : List Foot} (h : Keep r s) : Keep r (addWrote s id fs) :=
  keep_running h fun _ k q hq => by
    obtain ⟨p, hp, rfl⟩ := List.mem_map.1 hq
    have := canon_running k p hp
    split <;> exact this
theorem swf_overload {ws : List (Nat × W32)} {m : Sparse W32} (h : swf 0 m = true) : swf 0 (overload m ws) = true :=
  swf_foldl 0 _ (fun _ _ => swf_sput 0 _ _ _) _ _ h
variable {m : Mesh}
theorem mesh_restock (h : MeshCanon m) : MeshCanon (restock m) := by
  unfold restock
  split
  · exact ⟨h.1, swf_overload h.2.1, h.2.2⟩
  · exact h
theorem mesh_nextSlice (h : MeshCanon m) : MeshCanon (nextSlice m) := by
  unfold nextSlice
  split
  · exact mesh_restock ⟨swf_overload h.1, h.2⟩
  · exact h
theorem mesh_passSlices {id n : Nat} : ∀ {m : Mesh}, MeshCanon m → MeshCanon (passSlices id n m) := by
  induction n with
  | zero => intro m h; exact h
  | succ n ih =>
    intro m h
    unfold passSlices
    split
    · split
      · exact ih (mesh_nextSlice h)
      · exact h
    · exact h
theorem mesh_endSlices {id : Nat} (h : MeshCanon m) : MeshCanon (endSlices id m) := by
  unfold endSlices
  split
  · exact mesh_restock (mesh_passSlices h)
  · exact h
theorem keep_leaveArray {e : Eng} {id : Nat} (h : Keep r s) : Keep r (leaveArray s e id) :=
  keep_ite (keep_mesh h mesh_endSlices) h
theorem keep_failWord {c : Ctx} {e : Eng} {id code : Nat} (h : Keep r s) : Keep r (failWord s c e id code) :=
  keep_report (keep_leaveArray (keep_dropRun h))
theorem keep_setFlag {f : Nat} {v : Flag} (h : Keep r s) : Keep r (setFlag s f v) := keep_flags h (swf_sput _ _ _ _)
theorem keep_pushSet {f : Nat} {c : Option Ctx} (h : Keep r s) : Keep r (pushSet s f c) := h
theorem keep_pushClear {f : Nat} {g : BitVec 4} (h : Keep r s) : Keep r (pushClear s f g) := h
theorem keep_pushSync {f : W64} {w : Option Nat} (h : Keep r s) : Keep r (pushSync s f w) := h
theorem keep_setH {k : Nat} {v : Handle} (h : Keep r s) : Keep r (setH s k v) := keep_handles h (swf_sput _ _ _ _)
theorem keep_setPage {p : Nat} {v : PageSt} (h : Keep r s) : Keep r (setPage s p v) := by
  unfold setPage; split <;> first | exact keep_pages h (swf_sput _ _ _ _) | exact h
theorem keep_dropOwners {a n : Nat} (h : Keep r s) : Keep r (dropOwners s a n) := keep_accOwn h (swfFrom_filter _ _ _ _)
theorem keep_emptyPage {p : Nat} (h : Keep r s) : Keep r (emptyPage s p) :=
  keep_setPage (keep_ite (keep_dropOwners h) h)
theorem keep_emptyPages {n : Nat} : ∀ {s : State} {p : Nat}, Keep r s → Keep r (emptyPages s p n) := by
  induction n with
  | zero => intro s p h; exact h
  | succ n ih => intro s p h; exact ih (keep_emptyPage h)
theorem keep_dmemStore1 {c : Option Ctx} {a : Nat} {b : Byte} (h : Keep r s) : Keep r (dmemStore1 s c a b) :=
  keep_dmem h (fun k => by split <;> first | exact k | exact swf_sput 0 _ _ _ k)
theorem keep_dmemStore {c : Option Ctx} {bs : List Byte} : ∀ {s : State} {a : Nat}, Keep r s → Keep r (dmemStore s c a bs) := by
  induction bs with
  | nil => intro s a h; exact h
  | cons b t ih => intro s a h; exact ih (keep_dmemStore1 h)
theorem keep_dmemWrite {a : Nat} {bs : List Byte} (h : Keep r s) : Keep r (dmemWrite s a bs) :=
  keep_ite (keep_dmem h (swf_sputs 0 _ _ _)) (keep_dmemStore h)
theorem keep_abandon {o : Owner} (h : Keep r s) : Keep r (abandon s o) := h

/-! ### The fault collector -/

theorem ctx_enterHeld (h : CtxCanon x) : CtxCanon (enterHeld x) := by unfold enterHeld; split <;> exact h
theorem ctx_leaveHeld {b : Bool} (h : CtxCanon x) : CtxCanon (leaveHeld b x) := by unfold leaveHeld; split <;> exact h
theorem keep_holdContext {c : Ctx} (h : Keep r s) : Keep r (holdContext s c) := keep_modCtx h (fun x hx => ctx_enterHeld (x := { x with hold := true }) hx)
theorem keep_holdTheCore (h : Keep r s) : Keep r (holdTheCore s) := by
  have k : Keep r (modCtx (modCtx s .c0 enterHeld) .c1 enterHeld) :=
    keep_modCtx (keep_modCtx h fun _ => ctx_enterHeld) fun _ => ctx_enterHeld
  refine k.trans ⟨⟨⟨rfl, rfl, id⟩, fun _ => ?_⟩, rfl, rfl, rfl⟩
  unfold HoldInv holdTheCore
  refine ⟨fun _ => rfl, fun e => ?_⟩
  dsimp only at e
  split at e
  · cases e
  · next hne => exact absurd e hne
theorem keep_recordFirst {q : Report} (h : Keep r s) : Keep r (recordFirst s q) := by unfold recordFirst; split <;> exact h
theorem keep_applyOcc {q : Report} (h : Keep r s) : Keep r (applyOcc s q) := by
  have k : Keep r (recordFirst s q) := keep_recordFirst h
  unfold applyOcc
  dsimp only
  split
  · exact k
  · exact k
  · split <;> first | exact keep_holdContext k | exact k
  · exact keep_holdTheCore k
  · exact keep_holdTheCore k
theorem keep_settleHolds (h : Keep r s) : Keep r (settleHolds s) := by unfold settleHolds; split <;> exact h
theorem keep_dropCtxHold {c : Ctx} (h : Keep r s) : Keep r (dropCtxHold s c) := by
  unfold dropCtxHold
  split
  · exact keep_settleHolds (keep_modCtx h fun x hx => ctx_leaveHeld (x := { x with hold := false }) hx)
  · exact h
theorem keep_dropCoreHold (h : Keep r s) : Keep r (dropCoreHold s) := by
  unfold dropCoreHold
  split
  · have k : Keep r { s with core := if s.core = .held then .running else s.core, flt := { s.flt with holdCore := false } } := by
      refine h.trans ⟨⟨⟨rfl, rfl, id⟩, fun _ => ⟨fun e => ?_, fun _ => rfl⟩⟩, rfl, rfl, rfl⟩
      dsimp only at e
      split at e
      · cases e
      · next hne => exact absurd e hne
    exact keep_settleHolds (keep_modCtx (keep_modCtx k fun _ => ctx_leaveHeld) fun _ => ctx_leaveHeld)
  · exact h
theorem keep_releases {p q w : Bool} (h : Keep r s) : Keep r (releases s p q w) := h
theorem keep_applyReleases (h : Keep r s) : Keep r (applyReleases s) := by
  have h1 : Keep r (if s.flt.rel0 = true then dropCtxHold s .c0 else s) := keep_ite (keep_dropCtxHold h) h
  have h2 := keep_ite (p := s.flt.rel1 = true) (keep_dropCtxHold (c := .c1) h1) h1
  have h3 := keep_ite (p := s.flt.relC = true) (keep_dropCoreHold h2) h2
  exact keep_flt h3 rfl
theorem keep_releaseCtx {c : Ctx} (h : Keep r s) : Keep r (releaseCtx s c) := h
theorem keep_releaseCore (h : Keep r s) : Keep r (releaseCore s) := h
theorem keep_updateOut (h : Keep r s) : Keep r (updateOut s) := h
theorem keep_collect (h : Keep r s) : Keep r (collect s) :=
  keep_updateOut (keep_foldl (fun _ _ => keep_applyOcc) _ _ (keep_flt (keep_applyReleases h) rfl))
theorem keep_restExpire (h : Keep r s) : Keep r (restExpire s) := h

/-! ### Flags -/

theorem keep_discardFlit {c : FlitCheck} (h : Keep r s) : Keep r (discardFlit s c) := by
  unfold discardFlit
  split
  · exact keep_report h
  · exact keep_report (keep_count h)
  · exact keep_report h
  · exact keep_report (keep_count h)
  · exact h
theorem keep_takeSet {f : W64} (h : Keep r s) : Keep r (takeSet s f) := by
  unfold takeSet; dsimp only; split <;> first | exact h | exact keep_discardFlit h
theorem keep_overset {c : Option Ctx} (h : Keep r s) : Keep r (overset s c) := keep_report (keep_count h)
theorem keep_changeFlag {f : Nat} {v : Flag} (h : Keep r s) : Keep r (changeFlag s f v) :=
  keep_ite h (keep_progress (keep_setFlag h))
theorem keep_updateFlag {l : List (Nat × Option Ctx)} {m : List (Nat × BitVec 4)} {f : Nat} (h : Keep r s) :
    Keep r (updateFlag l m s f) := keep_foldl (fun _ _ => keep_overset) _ _ (keep_changeFlag h)
theorem keep_applyFlags (h : Keep r s) : Keep r (applyFlags s) := by
  have k : Keep r (s.selfFlits.foldl takeSet { s with selfFlits := [] }) := keep_foldl (fun _ _ => keep_takeSet) _ _ h
  exact keep_foldl (fun _ _ => keep_updateFlag) _ _ k
theorem keep_tellHead {o : BitVec 20} {c : Ctx} {e : Eng} (h : Keep r s) : Keep r (tellHead s o c e) := by
  unfold tellHead
  split
  · exact keep_ite (keep_modCtx h fun _ hx => ctx_setHeadWait hx _ _) h
  · exact h
theorem keep_tellHeads {o : BitVec 20} (h : Keep r s) : Keep r (tellHeads s o) :=
  keep_foldl (fun _ _ k => keep_foldl (fun _ _ => keep_tellHead) _ _ k) _ _ h
theorem keep_rxTab {v : List RxEntry} (h : Keep r s) : Keep r { s with rxTab := v } := h
theorem keep_applyMark {m : Mark} (h : Keep r s) : Keep r (applyMark s m) := by
  have k : ∀ l : List Nat, Keep r (l.foldl (fun s f => changeFlag s f (markFlag m (getFlag s f))) s) :=
    fun l => keep_foldl (fun _ _ => keep_changeFlag) l s h
  cases m with
  | lost o => exact keep_tellHeads (o := o) (keep_report (keep_rxTab (k _)))
  | park o => exact k _
  | unpark o => exact k _
theorem keep_applyMarks (h : Keep r s) : Keep r (applyMarks s) := keep_foldl (fun _ _ => keep_applyMark) _ _ h
theorem ctx_resume (h : CtxCanon x) : CtxCanon (resume x) := by unfold resume; split <;> exact h
theorem keep_judgeFwait {c : Ctx} (h : Keep r s) : Keep r (judgeFwait s c) := by
  unfold judgeFwait
  split
  · dsimp only
    split
    · exact keep_modCtx h fun _ hx => hx
    · split
      · exact keep_modCtx h fun _ hx => ctx_setCR (ctx_resume hx) 1
      · split <;> first | exact keep_modCtx h fun _ hx => ctx_setCR hx 2 | exact h
  · exact h
theorem keep_judgeHead {c : Ctx} {e : Eng} (h : Keep r s) : Keep r (judgeHead s c e) := by
  unfold judgeHead
  split
  · dsimp only
    repeat' split
    all_goals first
      | exact h
      | exact keep_modCtx h fun _ hx => ctx_setHeadWait hx _ _
      | exact keep_modCtx h fun _ hx => ctx_setCR (ctx_setHeadWait hx _ _) 1
      | exact keep_modCtx h fun _ hx => ctx_setCR hx 2
  · exact h
theorem keep_judgeSall {q : Running} (h : Keep r s) : Keep r (judgeSall s q) := by
  unfold judgeSall
  split
  · dsimp only
    split
    · exact keep_setJob h trivial
    · split
      · exact keep_modCtx (keep_dropRun h) fun _ hx => ctx_setCR hx 1
      · split <;> first | exact keep_modCtx h fun _ hx => ctx_setCR hx 2 | exact h
  · exact h
theorem keep_judgeWaits (h : Keep r s) : Keep r (judgeWaits s) := by
  unfold judgeWaits
  exact keep_foldl (fun _ _ => keep_judgeSall) _ _ (keep_foldl (fun _ _ k => keep_foldl (fun _ _ => keep_judgeHead) _ _ k) _ _
    (keep_foldl (fun _ _ => keep_judgeFwait) _ _ h))

/-! ### Scratchpad accesses -/

theorem keep_corrected {c : Option Ctx} {w : Nat} (h : Keep r s) : Keep r (corrected c s w) := by
  have k : Keep r (report (count s 12 1) fSpadCe 8 c) := keep_report (keep_count h)
  unfold corrected
  dsimp only
  split <;> exact k
theorem keep_cleanWords {ws : List Nat} (h : Keep r s) : Keep r (cleanWords s ws) :=
  keep_spadErr h (swf_foldl _ _ (fun _ _ => swf_sput _ _ _ _) _ _)
theorem keep_spadPut {a : Nat} {bs : List Byte} (h : Keep r s) : Keep r (spadPut s a bs) := keep_spad h (swf_sputs 0 _ _ _)
theorem keep_checkWords {c : Option Ctx} {ws : List Nat} (h : Keep r s) : Keep r (checkWords s c ws) :=
  keep_foldl (fun _ _ => keep_corrected) _ _ h
theorem keep_notePage {p : Nat} (h : Keep r s) : Keep r (notePage s p) := by unfold notePage; split <;> exact h
theorem keep_noteRead {u : Who} {p : Nat} (h : Keep r s) : Keep r (noteRead s u p) := by
  unfold noteRead; dsimp only; split <;> exact h
theorem keep_storeLine {u : Who} {k : Acc} {a : Nat} {bs : List Byte} (h : Keep r s) : Keep r (storeLine s u k a bs) :=
  keep_ite (keep_spadPut h) (keep_spadPut h)
theorem keep_takeOwners {u : Who} {k : Acc} {a n : Nat} (h : Keep r s) : Keep r (takeOwners s u k a n) := by
  unfold takeOwners
  split
  · exact h
  · split
    · exact keep_accOwn h (swf_foldl _ _ (fun _ _ => swf_sput _ _ _ _) _ _)
    · exact keep_dropOwners h
theorem keep_storeOwned {u : Who} {k : Acc} {a : Nat} {bs : List Byte} (h : Keep r s) : Keep r (storeOwned s u k a bs) :=
  keep_takeOwners (keep_ite (keep_storeLine h) (keep_storeLine h))
theorem keep_retract {e : SpadAcc} {f : Nat} (h : Keep r s) : Keep r (retract s e f) := by
  unfold retract
  split
  · exact h
  · dsimp only
    refine keep_report ?_
    have k := keep_foldl (r := r) (f := fun t (x : SpadAcc) => setPage t x.page (judgeStep (pageBase t x.page) (pageAccs t x.page)).1)
      (fun _ _ => keep_setPage)
    split
    · exact keep_leaveArray (keep_any (keep_abandon (keep_dropRun (k _ _ (keep_any (keep_foldl (fun _ _ => keep_spadPut) _ _ h))))))
    · exact k _ _ (keep_any (keep_foldl (fun _ _ => keep_spadPut) _ _ h))
theorem keep_rejudge {p : Nat} {es : List SpadAcc} (h : Keep r s) : Keep r (rejudge s p es) :=
  keep_setPage (keep_foldl (fun _ _ => keep_retract) _ _ h)
/-- An access that a page's state admits. -/
theorem keep_admit {u : Who} {k : Acc} {p : Nat} (h : Keep r s) : ∀ t, admitAccess s u k p = .ok t → Keep r t := by
  intro t e
  unfold admitAccess at e
  dsimp only at e
  repeat' split at e
  all_goals first
    | cases e; exact h
    | cases e; exact keep_rejudge (keep_noteRead (keep_notePage h))
    | cases e; exact keep_rejudge (keep_notePage h)
    | (cases e; exact keep_ite (keep_noteRead (keep_setPage (keep_notePage h))) (keep_setPage (keep_notePage h)))
    | (cases e; exact keep_noteRead (keep_setPage (keep_notePage h)))
    | (cases e; exact keep_setPage (keep_notePage h))
    | cases e
theorem keep_lineRead {u : Who} {a n : Nat} (h : Keep r s) : Keep r (lineRead s u a n).s := by
  unfold lineRead
  split
  · exact h
  · next t e =>
    have k := keep_admit h t e
    dsimp only
    split <;> first | exact keep_checkWords k | exact keep_checkWords h
theorem keep_lineWrite {u : Who} {k : Acc} {a : Nat} {bs : List Byte} (h : Keep r s) : Keep r (lineWrite s u k a bs).s := by
  unfold lineWrite
  split
  · exact h
  · next t e =>
    have k := keep_admit h t e
    dsimp only
    generalize (if _ = Acc.write then _ else _ : List Nat) = part
    split <;> first | exact keep_storeOwned (keep_cleanWords (keep_checkWords k)) | exact keep_checkWords h
theorem keep_runRead {u : Who} {k : Nat} : ∀ {s : State} {a n : Nat}, Keep r s → Keep r (runRead u k s a n).s := by
  induction k with
  | zero => intro s a n h; exact h
  | succ k ih =>
    intro s a n h
    unfold runRead
    split
    · exact h
    · dsimp only
      split <;> first | exact keep_lineRead h | exact ih (keep_lineRead h)
theorem keep_runWrite {u : Who} {m : Acc} {k : Nat} :
    ∀ {s : State} {a : Nat} {bs : List Byte}, Keep r s → Keep r (runWrite u m k s a bs).s := by
  induction k with
  | zero => intro s a bs h; exact h
  | succ k ih =>
    intro s a bs h
    unfold runWrite
    split
    · exact h
    · dsimp only
      split <;> first | exact keep_lineWrite h | exact ih (keep_lineWrite h)
theorem keep_wordRead {u : Who} {v : Handle} {o n : Nat} (h : Keep r s) : Keep r (wordRead s u v o n).s := keep_runRead h
theorem keep_wordWrite {u : Who} {v : Handle} {m : Acc} {o : Nat} {bs : List Byte} (h : Keep r s) :
    Keep r (wordWrite s u v m o bs).s := keep_runWrite h
theorem keep_urgent {p : CopyPage → Bool} (h : Keep r s) : Keep r (urgent s p) := h
theorem keep_urge {ps : List Nat} (h : Keep r s) : Keep r (urge s ps) := h

end Sys2Proof.Machine
end

