-- ==== Sys2Proof/Laws/State.lean ====
section
/-! SUPPORT. What each shared update of the state leaves in each field: one lemma for a field and an update. -/

namespace Sys2Proof.Machine

@[simp] theorem setCtx_pending (s : State) (c : Ctx) (x : Context) : (setCtx s c x).pending = s.pending := by cases c <;> rfl
@[simp] theorem setCtx_freeCtr (s : State) (c : Ctx) (x : Context) : (setCtx s c x).freeCtr = s.freeCtr := by cases c <;> rfl
@[simp] theorem setCtx_features (s : State) (c : Ctx) (x : Context) : (setCtx s c x).features = s.features := by cases c <;> rfl
@[simp] theorem setCtx_powered (s : State) (c : Ctx) (x : Context) : (setCtx s c x).powered = s.powered := by cases c <;> rfl
@[simp] theorem setCtx_vcore (s : State) (c : Ctx) (x : Context) : (setCtx s c x).vcore = s.vcore := by cases c <;> rfl
@[simp] theorem setCtx_vmem (s : State) (c : Ctx) (x : Context) : (setCtx s c x).vmem = s.vmem := by cases c <;> rfl
@[simp] theorem setCtx_rstN (s : State) (c : Ctx) (x : Context) : (setCtx s c x).rstN = s.rstN := by cases c <;> rfl
@[simp] theorem setCtx_wir (s : State) (c : Ctx) (x : Context) : (setCtx s c x).wir = s.wir := by cases c <;> rfl
@[simp] theorem setCtx_wrap (s : State) (c : Ctx) (x : Context) : (setCtx s c x).wrap = s.wrap := by cases c <;> rfl
@[simp] theorem setCtx_testRes (s : State) (c : Ctx) (x : Context) : (setCtx s c x).testRes = s.testRes := by cases c <;> rfl
@[simp] theorem setCtx_core (s : State) (c : Ctx) (x : Context) : (setCtx s c x).core = s.core := by cases c <;> rfl
@[simp] theorem setCtx_parked (s : State) (c : Ctx) (x : Context) : (setCtx s c x).parked = s.parked := by cases c <;> rfl
@[simp] theorem setCtx_serial (s : State) (c : Ctx) (x : Context) : (setCtx s c x).serial = s.serial := by cases c <;> rfl
@[simp] theorem setCtx_pwrdom (s : State) (c : Ctx) (x : Context) : (setCtx s c x).pwrdom = s.pwrdom := by cases c <;> rfl
@[simp] theorem setCtx_chainAddr (s : State) (c : Ctx) (x : Context) : (setCtx s c x).chainAddr = s.chainAddr := by cases c <;> rfl
@[simp] theorem setCtx_seqWr (s : State) (c : Ctx) (x : Context) : (setCtx s c x).seqWr = s.seqWr := by cases c <;> rfl
@[simp] theorem setCtx_seqBc (s : State) (c : Ctx) (x : Context) : (setCtx s c x).seqBc = s.seqBc := by cases c <;> rfl
@[simp] theorem setCtx_mcOut (s : State) (c : Ctx) (x : Context) : (setCtx s c x).mcOut = s.mcOut := by cases c <;> rfl
@[simp] theorem setCtx_cutAddr (s : State) (c : Ctx) (x : Context) : (setCtx s c x).cutAddr = s.cutAddr := by cases c <;> rfl
@[simp] theorem setCtx_cutReq (s : State) (c : Ctx) (x : Context) : (setCtx s c x).cutReq = s.cutReq := by cases c <;> rfl
@[simp] theorem setCtx_flags (s : State) (c : Ctx) (x : Context) : (setCtx s c x).flags = s.flags := by cases c <;> rfl
@[simp] theorem setCtx_stepSets (s : State) (c : Ctx) (x : Context) : (setCtx s c x).stepSets = s.stepSets := by cases c <;> rfl
@[simp] theorem setCtx_stepClears (s : State) (c : Ctx) (x : Context) : (setCtx s c x).stepClears = s.stepClears := by cases c <;> rfl
@[simp] theorem setCtx_stepMarks (s : State) (c : Ctx) (x : Context) : (setCtx s c x).stepMarks = s.stepMarks := by cases c <;> rfl
@[simp] theorem setCtx_stepOps (s : State) (c : Ctx) (x : Context) : (setCtx s c x).stepOps = s.stepOps := by cases c <;> rfl
@[simp] theorem setCtx_selfFlits (s : State) (c : Ctx) (x : Context) : (setCtx s c x).selfFlits = s.selfFlits := by cases c <;> rfl
@[simp] theorem setCtx_syncQ (s : State) (c : Ctx) (x : Context) : (setCtx s c x).syncQ = s.syncQ := by cases c <;> rfl
@[simp] theorem setCtx_syncSent (s : State) (c : Ctx) (x : Context) : (setCtx s c x).syncSent = s.syncSent := by cases c <;> rfl
@[simp] theorem setCtx_stepSpad (s : State) (c : Ctx) (x : Context) : (setCtx s c x).stepSpad = s.stepSpad := by cases c <;> rfl
@[simp] theorem setCtx_stepPages (s : State) (c : Ctx) (x : Context) : (setCtx s c x).stepPages = s.stepPages := by cases c <;> rfl
@[simp] theorem setCtx_accOwn (s : State) (c : Ctx) (x : Context) : (setCtx s c x).accOwn = s.accOwn := by cases c <;> rfl
@[simp] theorem setCtx_spad (s : State) (c : Ctx) (x : Context) : (setCtx s c x).spad = s.spad := by cases c <;> rfl
@[simp] theorem setCtx_spadErr (s : State) (c : Ctx) (x : Context) : (setCtx s c x).spadErr = s.spadErr := by cases c <;> rfl
@[simp] theorem setCtx_wbPend (s : State) (c : Ctx) (x : Context) : (setCtx s c x).wbPend = s.wbPend := by cases c <;> rfl
@[simp] theorem setCtx_scrub (s : State) (c : Ctx) (x : Context) : (setCtx s c x).scrub = s.scrub := by cases c <;> rfl
@[simp] theorem setCtx_checked (s : State) (c : Ctx) (x : Context) : (setCtx s c x).checked = s.checked := by cases c <;> rfl
@[simp] theorem setCtx_pages (s : State) (c : Ctx) (x : Context) : (setCtx s c x).pages = s.pages := by cases c <;> rfl
@[simp] theorem setCtx_handles (s : State) (c : Ctx) (x : Context) : (setCtx s c x).handles = s.handles := by cases c <;> rfl
@[simp] theorem setCtx_acc (s : State) (c : Ctx) (x : Context) : (setCtx s c x).acc = s.acc := by cases c <;> rfl
@[simp] theorem setCtx_accErr (s : State) (c : Ctx) (x : Context) : (setCtx s c x).accErr = s.accErr := by cases c <;> rfl
@[simp] theorem setCtx_stepAcc (s : State) (c : Ctx) (x : Context) : (setCtx s c x).stepAcc = s.stepAcc := by cases c <;> rfl
@[simp] theorem setCtx_mesh (s : State) (c : Ctx) (x : Context) : (setCtx s c x).mesh = s.mesh := by cases c <;> rfl
@[simp] theorem setCtx_stat (s : State) (c : Ctx) (x : Context) : (setCtx s c x).stat = s.stat := by cases c <;> rfl
@[simp] theorem setCtx_statErr (s : State) (c : Ctx) (x : Context) : (setCtx s c x).statErr = s.statErr := by cases c <;> rfl
@[simp] theorem setCtx_imem (s : State) (c : Ctx) (x : Context) : (setCtx s c x).imem = s.imem := by cases c <;> rfl
@[simp] theorem setCtx_imemLen (s : State) (c : Ctx) (x : Context) : (setCtx s c x).imemLen = s.imemLen := by cases c <;> rfl
@[simp] theorem setCtx_entry (s : State) (c : Ctx) (x : Context) : (setCtx s c x).entry = s.entry := by cases c <;> rfl
@[simp] theorem setCtx_dmem (s : State) (c : Ctx) (x : Context) : (setCtx s c x).dmem = s.dmem := by cases c <;> rfl
@[simp] theorem setCtx_dmemStep (s : State) (c : Ctx) (x : Context) : (setCtx s c x).dmemStep = s.dmemStep := by cases c <;> rfl
@[simp] theorem setCtx_trackers (s : State) (c : Ctx) (x : Context) : (setCtx s c x).trackers = s.trackers := by cases c <;> rfl
@[simp] theorem setCtx_stepTrk (s : State) (c : Ctx) (x : Context) : (setCtx s c x).stepTrk = s.stepTrk := by cases c <;> rfl
@[simp] theorem setCtx_spadWin (s : State) (c : Ctx) (x : Context) : (setCtx s c x).spadWin = s.spadWin := by cases c <;> rfl
@[simp] theorem setCtx_running (s : State) (c : Ctx) (x : Context) : (setCtx s c x).running = s.running := by cases c <;> rfl
@[simp] theorem setCtx_nextId (s : State) (c : Ctx) (x : Context) : (setCtx s c x).nextId = s.nextId := by cases c <;> rfl
@[simp] theorem setCtx_stepDone (s : State) (c : Ctx) (x : Context) : (setCtx s c x).stepDone = s.stepDone := by cases c <;> rfl
@[simp] theorem setCtx_units (s : State) (c : Ctx) (x : Context) : (setCtx s c x).units = s.units := by cases c <;> rfl
@[simp] theorem setCtx_outst (s : State) (c : Ctx) (x : Context) : (setCtx s c x).outst = s.outst := by cases c <;> rfl
@[simp] theorem setCtx_retired (s : State) (c : Ctx) (x : Context) : (setCtx s c x).retired = s.retired := by cases c <;> rfl
@[simp] theorem setCtx_rxTab (s : State) (c : Ctx) (x : Context) : (setCtx s c x).rxTab = s.rxTab := by cases c <;> rfl
@[simp] theorem setCtx_winAcks (s : State) (c : Ctx) (x : Context) : (setCtx s c x).winAcks = s.winAcks := by cases c <;> rfl
@[simp] theorem setCtx_held (s : State) (c : Ctx) (x : Context) : (setCtx s c x).held = s.held := by cases c <;> rfl
@[simp] theorem setCtx_rstDue (s : State) (c : Ctx) (x : Context) : (setCtx s c x).rstDue = s.rstDue := by cases c <;> rfl
@[simp] theorem setCtx_winDone (s : State) (c : Ctx) (x : Context) : (setCtx s c x).winDone = s.winDone := by cases c <;> rfl
@[simp] theorem setCtx_perfLast (s : State) (c : Ctx) (x : Context) : (setCtx s c x).perfLast = s.perfLast := by cases c <;> rfl
@[simp] theorem setCtx_mgmt (s : State) (c : Ctx) (x : Context) : (setCtx s c x).mgmt = s.mgmt := by cases c <;> rfl
@[simp] theorem setCtx_pinA (s : State) (c : Ctx) (x : Context) : (setCtx s c x).pinA = s.pinA := by cases c <;> rfl
@[simp] theorem setCtx_pinB (s : State) (c : Ctx) (x : Context) : (setCtx s c x).pinB = s.pinB := by cases c <;> rfl
@[simp] theorem setCtx_faTx (s : State) (c : Ctx) (x : Context) : (setCtx s c x).faTx = s.faTx := by cases c <;> rfl
@[simp] theorem setCtx_fbTx (s : State) (c : Ctx) (x : Context) : (setCtx s c x).fbTx = s.fbTx := by cases c <;> rfl
@[simp] theorem setCtx_txA (s : State) (c : Ctx) (x : Context) : (setCtx s c x).txA = s.txA := by cases c <;> rfl
@[simp] theorem setCtx_txB (s : State) (c : Ctx) (x : Context) : (setCtx s c x).txB = s.txB := by cases c <;> rfl
@[simp] theorem setCtx_rxA (s : State) (c : Ctx) (x : Context) : (setCtx s c x).rxA = s.rxA := by cases c <;> rfl
@[simp] theorem setCtx_rxB (s : State) (c : Ctx) (x : Context) : (setCtx s c x).rxB = s.rxB := by cases c <;> rfl
@[simp] theorem setCtx_rxS (s : State) (c : Ctx) (x : Context) : (setCtx s c x).rxS = s.rxS := by cases c <;> rfl
@[simp] theorem setCtx_linkA (s : State) (c : Ctx) (x : Context) : (setCtx s c x).linkA = s.linkA := by cases c <;> rfl
@[simp] theorem setCtx_linkB (s : State) (c : Ctx) (x : Context) : (setCtx s c x).linkB = s.linkB := by cases c <;> rfl
@[simp] theorem setCtx_epoch (s : State) (c : Ctx) (x : Context) : (setCtx s c x).epoch = s.epoch := by cases c <;> rfl
@[simp] theorem setCtx_ilPtr (s : State) (c : Ctx) (x : Context) : (setCtx s c x).ilPtr = s.ilPtr := by cases c <;> rfl
@[simp] theorem setCtx_pstate (s : State) (c : Ctx) (x : Context) : (setCtx s c x).pstate = s.pstate := by cases c <;> rfl
@[simp] theorem setCtx_proof (s : State) (c : Ctx) (x : Context) : (setCtx s c x).proof = s.proof := by cases c <;> rfl
@[simp] theorem setCtx_bakeOn (s : State) (c : Ctx) (x : Context) : (setCtx s c x).bakeOn = s.bakeOn := by cases c <;> rfl
@[simp] theorem setCtx_bake (s : State) (c : Ctx) (x : Context) : (setCtx s c x).bake = s.bake := by cases c <;> rfl
@[simp] theorem setCtx_cfg (s : State) (c : Ctx) (x : Context) : (setCtx s c x).cfg = s.cfg := by cases c <;> rfl
@[simp] theorem setCtx_setRej (s : State) (c : Ctx) (x : Context) : (setCtx s c x).setRej = s.setRej := by cases c <;> rfl
@[simp] theorem setCtx_warnDom (s : State) (c : Ctx) (x : Context) : (setCtx s c x).warnDom = s.warnDom := by cases c <;> rfl
@[simp] theorem setCtx_fw (s : State) (c : Ctx) (x : Context) : (setCtx s c x).fw = s.fw := by cases c <;> rfl
@[simp] theorem setCtx_sb (s : State) (c : Ctx) (x : Context) : (setCtx s c x).sb = s.sb := by cases c <;> rfl
@[simp] theorem setCtx_flt (s : State) (c : Ctx) (x : Context) : (setCtx s c x).flt = s.flt := by cases c <;> rfl
@[simp] theorem setCtx_tmr (s : State) (c : Ctx) (x : Context) : (setCtx s c x).tmr = s.tmr := by cases c <;> rfl
@[simp] theorem setCtx_pwr (s : State) (c : Ctx) (x : Context) : (setCtx s c x).pwr = s.pwr := by cases c <;> rfl
@[simp] theorem setCtx_perf (s : State) (c : Ctx) (x : Context) : (setCtx s c x).perf = s.perf := by cases c <;> rfl
@[simp] theorem setCtx_perfStep (s : State) (c : Ctx) (x : Context) : (setCtx s c x).perfStep = s.perfStep := by cases c <;> rfl
@[simp] theorem setCtx_perfStop (s : State) (c : Ctx) (x : Context) : (setCtx s c x).perfStop = s.perfStop := by cases c <;> rfl
@[simp] theorem setCtx_steps (s : State) (c : Ctx) (x : Context) : (setCtx s c x).steps = s.steps := by cases c <;> rfl
@[simp] theorem setCtx_st (s : State) (c : Ctx) (x : Context) : (setCtx s c x).st = s.st := by cases c <;> rfl
@[simp] theorem modCtx_pending (s : State) (c : Ctx) (f : Context → Context) : (modCtx s c f).pending = s.pending := by cases c <;> rfl
@[simp] theorem modCtx_freeCtr (s : State) (c : Ctx) (f : Context → Context) : (modCtx s c f).freeCtr = s.freeCtr := by cases c <;> rfl
@[simp] theorem modCtx_features (s : State) (c : Ctx) (f : Context → Context) : (modCtx s c f).features = s.features := by cases c <;> rfl
@[simp] theorem modCtx_powered (s : State) (c : Ctx) (f : Context → Context) : (modCtx s c f).powered = s.powered := by cases c <;> rfl
@[simp] theorem modCtx_vcore (s : State) (c : Ctx) (f : Context → Context) : (modCtx s c f).vcore = s.vcore := by cases c <;> rfl
@[simp] theorem modCtx_vmem (s : State) (c : Ctx) (f : Context → Context) : (modCtx s c f).vmem = s.vmem := by cases c <;> rfl
@[simp] theorem modCtx_rstN (s : State) (c : Ctx) (f : Context → Context) : (modCtx s c f).rstN = s.rstN := by cases c <;> rfl
@[simp] theorem modCtx_wir (s : State) (c : Ctx) (f : Context → Context) : (modCtx s c f).wir = s.wir := by cases c <;> rfl
@[simp] theorem modCtx_wrap (s : State) (c : Ctx) (f : Context → Context) : (modCtx s c f).wrap = s.wrap := by cases c <;> rfl
@[simp] theorem modCtx_testRes (s : State) (c : Ctx) (f : Context → Context) : (modCtx s c f).testRes = s.testRes := by cases c <;> rfl
@[simp] theorem modCtx_core (s : State) (c : Ctx) (f : Context → Context) : (modCtx s c f).core = s.core := by cases c <;> rfl
@[simp] theorem modCtx_parked (s : State) (c : Ctx) (f : Context → Context) : (modCtx s c f).parked = s.parked := by cases c <;> rfl
@[simp] theorem modCtx_serial (s : State) (c : Ctx) (f : Context → Context) : (modCtx s c f).serial = s.serial := by cases c <;> rfl
@[simp] theorem modCtx_pwrdom (s : State) (c : Ctx) (f : Context → Context) : (modCtx s c f).pwrdom = s.pwrdom := by cases c <;> rfl
@[simp] theorem modCtx_chainAddr (s : State) (c : Ctx) (f : Context → Context) : (modCtx s c f).chainAddr = s.chainAddr := by cases c <;> rfl
@[simp] theorem modCtx_seqWr (s : State) (c : Ctx) (f : Context → Context) : (modCtx s c f).seqWr = s.seqWr := by cases c <;> rfl
@[simp] theorem modCtx_seqBc (s : State) (c : Ctx) (f : Context → Context) : (modCtx s c f).seqBc = s.seqBc := by cases c <;> rfl
@[simp] theorem modCtx_mcOut (s : State) (c : Ctx) (f : Context → Context) : (modCtx s c f).mcOut = s.mcOut := by cases c <;> rfl
@[simp] theorem modCtx_cutAddr (s : State) (c : Ctx) (f : Context → Context) : (modCtx s c f).cutAddr = s.cutAddr := by cases c <;> rfl
@[simp] theorem modCtx_cutReq (s : State) (c : Ctx) (f : Context → Context) : (modCtx s c f).cutReq = s.cutReq := by cases c <;> rfl
@[simp] theorem modCtx_flags (s : State) (c : Ctx) (f : Context → Context) : (modCtx s c f).flags = s.flags := by cases c <;> rfl
@[simp] theorem modCtx_stepSets (s : State) (c : Ctx) (f : Context → Context) : (modCtx s c f).stepSets = s.stepSets := by cases c <;> rfl
@[simp] theorem modCtx_stepClears (s : State) (c : Ctx) (f : Context → Context) : (modCtx s c f).stepClears = s.stepClears := by cases c <;> rfl
@[simp] theorem modCtx_stepMarks (s : State) (c : Ctx) (f : Context → Context) : (modCtx s c f).stepMarks = s.stepMarks := by cases c <;> rfl
@[simp] theorem modCtx_stepOps (s : State) (c : Ctx) (f : Context → Context) : (modCtx s c f).stepOps = s.stepOps := by cases c <;> rfl
@[simp] theorem modCtx_selfFlits (s : State) (c : Ctx) (f : Context → Context) : (modCtx s c f).selfFlits = s.selfFlits := by cases c <;> rfl
@[simp] theorem modCtx_syncQ (s : State) (c : Ctx) (f : Context → Context) : (modCtx s c f).syncQ = s.syncQ := by cases c <;> rfl
@[simp] theorem modCtx_syncSent (s : State) (c : Ctx) (f : Context → Context) : (modCtx s c f).syncSent = s.syncSent := by cases c <;> rfl
@[simp] theorem modCtx_stepSpad (s : State) (c : Ctx) (f : Context → Context) : (modCtx s c f).stepSpad = s.stepSpad := by cases c <;> rfl
@[simp] theorem modCtx_stepPages (s : State) (c : Ctx) (f : Context → Context) : (modCtx s c f).stepPages = s.stepPages := by cases c <;> rfl
@[simp] theorem modCtx_accOwn (s : State) (c : Ctx) (f : Context → Context) : (modCtx s c f).accOwn = s.accOwn := by cases c <;> rfl
@[simp] theorem modCtx_spad (s : State) (c : Ctx) (f : Context → Context) : (modCtx s c f).spad = s.spad := by cases c <;> rfl
@[simp] theorem modCtx_spadErr (s : State) (c : Ctx) (f : Context → Context) : (modCtx s c f).spadErr = s.spadErr := by cases c <;> rfl
@[simp] theorem modCtx_wbPend (s : State) (c : Ctx) (f : Context → Context) : (modCtx s c f).wbPend = s.wbPend := by cases c <;> rfl
@[simp] theorem modCtx_scrub (s : State) (c : Ctx) (f : Context → Context) : (modCtx s c f).scrub = s.scrub := by cases c <;> rfl
@[simp] theorem modCtx_checked (s : State) (c : Ctx) (f : Context → Context) : (modCtx s c f).checked = s.checked := by cases c <;> rfl
@[simp] theorem modCtx_pages (s : State) (c : Ctx) (f : Context → Context) : (modCtx s c f).pages = s.pages := by cases c <;> rfl
@[simp] theorem modCtx_handles (s : State) (c : Ctx) (f : Context → Context) : (modCtx s c f).handles = s.handles := by cases c <;> rfl
@[simp] theorem modCtx_acc (s : State) (c : Ctx) (f : Context → Context) : (modCtx s c f).acc = s.acc := by cases c <;> rfl
@[simp] theorem modCtx_accErr (s : State) (c : Ctx) (f : Context → Context) : (modCtx s c f).accErr = s.accErr := by cases c <;> rfl
@[simp] theorem modCtx_stepAcc (s : State) (c : Ctx) (f : Context → Context) : (modCtx s c f).stepAcc = s.stepAcc := by cases c <;> rfl
@[simp] theorem modCtx_mesh (s : State) (c : Ctx) (f : Context → Context) : (modCtx s c f).mesh = s.mesh := by cases c <;> rfl
@[simp] theorem modCtx_stat (s : State) (c : Ctx) (f : Context → Context) : (modCtx s c f).stat = s.stat := by cases c <;> rfl
@[simp] theorem modCtx_statErr (s : State) (c : Ctx) (f : Context → Context) : (modCtx s c f).statErr = s.statErr := by cases c <;> rfl
@[simp] theorem modCtx_imem (s : State) (c : Ctx) (f : Context → Context) : (modCtx s c f).imem = s.imem := by cases c <;> rfl
@[simp] theorem modCtx_imemLen (s : State) (c : Ctx) (f : Context → Context) : (modCtx s c f).imemLen = s.imemLen := by cases c <;> rfl
@[simp] theorem modCtx_entry (s : State) (c : Ctx) (f : Context → Context) : (modCtx s c f).entry = s.entry := by cases c <;> rfl
@[simp] theorem modCtx_dmem (s : State) (c : Ctx) (f : Context → Context) : (modCtx s c f).dmem = s.dmem := by cases c <;> rfl
@[simp] theorem modCtx_dmemStep (s : State) (c : Ctx) (f : Context → Context) : (modCtx s c f).dmemStep = s.dmemStep := by cases c <;> rfl
@[simp] theorem modCtx_trackers (s : State) (c : Ctx) (f : Context → Context) : (modCtx s c f).trackers = s.trackers := by cases c <;> rfl
@[simp] theorem modCtx_stepTrk (s : State) (c : Ctx) (f : Context → Context) : (modCtx s c f).stepTrk = s.stepTrk := by cases c <;> rfl
@[simp] theorem modCtx_spadWin (s : State) (c : Ctx) (f : Context → Context) : (modCtx s c f).spadWin = s.spadWin := by cases c <;> rfl
@[simp] theorem modCtx_running (s : State) (c : Ctx) (f : Context → Context) : (modCtx s c f).running = s.running := by cases c <;> rfl
@[simp] theorem modCtx_nextId (s : State) (c : Ctx) (f : Context → Context) : (modCtx s c f).nextId = s.nextId := by cases c <;> rfl
@[simp] theorem modCtx_stepDone (s : State) (c : Ctx) (f : Context → Context) : (modCtx s c f).stepDone = s.stepDone := by cases c <;> rfl
@[simp] theorem modCtx_units (s : State) (c : Ctx) (f : Context → Context) : (modCtx s c f).units = s.units := by cases c <;> rfl
@[simp] theorem modCtx_outst (s : State) (c : Ctx) (f : Context → Context) : (modCtx s c f).outst = s.outst := by cases c <;> rfl
@[simp] theorem modCtx_retired (s : State) (c : Ctx) (f : Context → Context) : (modCtx s c f).retired = s.retired := by cases c <;> rfl
@[simp] theorem modCtx_rxTab (s : State) (c : Ctx) (f : Context → Context) : (modCtx s c f).rxTab = s.rxTab := by cases c <;> rfl
@[simp] theorem modCtx_winAcks (s : State) (c : Ctx) (f : Context → Context) : (modCtx s c f).winAcks = s.winAcks := by cases c <;> rfl
@[simp] theorem modCtx_held (s : State) (c : Ctx) (f : Context → Context) : (modCtx s c f).held = s.held := by cases c <;> rfl
@[simp] theorem modCtx_rstDue (s : State) (c : Ctx) (f : Context → Context) : (modCtx s c f).rstDue = s.rstDue := by cases c <;> rfl
@[simp] theorem modCtx_winDone (s : State) (c : Ctx) (f : Context → Context) : (modCtx s c f).winDone = s.winDone := by cases c <;> rfl
@[simp] theorem modCtx_perfLast (s : State) (c : Ctx) (f : Context → Context) : (modCtx s c f).perfLast = s.perfLast := by cases c <;> rfl
@[simp] theorem modCtx_mgmt (s : State) (c : Ctx) (f : Context → Context) : (modCtx s c f).mgmt = s.mgmt := by cases c <;> rfl
@[simp] theorem modCtx_pinA (s : State) (c : Ctx) (f : Context → Context) : (modCtx s c f).pinA = s.pinA := by cases c <;> rfl
@[simp] theorem modCtx_pinB (s : State) (c : Ctx) (f : Context → Context) : (modCtx s c f).pinB = s.pinB := by cases c <;> rfl
@[simp] theorem modCtx_faTx (s : State) (c : Ctx) (f : Context → Context) : (modCtx s c f).faTx = s.faTx := by cases c <;> rfl
@[simp] theorem modCtx_fbTx (s : State) (c : Ctx) (f : Context → Context) : (modCtx s c f).fbTx = s.fbTx := by cases c <;> rfl
@[simp] theorem modCtx_txA (s : State) (c : Ctx) (f : Context → Context) : (modCtx s c f).txA = s.txA := by cases c <;> rfl
@[simp] theorem modCtx_txB (s : State) (c : Ctx) (f : Context → Context) : (modCtx s c f).txB = s.txB := by cases c <;> rfl
@[simp] theorem modCtx_rxA (s : State) (c : Ctx) (f : Context → Context) : (modCtx s c f).rxA = s.rxA := by cases c <;> rfl
@[simp] theorem modCtx_rxB (s : State) (c : Ctx) (f : Context → Context) : (modCtx s c f).rxB = s.rxB := by cases c <;> rfl
@[simp] theorem modCtx_rxS (s : State) (c : Ctx) (f : Context → Context) : (modCtx s c f).rxS = s.rxS := by cases c <;> rfl
@[simp] theorem modCtx_linkA (s : State) (c : Ctx) (f : Context → Context) : (modCtx s c f).linkA = s.linkA := by cases c <;> rfl
@[simp] theorem modCtx_linkB (s : State) (c : Ctx) (f : Context → Context) : (modCtx s c f).linkB = s.linkB := by cases c <;> rfl
@[simp] theorem modCtx_epoch (s : State) (c : Ctx) (f : Context → Context) : (modCtx s c f).epoch = s.epoch := by cases c <;> rfl
@[simp] theorem modCtx_ilPtr (s : State) (c : Ctx) (f : Context → Context) : (modCtx s c f).ilPtr = s.ilPtr := by cases c <;> rfl
@[simp] theorem modCtx_pstate (s : State) (c : Ctx) (f : Context → Context) : (modCtx s c f).pstate = s.pstate := by cases c <;> rfl
@[simp] theorem modCtx_proof (s : State) (c : Ctx) (f : Context → Context) : (modCtx s c f).proof = s.proof := by cases c <;> rfl
@[simp] theorem modCtx_bakeOn (s : State) (c : Ctx) (f : Context → Context) : (modCtx s c f).bakeOn = s.bakeOn := by cases c <;> rfl
@[simp] theorem modCtx_bake (s : State) (c : Ctx) (f : Context → Context) : (modCtx s c f).bake = s.bake := by cases c <;> rfl
@[simp] theorem modCtx_cfg (s : State) (c : Ctx) (f : Context → Context) : (modCtx s c f).cfg = s.cfg := by cases c <;> rfl
@[simp] theorem modCtx_setRej (s : State) (c : Ctx) (f : Context → Context) : (modCtx s c f).setRej = s.setRej := by cases c <;> rfl
@[simp] theorem modCtx_warnDom (s : State) (c : Ctx) (f : Context → Context) : (modCtx s c f).warnDom = s.warnDom := by cases c <;> rfl
@[simp] theorem modCtx_fw (s : State) (c : Ctx) (f : Context → Context) : (modCtx s c f).fw = s.fw := by cases c <;> rfl
@[simp] theorem modCtx_sb (s : State) (c : Ctx) (f : Context → Context) : (modCtx s c f).sb = s.sb := by cases c <;> rfl
@[simp] theorem modCtx_flt (s : State) (c : Ctx) (f : Context → Context) : (modCtx s c f).flt = s.flt := by cases c <;> rfl
@[simp] theorem modCtx_tmr (s : State) (c : Ctx) (f : Context → Context) : (modCtx s c f).tmr = s.tmr := by cases c <;> rfl
@[simp] theorem modCtx_pwr (s : State) (c : Ctx) (f : Context → Context) : (modCtx s c f).pwr = s.pwr := by cases c <;> rfl
@[simp] theorem modCtx_perf (s : State) (c : Ctx) (f : Context → Context) : (modCtx s c f).perf = s.perf := by cases c <;> rfl
@[simp] theorem modCtx_perfStep (s : State) (c : Ctx) (f : Context → Context) : (modCtx s c f).perfStep = s.perfStep := by cases c <;> rfl
@[simp] theorem modCtx_perfStop (s : State) (c : Ctx) (f : Context → Context) : (modCtx s c f).perfStop = s.perfStop := by cases c <;> rfl
@[simp] theorem modCtx_steps (s : State) (c : Ctx) (f : Context → Context) : (modCtx s c f).steps = s.steps := by cases c <;> rfl
@[simp] theorem modCtx_st (s : State) (c : Ctx) (f : Context → Context) : (modCtx s c f).st = s.st := by cases c <;> rfl
@[simp] theorem report_pending (s : State) (e r : Nat) (c : Option Ctx) : (report s e r c).pending = s.pending := rfl
@[simp] theorem report_freeCtr (s : State) (e r : Nat) (c : Option Ctx) : (report s e r c).freeCtr = s.freeCtr := rfl
@[simp] theorem report_features (s : State) (e r : Nat) (c : Option Ctx) : (report s e r c).features = s.features := rfl
@[simp] theorem report_powered (s : State) (e r : Nat) (c : Option Ctx) : (report s e r c).powered = s.powered := rfl
@[simp] theorem report_vcore (s : State) (e r : Nat) (c : Option Ctx) : (report s e r c).vcore = s.vcore := rfl
@[simp] theorem report_vmem (s : State) (e r : Nat) (c : Option Ctx) : (report s e r c).vmem = s.vmem := rfl
@[simp] theorem report_rstN (s : State) (e r : Nat) (c : Option Ctx) : (report s e r c).rstN = s.rstN := rfl
@[simp] theorem report_wir (s : State) (e r : Nat) (c : Option Ctx) : (report s e r c).wir = s.wir := rfl
@[simp] theorem report_wrap (s : State) (e r : Nat) (c : Option Ctx) : (report s e r c).wrap = s.wrap := rfl
@[simp] theorem report_testRes (s : State) (e r : Nat) (c : Option Ctx) : (report s e r c).testRes = s.testRes := rfl
@[simp] theorem report_core (s : State) (e r : Nat) (c : Option Ctx) : (report s e r c).core = s.core := rfl
@[simp] theorem report_parked (s : State) (e r : Nat) (c : Option Ctx) : (report s e r c).parked = s.parked := rfl
@[simp] theorem report_serial (s : State) (e r : Nat) (c : Option Ctx) : (report s e r c).serial = s.serial := rfl
@[simp] theorem report_pwrdom (s : State) (e r : Nat) (c : Option Ctx) : (report s e r c).pwrdom = s.pwrdom := rfl
@[simp] theorem report_chainAddr (s : State) (e r : Nat) (c : Option Ctx) : (report s e r c).chainAddr = s.chainAddr := rfl
@[simp] theorem report_seqWr (s : State) (e r : Nat) (c : Option Ctx) : (report s e r c).seqWr = s.seqWr := rfl
@[simp] theorem report_seqBc (s : State) (e r : Nat) (c : Option Ctx) : (report s e r c).seqBc = s.seqBc := rfl
@[simp] theorem report_mcOut (s : State) (e r : Nat) (c : Option Ctx) : (report s e r c).mcOut = s.mcOut := rfl
@[simp] theorem report_cutAddr (s : State) (e r : Nat) (c : Option Ctx) : (report s e r c).cutAddr = s.cutAddr := rfl
@[simp] theorem report_cutReq (s : State) (e r : Nat) (c : Option Ctx) : (report s e r c).cutReq = s.cutReq := rfl
@[simp] theorem report_c0 (s : State) (e r : Nat) (c : Option Ctx) : (report s e r c).c0 = s.c0 := rfl
@[simp] theorem report_c1 (s : State) (e r : Nat) (c : Option Ctx) : (report s e r c).c1 = s.c1 := rfl
@[simp] theorem report_flags (s : State) (e r : Nat) (c : Option Ctx) : (report s e r c).flags = s.flags := rfl
@[simp] theorem report_stepSets (s : State) (e r : Nat) (c : Option Ctx) : (report s e r c).stepSets = s.stepSets := rfl
@[simp] theorem report_stepClears (s : State) (e r : Nat) (c : Option Ctx) : (report s e r c).stepClears = s.stepClears := rfl
@[simp] theorem report_stepMarks (s : State) (e r : Nat) (c : Option Ctx) : (report s e r c).stepMarks = s.stepMarks := rfl
@[simp] theorem report_stepOps (s : State) (e r : Nat) (c : Option Ctx) : (report s e r c).stepOps = s.stepOps := rfl
@[simp] theorem report_selfFlits (s : State) (e r : Nat) (c : Option Ctx) : (report s e r c).selfFlits = s.selfFlits := rfl
@[simp] theorem report_syncQ (s : State) (e r : Nat) (c : Option Ctx) : (report s e r c).syncQ = s.syncQ := rfl
@[simp] theorem report_syncSent (s : State) (e r : Nat) (c : Option Ctx) : (report s e r c).syncSent = s.syncSent := rfl
@[simp] theorem report_stepSpad (s : State) (e r : Nat) (c : Option Ctx) : (report s e r c).stepSpad = s.stepSpad := rfl
@[simp] theorem report_stepPages (s : State) (e r : Nat) (c : Option Ctx) : (report s e r c).stepPages = s.stepPages := rfl
@[simp] theorem report_accOwn (s : State) (e r : Nat) (c : Option Ctx) : (report s e r c).accOwn = s.accOwn := rfl
@[simp] theorem report_spad (s : State) (e r : Nat) (c : Option Ctx) : (report s e r c).spad = s.spad := rfl
@[simp] theorem report_spadErr (s : State) (e r : Nat) (c : Option Ctx) : (report s e r c).spadErr = s.spadErr := rfl
@[simp] theorem report_wbPend (s : State) (e r : Nat) (c : Option Ctx) : (report s e r c).wbPend = s.wbPend := rfl
@[simp] theorem report_scrub (s : State) (e r : Nat) (c : Option Ctx) : (report s e r c).scrub = s.scrub := rfl
@[simp] theorem report_checked (s : State) (e r : Nat) (c : Option Ctx) : (report s e r c).checked = s.checked := rfl
@[simp] theorem report_pages (s : State) (e r : Nat) (c : Option Ctx) : (report s e r c).pages = s.pages := rfl
@[simp] theorem report_handles (s : State) (e r : Nat) (c : Option Ctx) : (report s e r c).handles = s.handles := rfl
@[simp] theorem report_acc (s : State) (e r : Nat) (c : Option Ctx) : (report s e r c).acc = s.acc := rfl
@[simp] theorem report_accErr (s : State) (e r : Nat) (c : Option Ctx) : (report s e r c).accErr = s.accErr := rfl
@[simp] theorem report_stepAcc (s : State) (e r : Nat) (c : Option Ctx) : (report s e r c).stepAcc = s.stepAcc := rfl
@[simp] theorem report_mesh (s : State) (e r : Nat) (c : Option Ctx) : (report s e r c).mesh = s.mesh := rfl
@[simp] theorem report_stat (s : State) (e r : Nat) (c : Option Ctx) : (report s e r c).stat = s.stat := rfl
@[simp] theorem report_statErr (s : State) (e r : Nat) (c : Option Ctx) : (report s e r c).statErr = s.statErr := rfl
@[simp] theorem report_imem (s : State) (e r : Nat) (c : Option Ctx) : (report s e r c).imem = s.imem := rfl
@[simp] theorem report_imemLen (s : State) (e r : Nat) (c : Option Ctx) : (report s e r c).imemLen = s.imemLen := rfl
@[simp] theorem report_entry (s : State) (e r : Nat) (c : Option Ctx) : (report s e r c).entry = s.entry := rfl
@[simp] theorem report_dmem (s : State) (e r : Nat) (c : Option Ctx) : (report s e r c).dmem = s.dmem := rfl
@[simp] theorem report_dmemStep (s : State) (e r : Nat) (c : Option Ctx) : (report s e r c).dmemStep = s.dmemStep := rfl
@[simp] theorem report_trackers (s : State) (e r : Nat) (c : Option Ctx) : (report s e r c).trackers = s.trackers := rfl
@[simp] theorem report_stepTrk (s : State) (e r : Nat) (c : Option Ctx) : (report s e r c).stepTrk = s.stepTrk := rfl
@[simp] theorem report_spadWin (s : State) (e r : Nat) (c : Option Ctx) : (report s e r c).spadWin = s.spadWin := rfl
@[simp] theorem report_running (s : State) (e r : Nat) (c : Option Ctx) : (report s e r c).running = s.running := rfl
@[simp] theorem report_nextId (s : State) (e r : Nat) (c : Option Ctx) : (report s e r c).nextId = s.nextId := rfl
@[simp] theorem report_stepDone (s : State) (e r : Nat) (c : Option Ctx) : (report s e r c).stepDone = s.stepDone := rfl
@[simp] theorem report_units (s : State) (e r : Nat) (c : Option Ctx) : (report s e r c).units = s.units := rfl
@[simp] theorem report_outst (s : State) (e r : Nat) (c : Option Ctx) : (report s e r c).outst = s.outst := rfl
@[simp] theorem report_retired (s : State) (e r : Nat) (c : Option Ctx) : (report s e r c).retired = s.retired := rfl
@[simp] theorem report_rxTab (s : State) (e r : Nat) (c : Option Ctx) : (report s e r c).rxTab = s.rxTab := rfl
@[simp] theorem report_winAcks (s : State) (e r : Nat) (c : Option Ctx) : (report s e r c).winAcks = s.winAcks := rfl
@[simp] theorem report_held (s : State) (e r : Nat) (c : Option Ctx) : (report s e r c).held = s.held := rfl
@[simp] theorem report_rstDue (s : State) (e r : Nat) (c : Option Ctx) : (report s e r c).rstDue = s.rstDue := rfl
@[simp] theorem report_winDone (s : State) (e r : Nat) (c : Option Ctx) : (report s e r c).winDone = s.winDone := rfl
@[simp] theorem report_perfLast (s : State) (e r : Nat) (c : Option Ctx) : (report s e r c).perfLast = s.perfLast := rfl
@[simp] theorem report_mgmt (s : State) (e r : Nat) (c : Option Ctx) : (report s e r c).mgmt = s.mgmt := rfl
@[simp] theorem report_pinA (s : State) (e r : Nat) (c : Option Ctx) : (report s e r c).pinA = s.pinA := rfl
@[simp] theorem report_pinB (s : State) (e r : Nat) (c : Option Ctx) : (report s e r c).pinB = s.pinB := rfl
@[simp] theorem report_faTx (s : State) (e r : Nat) (c : Option Ctx) : (report s e r c).faTx = s.faTx := rfl
@[simp] theorem report_fbTx (s : State) (e r : Nat) (c : Option Ctx) : (report s e r c).fbTx = s.fbTx := rfl
@[simp] theorem report_txA (s : State) (e r : Nat) (c : Option Ctx) : (report s e r c).txA = s.txA := rfl
@[simp] theorem report_txB (s : State) (e r : Nat) (c : Option Ctx) : (report s e r c).txB = s.txB := rfl
@[simp] theorem report_rxA (s : State) (e r : Nat) (c : Option Ctx) : (report s e r c).rxA = s.rxA := rfl
@[simp] theorem report_rxB (s : State) (e r : Nat) (c : Option Ctx) : (report s e r c).rxB = s.rxB := rfl
@[simp] theorem report_rxS (s : State) (e r : Nat) (c : Option Ctx) : (report s e r c).rxS = s.rxS := rfl
@[simp] theorem report_linkA (s : State) (e r : Nat) (c : Option Ctx) : (report s e r c).linkA = s.linkA := rfl
@[simp] theorem report_linkB (s : State) (e r : Nat) (c : Option Ctx) : (report s e r c).linkB = s.linkB := rfl
@[simp] theorem report_epoch (s : State) (e r : Nat) (c : Option Ctx) : (report s e r c).epoch = s.epoch := rfl
@[simp] theorem report_ilPtr (s : State) (e r : Nat) (c : Option Ctx) : (report s e r c).ilPtr = s.ilPtr := rfl
@[simp] theorem report_pstate (s : State) (e r : Nat) (c : Option Ctx) : (report s e r c).pstate = s.pstate := rfl
@[simp] theorem report_proof (s : State) (e r : Nat) (c : Option Ctx) : (report s e r c).proof = s.proof := rfl
@[simp] theorem report_bakeOn (s : State) (e r : Nat) (c : Option Ctx) : (report s e r c).bakeOn = s.bakeOn := rfl
@[simp] theorem report_bake (s : State) (e r : Nat) (c : Option Ctx) : (report s e r c).bake = s.bake := rfl
@[simp] theorem report_cfg (s : State) (e r : Nat) (c : Option Ctx) : (report s e r c).cfg = s.cfg := rfl
@[simp] theorem report_setRej (s : State) (e r : Nat) (c : Option Ctx) : (report s e r c).setRej = s.setRej := rfl
@[simp] theorem report_warnDom (s : State) (e r : Nat) (c : Option Ctx) : (report s e r c).warnDom = s.warnDom := rfl
@[simp] theorem report_fw (s : State) (e r : Nat) (c : Option Ctx) : (report s e r c).fw = s.fw := rfl
@[simp] theorem report_sb (s : State) (e r : Nat) (c : Option Ctx) : (report s e r c).sb = s.sb := rfl
@[simp] theorem report_tmr (s : State) (e r : Nat) (c : Option Ctx) : (report s e r c).tmr = s.tmr := rfl
@[simp] theorem report_pwr (s : State) (e r : Nat) (c : Option Ctx) : (report s e r c).pwr = s.pwr := rfl
@[simp] theorem report_perf (s : State) (e r : Nat) (c : Option Ctx) : (report s e r c).perf = s.perf := rfl
@[simp] theorem report_perfStep (s : State) (e r : Nat) (c : Option Ctx) : (report s e r c).perfStep = s.perfStep := rfl
@[simp] theorem report_perfStop (s : State) (e r : Nat) (c : Option Ctx) : (report s e r c).perfStop = s.perfStop := rfl
@[simp] theorem report_steps (s : State) (e r : Nat) (c : Option Ctx) : (report s e r c).steps = s.steps := rfl
@[simp] theorem report_st (s : State) (e r : Nat) (c : Option Ctx) : (report s e r c).st = s.st := rfl
@[simp] theorem count_pending (s : State) (i n : Nat) : (count s i n).pending = s.pending := rfl
@[simp] theorem count_freeCtr (s : State) (i n : Nat) : (count s i n).freeCtr = s.freeCtr := rfl
@[simp] theorem count_features (s : State) (i n : Nat) : (count s i n).features = s.features := rfl
@[simp] theorem count_powered (s : State) (i n : Nat) : (count s i n).powered = s.powered := rfl
@[simp] theorem count_vcore (s : State) (i n : Nat) : (count s i n).vcore = s.vcore := rfl
@[simp] theorem count_vmem (s : State) (i n : Nat) : (count s i n).vmem = s.vmem := rfl
@[simp] theorem count_rstN (s : State) (i n : Nat) : (count s i n).rstN = s.rstN := rfl
@[simp] theorem count_wir (s : State) (i n : Nat) : (count s i n).wir = s.wir := rfl
@[simp] theorem count_wrap (s : State) (i n : Nat) : (count s i n).wrap = s.wrap := rfl
@[simp] theorem count_testRes (s : State) (i n : Nat) : (count s i n).testRes = s.testRes := rfl
@[simp] theorem count_core (s : State) (i n : Nat) : (count s i n).core = s.core := rfl
@[simp] theorem count_parked (s : State) (i n : Nat) : (count s i n).parked = s.parked := rfl
@[simp] theorem count_serial (s : State) (i n : Nat) : (count s i n).serial = s.serial := rfl
@[simp] theorem count_pwrdom (s : State) (i n : Nat) : (count s i n).pwrdom = s.pwrdom := rfl
@[simp] theorem count_chainAddr (s : State) (i n : Nat) : (count s i n).chainAddr = s.chainAddr := rfl
@[simp] theorem count_seqWr (s : State) (i n : Nat) : (count s i n).seqWr = s.seqWr := rfl
@[simp] theorem count_seqBc (s : State) (i n : Nat) : (count s i n).seqBc = s.seqBc := rfl
@[simp] theorem count_mcOut (s : State) (i n : Nat) : (count s i n).mcOut = s.mcOut := rfl
@[simp] theorem count_cutAddr (s : State) (i n : Nat) : (count s i n).cutAddr = s.cutAddr := rfl
@[simp] theorem count_cutReq (s : State) (i n : Nat) : (count s i n).cutReq = s.cutReq := rfl
@[simp] theorem count_c0 (s : State) (i n : Nat) : (count s i n).c0 = s.c0 := rfl
@[simp] theorem count_c1 (s : State) (i n : Nat) : (count s i n).c1 = s.c1 := rfl
@[simp] theorem count_flags (s : State) (i n : Nat) : (count s i n).flags = s.flags := rfl
@[simp] theorem count_stepSets (s : State) (i n : Nat) : (count s i n).stepSets = s.stepSets := rfl
@[simp] theorem count_stepClears (s : State) (i n : Nat) : (count s i n).stepClears = s.stepClears := rfl
@[simp] theorem count_stepMarks (s : State) (i n : Nat) : (count s i n).stepMarks = s.stepMarks := rfl
@[simp] theorem count_stepOps (s : State) (i n : Nat) : (count s i n).stepOps = s.stepOps := rfl
@[simp] theorem count_selfFlits (s : State) (i n : Nat) : (count s i n).selfFlits = s.selfFlits := rfl
@[simp] theorem count_syncQ (s : State) (i n : Nat) : (count s i n).syncQ = s.syncQ := rfl
@[simp] theorem count_syncSent (s : State) (i n : Nat) : (count s i n).syncSent = s.syncSent := rfl
@[simp] theorem count_stepSpad (s : State) (i n : Nat) : (count s i n).stepSpad = s.stepSpad := rfl
@[simp] theorem count_stepPages (s : State) (i n : Nat) : (count s i n).stepPages = s.stepPages := rfl
@[simp] theorem count_accOwn (s : State) (i n : Nat) : (count s i n).accOwn = s.accOwn := rfl
@[simp] theorem count_spad (s : State) (i n : Nat) : (count s i n).spad = s.spad := rfl
@[simp] theorem count_spadErr (s : State) (i n : Nat) : (count s i n).spadErr = s.spadErr := rfl
@[simp] theorem count_wbPend (s : State) (i n : Nat) : (count s i n).wbPend = s.wbPend := rfl
@[simp] theorem count_scrub (s : State) (i n : Nat) : (count s i n).scrub = s.scrub := rfl
@[simp] theorem count_checked (s : State) (i n : Nat) : (count s i n).checked = s.checked := rfl
@[simp] theorem count_pages (s : State) (i n : Nat) : (count s i n).pages = s.pages := rfl
@[simp] theorem count_handles (s : State) (i n : Nat) : (count s i n).handles = s.handles := rfl
@[simp] theorem count_acc (s : State) (i n : Nat) : (count s i n).acc = s.acc := rfl
@[simp] theorem count_accErr (s : State) (i n : Nat) : (count s i n).accErr = s.accErr := rfl
@[simp] theorem count_stepAcc (s : State) (i n : Nat) : (count s i n).stepAcc = s.stepAcc := rfl
@[simp] theorem count_mesh (s : State) (i n : Nat) : (count s i n).mesh = s.mesh := rfl
@[simp] theorem count_stat (s : State) (i n : Nat) : (count s i n).stat = s.stat := rfl
@[simp] theorem count_statErr (s : State) (i n : Nat) : (count s i n).statErr = s.statErr := rfl
@[simp] theorem count_imem (s : State) (i n : Nat) : (count s i n).imem = s.imem := rfl
@[simp] theorem count_imemLen (s : State) (i n : Nat) : (count s i n).imemLen = s.imemLen := rfl
@[simp] theorem count_entry (s : State) (i n : Nat) : (count s i n).entry = s.entry := rfl
@[simp] theorem count_dmem (s : State) (i n : Nat) : (count s i n).dmem = s.dmem := rfl
@[simp] theorem count_dmemStep (s : State) (i n : Nat) : (count s i n).dmemStep = s.dmemStep := rfl
@[simp] theorem count_trackers (s : State) (i n : Nat) : (count s i n).trackers = s.trackers := rfl
@[simp] theorem count_stepTrk (s : State) (i n : Nat) : (count s i n).stepTrk = s.stepTrk := rfl
@[simp] theorem count_spadWin (s : State) (i n : Nat) : (count s i n).spadWin = s.spadWin := rfl
@[simp] theorem count_running (s : State) (i n : Nat) : (count s i n).running = s.running := rfl
@[simp] theorem count_nextId (s : State) (i n : Nat) : (count s i n).nextId = s.nextId := rfl
@[simp] theorem count_stepDone (s : State) (i n : Nat) : (count s i n).stepDone = s.stepDone := rfl
@[simp] theorem count_units (s : State) (i n : Nat) : (count s i n).units = s.units := rfl
@[simp] theorem count_outst (s : State) (i n : Nat) : (count s i n).outst = s.outst := rfl
@[simp] theorem count_retired (s : State) (i n : Nat) : (count s i n).retired = s.retired := rfl
@[simp] theorem count_rxTab (s : State) (i n : Nat) : (count s i n).rxTab = s.rxTab := rfl
@[simp] theorem count_winAcks (s : State) (i n : Nat) : (count s i n).winAcks = s.winAcks := rfl
@[simp] theorem count_held (s : State) (i n : Nat) : (count s i n).held = s.held := rfl
@[simp] theorem count_rstDue (s : State) (i n : Nat) : (count s i n).rstDue = s.rstDue := rfl
@[simp] theorem count_winDone (s : State) (i n : Nat) : (count s i n).winDone = s.winDone := rfl
@[simp] theorem count_perfLast (s : State) (i n : Nat) : (count s i n).perfLast = s.perfLast := rfl
@[simp] theorem count_mgmt (s : State) (i n : Nat) : (count s i n).mgmt = s.mgmt := rfl
@[simp] theorem count_pinA (s : State) (i n : Nat) : (count s i n).pinA = s.pinA := rfl
@[simp] theorem count_pinB (s : State) (i n : Nat) : (count s i n).pinB = s.pinB := rfl
@[simp] theorem count_faTx (s : State) (i n : Nat) : (count s i n).faTx = s.faTx := rfl
@[simp] theorem count_fbTx (s : State) (i n : Nat) : (count s i n).fbTx = s.fbTx := rfl
@[simp] theorem count_txA (s : State) (i n : Nat) : (count s i n).txA = s.txA := rfl
@[simp] theorem count_txB (s : State) (i n : Nat) : (count s i n).txB = s.txB := rfl
@[simp] theorem count_rxA (s : State) (i n : Nat) : (count s i n).rxA = s.rxA := rfl
@[simp] theorem count_rxB (s : State) (i n : Nat) : (count s i n).rxB = s.rxB := rfl
@[simp] theorem count_rxS (s : State) (i n : Nat) : (count s i n).rxS = s.rxS := rfl
@[simp] theorem count_linkA (s : State) (i n : Nat) : (count s i n).linkA = s.linkA := rfl
@[simp] theorem count_linkB (s : State) (i n : Nat) : (count s i n).linkB = s.linkB := rfl
@[simp] theorem count_epoch (s : State) (i n : Nat) : (count s i n).epoch = s.epoch := rfl
@[simp] theorem count_ilPtr (s : State) (i n : Nat) : (count s i n).ilPtr = s.ilPtr := rfl
@[simp] theorem count_pstate (s : State) (i n : Nat) : (count s i n).pstate = s.pstate := rfl
@[simp] theorem count_proof (s : State) (i n : Nat) : (count s i n).proof = s.proof := rfl
@[simp] theorem count_bakeOn (s : State) (i n : Nat) : (count s i n).bakeOn = s.bakeOn := rfl
@[simp] theorem count_bake (s : State) (i n : Nat) : (count s i n).bake = s.bake := rfl
@[simp] theorem count_cfg (s : State) (i n : Nat) : (count s i n).cfg = s.cfg := rfl
@[simp] theorem count_setRej (s : State) (i n : Nat) : (count s i n).setRej = s.setRej := rfl
@[simp] theorem count_warnDom (s : State) (i n : Nat) : (count s i n).warnDom = s.warnDom := rfl
@[simp] theorem count_fw (s : State) (i n : Nat) : (count s i n).fw = s.fw := rfl
@[simp] theorem count_sb (s : State) (i n : Nat) : (count s i n).sb = s.sb := rfl
@[simp] theorem count_flt (s : State) (i n : Nat) : (count s i n).flt = s.flt := rfl
@[simp] theorem count_tmr (s : State) (i n : Nat) : (count s i n).tmr = s.tmr := rfl
@[simp] theorem count_pwr (s : State) (i n : Nat) : (count s i n).pwr = s.pwr := rfl
@[simp] theorem count_perf (s : State) (i n : Nat) : (count s i n).perf = s.perf := rfl
@[simp] theorem count_perfStop (s : State) (i n : Nat) : (count s i n).perfStop = s.perfStop := rfl
@[simp] theorem count_steps (s : State) (i n : Nat) : (count s i n).steps = s.steps := rfl
@[simp] theorem count_st (s : State) (i n : Nat) : (count s i n).st = s.st := rfl
@[simp] theorem progress_pending (s : State) : (progress s).pending = s.pending := rfl
@[simp] theorem progress_freeCtr (s : State) : (progress s).freeCtr = s.freeCtr := rfl
@[simp] theorem progress_features (s : State) : (progress s).features = s.features := rfl
@[simp] theorem progress_powered (s : State) : (progress s).powered = s.powered := rfl
@[simp] theorem progress_vcore (s : State) : (progress s).vcore = s.vcore := rfl
@[simp] theorem progress_vmem (s : State) : (progress s).vmem = s.vmem := rfl
@[simp] theorem progress_rstN (s : State) : (progress s).rstN = s.rstN := rfl
@[simp] theorem progress_wir (s : State) : (progress s).wir = s.wir := rfl
@[simp] theorem progress_wrap (s : State) : (progress s).wrap = s.wrap := rfl
@[simp] theorem progress_testRes (s : State) : (progress s).testRes = s.testRes := rfl
@[simp] theorem progress_core (s : State) : (progress s).core = s.core := rfl
@[simp] theorem progress_parked (s : State) : (progress s).parked = s.parked := rfl
@[simp] theorem progress_serial (s : State) : (progress s).serial = s.serial := rfl
@[simp] theorem progress_pwrdom (s : State) : (progress s).pwrdom = s.pwrdom := rfl
@[simp] theorem progress_chainAddr (s : State) : (progress s).chainAddr = s.chainAddr := rfl
@[simp] theorem progress_seqWr (s : State) : (progress s).seqWr = s.seqWr := rfl
@[simp] theorem progress_seqBc (s : State) : (progress s).seqBc = s.seqBc := rfl
@[simp] theorem progress_mcOut (s : State) : (progress s).mcOut = s.mcOut := rfl
@[simp] theorem progress_cutAddr (s : State) : (progress s).cutAddr = s.cutAddr := rfl
@[simp] theorem progress_cutReq (s : State) : (progress s).cutReq = s.cutReq := rfl
@[simp] theorem progress_c0 (s : State) : (progress s).c0 = s.c0 := rfl
@[simp] theorem progress_c1 (s : State) : (progress s).c1 = s.c1 := rfl
@[simp] theorem progress_flags (s : State) : (progress s).flags = s.flags := rfl
@[simp] theorem progress_stepSets (s : State) : (progress s).stepSets = s.stepSets := rfl
@[simp] theorem progress_stepClears (s : State) : (progress s).stepClears = s.stepClears := rfl
@[simp] theorem progress_stepMarks (s : State) : (progress s).stepMarks = s.stepMarks := rfl
@[simp] theorem progress_stepOps (s : State) : (progress s).stepOps = s.stepOps := rfl
@[simp] theorem progress_selfFlits (s : State) : (progress s).selfFlits = s.selfFlits := rfl
@[simp] theorem progress_syncQ (s : State) : (progress s).syncQ = s.syncQ := rfl
@[simp] theorem progress_syncSent (s : State) : (progress s).syncSent = s.syncSent := rfl
@[simp] theorem progress_stepSpad (s : State) : (progress s).stepSpad = s.stepSpad := rfl
@[simp] theorem progress_stepPages (s : State) : (progress s).stepPages = s.stepPages := rfl
@[simp] theorem progress_accOwn (s : State) : (progress s).accOwn = s.accOwn := rfl
@[simp] theorem progress_spad (s : State) : (progress s).spad = s.spad := rfl
@[simp] theorem progress_spadErr (s : State) : (progress s).spadErr = s.spadErr := rfl
@[simp] theorem progress_wbPend (s : State) : (progress s).wbPend = s.wbPend := rfl
@[simp] theorem progress_scrub (s : State) : (progress s).scrub = s.scrub := rfl
@[simp] theorem progress_checked (s : State) : (progress s).checked = s.checked := rfl
@[simp] theorem progress_pages (s : State) : (progress s).pages = s.pages := rfl
@[simp] theorem progress_handles (s : State) : (progress s).handles = s.handles := rfl
@[simp] theorem progress_acc (s : State) : (progress s).acc = s.acc := rfl
@[simp] theorem progress_accErr (s : State) : (progress s).accErr = s.accErr := rfl
@[simp] theorem progress_stepAcc (s : State) : (progress s).stepAcc = s.stepAcc := rfl
@[simp] theorem progress_mesh (s : State) : (progress s).mesh = s.mesh := rfl
@[simp] theorem progress_stat (s : State) : (progress s).stat = s.stat := rfl
@[simp] theorem progress_statErr (s : State) : (progress s).statErr = s.statErr := rfl
@[simp] theorem progress_imem (s : State) : (progress s).imem = s.imem := rfl
@[simp] theorem progress_imemLen (s : State) : (progress s).imemLen = s.imemLen := rfl
@[simp] theorem progress_entry (s : State) : (progress s).entry = s.entry := rfl
@[simp] theorem progress_dmem (s : State) : (progress s).dmem = s.dmem := rfl
@[simp] theorem progress_dmemStep (s : State) : (progress s).dmemStep = s.dmemStep := rfl
@[simp] theorem progress_trackers (s : State) : (progress s).trackers = s.trackers := rfl
@[simp] theorem progress_stepTrk (s : State) : (progress s).stepTrk = s.stepTrk := rfl
@[simp] theorem progress_spadWin (s : State) : (progress s).spadWin = s.spadWin := rfl
@[simp] theorem progress_running (s : State) : (progress s).running = s.running := rfl
@[simp] theorem progress_nextId (s : State) : (progress s).nextId = s.nextId := rfl
@[simp] theorem progress_stepDone (s : State) : (progress s).stepDone = s.stepDone := rfl
@[simp] theorem progress_units (s : State) : (progress s).units = s.units := rfl
@[simp] theorem progress_outst (s : State) : (progress s).outst = s.outst := rfl
@[simp] theorem progress_retired (s : State) : (progress s).retired = s.retired := rfl
@[simp] theorem progress_rxTab (s : State) : (progress s).rxTab = s.rxTab := rfl
@[simp] theorem progress_winAcks (s : State) : (progress s).winAcks = s.winAcks := rfl
@[simp] theorem progress_held (s : State) : (progress s).held = s.held := rfl
@[simp] theorem progress_rstDue (s : State) : (progress s).rstDue = s.rstDue := rfl
@[simp] theorem progress_winDone (s : State) : (progress s).winDone = s.winDone := rfl
@[simp] theorem progress_perfLast (s : State) : (progress s).perfLast = s.perfLast := rfl
@[simp] theorem progress_mgmt (s : State) : (progress s).mgmt = s.mgmt := rfl
@[simp] theorem progress_pinA (s : State) : (progress s).pinA = s.pinA := rfl
@[simp] theorem progress_pinB (s : State) : (progress s).pinB = s.pinB := rfl
@[simp] theorem progress_faTx (s : State) : (progress s).faTx = s.faTx := rfl
@[simp] theorem progress_fbTx (s : State) : (progress s).fbTx = s.fbTx := rfl
@[simp] theorem progress_txA (s : State) : (progress s).txA = s.txA := rfl
@[simp] theorem progress_txB (s : State) : (progress s).txB = s.txB := rfl
@[simp] theorem progress_rxA (s : State) : (progress s).rxA = s.rxA := rfl
@[simp] theorem progress_rxB (s : State) : (progress s).rxB = s.rxB := rfl
@[simp] theorem progress_rxS (s : State) : (progress s).rxS = s.rxS := rfl
@[simp] theorem progress_linkA (s : State) : (progress s).linkA = s.linkA := rfl
@[simp] theorem progress_linkB (s : State) : (progress s).linkB = s.linkB := rfl
@[simp] theorem progress_epoch (s : State) : (progress s).epoch = s.epoch := rfl
@[simp] theorem progress_ilPtr (s : State) : (progress s).ilPtr = s.ilPtr := rfl
@[simp] theorem progress_pstate (s : State) : (progress s).pstate = s.pstate := rfl
@[simp] theorem progress_proof (s : State) : (progress s).proof = s.proof := rfl
@[simp] theorem progress_bakeOn (s : State) : (progress s).bakeOn = s.bakeOn := rfl
@[simp] theorem progress_bake (s : State) : (progress s).bake = s.bake := rfl
@[simp] theorem progress_cfg (s : State) : (progress s).cfg = s.cfg := rfl
@[simp] theorem progress_setRej (s : State) : (progress s).setRej = s.setRej := rfl
@[simp] theorem progress_warnDom (s : State) : (progress s).warnDom = s.warnDom := rfl
@[simp] theorem progress_fw (s : State) : (progress s).fw = s.fw := rfl
@[simp] theorem progress_sb (s : State) : (progress s).sb = s.sb := rfl
@[simp] theorem progress_flt (s : State) : (progress s).flt = s.flt := rfl
@[simp] theorem progress_pwr (s : State) : (progress s).pwr = s.pwr := rfl
@[simp] theorem progress_perf (s : State) : (progress s).perf = s.perf := rfl
@[simp] theorem progress_perfStep (s : State) : (progress s).perfStep = s.perfStep := rfl
@[simp] theorem progress_perfStop (s : State) : (progress s).perfStop = s.perfStop := rfl
@[simp] theorem progress_steps (s : State) : (progress s).steps = s.steps := rfl
@[simp] theorem progress_st (s : State) : (progress s).st = s.st := rfl
@[simp] theorem popHead_pending (s : State) (c : Ctx) (e : Eng) : (popHead s c e).pending = s.pending := modCtx_pending ..
@[simp] theorem popHead_freeCtr (s : State) (c : Ctx) (e : Eng) : (popHead s c e).freeCtr = s.freeCtr := modCtx_freeCtr ..
@[simp] theorem popHead_features (s : State) (c : Ctx) (e : Eng) : (popHead s c e).features = s.features := modCtx_features ..
@[simp] theorem popHead_powered (s : State) (c : Ctx) (e : Eng) : (popHead s c e).powered = s.powered := modCtx_powered ..
@[simp] theorem popHead_vcore (s : State) (c : Ctx) (e : Eng) : (popHead s c e).vcore = s.vcore := modCtx_vcore ..
@[simp] theorem popHead_vmem (s : State) (c : Ctx) (e : Eng) : (popHead s c e).vmem = s.vmem := modCtx_vmem ..
@[simp] theorem popHead_rstN (s : State) (c : Ctx) (e : Eng) : (popHead s c e).rstN = s.rstN := modCtx_rstN ..
@[simp] theorem popHead_wir (s : State) (c : Ctx) (e : Eng) : (popHead s c e).wir = s.wir := modCtx_wir ..
@[simp] theorem popHead_wrap (s : State) (c : Ctx) (e : Eng) : (popHead s c e).wrap = s.wrap := modCtx_wrap ..
@[simp] theorem popHead_testRes (s : State) (c : Ctx) (e : Eng) : (popHead s c e).testRes = s.testRes := modCtx_testRes ..
@[simp] theorem popHead_core (s : State) (c : Ctx) (e : Eng) : (popHead s c e).core = s.core := modCtx_core ..
@[simp] theorem popHead_parked (s : State) (c : Ctx) (e : Eng) : (popHead s c e).parked = s.parked := modCtx_parked ..
@[simp] theorem popHead_serial (s : State) (c : Ctx) (e : Eng) : (popHead s c e).serial = s.serial := modCtx_serial ..
@[simp] theorem popHead_pwrdom (s : State) (c : Ctx) (e : Eng) : (popHead s c e).pwrdom = s.pwrdom := modCtx_pwrdom ..
@[simp] theorem popHead_chainAddr (s : State) (c : Ctx) (e : Eng) : (popHead s c e).chainAddr = s.chainAddr := modCtx_chainAddr ..
@[simp] theorem popHead_seqWr (s : State) (c : Ctx) (e : Eng) : (popHead s c e).seqWr = s.seqWr := modCtx_seqWr ..
@[simp] theorem popHead_seqBc (s : State) (c : Ctx) (e : Eng) : (popHead s c e).seqBc = s.seqBc := modCtx_seqBc ..
@[simp] theorem popHead_mcOut (s : State) (c : Ctx) (e : Eng) : (popHead s c e).mcOut = s.mcOut := modCtx_mcOut ..
@[simp] theorem popHead_cutAddr (s : State) (c : Ctx) (e : Eng) : (popHead s c e).cutAddr = s.cutAddr := modCtx_cutAddr ..
@[simp] theorem popHead_cutReq (s : State) (c : Ctx) (e : Eng) : (popHead s c e).cutReq = s.cutReq := modCtx_cutReq ..
@[simp] theorem popHead_flags (s : State) (c : Ctx) (e : Eng) : (popHead s c e).flags = s.flags := modCtx_flags ..
@[simp] theorem popHead_stepSets (s : State) (c : Ctx) (e : Eng) : (popHead s c e).stepSets = s.stepSets := modCtx_stepSets ..
@[simp] theorem popHead_stepClears (s : State) (c : Ctx) (e : Eng) : (popHead s c e).stepClears = s.stepClears := modCtx_stepClears ..
@[simp] theorem popHead_stepMarks (s : State) (c : Ctx) (e : Eng) : (popHead s c e).stepMarks = s.stepMarks := modCtx_stepMarks ..
@[simp] theorem popHead_stepOps (s : State) (c : Ctx) (e : Eng) : (popHead s c e).stepOps = s.stepOps := modCtx_stepOps ..
@[simp] theorem popHead_selfFlits (s : State) (c : Ctx) (e : Eng) : (popHead s c e).selfFlits = s.selfFlits := modCtx_selfFlits ..
@[simp] theorem popHead_syncQ (s : State) (c : Ctx) (e : Eng) : (popHead s c e).syncQ = s.syncQ := modCtx_syncQ ..
@[simp] theorem popHead_syncSent (s : State) (c : Ctx) (e : Eng) : (popHead s c e).syncSent = s.syncSent := modCtx_syncSent ..
@[simp] theorem popHead_stepSpad (s : State) (c : Ctx) (e : Eng) : (popHead s c e).stepSpad = s.stepSpad := modCtx_stepSpad ..
@[simp] theorem popHead_stepPages (s : State) (c : Ctx) (e : Eng) : (popHead s c e).stepPages = s.stepPages := modCtx_stepPages ..
@[simp] theorem popHead_accOwn (s : State) (c : Ctx) (e : Eng) : (popHead s c e).accOwn = s.accOwn := modCtx_accOwn ..
@[simp] theorem popHead_spad (s : State) (c : Ctx) (e : Eng) : (popHead s c e).spad = s.spad := modCtx_spad ..
@[simp] theorem popHead_spadErr (s : State) (c : Ctx) (e : Eng) : (popHead s c e).spadErr = s.spadErr := modCtx_spadErr ..
@[simp] theorem popHead_wbPend (s : State) (c : Ctx) (e : Eng) : (popHead s c e).wbPend = s.wbPend := modCtx_wbPend ..
@[simp] theorem popHead_scrub (s : State) (c : Ctx) (e : Eng) : (popHead s c e).scrub = s.scrub := modCtx_scrub ..
@[simp] theorem popHead_checked (s : State) (c : Ctx) (e : Eng) : (popHead s c e).checked = s.checked := modCtx_checked ..
@[simp] theorem popHead_pages (s : State) (c : Ctx) (e : Eng) : (popHead s c e).pages = s.pages := modCtx_pages ..
@[simp] theorem popHead_handles (s : State) (c : Ctx) (e : Eng) : (popHead s c e).handles = s.handles := modCtx_handles ..
@[simp] theorem popHead_acc (s : State) (c : Ctx) (e : Eng) : (popHead s c e).acc = s.acc := modCtx_acc ..
@[simp] theorem popHead_accErr (s : State) (c : Ctx) (e : Eng) : (popHead s c e).accErr = s.accErr := modCtx_accErr ..
@[simp] theorem popHead_stepAcc (s : State) (c : Ctx) (e : Eng) : (popHead s c e).stepAcc = s.stepAcc := modCtx_stepAcc ..
@[simp] theorem popHead_mesh (s : State) (c : Ctx) (e : Eng) : (popHead s c e).mesh = s.mesh := modCtx_mesh ..
@[simp] theorem popHead_stat (s : State) (c : Ctx) (e : Eng) : (popHead s c e).stat = s.stat := modCtx_stat ..
@[simp] theorem popHead_statErr (s : State) (c : Ctx) (e : Eng) : (popHead s c e).statErr = s.statErr := modCtx_statErr ..
@[simp] theorem popHead_imem (s : State) (c : Ctx) (e : Eng) : (popHead s c e).imem = s.imem := modCtx_imem ..
@[simp] theorem popHead_imemLen (s : State) (c : Ctx) (e : Eng) : (popHead s c e).imemLen = s.imemLen := modCtx_imemLen ..
@[simp] theorem popHead_entry (s : State) (c : Ctx) (e : Eng) : (popHead s c e).entry = s.entry := modCtx_entry ..
@[simp] theorem popHead_dmem (s : State) (c : Ctx) (e : Eng) : (popHead s c e).dmem = s.dmem := modCtx_dmem ..
@[simp] theorem popHead_dmemStep (s : State) (c : Ctx) (e : Eng) : (popHead s c e).dmemStep = s.dmemStep := modCtx_dmemStep ..
@[simp] theorem popHead_trackers (s : State) (c : Ctx) (e : Eng) : (popHead s c e).trackers = s.trackers := modCtx_trackers ..
@[simp] theorem popHead_stepTrk (s : State) (c : Ctx) (e : Eng) : (popHead s c e).stepTrk = s.stepTrk := modCtx_stepTrk ..
@[simp] theorem popHead_spadWin (s : State) (c : Ctx) (e : Eng) : (popHead s c e).spadWin = s.spadWin := modCtx_spadWin ..
@[simp] theorem popHead_running (s : State) (c : Ctx) (e : Eng) : (popHead s c e).running = s.running := modCtx_running ..
@[simp] theorem popHead_nextId (s : State) (c : Ctx) (e : Eng) : (popHead s c e).nextId = s.nextId := modCtx_nextId ..
@[simp] theorem popHead_stepDone (s : State) (c : Ctx) (e : Eng) : (popHead s c e).stepDone = s.stepDone := modCtx_stepDone ..
@[simp] theorem popHead_units (s : State) (c : Ctx) (e : Eng) : (popHead s c e).units = s.units := modCtx_units ..
@[simp] theorem popHead_outst (s : State) (c : Ctx) (e : Eng) : (popHead s c e).outst = s.outst := modCtx_outst ..
@[simp] theorem popHead_retired (s : State) (c : Ctx) (e : Eng) : (popHead s c e).retired = s.retired := modCtx_retired ..
@[simp] theorem popHead_rxTab (s : State) (c : Ctx) (e : Eng) : (popHead s c e).rxTab = s.rxTab := modCtx_rxTab ..
@[simp] theorem popHead_winAcks (s : State) (c : Ctx) (e : Eng) : (popHead s c e).winAcks = s.winAcks := modCtx_winAcks ..
@[simp] theorem popHead_held (s : State) (c : Ctx) (e : Eng) : (popHead s c e).held = s.held := modCtx_held ..
@[simp] theorem popHead_rstDue (s : State) (c : Ctx) (e : Eng) : (popHead s c e).rstDue = s.rstDue := modCtx_rstDue ..
@[simp] theorem popHead_winDone (s : State) (c : Ctx) (e : Eng) : (popHead s c e).winDone = s.winDone := modCtx_winDone ..
@[simp] theorem popHead_perfLast (s : State) (c : Ctx) (e : Eng) : (popHead s c e).perfLast = s.perfLast := modCtx_perfLast ..
@[simp] theorem popHead_mgmt (s : State) (c : Ctx) (e : Eng) : (popHead s c e).mgmt = s.mgmt := modCtx_mgmt ..
@[simp] theorem popHead_pinA (s : State) (c : Ctx) (e : Eng) : (popHead s c e).pinA = s.pinA := modCtx_pinA ..
@[simp] theorem popHead_pinB (s : State) (c : Ctx) (e : Eng) : (popHead s c e).pinB = s.pinB := modCtx_pinB ..
@[simp] theorem popHead_faTx (s : State) (c : Ctx) (e : Eng) : (popHead s c e).faTx = s.faTx := modCtx_faTx ..
@[simp] theorem popHead_fbTx (s : State) (c : Ctx) (e : Eng) : (popHead s c e).fbTx = s.fbTx := modCtx_fbTx ..
@[simp] theorem popHead_txA (s : State) (c : Ctx) (e : Eng) : (popHead s c e).txA = s.txA := modCtx_txA ..
@[simp] theorem popHead_txB (s : State) (c : Ctx) (e : Eng) : (popHead s c e).txB = s.txB := modCtx_txB ..
@[simp] theorem popHead_rxA (s : State) (c : Ctx) (e : Eng) : (popHead s c e).rxA = s.rxA := modCtx_rxA ..
@[simp] theorem popHead_rxB (s : State) (c : Ctx) (e : Eng) : (popHead s c e).rxB = s.rxB := modCtx_rxB ..
@[simp] theorem popHead_rxS (s : State) (c : Ctx) (e : Eng) : (popHead s c e).rxS = s.rxS := modCtx_rxS ..
@[simp] theorem popHead_linkA (s : State) (c : Ctx) (e : Eng) : (popHead s c e).linkA = s.linkA := modCtx_linkA ..
@[simp] theorem popHead_linkB (s : State) (c : Ctx) (e : Eng) : (popHead s c e).linkB = s.linkB := modCtx_linkB ..
@[simp] theorem popHead_epoch (s : State) (c : Ctx) (e : Eng) : (popHead s c e).epoch = s.epoch := modCtx_epoch ..
@[simp] theorem popHead_ilPtr (s : State) (c : Ctx) (e : Eng) : (popHead s c e).ilPtr = s.ilPtr := modCtx_ilPtr ..
@[simp] theorem popHead_pstate (s : State) (c : Ctx) (e : Eng) : (popHead s c e).pstate = s.pstate := modCtx_pstate ..
@[simp] theorem popHead_proof (s : State) (c : Ctx) (e : Eng) : (popHead s c e).proof = s.proof := modCtx_proof ..
@[simp] theorem popHead_bakeOn (s : State) (c : Ctx) (e : Eng) : (popHead s c e).bakeOn = s.bakeOn := modCtx_bakeOn ..
@[simp] theorem popHead_bake (s : State) (c : Ctx) (e : Eng) : (popHead s c e).bake = s.bake := modCtx_bake ..
@[simp] theorem popHead_cfg (s : State) (c : Ctx) (e : Eng) : (popHead s c e).cfg = s.cfg := modCtx_cfg ..
@[simp] theorem popHead_setRej (s : State) (c : Ctx) (e : Eng) : (popHead s c e).setRej = s.setRej := modCtx_setRej ..
@[simp] theorem popHead_warnDom (s : State) (c : Ctx) (e : Eng) : (popHead s c e).warnDom = s.warnDom := modCtx_warnDom ..
@[simp] theorem popHead_fw (s : State) (c : Ctx) (e : Eng) : (popHead s c e).fw = s.fw := modCtx_fw ..
@[simp] theorem popHead_sb (s : State) (c : Ctx) (e : Eng) : (popHead s c e).sb = s.sb := modCtx_sb ..
@[simp] theorem popHead_flt (s : State) (c : Ctx) (e : Eng) : (popHead s c e).flt = s.flt := modCtx_flt ..
@[simp] theorem popHead_tmr (s : State) (c : Ctx) (e : Eng) : (popHead s c e).tmr = s.tmr := modCtx_tmr ..
@[simp] theorem popHead_pwr (s : State) (c : Ctx) (e : Eng) : (popHead s c e).pwr = s.pwr := modCtx_pwr ..
@[simp] theorem popHead_perf (s : State) (c : Ctx) (e : Eng) : (popHead s c e).perf = s.perf := modCtx_perf ..
@[simp] theorem popHead_perfStep (s : State) (c : Ctx) (e : Eng) : (popHead s c e).perfStep = s.perfStep := modCtx_perfStep ..
@[simp] theorem popHead_perfStop (s : State) (c : Ctx) (e : Eng) : (popHead s c e).perfStop = s.perfStop := modCtx_perfStop ..
@[simp] theorem popHead_steps (s : State) (c : Ctx) (e : Eng) : (popHead s c e).steps = s.steps := modCtx_steps ..
@[simp] theorem popHead_st (s : State) (c : Ctx) (e : Eng) : (popHead s c e).st = s.st := modCtx_st ..
@[simp] theorem dropRun_pending (s : State) (i : Nat) : (dropRun s i).pending = s.pending := rfl
@[simp] theorem dropRun_freeCtr (s : State) (i : Nat) : (dropRun s i).freeCtr = s.freeCtr := rfl
@[simp] theorem dropRun_features (s : State) (i : Nat) : (dropRun s i).features = s.features := rfl
@[simp] theorem dropRun_powered (s : State) (i : Nat) : (dropRun s i).powered = s.powered := rfl
@[simp] theorem dropRun_vcore (s : State) (i : Nat) : (dropRun s i).vcore = s.vcore := rfl
@[simp] theorem dropRun_vmem (s : State) (i : Nat) : (dropRun s i).vmem = s.vmem := rfl
@[simp] theorem dropRun_rstN (s : State) (i : Nat) : (dropRun s i).rstN = s.rstN := rfl
@[simp] theorem dropRun_wir (s : State) (i : Nat) : (dropRun s i).wir = s.wir := rfl
@[simp] theorem dropRun_wrap (s : State) (i : Nat) : (dropRun s i).wrap = s.wrap := rfl
@[simp] theorem dropRun_testRes (s : State) (i : Nat) : (dropRun s i).testRes = s.testRes := rfl
@[simp] theorem dropRun_core (s : State) (i : Nat) : (dropRun s i).core = s.core := rfl
@[simp] theorem dropRun_parked (s : State) (i : Nat) : (dropRun s i).parked = s.parked := rfl
@[simp] theorem dropRun_serial (s : State) (i : Nat) : (dropRun s i).serial = s.serial := rfl
@[simp] theorem dropRun_pwrdom (s : State) (i : Nat) : (dropRun s i).pwrdom = s.pwrdom := rfl
@[simp] theorem dropRun_chainAddr (s : State) (i : Nat) : (dropRun s i).chainAddr = s.chainAddr := rfl
@[simp] theorem dropRun_seqWr (s : State) (i : Nat) : (dropRun s i).seqWr = s.seqWr := rfl
@[simp] theorem dropRun_seqBc (s : State) (i : Nat) : (dropRun s i).seqBc = s.seqBc := rfl
@[simp] theorem dropRun_mcOut (s : State) (i : Nat) : (dropRun s i).mcOut = s.mcOut := rfl
@[simp] theorem dropRun_cutAddr (s : State) (i : Nat) : (dropRun s i).cutAddr = s.cutAddr := rfl
@[simp] theorem dropRun_cutReq (s : State) (i : Nat) : (dropRun s i).cutReq = s.cutReq := rfl
@[simp] theorem dropRun_c0 (s : State) (i : Nat) : (dropRun s i).c0 = s.c0 := rfl
@[simp] theorem dropRun_c1 (s : State) (i : Nat) : (dropRun s i).c1 = s.c1 := rfl
@[simp] theorem dropRun_flags (s : State) (i : Nat) : (dropRun s i).flags = s.flags := rfl
@[simp] theorem dropRun_stepSets (s : State) (i : Nat) : (dropRun s i).stepSets = s.stepSets := rfl
@[simp] theorem dropRun_stepClears (s : State) (i : Nat) : (dropRun s i).stepClears = s.stepClears := rfl
@[simp] theorem dropRun_stepMarks (s : State) (i : Nat) : (dropRun s i).stepMarks = s.stepMarks := rfl
@[simp] theorem dropRun_stepOps (s : State) (i : Nat) : (dropRun s i).stepOps = s.stepOps := rfl
@[simp] theorem dropRun_selfFlits (s : State) (i : Nat) : (dropRun s i).selfFlits = s.selfFlits := rfl
@[simp] theorem dropRun_syncQ (s : State) (i : Nat) : (dropRun s i).syncQ = s.syncQ := rfl
@[simp] theorem dropRun_syncSent (s : State) (i : Nat) : (dropRun s i).syncSent = s.syncSent := rfl
@[simp] theorem dropRun_stepSpad (s : State) (i : Nat) : (dropRun s i).stepSpad = s.stepSpad := rfl
@[simp] theorem dropRun_stepPages (s : State) (i : Nat) : (dropRun s i).stepPages = s.stepPages := rfl
@[simp] theorem dropRun_accOwn (s : State) (i : Nat) : (dropRun s i).accOwn = s.accOwn := rfl
@[simp] theorem dropRun_spad (s : State) (i : Nat) : (dropRun s i).spad = s.spad := rfl
@[simp] theorem dropRun_spadErr (s : State) (i : Nat) : (dropRun s i).spadErr = s.spadErr := rfl
@[simp] theorem dropRun_wbPend (s : State) (i : Nat) : (dropRun s i).wbPend = s.wbPend := rfl
@[simp] theorem dropRun_scrub (s : State) (i : Nat) : (dropRun s i).scrub = s.scrub := rfl
@[simp] theorem dropRun_checked (s : State) (i : Nat) : (dropRun s i).checked = s.checked := rfl
@[simp] theorem dropRun_pages (s : State) (i : Nat) : (dropRun s i).pages = s.pages := rfl
@[simp] theorem dropRun_handles (s : State) (i : Nat) : (dropRun s i).handles = s.handles := rfl
@[simp] theorem dropRun_acc (s : State) (i : Nat) : (dropRun s i).acc = s.acc := rfl
@[simp] theorem dropRun_accErr (s : State) (i : Nat) : (dropRun s i).accErr = s.accErr := rfl
@[simp] theorem dropRun_stepAcc (s : State) (i : Nat) : (dropRun s i).stepAcc = s.stepAcc := rfl
@[simp] theorem dropRun_mesh (s : State) (i : Nat) : (dropRun s i).mesh = s.mesh := rfl
@[simp] theorem dropRun_stat (s : State) (i : Nat) : (dropRun s i).stat = s.stat := rfl
@[simp] theorem dropRun_statErr (s : State) (i : Nat) : (dropRun s i).statErr = s.statErr := rfl
@[simp] theorem dropRun_imem (s : State) (i : Nat) : (dropRun s i).imem = s.imem := rfl
@[simp] theorem dropRun_imemLen (s : State) (i : Nat) : (dropRun s i).imemLen = s.imemLen := rfl
@[simp] theorem dropRun_entry (s : State) (i : Nat) : (dropRun s i).entry = s.entry := rfl
@[simp] theorem dropRun_dmem (s : State) (i : Nat) : (dropRun s i).dmem = s.dmem := rfl
@[simp] theorem dropRun_dmemStep (s : State) (i : Nat) : (dropRun s i).dmemStep = s.dmemStep := rfl
@[simp] theorem dropRun_trackers (s : State) (i : Nat) : (dropRun s i).trackers = s.trackers := rfl
@[simp] theorem dropRun_stepTrk (s : State) (i : Nat) : (dropRun s i).stepTrk = s.stepTrk := rfl
@[simp] theorem dropRun_spadWin (s : State) (i : Nat) : (dropRun s i).spadWin = s.spadWin := rfl
@[simp] theorem dropRun_nextId (s : State) (i : Nat) : (dropRun s i).nextId = s.nextId := rfl
@[simp] theorem dropRun_stepDone (s : State) (i : Nat) : (dropRun s i).stepDone = s.stepDone := rfl
@[simp] theorem dropRun_units (s : State) (i : Nat) : (dropRun s i).units = s.units := rfl
@[simp] theorem dropRun_outst (s : State) (i : Nat) : (dropRun s i).outst = s.outst := rfl
@[simp] theorem dropRun_retired (s : State) (i : Nat) : (dropRun s i).retired = s.retired := rfl
@[simp] theorem dropRun_rxTab (s : State) (i : Nat) : (dropRun s i).rxTab = s.rxTab := rfl
@[simp] theorem dropRun_winAcks (s : State) (i : Nat) : (dropRun s i).winAcks = s.winAcks := rfl
@[simp] theorem dropRun_held (s : State) (i : Nat) : (dropRun s i).held = s.held := rfl
@[simp] theorem dropRun_rstDue (s : State) (i : Nat) : (dropRun s i).rstDue = s.rstDue := rfl
@[simp] theorem dropRun_winDone (s : State) (i : Nat) : (dropRun s i).winDone = s.winDone := rfl
@[simp] theorem dropRun_perfLast (s : State) (i : Nat) : (dropRun s i).perfLast = s.perfLast := rfl
@[simp] theorem dropRun_mgmt (s : State) (i : Nat) : (dropRun s i).mgmt = s.mgmt := rfl
@[simp] theorem dropRun_pinA (s : State) (i : Nat) : (dropRun s i).pinA = s.pinA := rfl
@[simp] theorem dropRun_pinB (s : State) (i : Nat) : (dropRun s i).pinB = s.pinB := rfl
@[simp] theorem dropRun_faTx (s : State) (i : Nat) : (dropRun s i).faTx = s.faTx := rfl
@[simp] theorem dropRun_fbTx (s : State) (i : Nat) : (dropRun s i).fbTx = s.fbTx := rfl
@[simp] theorem dropRun_txA (s : State) (i : Nat) : (dropRun s i).txA = s.txA := rfl
@[simp] theorem dropRun_txB (s : State) (i : Nat) : (dropRun s i).txB = s.txB := rfl
@[simp] theorem dropRun_rxA (s : State) (i : Nat) : (dropRun s i).rxA = s.rxA := rfl
@[simp] theorem dropRun_rxB (s : State) (i : Nat) : (dropRun s i).rxB = s.rxB := rfl
@[simp] theorem dropRun_rxS (s : State) (i : Nat) : (dropRun s i).rxS = s.rxS := rfl
@[simp] theorem dropRun_linkA (s : State) (i : Nat) : (dropRun s i).linkA = s.linkA := rfl
@[simp] theorem dropRun_linkB (s : State) (i : Nat) : (dropRun s i).linkB = s.linkB := rfl
@[simp] theorem dropRun_epoch (s : State) (i : Nat) : (dropRun s i).epoch = s.epoch := rfl
@[simp] theorem dropRun_ilPtr (s : State) (i : Nat) : (dropRun s i).ilPtr = s.ilPtr := rfl
@[simp] theorem dropRun_pstate (s : State) (i : Nat) : (dropRun s i).pstate = s.pstate := rfl
@[simp] theorem dropRun_proof (s : State) (i : Nat) : (dropRun s i).proof = s.proof := rfl
@[simp] theorem dropRun_bakeOn (s : State) (i : Nat) : (dropRun s i).bakeOn = s.bakeOn := rfl
@[simp] theorem dropRun_bake (s : State) (i : Nat) : (dropRun s i).bake = s.bake := rfl
@[simp] theorem dropRun_cfg (s : State) (i : Nat) : (dropRun s i).cfg = s.cfg := rfl
@[simp] theorem dropRun_setRej (s : State) (i : Nat) : (dropRun s i).setRej = s.setRej := rfl
@[simp] theorem dropRun_warnDom (s : State) (i : Nat) : (dropRun s i).warnDom = s.warnDom := rfl
@[simp] theorem dropRun_fw (s : State) (i : Nat) : (dropRun s i).fw = s.fw := rfl
@[simp] theorem dropRun_sb (s : State) (i : Nat) : (dropRun s i).sb = s.sb := rfl
@[simp] theorem dropRun_flt (s : State) (i : Nat) : (dropRun s i).flt = s.flt := rfl
@[simp] theorem dropRun_tmr (s : State) (i : Nat) : (dropRun s i).tmr = s.tmr := rfl
@[simp] theorem dropRun_pwr (s : State) (i : Nat) : (dropRun s i).pwr = s.pwr := rfl
@[simp] theorem dropRun_perf (s : State) (i : Nat) : (dropRun s i).perf = s.perf := rfl
@[simp] theorem dropRun_perfStep (s : State) (i : Nat) : (dropRun s i).perfStep = s.perfStep := rfl
@[simp] theorem dropRun_perfStop (s : State) (i : Nat) : (dropRun s i).perfStop = s.perfStop := rfl
@[simp] theorem dropRun_steps (s : State) (i : Nat) : (dropRun s i).steps = s.steps := rfl
@[simp] theorem dropRun_st (s : State) (i : Nat) : (dropRun s i).st = s.st := rfl
@[simp] theorem setJob_pending (s : State) (i : Nat) (j : Job) : (setJob s i j).pending = s.pending := rfl
@[simp] theorem setJob_freeCtr (s : State) (i : Nat) (j : Job) : (setJob s i j).freeCtr = s.freeCtr := rfl
@[simp] theorem setJob_features (s : State) (i : Nat) (j : Job) : (setJob s i j).features = s.features := rfl
@[simp] theorem setJob_powered (s : State) (i : Nat) (j : Job) : (setJob s i j).powered = s.powered := rfl
@[simp] theorem setJob_vcore (s : State) (i : Nat) (j : Job) : (setJob s i j).vcore = s.vcore := rfl
@[simp] theorem setJob_vmem (s : State) (i : Nat) (j : Job) : (setJob s i j).vmem = s.vmem := rfl
@[simp] theorem setJob_rstN (s : State) (i : Nat) (j : Job) : (setJob s i j).rstN = s.rstN := rfl
@[simp] theorem setJob_wir (s : State) (i : Nat) (j : Job) : (setJob s i j).wir = s.wir := rfl
@[simp] theorem setJob_wrap (s : State) (i : Nat) (j : Job) : (setJob s i j).wrap = s.wrap := rfl
@[simp] theorem setJob_testRes (s : State) (i : Nat) (j : Job) : (setJob s i j).testRes = s.testRes := rfl
@[simp] theorem setJob_core (s : State) (i : Nat) (j : Job) : (setJob s i j).core = s.core := rfl
@[simp] theorem setJob_parked (s : State) (i : Nat) (j : Job) : (setJob s i j).parked = s.parked := rfl
@[simp] theorem setJob_serial (s : State) (i : Nat) (j : Job) : (setJob s i j).serial = s.serial := rfl
@[simp] theorem setJob_pwrdom (s : State) (i : Nat) (j : Job) : (setJob s i j).pwrdom = s.pwrdom := rfl
@[simp] theorem setJob_chainAddr (s : State) (i : Nat) (j : Job) : (setJob s i j).chainAddr = s.chainAddr := rfl
@[simp] theorem setJob_seqWr (s : State) (i : Nat) (j : Job) : (setJob s i j).seqWr = s.seqWr := rfl
@[simp] theorem setJob_seqBc (s : State) (i : Nat) (j : Job) : (setJob s i j).seqBc = s.seqBc := rfl
@[simp] theorem setJob_mcOut (s : State) (i : Nat) (j : Job) : (setJob s i j).mcOut = s.mcOut := rfl
@[simp] theorem setJob_cutAddr (s : State) (i : Nat) (j : Job) : (setJob s i j).cutAddr = s.cutAddr := rfl
@[simp] theorem setJob_cutReq (s : State) (i : Nat) (j : Job) : (setJob s i j).cutReq = s.cutReq := rfl
@[simp] theorem setJob_c0 (s : State) (i : Nat) (j : Job) : (setJob s i j).c0 = s.c0 := rfl
@[simp] theorem setJob_c1 (s : State) (i : Nat) (j : Job) : (setJob s i j).c1 = s.c1 := rfl
@[simp] theorem setJob_flags (s : State) (i : Nat) (j : Job) : (setJob s i j).flags = s.flags := rfl
@[simp] theorem setJob_stepSets (s : State) (i : Nat) (j : Job) : (setJob s i j).stepSets = s.stepSets := rfl
@[simp] theorem setJob_stepClears (s : State) (i : Nat) (j : Job) : (setJob s i j).stepClears = s.stepClears := rfl
@[simp] theorem setJob_stepMarks (s : State) (i : Nat) (j : Job) : (setJob s i j).stepMarks = s.stepMarks := rfl
@[simp] theorem setJob_stepOps (s : State) (i : Nat) (j : Job) : (setJob s i j).stepOps = s.stepOps := rfl
@[simp] theorem setJob_selfFlits (s : State) (i : Nat) (j : Job) : (setJob s i j).selfFlits = s.selfFlits := rfl
@[simp] theorem setJob_syncQ (s : State) (i : Nat) (j : Job) : (setJob s i j).syncQ = s.syncQ := rfl
@[simp] theorem setJob_syncSent (s : State) (i : Nat) (j : Job) : (setJob s i j).syncSent = s.syncSent := rfl
@[simp] theorem setJob_stepSpad (s : State) (i : Nat) (j : Job) : (setJob s i j).stepSpad = s.stepSpad := rfl
@[simp] theorem setJob_stepPages (s : State) (i : Nat) (j : Job) : (setJob s i j).stepPages = s.stepPages := rfl
@[simp] theorem setJob_accOwn (s : State) (i : Nat) (j : Job) : (setJob s i j).accOwn = s.accOwn := rfl
@[simp] theorem setJob_spad (s : State) (i : Nat) (j : Job) : (setJob s i j).spad = s.spad := rfl
@[simp] theorem setJob_spadErr (s : State) (i : Nat) (j : Job) : (setJob s i j).spadErr = s.spadErr := rfl
@[simp] theorem setJob_wbPend (s : State) (i : Nat) (j : Job) : (setJob s i j).wbPend = s.wbPend := rfl
@[simp] theorem setJob_scrub (s : State) (i : Nat) (j : Job) : (setJob s i j).scrub = s.scrub := rfl
@[simp] theorem setJob_checked (s : State) (i : Nat) (j : Job) : (setJob s i j).checked = s.checked := rfl
@[simp] theorem setJob_pages (s : State) (i : Nat) (j : Job) : (setJob s i j).pages = s.pages := rfl
@[simp] theorem setJob_handles (s : State) (i : Nat) (j : Job) : (setJob s i j).handles = s.handles := rfl
@[simp] theorem setJob_acc (s : State) (i : Nat) (j : Job) : (setJob s i j).acc = s.acc := rfl
@[simp] theorem setJob_accErr (s : State) (i : Nat) (j : Job) : (setJob s i j).accErr = s.accErr := rfl
@[simp] theorem setJob_stepAcc (s : State) (i : Nat) (j : Job) : (setJob s i j).stepAcc = s.stepAcc := rfl
@[simp] theorem setJob_mesh (s : State) (i : Nat) (j : Job) : (setJob s i j).mesh = s.mesh := rfl
@[simp] theorem setJob_stat (s : State) (i : Nat) (j : Job) : (setJob s i j).stat = s.stat := rfl
@[simp] theorem setJob_statErr (s : State) (i : Nat) (j : Job) : (setJob s i j).statErr = s.statErr := rfl
@[simp] theorem setJob_imem (s : State) (i : Nat) (j : Job) : (setJob s i j).imem = s.imem := rfl
@[simp] theorem setJob_imemLen (s : State) (i : Nat) (j : Job) : (setJob s i j).imemLen = s.imemLen := rfl
@[simp] theorem setJob_entry (s : State) (i : Nat) (j : Job) : (setJob s i j).entry = s.entry := rfl
@[simp] theorem setJob_dmem (s : State) (i : Nat) (j : Job) : (setJob s i j).dmem = s.dmem := rfl
@[simp] theorem setJob_dmemStep (s : State) (i : Nat) (j : Job) : (setJob s i j).dmemStep = s.dmemStep := rfl
@[simp] theorem setJob_trackers (s : State) (i : Nat) (j : Job) : (setJob s i j).trackers = s.trackers := rfl
@[simp] theorem setJob_stepTrk (s : State) (i : Nat) (j : Job) : (setJob s i j).stepTrk = s.stepTrk := rfl
@[simp] theorem setJob_spadWin (s : State) (i : Nat) (j : Job) : (setJob s i j).spadWin = s.spadWin := rfl
@[simp] theorem setJob_nextId (s : State) (i : Nat) (j : Job) : (setJob s i j).nextId = s.nextId := rfl
@[simp] theorem setJob_stepDone (s : State) (i : Nat) (j : Job) : (setJob s i j).stepDone = s.stepDone := rfl
@[simp] theorem setJob_units (s : State) (i : Nat) (j : Job) : (setJob s i j).units = s.units := rfl
@[simp] theorem setJob_outst (s : State) (i : Nat) (j : Job) : (setJob s i j).outst = s.outst := rfl
@[simp] theorem setJob_retired (s : State) (i : Nat) (j : Job) : (setJob s i j).retired = s.retired := rfl
@[simp] theorem setJob_rxTab (s : State) (i : Nat) (j : Job) : (setJob s i j).rxTab = s.rxTab := rfl
@[simp] theorem setJob_winAcks (s : State) (i : Nat) (j : Job) : (setJob s i j).winAcks = s.winAcks := rfl
@[simp] theorem setJob_held (s : State) (i : Nat) (j : Job) : (setJob s i j).held = s.held := rfl
@[simp] theorem setJob_rstDue (s : State) (i : Nat) (j : Job) : (setJob s i j).rstDue = s.rstDue := rfl
@[simp] theorem setJob_winDone (s : State) (i : Nat) (j : Job) : (setJob s i j).winDone = s.winDone := rfl
@[simp] theorem setJob_perfLast (s : State) (i : Nat) (j : Job) : (setJob s i j).perfLast = s.perfLast := rfl
@[simp] theorem setJob_mgmt (s : State) (i : Nat) (j : Job) : (setJob s i j).mgmt = s.mgmt := rfl
@[simp] theorem setJob_pinA (s : State) (i : Nat) (j : Job) : (setJob s i j).pinA = s.pinA := rfl
@[simp] theorem setJob_pinB (s : State) (i : Nat) (j : Job) : (setJob s i j).pinB = s.pinB := rfl
@[simp] theorem setJob_faTx (s : State) (i : Nat) (j : Job) : (setJob s i j).faTx = s.faTx := rfl
@[simp] theorem setJob_fbTx (s : State) (i : Nat) (j : Job) : (setJob s i j).fbTx = s.fbTx := rfl
@[simp] theorem setJob_txA (s : State) (i : Nat) (j : Job) : (setJob s i j).txA = s.txA := rfl
@[simp] theorem setJob_txB (s : State) (i : Nat) (j : Job) : (setJob s i j).txB = s.txB := rfl
@[simp] theorem setJob_rxA (s : State) (i : Nat) (j : Job) : (setJob s i j).rxA = s.rxA := rfl
@[simp] theorem setJob_rxB (s : State) (i : Nat) (j : Job) : (setJob s i j).rxB = s.rxB := rfl
@[simp] theorem setJob_rxS (s : State) (i : Nat) (j : Job) : (setJob s i j).rxS = s.rxS := rfl
@[simp] theorem setJob_linkA (s : State) (i : Nat) (j : Job) : (setJob s i j).linkA = s.linkA := rfl
@[simp] theorem setJob_linkB (s : State) (i : Nat) (j : Job) : (setJob s i j).linkB = s.linkB := rfl
@[simp] theorem setJob_epoch (s : State) (i : Nat) (j : Job) : (setJob s i j).epoch = s.epoch := rfl
@[simp] theorem setJob_ilPtr (s : State) (i : Nat) (j : Job) : (setJob s i j).ilPtr = s.ilPtr := rfl
@[simp] theorem setJob_pstate (s : State) (i : Nat) (j : Job) : (setJob s i j).pstate = s.pstate := rfl
@[simp] theorem setJob_proof (s : State) (i : Nat) (j : Job) : (setJob s i j).proof = s.proof := rfl
@[simp] theorem setJob_bakeOn (s : State) (i : Nat) (j : Job) : (setJob s i j).bakeOn = s.bakeOn := rfl
@[simp] theorem setJob_bake (s : State) (i : Nat) (j : Job) : (setJob s i j).bake = s.bake := rfl
@[simp] theorem setJob_cfg (s : State) (i : Nat) (j : Job) : (setJob s i j).cfg = s.cfg := rfl
@[simp] theorem setJob_setRej (s : State) (i : Nat) (j : Job) : (setJob s i j).setRej = s.setRej := rfl
@[simp] theorem setJob_warnDom (s : State) (i : Nat) (j : Job) : (setJob s i j).warnDom = s.warnDom := rfl
@[simp] theorem setJob_fw (s : State) (i : Nat) (j : Job) : (setJob s i j).fw = s.fw := rfl
@[simp] theorem setJob_sb (s : State) (i : Nat) (j : Job) : (setJob s i j).sb = s.sb := rfl
@[simp] theorem setJob_flt (s : State) (i : Nat) (j : Job) : (setJob s i j).flt = s.flt := rfl
@[simp] theorem setJob_tmr (s : State) (i : Nat) (j : Job) : (setJob s i j).tmr = s.tmr := rfl
@[simp] theorem setJob_pwr (s : State) (i : Nat) (j : Job) : (setJob s i j).pwr = s.pwr := rfl
@[simp] theorem setJob_perf (s : State) (i : Nat) (j : Job) : (setJob s i j).perf = s.perf := rfl
@[simp] theorem setJob_perfStep (s : State) (i : Nat) (j : Job) : (setJob s i j).perfStep = s.perfStep := rfl
@[simp] theorem setJob_perfStop (s : State) (i : Nat) (j : Job) : (setJob s i j).perfStop = s.perfStop := rfl
@[simp] theorem setJob_steps (s : State) (i : Nat) (j : Job) : (setJob s i j).steps = s.steps := rfl
@[simp] theorem setJob_st (s : State) (i : Nat) (j : Job) : (setJob s i j).st = s.st := rfl
@[simp] theorem startWord_pending (s : State) (c : Ctx) (e : Eng) (q : QWord) (hs : List Nat) (j : Job) (fs : List Foot) : (startWord s c e q hs j fs).pending = s.pending := by simp [startWord]
@[simp] theorem startWord_freeCtr (s : State) (c : Ctx) (e : Eng) (q : QWord) (hs : List Nat) (j : Job) (fs : List Foot) : (startWord s c e q hs j fs).freeCtr = s.freeCtr := by simp [startWord]
@[simp] theorem startWord_features (s : State) (c : Ctx) (e : Eng) (q : QWord) (hs : List Nat) (j : Job) (fs : List Foot) : (startWord s c e q hs j fs).features = s.features := by simp [startWord]
@[simp] theorem startWord_powered (s : State) (c : Ctx) (e : Eng) (q : QWord) (hs : List Nat) (j : Job) (fs : List Foot) : (startWord s c e q hs j fs).powered = s.powered := by simp [startWord]
@[simp] theorem startWord_vcore (s : State) (c : Ctx) (e : Eng) (q : QWord) (hs : List Nat) (j : Job) (fs : List Foot) : (startWord s c e q hs j fs).vcore = s.vcore := by simp [startWord]
@[simp] theorem startWord_vmem (s : State) (c : Ctx) (e : Eng) (q : QWord) (hs : List Nat) (j : Job) (fs : List Foot) : (startWord s c e q hs j fs).vmem = s.vmem := by simp [startWord]
@[simp] theorem startWord_rstN (s : State) (c : Ctx) (e : Eng) (q : QWord) (hs : List Nat) (j : Job) (fs : List Foot) : (startWord s c e q hs j fs).rstN = s.rstN := by simp [startWord]
@[simp] theorem startWord_wir (s : State) (c : Ctx) (e : Eng) (q : QWord) (hs : List Nat) (j : Job) (fs : List Foot) : (startWord s c e q hs j fs).wir = s.wir := by simp [startWord]
@[simp] theorem startWord_wrap (s : State) (c : Ctx) (e : Eng) (q : QWord) (hs : List Nat) (j : Job) (fs : List Foot) : (startWord s c e q hs j fs).wrap = s.wrap := by simp [startWord]
@[simp] theorem startWord_testRes (s : State) (c : Ctx) (e : Eng) (q : QWord) (hs : List Nat) (j : Job) (fs : List Foot) : (startWord s c e q hs j fs).testRes = s.testRes := by simp [startWord]
@[simp] theorem startWord_core (s : State) (c : Ctx) (e : Eng) (q : QWord) (hs : List Nat) (j : Job) (fs : List Foot) : (startWord s c e q hs j fs).core = s.core := by simp [startWord]
@[simp] theorem startWord_parked (s : State) (c : Ctx) (e : Eng) (q : QWord) (hs : List Nat) (j : Job) (fs : List Foot) : (startWord s c e q hs j fs).parked = s.parked := by simp [startWord]
@[simp] theorem startWord_serial (s : State) (c : Ctx) (e : Eng) (q : QWord) (hs : List Nat) (j : Job) (fs : List Foot) : (startWord s c e q hs j fs).serial = s.serial := by simp [startWord]
@[simp] theorem startWord_pwrdom (s : State) (c : Ctx) (e : Eng) (q : QWord) (hs : List Nat) (j : Job) (fs : List Foot) : (startWord s c e q hs j fs).pwrdom = s.pwrdom := by simp [startWord]
@[simp] theorem startWord_chainAddr (s : State) (c : Ctx) (e : Eng) (q : QWord) (hs : List Nat) (j : Job) (fs : List Foot) : (startWord s c e q hs j fs).chainAddr = s.chainAddr := by simp [startWord]
@[simp] theorem startWord_seqWr (s : State) (c : Ctx) (e : Eng) (q : QWord) (hs : List Nat) (j : Job) (fs : List Foot) : (startWord s c e q hs j fs).seqWr = s.seqWr := by simp [startWord]
@[simp] theorem startWord_seqBc (s : State) (c : Ctx) (e : Eng) (q : QWord) (hs : List Nat) (j : Job) (fs : List Foot) : (startWord s c e q hs j fs).seqBc = s.seqBc := by simp [startWord]
@[simp] theorem startWord_mcOut (s : State) (c : Ctx) (e : Eng) (q : QWord) (hs : List Nat) (j : Job) (fs : List Foot) : (startWord s c e q hs j fs).mcOut = s.mcOut := by simp [startWord]
@[simp] theorem startWord_cutAddr (s : State) (c : Ctx) (e : Eng) (q : QWord) (hs : List Nat) (j : Job) (fs : List Foot) : (startWord s c e q hs j fs).cutAddr = s.cutAddr := by simp [startWord]
@[simp] theorem startWord_cutReq (s : State) (c : Ctx) (e : Eng) (q : QWord) (hs : List Nat) (j : Job) (fs : List Foot) : (startWord s c e q hs j fs).cutReq = s.cutReq := by simp [startWord]
@[simp] theorem startWord_flags (s : State) (c : Ctx) (e : Eng) (q : QWord) (hs : List Nat) (j : Job) (fs : List Foot) : (startWord s c e q hs j fs).flags = s.flags := by simp [startWord]
@[simp] theorem startWord_stepSets (s : State) (c : Ctx) (e : Eng) (q : QWord) (hs : List Nat) (j : Job) (fs : List Foot) : (startWord s c e q hs j fs).stepSets = s.stepSets := by simp [startWord]
@[simp] theorem startWord_stepClears (s : State) (c : Ctx) (e : Eng) (q : QWord) (hs : List Nat) (j : Job) (fs : List Foot) : (startWord s c e q hs j fs).stepClears = s.stepClears := by simp [startWord]
@[simp] theorem startWord_stepMarks (s : State) (c : Ctx) (e : Eng) (q : QWord) (hs : List Nat) (j : Job) (fs : List Foot) : (startWord s c e q hs j fs).stepMarks = s.stepMarks := by simp [startWord]
@[simp] theorem startWord_stepOps (s : State) (c : Ctx) (e : Eng) (q : QWord) (hs : List Nat) (j : Job) (fs : List Foot) : (startWord s c e q hs j fs).stepOps = s.stepOps := by simp [startWord]
@[simp] theorem startWord_selfFlits (s : State) (c : Ctx) (e : Eng) (q : QWord) (hs : List Nat) (j : Job) (fs : List Foot) : (startWord s c e q hs j fs).selfFlits = s.selfFlits := by simp [startWord]
@[simp] theorem startWord_syncQ (s : State) (c : Ctx) (e : Eng) (q : QWord) (hs : List Nat) (j : Job) (fs : List Foot) : (startWord s c e q hs j fs).syncQ = s.syncQ := by simp [startWord]
@[simp] theorem startWord_syncSent (s : State) (c : Ctx) (e : Eng) (q : QWord) (hs : List Nat) (j : Job) (fs : List Foot) : (startWord s c e q hs j fs).syncSent = s.syncSent := by simp [startWord]
@[simp] theorem startWord_stepSpad (s : State) (c : Ctx) (e : Eng) (q : QWord) (hs : List Nat) (j : Job) (fs : List Foot) : (startWord s c e q hs j fs).stepSpad = s.stepSpad := by simp [startWord]
@[simp] theorem startWord_stepPages (s : State) (c : Ctx) (e : Eng) (q : QWord) (hs : List Nat) (j : Job) (fs : List Foot) : (startWord s c e q hs j fs).stepPages = s.stepPages := by simp [startWord]
@[simp] theorem startWord_accOwn (s : State) (c : Ctx) (e : Eng) (q : QWord) (hs : List Nat) (j : Job) (fs : List Foot) : (startWord s c e q hs j fs).accOwn = s.accOwn := by simp [startWord]
@[simp] theorem startWord_spad (s : State) (c : Ctx) (e : Eng) (q : QWord) (hs : List Nat) (j : Job) (fs : List Foot) : (startWord s c e q hs j fs).spad = s.spad := by simp [startWord]
@[simp] theorem startWord_spadErr (s : State) (c : Ctx) (e : Eng) (q : QWord) (hs : List Nat) (j : Job) (fs : List Foot) : (startWord s c e q hs j fs).spadErr = s.spadErr := by simp [startWord]
@[simp] theorem startWord_wbPend (s : State) (c : Ctx) (e : Eng) (q : QWord) (hs : List Nat) (j : Job) (fs : List Foot) : (startWord s c e q hs j fs).wbPend = s.wbPend := by simp [startWord]
@[simp] theorem startWord_scrub (s : State) (c : Ctx) (e : Eng) (q : QWord) (hs : List Nat) (j : Job) (fs : List Foot) : (startWord s c e q hs j fs).scrub = s.scrub := by simp [startWord]
@[simp] theorem startWord_checked (s : State) (c : Ctx) (e : Eng) (q : QWord) (hs : List Nat) (j : Job) (fs : List Foot) : (startWord s c e q hs j fs).checked = s.checked := by simp [startWord]
@[simp] theorem startWord_pages (s : State) (c : Ctx) (e : Eng) (q : QWord) (hs : List Nat) (j : Job) (fs : List Foot) : (startWord s c e q hs j fs).pages = s.pages := by simp [startWord]
@[simp] theorem startWord_handles (s : State) (c : Ctx) (e : Eng) (q : QWord) (hs : List Nat) (j : Job) (fs : List Foot) : (startWord s c e q hs j fs).handles = s.handles := by simp [startWord]
@[simp] theorem startWord_acc (s : State) (c : Ctx) (e : Eng) (q : QWord) (hs : List Nat) (j : Job) (fs : List Foot) : (startWord s c e q hs j fs).acc = s.acc := by simp [startWord]
@[simp] theorem startWord_accErr (s : State) (c : Ctx) (e : Eng) (q : QWord) (hs : List Nat) (j : Job) (fs : List Foot) : (startWord s c e q hs j fs).accErr = s.accErr := by simp [startWord]
@[simp] theorem startWord_stepAcc (s : State) (c : Ctx) (e : Eng) (q : QWord) (hs : List Nat) (j : Job) (fs : List Foot) : (startWord s c e q hs j fs).stepAcc = s.stepAcc := by simp [startWord]
@[simp] theorem startWord_mesh (s : State) (c : Ctx) (e : Eng) (q : QWord) (hs : List Nat) (j : Job) (fs : List Foot) : (startWord s c e q hs j fs).mesh = s.mesh := by simp [startWord]
@[simp] theorem startWord_stat (s : State) (c : Ctx) (e : Eng) (q : QWord) (hs : List Nat) (j : Job) (fs : List Foot) : (startWord s c e q hs j fs).stat = s.stat := by simp [startWord]
@[simp] theorem startWord_statErr (s : State) (c : Ctx) (e : Eng) (q : QWord) (hs : List Nat) (j : Job) (fs : List Foot) : (startWord s c e q hs j fs).statErr = s.statErr := by simp [startWord]
@[simp] theorem startWord_imem (s : State) (c : Ctx) (e : Eng) (q : QWord) (hs : List Nat) (j : Job) (fs : List Foot) : (startWord s c e q hs j fs).imem = s.imem := by simp [startWord]
@[simp] theorem startWord_imemLen (s : State) (c : Ctx) (e : Eng) (q : QWord) (hs : List Nat) (j : Job) (fs : List Foot) : (startWord s c e q hs j fs).imemLen = s.imemLen := by simp [startWord]
@[simp] theorem startWord_entry (s : State) (c : Ctx) (e : Eng) (q : QWord) (hs : List Nat) (j : Job) (fs : List Foot) : (startWord s c e q hs j fs).entry = s.entry := by simp [startWord]
@[simp] theorem startWord_dmem (s : State) (c : Ctx) (e : Eng) (q : QWord) (hs : List Nat) (j : Job) (fs : List Foot) : (startWord s c e q hs j fs).dmem = s.dmem := by simp [startWord]
@[simp] theorem startWord_dmemStep (s : State) (c : Ctx) (e : Eng) (q : QWord) (hs : List Nat) (j : Job) (fs : List Foot) : (startWord s c e q hs j fs).dmemStep = s.dmemStep := by simp [startWord]
@[simp] theorem startWord_trackers (s : State) (c : Ctx) (e : Eng) (q : QWord) (hs : List Nat) (j : Job) (fs : List Foot) : (startWord s c e q hs j fs).trackers = s.trackers := by simp [startWord]
@[simp] theorem startWord_stepTrk (s : State) (c : Ctx) (e : Eng) (q : QWord) (hs : List Nat) (j : Job) (fs : List Foot) : (startWord s c e q hs j fs).stepTrk = s.stepTrk := by simp [startWord]
@[simp] theorem startWord_spadWin (s : State) (c : Ctx) (e : Eng) (q : QWord) (hs : List Nat) (j : Job) (fs : List Foot) : (startWord s c e q hs j fs).spadWin = s.spadWin := by simp [startWord]
@[simp] theorem startWord_nextId (s : State) (c : Ctx) (e : Eng) (q : QWord) (hs : List Nat) (j : Job) (fs : List Foot) : (startWord s c e q hs j fs).nextId = s.nextId := by simp [startWord]
@[simp] theorem startWord_stepDone (s : State) (c : Ctx) (e : Eng) (q : QWord) (hs : List Nat) (j : Job) (fs : List Foot) : (startWord s c e q hs j fs).stepDone = s.stepDone := by simp [startWord]
@[simp] theorem startWord_units (s : State) (c : Ctx) (e : Eng) (q : QWord) (hs : List Nat) (j : Job) (fs : List Foot) : (startWord s c e q hs j fs).units = s.units := by simp [startWord]
@[simp] theorem startWord_outst (s : State) (c : Ctx) (e : Eng) (q : QWord) (hs : List Nat) (j : Job) (fs : List Foot) : (startWord s c e q hs j fs).outst = s.outst := by simp [startWord]
@[simp] theorem startWord_retired (s : State) (c : Ctx) (e : Eng) (q : QWord) (hs : List Nat) (j : Job) (fs : List Foot) : (startWord s c e q hs j fs).retired = s.retired := by simp [startWord]
@[simp] theorem startWord_rxTab (s : State) (c : Ctx) (e : Eng) (q : QWord) (hs : List Nat) (j : Job) (fs : List Foot) : (startWord s c e q hs j fs).rxTab = s.rxTab := by simp [startWord]
@[simp] theorem startWord_winAcks (s : State) (c : Ctx) (e : Eng) (q : QWord) (hs : List Nat) (j : Job) (fs : List Foot) : (startWord s c e q hs j fs).winAcks = s.winAcks := by simp [startWord]
@[simp] theorem startWord_held (s : State) (c : Ctx) (e : Eng) (q : QWord) (hs : List Nat) (j : Job) (fs : List Foot) : (startWord s c e q hs j fs).held = s.held := by simp [startWord]
@[simp] theorem startWord_rstDue (s : State) (c : Ctx) (e : Eng) (q : QWord) (hs : List Nat) (j : Job) (fs : List Foot) : (startWord s c e q hs j fs).rstDue = s.rstDue := by simp [startWord]
@[simp] theorem startWord_winDone (s : State) (c : Ctx) (e : Eng) (q : QWord) (hs : List Nat) (j : Job) (fs : List Foot) : (startWord s c e q hs j fs).winDone = s.winDone := by simp [startWord]
@[simp] theorem startWord_perfLast (s : State) (c : Ctx) (e : Eng) (q : QWord) (hs : List Nat) (j : Job) (fs : List Foot) : (startWord s c e q hs j fs).perfLast = s.perfLast := by simp [startWord]
@[simp] theorem startWord_mgmt (s : State) (c : Ctx) (e : Eng) (q : QWord) (hs : List Nat) (j : Job) (fs : List Foot) : (startWord s c e q hs j fs).mgmt = s.mgmt := by simp [startWord]
@[simp] theorem startWord_pinA (s : State) (c : Ctx) (e : Eng) (q : QWord) (hs : List Nat) (j : Job) (fs : List Foot) : (startWord s c e q hs j fs).pinA = s.pinA := by simp [startWord]
@[simp] theorem startWord_pinB (s : State) (c : Ctx) (e : Eng) (q : QWord) (hs : List Nat) (j : Job) (fs : List Foot) : (startWord s c e q hs j fs).pinB = s.pinB := by simp [startWord]
@[simp] theorem startWord_faTx (s : State) (c : Ctx) (e : Eng) (q : QWord) (hs : List Nat) (j : Job) (fs : List Foot) : (startWord s c e q hs j fs).faTx = s.faTx := by simp [startWord]
@[simp] theorem startWord_fbTx (s : State) (c : Ctx) (e : Eng) (q : QWord) (hs : List Nat) (j : Job) (fs : List Foot) : (startWord s c e q hs j fs).fbTx = s.fbTx := by simp [startWord]
@[simp] theorem startWord_txA (s : State) (c : Ctx) (e : Eng) (q : QWord) (hs : List Nat) (j : Job) (fs : List Foot) : (startWord s c e q hs j fs).txA = s.txA := by simp [startWord]
@[simp] theorem startWord_txB (s : State) (c : Ctx) (e : Eng) (q : QWord) (hs : List Nat) (j : Job) (fs : List Foot) : (startWord s c e q hs j fs).txB = s.txB := by simp [startWord]
@[simp] theorem startWord_rxA (s : State) (c : Ctx) (e : Eng) (q : QWord) (hs : List Nat) (j : Job) (fs : List Foot) : (startWord s c e q hs j fs).rxA = s.rxA := by simp [startWord]
@[simp] theorem startWord_rxB (s : State) (c : Ctx) (e : Eng) (q : QWord) (hs : List Nat) (j : Job) (fs : List Foot) : (startWord s c e q hs j fs).rxB = s.rxB := by simp [startWord]
@[simp] theorem startWord_rxS (s : State) (c : Ctx) (e : Eng) (q : QWord) (hs : List Nat) (j : Job) (fs : List Foot) : (startWord s c e q hs j fs).rxS = s.rxS := by simp [startWord]
@[simp] theorem startWord_linkA (s : State) (c : Ctx) (e : Eng) (q : QWord) (hs : List Nat) (j : Job) (fs : List Foot) : (startWord s c e q hs j fs).linkA = s.linkA := by simp [startWord]
@[simp] theorem startWord_linkB (s : State) (c : Ctx) (e : Eng) (q : QWord) (hs : List Nat) (j : Job) (fs : List Foot) : (startWord s c e q hs j fs).linkB = s.linkB := by simp [startWord]
@[simp] theorem startWord_epoch (s : State) (c : Ctx) (e : Eng) (q : QWord) (hs : List Nat) (j : Job) (fs : List Foot) : (startWord s c e q hs j fs).epoch = s.epoch := by simp [startWord]
@[simp] theorem startWord_ilPtr (s : State) (c : Ctx) (e : Eng) (q : QWord) (hs : List Nat) (j : Job) (fs : List Foot) : (startWord s c e q hs j fs).ilPtr = s.ilPtr := by simp [startWord]
@[simp] theorem startWord_pstate (s : State) (c : Ctx) (e : Eng) (q : QWord) (hs : List Nat) (j : Job) (fs : List Foot) : (startWord s c e q hs j fs).pstate = s.pstate := by simp [startWord]
@[simp] theorem startWord_proof (s : State) (c : Ctx) (e : Eng) (q : QWord) (hs : List Nat) (j : Job) (fs : List Foot) : (startWord s c e q hs j fs).proof = s.proof := by simp [startWord]
@[simp] theorem startWord_bakeOn (s : State) (c : Ctx) (e : Eng) (q : QWord) (hs : List Nat) (j : Job) (fs : List Foot) : (startWord s c e q hs j fs).bakeOn = s.bakeOn := by simp [startWord]
@[simp] theorem startWord_bake (s : State) (c : Ctx) (e : Eng) (q : QWord) (hs : List Nat) (j : Job) (fs : List Foot) : (startWord s c e q hs j fs).bake = s.bake := by simp [startWord]
@[simp] theorem startWord_cfg (s : State) (c : Ctx) (e : Eng) (q : QWord) (hs : List Nat) (j : Job) (fs : List Foot) : (startWord s c e q hs j fs).cfg = s.cfg := by simp [startWord]
@[simp] theorem startWord_setRej (s : State) (c : Ctx) (e : Eng) (q : QWord) (hs : List Nat) (j : Job) (fs : List Foot) : (startWord s c e q hs j fs).setRej = s.setRej := by simp [startWord]
@[simp] theorem startWord_warnDom (s : State) (c : Ctx) (e : Eng) (q : QWord) (hs : List Nat) (j : Job) (fs : List Foot) : (startWord s c e q hs j fs).warnDom = s.warnDom := by simp [startWord]
@[simp] theorem startWord_fw (s : State) (c : Ctx) (e : Eng) (q : QWord) (hs : List Nat) (j : Job) (fs : List Foot) : (startWord s c e q hs j fs).fw = s.fw := by simp [startWord]
@[simp] theorem startWord_sb (s : State) (c : Ctx) (e : Eng) (q : QWord) (hs : List Nat) (j : Job) (fs : List Foot) : (startWord s c e q hs j fs).sb = s.sb := by simp [startWord]
@[simp] theorem startWord_flt (s : State) (c : Ctx) (e : Eng) (q : QWord) (hs : List Nat) (j : Job) (fs : List Foot) : (startWord s c e q hs j fs).flt = s.flt := by simp [startWord]
@[simp] theorem startWord_pwr (s : State) (c : Ctx) (e : Eng) (q : QWord) (hs : List Nat) (j : Job) (fs : List Foot) : (startWord s c e q hs j fs).pwr = s.pwr := by simp [startWord]
@[simp] theorem startWord_perf (s : State) (c : Ctx) (e : Eng) (q : QWord) (hs : List Nat) (j : Job) (fs : List Foot) : (startWord s c e q hs j fs).perf = s.perf := by simp [startWord]
@[simp] theorem startWord_perfStop (s : State) (c : Ctx) (e : Eng) (q : QWord) (hs : List Nat) (j : Job) (fs : List Foot) : (startWord s c e q hs j fs).perfStop = s.perfStop := by simp [startWord]
@[simp] theorem startWord_steps (s : State) (c : Ctx) (e : Eng) (q : QWord) (hs : List Nat) (j : Job) (fs : List Foot) : (startWord s c e q hs j fs).steps = s.steps := by simp [startWord]
@[simp] theorem startWord_st (s : State) (c : Ctx) (e : Eng) (q : QWord) (hs : List Nat) (j : Job) (fs : List Foot) : (startWord s c e q hs j fs).st = s.st := by simp [startWord]
@[simp] theorem refuseWord_pending (s : State) (c : Ctx) (e : Eng) (n : Nat) : (refuseWord s c e n).pending = s.pending := by simp [refuseWord]
@[simp] theorem refuseWord_freeCtr (s : State) (c : Ctx) (e : Eng) (n : Nat) : (refuseWord s c e n).freeCtr = s.freeCtr := by simp [refuseWord]
@[simp] theorem refuseWord_features (s : State) (c : Ctx) (e : Eng) (n : Nat) : (refuseWord s c e n).features = s.features := by simp [refuseWord]
@[simp] theorem refuseWord_powered (s : State) (c : Ctx) (e : Eng) (n : Nat) : (refuseWord s c e n).powered = s.powered := by simp [refuseWord]
@[simp] theorem refuseWord_vcore (s : State) (c : Ctx) (e : Eng) (n : Nat) : (refuseWord s c e n).vcore = s.vcore := by simp [refuseWord]
@[simp] theorem refuseWord_vmem (s : State) (c : Ctx) (e : Eng) (n : Nat) : (refuseWord s c e n).vmem = s.vmem := by simp [refuseWord]
@[simp] theorem refuseWord_rstN (s : State) (c : Ctx) (e : Eng) (n : Nat) : (refuseWord s c e n).rstN = s.rstN := by simp [refuseWord]
@[simp] theorem refuseWord_wir (s : State) (c : Ctx) (e : Eng) (n : Nat) : (refuseWord s c e n).wir = s.wir := by simp [refuseWord]
@[simp] theorem refuseWord_wrap (s : State) (c : Ctx) (e : Eng) (n : Nat) : (refuseWord s c e n).wrap = s.wrap := by simp [refuseWord]
@[simp] theorem refuseWord_testRes (s : State) (c : Ctx) (e : Eng) (n : Nat) : (refuseWord s c e n).testRes = s.testRes := by simp [refuseWord]
@[simp] theorem refuseWord_core (s : State) (c : Ctx) (e : Eng) (n : Nat) : (refuseWord s c e n).core = s.core := by simp [refuseWord]
@[simp] theorem refuseWord_parked (s : State) (c : Ctx) (e : Eng) (n : Nat) : (refuseWord s c e n).parked = s.parked := by simp [refuseWord]
@[simp] theorem refuseWord_serial (s : State) (c : Ctx) (e : Eng) (n : Nat) : (refuseWord s c e n).serial = s.serial := by simp [refuseWord]
@[simp] theorem refuseWord_pwrdom (s : State) (c : Ctx) (e : Eng) (n : Nat) : (refuseWord s c e n).pwrdom = s.pwrdom := by simp [refuseWord]
@[simp] theorem refuseWord_chainAddr (s : State) (c : Ctx) (e : Eng) (n : Nat) : (refuseWord s c e n).chainAddr = s.chainAddr := by simp [refuseWord]
@[simp] theorem refuseWord_seqWr (s : State) (c : Ctx) (e : Eng) (n : Nat) : (refuseWord s c e n).seqWr = s.seqWr := by simp [refuseWord]
@[simp] theorem refuseWord_seqBc (s : State) (c : Ctx) (e : Eng) (n : Nat) : (refuseWord s c e n).seqBc = s.seqBc := by simp [refuseWord]
@[simp] theorem refuseWord_mcOut (s : State) (c : Ctx) (e : Eng) (n : Nat) : (refuseWord s c e n).mcOut = s.mcOut := by simp [refuseWord]
@[simp] theorem refuseWord_cutAddr (s : State) (c : Ctx) (e : Eng) (n : Nat) : (refuseWord s c e n).cutAddr = s.cutAddr := by simp [refuseWord]
@[simp] theorem refuseWord_cutReq (s : State) (c : Ctx) (e : Eng) (n : Nat) : (refuseWord s c e n).cutReq = s.cutReq := by simp [refuseWord]
@[simp] theorem refuseWord_flags (s : State) (c : Ctx) (e : Eng) (n : Nat) : (refuseWord s c e n).flags = s.flags := by simp [refuseWord]
@[simp] theorem refuseWord_stepSets (s : State) (c : Ctx) (e : Eng) (n : Nat) : (refuseWord s c e n).stepSets = s.stepSets := by simp [refuseWord]
@[simp] theorem refuseWord_stepClears (s : State) (c : Ctx) (e : Eng) (n : Nat) : (refuseWord s c e n).stepClears = s.stepClears := by simp [refuseWord]
@[simp] theorem refuseWord_stepMarks (s : State) (c : Ctx) (e : Eng) (n : Nat) : (refuseWord s c e n).stepMarks = s.stepMarks := by simp [refuseWord]
@[simp] theorem refuseWord_stepOps (s : State) (c : Ctx) (e : Eng) (n : Nat) : (refuseWord s c e n).stepOps = s.stepOps := by simp [refuseWord]
@[simp] theorem refuseWord_selfFlits (s : State) (c : Ctx) (e : Eng) (n : Nat) : (refuseWord s c e n).selfFlits = s.selfFlits := by simp [refuseWord]
@[simp] theorem refuseWord_syncQ (s : State) (c : Ctx) (e : Eng) (n : Nat) : (refuseWord s c e n).syncQ = s.syncQ := by simp [refuseWord]
@[simp] theorem refuseWord_syncSent (s : State) (c : Ctx) (e : Eng) (n : Nat) : (refuseWord s c e n).syncSent = s.syncSent := by simp [refuseWord]
@[simp] theorem refuseWord_stepSpad (s : State) (c : Ctx) (e : Eng) (n : Nat) : (refuseWord s c e n).stepSpad = s.stepSpad := by simp [refuseWord]
@[simp] theorem refuseWord_stepPages (s : State) (c : Ctx) (e : Eng) (n : Nat) : (refuseWord s c e n).stepPages = s.stepPages := by simp [refuseWord]
@[simp] theorem refuseWord_accOwn (s : State) (c : Ctx) (e : Eng) (n : Nat) : (refuseWord s c e n).accOwn = s.accOwn := by simp [refuseWord]
@[simp] theorem refuseWord_spad (s : State) (c : Ctx) (e : Eng) (n : Nat) : (refuseWord s c e n).spad = s.spad := by simp [refuseWord]
@[simp] theorem refuseWord_spadErr (s : State) (c : Ctx) (e : Eng) (n : Nat) : (refuseWord s c e n).spadErr = s.spadErr := by simp [refuseWord]
@[simp] theorem refuseWord_wbPend (s : State) (c : Ctx) (e : Eng) (n : Nat) : (refuseWord s c e n).wbPend = s.wbPend := by simp [refuseWord]
@[simp] theorem refuseWord_scrub (s : State) (c : Ctx) (e : Eng) (n : Nat) : (refuseWord s c e n).scrub = s.scrub := by simp [refuseWord]
@[simp] theorem refuseWord_checked (s : State) (c : Ctx) (e : Eng) (n : Nat) : (refuseWord s c e n).checked = s.checked := by simp [refuseWord]
@[simp] theorem refuseWord_pages (s : State) (c : Ctx) (e : Eng) (n : Nat) : (refuseWord s c e n).pages = s.pages := by simp [refuseWord]
@[simp] theorem refuseWord_handles (s : State) (c : Ctx) (e : Eng) (n : Nat) : (refuseWord s c e n).handles = s.handles := by simp [refuseWord]
@[simp] theorem refuseWord_acc (s : State) (c : Ctx) (e : Eng) (n : Nat) : (refuseWord s c e n).acc = s.acc := by simp [refuseWord]
@[simp] theorem refuseWord_accErr (s : State) (c : Ctx) (e : Eng) (n : Nat) : (refuseWord s c e n).accErr = s.accErr := by simp [refuseWord]
@[simp] theorem refuseWord_stepAcc (s : State) (c : Ctx) (e : Eng) (n : Nat) : (refuseWord s c e n).stepAcc = s.stepAcc := by simp [refuseWord]
@[simp] theorem refuseWord_mesh (s : State) (c : Ctx) (e : Eng) (n : Nat) : (refuseWord s c e n).mesh = s.mesh := by simp [refuseWord]
@[simp] theorem refuseWord_stat (s : State) (c : Ctx) (e : Eng) (n : Nat) : (refuseWord s c e n).stat = s.stat := by simp [refuseWord]
@[simp] theorem refuseWord_statErr (s : State) (c : Ctx) (e : Eng) (n : Nat) : (refuseWord s c e n).statErr = s.statErr := by simp [refuseWord]
@[simp] theorem refuseWord_imem (s : State) (c : Ctx) (e : Eng) (n : Nat) : (refuseWord s c e n).imem = s.imem := by simp [refuseWord]
@[simp] theorem refuseWord_imemLen (s : State) (c : Ctx) (e : Eng) (n : Nat) : (refuseWord s c e n).imemLen = s.imemLen := by simp [refuseWord]
@[simp] theorem refuseWord_entry (s : State) (c : Ctx) (e : Eng) (n : Nat) : (refuseWord s c e n).entry = s.entry := by simp [refuseWord]
@[simp] theorem refuseWord_dmem (s : State) (c : Ctx) (e : Eng) (n : Nat) : (refuseWord s c e n).dmem = s.dmem := by simp [refuseWord]
@[simp] theorem refuseWord_dmemStep (s : State) (c : Ctx) (e : Eng) (n : Nat) : (refuseWord s c e n).dmemStep = s.dmemStep := by simp [refuseWord]
@[simp] theorem refuseWord_trackers (s : State) (c : Ctx) (e : Eng) (n : Nat) : (refuseWord s c e n).trackers = s.trackers := by simp [refuseWord]
@[simp] theorem refuseWord_stepTrk (s : State) (c : Ctx) (e : Eng) (n : Nat) : (refuseWord s c e n).stepTrk = s.stepTrk := by simp [refuseWord]
@[simp] theorem refuseWord_spadWin (s : State) (c : Ctx) (e : Eng) (n : Nat) : (refuseWord s c e n).spadWin = s.spadWin := by simp [refuseWord]
@[simp] theorem refuseWord_running (s : State) (c : Ctx) (e : Eng) (n : Nat) : (refuseWord s c e n).running = s.running := by simp [refuseWord]
@[simp] theorem refuseWord_nextId (s : State) (c : Ctx) (e : Eng) (n : Nat) : (refuseWord s c e n).nextId = s.nextId := by simp [refuseWord]
@[simp] theorem refuseWord_stepDone (s : State) (c : Ctx) (e : Eng) (n : Nat) : (refuseWord s c e n).stepDone = s.stepDone := by simp [refuseWord]
@[simp] theorem refuseWord_units (s : State) (c : Ctx) (e : Eng) (n : Nat) : (refuseWord s c e n).units = s.units := by simp [refuseWord]
@[simp] theorem refuseWord_outst (s : State) (c : Ctx) (e : Eng) (n : Nat) : (refuseWord s c e n).outst = s.outst := by simp [refuseWord]
@[simp] theorem refuseWord_retired (s : State) (c : Ctx) (e : Eng) (n : Nat) : (refuseWord s c e n).retired = s.retired := by simp [refuseWord]
@[simp] theorem refuseWord_rxTab (s : State) (c : Ctx) (e : Eng) (n : Nat) : (refuseWord s c e n).rxTab = s.rxTab := by simp [refuseWord]
@[simp] theorem refuseWord_winAcks (s : State) (c : Ctx) (e : Eng) (n : Nat) : (refuseWord s c e n).winAcks = s.winAcks := by simp [refuseWord]
@[simp] theorem refuseWord_held (s : State) (c : Ctx) (e : Eng) (n : Nat) : (refuseWord s c e n).held = s.held := by simp [refuseWord]
@[simp] theorem refuseWord_rstDue (s : State) (c : Ctx) (e : Eng) (n : Nat) : (refuseWord s c e n).rstDue = s.rstDue := by simp [refuseWord]
@[simp] theorem refuseWord_winDone (s : State) (c : Ctx) (e : Eng) (n : Nat) : (refuseWord s c e n).winDone = s.winDone := by simp [refuseWord]
@[simp] theorem refuseWord_perfLast (s : State) (c : Ctx) (e : Eng) (n : Nat) : (refuseWord s c e n).perfLast = s.perfLast := by simp [refuseWord]
@[simp] theorem refuseWord_mgmt (s : State) (c : Ctx) (e : Eng) (n : Nat) : (refuseWord s c e n).mgmt = s.mgmt := by simp [refuseWord]
@[simp] theorem refuseWord_pinA (s : State) (c : Ctx) (e : Eng) (n : Nat) : (refuseWord s c e n).pinA = s.pinA := by simp [refuseWord]
@[simp] theorem refuseWord_pinB (s : State) (c : Ctx) (e : Eng) (n : Nat) : (refuseWord s c e n).pinB = s.pinB := by simp [refuseWord]
@[simp] theorem refuseWord_faTx (s : State) (c : Ctx) (e : Eng) (n : Nat) : (refuseWord s c e n).faTx = s.faTx := by simp [refuseWord]
@[simp] theorem refuseWord_fbTx (s : State) (c : Ctx) (e : Eng) (n : Nat) : (refuseWord s c e n).fbTx = s.fbTx := by simp [refuseWord]
@[simp] theorem refuseWord_txA (s : State) (c : Ctx) (e : Eng) (n : Nat) : (refuseWord s c e n).txA = s.txA := by simp [refuseWord]
@[simp] theorem refuseWord_txB (s : State) (c : Ctx) (e : Eng) (n : Nat) : (refuseWord s c e n).txB = s.txB := by simp [refuseWord]
@[simp] theorem refuseWord_rxA (s : State) (c : Ctx) (e : Eng) (n : Nat) : (refuseWord s c e n).rxA = s.rxA := by simp [refuseWord]
@[simp] theorem refuseWord_rxB (s : State) (c : Ctx) (e : Eng) (n : Nat) : (refuseWord s c e n).rxB = s.rxB := by simp [refuseWord]
@[simp] theorem refuseWord_rxS (s : State) (c : Ctx) (e : Eng) (n : Nat) : (refuseWord s c e n).rxS = s.rxS := by simp [refuseWord]
@[simp] theorem refuseWord_linkA (s : State) (c : Ctx) (e : Eng) (n : Nat) : (refuseWord s c e n).linkA = s.linkA := by simp [refuseWord]
@[simp] theorem refuseWord_linkB (s : State) (c : Ctx) (e : Eng) (n : Nat) : (refuseWord s c e n).linkB = s.linkB := by simp [refuseWord]
@[simp] theorem refuseWord_epoch (s : State) (c : Ctx) (e : Eng) (n : Nat) : (refuseWord s c e n).epoch = s.epoch := by simp [refuseWord]
@[simp] theorem refuseWord_ilPtr (s : State) (c : Ctx) (e : Eng) (n : Nat) : (refuseWord s c e n).ilPtr = s.ilPtr := by simp [refuseWord]
@[simp] theorem refuseWord_pstate (s : State) (c : Ctx) (e : Eng) (n : Nat) : (refuseWord s c e n).pstate = s.pstate := by simp [refuseWord]
@[simp] theorem refuseWord_proof (s : State) (c : Ctx) (e : Eng) (n : Nat) : (refuseWord s c e n).proof = s.proof := by simp [refuseWord]
@[simp] theorem refuseWord_bakeOn (s : State) (c : Ctx) (e : Eng) (n : Nat) : (refuseWord s c e n).bakeOn = s.bakeOn := by simp [refuseWord]
@[simp] theorem refuseWord_bake (s : State) (c : Ctx) (e : Eng) (n : Nat) : (refuseWord s c e n).bake = s.bake := by simp [refuseWord]
@[simp] theorem refuseWord_cfg (s : State) (c : Ctx) (e : Eng) (n : Nat) : (refuseWord s c e n).cfg = s.cfg := by simp [refuseWord]
@[simp] theorem refuseWord_setRej (s : State) (c : Ctx) (e : Eng) (n : Nat) : (refuseWord s c e n).setRej = s.setRej := by simp [refuseWord]
@[simp] theorem refuseWord_warnDom (s : State) (c : Ctx) (e : Eng) (n : Nat) : (refuseWord s c e n).warnDom = s.warnDom := by simp [refuseWord]
@[simp] theorem refuseWord_fw (s : State) (c : Ctx) (e : Eng) (n : Nat) : (refuseWord s c e n).fw = s.fw := by simp [refuseWord]
@[simp] theorem refuseWord_sb (s : State) (c : Ctx) (e : Eng) (n : Nat) : (refuseWord s c e n).sb = s.sb := by simp [refuseWord]
@[simp] theorem refuseWord_pwr (s : State) (c : Ctx) (e : Eng) (n : Nat) : (refuseWord s c e n).pwr = s.pwr := by simp [refuseWord]
@[simp] theorem refuseWord_perf (s : State) (c : Ctx) (e : Eng) (n : Nat) : (refuseWord s c e n).perf = s.perf := by simp [refuseWord]
@[simp] theorem refuseWord_perfStop (s : State) (c : Ctx) (e : Eng) (n : Nat) : (refuseWord s c e n).perfStop = s.perfStop := by simp [refuseWord]
@[simp] theorem refuseWord_steps (s : State) (c : Ctx) (e : Eng) (n : Nat) : (refuseWord s c e n).steps = s.steps := by simp [refuseWord]
@[simp] theorem refuseWord_st (s : State) (c : Ctx) (e : Eng) (n : Nat) : (refuseWord s c e n).st = s.st := by simp [refuseWord]
@[simp] theorem leaveArray_pending (s : State) (e : Eng) (id : Nat) : (leaveArray s e id).pending = s.pending := by unfold leaveArray; split <;> rfl
@[simp] theorem leaveArray_freeCtr (s : State) (e : Eng) (id : Nat) : (leaveArray s e id).freeCtr = s.freeCtr := by unfold leaveArray; split <;> rfl
@[simp] theorem leaveArray_features (s : State) (e : Eng) (id : Nat) : (leaveArray s e id).features = s.features := by unfold leaveArray; split <;> rfl
@[simp] theorem leaveArray_powered (s : State) (e : Eng) (id : Nat) : (leaveArray s e id).powered = s.powered := by unfold leaveArray; split <;> rfl
@[simp] theorem leaveArray_vcore (s : State) (e : Eng) (id : Nat) : (leaveArray s e id).vcore = s.vcore := by unfold leaveArray; split <;> rfl
@[simp] theorem leaveArray_vmem (s : State) (e : Eng) (id : Nat) : (leaveArray s e id).vmem = s.vmem := by unfold leaveArray; split <;> rfl
@[simp] theorem leaveArray_rstN (s : State) (e : Eng) (id : Nat) : (leaveArray s e id).rstN = s.rstN := by unfold leaveArray; split <;> rfl
@[simp] theorem leaveArray_wir (s : State) (e : Eng) (id : Nat) : (leaveArray s e id).wir = s.wir := by unfold leaveArray; split <;> rfl
@[simp] theorem leaveArray_wrap (s : State) (e : Eng) (id : Nat) : (leaveArray s e id).wrap = s.wrap := by unfold leaveArray; split <;> rfl
@[simp] theorem leaveArray_testRes (s : State) (e : Eng) (id : Nat) : (leaveArray s e id).testRes = s.testRes := by unfold leaveArray; split <;> rfl
@[simp] theorem leaveArray_core (s : State) (e : Eng) (id : Nat) : (leaveArray s e id).core = s.core := by unfold leaveArray; split <;> rfl
@[simp] theorem leaveArray_parked (s : State) (e : Eng) (id : Nat) : (leaveArray s e id).parked = s.parked := by unfold leaveArray; split <;> rfl
@[simp] theorem leaveArray_serial (s : State) (e : Eng) (id : Nat) : (leaveArray s e id).serial = s.serial := by unfold leaveArray; split <;> rfl
@[simp] theorem leaveArray_pwrdom (s : State) (e : Eng) (id : Nat) : (leaveArray s e id).pwrdom = s.pwrdom := by unfold leaveArray; split <;> rfl
@[simp] theorem leaveArray_chainAddr (s : State) (e : Eng) (id : Nat) : (leaveArray s e id).chainAddr = s.chainAddr := by unfold leaveArray; split <;> rfl
@[simp] theorem leaveArray_seqWr (s : State) (e : Eng) (id : Nat) : (leaveArray s e id).seqWr = s.seqWr := by unfold leaveArray; split <;> rfl
@[simp] theorem leaveArray_seqBc (s : State) (e : Eng) (id : Nat) : (leaveArray s e id).seqBc = s.seqBc := by unfold leaveArray; split <;> rfl
@[simp] theorem leaveArray_mcOut (s : State) (e : Eng) (id : Nat) : (leaveArray s e id).mcOut = s.mcOut := by unfold leaveArray; split <;> rfl
@[simp] theorem leaveArray_cutAddr (s : State) (e : Eng) (id : Nat) : (leaveArray s e id).cutAddr = s.cutAddr := by unfold leaveArray; split <;> rfl
@[simp] theorem leaveArray_cutReq (s : State) (e : Eng) (id : Nat) : (leaveArray s e id).cutReq = s.cutReq := by unfold leaveArray; split <;> rfl
@[simp] theorem leaveArray_c0 (s : State) (e : Eng) (id : Nat) : (leaveArray s e id).c0 = s.c0 := by unfold leaveArray; split <;> rfl
@[simp] theorem leaveArray_c1 (s : State) (e : Eng) (id : Nat) : (leaveArray s e id).c1 = s.c1 := by unfold leaveArray; split <;> rfl
@[simp] theorem leaveArray_flags (s : State) (e : Eng) (id : Nat) : (leaveArray s e id).flags = s.flags := by unfold leaveArray; split <;> rfl
@[simp] theorem leaveArray_stepSets (s : State) (e : Eng) (id : Nat) : (leaveArray s e id).stepSets = s.stepSets := by unfold leaveArray; split <;> rfl
@[simp] theorem leaveArray_stepClears (s : State) (e : Eng) (id : Nat) : (leaveArray s e id).stepClears = s.stepClears := by unfold leaveArray; split <;> rfl
@[simp] theorem leaveArray_stepMarks (s : State) (e : Eng) (id : Nat) : (leaveArray s e id).stepMarks = s.stepMarks := by unfold leaveArray; split <;> rfl
@[simp] theorem leaveArray_stepOps (s : State) (e : Eng) (id : Nat) : (leaveArray s e id).stepOps = s.stepOps := by unfold leaveArray; split <;> rfl
@[simp] theorem leaveArray_selfFlits (s : State) (e : Eng) (id : Nat) : (leaveArray s e id).selfFlits = s.selfFlits := by unfold leaveArray; split <;> rfl
@[simp] theorem leaveArray_syncQ (s : State) (e : Eng) (id : Nat) : (leaveArray s e id).syncQ = s.syncQ := by unfold leaveArray; split <;> rfl
@[simp] theorem leaveArray_syncSent (s : State) (e : Eng) (id : Nat) : (leaveArray s e id).syncSent = s.syncSent := by unfold leaveArray; split <;> rfl
@[simp] theorem leaveArray_stepSpad (s : State) (e : Eng) (id : Nat) : (leaveArray s e id).stepSpad = s.stepSpad := by unfold leaveArray; split <;> rfl
@[simp] theorem leaveArray_stepPages (s : State) (e : Eng) (id : Nat) : (leaveArray s e id).stepPages = s.stepPages := by unfold leaveArray; split <;> rfl
@[simp] theorem leaveArray_accOwn (s : State) (e : Eng) (id : Nat) : (leaveArray s e id).accOwn = s.accOwn := by unfold leaveArray; split <;> rfl
@[simp] theorem leaveArray_spad (s : State) (e : Eng) (id : Nat) : (leaveArray s e id).spad = s.spad := by unfold leaveArray; split <;> rfl
@[simp] theorem leaveArray_spadErr (s : State) (e : Eng) (id : Nat) : (leaveArray s e id).spadErr = s.spadErr := by unfold leaveArray; split <;> rfl
@[simp] theorem leaveArray_wbPend (s : State) (e : Eng) (id : Nat) : (leaveArray s e id).wbPend = s.wbPend := by unfold leaveArray; split <;> rfl
@[simp] theorem leaveArray_scrub (s : State) (e : Eng) (id : Nat) : (leaveArray s e id).scrub = s.scrub := by unfold leaveArray; split <;> rfl
@[simp] theorem leaveArray_checked (s : State) (e : Eng) (id : Nat) : (leaveArray s e id).checked = s.checked := by unfold leaveArray; split <;> rfl
@[simp] theorem leaveArray_pages (s : State) (e : Eng) (id : Nat) : (leaveArray s e id).pages = s.pages := by unfold leaveArray; split <;> rfl
@[simp] theorem leaveArray_handles (s : State) (e : Eng) (id : Nat) : (leaveArray s e id).handles = s.handles := by unfold leaveArray; split <;> rfl
@[simp] theorem leaveArray_acc (s : State) (e : Eng) (id : Nat) : (leaveArray s e id).acc = s.acc := by unfold leaveArray; split <;> rfl
@[simp] theorem leaveArray_accErr (s : State) (e : Eng) (id : Nat) : (leaveArray s e id).accErr = s.accErr := by unfold leaveArray; split <;> rfl
@[simp] theorem leaveArray_stepAcc (s : State) (e : Eng) (id : Nat) : (leaveArray s e id).stepAcc = s.stepAcc := by unfold leaveArray; split <;> rfl
@[simp] theorem leaveArray_stat (s : State) (e : Eng) (id : Nat) : (leaveArray s e id).stat = s.stat := by unfold leaveArray; split <;> rfl
@[simp] theorem leaveArray_statErr (s : State) (e : Eng) (id : Nat) : (leaveArray s e id).statErr = s.statErr := by unfold leaveArray; split <;> rfl
@[simp] theorem leaveArray_imem (s : State) (e : Eng) (id : Nat) : (leaveArray s e id).imem = s.imem := by unfold leaveArray; split <;> rfl
@[simp] theorem leaveArray_imemLen (s : State) (e : Eng) (id : Nat) : (leaveArray s e id).imemLen = s.imemLen := by unfold leaveArray; split <;> rfl
@[simp] theorem leaveArray_entry (s : State) (e : Eng) (id : Nat) : (leaveArray s e id).entry = s.entry := by unfold leaveArray; split <;> rfl
@[simp] theorem leaveArray_dmem (s : State) (e : Eng) (id : Nat) : (leaveArray s e id).dmem = s.dmem := by unfold leaveArray; split <;> rfl
@[simp] theorem leaveArray_dmemStep (s : State) (e : Eng) (id : Nat) : (leaveArray s e id).dmemStep = s.dmemStep := by unfold leaveArray; split <;> rfl
@[simp] theorem leaveArray_trackers (s : State) (e : Eng) (id : Nat) : (leaveArray s e id).trackers = s.trackers := by unfold leaveArray; split <;> rfl
@[simp] theorem leaveArray_stepTrk (s : State) (e : Eng) (id : Nat) : (leaveArray s e id).stepTrk = s.stepTrk := by unfold leaveArray; split <;> rfl
@[simp] theorem leaveArray_spadWin (s : State) (e : Eng) (id : Nat) : (leaveArray s e id).spadWin = s.spadWin := by unfold leaveArray; split <;> rfl
@[simp] theorem leaveArray_nextId (s : State) (e : Eng) (id : Nat) : (leaveArray s e id).nextId = s.nextId := by unfold leaveArray; split <;> rfl
@[simp] theorem leaveArray_stepDone (s : State) (e : Eng) (id : Nat) : (leaveArray s e id).stepDone = s.stepDone := by unfold leaveArray; split <;> rfl
@[simp] theorem leaveArray_units (s : State) (e : Eng) (id : Nat) : (leaveArray s e id).units = s.units := by unfold leaveArray; split <;> rfl
@[simp] theorem leaveArray_outst (s : State) (e : Eng) (id : Nat) : (leaveArray s e id).outst = s.outst := by unfold leaveArray; split <;> rfl
@[simp] theorem leaveArray_retired (s : State) (e : Eng) (id : Nat) : (leaveArray s e id).retired = s.retired := by unfold leaveArray; split <;> rfl
@[simp] theorem leaveArray_rxTab (s : State) (e : Eng) (id : Nat) : (leaveArray s e id).rxTab = s.rxTab := by unfold leaveArray; split <;> rfl
@[simp] theorem leaveArray_winAcks (s : State) (e : Eng) (id : Nat) : (leaveArray s e id).winAcks = s.winAcks := by unfold leaveArray; split <;> rfl
@[simp] theorem leaveArray_held (s : State) (e : Eng) (id : Nat) : (leaveArray s e id).held = s.held := by unfold leaveArray; split <;> rfl
@[simp] theorem leaveArray_rstDue (s : State) (e : Eng) (id : Nat) : (leaveArray s e id).rstDue = s.rstDue := by unfold leaveArray; split <;> rfl
@[simp] theorem leaveArray_winDone (s : State) (e : Eng) (id : Nat) : (leaveArray s e id).winDone = s.winDone := by unfold leaveArray; split <;> rfl
@[simp] theorem leaveArray_perfLast (s : State) (e : Eng) (id : Nat) : (leaveArray s e id).perfLast = s.perfLast := by unfold leaveArray; split <;> rfl
@[simp] theorem leaveArray_mgmt (s : State) (e : Eng) (id : Nat) : (leaveArray s e id).mgmt = s.mgmt := by unfold leaveArray; split <;> rfl
@[simp] theorem leaveArray_pinA (s : State) (e : Eng) (id : Nat) : (leaveArray s e id).pinA = s.pinA := by unfold leaveArray; split <;> rfl
@[simp] theorem leaveArray_pinB (s : State) (e : Eng) (id : Nat) : (leaveArray s e id).pinB = s.pinB := by unfold leaveArray; split <;> rfl
@[simp] theorem leaveArray_faTx (s : State) (e : Eng) (id : Nat) : (leaveArray s e id).faTx = s.faTx := by unfold leaveArray; split <;> rfl
@[simp] theorem leaveArray_fbTx (s : State) (e : Eng) (id : Nat) : (leaveArray s e id).fbTx = s.fbTx := by unfold leaveArray; split <;> rfl
@[simp] theorem leaveArray_txA (s : State) (e : Eng) (id : Nat) : (leaveArray s e id).txA = s.txA := by unfold leaveArray; split <;> rfl
@[simp] theorem leaveArray_txB (s : State) (e : Eng) (id : Nat) : (leaveArray s e id).txB = s.txB := by unfold leaveArray; split <;> rfl
@[simp] theorem leaveArray_rxA (s : State) (e : Eng) (id : Nat) : (leaveArray s e id).rxA = s.rxA := by unfold leaveArray; split <;> rfl
@[simp] theorem leaveArray_rxB (s : State) (e : Eng) (id : Nat) : (leaveArray s e id).rxB = s.rxB := by unfold leaveArray; split <;> rfl
@[simp] theorem leaveArray_rxS (s : State) (e : Eng) (id : Nat) : (leaveArray s e id).rxS = s.rxS := by unfold leaveArray; split <;> rfl
@[simp] theorem leaveArray_linkA (s : State) (e : Eng) (id : Nat) : (leaveArray s e id).linkA = s.linkA := by unfold leaveArray; split <;> rfl
@[simp] theorem leaveArray_linkB (s : State) (e : Eng) (id : Nat) : (leaveArray s e id).linkB = s.linkB := by unfold leaveArray; split <;> rfl
@[simp] theorem leaveArray_epoch (s : State) (e : Eng) (id : Nat) : (leaveArray s e id).epoch = s.epoch := by unfold leaveArray; split <;> rfl
@[simp] theorem leaveArray_ilPtr (s : State) (e : Eng) (id : Nat) : (leaveArray s e id).ilPtr = s.ilPtr := by unfold leaveArray; split <;> rfl
@[simp] theorem leaveArray_pstate (s : State) (e : Eng) (id : Nat) : (leaveArray s e id).pstate = s.pstate := by unfold leaveArray; split <;> rfl
@[simp] theorem leaveArray_proof (s : State) (e : Eng) (id : Nat) : (leaveArray s e id).proof = s.proof := by unfold leaveArray; split <;> rfl
@[simp] theorem leaveArray_bakeOn (s : State) (e : Eng) (id : Nat) : (leaveArray s e id).bakeOn = s.bakeOn := by unfold leaveArray; split <;> rfl
@[simp] theorem leaveArray_bake (s : State) (e : Eng) (id : Nat) : (leaveArray s e id).bake = s.bake := by unfold leaveArray; split <;> rfl
@[simp] theorem leaveArray_cfg (s : State) (e : Eng) (id : Nat) : (leaveArray s e id).cfg = s.cfg := by unfold leaveArray; split <;> rfl
@[simp] theorem leaveArray_setRej (s : State) (e : Eng) (id : Nat) : (leaveArray s e id).setRej = s.setRej := by unfold leaveArray; split <;> rfl
@[simp] theorem leaveArray_warnDom (s : State) (e : Eng) (id : Nat) : (leaveArray s e id).warnDom = s.warnDom := by unfold leaveArray; split <;> rfl
@[simp] theorem leaveArray_fw (s : State) (e : Eng) (id : Nat) : (leaveArray s e id).fw = s.fw := by unfold leaveArray; split <;> rfl
@[simp] theorem leaveArray_sb (s : State) (e : Eng) (id : Nat) : (leaveArray s e id).sb = s.sb := by unfold leaveArray; split <;> rfl
@[simp] theorem leaveArray_flt (s : State) (e : Eng) (id : Nat) : (leaveArray s e id).flt = s.flt := by unfold leaveArray; split <;> rfl
@[simp] theorem leaveArray_tmr (s : State) (e : Eng) (id : Nat) : (leaveArray s e id).tmr = s.tmr := by unfold leaveArray; split <;> rfl
@[simp] theorem leaveArray_pwr (s : State) (e : Eng) (id : Nat) : (leaveArray s e id).pwr = s.pwr := by unfold leaveArray; split <;> rfl
@[simp] theorem leaveArray_perf (s : State) (e : Eng) (id : Nat) : (leaveArray s e id).perf = s.perf := by unfold leaveArray; split <;> rfl
@[simp] theorem leaveArray_perfStep (s : State) (e : Eng) (id : Nat) : (leaveArray s e id).perfStep = s.perfStep := by unfold leaveArray; split <;> rfl
@[simp] theorem leaveArray_perfStop (s : State) (e : Eng) (id : Nat) : (leaveArray s e id).perfStop = s.perfStop := by unfold leaveArray; split <;> rfl
@[simp] theorem leaveArray_steps (s : State) (e : Eng) (id : Nat) : (leaveArray s e id).steps = s.steps := by unfold leaveArray; split <;> rfl
@[simp] theorem leaveArray_st (s : State) (e : Eng) (id : Nat) : (leaveArray s e id).st = s.st := by unfold leaveArray; split <;> rfl
@[simp] theorem leaveArray_running (s : State) (e : Eng) (id : Nat) : (leaveArray s e id).running = s.running := by unfold leaveArray; split <;> rfl
@[simp] theorem leaveArray_mesh (s : State) (e : Eng) (id : Nat) :
    (leaveArray s e id).mesh = if e = .matrix then endSlices id s.mesh else s.mesh := by unfold leaveArray; split <;> rfl
@[simp] theorem addWrote_pending (s : State) (id : Nat) (fs : List Foot) : (addWrote s id fs).pending = s.pending := rfl
@[simp] theorem addWrote_freeCtr (s : State) (id : Nat) (fs : List Foot) : (addWrote s id fs).freeCtr = s.freeCtr := rfl
@[simp] theorem addWrote_features (s : State) (id : Nat) (fs : List Foot) : (addWrote s id fs).features = s.features := rfl
@[simp] theorem addWrote_powered (s : State) (id : Nat) (fs : List Foot) : (addWrote s id fs).powered = s.powered := rfl
@[simp] theorem addWrote_vcore (s : State) (id : Nat) (fs : List Foot) : (addWrote s id fs).vcore = s.vcore := rfl
@[simp] theorem addWrote_vmem (s : State) (id : Nat) (fs : List Foot) : (addWrote s id fs).vmem = s.vmem := rfl
@[simp] theorem addWrote_rstN (s : State) (id : Nat) (fs : List Foot) : (addWrote s id fs).rstN = s.rstN := rfl
@[simp] theorem addWrote_wir (s : State) (id : Nat) (fs : List Foot) : (addWrote s id fs).wir = s.wir := rfl
@[simp] theorem addWrote_wrap (s : State) (id : Nat) (fs : List Foot) : (addWrote s id fs).wrap = s.wrap := rfl
@[simp] theorem addWrote_testRes (s : State) (id : Nat) (fs : List Foot) : (addWrote s id fs).testRes = s.testRes := rfl
@[simp] theorem addWrote_core (s : State) (id : Nat) (fs : List Foot) : (addWrote s id fs).core = s.core := rfl
@[simp] theorem addWrote_parked (s : State) (id : Nat) (fs : List Foot) : (addWrote s id fs).parked = s.parked := rfl
@[simp] theorem addWrote_serial (s : State) (id : Nat) (fs : List Foot) : (addWrote s id fs).serial = s.serial := rfl
@[simp] theorem addWrote_pwrdom (s : State) (id : Nat) (fs : List Foot) : (addWrote s id fs).pwrdom = s.pwrdom := rfl
@[simp] theorem addWrote_chainAddr (s : State) (id : Nat) (fs : List Foot) : (addWrote s id fs).chainAddr = s.chainAddr := rfl
@[simp] theorem addWrote_seqWr (s : State) (id : Nat) (fs : List Foot) : (addWrote s id fs).seqWr = s.seqWr := rfl
@[simp] theorem addWrote_seqBc (s : State) (id : Nat) (fs : List Foot) : (addWrote s id fs).seqBc = s.seqBc := rfl
@[simp] theorem addWrote_mcOut (s : State) (id : Nat) (fs : List Foot) : (addWrote s id fs).mcOut = s.mcOut := rfl
@[simp] theorem addWrote_cutAddr (s : State) (id : Nat) (fs : List Foot) : (addWrote s id fs).cutAddr = s.cutAddr := rfl
@[simp] theorem addWrote_cutReq (s : State) (id : Nat) (fs : List Foot) : (addWrote s id fs).cutReq = s.cutReq := rfl
@[simp] theorem addWrote_c0 (s : State) (id : Nat) (fs : List Foot) : (addWrote s id fs).c0 = s.c0 := rfl
@[simp] theorem addWrote_c1 (s : State) (id : Nat) (fs : List Foot) : (addWrote s id fs).c1 = s.c1 := rfl
@[simp] theorem addWrote_flags (s : State) (id : Nat) (fs : List Foot) : (addWrote s id fs).flags = s.flags := rfl
@[simp] theorem addWrote_stepSets (s : State) (id : Nat) (fs : List Foot) : (addWrote s id fs).stepSets = s.stepSets := rfl
@[simp] theorem addWrote_stepClears (s : State) (id : Nat) (fs : List Foot) : (addWrote s id fs).stepClears = s.stepClears := rfl
@[simp] theorem addWrote_stepMarks (s : State) (id : Nat) (fs : List Foot) : (addWrote s id fs).stepMarks = s.stepMarks := rfl
@[simp] theorem addWrote_stepOps (s : State) (id : Nat) (fs : List Foot) : (addWrote s id fs).stepOps = s.stepOps := rfl
@[simp] theorem addWrote_selfFlits (s : State) (id : Nat) (fs : List Foot) : (addWrote s id fs).selfFlits = s.selfFlits := rfl
@[simp] theorem addWrote_syncQ (s : State) (id : Nat) (fs : List Foot) : (addWrote s id fs).syncQ = s.syncQ := rfl
@[simp] theorem addWrote_syncSent (s : State) (id : Nat) (fs : List Foot) : (addWrote s id fs).syncSent = s.syncSent := rfl
@[simp] theorem addWrote_stepSpad (s : State) (id : Nat) (fs : List Foot) : (addWrote s id fs).stepSpad = s.stepSpad := rfl
@[simp] theorem addWrote_stepPages (s : State) (id : Nat) (fs : List Foot) : (addWrote s id fs).stepPages = s.stepPages := rfl
@[simp] theorem addWrote_accOwn (s : State) (id : Nat) (fs : List Foot) : (addWrote s id fs).accOwn = s.accOwn := rfl
@[simp] theorem addWrote_spad (s : State) (id : Nat) (fs : List Foot) : (addWrote s id fs).spad = s.spad := rfl
@[simp] theorem addWrote_spadErr (s : State) (id : Nat) (fs : List Foot) : (addWrote s id fs).spadErr = s.spadErr := rfl
@[simp] theorem addWrote_wbPend (s : State) (id : Nat) (fs : List Foot) : (addWrote s id fs).wbPend = s.wbPend := rfl
@[simp] theorem addWrote_scrub (s : State) (id : Nat) (fs : List Foot) : (addWrote s id fs).scrub = s.scrub := rfl
@[simp] theorem addWrote_checked (s : State) (id : Nat) (fs : List Foot) : (addWrote s id fs).checked = s.checked := rfl
@[simp] theorem addWrote_pages (s : State) (id : Nat) (fs : List Foot) : (addWrote s id fs).pages = s.pages := rfl
@[simp] theorem addWrote_handles (s : State) (id : Nat) (fs : List Foot) : (addWrote s id fs).handles = s.handles := rfl
@[simp] theorem addWrote_acc (s : State) (id : Nat) (fs : List Foot) : (addWrote s id fs).acc = s.acc := rfl
@[simp] theorem addWrote_accErr (s : State) (id : Nat) (fs : List Foot) : (addWrote s id fs).accErr = s.accErr := rfl
@[simp] theorem addWrote_stepAcc (s : State) (id : Nat) (fs : List Foot) : (addWrote s id fs).stepAcc = s.stepAcc := rfl
@[simp] theorem addWrote_mesh (s : State) (id : Nat) (fs : List Foot) : (addWrote s id fs).mesh = s.mesh := rfl
@[simp] theorem addWrote_stat (s : State) (id : Nat) (fs : List Foot) : (addWrote s id fs).stat = s.stat := rfl
@[simp] theorem addWrote_statErr (s : State) (id : Nat) (fs : List Foot) : (addWrote s id fs).statErr = s.statErr := rfl
@[simp] theorem addWrote_imem (s : State) (id : Nat) (fs : List Foot) : (addWrote s id fs).imem = s.imem := rfl
@[simp] theorem addWrote_imemLen (s : State) (id : Nat) (fs : List Foot) : (addWrote s id fs).imemLen = s.imemLen := rfl
@[simp] theorem addWrote_entry (s : State) (id : Nat) (fs : List Foot) : (addWrote s id fs).entry = s.entry := rfl
@[simp] theorem addWrote_dmem (s : State) (id : Nat) (fs : List Foot) : (addWrote s id fs).dmem = s.dmem := rfl
@[simp] theorem addWrote_dmemStep (s : State) (id : Nat) (fs : List Foot) : (addWrote s id fs).dmemStep = s.dmemStep := rfl
@[simp] theorem addWrote_trackers (s : State) (id : Nat) (fs : List Foot) : (addWrote s id fs).trackers = s.trackers := rfl
@[simp] theorem addWrote_stepTrk (s : State) (id : Nat) (fs : List Foot) : (addWrote s id fs).stepTrk = s.stepTrk := rfl
@[simp] theorem addWrote_spadWin (s : State) (id : Nat) (fs : List Foot) : (addWrote s id fs).spadWin = s.spadWin := rfl
@[simp] theorem addWrote_nextId (s : State) (id : Nat) (fs : List Foot) : (addWrote s id fs).nextId = s.nextId := rfl
@[simp] theorem addWrote_stepDone (s : State) (id : Nat) (fs : List Foot) : (addWrote s id fs).stepDone = s.stepDone := rfl
@[simp] theorem addWrote_units (s : State) (id : Nat) (fs : List Foot) : (addWrote s id fs).units = s.units := rfl
@[simp] theorem addWrote_outst (s : State) (id : Nat) (fs : List Foot) : (addWrote s id fs).outst = s.outst := rfl
@[simp] theorem addWrote_retired (s : State) (id : Nat) (fs : List Foot) : (addWrote s id fs).retired = s.retired := rfl
@[simp] theorem addWrote_rxTab (s : State) (id : Nat) (fs : List Foot) : (addWrote s id fs).rxTab = s.rxTab := rfl
@[simp] theorem addWrote_winAcks (s : State) (id : Nat) (fs : List Foot) : (addWrote s id fs).winAcks = s.winAcks := rfl
@[simp] theorem addWrote_held (s : State) (id : Nat) (fs : List Foot) : (addWrote s id fs).held = s.held := rfl
@[simp] theorem addWrote_rstDue (s : State) (id : Nat) (fs : List Foot) : (addWrote s id fs).rstDue = s.rstDue := rfl
@[simp] theorem addWrote_winDone (s : State) (id : Nat) (fs : List Foot) : (addWrote s id fs).winDone = s.winDone := rfl
@[simp] theorem addWrote_perfLast (s : State) (id : Nat) (fs : List Foot) : (addWrote s id fs).perfLast = s.perfLast := rfl
@[simp] theorem addWrote_mgmt (s : State) (id : Nat) (fs : List Foot) : (addWrote s id fs).mgmt = s.mgmt := rfl
@[simp] theorem addWrote_pinA (s : State) (id : Nat) (fs : List Foot) : (addWrote s id fs).pinA = s.pinA := rfl
@[simp] theorem addWrote_pinB (s : State) (id : Nat) (fs : List Foot) : (addWrote s id fs).pinB = s.pinB := rfl
@[simp] theorem addWrote_faTx (s : State) (id : Nat) (fs : List Foot) : (addWrote s id fs).faTx = s.faTx := rfl
@[simp] theorem addWrote_fbTx (s : State) (id : Nat) (fs : List Foot) : (addWrote s id fs).fbTx = s.fbTx := rfl
@[simp] theorem addWrote_txA (s : State) (id : Nat) (fs : List Foot) : (addWrote s id fs).txA = s.txA := rfl
@[simp] theorem addWrote_txB (s : State) (id : Nat) (fs : List Foot) : (addWrote s id fs).txB = s.txB := rfl
@[simp] theorem addWrote_rxA (s : State) (id : Nat) (fs : List Foot) : (addWrote s id fs).rxA = s.rxA := rfl
@[simp] theorem addWrote_rxB (s : State) (id : Nat) (fs : List Foot) : (addWrote s id fs).rxB = s.rxB := rfl
@[simp] theorem addWrote_rxS (s : State) (id : Nat) (fs : List Foot) : (addWrote s id fs).rxS = s.rxS := rfl
@[simp] theorem addWrote_linkA (s : State) (id : Nat) (fs : List Foot) : (addWrote s id fs).linkA = s.linkA := rfl
@[simp] theorem addWrote_linkB (s : State) (id : Nat) (fs : List Foot) : (addWrote s id fs).linkB = s.linkB := rfl
@[simp] theorem addWrote_epoch (s : State) (id : Nat) (fs : List Foot) : (addWrote s id fs).epoch = s.epoch := rfl
@[simp] theorem addWrote_ilPtr (s : State) (id : Nat) (fs : List Foot) : (addWrote s id fs).ilPtr = s.ilPtr := rfl
@[simp] theorem addWrote_pstate (s : State) (id : Nat) (fs : List Foot) : (addWrote s id fs).pstate = s.pstate := rfl
@[simp] theorem addWrote_proof (s : State) (id : Nat) (fs : List Foot) : (addWrote s id fs).proof = s.proof := rfl
@[simp] theorem addWrote_bakeOn (s : State) (id : Nat) (fs : List Foot) : (addWrote s id fs).bakeOn = s.bakeOn := rfl
@[simp] theorem addWrote_bake (s : State) (id : Nat) (fs : List Foot) : (addWrote s id fs).bake = s.bake := rfl
@[simp] theorem addWrote_cfg (s : State) (id : Nat) (fs : List Foot) : (addWrote s id fs).cfg = s.cfg := rfl
@[simp] theorem addWrote_setRej (s : State) (id : Nat) (fs : List Foot) : (addWrote s id fs).setRej = s.setRej := rfl
@[simp] theorem addWrote_warnDom (s : State) (id : Nat) (fs : List Foot) : (addWrote s id fs).warnDom = s.warnDom := rfl
@[simp] theorem addWrote_fw (s : State) (id : Nat) (fs : List Foot) : (addWrote s id fs).fw = s.fw := rfl
@[simp] theorem addWrote_sb (s : State) (id : Nat) (fs : List Foot) : (addWrote s id fs).sb = s.sb := rfl
@[simp] theorem addWrote_flt (s : State) (id : Nat) (fs : List Foot) : (addWrote s id fs).flt = s.flt := rfl
@[simp] theorem addWrote_tmr (s : State) (id : Nat) (fs : List Foot) : (addWrote s id fs).tmr = s.tmr := rfl
@[simp] theorem addWrote_pwr (s : State) (id : Nat) (fs : List Foot) : (addWrote s id fs).pwr = s.pwr := rfl
@[simp] theorem addWrote_perf (s : State) (id : Nat) (fs : List Foot) : (addWrote s id fs).perf = s.perf := rfl
@[simp] theorem addWrote_perfStep (s : State) (id : Nat) (fs : List Foot) : (addWrote s id fs).perfStep = s.perfStep := rfl
@[simp] theorem addWrote_perfStop (s : State) (id : Nat) (fs : List Foot) : (addWrote s id fs).perfStop = s.perfStop := rfl
@[simp] theorem addWrote_steps (s : State) (id : Nat) (fs : List Foot) : (addWrote s id fs).steps = s.steps := rfl
@[simp] theorem addWrote_st (s : State) (id : Nat) (fs : List Foot) : (addWrote s id fs).st = s.st := rfl
@[simp] theorem woke_pending (s t : State) : (woke s t).pending = t.pending := by unfold woke; split <;> rfl
@[simp] theorem woke_freeCtr (s t : State) : (woke s t).freeCtr = t.freeCtr := by unfold woke; split <;> rfl
@[simp] theorem woke_features (s t : State) : (woke s t).features = t.features := by unfold woke; split <;> rfl
@[simp] theorem woke_powered (s t : State) : (woke s t).powered = t.powered := by unfold woke; split <;> rfl
@[simp] theorem woke_vcore (s t : State) : (woke s t).vcore = t.vcore := by unfold woke; split <;> rfl
@[simp] theorem woke_vmem (s t : State) : (woke s t).vmem = t.vmem := by unfold woke; split <;> rfl
@[simp] theorem woke_rstN (s t : State) : (woke s t).rstN = t.rstN := by unfold woke; split <;> rfl
@[simp] theorem woke_wir (s t : State) : (woke s t).wir = t.wir := by unfold woke; split <;> rfl
@[simp] theorem woke_wrap (s t : State) : (woke s t).wrap = t.wrap := by unfold woke; split <;> rfl
@[simp] theorem woke_testRes (s t : State) : (woke s t).testRes = t.testRes := by unfold woke; split <;> rfl
@[simp] theorem woke_core (s t : State) : (woke s t).core = t.core := by unfold woke; split <;> rfl
@[simp] theorem woke_parked (s t : State) : (woke s t).parked = t.parked := by unfold woke; split <;> rfl
@[simp] theorem woke_serial (s t : State) : (woke s t).serial = t.serial := by unfold woke; split <;> rfl
@[simp] theorem woke_pwrdom (s t : State) : (woke s t).pwrdom = t.pwrdom := by unfold woke; split <;> rfl
@[simp] theorem woke_chainAddr (s t : State) : (woke s t).chainAddr = t.chainAddr := by unfold woke; split <;> rfl
@[simp] theorem woke_seqWr (s t : State) : (woke s t).seqWr = t.seqWr := by unfold woke; split <;> rfl
@[simp] theorem woke_seqBc (s t : State) : (woke s t).seqBc = t.seqBc := by unfold woke; split <;> rfl
@[simp] theorem woke_mcOut (s t : State) : (woke s t).mcOut = t.mcOut := by unfold woke; split <;> rfl
@[simp] theorem woke_cutAddr (s t : State) : (woke s t).cutAddr = t.cutAddr := by unfold woke; split <;> rfl
@[simp] theorem woke_cutReq (s t : State) : (woke s t).cutReq = t.cutReq := by unfold woke; split <;> rfl
@[simp] theorem woke_c0 (s t : State) : (woke s t).c0 = t.c0 := by unfold woke; split <;> rfl
@[simp] theorem woke_c1 (s t : State) : (woke s t).c1 = t.c1 := by unfold woke; split <;> rfl
@[simp] theorem woke_flags (s t : State) : (woke s t).flags = t.flags := by unfold woke; split <;> rfl
@[simp] theorem woke_stepSets (s t : State) : (woke s t).stepSets = t.stepSets := by unfold woke; split <;> rfl
@[simp] theorem woke_stepClears (s t : State) : (woke s t).stepClears = t.stepClears := by unfold woke; split <;> rfl
@[simp] theorem woke_stepMarks (s t : State) : (woke s t).stepMarks = t.stepMarks := by unfold woke; split <;> rfl
@[simp] theorem woke_stepOps (s t : State) : (woke s t).stepOps = t.stepOps := by unfold woke; split <;> rfl
@[simp] theorem woke_selfFlits (s t : State) : (woke s t).selfFlits = t.selfFlits := by unfold woke; split <;> rfl
@[simp] theorem woke_syncQ (s t : State) : (woke s t).syncQ = t.syncQ := by unfold woke; split <;> rfl
@[simp] theorem woke_syncSent (s t : State) : (woke s t).syncSent = t.syncSent := by unfold woke; split <;> rfl
@[simp] theorem woke_stepSpad (s t : State) : (woke s t).stepSpad = t.stepSpad := by unfold woke; split <;> rfl
@[simp] theorem woke_stepPages (s t : State) : (woke s t).stepPages = t.stepPages := by unfold woke; split <;> rfl
@[simp] theorem woke_accOwn (s t : State) : (woke s t).accOwn = t.accOwn := by unfold woke; split <;> rfl
@[simp] theorem woke_spad (s t : State) : (woke s t).spad = t.spad := by unfold woke; split <;> rfl
@[simp] theorem woke_spadErr (s t : State) : (woke s t).spadErr = t.spadErr := by unfold woke; split <;> rfl
@[simp] theorem woke_wbPend (s t : State) : (woke s t).wbPend = t.wbPend := by unfold woke; split <;> rfl
@[simp] theorem woke_scrub (s t : State) : (woke s t).scrub = t.scrub := by unfold woke; split <;> rfl
@[simp] theorem woke_checked (s t : State) : (woke s t).checked = t.checked := by unfold woke; split <;> rfl
@[simp] theorem woke_pages (s t : State) : (woke s t).pages = t.pages := by unfold woke; split <;> rfl
@[simp] theorem woke_handles (s t : State) : (woke s t).handles = t.handles := by unfold woke; split <;> rfl
@[simp] theorem woke_acc (s t : State) : (woke s t).acc = t.acc := by unfold woke; split <;> rfl
@[simp] theorem woke_accErr (s t : State) : (woke s t).accErr = t.accErr := by unfold woke; split <;> rfl
@[simp] theorem woke_stepAcc (s t : State) : (woke s t).stepAcc = t.stepAcc := by unfold woke; split <;> rfl
@[simp] theorem woke_mesh (s t : State) : (woke s t).mesh = t.mesh := by unfold woke; split <;> rfl
@[simp] theorem woke_stat (s t : State) : (woke s t).stat = t.stat := by unfold woke; split <;> rfl
@[simp] theorem woke_statErr (s t : State) : (woke s t).statErr = t.statErr := by unfold woke; split <;> rfl
@[simp] theorem woke_imem (s t : State) : (woke s t).imem = t.imem := by unfold woke; split <;> rfl
@[simp] theorem woke_imemLen (s t : State) : (woke s t).imemLen = t.imemLen := by unfold woke; split <;> rfl
@[simp] theorem woke_entry (s t : State) : (woke s t).entry = t.entry := by unfold woke; split <;> rfl
@[simp] theorem woke_dmem (s t : State) : (woke s t).dmem = t.dmem := by unfold woke; split <;> rfl
@[simp] theorem woke_dmemStep (s t : State) : (woke s t).dmemStep = t.dmemStep := by unfold woke; split <;> rfl
@[simp] theorem woke_trackers (s t : State) : (woke s t).trackers = t.trackers := by unfold woke; split <;> rfl
@[simp] theorem woke_stepTrk (s t : State) : (woke s t).stepTrk = t.stepTrk := by unfold woke; split <;> rfl
@[simp] theorem woke_spadWin (s t : State) : (woke s t).spadWin = t.spadWin := by unfold woke; split <;> rfl
@[simp] theorem woke_nextId (s t : State) : (woke s t).nextId = t.nextId := by unfold woke; split <;> rfl
@[simp] theorem woke_stepDone (s t : State) : (woke s t).stepDone = t.stepDone := by unfold woke; split <;> rfl
@[simp] theorem woke_units (s t : State) : (woke s t).units = t.units := by unfold woke; split <;> rfl
@[simp] theorem woke_outst (s t : State) : (woke s t).outst = t.outst := by unfold woke; split <;> rfl
@[simp] theorem woke_retired (s t : State) : (woke s t).retired = t.retired := by unfold woke; split <;> rfl
@[simp] theorem woke_rxTab (s t : State) : (woke s t).rxTab = t.rxTab := by unfold woke; split <;> rfl
@[simp] theorem woke_winAcks (s t : State) : (woke s t).winAcks = t.winAcks := by unfold woke; split <;> rfl
@[simp] theorem woke_held (s t : State) : (woke s t).held = t.held := by unfold woke; split <;> rfl
@[simp] theorem woke_rstDue (s t : State) : (woke s t).rstDue = t.rstDue := by unfold woke; split <;> rfl
@[simp] theorem woke_winDone (s t : State) : (woke s t).winDone = t.winDone := by unfold woke; split <;> rfl
@[simp] theorem woke_perfLast (s t : State) : (woke s t).perfLast = t.perfLast := by unfold woke; split <;> rfl
@[simp] theorem woke_mgmt (s t : State) : (woke s t).mgmt = t.mgmt := by unfold woke; split <;> rfl
@[simp] theorem woke_pinA (s t : State) : (woke s t).pinA = t.pinA := by unfold woke; split <;> rfl
@[simp] theorem woke_pinB (s t : State) : (woke s t).pinB = t.pinB := by unfold woke; split <;> rfl
@[simp] theorem woke_faTx (s t : State) : (woke s t).faTx = t.faTx := by unfold woke; split <;> rfl
@[simp] theorem woke_fbTx (s t : State) : (woke s t).fbTx = t.fbTx := by unfold woke; split <;> rfl
@[simp] theorem woke_txA (s t : State) : (woke s t).txA = t.txA := by unfold woke; split <;> rfl
@[simp] theorem woke_txB (s t : State) : (woke s t).txB = t.txB := by unfold woke; split <;> rfl
@[simp] theorem woke_rxA (s t : State) : (woke s t).rxA = t.rxA := by unfold woke; split <;> rfl
@[simp] theorem woke_rxB (s t : State) : (woke s t).rxB = t.rxB := by unfold woke; split <;> rfl
@[simp] theorem woke_rxS (s t : State) : (woke s t).rxS = t.rxS := by unfold woke; split <;> rfl
@[simp] theorem woke_linkA (s t : State) : (woke s t).linkA = t.linkA := by unfold woke; split <;> rfl
@[simp] theorem woke_linkB (s t : State) : (woke s t).linkB = t.linkB := by unfold woke; split <;> rfl
@[simp] theorem woke_epoch (s t : State) : (woke s t).epoch = t.epoch := by unfold woke; split <;> rfl
@[simp] theorem woke_ilPtr (s t : State) : (woke s t).ilPtr = t.ilPtr := by unfold woke; split <;> rfl
@[simp] theorem woke_pstate (s t : State) : (woke s t).pstate = t.pstate := by unfold woke; split <;> rfl
@[simp] theorem woke_proof (s t : State) : (woke s t).proof = t.proof := by unfold woke; split <;> rfl
@[simp] theorem woke_bakeOn (s t : State) : (woke s t).bakeOn = t.bakeOn := by unfold woke; split <;> rfl
@[simp] theorem woke_bake (s t : State) : (woke s t).bake = t.bake := by unfold woke; split <;> rfl
@[simp] theorem woke_cfg (s t : State) : (woke s t).cfg = t.cfg := by unfold woke; split <;> rfl
@[simp] theorem woke_setRej (s t : State) : (woke s t).setRej = t.setRej := by unfold woke; split <;> rfl
@[simp] theorem woke_warnDom (s t : State) : (woke s t).warnDom = t.warnDom := by unfold woke; split <;> rfl
@[simp] theorem woke_fw (s t : State) : (woke s t).fw = t.fw := by unfold woke; split <;> rfl
@[simp] theorem woke_sb (s t : State) : (woke s t).sb = t.sb := by unfold woke; split <;> rfl
@[simp] theorem woke_flt (s t : State) : (woke s t).flt = t.flt := by unfold woke; split <;> rfl
@[simp] theorem woke_pwr (s t : State) : (woke s t).pwr = t.pwr := by unfold woke; split <;> rfl
@[simp] theorem woke_perf (s t : State) : (woke s t).perf = t.perf := by unfold woke; split <;> rfl
@[simp] theorem woke_perfStep (s t : State) : (woke s t).perfStep = t.perfStep := by unfold woke; split <;> rfl
@[simp] theorem woke_perfStop (s t : State) : (woke s t).perfStop = t.perfStop := by unfold woke; split <;> rfl
@[simp] theorem woke_steps (s t : State) : (woke s t).steps = t.steps := by unfold woke; split <;> rfl
@[simp] theorem woke_st (s t : State) : (woke s t).st = t.st := by unfold woke; split <;> rfl
@[simp] theorem woke_running (s t : State) : (woke s t).running = t.running := by unfold woke; split <;> rfl

@[simp] theorem leaveArray_getCtx (s : State) (e : Eng) (id : Nat) (d : Ctx) : getCtx (leaveArray s e id) d = getCtx s d := by cases d <;> simp [getCtx]
@[simp] theorem addWrote_getCtx (s : State) (id : Nat) (fs : List Foot) (d : Ctx) : getCtx (addWrote s id fs) d = getCtx s d := by cases d <;> rfl
@[simp] theorem woke_getCtx (s t : State) (d : Ctx) : getCtx (woke s t) d = getCtx t d := by cases d <;> simp [getCtx]

@[simp] theorem failWord_pending (s : State) (c : Ctx) (e : Eng) (i n : Nat) : (failWord s c e i n).pending = s.pending := by simp [failWord]
@[simp] theorem failWord_freeCtr (s : State) (c : Ctx) (e : Eng) (i n : Nat) : (failWord s c e i n).freeCtr = s.freeCtr := by simp [failWord]
@[simp] theorem failWord_features (s : State) (c : Ctx) (e : Eng) (i n : Nat) : (failWord s c e i n).features = s.features := by simp [failWord]
@[simp] theorem failWord_powered (s : State) (c : Ctx) (e : Eng) (i n : Nat) : (failWord s c e i n).powered = s.powered := by simp [failWord]
@[simp] theorem failWord_vcore (s : State) (c : Ctx) (e : Eng) (i n : Nat) : (failWord s c e i n).vcore = s.vcore := by simp [failWord]
@[simp] theorem failWord_vmem (s : State) (c : Ctx) (e : Eng) (i n : Nat) : (failWord s c e i n).vmem = s.vmem := by simp [failWord]
@[simp] theorem failWord_rstN (s : State) (c : Ctx) (e : Eng) (i n : Nat) : (failWord s c e i n).rstN = s.rstN := by simp [failWord]
@[simp] theorem failWord_wir (s : State) (c : Ctx) (e : Eng) (i n : Nat) : (failWord s c e i n).wir = s.wir := by simp [failWord]
@[simp] theorem failWord_wrap (s : State) (c : Ctx) (e : Eng) (i n : Nat) : (failWord s c e i n).wrap = s.wrap := by simp [failWord]
@[simp] theorem failWord_testRes (s : State) (c : Ctx) (e : Eng) (i n : Nat) : (failWord s c e i n).testRes = s.testRes := by simp [failWord]
@[simp] theorem failWord_core (s : State) (c : Ctx) (e : Eng) (i n : Nat) : (failWord s c e i n).core = s.core := by simp [failWord]
@[simp] theorem failWord_parked (s : State) (c : Ctx) (e : Eng) (i n : Nat) : (failWord s c e i n).parked = s.parked := by simp [failWord]
@[simp] theorem failWord_serial (s : State) (c : Ctx) (e : Eng) (i n : Nat) : (failWord s c e i n).serial = s.serial := by simp [failWord]
@[simp] theorem failWord_pwrdom (s : State) (c : Ctx) (e : Eng) (i n : Nat) : (failWord s c e i n).pwrdom = s.pwrdom := by simp [failWord]
@[simp] theorem failWord_chainAddr (s : State) (c : Ctx) (e : Eng) (i n : Nat) : (failWord s c e i n).chainAddr = s.chainAddr := by simp [failWord]
@[simp] theorem failWord_seqWr (s : State) (c : Ctx) (e : Eng) (i n : Nat) : (failWord s c e i n).seqWr = s.seqWr := by simp [failWord]
@[simp] theorem failWord_seqBc (s : State) (c : Ctx) (e : Eng) (i n : Nat) : (failWord s c e i n).seqBc = s.seqBc := by simp [failWord]
@[simp] theorem failWord_mcOut (s : State) (c : Ctx) (e : Eng) (i n : Nat) : (failWord s c e i n).mcOut = s.mcOut := by simp [failWord]
@[simp] theorem failWord_cutAddr (s : State) (c : Ctx) (e : Eng) (i n : Nat) : (failWord s c e i n).cutAddr = s.cutAddr := by simp [failWord]
@[simp] theorem failWord_cutReq (s : State) (c : Ctx) (e : Eng) (i n : Nat) : (failWord s c e i n).cutReq = s.cutReq := by simp [failWord]
@[simp] theorem failWord_c0 (s : State) (c : Ctx) (e : Eng) (i n : Nat) : (failWord s c e i n).c0 = s.c0 := by simp [failWord]
@[simp] theorem failWord_c1 (s : State) (c : Ctx) (e : Eng) (i n : Nat) : (failWord s c e i n).c1 = s.c1 := by simp [failWord]
@[simp] theorem failWord_flags (s : State) (c : Ctx) (e : Eng) (i n : Nat) : (failWord s c e i n).flags = s.flags := by simp [failWord]
@[simp] theorem failWord_stepSets (s : State) (c : Ctx) (e : Eng) (i n : Nat) : (failWord s c e i n).stepSets = s.stepSets := by simp [failWord]
@[simp] theorem failWord_stepClears (s : State) (c : Ctx) (e : Eng) (i n : Nat) : (failWord s c e i n).stepClears = s.stepClears := by simp [failWord]
@[simp] theorem failWord_stepMarks (s : State) (c : Ctx) (e : Eng) (i n : Nat) : (failWord s c e i n).stepMarks = s.stepMarks := by simp [failWord]
@[simp] theorem failWord_stepOps (s : State) (c : Ctx) (e : Eng) (i n : Nat) : (failWord s c e i n).stepOps = s.stepOps := by simp [failWord]
@[simp] theorem failWord_selfFlits (s : State) (c : Ctx) (e : Eng) (i n : Nat) : (failWord s c e i n).selfFlits = s.selfFlits := by simp [failWord]
@[simp] theorem failWord_syncQ (s : State) (c : Ctx) (e : Eng) (i n : Nat) : (failWord s c e i n).syncQ = s.syncQ := by simp [failWord]
@[simp] theorem failWord_syncSent (s : State) (c : Ctx) (e : Eng) (i n : Nat) : (failWord s c e i n).syncSent = s.syncSent := by simp [failWord]
@[simp] theorem failWord_stepSpad (s : State) (c : Ctx) (e : Eng) (i n : Nat) : (failWord s c e i n).stepSpad = s.stepSpad := by simp [failWord]
@[simp] theorem failWord_stepPages (s : State) (c : Ctx) (e : Eng) (i n : Nat) : (failWord s c e i n).stepPages = s.stepPages := by simp [failWord]
@[simp] theorem failWord_accOwn (s : State) (c : Ctx) (e : Eng) (i n : Nat) : (failWord s c e i n).accOwn = s.accOwn := by simp [failWord]
@[simp] theorem failWord_spad (s : State) (c : Ctx) (e : Eng) (i n : Nat) : (failWord s c e i n).spad = s.spad := by simp [failWord]
@[simp] theorem failWord_spadErr (s : State) (c : Ctx) (e : Eng) (i n : Nat) : (failWord s c e i n).spadErr = s.spadErr := by simp [failWord]
@[simp] theorem failWord_wbPend (s : State) (c : Ctx) (e : Eng) (i n : Nat) : (failWord s c e i n).wbPend = s.wbPend := by simp [failWord]
@[simp] theorem failWord_scrub (s : State) (c : Ctx) (e : Eng) (i n : Nat) : (failWord s c e i n).scrub = s.scrub := by simp [failWord]
@[simp] theorem failWord_checked (s : State) (c : Ctx) (e : Eng) (i n : Nat) : (failWord s c e i n).checked = s.checked := by simp [failWord]
@[simp] theorem failWord_pages (s : State) (c : Ctx) (e : Eng) (i n : Nat) : (failWord s c e i n).pages = s.pages := by simp [failWord]
@[simp] theorem failWord_handles (s : State) (c : Ctx) (e : Eng) (i n : Nat) : (failWord s c e i n).handles = s.handles := by simp [failWord]
@[simp] theorem failWord_acc (s : State) (c : Ctx) (e : Eng) (i n : Nat) : (failWord s c e i n).acc = s.acc := by simp [failWord]
@[simp] theorem failWord_accErr (s : State) (c : Ctx) (e : Eng) (i n : Nat) : (failWord s c e i n).accErr = s.accErr := by simp [failWord]
@[simp] theorem failWord_stepAcc (s : State) (c : Ctx) (e : Eng) (i n : Nat) : (failWord s c e i n).stepAcc = s.stepAcc := by simp [failWord]
@[simp] theorem failWord_mesh (s : State) (c : Ctx) (e : Eng) (i n : Nat) :
    (failWord s c e i n).mesh = if e = .matrix then endSlices i s.mesh else s.mesh := by simp [failWord]
@[simp] theorem failWord_stat (s : State) (c : Ctx) (e : Eng) (i n : Nat) : (failWord s c e i n).stat = s.stat := by simp [failWord]
@[simp] theorem failWord_statErr (s : State) (c : Ctx) (e : Eng) (i n : Nat) : (failWord s c e i n).statErr = s.statErr := by simp [failWord]
@[simp] theorem failWord_imem (s : State) (c : Ctx) (e : Eng) (i n : Nat) : (failWord s c e i n).imem = s.imem := by simp [failWord]
@[simp] theorem failWord_imemLen (s : State) (c : Ctx) (e : Eng) (i n : Nat) : (failWord s c e i n).imemLen = s.imemLen := by simp [failWord]
@[simp] theorem failWord_entry (s : State) (c : Ctx) (e : Eng) (i n : Nat) : (failWord s c e i n).entry = s.entry := by simp [failWord]
@[simp] theorem failWord_dmem (s : State) (c : Ctx) (e : Eng) (i n : Nat) : (failWord s c e i n).dmem = s.dmem := by simp [failWord]
@[simp] theorem failWord_dmemStep (s : State) (c : Ctx) (e : Eng) (i n : Nat) : (failWord s c e i n).dmemStep = s.dmemStep := by simp [failWord]
@[simp] theorem failWord_trackers (s : State) (c : Ctx) (e : Eng) (i n : Nat) : (failWord s c e i n).trackers = s.trackers := by simp [failWord]
@[simp] theorem failWord_stepTrk (s : State) (c : Ctx) (e : Eng) (i n : Nat) : (failWord s c e i n).stepTrk = s.stepTrk := by simp [failWord]
@[simp] theorem failWord_spadWin (s : State) (c : Ctx) (e : Eng) (i n : Nat) : (failWord s c e i n).spadWin = s.spadWin := by simp [failWord]
@[simp] theorem failWord_nextId (s : State) (c : Ctx) (e : Eng) (i n : Nat) : (failWord s c e i n).nextId = s.nextId := by simp [failWord]
@[simp] theorem failWord_stepDone (s : State) (c : Ctx) (e : Eng) (i n : Nat) : (failWord s c e i n).stepDone = s.stepDone := by simp [failWord]
@[simp] theorem failWord_units (s : State) (c : Ctx) (e : Eng) (i n : Nat) : (failWord s c e i n).units = s.units := by simp [failWord]
@[simp] theorem failWord_outst (s : State) (c : Ctx) (e : Eng) (i n : Nat) : (failWord s c e i n).outst = s.outst := by simp [failWord]
@[simp] theorem failWord_retired (s : State) (c : Ctx) (e : Eng) (i n : Nat) : (failWord s c e i n).retired = s.retired := by simp [failWord]
@[simp] theorem failWord_rxTab (s : State) (c : Ctx) (e : Eng) (i n : Nat) : (failWord s c e i n).rxTab = s.rxTab := by simp [failWord]
@[simp] theorem failWord_winAcks (s : State) (c : Ctx) (e : Eng) (i n : Nat) : (failWord s c e i n).winAcks = s.winAcks := by simp [failWord]
@[simp] theorem failWord_held (s : State) (c : Ctx) (e : Eng) (i n : Nat) : (failWord s c e i n).held = s.held := by simp [failWord]
@[simp] theorem failWord_rstDue (s : State) (c : Ctx) (e : Eng) (i n : Nat) : (failWord s c e i n).rstDue = s.rstDue := by simp [failWord]
@[simp] theorem failWord_winDone (s : State) (c : Ctx) (e : Eng) (i n : Nat) : (failWord s c e i n).winDone = s.winDone := by simp [failWord]
@[simp] theorem failWord_perfLast (s : State) (c : Ctx) (e : Eng) (i n : Nat) : (failWord s c e i n).perfLast = s.perfLast := by simp [failWord]
@[simp] theorem failWord_mgmt (s : State) (c : Ctx) (e : Eng) (i n : Nat) : (failWord s c e i n).mgmt = s.mgmt := by simp [failWord]
@[simp] theorem failWord_pinA (s : State) (c : Ctx) (e : Eng) (i n : Nat) : (failWord s c e i n).pinA = s.pinA := by simp [failWord]
@[simp] theorem failWord_pinB (s : State) (c : Ctx) (e : Eng) (i n : Nat) : (failWord s c e i n).pinB = s.pinB := by simp [failWord]
@[simp] theorem failWord_faTx (s : State) (c : Ctx) (e : Eng) (i n : Nat) : (failWord s c e i n).faTx = s.faTx := by simp [failWord]
@[simp] theorem failWord_fbTx (s : State) (c : Ctx) (e : Eng) (i n : Nat) : (failWord s c e i n).fbTx = s.fbTx := by simp [failWord]
@[simp] theorem failWord_txA (s : State) (c : Ctx) (e : Eng) (i n : Nat) : (failWord s c e i n).txA = s.txA := by simp [failWord]
@[simp] theorem failWord_txB (s : State) (c : Ctx) (e : Eng) (i n : Nat) : (failWord s c e i n).txB = s.txB := by simp [failWord]
@[simp] theorem failWord_rxA (s : State) (c : Ctx) (e : Eng) (i n : Nat) : (failWord s c e i n).rxA = s.rxA := by simp [failWord]
@[simp] theorem failWord_rxB (s : State) (c : Ctx) (e : Eng) (i n : Nat) : (failWord s c e i n).rxB = s.rxB := by simp [failWord]
@[simp] theorem failWord_rxS (s : State) (c : Ctx) (e : Eng) (i n : Nat) : (failWord s c e i n).rxS = s.rxS := by simp [failWord]
@[simp] theorem failWord_linkA (s : State) (c : Ctx) (e : Eng) (i n : Nat) : (failWord s c e i n).linkA = s.linkA := by simp [failWord]
@[simp] theorem failWord_linkB (s : State) (c : Ctx) (e : Eng) (i n : Nat) : (failWord s c e i n).linkB = s.linkB := by simp [failWord]
@[simp] theorem failWord_epoch (s : State) (c : Ctx) (e : Eng) (i n : Nat) : (failWord s c e i n).epoch = s.epoch := by simp [failWord]
@[simp] theorem failWord_ilPtr (s : State) (c : Ctx) (e : Eng) (i n : Nat) : (failWord s c e i n).ilPtr = s.ilPtr := by simp [failWord]
@[simp] theorem failWord_pstate (s : State) (c : Ctx) (e : Eng) (i n : Nat) : (failWord s c e i n).pstate = s.pstate := by simp [failWord]
@[simp] theorem failWord_proof (s : State) (c : Ctx) (e : Eng) (i n : Nat) : (failWord s c e i n).proof = s.proof := by simp [failWord]
@[simp] theorem failWord_bakeOn (s : State) (c : Ctx) (e : Eng) (i n : Nat) : (failWord s c e i n).bakeOn = s.bakeOn := by simp [failWord]
@[simp] theorem failWord_bake (s : State) (c : Ctx) (e : Eng) (i n : Nat) : (failWord s c e i n).bake = s.bake := by simp [failWord]
@[simp] theorem failWord_cfg (s : State) (c : Ctx) (e : Eng) (i n : Nat) : (failWord s c e i n).cfg = s.cfg := by simp [failWord]
@[simp] theorem failWord_setRej (s : State) (c : Ctx) (e : Eng) (i n : Nat) : (failWord s c e i n).setRej = s.setRej := by simp [failWord]
@[simp] theorem failWord_warnDom (s : State) (c : Ctx) (e : Eng) (i n : Nat) : (failWord s c e i n).warnDom = s.warnDom := by simp [failWord]
@[simp] theorem failWord_fw (s : State) (c : Ctx) (e : Eng) (i n : Nat) : (failWord s c e i n).fw = s.fw := by simp [failWord]
@[simp] theorem failWord_sb (s : State) (c : Ctx) (e : Eng) (i n : Nat) : (failWord s c e i n).sb = s.sb := by simp [failWord]
@[simp] theorem failWord_tmr (s : State) (c : Ctx) (e : Eng) (i n : Nat) : (failWord s c e i n).tmr = s.tmr := by simp [failWord]
@[simp] theorem failWord_pwr (s : State) (c : Ctx) (e : Eng) (i n : Nat) : (failWord s c e i n).pwr = s.pwr := by simp [failWord]
@[simp] theorem failWord_perf (s : State) (c : Ctx) (e : Eng) (i n : Nat) : (failWord s c e i n).perf = s.perf := by simp [failWord]
@[simp] theorem failWord_perfStep (s : State) (c : Ctx) (e : Eng) (i n : Nat) : (failWord s c e i n).perfStep = s.perfStep := by simp [failWord]
@[simp] theorem failWord_perfStop (s : State) (c : Ctx) (e : Eng) (i n : Nat) : (failWord s c e i n).perfStop = s.perfStop := by simp [failWord]
@[simp] theorem failWord_steps (s : State) (c : Ctx) (e : Eng) (i n : Nat) : (failWord s c e i n).steps = s.steps := by simp [failWord]
@[simp] theorem failWord_st (s : State) (c : Ctx) (e : Eng) (i n : Nat) : (failWord s c e i n).st = s.st := by simp [failWord]
@[simp] theorem setFlag_pending (s : State) (f : Nat) (v : Flag) : (setFlag s f v).pending = s.pending := rfl
@[simp] theorem setFlag_freeCtr (s : State) (f : Nat) (v : Flag) : (setFlag s f v).freeCtr = s.freeCtr := rfl
@[simp] theorem setFlag_features (s : State) (f : Nat) (v : Flag) : (setFlag s f v).features = s.features := rfl
@[simp] theorem setFlag_powered (s : State) (f : Nat) (v : Flag) : (setFlag s f v).powered = s.powered := rfl
@[simp] theorem setFlag_vcore (s : State) (f : Nat) (v : Flag) : (setFlag s f v).vcore = s.vcore := rfl
@[simp] theorem setFlag_vmem (s : State) (f : Nat) (v : Flag) : (setFlag s f v).vmem = s.vmem := rfl
@[simp] theorem setFlag_rstN (s : State) (f : Nat) (v : Flag) : (setFlag s f v).rstN = s.rstN := rfl
@[simp] theorem setFlag_wir (s : State) (f : Nat) (v : Flag) : (setFlag s f v).wir = s.wir := rfl
@[simp] theorem setFlag_wrap (s : State) (f : Nat) (v : Flag) : (setFlag s f v).wrap = s.wrap := rfl
@[simp] theorem setFlag_testRes (s : State) (f : Nat) (v : Flag) : (setFlag s f v).testRes = s.testRes := rfl
@[simp] theorem setFlag_core (s : State) (f : Nat) (v : Flag) : (setFlag s f v).core = s.core := rfl
@[simp] theorem setFlag_parked (s : State) (f : Nat) (v : Flag) : (setFlag s f v).parked = s.parked := rfl
@[simp] theorem setFlag_serial (s : State) (f : Nat) (v : Flag) : (setFlag s f v).serial = s.serial := rfl
@[simp] theorem setFlag_pwrdom (s : State) (f : Nat) (v : Flag) : (setFlag s f v).pwrdom = s.pwrdom := rfl
@[simp] theorem setFlag_chainAddr (s : State) (f : Nat) (v : Flag) : (setFlag s f v).chainAddr = s.chainAddr := rfl
@[simp] theorem setFlag_seqWr (s : State) (f : Nat) (v : Flag) : (setFlag s f v).seqWr = s.seqWr := rfl
@[simp] theorem setFlag_seqBc (s : State) (f : Nat) (v : Flag) : (setFlag s f v).seqBc = s.seqBc := rfl
@[simp] theorem setFlag_mcOut (s : State) (f : Nat) (v : Flag) : (setFlag s f v).mcOut = s.mcOut := rfl
@[simp] theorem setFlag_cutAddr (s : State) (f : Nat) (v : Flag) : (setFlag s f v).cutAddr = s.cutAddr := rfl
@[simp] theorem setFlag_cutReq (s : State) (f : Nat) (v : Flag) : (setFlag s f v).cutReq = s.cutReq := rfl
@[simp] theorem setFlag_c0 (s : State) (f : Nat) (v : Flag) : (setFlag s f v).c0 = s.c0 := rfl
@[simp] theorem setFlag_c1 (s : State) (f : Nat) (v : Flag) : (setFlag s f v).c1 = s.c1 := rfl
@[simp] theorem setFlag_stepSets (s : State) (f : Nat) (v : Flag) : (setFlag s f v).stepSets = s.stepSets := rfl
@[simp] theorem setFlag_stepClears (s : State) (f : Nat) (v : Flag) : (setFlag s f v).stepClears = s.stepClears := rfl
@[simp] theorem setFlag_stepMarks (s : State) (f : Nat) (v : Flag) : (setFlag s f v).stepMarks = s.stepMarks := rfl
@[simp] theorem setFlag_stepOps (s : State) (f : Nat) (v : Flag) : (setFlag s f v).stepOps = s.stepOps := rfl
@[simp] theorem setFlag_selfFlits (s : State) (f : Nat) (v : Flag) : (setFlag s f v).selfFlits = s.selfFlits := rfl
@[simp] theorem setFlag_syncQ (s : State) (f : Nat) (v : Flag) : (setFlag s f v).syncQ = s.syncQ := rfl
@[simp] theorem setFlag_syncSent (s : State) (f : Nat) (v : Flag) : (setFlag s f v).syncSent = s.syncSent := rfl
@[simp] theorem setFlag_stepSpad (s : State) (f : Nat) (v : Flag) : (setFlag s f v).stepSpad = s.stepSpad := rfl
@[simp] theorem setFlag_stepPages (s : State) (f : Nat) (v : Flag) : (setFlag s f v).stepPages = s.stepPages := rfl
@[simp] theorem setFlag_accOwn (s : State) (f : Nat) (v : Flag) : (setFlag s f v).accOwn = s.accOwn := rfl
@[simp] theorem setFlag_spad (s : State) (f : Nat) (v : Flag) : (setFlag s f v).spad = s.spad := rfl
@[simp] theorem setFlag_spadErr (s : State) (f : Nat) (v : Flag) : (setFlag s f v).spadErr = s.spadErr := rfl
@[simp] theorem setFlag_wbPend (s : State) (f : Nat) (v : Flag) : (setFlag s f v).wbPend = s.wbPend := rfl
@[simp] theorem setFlag_scrub (s : State) (f : Nat) (v : Flag) : (setFlag s f v).scrub = s.scrub := rfl
@[simp] theorem setFlag_checked (s : State) (f : Nat) (v : Flag) : (setFlag s f v).checked = s.checked := rfl
@[simp] theorem setFlag_pages (s : State) (f : Nat) (v : Flag) : (setFlag s f v).pages = s.pages := rfl
@[simp] theorem setFlag_handles (s : State) (f : Nat) (v : Flag) : (setFlag s f v).handles = s.handles := rfl
@[simp] theorem setFlag_acc (s : State) (f : Nat) (v : Flag) : (setFlag s f v).acc = s.acc := rfl
@[simp] theorem setFlag_accErr (s : State) (f : Nat) (v : Flag) : (setFlag s f v).accErr = s.accErr := rfl
@[simp] theorem setFlag_stepAcc (s : State) (f : Nat) (v : Flag) : (setFlag s f v).stepAcc = s.stepAcc := rfl
@[simp] theorem setFlag_mesh (s : State) (f : Nat) (v : Flag) : (setFlag s f v).mesh = s.mesh := rfl
@[simp] theorem setFlag_stat (s : State) (f : Nat) (v : Flag) : (setFlag s f v).stat = s.stat := rfl
@[simp] theorem setFlag_statErr (s : State) (f : Nat) (v : Flag) : (setFlag s f v).statErr = s.statErr := rfl
@[simp] theorem setFlag_imem (s : State) (f : Nat) (v : Flag) : (setFlag s f v).imem = s.imem := rfl
@[simp] theorem setFlag_imemLen (s : State) (f : Nat) (v : Flag) : (setFlag s f v).imemLen = s.imemLen := rfl
@[simp] theorem setFlag_entry (s : State) (f : Nat) (v : Flag) : (setFlag s f v).entry = s.entry := rfl
@[simp] theorem setFlag_dmem (s : State) (f : Nat) (v : Flag) : (setFlag s f v).dmem = s.dmem := rfl
@[simp] theorem setFlag_dmemStep (s : State) (f : Nat) (v : Flag) : (setFlag s f v).dmemStep = s.dmemStep := rfl
@[simp] theorem setFlag_trackers (s : State) (f : Nat) (v : Flag) : (setFlag s f v).trackers = s.trackers := rfl
@[simp] theorem setFlag_stepTrk (s : State) (f : Nat) (v : Flag) : (setFlag s f v).stepTrk = s.stepTrk := rfl
@[simp] theorem setFlag_spadWin (s : State) (f : Nat) (v : Flag) : (setFlag s f v).spadWin = s.spadWin := rfl
@[simp] theorem setFlag_running (s : State) (f : Nat) (v : Flag) : (setFlag s f v).running = s.running := rfl
@[simp] theorem setFlag_nextId (s : State) (f : Nat) (v : Flag) : (setFlag s f v).nextId = s.nextId := rfl
@[simp] theorem setFlag_stepDone (s : State) (f : Nat) (v : Flag) : (setFlag s f v).stepDone = s.stepDone := rfl
@[simp] theorem setFlag_units (s : State) (f : Nat) (v : Flag) : (setFlag s f v).units = s.units := rfl
@[simp] theorem setFlag_outst (s : State) (f : Nat) (v : Flag) : (setFlag s f v).outst = s.outst := rfl
@[simp] theorem setFlag_retired (s : State) (f : Nat) (v : Flag) : (setFlag s f v).retired = s.retired := rfl
@[simp] theorem setFlag_rxTab (s : State) (f : Nat) (v : Flag) : (setFlag s f v).rxTab = s.rxTab := rfl
@[simp] theorem setFlag_winAcks (s : State) (f : Nat) (v : Flag) : (setFlag s f v).winAcks = s.winAcks := rfl
@[simp] theorem setFlag_held (s : State) (f : Nat) (v : Flag) : (setFlag s f v).held = s.held := rfl
@[simp] theorem setFlag_rstDue (s : State) (f : Nat) (v : Flag) : (setFlag s f v).rstDue = s.rstDue := rfl
@[simp] theorem setFlag_winDone (s : State) (f : Nat) (v : Flag) : (setFlag s f v).winDone = s.winDone := rfl
@[simp] theorem setFlag_perfLast (s : State) (f : Nat) (v : Flag) : (setFlag s f v).perfLast = s.perfLast := rfl
@[simp] theorem setFlag_mgmt (s : State) (f : Nat) (v : Flag) : (setFlag s f v).mgmt = s.mgmt := rfl
@[simp] theorem setFlag_pinA (s : State) (f : Nat) (v : Flag) : (setFlag s f v).pinA = s.pinA := rfl
@[simp] theorem setFlag_pinB (s : State) (f : Nat) (v : Flag) : (setFlag s f v).pinB = s.pinB := rfl
@[simp] theorem setFlag_faTx (s : State) (f : Nat) (v : Flag) : (setFlag s f v).faTx = s.faTx := rfl
@[simp] theorem setFlag_fbTx (s : State) (f : Nat) (v : Flag) : (setFlag s f v).fbTx = s.fbTx := rfl
@[simp] theorem setFlag_txA (s : State) (f : Nat) (v : Flag) : (setFlag s f v).txA = s.txA := rfl
@[simp] theorem setFlag_txB (s : State) (f : Nat) (v : Flag) : (setFlag s f v).txB = s.txB := rfl
@[simp] theorem setFlag_rxA (s : State) (f : Nat) (v : Flag) : (setFlag s f v).rxA = s.rxA := rfl
@[simp] theorem setFlag_rxB (s : State) (f : Nat) (v : Flag) : (setFlag s f v).rxB = s.rxB := rfl
@[simp] theorem setFlag_rxS (s : State) (f : Nat) (v : Flag) : (setFlag s f v).rxS = s.rxS := rfl
@[simp] theorem setFlag_linkA (s : State) (f : Nat) (v : Flag) : (setFlag s f v).linkA = s.linkA := rfl
@[simp] theorem setFlag_linkB (s : State) (f : Nat) (v : Flag) : (setFlag s f v).linkB = s.linkB := rfl
@[simp] theorem setFlag_epoch (s : State) (f : Nat) (v : Flag) : (setFlag s f v).epoch = s.epoch := rfl
@[simp] theorem setFlag_ilPtr (s : State) (f : Nat) (v : Flag) : (setFlag s f v).ilPtr = s.ilPtr := rfl
@[simp] theorem setFlag_pstate (s : State) (f : Nat) (v : Flag) : (setFlag s f v).pstate = s.pstate := rfl
@[simp] theorem setFlag_proof (s : State) (f : Nat) (v : Flag) : (setFlag s f v).proof = s.proof := rfl
@[simp] theorem setFlag_bakeOn (s : State) (f : Nat) (v : Flag) : (setFlag s f v).bakeOn = s.bakeOn := rfl
@[simp] theorem setFlag_bake (s : State) (f : Nat) (v : Flag) : (setFlag s f v).bake = s.bake := rfl
@[simp] theorem setFlag_cfg (s : State) (f : Nat) (v : Flag) : (setFlag s f v).cfg = s.cfg := rfl
@[simp] theorem setFlag_setRej (s : State) (f : Nat) (v : Flag) : (setFlag s f v).setRej = s.setRej := rfl
@[simp] theorem setFlag_warnDom (s : State) (f : Nat) (v : Flag) : (setFlag s f v).warnDom = s.warnDom := rfl
@[simp] theorem setFlag_fw (s : State) (f : Nat) (v : Flag) : (setFlag s f v).fw = s.fw := rfl
@[simp] theorem setFlag_sb (s : State) (f : Nat) (v : Flag) : (setFlag s f v).sb = s.sb := rfl
@[simp] theorem setFlag_flt (s : State) (f : Nat) (v : Flag) : (setFlag s f v).flt = s.flt := rfl
@[simp] theorem setFlag_tmr (s : State) (f : Nat) (v : Flag) : (setFlag s f v).tmr = s.tmr := rfl
@[simp] theorem setFlag_pwr (s : State) (f : Nat) (v : Flag) : (setFlag s f v).pwr = s.pwr := rfl
@[simp] theorem setFlag_perf (s : State) (f : Nat) (v : Flag) : (setFlag s f v).perf = s.perf := rfl
@[simp] theorem setFlag_perfStep (s : State) (f : Nat) (v : Flag) : (setFlag s f v).perfStep = s.perfStep := rfl
@[simp] theorem setFlag_perfStop (s : State) (f : Nat) (v : Flag) : (setFlag s f v).perfStop = s.perfStop := rfl
@[simp] theorem setFlag_steps (s : State) (f : Nat) (v : Flag) : (setFlag s f v).steps = s.steps := rfl
@[simp] theorem setFlag_st (s : State) (f : Nat) (v : Flag) : (setFlag s f v).st = s.st := rfl
@[simp] theorem pushSet_pending (s : State) (f : Nat) (c : Option Ctx) : (pushSet s f c).pending = s.pending := rfl
@[simp] theorem pushSet_freeCtr (s : State) (f : Nat) (c : Option Ctx) : (pushSet s f c).freeCtr = s.freeCtr := rfl
@[simp] theorem pushSet_features (s : State) (f : Nat) (c : Option Ctx) : (pushSet s f c).features = s.features := rfl
@[simp] theorem pushSet_powered (s : State) (f : Nat) (c : Option Ctx) : (pushSet s f c).powered = s.powered := rfl
@[simp] theorem pushSet_vcore (s : State) (f : Nat) (c : Option Ctx) : (pushSet s f c).vcore = s.vcore := rfl
@[simp] theorem pushSet_vmem (s : State) (f : Nat) (c : Option Ctx) : (pushSet s f c).vmem = s.vmem := rfl
@[simp] theorem pushSet_rstN (s : State) (f : Nat) (c : Option Ctx) : (pushSet s f c).rstN = s.rstN := rfl
@[simp] theorem pushSet_wir (s : State) (f : Nat) (c : Option Ctx) : (pushSet s f c).wir = s.wir := rfl
@[simp] theorem pushSet_wrap (s : State) (f : Nat) (c : Option Ctx) : (pushSet s f c).wrap = s.wrap := rfl
@[simp] theorem pushSet_testRes (s : State) (f : Nat) (c : Option Ctx) : (pushSet s f c).testRes = s.testRes := rfl
@[simp] theorem pushSet_core (s : State) (f : Nat) (c : Option Ctx) : (pushSet s f c).core = s.core := rfl
@[simp] theorem pushSet_parked (s : State) (f : Nat) (c : Option Ctx) : (pushSet s f c).parked = s.parked := rfl
@[simp] theorem pushSet_serial (s : State) (f : Nat) (c : Option Ctx) : (pushSet s f c).serial = s.serial := rfl
@[simp] theorem pushSet_pwrdom (s : State) (f : Nat) (c : Option Ctx) : (pushSet s f c).pwrdom = s.pwrdom := rfl
@[simp] theorem pushSet_chainAddr (s : State) (f : Nat) (c : Option Ctx) : (pushSet s f c).chainAddr = s.chainAddr := rfl
@[simp] theorem pushSet_seqWr (s : State) (f : Nat) (c : Option Ctx) : (pushSet s f c).seqWr = s.seqWr := rfl
@[simp] theorem pushSet_seqBc (s : State) (f : Nat) (c : Option Ctx) : (pushSet s f c).seqBc = s.seqBc := rfl
@[simp] theorem pushSet_mcOut (s : State) (f : Nat) (c : Option Ctx) : (pushSet s f c).mcOut = s.mcOut := rfl
@[simp] theorem pushSet_cutAddr (s : State) (f : Nat) (c : Option Ctx) : (pushSet s f c).cutAddr = s.cutAddr := rfl
@[simp] theorem pushSet_cutReq (s : State) (f : Nat) (c : Option Ctx) : (pushSet s f c).cutReq = s.cutReq := rfl
@[simp] theorem pushSet_c0 (s : State) (f : Nat) (c : Option Ctx) : (pushSet s f c).c0 = s.c0 := rfl
@[simp] theorem pushSet_c1 (s : State) (f : Nat) (c : Option Ctx) : (pushSet s f c).c1 = s.c1 := rfl
@[simp] theorem pushSet_flags (s : State) (f : Nat) (c : Option Ctx) : (pushSet s f c).flags = s.flags := rfl
@[simp] theorem pushSet_stepClears (s : State) (f : Nat) (c : Option Ctx) : (pushSet s f c).stepClears = s.stepClears := rfl
@[simp] theorem pushSet_stepMarks (s : State) (f : Nat) (c : Option Ctx) : (pushSet s f c).stepMarks = s.stepMarks := rfl
@[simp] theorem pushSet_stepOps (s : State) (f : Nat) (c : Option Ctx) : (pushSet s f c).stepOps = s.stepOps := rfl
@[simp] theorem pushSet_selfFlits (s : State) (f : Nat) (c : Option Ctx) : (pushSet s f c).selfFlits = s.selfFlits := rfl
@[simp] theorem pushSet_syncQ (s : State) (f : Nat) (c : Option Ctx) : (pushSet s f c).syncQ = s.syncQ := rfl
@[simp] theorem pushSet_syncSent (s : State) (f : Nat) (c : Option Ctx) : (pushSet s f c).syncSent = s.syncSent := rfl
@[simp] theorem pushSet_stepSpad (s : State) (f : Nat) (c : Option Ctx) : (pushSet s f c).stepSpad = s.stepSpad := rfl
@[simp] theorem pushSet_stepPages (s : State) (f : Nat) (c : Option Ctx) : (pushSet s f c).stepPages = s.stepPages := rfl
@[simp] theorem pushSet_accOwn (s : State) (f : Nat) (c : Option Ctx) : (pushSet s f c).accOwn = s.accOwn := rfl
@[simp] theorem pushSet_spad (s : State) (f : Nat) (c : Option Ctx) : (pushSet s f c).spad = s.spad := rfl
@[simp] theorem pushSet_spadErr (s : State) (f : Nat) (c : Option Ctx) : (pushSet s f c).spadErr = s.spadErr := rfl
@[simp] theorem pushSet_wbPend (s : State) (f : Nat) (c : Option Ctx) : (pushSet s f c).wbPend = s.wbPend := rfl
@[simp] theorem pushSet_scrub (s : State) (f : Nat) (c : Option Ctx) : (pushSet s f c).scrub = s.scrub := rfl
@[simp] theorem pushSet_checked (s : State) (f : Nat) (c : Option Ctx) : (pushSet s f c).checked = s.checked := rfl
@[simp] theorem pushSet_pages (s : State) (f : Nat) (c : Option Ctx) : (pushSet s f c).pages = s.pages := rfl
@[simp] theorem pushSet_handles (s : State) (f : Nat) (c : Option Ctx) : (pushSet s f c).handles = s.handles := rfl
@[simp] theorem pushSet_acc (s : State) (f : Nat) (c : Option Ctx) : (pushSet s f c).acc = s.acc := rfl
@[simp] theorem pushSet_accErr (s : State) (f : Nat) (c : Option Ctx) : (pushSet s f c).accErr = s.accErr := rfl
@[simp] theorem pushSet_stepAcc (s : State) (f : Nat) (c : Option Ctx) : (pushSet s f c).stepAcc = s.stepAcc := rfl
@[simp] theorem pushSet_mesh (s : State) (f : Nat) (c : Option Ctx) : (pushSet s f c).mesh = s.mesh := rfl
@[simp] theorem pushSet_stat (s : State) (f : Nat) (c : Option Ctx) : (pushSet s f c).stat = s.stat := rfl
@[simp] theorem pushSet_statErr (s : State) (f : Nat) (c : Option Ctx) : (pushSet s f c).statErr = s.statErr := rfl
@[simp] theorem pushSet_imem (s : State) (f : Nat) (c : Option Ctx) : (pushSet s f c).imem = s.imem := rfl
@[simp] theorem pushSet_imemLen (s : State) (f : Nat) (c : Option Ctx) : (pushSet s f c).imemLen = s.imemLen := rfl
@[simp] theorem pushSet_entry (s : State) (f : Nat) (c : Option Ctx) : (pushSet s f c).entry = s.entry := rfl
@[simp] theorem pushSet_dmem (s : State) (f : Nat) (c : Option Ctx) : (pushSet s f c).dmem = s.dmem := rfl
@[simp] theorem pushSet_dmemStep (s : State) (f : Nat) (c : Option Ctx) : (pushSet s f c).dmemStep = s.dmemStep := rfl
@[simp] theorem pushSet_trackers (s : State) (f : Nat) (c : Option Ctx) : (pushSet s f c).trackers = s.trackers := rfl
@[simp] theorem pushSet_stepTrk (s : State) (f : Nat) (c : Option Ctx) : (pushSet s f c).stepTrk = s.stepTrk := rfl
@[simp] theorem pushSet_spadWin (s : State) (f : Nat) (c : Option Ctx) : (pushSet s f c).spadWin = s.spadWin := rfl
@[simp] theorem pushSet_running (s : State) (f : Nat) (c : Option Ctx) : (pushSet s f c).running = s.running := rfl
@[simp] theorem pushSet_nextId (s : State) (f : Nat) (c : Option Ctx) : (pushSet s f c).nextId = s.nextId := rfl
@[simp] theorem pushSet_stepDone (s : State) (f : Nat) (c : Option Ctx) : (pushSet s f c).stepDone = s.stepDone := rfl
@[simp] theorem pushSet_units (s : State) (f : Nat) (c : Option Ctx) : (pushSet s f c).units = s.units := rfl
@[simp] theorem pushSet_outst (s : State) (f : Nat) (c : Option Ctx) : (pushSet s f c).outst = s.outst := rfl
@[simp] theorem pushSet_retired (s : State) (f : Nat) (c : Option Ctx) : (pushSet s f c).retired = s.retired := rfl
@[simp] theorem pushSet_rxTab (s : State) (f : Nat) (c : Option Ctx) : (pushSet s f c).rxTab = s.rxTab := rfl
@[simp] theorem pushSet_winAcks (s : State) (f : Nat) (c : Option Ctx) : (pushSet s f c).winAcks = s.winAcks := rfl
@[simp] theorem pushSet_held (s : State) (f : Nat) (c : Option Ctx) : (pushSet s f c).held = s.held := rfl
@[simp] theorem pushSet_rstDue (s : State) (f : Nat) (c : Option Ctx) : (pushSet s f c).rstDue = s.rstDue := rfl
@[simp] theorem pushSet_winDone (s : State) (f : Nat) (c : Option Ctx) : (pushSet s f c).winDone = s.winDone := rfl
@[simp] theorem pushSet_perfLast (s : State) (f : Nat) (c : Option Ctx) : (pushSet s f c).perfLast = s.perfLast := rfl
@[simp] theorem pushSet_mgmt (s : State) (f : Nat) (c : Option Ctx) : (pushSet s f c).mgmt = s.mgmt := rfl
@[simp] theorem pushSet_pinA (s : State) (f : Nat) (c : Option Ctx) : (pushSet s f c).pinA = s.pinA := rfl
@[simp] theorem pushSet_pinB (s : State) (f : Nat) (c : Option Ctx) : (pushSet s f c).pinB = s.pinB := rfl
@[simp] theorem pushSet_faTx (s : State) (f : Nat) (c : Option Ctx) : (pushSet s f c).faTx = s.faTx := rfl
@[simp] theorem pushSet_fbTx (s : State) (f : Nat) (c : Option Ctx) : (pushSet s f c).fbTx = s.fbTx := rfl
@[simp] theorem pushSet_txA (s : State) (f : Nat) (c : Option Ctx) : (pushSet s f c).txA = s.txA := rfl
@[simp] theorem pushSet_txB (s : State) (f : Nat) (c : Option Ctx) : (pushSet s f c).txB = s.txB := rfl
@[simp] theorem pushSet_rxA (s : State) (f : Nat) (c : Option Ctx) : (pushSet s f c).rxA = s.rxA := rfl
@[simp] theorem pushSet_rxB (s : State) (f : Nat) (c : Option Ctx) : (pushSet s f c).rxB = s.rxB := rfl
@[simp] theorem pushSet_rxS (s : State) (f : Nat) (c : Option Ctx) : (pushSet s f c).rxS = s.rxS := rfl
@[simp] theorem pushSet_linkA (s : State) (f : Nat) (c : Option Ctx) : (pushSet s f c).linkA = s.linkA := rfl
@[simp] theorem pushSet_linkB (s : State) (f : Nat) (c : Option Ctx) : (pushSet s f c).linkB = s.linkB := rfl
@[simp] theorem pushSet_epoch (s : State) (f : Nat) (c : Option Ctx) : (pushSet s f c).epoch = s.epoch := rfl
@[simp] theorem pushSet_ilPtr (s : State) (f : Nat) (c : Option Ctx) : (pushSet s f c).ilPtr = s.ilPtr := rfl
@[simp] theorem pushSet_pstate (s : State) (f : Nat) (c : Option Ctx) : (pushSet s f c).pstate = s.pstate := rfl
@[simp] theorem pushSet_proof (s : State) (f : Nat) (c : Option Ctx) : (pushSet s f c).proof = s.proof := rfl
@[simp] theorem pushSet_bakeOn (s : State) (f : Nat) (c : Option Ctx) : (pushSet s f c).bakeOn = s.bakeOn := rfl
@[simp] theorem pushSet_bake (s : State) (f : Nat) (c : Option Ctx) : (pushSet s f c).bake = s.bake := rfl
@[simp] theorem pushSet_cfg (s : State) (f : Nat) (c : Option Ctx) : (pushSet s f c).cfg = s.cfg := rfl
@[simp] theorem pushSet_setRej (s : State) (f : Nat) (c : Option Ctx) : (pushSet s f c).setRej = s.setRej := rfl
@[simp] theorem pushSet_warnDom (s : State) (f : Nat) (c : Option Ctx) : (pushSet s f c).warnDom = s.warnDom := rfl
@[simp] theorem pushSet_fw (s : State) (f : Nat) (c : Option Ctx) : (pushSet s f c).fw = s.fw := rfl
@[simp] theorem pushSet_sb (s : State) (f : Nat) (c : Option Ctx) : (pushSet s f c).sb = s.sb := rfl
@[simp] theorem pushSet_flt (s : State) (f : Nat) (c : Option Ctx) : (pushSet s f c).flt = s.flt := rfl
@[simp] theorem pushSet_tmr (s : State) (f : Nat) (c : Option Ctx) : (pushSet s f c).tmr = s.tmr := rfl
@[simp] theorem pushSet_pwr (s : State) (f : Nat) (c : Option Ctx) : (pushSet s f c).pwr = s.pwr := rfl
@[simp] theorem pushSet_perf (s : State) (f : Nat) (c : Option Ctx) : (pushSet s f c).perf = s.perf := rfl
@[simp] theorem pushSet_perfStep (s : State) (f : Nat) (c : Option Ctx) : (pushSet s f c).perfStep = s.perfStep := rfl
@[simp] theorem pushSet_perfStop (s : State) (f : Nat) (c : Option Ctx) : (pushSet s f c).perfStop = s.perfStop := rfl
@[simp] theorem pushSet_steps (s : State) (f : Nat) (c : Option Ctx) : (pushSet s f c).steps = s.steps := rfl
@[simp] theorem pushSet_st (s : State) (f : Nat) (c : Option Ctx) : (pushSet s f c).st = s.st := rfl
@[simp] theorem pushClear_pending (s : State) (f : Nat) (g : BitVec 4) : (pushClear s f g).pending = s.pending := rfl
@[simp] theorem pushClear_freeCtr (s : State) (f : Nat) (g : BitVec 4) : (pushClear s f g).freeCtr = s.freeCtr := rfl
@[simp] theorem pushClear_features (s : State) (f : Nat) (g : BitVec 4) : (pushClear s f g).features = s.features := rfl
@[simp] theorem pushClear_powered (s : State) (f : Nat) (g : BitVec 4) : (pushClear s f g).powered = s.powered := rfl
@[simp] theorem pushClear_vcore (s : State) (f : Nat) (g : BitVec 4) : (pushClear s f g).vcore = s.vcore := rfl
@[simp] theorem pushClear_vmem (s : State) (f : Nat) (g : BitVec 4) : (pushClear s f g).vmem = s.vmem := rfl
@[simp] theorem pushClear_rstN (s : State) (f : Nat) (g : BitVec 4) : (pushClear s f g).rstN = s.rstN := rfl
@[simp] theorem pushClear_wir (s : State) (f : Nat) (g : BitVec 4) : (pushClear s f g).wir = s.wir := rfl
@[simp] theorem pushClear_wrap (s : State) (f : Nat) (g : BitVec 4) : (pushClear s f g).wrap = s.wrap := rfl
@[simp] theorem pushClear_testRes (s : State) (f : Nat) (g : BitVec 4) : (pushClear s f g).testRes = s.testRes := rfl
@[simp] theorem pushClear_core (s : State) (f : Nat) (g : BitVec 4) : (pushClear s f g).core = s.core := rfl
@[simp] theorem pushClear_parked (s : State) (f : Nat) (g : BitVec 4) : (pushClear s f g).parked = s.parked := rfl
@[simp] theorem pushClear_serial (s : State) (f : Nat) (g : BitVec 4) : (pushClear s f g).serial = s.serial := rfl
@[simp] theorem pushClear_pwrdom (s : State) (f : Nat) (g : BitVec 4) : (pushClear s f g).pwrdom = s.pwrdom := rfl
@[simp] theorem pushClear_chainAddr (s : State) (f : Nat) (g : BitVec 4) : (pushClear s f g).chainAddr = s.chainAddr := rfl
@[simp] theorem pushClear_seqWr (s : State) (f : Nat) (g : BitVec 4) : (pushClear s f g).seqWr = s.seqWr := rfl
@[simp] theorem pushClear_seqBc (s : State) (f : Nat) (g : BitVec 4) : (pushClear s f g).seqBc = s.seqBc := rfl
@[simp] theorem pushClear_mcOut (s : State) (f : Nat) (g : BitVec 4) : (pushClear s f g).mcOut = s.mcOut := rfl
@[simp] theorem pushClear_cutAddr (s : State) (f : Nat) (g : BitVec 4) : (pushClear s f g).cutAddr = s.cutAddr := rfl
@[simp] theorem pushClear_cutReq (s : State) (f : Nat) (g : BitVec 4) : (pushClear s f g).cutReq = s.cutReq := rfl
@[simp] theorem pushClear_c0 (s : State) (f : Nat) (g : BitVec 4) : (pushClear s f g).c0 = s.c0 := rfl
@[simp] theorem pushClear_c1 (s : State) (f : Nat) (g : BitVec 4) : (pushClear s f g).c1 = s.c1 := rfl
@[simp] theorem pushClear_flags (s : State) (f : Nat) (g : BitVec 4) : (pushClear s f g).flags = s.flags := rfl
@[simp] theorem pushClear_stepSets (s : State) (f : Nat) (g : BitVec 4) : (pushClear s f g).stepSets = s.stepSets := rfl
@[simp] theorem pushClear_stepMarks (s : State) (f : Nat) (g : BitVec 4) : (pushClear s f g).stepMarks = s.stepMarks := rfl
@[simp] theorem pushClear_stepOps (s : State) (f : Nat) (g : BitVec 4) : (pushClear s f g).stepOps = s.stepOps := rfl
@[simp] theorem pushClear_selfFlits (s : State) (f : Nat) (g : BitVec 4) : (pushClear s f g).selfFlits = s.selfFlits := rfl
@[simp] theorem pushClear_syncQ (s : State) (f : Nat) (g : BitVec 4) : (pushClear s f g).syncQ = s.syncQ := rfl
@[simp] theorem pushClear_syncSent (s : State) (f : Nat) (g : BitVec 4) : (pushClear s f g).syncSent = s.syncSent := rfl
@[simp] theorem pushClear_stepSpad (s : State) (f : Nat) (g : BitVec 4) : (pushClear s f g).stepSpad = s.stepSpad := rfl
@[simp] theorem pushClear_stepPages (s : State) (f : Nat) (g : BitVec 4) : (pushClear s f g).stepPages = s.stepPages := rfl
@[simp] theorem pushClear_accOwn (s : State) (f : Nat) (g : BitVec 4) : (pushClear s f g).accOwn = s.accOwn := rfl
@[simp] theorem pushClear_spad (s : State) (f : Nat) (g : BitVec 4) : (pushClear s f g).spad = s.spad := rfl
@[simp] theorem pushClear_spadErr (s : State) (f : Nat) (g : BitVec 4) : (pushClear s f g).spadErr = s.spadErr := rfl
@[simp] theorem pushClear_wbPend (s : State) (f : Nat) (g : BitVec 4) : (pushClear s f g).wbPend = s.wbPend := rfl
@[simp] theorem pushClear_scrub (s : State) (f : Nat) (g : BitVec 4) : (pushClear s f g).scrub = s.scrub := rfl
@[simp] theorem pushClear_checked (s : State) (f : Nat) (g : BitVec 4) : (pushClear s f g).checked = s.checked := rfl
@[simp] theorem pushClear_pages (s : State) (f : Nat) (g : BitVec 4) : (pushClear s f g).pages = s.pages := rfl
@[simp] theorem pushClear_handles (s : State) (f : Nat) (g : BitVec 4) : (pushClear s f g).handles = s.handles := rfl
@[simp] theorem pushClear_acc (s : State) (f : Nat) (g : BitVec 4) : (pushClear s f g).acc = s.acc := rfl
@[simp] theorem pushClear_accErr (s : State) (f : Nat) (g : BitVec 4) : (pushClear s f g).accErr = s.accErr := rfl
@[simp] theorem pushClear_stepAcc (s : State) (f : Nat) (g : BitVec 4) : (pushClear s f g).stepAcc = s.stepAcc := rfl
@[simp] theorem pushClear_mesh (s : State) (f : Nat) (g : BitVec 4) : (pushClear s f g).mesh = s.mesh := rfl
@[simp] theorem pushClear_stat (s : State) (f : Nat) (g : BitVec 4) : (pushClear s f g).stat = s.stat := rfl
@[simp] theorem pushClear_statErr (s : State) (f : Nat) (g : BitVec 4) : (pushClear s f g).statErr = s.statErr := rfl
@[simp] theorem pushClear_imem (s : State) (f : Nat) (g : BitVec 4) : (pushClear s f g).imem = s.imem := rfl
@[simp] theorem pushClear_imemLen (s : State) (f : Nat) (g : BitVec 4) : (pushClear s f g).imemLen = s.imemLen := rfl
@[simp] theorem pushClear_entry (s : State) (f : Nat) (g : BitVec 4) : (pushClear s f g).entry = s.entry := rfl
@[simp] theorem pushClear_dmem (s : State) (f : Nat) (g : BitVec 4) : (pushClear s f g).dmem = s.dmem := rfl
@[simp] theorem pushClear_dmemStep (s : State) (f : Nat) (g : BitVec 4) : (pushClear s f g).dmemStep = s.dmemStep := rfl
@[simp] theorem pushClear_trackers (s : State) (f : Nat) (g : BitVec 4) : (pushClear s f g).trackers = s.trackers := rfl
@[simp] theorem pushClear_stepTrk (s : State) (f : Nat) (g : BitVec 4) : (pushClear s f g).stepTrk = s.stepTrk := rfl
@[simp] theorem pushClear_spadWin (s : State) (f : Nat) (g : BitVec 4) : (pushClear s f g).spadWin = s.spadWin := rfl
@[simp] theorem pushClear_running (s : State) (f : Nat) (g : BitVec 4) : (pushClear s f g).running = s.running := rfl
@[simp] theorem pushClear_nextId (s : State) (f : Nat) (g : BitVec 4) : (pushClear s f g).nextId = s.nextId := rfl
@[simp] theorem pushClear_stepDone (s : State) (f : Nat) (g : BitVec 4) : (pushClear s f g).stepDone = s.stepDone := rfl
@[simp] theorem pushClear_units (s : State) (f : Nat) (g : BitVec 4) : (pushClear s f g).units = s.units := rfl
@[simp] theorem pushClear_outst (s : State) (f : Nat) (g : BitVec 4) : (pushClear s f g).outst = s.outst := rfl
@[simp] theorem pushClear_retired (s : State) (f : Nat) (g : BitVec 4) : (pushClear s f g).retired = s.retired := rfl
@[simp] theorem pushClear_rxTab (s : State) (f : Nat) (g : BitVec 4) : (pushClear s f g).rxTab = s.rxTab := rfl
@[simp] theorem pushClear_winAcks (s : State) (f : Nat) (g : BitVec 4) : (pushClear s f g).winAcks = s.winAcks := rfl
@[simp] theorem pushClear_held (s : State) (f : Nat) (g : BitVec 4) : (pushClear s f g).held = s.held := rfl
@[simp] theorem pushClear_rstDue (s : State) (f : Nat) (g : BitVec 4) : (pushClear s f g).rstDue = s.rstDue := rfl
@[simp] theorem pushClear_winDone (s : State) (f : Nat) (g : BitVec 4) : (pushClear s f g).winDone = s.winDone := rfl
@[simp] theorem pushClear_perfLast (s : State) (f : Nat) (g : BitVec 4) : (pushClear s f g).perfLast = s.perfLast := rfl
@[simp] theorem pushClear_mgmt (s : State) (f : Nat) (g : BitVec 4) : (pushClear s f g).mgmt = s.mgmt := rfl
@[simp] theorem pushClear_pinA (s : State) (f : Nat) (g : BitVec 4) : (pushClear s f g).pinA = s.pinA := rfl
@[simp] theorem pushClear_pinB (s : State) (f : Nat) (g : BitVec 4) : (pushClear s f g).pinB = s.pinB := rfl
@[simp] theorem pushClear_faTx (s : State) (f : Nat) (g : BitVec 4) : (pushClear s f g).faTx = s.faTx := rfl
@[simp] theorem pushClear_fbTx (s : State) (f : Nat) (g : BitVec 4) : (pushClear s f g).fbTx = s.fbTx := rfl
@[simp] theorem pushClear_txA (s : State) (f : Nat) (g : BitVec 4) : (pushClear s f g).txA = s.txA := rfl
@[simp] theorem pushClear_txB (s : State) (f : Nat) (g : BitVec 4) : (pushClear s f g).txB = s.txB := rfl
@[simp] theorem pushClear_rxA (s : State) (f : Nat) (g : BitVec 4) : (pushClear s f g).rxA = s.rxA := rfl
@[simp] theorem pushClear_rxB (s : State) (f : Nat) (g : BitVec 4) : (pushClear s f g).rxB = s.rxB := rfl
@[simp] theorem pushClear_rxS (s : State) (f : Nat) (g : BitVec 4) : (pushClear s f g).rxS = s.rxS := rfl
@[simp] theorem pushClear_linkA (s : State) (f : Nat) (g : BitVec 4) : (pushClear s f g).linkA = s.linkA := rfl
@[simp] theorem pushClear_linkB (s : State) (f : Nat) (g : BitVec 4) : (pushClear s f g).linkB = s.linkB := rfl
@[simp] theorem pushClear_epoch (s : State) (f : Nat) (g : BitVec 4) : (pushClear s f g).epoch = s.epoch := rfl
@[simp] theorem pushClear_ilPtr (s : State) (f : Nat) (g : BitVec 4) : (pushClear s f g).ilPtr = s.ilPtr := rfl
@[simp] theorem pushClear_pstate (s : State) (f : Nat) (g : BitVec 4) : (pushClear s f g).pstate = s.pstate := rfl
@[simp] theorem pushClear_proof (s : State) (f : Nat) (g : BitVec 4) : (pushClear s f g).proof = s.proof := rfl
@[simp] theorem pushClear_bakeOn (s : State) (f : Nat) (g : BitVec 4) : (pushClear s f g).bakeOn = s.bakeOn := rfl
@[simp] theorem pushClear_bake (s : State) (f : Nat) (g : BitVec 4) : (pushClear s f g).bake = s.bake := rfl
@[simp] theorem pushClear_cfg (s : State) (f : Nat) (g : BitVec 4) : (pushClear s f g).cfg = s.cfg := rfl
@[simp] theorem pushClear_setRej (s : State) (f : Nat) (g : BitVec 4) : (pushClear s f g).setRej = s.setRej := rfl
@[simp] theorem pushClear_warnDom (s : State) (f : Nat) (g : BitVec 4) : (pushClear s f g).warnDom = s.warnDom := rfl
@[simp] theorem pushClear_fw (s : State) (f : Nat) (g : BitVec 4) : (pushClear s f g).fw = s.fw := rfl
@[simp] theorem pushClear_sb (s : State) (f : Nat) (g : BitVec 4) : (pushClear s f g).sb = s.sb := rfl
@[simp] theorem pushClear_flt (s : State) (f : Nat) (g : BitVec 4) : (pushClear s f g).flt = s.flt := rfl
@[simp] theorem pushClear_tmr (s : State) (f : Nat) (g : BitVec 4) : (pushClear s f g).tmr = s.tmr := rfl
@[simp] theorem pushClear_pwr (s : State) (f : Nat) (g : BitVec 4) : (pushClear s f g).pwr = s.pwr := rfl
@[simp] theorem pushClear_perf (s : State) (f : Nat) (g : BitVec 4) : (pushClear s f g).perf = s.perf := rfl
@[simp] theorem pushClear_perfStep (s : State) (f : Nat) (g : BitVec 4) : (pushClear s f g).perfStep = s.perfStep := rfl
@[simp] theorem pushClear_perfStop (s : State) (f : Nat) (g : BitVec 4) : (pushClear s f g).perfStop = s.perfStop := rfl
@[simp] theorem pushClear_steps (s : State) (f : Nat) (g : BitVec 4) : (pushClear s f g).steps = s.steps := rfl
@[simp] theorem pushClear_st (s : State) (f : Nat) (g : BitVec 4) : (pushClear s f g).st = s.st := rfl
@[simp] theorem pushSync_pending (s : State) (f : W64) (o : Option Nat) : (pushSync s f o).pending = s.pending := rfl
@[simp] theorem pushSync_freeCtr (s : State) (f : W64) (o : Option Nat) : (pushSync s f o).freeCtr = s.freeCtr := rfl
@[simp] theorem pushSync_features (s : State) (f : W64) (o : Option Nat) : (pushSync s f o).features = s.features := rfl
@[simp] theorem pushSync_powered (s : State) (f : W64) (o : Option Nat) : (pushSync s f o).powered = s.powered := rfl
@[simp] theorem pushSync_vcore (s : State) (f : W64) (o : Option Nat) : (pushSync s f o).vcore = s.vcore := rfl
@[simp] theorem pushSync_vmem (s : State) (f : W64) (o : Option Nat) : (pushSync s f o).vmem = s.vmem := rfl
@[simp] theorem pushSync_rstN (s : State) (f : W64) (o : Option Nat) : (pushSync s f o).rstN = s.rstN := rfl
@[simp] theorem pushSync_wir (s : State) (f : W64) (o : Option Nat) : (pushSync s f o).wir = s.wir := rfl
@[simp] theorem pushSync_wrap (s : State) (f : W64) (o : Option Nat) : (pushSync s f o).wrap = s.wrap := rfl
@[simp] theorem pushSync_testRes (s : State) (f : W64) (o : Option Nat) : (pushSync s f o).testRes = s.testRes := rfl
@[simp] theorem pushSync_core (s : State) (f : W64) (o : Option Nat) : (pushSync s f o).core = s.core := rfl
@[simp] theorem pushSync_parked (s : State) (f : W64) (o : Option Nat) : (pushSync s f o).parked = s.parked := rfl
@[simp] theorem pushSync_serial (s : State) (f : W64) (o : Option Nat) : (pushSync s f o).serial = s.serial := rfl
@[simp] theorem pushSync_pwrdom (s : State) (f : W64) (o : Option Nat) : (pushSync s f o).pwrdom = s.pwrdom := rfl
@[simp] theorem pushSync_chainAddr (s : State) (f : W64) (o : Option Nat) : (pushSync s f o).chainAddr = s.chainAddr := rfl
@[simp] theorem pushSync_seqWr (s : State) (f : W64) (o : Option Nat) : (pushSync s f o).seqWr = s.seqWr := rfl
@[simp] theorem pushSync_seqBc (s : State) (f : W64) (o : Option Nat) : (pushSync s f o).seqBc = s.seqBc := rfl
@[simp] theorem pushSync_mcOut (s : State) (f : W64) (o : Option Nat) : (pushSync s f o).mcOut = s.mcOut := rfl
@[simp] theorem pushSync_cutAddr (s : State) (f : W64) (o : Option Nat) : (pushSync s f o).cutAddr = s.cutAddr := rfl
@[simp] theorem pushSync_cutReq (s : State) (f : W64) (o : Option Nat) : (pushSync s f o).cutReq = s.cutReq := rfl
@[simp] theorem pushSync_c0 (s : State) (f : W64) (o : Option Nat) : (pushSync s f o).c0 = s.c0 := rfl
@[simp] theorem pushSync_c1 (s : State) (f : W64) (o : Option Nat) : (pushSync s f o).c1 = s.c1 := rfl
@[simp] theorem pushSync_flags (s : State) (f : W64) (o : Option Nat) : (pushSync s f o).flags = s.flags := rfl
@[simp] theorem pushSync_stepSets (s : State) (f : W64) (o : Option Nat) : (pushSync s f o).stepSets = s.stepSets := rfl
@[simp] theorem pushSync_stepClears (s : State) (f : W64) (o : Option Nat) : (pushSync s f o).stepClears = s.stepClears := rfl
@[simp] theorem pushSync_stepMarks (s : State) (f : W64) (o : Option Nat) : (pushSync s f o).stepMarks = s.stepMarks := rfl
@[simp] theorem pushSync_stepOps (s : State) (f : W64) (o : Option Nat) : (pushSync s f o).stepOps = s.stepOps := rfl
@[simp] theorem pushSync_selfFlits (s : State) (f : W64) (o : Option Nat) : (pushSync s f o).selfFlits = s.selfFlits := rfl
@[simp] theorem pushSync_syncSent (s : State) (f : W64) (o : Option Nat) : (pushSync s f o).syncSent = s.syncSent := rfl
@[simp] theorem pushSync_stepSpad (s : State) (f : W64) (o : Option Nat) : (pushSync s f o).stepSpad = s.stepSpad := rfl
@[simp] theorem pushSync_stepPages (s : State) (f : W64) (o : Option Nat) : (pushSync s f o).stepPages = s.stepPages := rfl
@[simp] theorem pushSync_accOwn (s : State) (f : W64) (o : Option Nat) : (pushSync s f o).accOwn = s.accOwn := rfl
@[simp] theorem pushSync_spad (s : State) (f : W64) (o : Option Nat) : (pushSync s f o).spad = s.spad := rfl
@[simp] theorem pushSync_spadErr (s : State) (f : W64) (o : Option Nat) : (pushSync s f o).spadErr = s.spadErr := rfl
@[simp] theorem pushSync_wbPend (s : State) (f : W64) (o : Option Nat) : (pushSync s f o).wbPend = s.wbPend := rfl
@[simp] theorem pushSync_scrub (s : State) (f : W64) (o : Option Nat) : (pushSync s f o).scrub = s.scrub := rfl
@[simp] theorem pushSync_checked (s : State) (f : W64) (o : Option Nat) : (pushSync s f o).checked = s.checked := rfl
@[simp] theorem pushSync_pages (s : State) (f : W64) (o : Option Nat) : (pushSync s f o).pages = s.pages := rfl
@[simp] theorem pushSync_handles (s : State) (f : W64) (o : Option Nat) : (pushSync s f o).handles = s.handles := rfl
@[simp] theorem pushSync_acc (s : State) (f : W64) (o : Option Nat) : (pushSync s f o).acc = s.acc := rfl
@[simp] theorem pushSync_accErr (s : State) (f : W64) (o : Option Nat) : (pushSync s f o).accErr = s.accErr := rfl
@[simp] theorem pushSync_stepAcc (s : State) (f : W64) (o : Option Nat) : (pushSync s f o).stepAcc = s.stepAcc := rfl
@[simp] theorem pushSync_mesh (s : State) (f : W64) (o : Option Nat) : (pushSync s f o).mesh = s.mesh := rfl
@[simp] theorem pushSync_stat (s : State) (f : W64) (o : Option Nat) : (pushSync s f o).stat = s.stat := rfl
@[simp] theorem pushSync_statErr (s : State) (f : W64) (o : Option Nat) : (pushSync s f o).statErr = s.statErr := rfl
@[simp] theorem pushSync_imem (s : State) (f : W64) (o : Option Nat) : (pushSync s f o).imem = s.imem := rfl
@[simp] theorem pushSync_imemLen (s : State) (f : W64) (o : Option Nat) : (pushSync s f o).imemLen = s.imemLen := rfl
@[simp] theorem pushSync_entry (s : State) (f : W64) (o : Option Nat) : (pushSync s f o).entry = s.entry := rfl
@[simp] theorem pushSync_dmem (s : State) (f : W64) (o : Option Nat) : (pushSync s f o).dmem = s.dmem := rfl
@[simp] theorem pushSync_dmemStep (s : State) (f : W64) (o : Option Nat) : (pushSync s f o).dmemStep = s.dmemStep := rfl
@[simp] theorem pushSync_trackers (s : State) (f : W64) (o : Option Nat) : (pushSync s f o).trackers = s.trackers := rfl
@[simp] theorem pushSync_stepTrk (s : State) (f : W64) (o : Option Nat) : (pushSync s f o).stepTrk = s.stepTrk := rfl
@[simp] theorem pushSync_spadWin (s : State) (f : W64) (o : Option Nat) : (pushSync s f o).spadWin = s.spadWin := rfl
@[simp] theorem pushSync_running (s : State) (f : W64) (o : Option Nat) : (pushSync s f o).running = s.running := rfl
@[simp] theorem pushSync_nextId (s : State) (f : W64) (o : Option Nat) : (pushSync s f o).nextId = s.nextId := rfl
@[simp] theorem pushSync_stepDone (s : State) (f : W64) (o : Option Nat) : (pushSync s f o).stepDone = s.stepDone := rfl
@[simp] theorem pushSync_units (s : State) (f : W64) (o : Option Nat) : (pushSync s f o).units = s.units := rfl
@[simp] theorem pushSync_outst (s : State) (f : W64) (o : Option Nat) : (pushSync s f o).outst = s.outst := rfl
@[simp] theorem pushSync_retired (s : State) (f : W64) (o : Option Nat) : (pushSync s f o).retired = s.retired := rfl
@[simp] theorem pushSync_rxTab (s : State) (f : W64) (o : Option Nat) : (pushSync s f o).rxTab = s.rxTab := rfl
@[simp] theorem pushSync_winAcks (s : State) (f : W64) (o : Option Nat) : (pushSync s f o).winAcks = s.winAcks := rfl
@[simp] theorem pushSync_held (s : State) (f : W64) (o : Option Nat) : (pushSync s f o).held = s.held := rfl
@[simp] theorem pushSync_rstDue (s : State) (f : W64) (o : Option Nat) : (pushSync s f o).rstDue = s.rstDue := rfl
@[simp] theorem pushSync_winDone (s : State) (f : W64) (o : Option Nat) : (pushSync s f o).winDone = s.winDone := rfl
@[simp] theorem pushSync_perfLast (s : State) (f : W64) (o : Option Nat) : (pushSync s f o).perfLast = s.perfLast := rfl
@[simp] theorem pushSync_mgmt (s : State) (f : W64) (o : Option Nat) : (pushSync s f o).mgmt = s.mgmt := rfl
@[simp] theorem pushSync_pinA (s : State) (f : W64) (o : Option Nat) : (pushSync s f o).pinA = s.pinA := rfl
@[simp] theorem pushSync_pinB (s : State) (f : W64) (o : Option Nat) : (pushSync s f o).pinB = s.pinB := rfl
@[simp] theorem pushSync_faTx (s : State) (f : W64) (o : Option Nat) : (pushSync s f o).faTx = s.faTx := rfl
@[simp] theorem pushSync_fbTx (s : State) (f : W64) (o : Option Nat) : (pushSync s f o).fbTx = s.fbTx := rfl
@[simp] theorem pushSync_txA (s : State) (f : W64) (o : Option Nat) : (pushSync s f o).txA = s.txA := rfl
@[simp] theorem pushSync_txB (s : State) (f : W64) (o : Option Nat) : (pushSync s f o).txB = s.txB := rfl
@[simp] theorem pushSync_rxA (s : State) (f : W64) (o : Option Nat) : (pushSync s f o).rxA = s.rxA := rfl
@[simp] theorem pushSync_rxB (s : State) (f : W64) (o : Option Nat) : (pushSync s f o).rxB = s.rxB := rfl
@[simp] theorem pushSync_rxS (s : State) (f : W64) (o : Option Nat) : (pushSync s f o).rxS = s.rxS := rfl
@[simp] theorem pushSync_linkA (s : State) (f : W64) (o : Option Nat) : (pushSync s f o).linkA = s.linkA := rfl
@[simp] theorem pushSync_linkB (s : State) (f : W64) (o : Option Nat) : (pushSync s f o).linkB = s.linkB := rfl
@[simp] theorem pushSync_epoch (s : State) (f : W64) (o : Option Nat) : (pushSync s f o).epoch = s.epoch := rfl
@[simp] theorem pushSync_ilPtr (s : State) (f : W64) (o : Option Nat) : (pushSync s f o).ilPtr = s.ilPtr := rfl
@[simp] theorem pushSync_pstate (s : State) (f : W64) (o : Option Nat) : (pushSync s f o).pstate = s.pstate := rfl
@[simp] theorem pushSync_proof (s : State) (f : W64) (o : Option Nat) : (pushSync s f o).proof = s.proof := rfl
@[simp] theorem pushSync_bakeOn (s : State) (f : W64) (o : Option Nat) : (pushSync s f o).bakeOn = s.bakeOn := rfl
@[simp] theorem pushSync_bake (s : State) (f : W64) (o : Option Nat) : (pushSync s f o).bake = s.bake := rfl
@[simp] theorem pushSync_cfg (s : State) (f : W64) (o : Option Nat) : (pushSync s f o).cfg = s.cfg := rfl
@[simp] theorem pushSync_setRej (s : State) (f : W64) (o : Option Nat) : (pushSync s f o).setRej = s.setRej := rfl
@[simp] theorem pushSync_warnDom (s : State) (f : W64) (o : Option Nat) : (pushSync s f o).warnDom = s.warnDom := rfl
@[simp] theorem pushSync_fw (s : State) (f : W64) (o : Option Nat) : (pushSync s f o).fw = s.fw := rfl
@[simp] theorem pushSync_sb (s : State) (f : W64) (o : Option Nat) : (pushSync s f o).sb = s.sb := rfl
@[simp] theorem pushSync_flt (s : State) (f : W64) (o : Option Nat) : (pushSync s f o).flt = s.flt := rfl
@[simp] theorem pushSync_tmr (s : State) (f : W64) (o : Option Nat) : (pushSync s f o).tmr = s.tmr := rfl
@[simp] theorem pushSync_pwr (s : State) (f : W64) (o : Option Nat) : (pushSync s f o).pwr = s.pwr := rfl
@[simp] theorem pushSync_perf (s : State) (f : W64) (o : Option Nat) : (pushSync s f o).perf = s.perf := rfl
@[simp] theorem pushSync_perfStep (s : State) (f : W64) (o : Option Nat) : (pushSync s f o).perfStep = s.perfStep := rfl
@[simp] theorem pushSync_perfStop (s : State) (f : W64) (o : Option Nat) : (pushSync s f o).perfStop = s.perfStop := rfl
@[simp] theorem pushSync_steps (s : State) (f : W64) (o : Option Nat) : (pushSync s f o).steps = s.steps := rfl
@[simp] theorem pushSync_st (s : State) (f : W64) (o : Option Nat) : (pushSync s f o).st = s.st := rfl
@[simp] theorem setH_pending (s : State) (h : Nat) (v : Handle) : (setH s h v).pending = s.pending := rfl
@[simp] theorem setH_freeCtr (s : State) (h : Nat) (v : Handle) : (setH s h v).freeCtr = s.freeCtr := rfl
@[simp] theorem setH_features (s : State) (h : Nat) (v : Handle) : (setH s h v).features = s.features := rfl
@[simp] theorem setH_powered (s : State) (h : Nat) (v : Handle) : (setH s h v).powered = s.powered := rfl
@[simp] theorem setH_vcore (s : State) (h : Nat) (v : Handle) : (setH s h v).vcore = s.vcore := rfl
@[simp] theorem setH_vmem (s : State) (h : Nat) (v : Handle) : (setH s h v).vmem = s.vmem := rfl
@[simp] theorem setH_rstN (s : State) (h : Nat) (v : Handle) : (setH s h v).rstN = s.rstN := rfl
@[simp] theorem setH_wir (s : State) (h : Nat) (v : Handle) : (setH s h v).wir = s.wir := rfl
@[simp] theorem setH_wrap (s : State) (h : Nat) (v : Handle) : (setH s h v).wrap = s.wrap := rfl
@[simp] theorem setH_testRes (s : State) (h : Nat) (v : Handle) : (setH s h v).testRes = s.testRes := rfl
@[simp] theorem setH_core (s : State) (h : Nat) (v : Handle) : (setH s h v).core = s.core := rfl
@[simp] theorem setH_parked (s : State) (h : Nat) (v : Handle) : (setH s h v).parked = s.parked := rfl
@[simp] theorem setH_serial (s : State) (h : Nat) (v : Handle) : (setH s h v).serial = s.serial := rfl
@[simp] theorem setH_pwrdom (s : State) (h : Nat) (v : Handle) : (setH s h v).pwrdom = s.pwrdom := rfl
@[simp] theorem setH_chainAddr (s : State) (h : Nat) (v : Handle) : (setH s h v).chainAddr = s.chainAddr := rfl
@[simp] theorem setH_seqWr (s : State) (h : Nat) (v : Handle) : (setH s h v).seqWr = s.seqWr := rfl
@[simp] theorem setH_seqBc (s : State) (h : Nat) (v : Handle) : (setH s h v).seqBc = s.seqBc := rfl
@[simp] theorem setH_mcOut (s : State) (h : Nat) (v : Handle) : (setH s h v).mcOut = s.mcOut := rfl
@[simp] theorem setH_cutAddr (s : State) (h : Nat) (v : Handle) : (setH s h v).cutAddr = s.cutAddr := rfl
@[simp] theorem setH_cutReq (s : State) (h : Nat) (v : Handle) : (setH s h v).cutReq = s.cutReq := rfl
@[simp] theorem setH_c0 (s : State) (h : Nat) (v : Handle) : (setH s h v).c0 = s.c0 := rfl
@[simp] theorem setH_c1 (s : State) (h : Nat) (v : Handle) : (setH s h v).c1 = s.c1 := rfl
@[simp] theorem setH_flags (s : State) (h : Nat) (v : Handle) : (setH s h v).flags = s.flags := rfl
@[simp] theorem setH_stepSets (s : State) (h : Nat) (v : Handle) : (setH s h v).stepSets = s.stepSets := rfl
@[simp] theorem setH_stepClears (s : State) (h : Nat) (v : Handle) : (setH s h v).stepClears = s.stepClears := rfl
@[simp] theorem setH_stepMarks (s : State) (h : Nat) (v : Handle) : (setH s h v).stepMarks = s.stepMarks := rfl
@[simp] theorem setH_stepOps (s : State) (h : Nat) (v : Handle) : (setH s h v).stepOps = s.stepOps := rfl
@[simp] theorem setH_selfFlits (s : State) (h : Nat) (v : Handle) : (setH s h v).selfFlits = s.selfFlits := rfl
@[simp] theorem setH_syncQ (s : State) (h : Nat) (v : Handle) : (setH s h v).syncQ = s.syncQ := rfl
@[simp] theorem setH_syncSent (s : State) (h : Nat) (v : Handle) : (setH s h v).syncSent = s.syncSent := rfl
@[simp] theorem setH_stepSpad (s : State) (h : Nat) (v : Handle) : (setH s h v).stepSpad = s.stepSpad := rfl
@[simp] theorem setH_stepPages (s : State) (h : Nat) (v : Handle) : (setH s h v).stepPages = s.stepPages := rfl
@[simp] theorem setH_accOwn (s : State) (h : Nat) (v : Handle) : (setH s h v).accOwn = s.accOwn := rfl
@[simp] theorem setH_spad (s : State) (h : Nat) (v : Handle) : (setH s h v).spad = s.spad := rfl
@[simp] theorem setH_spadErr (s : State) (h : Nat) (v : Handle) : (setH s h v).spadErr = s.spadErr := rfl
@[simp] theorem setH_wbPend (s : State) (h : Nat) (v : Handle) : (setH s h v).wbPend = s.wbPend := rfl
@[simp] theorem setH_scrub (s : State) (h : Nat) (v : Handle) : (setH s h v).scrub = s.scrub := rfl
@[simp] theorem setH_checked (s : State) (h : Nat) (v : Handle) : (setH s h v).checked = s.checked := rfl
@[simp] theorem setH_pages (s : State) (h : Nat) (v : Handle) : (setH s h v).pages = s.pages := rfl
@[simp] theorem setH_acc (s : State) (h : Nat) (v : Handle) : (setH s h v).acc = s.acc := rfl
@[simp] theorem setH_accErr (s : State) (h : Nat) (v : Handle) : (setH s h v).accErr = s.accErr := rfl
@[simp] theorem setH_stepAcc (s : State) (h : Nat) (v : Handle) : (setH s h v).stepAcc = s.stepAcc := rfl
@[simp] theorem setH_mesh (s : State) (h : Nat) (v : Handle) : (setH s h v).mesh = s.mesh := rfl
@[simp] theorem setH_stat (s : State) (h : Nat) (v : Handle) : (setH s h v).stat = s.stat := rfl
@[simp] theorem setH_statErr (s : State) (h : Nat) (v : Handle) : (setH s h v).statErr = s.statErr := rfl
@[simp] theorem setH_imem (s : State) (h : Nat) (v : Handle) : (setH s h v).imem = s.imem := rfl
@[simp] theorem setH_imemLen (s : State) (h : Nat) (v : Handle) : (setH s h v).imemLen = s.imemLen := rfl
@[simp] theorem setH_entry (s : State) (h : Nat) (v : Handle) : (setH s h v).entry = s.entry := rfl
@[simp] theorem setH_dmem (s : State) (h : Nat) (v : Handle) : (setH s h v).dmem = s.dmem := rfl
@[simp] theorem setH_dmemStep (s : State) (h : Nat) (v : Handle) : (setH s h v).dmemStep = s.dmemStep := rfl
@[simp] theorem setH_trackers (s : State) (h : Nat) (v : Handle) : (setH s h v).trackers = s.trackers := rfl
@[simp] theorem setH_stepTrk (s : State) (h : Nat) (v : Handle) : (setH s h v).stepTrk = s.stepTrk := rfl
@[simp] theorem setH_spadWin (s : State) (h : Nat) (v : Handle) : (setH s h v).spadWin = s.spadWin := rfl
@[simp] theorem setH_running (s : State) (h : Nat) (v : Handle) : (setH s h v).running = s.running := rfl
@[simp] theorem setH_nextId (s : State) (h : Nat) (v : Handle) : (setH s h v).nextId = s.nextId := rfl
@[simp] theorem setH_stepDone (s : State) (h : Nat) (v : Handle) : (setH s h v).stepDone = s.stepDone := rfl
@[simp] theorem setH_units (s : State) (h : Nat) (v : Handle) : (setH s h v).units = s.units := rfl
@[simp] theorem setH_outst (s : State) (h : Nat) (v : Handle) : (setH s h v).outst = s.outst := rfl
@[simp] theorem setH_retired (s : State) (h : Nat) (v : Handle) : (setH s h v).retired = s.retired := rfl
@[simp] theorem setH_rxTab (s : State) (h : Nat) (v : Handle) : (setH s h v).rxTab = s.rxTab := rfl
@[simp] theorem setH_winAcks (s : State) (h : Nat) (v : Handle) : (setH s h v).winAcks = s.winAcks := rfl
@[simp] theorem setH_held (s : State) (h : Nat) (v : Handle) : (setH s h v).held = s.held := rfl
@[simp] theorem setH_rstDue (s : State) (h : Nat) (v : Handle) : (setH s h v).rstDue = s.rstDue := rfl
@[simp] theorem setH_winDone (s : State) (h : Nat) (v : Handle) : (setH s h v).winDone = s.winDone := rfl
@[simp] theorem setH_perfLast (s : State) (h : Nat) (v : Handle) : (setH s h v).perfLast = s.perfLast := rfl
@[simp] theorem setH_mgmt (s : State) (h : Nat) (v : Handle) : (setH s h v).mgmt = s.mgmt := rfl
@[simp] theorem setH_pinA (s : State) (h : Nat) (v : Handle) : (setH s h v).pinA = s.pinA := rfl
@[simp] theorem setH_pinB (s : State) (h : Nat) (v : Handle) : (setH s h v).pinB = s.pinB := rfl
@[simp] theorem setH_faTx (s : State) (h : Nat) (v : Handle) : (setH s h v).faTx = s.faTx := rfl
@[simp] theorem setH_fbTx (s : State) (h : Nat) (v : Handle) : (setH s h v).fbTx = s.fbTx := rfl
@[simp] theorem setH_txA (s : State) (h : Nat) (v : Handle) : (setH s h v).txA = s.txA := rfl
@[simp] theorem setH_txB (s : State) (h : Nat) (v : Handle) : (setH s h v).txB = s.txB := rfl
@[simp] theorem setH_rxA (s : State) (h : Nat) (v : Handle) : (setH s h v).rxA = s.rxA := rfl
@[simp] theorem setH_rxB (s : State) (h : Nat) (v : Handle) : (setH s h v).rxB = s.rxB := rfl
@[simp] theorem setH_rxS (s : State) (h : Nat) (v : Handle) : (setH s h v).rxS = s.rxS := rfl
@[simp] theorem setH_linkA (s : State) (h : Nat) (v : Handle) : (setH s h v).linkA = s.linkA := rfl
@[simp] theorem setH_linkB (s : State) (h : Nat) (v : Handle) : (setH s h v).linkB = s.linkB := rfl
@[simp] theorem setH_epoch (s : State) (h : Nat) (v : Handle) : (setH s h v).epoch = s.epoch := rfl
@[simp] theorem setH_ilPtr (s : State) (h : Nat) (v : Handle) : (setH s h v).ilPtr = s.ilPtr := rfl
@[simp] theorem setH_pstate (s : State) (h : Nat) (v : Handle) : (setH s h v).pstate = s.pstate := rfl
@[simp] theorem setH_proof (s : State) (h : Nat) (v : Handle) : (setH s h v).proof = s.proof := rfl
@[simp] theorem setH_bakeOn (s : State) (h : Nat) (v : Handle) : (setH s h v).bakeOn = s.bakeOn := rfl
@[simp] theorem setH_bake (s : State) (h : Nat) (v : Handle) : (setH s h v).bake = s.bake := rfl
@[simp] theorem setH_cfg (s : State) (h : Nat) (v : Handle) : (setH s h v).cfg = s.cfg := rfl
@[simp] theorem setH_setRej (s : State) (h : Nat) (v : Handle) : (setH s h v).setRej = s.setRej := rfl
@[simp] theorem setH_warnDom (s : State) (h : Nat) (v : Handle) : (setH s h v).warnDom = s.warnDom := rfl
@[simp] theorem setH_fw (s : State) (h : Nat) (v : Handle) : (setH s h v).fw = s.fw := rfl
@[simp] theorem setH_sb (s : State) (h : Nat) (v : Handle) : (setH s h v).sb = s.sb := rfl
@[simp] theorem setH_flt (s : State) (h : Nat) (v : Handle) : (setH s h v).flt = s.flt := rfl
@[simp] theorem setH_tmr (s : State) (h : Nat) (v : Handle) : (setH s h v).tmr = s.tmr := rfl
@[simp] theorem setH_pwr (s : State) (h : Nat) (v : Handle) : (setH s h v).pwr = s.pwr := rfl
@[simp] theorem setH_perf (s : State) (h : Nat) (v : Handle) : (setH s h v).perf = s.perf := rfl
@[simp] theorem setH_perfStep (s : State) (h : Nat) (v : Handle) : (setH s h v).perfStep = s.perfStep := rfl
@[simp] theorem setH_perfStop (s : State) (h : Nat) (v : Handle) : (setH s h v).perfStop = s.perfStop := rfl
@[simp] theorem setH_steps (s : State) (h : Nat) (v : Handle) : (setH s h v).steps = s.steps := rfl
@[simp] theorem setH_st (s : State) (h : Nat) (v : Handle) : (setH s h v).st = s.st := rfl
@[simp] theorem modFlt_pending (s : State) (f : Flt → Flt) : (modFlt s f).pending = s.pending := rfl
@[simp] theorem modFlt_freeCtr (s : State) (f : Flt → Flt) : (modFlt s f).freeCtr = s.freeCtr := rfl
@[simp] theorem modFlt_features (s : State) (f : Flt → Flt) : (modFlt s f).features = s.features := rfl
@[simp] theorem modFlt_powered (s : State) (f : Flt → Flt) : (modFlt s f).powered = s.powered := rfl
@[simp] theorem modFlt_vcore (s : State) (f : Flt → Flt) : (modFlt s f).vcore = s.vcore := rfl
@[simp] theorem modFlt_vmem (s : State) (f : Flt → Flt) : (modFlt s f).vmem = s.vmem := rfl
@[simp] theorem modFlt_rstN (s : State) (f : Flt → Flt) : (modFlt s f).rstN = s.rstN := rfl
@[simp] theorem modFlt_wir (s : State) (f : Flt → Flt) : (modFlt s f).wir = s.wir := rfl
@[simp] theorem modFlt_wrap (s : State) (f : Flt → Flt) : (modFlt s f).wrap = s.wrap := rfl
@[simp] theorem modFlt_testRes (s : State) (f : Flt → Flt) : (modFlt s f).testRes = s.testRes := rfl
@[simp] theorem modFlt_core (s : State) (f : Flt → Flt) : (modFlt s f).core = s.core := rfl
@[simp] theorem modFlt_parked (s : State) (f : Flt → Flt) : (modFlt s f).parked = s.parked := rfl
@[simp] theorem modFlt_serial (s : State) (f : Flt → Flt) : (modFlt s f).serial = s.serial := rfl
@[simp] theorem modFlt_pwrdom (s : State) (f : Flt → Flt) : (modFlt s f).pwrdom = s.pwrdom := rfl
@[simp] theorem modFlt_chainAddr (s : State) (f : Flt → Flt) : (modFlt s f).chainAddr = s.chainAddr := rfl
@[simp] theorem modFlt_seqWr (s : State) (f : Flt → Flt) : (modFlt s f).seqWr = s.seqWr := rfl
@[simp] theorem modFlt_seqBc (s : State) (f : Flt → Flt) : (modFlt s f).seqBc = s.seqBc := rfl
@[simp] theorem modFlt_mcOut (s : State) (f : Flt → Flt) : (modFlt s f).mcOut = s.mcOut := rfl
@[simp] theorem modFlt_cutAddr (s : State) (f : Flt → Flt) : (modFlt s f).cutAddr = s.cutAddr := rfl
@[simp] theorem modFlt_cutReq (s : State) (f : Flt → Flt) : (modFlt s f).cutReq = s.cutReq := rfl
@[simp] theorem modFlt_c0 (s : State) (f : Flt → Flt) : (modFlt s f).c0 = s.c0 := rfl
@[simp] theorem modFlt_c1 (s : State) (f : Flt → Flt) : (modFlt s f).c1 = s.c1 := rfl
@[simp] theorem modFlt_flags (s : State) (f : Flt → Flt) : (modFlt s f).flags = s.flags := rfl
@[simp] theorem modFlt_stepSets (s : State) (f : Flt → Flt) : (modFlt s f).stepSets = s.stepSets := rfl
@[simp] theorem modFlt_stepClears (s : State) (f : Flt → Flt) : (modFlt s f).stepClears = s.stepClears := rfl
@[simp] theorem modFlt_stepMarks (s : State) (f : Flt → Flt) : (modFlt s f).stepMarks = s.stepMarks := rfl
@[simp] theorem modFlt_stepOps (s : State) (f : Flt → Flt) : (modFlt s f).stepOps = s.stepOps := rfl
@[simp] theorem modFlt_selfFlits (s : State) (f : Flt → Flt) : (modFlt s f).selfFlits = s.selfFlits := rfl
@[simp] theorem modFlt_syncQ (s : State) (f : Flt → Flt) : (modFlt s f).syncQ = s.syncQ := rfl
@[simp] theorem modFlt_syncSent (s : State) (f : Flt → Flt) : (modFlt s f).syncSent = s.syncSent := rfl
@[simp] theorem modFlt_stepSpad (s : State) (f : Flt → Flt) : (modFlt s f).stepSpad = s.stepSpad := rfl
@[simp] theorem modFlt_stepPages (s : State) (f : Flt → Flt) : (modFlt s f).stepPages = s.stepPages := rfl
@[simp] theorem modFlt_accOwn (s : State) (f : Flt → Flt) : (modFlt s f).accOwn = s.accOwn := rfl
@[simp] theorem modFlt_spad (s : State) (f : Flt → Flt) : (modFlt s f).spad = s.spad := rfl
@[simp] theorem modFlt_spadErr (s : State) (f : Flt → Flt) : (modFlt s f).spadErr = s.spadErr := rfl
@[simp] theorem modFlt_wbPend (s : State) (f : Flt → Flt) : (modFlt s f).wbPend = s.wbPend := rfl
@[simp] theorem modFlt_scrub (s : State) (f : Flt → Flt) : (modFlt s f).scrub = s.scrub := rfl
@[simp] theorem modFlt_checked (s : State) (f : Flt → Flt) : (modFlt s f).checked = s.checked := rfl
@[simp] theorem modFlt_pages (s : State) (f : Flt → Flt) : (modFlt s f).pages = s.pages := rfl
@[simp] theorem modFlt_handles (s : State) (f : Flt → Flt) : (modFlt s f).handles = s.handles := rfl
@[simp] theorem modFlt_acc (s : State) (f : Flt → Flt) : (modFlt s f).acc = s.acc := rfl
@[simp] theorem modFlt_accErr (s : State) (f : Flt → Flt) : (modFlt s f).accErr = s.accErr := rfl
@[simp] theorem modFlt_stepAcc (s : State) (f : Flt → Flt) : (modFlt s f).stepAcc = s.stepAcc := rfl
@[simp] theorem modFlt_mesh (s : State) (f : Flt → Flt) : (modFlt s f).mesh = s.mesh := rfl
@[simp] theorem modFlt_stat (s : State) (f : Flt → Flt) : (modFlt s f).stat = s.stat := rfl
@[simp] theorem modFlt_statErr (s : State) (f : Flt → Flt) : (modFlt s f).statErr = s.statErr := rfl
@[simp] theorem modFlt_imem (s : State) (f : Flt → Flt) : (modFlt s f).imem = s.imem := rfl
@[simp] theorem modFlt_imemLen (s : State) (f : Flt → Flt) : (modFlt s f).imemLen = s.imemLen := rfl
@[simp] theorem modFlt_entry (s : State) (f : Flt → Flt) : (modFlt s f).entry = s.entry := rfl
@[simp] theorem modFlt_dmem (s : State) (f : Flt → Flt) : (modFlt s f).dmem = s.dmem := rfl
@[simp] theorem modFlt_dmemStep (s : State) (f : Flt → Flt) : (modFlt s f).dmemStep = s.dmemStep := rfl
@[simp] theorem modFlt_trackers (s : State) (f : Flt → Flt) : (modFlt s f).trackers = s.trackers := rfl
@[simp] theorem modFlt_stepTrk (s : State) (f : Flt → Flt) : (modFlt s f).stepTrk = s.stepTrk := rfl
@[simp] theorem modFlt_spadWin (s : State) (f : Flt → Flt) : (modFlt s f).spadWin = s.spadWin := rfl
@[simp] theorem modFlt_running (s : State) (f : Flt → Flt) : (modFlt s f).running = s.running := rfl
@[simp] theorem modFlt_nextId (s : State) (f : Flt → Flt) : (modFlt s f).nextId = s.nextId := rfl
@[simp] theorem modFlt_stepDone (s : State) (f : Flt → Flt) : (modFlt s f).stepDone = s.stepDone := rfl
@[simp] theorem modFlt_units (s : State) (f : Flt → Flt) : (modFlt s f).units = s.units := rfl
@[simp] theorem modFlt_outst (s : State) (f : Flt → Flt) : (modFlt s f).outst = s.outst := rfl
@[simp] theorem modFlt_retired (s : State) (f : Flt → Flt) : (modFlt s f).retired = s.retired := rfl
@[simp] theorem modFlt_rxTab (s : State) (f : Flt → Flt) : (modFlt s f).rxTab = s.rxTab := rfl
@[simp] theorem modFlt_winAcks (s : State) (f : Flt → Flt) : (modFlt s f).winAcks = s.winAcks := rfl
@[simp] theorem modFlt_held (s : State) (f : Flt → Flt) : (modFlt s f).held = s.held := rfl
@[simp] theorem modFlt_rstDue (s : State) (f : Flt → Flt) : (modFlt s f).rstDue = s.rstDue := rfl
@[simp] theorem modFlt_winDone (s : State) (f : Flt → Flt) : (modFlt s f).winDone = s.winDone := rfl
@[simp] theorem modFlt_perfLast (s : State) (f : Flt → Flt) : (modFlt s f).perfLast = s.perfLast := rfl
@[simp] theorem modFlt_mgmt (s : State) (f : Flt → Flt) : (modFlt s f).mgmt = s.mgmt := rfl
@[simp] theorem modFlt_pinA (s : State) (f : Flt → Flt) : (modFlt s f).pinA = s.pinA := rfl
@[simp] theorem modFlt_pinB (s : State) (f : Flt → Flt) : (modFlt s f).pinB = s.pinB := rfl
@[simp] theorem modFlt_faTx (s : State) (f : Flt → Flt) : (modFlt s f).faTx = s.faTx := rfl
@[simp] theorem modFlt_fbTx (s : State) (f : Flt → Flt) : (modFlt s f).fbTx = s.fbTx := rfl
@[simp] theorem modFlt_txA (s : State) (f : Flt → Flt) : (modFlt s f).txA = s.txA := rfl
@[simp] theorem modFlt_txB (s : State) (f : Flt → Flt) : (modFlt s f).txB = s.txB := rfl
@[simp] theorem modFlt_rxA (s : State) (f : Flt → Flt) : (modFlt s f).rxA = s.rxA := rfl
@[simp] theorem modFlt_rxB (s : State) (f : Flt → Flt) : (modFlt s f).rxB = s.rxB := rfl
@[simp] theorem modFlt_rxS (s : State) (f : Flt → Flt) : (modFlt s f).rxS = s.rxS := rfl
@[simp] theorem modFlt_linkA (s : State) (f : Flt → Flt) : (modFlt s f).linkA = s.linkA := rfl
@[simp] theorem modFlt_linkB (s : State) (f : Flt → Flt) : (modFlt s f).linkB = s.linkB := rfl
@[simp] theorem modFlt_epoch (s : State) (f : Flt → Flt) : (modFlt s f).epoch = s.epoch := rfl
@[simp] theorem modFlt_ilPtr (s : State) (f : Flt → Flt) : (modFlt s f).ilPtr = s.ilPtr := rfl
@[simp] theorem modFlt_pstate (s : State) (f : Flt → Flt) : (modFlt s f).pstate = s.pstate := rfl
@[simp] theorem modFlt_proof (s : State) (f : Flt → Flt) : (modFlt s f).proof = s.proof := rfl
@[simp] theorem modFlt_bakeOn (s : State) (f : Flt → Flt) : (modFlt s f).bakeOn = s.bakeOn := rfl
@[simp] theorem modFlt_bake (s : State) (f : Flt → Flt) : (modFlt s f).bake = s.bake := rfl
@[simp] theorem modFlt_cfg (s : State) (f : Flt → Flt) : (modFlt s f).cfg = s.cfg := rfl
@[simp] theorem modFlt_setRej (s : State) (f : Flt → Flt) : (modFlt s f).setRej = s.setRej := rfl
@[simp] theorem modFlt_warnDom (s : State) (f : Flt → Flt) : (modFlt s f).warnDom = s.warnDom := rfl
@[simp] theorem modFlt_fw (s : State) (f : Flt → Flt) : (modFlt s f).fw = s.fw := rfl
@[simp] theorem modFlt_sb (s : State) (f : Flt → Flt) : (modFlt s f).sb = s.sb := rfl
@[simp] theorem modFlt_tmr (s : State) (f : Flt → Flt) : (modFlt s f).tmr = s.tmr := rfl
@[simp] theorem modFlt_pwr (s : State) (f : Flt → Flt) : (modFlt s f).pwr = s.pwr := rfl
@[simp] theorem modFlt_perf (s : State) (f : Flt → Flt) : (modFlt s f).perf = s.perf := rfl
@[simp] theorem modFlt_perfStep (s : State) (f : Flt → Flt) : (modFlt s f).perfStep = s.perfStep := rfl
@[simp] theorem modFlt_perfStop (s : State) (f : Flt → Flt) : (modFlt s f).perfStop = s.perfStop := rfl
@[simp] theorem modFlt_steps (s : State) (f : Flt → Flt) : (modFlt s f).steps = s.steps := rfl
@[simp] theorem modFlt_st (s : State) (f : Flt → Flt) : (modFlt s f).st = s.st := rfl
@[simp] theorem modSb_pending (s : State) (f : StepBlk → StepBlk) : (modSb s f).pending = s.pending := rfl
@[simp] theorem modSb_freeCtr (s : State) (f : StepBlk → StepBlk) : (modSb s f).freeCtr = s.freeCtr := rfl
@[simp] theorem modSb_features (s : State) (f : StepBlk → StepBlk) : (modSb s f).features = s.features := rfl
@[simp] theorem modSb_powered (s : State) (f : StepBlk → StepBlk) : (modSb s f).powered = s.powered := rfl
@[simp] theorem modSb_vcore (s : State) (f : StepBlk → StepBlk) : (modSb s f).vcore = s.vcore := rfl
@[simp] theorem modSb_vmem (s : State) (f : StepBlk → StepBlk) : (modSb s f).vmem = s.vmem := rfl
@[simp] theorem modSb_rstN (s : State) (f : StepBlk → StepBlk) : (modSb s f).rstN = s.rstN := rfl
@[simp] theorem modSb_wir (s : State) (f : StepBlk → StepBlk) : (modSb s f).wir = s.wir := rfl
@[simp] theorem modSb_wrap (s : State) (f : StepBlk → StepBlk) : (modSb s f).wrap = s.wrap := rfl
@[simp] theorem modSb_testRes (s : State) (f : StepBlk → StepBlk) : (modSb s f).testRes = s.testRes := rfl
@[simp] theorem modSb_core (s : State) (f : StepBlk → StepBlk) : (modSb s f).core = s.core := rfl
@[simp] theorem modSb_parked (s : State) (f : StepBlk → StepBlk) : (modSb s f).parked = s.parked := rfl
@[simp] theorem modSb_serial (s : State) (f : StepBlk → StepBlk) : (modSb s f).serial = s.serial := rfl
@[simp] theorem modSb_pwrdom (s : State) (f : StepBlk → StepBlk) : (modSb s f).pwrdom = s.pwrdom := rfl
@[simp] theorem modSb_chainAddr (s : State) (f : StepBlk → StepBlk) : (modSb s f).chainAddr = s.chainAddr := rfl
@[simp] theorem modSb_seqWr (s : State) (f : StepBlk → StepBlk) : (modSb s f).seqWr = s.seqWr := rfl
@[simp] theorem modSb_seqBc (s : State) (f : StepBlk → StepBlk) : (modSb s f).seqBc = s.seqBc := rfl
@[simp] theorem modSb_mcOut (s : State) (f : StepBlk → StepBlk) : (modSb s f).mcOut = s.mcOut := rfl
@[simp] theorem modSb_cutAddr (s : State) (f : StepBlk → StepBlk) : (modSb s f).cutAddr = s.cutAddr := rfl
@[simp] theorem modSb_cutReq (s : State) (f : StepBlk → StepBlk) : (modSb s f).cutReq = s.cutReq := rfl
@[simp] theorem modSb_c0 (s : State) (f : StepBlk → StepBlk) : (modSb s f).c0 = s.c0 := rfl
@[simp] theorem modSb_c1 (s : State) (f : StepBlk → StepBlk) : (modSb s f).c1 = s.c1 := rfl
@[simp] theorem modSb_flags (s : State) (f : StepBlk → StepBlk) : (modSb s f).flags = s.flags := rfl
@[simp] theorem modSb_stepSets (s : State) (f : StepBlk → StepBlk) : (modSb s f).stepSets = s.stepSets := rfl
@[simp] theorem modSb_stepClears (s : State) (f : StepBlk → StepBlk) : (modSb s f).stepClears = s.stepClears := rfl
@[simp] theorem modSb_stepMarks (s : State) (f : StepBlk → StepBlk) : (modSb s f).stepMarks = s.stepMarks := rfl
@[simp] theorem modSb_stepOps (s : State) (f : StepBlk → StepBlk) : (modSb s f).stepOps = s.stepOps := rfl
@[simp] theorem modSb_selfFlits (s : State) (f : StepBlk → StepBlk) : (modSb s f).selfFlits = s.selfFlits := rfl
@[simp] theorem modSb_syncQ (s : State) (f : StepBlk → StepBlk) : (modSb s f).syncQ = s.syncQ := rfl
@[simp] theorem modSb_syncSent (s : State) (f : StepBlk → StepBlk) : (modSb s f).syncSent = s.syncSent := rfl
@[simp] theorem modSb_stepSpad (s : State) (f : StepBlk → StepBlk) : (modSb s f).stepSpad = s.stepSpad := rfl
@[simp] theorem modSb_stepPages (s : State) (f : StepBlk → StepBlk) : (modSb s f).stepPages = s.stepPages := rfl
@[simp] theorem modSb_accOwn (s : State) (f : StepBlk → StepBlk) : (modSb s f).accOwn = s.accOwn := rfl
@[simp] theorem modSb_spad (s : State) (f : StepBlk → StepBlk) : (modSb s f).spad = s.spad := rfl
@[simp] theorem modSb_spadErr (s : State) (f : StepBlk → StepBlk) : (modSb s f).spadErr = s.spadErr := rfl
@[simp] theorem modSb_wbPend (s : State) (f : StepBlk → StepBlk) : (modSb s f).wbPend = s.wbPend := rfl
@[simp] theorem modSb_scrub (s : State) (f : StepBlk → StepBlk) : (modSb s f).scrub = s.scrub := rfl
@[simp] theorem modSb_checked (s : State) (f : StepBlk → StepBlk) : (modSb s f).checked = s.checked := rfl
@[simp] theorem modSb_pages (s : State) (f : StepBlk → StepBlk) : (modSb s f).pages = s.pages := rfl
@[simp] theorem modSb_handles (s : State) (f : StepBlk → StepBlk) : (modSb s f).handles = s.handles := rfl
@[simp] theorem modSb_acc (s : State) (f : StepBlk → StepBlk) : (modSb s f).acc = s.acc := rfl
@[simp] theorem modSb_accErr (s : State) (f : StepBlk → StepBlk) : (modSb s f).accErr = s.accErr := rfl
@[simp] theorem modSb_stepAcc (s : State) (f : StepBlk → StepBlk) : (modSb s f).stepAcc = s.stepAcc := rfl
@[simp] theorem modSb_mesh (s : State) (f : StepBlk → StepBlk) : (modSb s f).mesh = s.mesh := rfl
@[simp] theorem modSb_stat (s : State) (f : StepBlk → StepBlk) : (modSb s f).stat = s.stat := rfl
@[simp] theorem modSb_statErr (s : State) (f : StepBlk → StepBlk) : (modSb s f).statErr = s.statErr := rfl
@[simp] theorem modSb_imem (s : State) (f : StepBlk → StepBlk) : (modSb s f).imem = s.imem := rfl
@[simp] theorem modSb_imemLen (s : State) (f : StepBlk → StepBlk) : (modSb s f).imemLen = s.imemLen := rfl
@[simp] theorem modSb_entry (s : State) (f : StepBlk → StepBlk) : (modSb s f).entry = s.entry := rfl
@[simp] theorem modSb_dmem (s : State) (f : StepBlk → StepBlk) : (modSb s f).dmem = s.dmem := rfl
@[simp] theorem modSb_dmemStep (s : State) (f : StepBlk → StepBlk) : (modSb s f).dmemStep = s.dmemStep := rfl
@[simp] theorem modSb_trackers (s : State) (f : StepBlk → StepBlk) : (modSb s f).trackers = s.trackers := rfl
@[simp] theorem modSb_stepTrk (s : State) (f : StepBlk → StepBlk) : (modSb s f).stepTrk = s.stepTrk := rfl
@[simp] theorem modSb_spadWin (s : State) (f : StepBlk → StepBlk) : (modSb s f).spadWin = s.spadWin := rfl
@[simp] theorem modSb_running (s : State) (f : StepBlk → StepBlk) : (modSb s f).running = s.running := rfl
@[simp] theorem modSb_nextId (s : State) (f : StepBlk → StepBlk) : (modSb s f).nextId = s.nextId := rfl
@[simp] theorem modSb_stepDone (s : State) (f : StepBlk → StepBlk) : (modSb s f).stepDone = s.stepDone := rfl
@[simp] theorem modSb_units (s : State) (f : StepBlk → StepBlk) : (modSb s f).units = s.units := rfl
@[simp] theorem modSb_outst (s : State) (f : StepBlk → StepBlk) : (modSb s f).outst = s.outst := rfl
@[simp] theorem modSb_retired (s : State) (f : StepBlk → StepBlk) : (modSb s f).retired = s.retired := rfl
@[simp] theorem modSb_rxTab (s : State) (f : StepBlk → StepBlk) : (modSb s f).rxTab = s.rxTab := rfl
@[simp] theorem modSb_winAcks (s : State) (f : StepBlk → StepBlk) : (modSb s f).winAcks = s.winAcks := rfl
@[simp] theorem modSb_held (s : State) (f : StepBlk → StepBlk) : (modSb s f).held = s.held := rfl
@[simp] theorem modSb_rstDue (s : State) (f : StepBlk → StepBlk) : (modSb s f).rstDue = s.rstDue := rfl
@[simp] theorem modSb_winDone (s : State) (f : StepBlk → StepBlk) : (modSb s f).winDone = s.winDone := rfl
@[simp] theorem modSb_perfLast (s : State) (f : StepBlk → StepBlk) : (modSb s f).perfLast = s.perfLast := rfl
@[simp] theorem modSb_mgmt (s : State) (f : StepBlk → StepBlk) : (modSb s f).mgmt = s.mgmt := rfl
@[simp] theorem modSb_pinA (s : State) (f : StepBlk → StepBlk) : (modSb s f).pinA = s.pinA := rfl
@[simp] theorem modSb_pinB (s : State) (f : StepBlk → StepBlk) : (modSb s f).pinB = s.pinB := rfl
@[simp] theorem modSb_faTx (s : State) (f : StepBlk → StepBlk) : (modSb s f).faTx = s.faTx := rfl
@[simp] theorem modSb_fbTx (s : State) (f : StepBlk → StepBlk) : (modSb s f).fbTx = s.fbTx := rfl
@[simp] theorem modSb_txA (s : State) (f : StepBlk → StepBlk) : (modSb s f).txA = s.txA := rfl
@[simp] theorem modSb_txB (s : State) (f : StepBlk → StepBlk) : (modSb s f).txB = s.txB := rfl
@[simp] theorem modSb_rxA (s : State) (f : StepBlk → StepBlk) : (modSb s f).rxA = s.rxA := rfl
@[simp] theorem modSb_rxB (s : State) (f : StepBlk → StepBlk) : (modSb s f).rxB = s.rxB := rfl
@[simp] theorem modSb_rxS (s : State) (f : StepBlk → StepBlk) : (modSb s f).rxS = s.rxS := rfl
@[simp] theorem modSb_linkA (s : State) (f : StepBlk → StepBlk) : (modSb s f).linkA = s.linkA := rfl
@[simp] theorem modSb_linkB (s : State) (f : StepBlk → StepBlk) : (modSb s f).linkB = s.linkB := rfl
@[simp] theorem modSb_epoch (s : State) (f : StepBlk → StepBlk) : (modSb s f).epoch = s.epoch := rfl
@[simp] theorem modSb_ilPtr (s : State) (f : StepBlk → StepBlk) : (modSb s f).ilPtr = s.ilPtr := rfl
@[simp] theorem modSb_pstate (s : State) (f : StepBlk → StepBlk) : (modSb s f).pstate = s.pstate := rfl
@[simp] theorem modSb_proof (s : State) (f : StepBlk → StepBlk) : (modSb s f).proof = s.proof := rfl
@[simp] theorem modSb_bakeOn (s : State) (f : StepBlk → StepBlk) : (modSb s f).bakeOn = s.bakeOn := rfl
@[simp] theorem modSb_bake (s : State) (f : StepBlk → StepBlk) : (modSb s f).bake = s.bake := rfl
@[simp] theorem modSb_cfg (s : State) (f : StepBlk → StepBlk) : (modSb s f).cfg = s.cfg := rfl
@[simp] theorem modSb_setRej (s : State) (f : StepBlk → StepBlk) : (modSb s f).setRej = s.setRej := rfl
@[simp] theorem modSb_warnDom (s : State) (f : StepBlk → StepBlk) : (modSb s f).warnDom = s.warnDom := rfl
@[simp] theorem modSb_fw (s : State) (f : StepBlk → StepBlk) : (modSb s f).fw = s.fw := rfl
@[simp] theorem modSb_flt (s : State) (f : StepBlk → StepBlk) : (modSb s f).flt = s.flt := rfl
@[simp] theorem modSb_tmr (s : State) (f : StepBlk → StepBlk) : (modSb s f).tmr = s.tmr := rfl
@[simp] theorem modSb_pwr (s : State) (f : StepBlk → StepBlk) : (modSb s f).pwr = s.pwr := rfl
@[simp] theorem modSb_perf (s : State) (f : StepBlk → StepBlk) : (modSb s f).perf = s.perf := rfl
@[simp] theorem modSb_perfStep (s : State) (f : StepBlk → StepBlk) : (modSb s f).perfStep = s.perfStep := rfl
@[simp] theorem modSb_perfStop (s : State) (f : StepBlk → StepBlk) : (modSb s f).perfStop = s.perfStop := rfl
@[simp] theorem modSb_steps (s : State) (f : StepBlk → StepBlk) : (modSb s f).steps = s.steps := rfl
@[simp] theorem modSb_st (s : State) (f : StepBlk → StepBlk) : (modSb s f).st = s.st := rfl
@[simp] theorem modSt_pending (s : State) (f : Starter → Starter) : (modSt s f).pending = s.pending := rfl
@[simp] theorem modSt_freeCtr (s : State) (f : Starter → Starter) : (modSt s f).freeCtr = s.freeCtr := rfl
@[simp] theorem modSt_features (s : State) (f : Starter → Starter) : (modSt s f).features = s.features := rfl
@[simp] theorem modSt_powered (s : State) (f : Starter → Starter) : (modSt s f).powered = s.powered := rfl
@[simp] theorem modSt_vcore (s : State) (f : Starter → Starter) : (modSt s f).vcore = s.vcore := rfl
@[simp] theorem modSt_vmem (s : State) (f : Starter → Starter) : (modSt s f).vmem = s.vmem := rfl
@[simp] theorem modSt_rstN (s : State) (f : Starter → Starter) : (modSt s f).rstN = s.rstN := rfl
@[simp] theorem modSt_wir (s : State) (f : Starter → Starter) : (modSt s f).wir = s.wir := rfl
@[simp] theorem modSt_wrap (s : State) (f : Starter → Starter) : (modSt s f).wrap = s.wrap := rfl
@[simp] theorem modSt_testRes (s : State) (f : Starter → Starter) : (modSt s f).testRes = s.testRes := rfl
@[simp] theorem modSt_core (s : State) (f : Starter → Starter) : (modSt s f).core = s.core := rfl
@[simp] theorem modSt_parked (s : State) (f : Starter → Starter) : (modSt s f).parked = s.parked := rfl
@[simp] theorem modSt_serial (s : State) (f : Starter → Starter) : (modSt s f).serial = s.serial := rfl
@[simp] theorem modSt_pwrdom (s : State) (f : Starter → Starter) : (modSt s f).pwrdom = s.pwrdom := rfl
@[simp] theorem modSt_chainAddr (s : State) (f : Starter → Starter) : (modSt s f).chainAddr = s.chainAddr := rfl
@[simp] theorem modSt_seqWr (s : State) (f : Starter → Starter) : (modSt s f).seqWr = s.seqWr := rfl
@[simp] theorem modSt_seqBc (s : State) (f : Starter → Starter) : (modSt s f).seqBc = s.seqBc := rfl
@[simp] theorem modSt_mcOut (s : State) (f : Starter → Starter) : (modSt s f).mcOut = s.mcOut := rfl
@[simp] theorem modSt_cutAddr (s : State) (f : Starter → Starter) : (modSt s f).cutAddr = s.cutAddr := rfl
@[simp] theorem modSt_cutReq (s : State) (f : Starter → Starter) : (modSt s f).cutReq = s.cutReq := rfl
@[simp] theorem modSt_c0 (s : State) (f : Starter → Starter) : (modSt s f).c0 = s.c0 := rfl
@[simp] theorem modSt_c1 (s : State) (f : Starter → Starter) : (modSt s f).c1 = s.c1 := rfl
@[simp] theorem modSt_flags (s : State) (f : Starter → Starter) : (modSt s f).flags = s.flags := rfl
@[simp] theorem modSt_stepSets (s : State) (f : Starter → Starter) : (modSt s f).stepSets = s.stepSets := rfl
@[simp] theorem modSt_stepClears (s : State) (f : Starter → Starter) : (modSt s f).stepClears = s.stepClears := rfl
@[simp] theorem modSt_stepMarks (s : State) (f : Starter → Starter) : (modSt s f).stepMarks = s.stepMarks := rfl
@[simp] theorem modSt_stepOps (s : State) (f : Starter → Starter) : (modSt s f).stepOps = s.stepOps := rfl
@[simp] theorem modSt_selfFlits (s : State) (f : Starter → Starter) : (modSt s f).selfFlits = s.selfFlits := rfl
@[simp] theorem modSt_syncQ (s : State) (f : Starter → Starter) : (modSt s f).syncQ = s.syncQ := rfl
@[simp] theorem modSt_syncSent (s : State) (f : Starter → Starter) : (modSt s f).syncSent = s.syncSent := rfl
@[simp] theorem modSt_stepSpad (s : State) (f : Starter → Starter) : (modSt s f).stepSpad = s.stepSpad := rfl
@[simp] theorem modSt_stepPages (s : State) (f : Starter → Starter) : (modSt s f).stepPages = s.stepPages := rfl
@[simp] theorem modSt_accOwn (s : State) (f : Starter → Starter) : (modSt s f).accOwn = s.accOwn := rfl
@[simp] theorem modSt_spad (s : State) (f : Starter → Starter) : (modSt s f).spad = s.spad := rfl
@[simp] theorem modSt_spadErr (s : State) (f : Starter → Starter) : (modSt s f).spadErr = s.spadErr := rfl
@[simp] theorem modSt_wbPend (s : State) (f : Starter → Starter) : (modSt s f).wbPend = s.wbPend := rfl
@[simp] theorem modSt_scrub (s : State) (f : Starter → Starter) : (modSt s f).scrub = s.scrub := rfl
@[simp] theorem modSt_checked (s : State) (f : Starter → Starter) : (modSt s f).checked = s.checked := rfl
@[simp] theorem modSt_pages (s : State) (f : Starter → Starter) : (modSt s f).pages = s.pages := rfl
@[simp] theorem modSt_handles (s : State) (f : Starter → Starter) : (modSt s f).handles = s.handles := rfl
@[simp] theorem modSt_acc (s : State) (f : Starter → Starter) : (modSt s f).acc = s.acc := rfl
@[simp] theorem modSt_accErr (s : State) (f : Starter → Starter) : (modSt s f).accErr = s.accErr := rfl
@[simp] theorem modSt_stepAcc (s : State) (f : Starter → Starter) : (modSt s f).stepAcc = s.stepAcc := rfl
@[simp] theorem modSt_mesh (s : State) (f : Starter → Starter) : (modSt s f).mesh = s.mesh := rfl
@[simp] theorem modSt_stat (s : State) (f : Starter → Starter) : (modSt s f).stat = s.stat := rfl
@[simp] theorem modSt_statErr (s : State) (f : Starter → Starter) : (modSt s f).statErr = s.statErr := rfl
@[simp] theorem modSt_imem (s : State) (f : Starter → Starter) : (modSt s f).imem = s.imem := rfl
@[simp] theorem modSt_imemLen (s : State) (f : Starter → Starter) : (modSt s f).imemLen = s.imemLen := rfl
@[simp] theorem modSt_entry (s : State) (f : Starter → Starter) : (modSt s f).entry = s.entry := rfl
@[simp] theorem modSt_dmem (s : State) (f : Starter → Starter) : (modSt s f).dmem = s.dmem := rfl
@[simp] theorem modSt_dmemStep (s : State) (f : Starter → Starter) : (modSt s f).dmemStep = s.dmemStep := rfl
@[simp] theorem modSt_trackers (s : State) (f : Starter → Starter) : (modSt s f).trackers = s.trackers := rfl
@[simp] theorem modSt_stepTrk (s : State) (f : Starter → Starter) : (modSt s f).stepTrk = s.stepTrk := rfl
@[simp] theorem modSt_spadWin (s : State) (f : Starter → Starter) : (modSt s f).spadWin = s.spadWin := rfl
@[simp] theorem modSt_running (s : State) (f : Starter → Starter) : (modSt s f).running = s.running := rfl
@[simp] theorem modSt_nextId (s : State) (f : Starter → Starter) : (modSt s f).nextId = s.nextId := rfl
@[simp] theorem modSt_stepDone (s : State) (f : Starter → Starter) : (modSt s f).stepDone = s.stepDone := rfl
@[simp] theorem modSt_units (s : State) (f : Starter → Starter) : (modSt s f).units = s.units := rfl
@[simp] theorem modSt_outst (s : State) (f : Starter → Starter) : (modSt s f).outst = s.outst := rfl
@[simp] theorem modSt_retired (s : State) (f : Starter → Starter) : (modSt s f).retired = s.retired := rfl
@[simp] theorem modSt_rxTab (s : State) (f : Starter → Starter) : (modSt s f).rxTab = s.rxTab := rfl
@[simp] theorem modSt_winAcks (s : State) (f : Starter → Starter) : (modSt s f).winAcks = s.winAcks := rfl
@[simp] theorem modSt_held (s : State) (f : Starter → Starter) : (modSt s f).held = s.held := rfl
@[simp] theorem modSt_rstDue (s : State) (f : Starter → Starter) : (modSt s f).rstDue = s.rstDue := rfl
@[simp] theorem modSt_winDone (s : State) (f : Starter → Starter) : (modSt s f).winDone = s.winDone := rfl
@[simp] theorem modSt_perfLast (s : State) (f : Starter → Starter) : (modSt s f).perfLast = s.perfLast := rfl
@[simp] theorem modSt_mgmt (s : State) (f : Starter → Starter) : (modSt s f).mgmt = s.mgmt := rfl
@[simp] theorem modSt_pinA (s : State) (f : Starter → Starter) : (modSt s f).pinA = s.pinA := rfl
@[simp] theorem modSt_pinB (s : State) (f : Starter → Starter) : (modSt s f).pinB = s.pinB := rfl
@[simp] theorem modSt_faTx (s : State) (f : Starter → Starter) : (modSt s f).faTx = s.faTx := rfl
@[simp] theorem modSt_fbTx (s : State) (f : Starter → Starter) : (modSt s f).fbTx = s.fbTx := rfl
@[simp] theorem modSt_txA (s : State) (f : Starter → Starter) : (modSt s f).txA = s.txA := rfl
@[simp] theorem modSt_txB (s : State) (f : Starter → Starter) : (modSt s f).txB = s.txB := rfl
@[simp] theorem modSt_rxA (s : State) (f : Starter → Starter) : (modSt s f).rxA = s.rxA := rfl
@[simp] theorem modSt_rxB (s : State) (f : Starter → Starter) : (modSt s f).rxB = s.rxB := rfl
@[simp] theorem modSt_rxS (s : State) (f : Starter → Starter) : (modSt s f).rxS = s.rxS := rfl
@[simp] theorem modSt_linkA (s : State) (f : Starter → Starter) : (modSt s f).linkA = s.linkA := rfl
@[simp] theorem modSt_linkB (s : State) (f : Starter → Starter) : (modSt s f).linkB = s.linkB := rfl
@[simp] theorem modSt_epoch (s : State) (f : Starter → Starter) : (modSt s f).epoch = s.epoch := rfl
@[simp] theorem modSt_ilPtr (s : State) (f : Starter → Starter) : (modSt s f).ilPtr = s.ilPtr := rfl
@[simp] theorem modSt_pstate (s : State) (f : Starter → Starter) : (modSt s f).pstate = s.pstate := rfl
@[simp] theorem modSt_proof (s : State) (f : Starter → Starter) : (modSt s f).proof = s.proof := rfl
@[simp] theorem modSt_bakeOn (s : State) (f : Starter → Starter) : (modSt s f).bakeOn = s.bakeOn := rfl
@[simp] theorem modSt_bake (s : State) (f : Starter → Starter) : (modSt s f).bake = s.bake := rfl
@[simp] theorem modSt_cfg (s : State) (f : Starter → Starter) : (modSt s f).cfg = s.cfg := rfl
@[simp] theorem modSt_setRej (s : State) (f : Starter → Starter) : (modSt s f).setRej = s.setRej := rfl
@[simp] theorem modSt_warnDom (s : State) (f : Starter → Starter) : (modSt s f).warnDom = s.warnDom := rfl
@[simp] theorem modSt_fw (s : State) (f : Starter → Starter) : (modSt s f).fw = s.fw := rfl
@[simp] theorem modSt_sb (s : State) (f : Starter → Starter) : (modSt s f).sb = s.sb := rfl
@[simp] theorem modSt_flt (s : State) (f : Starter → Starter) : (modSt s f).flt = s.flt := rfl
@[simp] theorem modSt_tmr (s : State) (f : Starter → Starter) : (modSt s f).tmr = s.tmr := rfl
@[simp] theorem modSt_pwr (s : State) (f : Starter → Starter) : (modSt s f).pwr = s.pwr := rfl
@[simp] theorem modSt_perf (s : State) (f : Starter → Starter) : (modSt s f).perf = s.perf := rfl
@[simp] theorem modSt_perfStep (s : State) (f : Starter → Starter) : (modSt s f).perfStep = s.perfStep := rfl
@[simp] theorem modSt_perfStop (s : State) (f : Starter → Starter) : (modSt s f).perfStop = s.perfStop := rfl
@[simp] theorem modSt_steps (s : State) (f : Starter → Starter) : (modSt s f).steps = s.steps := rfl
@[simp] theorem modTmr_pending (s : State) (f : Tmr → Tmr) : (modTmr s f).pending = s.pending := rfl
@[simp] theorem modTmr_freeCtr (s : State) (f : Tmr → Tmr) : (modTmr s f).freeCtr = s.freeCtr := rfl
@[simp] theorem modTmr_features (s : State) (f : Tmr → Tmr) : (modTmr s f).features = s.features := rfl
@[simp] theorem modTmr_powered (s : State) (f : Tmr → Tmr) : (modTmr s f).powered = s.powered := rfl
@[simp] theorem modTmr_vcore (s : State) (f : Tmr → Tmr) : (modTmr s f).vcore = s.vcore := rfl
@[simp] theorem modTmr_vmem (s : State) (f : Tmr → Tmr) : (modTmr s f).vmem = s.vmem := rfl
@[simp] theorem modTmr_rstN (s : State) (f : Tmr → Tmr) : (modTmr s f).rstN = s.rstN := rfl
@[simp] theorem modTmr_wir (s : State) (f : Tmr → Tmr) : (modTmr s f).wir = s.wir := rfl
@[simp] theorem modTmr_wrap (s : State) (f : Tmr → Tmr) : (modTmr s f).wrap = s.wrap := rfl
@[simp] theorem modTmr_testRes (s : State) (f : Tmr → Tmr) : (modTmr s f).testRes = s.testRes := rfl
@[simp] theorem modTmr_core (s : State) (f : Tmr → Tmr) : (modTmr s f).core = s.core := rfl
@[simp] theorem modTmr_parked (s : State) (f : Tmr → Tmr) : (modTmr s f).parked = s.parked := rfl
@[simp] theorem modTmr_serial (s : State) (f : Tmr → Tmr) : (modTmr s f).serial = s.serial := rfl
@[simp] theorem modTmr_pwrdom (s : State) (f : Tmr → Tmr) : (modTmr s f).pwrdom = s.pwrdom := rfl
@[simp] theorem modTmr_chainAddr (s : State) (f : Tmr → Tmr) : (modTmr s f).chainAddr = s.chainAddr := rfl
@[simp] theorem modTmr_seqWr (s : State) (f : Tmr → Tmr) : (modTmr s f).seqWr = s.seqWr := rfl
@[simp] theorem modTmr_seqBc (s : State) (f : Tmr → Tmr) : (modTmr s f).seqBc = s.seqBc := rfl
@[simp] theorem modTmr_mcOut (s : State) (f : Tmr → Tmr) : (modTmr s f).mcOut = s.mcOut := rfl
@[simp] theorem modTmr_cutAddr (s : State) (f : Tmr → Tmr) : (modTmr s f).cutAddr = s.cutAddr := rfl
@[simp] theorem modTmr_cutReq (s : State) (f : Tmr → Tmr) : (modTmr s f).cutReq = s.cutReq := rfl
@[simp] theorem modTmr_c0 (s : State) (f : Tmr → Tmr) : (modTmr s f).c0 = s.c0 := rfl
@[simp] theorem modTmr_c1 (s : State) (f : Tmr → Tmr) : (modTmr s f).c1 = s.c1 := rfl
@[simp] theorem modTmr_flags (s : State) (f : Tmr → Tmr) : (modTmr s f).flags = s.flags := rfl
@[simp] theorem modTmr_stepSets (s : State) (f : Tmr → Tmr) : (modTmr s f).stepSets = s.stepSets := rfl
@[simp] theorem modTmr_stepClears (s : State) (f : Tmr → Tmr) : (modTmr s f).stepClears = s.stepClears := rfl
@[simp] theorem modTmr_stepMarks (s : State) (f : Tmr → Tmr) : (modTmr s f).stepMarks = s.stepMarks := rfl
@[simp] theorem modTmr_stepOps (s : State) (f : Tmr → Tmr) : (modTmr s f).stepOps = s.stepOps := rfl
@[simp] theorem modTmr_selfFlits (s : State) (f : Tmr → Tmr) : (modTmr s f).selfFlits = s.selfFlits := rfl
@[simp] theorem modTmr_syncQ (s : State) (f : Tmr → Tmr) : (modTmr s f).syncQ = s.syncQ := rfl
@[simp] theorem modTmr_syncSent (s : State) (f : Tmr → Tmr) : (modTmr s f).syncSent = s.syncSent := rfl
@[simp] theorem modTmr_stepSpad (s : State) (f : Tmr → Tmr) : (modTmr s f).stepSpad = s.stepSpad := rfl
@[simp] theorem modTmr_stepPages (s : State) (f : Tmr → Tmr) : (modTmr s f).stepPages = s.stepPages := rfl
@[simp] theorem modTmr_accOwn (s : State) (f : Tmr → Tmr) : (modTmr s f).accOwn = s.accOwn := rfl
@[simp] theorem modTmr_spad (s : State) (f : Tmr → Tmr) : (modTmr s f).spad = s.spad := rfl
@[simp] theorem modTmr_spadErr (s : State) (f : Tmr → Tmr) : (modTmr s f).spadErr = s.spadErr := rfl
@[simp] theorem modTmr_wbPend (s : State) (f : Tmr → Tmr) : (modTmr s f).wbPend = s.wbPend := rfl
@[simp] theorem modTmr_scrub (s : State) (f : Tmr → Tmr) : (modTmr s f).scrub = s.scrub := rfl
@[simp] theorem modTmr_checked (s : State) (f : Tmr → Tmr) : (modTmr s f).checked = s.checked := rfl
@[simp] theorem modTmr_pages (s : State) (f : Tmr → Tmr) : (modTmr s f).pages = s.pages := rfl
@[simp] theorem modTmr_handles (s : State) (f : Tmr → Tmr) : (modTmr s f).handles = s.handles := rfl
@[simp] theorem modTmr_acc (s : State) (f : Tmr → Tmr) : (modTmr s f).acc = s.acc := rfl
@[simp] theorem modTmr_accErr (s : State) (f : Tmr → Tmr) : (modTmr s f).accErr = s.accErr := rfl
@[simp] theorem modTmr_stepAcc (s : State) (f : Tmr → Tmr) : (modTmr s f).stepAcc = s.stepAcc := rfl
@[simp] theorem modTmr_mesh (s : State) (f : Tmr → Tmr) : (modTmr s f).mesh = s.mesh := rfl
@[simp] theorem modTmr_stat (s : State) (f : Tmr → Tmr) : (modTmr s f).stat = s.stat := rfl
@[simp] theorem modTmr_statErr (s : State) (f : Tmr → Tmr) : (modTmr s f).statErr = s.statErr := rfl
@[simp] theorem modTmr_imem (s : State) (f : Tmr → Tmr) : (modTmr s f).imem = s.imem := rfl
@[simp] theorem modTmr_imemLen (s : State) (f : Tmr → Tmr) : (modTmr s f).imemLen = s.imemLen := rfl
@[simp] theorem modTmr_entry (s : State) (f : Tmr → Tmr) : (modTmr s f).entry = s.entry := rfl
@[simp] theorem modTmr_dmem (s : State) (f : Tmr → Tmr) : (modTmr s f).dmem = s.dmem := rfl
@[simp] theorem modTmr_dmemStep (s : State) (f : Tmr → Tmr) : (modTmr s f).dmemStep = s.dmemStep := rfl
@[simp] theorem modTmr_trackers (s : State) (f : Tmr → Tmr) : (modTmr s f).trackers = s.trackers := rfl
@[simp] theorem modTmr_stepTrk (s : State) (f : Tmr → Tmr) : (modTmr s f).stepTrk = s.stepTrk := rfl
@[simp] theorem modTmr_spadWin (s : State) (f : Tmr → Tmr) : (modTmr s f).spadWin = s.spadWin := rfl
@[simp] theorem modTmr_running (s : State) (f : Tmr → Tmr) : (modTmr s f).running = s.running := rfl
@[simp] theorem modTmr_nextId (s : State) (f : Tmr → Tmr) : (modTmr s f).nextId = s.nextId := rfl
@[simp] theorem modTmr_stepDone (s : State) (f : Tmr → Tmr) : (modTmr s f).stepDone = s.stepDone := rfl
@[simp] theorem modTmr_units (s : State) (f : Tmr → Tmr) : (modTmr s f).units = s.units := rfl
@[simp] theorem modTmr_outst (s : State) (f : Tmr → Tmr) : (modTmr s f).outst = s.outst := rfl
@[simp] theorem modTmr_retired (s : State) (f : Tmr → Tmr) : (modTmr s f).retired = s.retired := rfl
@[simp] theorem modTmr_rxTab (s : State) (f : Tmr → Tmr) : (modTmr s f).rxTab = s.rxTab := rfl
@[simp] theorem modTmr_winAcks (s : State) (f : Tmr → Tmr) : (modTmr s f).winAcks = s.winAcks := rfl
@[simp] theorem modTmr_held (s : State) (f : Tmr → Tmr) : (modTmr s f).held = s.held := rfl
@[simp] theorem modTmr_rstDue (s : State) (f : Tmr → Tmr) : (modTmr s f).rstDue = s.rstDue := rfl
@[simp] theorem modTmr_winDone (s : State) (f : Tmr → Tmr) : (modTmr s f).winDone = s.winDone := rfl
@[simp] theorem modTmr_perfLast (s : State) (f : Tmr → Tmr) : (modTmr s f).perfLast = s.perfLast := rfl
@[simp] theorem modTmr_mgmt (s : State) (f : Tmr → Tmr) : (modTmr s f).mgmt = s.mgmt := rfl
@[simp] theorem modTmr_pinA (s : State) (f : Tmr → Tmr) : (modTmr s f).pinA = s.pinA := rfl
@[simp] theorem modTmr_pinB (s : State) (f : Tmr → Tmr) : (modTmr s f).pinB = s.pinB := rfl
@[simp] theorem modTmr_faTx (s : State) (f : Tmr → Tmr) : (modTmr s f).faTx = s.faTx := rfl
@[simp] theorem modTmr_fbTx (s : State) (f : Tmr → Tmr) : (modTmr s f).fbTx = s.fbTx := rfl
@[simp] theorem modTmr_txA (s : State) (f : Tmr → Tmr) : (modTmr s f).txA = s.txA := rfl
@[simp] theorem modTmr_txB (s : State) (f : Tmr → Tmr) : (modTmr s f).txB = s.txB := rfl
@[simp] theorem modTmr_rxA (s : State) (f : Tmr → Tmr) : (modTmr s f).rxA = s.rxA := rfl
@[simp] theorem modTmr_rxB (s : State) (f : Tmr → Tmr) : (modTmr s f).rxB = s.rxB := rfl
@[simp] theorem modTmr_rxS (s : State) (f : Tmr → Tmr) : (modTmr s f).rxS = s.rxS := rfl
@[simp] theorem modTmr_linkA (s : State) (f : Tmr → Tmr) : (modTmr s f).linkA = s.linkA := rfl
@[simp] theorem modTmr_linkB (s : State) (f : Tmr → Tmr) : (modTmr s f).linkB = s.linkB := rfl
@[simp] theorem modTmr_epoch (s : State) (f : Tmr → Tmr) : (modTmr s f).epoch = s.epoch := rfl
@[simp] theorem modTmr_ilPtr (s : State) (f : Tmr → Tmr) : (modTmr s f).ilPtr = s.ilPtr := rfl
@[simp] theorem modTmr_pstate (s : State) (f : Tmr → Tmr) : (modTmr s f).pstate = s.pstate := rfl
@[simp] theorem modTmr_proof (s : State) (f : Tmr → Tmr) : (modTmr s f).proof = s.proof := rfl
@[simp] theorem modTmr_bakeOn (s : State) (f : Tmr → Tmr) : (modTmr s f).bakeOn = s.bakeOn := rfl
@[simp] theorem modTmr_bake (s : State) (f : Tmr → Tmr) : (modTmr s f).bake = s.bake := rfl
@[simp] theorem modTmr_cfg (s : State) (f : Tmr → Tmr) : (modTmr s f).cfg = s.cfg := rfl
@[simp] theorem modTmr_setRej (s : State) (f : Tmr → Tmr) : (modTmr s f).setRej = s.setRej := rfl
@[simp] theorem modTmr_warnDom (s : State) (f : Tmr → Tmr) : (modTmr s f).warnDom = s.warnDom := rfl
@[simp] theorem modTmr_fw (s : State) (f : Tmr → Tmr) : (modTmr s f).fw = s.fw := rfl
@[simp] theorem modTmr_sb (s : State) (f : Tmr → Tmr) : (modTmr s f).sb = s.sb := rfl
@[simp] theorem modTmr_flt (s : State) (f : Tmr → Tmr) : (modTmr s f).flt = s.flt := rfl
@[simp] theorem modTmr_pwr (s : State) (f : Tmr → Tmr) : (modTmr s f).pwr = s.pwr := rfl
@[simp] theorem modTmr_perf (s : State) (f : Tmr → Tmr) : (modTmr s f).perf = s.perf := rfl
@[simp] theorem modTmr_perfStep (s : State) (f : Tmr → Tmr) : (modTmr s f).perfStep = s.perfStep := rfl
@[simp] theorem modTmr_perfStop (s : State) (f : Tmr → Tmr) : (modTmr s f).perfStop = s.perfStop := rfl
@[simp] theorem modTmr_steps (s : State) (f : Tmr → Tmr) : (modTmr s f).steps = s.steps := rfl
@[simp] theorem modTmr_st (s : State) (f : Tmr → Tmr) : (modTmr s f).st = s.st := rfl
@[simp] theorem taken_pending (s : State) (c : Ctx) (e : Eng) : (taken s c e).pending = s.pending := by simp [taken]
@[simp] theorem taken_freeCtr (s : State) (c : Ctx) (e : Eng) : (taken s c e).freeCtr = s.freeCtr := by simp [taken]
@[simp] theorem taken_features (s : State) (c : Ctx) (e : Eng) : (taken s c e).features = s.features := by simp [taken]
@[simp] theorem taken_powered (s : State) (c : Ctx) (e : Eng) : (taken s c e).powered = s.powered := by simp [taken]
@[simp] theorem taken_vcore (s : State) (c : Ctx) (e : Eng) : (taken s c e).vcore = s.vcore := by simp [taken]
@[simp] theorem taken_vmem (s : State) (c : Ctx) (e : Eng) : (taken s c e).vmem = s.vmem := by simp [taken]
@[simp] theorem taken_rstN (s : State) (c : Ctx) (e : Eng) : (taken s c e).rstN = s.rstN := by simp [taken]
@[simp] theorem taken_wir (s : State) (c : Ctx) (e : Eng) : (taken s c e).wir = s.wir := by simp [taken]
@[simp] theorem taken_wrap (s : State) (c : Ctx) (e : Eng) : (taken s c e).wrap = s.wrap := by simp [taken]
@[simp] theorem taken_testRes (s : State) (c : Ctx) (e : Eng) : (taken s c e).testRes = s.testRes := by simp [taken]
@[simp] theorem taken_core (s : State) (c : Ctx) (e : Eng) : (taken s c e).core = s.core := by simp [taken]
@[simp] theorem taken_parked (s : State) (c : Ctx) (e : Eng) : (taken s c e).parked = s.parked := by simp [taken]
@[simp] theorem taken_serial (s : State) (c : Ctx) (e : Eng) : (taken s c e).serial = s.serial := by simp [taken]
@[simp] theorem taken_pwrdom (s : State) (c : Ctx) (e : Eng) : (taken s c e).pwrdom = s.pwrdom := by simp [taken]
@[simp] theorem taken_chainAddr (s : State) (c : Ctx) (e : Eng) : (taken s c e).chainAddr = s.chainAddr := by simp [taken]
@[simp] theorem taken_seqWr (s : State) (c : Ctx) (e : Eng) : (taken s c e).seqWr = s.seqWr := by simp [taken]
@[simp] theorem taken_seqBc (s : State) (c : Ctx) (e : Eng) : (taken s c e).seqBc = s.seqBc := by simp [taken]
@[simp] theorem taken_mcOut (s : State) (c : Ctx) (e : Eng) : (taken s c e).mcOut = s.mcOut := by simp [taken]
@[simp] theorem taken_cutAddr (s : State) (c : Ctx) (e : Eng) : (taken s c e).cutAddr = s.cutAddr := by simp [taken]
@[simp] theorem taken_cutReq (s : State) (c : Ctx) (e : Eng) : (taken s c e).cutReq = s.cutReq := by simp [taken]
@[simp] theorem taken_flags (s : State) (c : Ctx) (e : Eng) : (taken s c e).flags = s.flags := by simp [taken]
@[simp] theorem taken_stepSets (s : State) (c : Ctx) (e : Eng) : (taken s c e).stepSets = s.stepSets := by simp [taken]
@[simp] theorem taken_stepClears (s : State) (c : Ctx) (e : Eng) : (taken s c e).stepClears = s.stepClears := by simp [taken]
@[simp] theorem taken_stepMarks (s : State) (c : Ctx) (e : Eng) : (taken s c e).stepMarks = s.stepMarks := by simp [taken]
@[simp] theorem taken_stepOps (s : State) (c : Ctx) (e : Eng) : (taken s c e).stepOps = s.stepOps := by simp [taken]
@[simp] theorem taken_selfFlits (s : State) (c : Ctx) (e : Eng) : (taken s c e).selfFlits = s.selfFlits := by simp [taken]
@[simp] theorem taken_syncQ (s : State) (c : Ctx) (e : Eng) : (taken s c e).syncQ = s.syncQ := by simp [taken]
@[simp] theorem taken_syncSent (s : State) (c : Ctx) (e : Eng) : (taken s c e).syncSent = s.syncSent := by simp [taken]
@[simp] theorem taken_stepSpad (s : State) (c : Ctx) (e : Eng) : (taken s c e).stepSpad = s.stepSpad := by simp [taken]
@[simp] theorem taken_stepPages (s : State) (c : Ctx) (e : Eng) : (taken s c e).stepPages = s.stepPages := by simp [taken]
@[simp] theorem taken_accOwn (s : State) (c : Ctx) (e : Eng) : (taken s c e).accOwn = s.accOwn := by simp [taken]
@[simp] theorem taken_spad (s : State) (c : Ctx) (e : Eng) : (taken s c e).spad = s.spad := by simp [taken]
@[simp] theorem taken_spadErr (s : State) (c : Ctx) (e : Eng) : (taken s c e).spadErr = s.spadErr := by simp [taken]
@[simp] theorem taken_wbPend (s : State) (c : Ctx) (e : Eng) : (taken s c e).wbPend = s.wbPend := by simp [taken]
@[simp] theorem taken_scrub (s : State) (c : Ctx) (e : Eng) : (taken s c e).scrub = s.scrub := by simp [taken]
@[simp] theorem taken_checked (s : State) (c : Ctx) (e : Eng) : (taken s c e).checked = s.checked := by simp [taken]
@[simp] theorem taken_pages (s : State) (c : Ctx) (e : Eng) : (taken s c e).pages = s.pages := by simp [taken]
@[simp] theorem taken_handles (s : State) (c : Ctx) (e : Eng) : (taken s c e).handles = s.handles := by simp [taken]
@[simp] theorem taken_acc (s : State) (c : Ctx) (e : Eng) : (taken s c e).acc = s.acc := by simp [taken]
@[simp] theorem taken_accErr (s : State) (c : Ctx) (e : Eng) : (taken s c e).accErr = s.accErr := by simp [taken]
@[simp] theorem taken_stepAcc (s : State) (c : Ctx) (e : Eng) : (taken s c e).stepAcc = s.stepAcc := by simp [taken]
@[simp] theorem taken_mesh (s : State) (c : Ctx) (e : Eng) : (taken s c e).mesh = s.mesh := by simp [taken]
@[simp] theorem taken_stat (s : State) (c : Ctx) (e : Eng) : (taken s c e).stat = s.stat := by simp [taken]
@[simp] theorem taken_statErr (s : State) (c : Ctx) (e : Eng) : (taken s c e).statErr = s.statErr := by simp [taken]
@[simp] theorem taken_imem (s : State) (c : Ctx) (e : Eng) : (taken s c e).imem = s.imem := by simp [taken]
@[simp] theorem taken_imemLen (s : State) (c : Ctx) (e : Eng) : (taken s c e).imemLen = s.imemLen := by simp [taken]
@[simp] theorem taken_entry (s : State) (c : Ctx) (e : Eng) : (taken s c e).entry = s.entry := by simp [taken]
@[simp] theorem taken_dmem (s : State) (c : Ctx) (e : Eng) : (taken s c e).dmem = s.dmem := by simp [taken]
@[simp] theorem taken_dmemStep (s : State) (c : Ctx) (e : Eng) : (taken s c e).dmemStep = s.dmemStep := by simp [taken]
@[simp] theorem taken_trackers (s : State) (c : Ctx) (e : Eng) : (taken s c e).trackers = s.trackers := by simp [taken]
@[simp] theorem taken_stepTrk (s : State) (c : Ctx) (e : Eng) : (taken s c e).stepTrk = s.stepTrk := by simp [taken]
@[simp] theorem taken_spadWin (s : State) (c : Ctx) (e : Eng) : (taken s c e).spadWin = s.spadWin := by simp [taken]
@[simp] theorem taken_running (s : State) (c : Ctx) (e : Eng) : (taken s c e).running = s.running := by simp [taken]
@[simp] theorem taken_nextId (s : State) (c : Ctx) (e : Eng) : (taken s c e).nextId = s.nextId := by simp [taken]
@[simp] theorem taken_stepDone (s : State) (c : Ctx) (e : Eng) : (taken s c e).stepDone = s.stepDone := by simp [taken]
@[simp] theorem taken_units (s : State) (c : Ctx) (e : Eng) : (taken s c e).units = s.units := by simp [taken]
@[simp] theorem taken_outst (s : State) (c : Ctx) (e : Eng) : (taken s c e).outst = s.outst := by simp [taken]
@[simp] theorem taken_retired (s : State) (c : Ctx) (e : Eng) : (taken s c e).retired = s.retired := by simp [taken]
@[simp] theorem taken_rxTab (s : State) (c : Ctx) (e : Eng) : (taken s c e).rxTab = s.rxTab := by simp [taken]
@[simp] theorem taken_winAcks (s : State) (c : Ctx) (e : Eng) : (taken s c e).winAcks = s.winAcks := by simp [taken]
@[simp] theorem taken_held (s : State) (c : Ctx) (e : Eng) : (taken s c e).held = s.held := by simp [taken]
@[simp] theorem taken_rstDue (s : State) (c : Ctx) (e : Eng) : (taken s c e).rstDue = s.rstDue := by simp [taken]
@[simp] theorem taken_winDone (s : State) (c : Ctx) (e : Eng) : (taken s c e).winDone = s.winDone := by simp [taken]
@[simp] theorem taken_perfLast (s : State) (c : Ctx) (e : Eng) : (taken s c e).perfLast = s.perfLast := by simp [taken]
@[simp] theorem taken_mgmt (s : State) (c : Ctx) (e : Eng) : (taken s c e).mgmt = s.mgmt := by simp [taken]
@[simp] theorem taken_pinA (s : State) (c : Ctx) (e : Eng) : (taken s c e).pinA = s.pinA := by simp [taken]
@[simp] theorem taken_pinB (s : State) (c : Ctx) (e : Eng) : (taken s c e).pinB = s.pinB := by simp [taken]
@[simp] theorem taken_faTx (s : State) (c : Ctx) (e : Eng) : (taken s c e).faTx = s.faTx := by simp [taken]
@[simp] theorem taken_fbTx (s : State) (c : Ctx) (e : Eng) : (taken s c e).fbTx = s.fbTx := by simp [taken]
@[simp] theorem taken_txA (s : State) (c : Ctx) (e : Eng) : (taken s c e).txA = s.txA := by simp [taken]
@[simp] theorem taken_txB (s : State) (c : Ctx) (e : Eng) : (taken s c e).txB = s.txB := by simp [taken]
@[simp] theorem taken_rxA (s : State) (c : Ctx) (e : Eng) : (taken s c e).rxA = s.rxA := by simp [taken]
@[simp] theorem taken_rxB (s : State) (c : Ctx) (e : Eng) : (taken s c e).rxB = s.rxB := by simp [taken]
@[simp] theorem taken_rxS (s : State) (c : Ctx) (e : Eng) : (taken s c e).rxS = s.rxS := by simp [taken]
@[simp] theorem taken_linkA (s : State) (c : Ctx) (e : Eng) : (taken s c e).linkA = s.linkA := by simp [taken]
@[simp] theorem taken_linkB (s : State) (c : Ctx) (e : Eng) : (taken s c e).linkB = s.linkB := by simp [taken]
@[simp] theorem taken_epoch (s : State) (c : Ctx) (e : Eng) : (taken s c e).epoch = s.epoch := by simp [taken]
@[simp] theorem taken_ilPtr (s : State) (c : Ctx) (e : Eng) : (taken s c e).ilPtr = s.ilPtr := by simp [taken]
@[simp] theorem taken_pstate (s : State) (c : Ctx) (e : Eng) : (taken s c e).pstate = s.pstate := by simp [taken]
@[simp] theorem taken_proof (s : State) (c : Ctx) (e : Eng) : (taken s c e).proof = s.proof := by simp [taken]
@[simp] theorem taken_bakeOn (s : State) (c : Ctx) (e : Eng) : (taken s c e).bakeOn = s.bakeOn := by simp [taken]
@[simp] theorem taken_bake (s : State) (c : Ctx) (e : Eng) : (taken s c e).bake = s.bake := by simp [taken]
@[simp] theorem taken_cfg (s : State) (c : Ctx) (e : Eng) : (taken s c e).cfg = s.cfg := by simp [taken]
@[simp] theorem taken_setRej (s : State) (c : Ctx) (e : Eng) : (taken s c e).setRej = s.setRej := by simp [taken]
@[simp] theorem taken_warnDom (s : State) (c : Ctx) (e : Eng) : (taken s c e).warnDom = s.warnDom := by simp [taken]
@[simp] theorem taken_fw (s : State) (c : Ctx) (e : Eng) : (taken s c e).fw = s.fw := by simp [taken]
@[simp] theorem taken_sb (s : State) (c : Ctx) (e : Eng) : (taken s c e).sb = s.sb := by simp [taken]
@[simp] theorem taken_flt (s : State) (c : Ctx) (e : Eng) : (taken s c e).flt = s.flt := by simp [taken]
@[simp] theorem taken_pwr (s : State) (c : Ctx) (e : Eng) : (taken s c e).pwr = s.pwr := by simp [taken]
@[simp] theorem taken_perf (s : State) (c : Ctx) (e : Eng) : (taken s c e).perf = s.perf := by simp [taken]
@[simp] theorem taken_perfStop (s : State) (c : Ctx) (e : Eng) : (taken s c e).perfStop = s.perfStop := by simp [taken]
@[simp] theorem taken_steps (s : State) (c : Ctx) (e : Eng) : (taken s c e).steps = s.steps := by simp [taken]
@[simp] theorem taken_st (s : State) (c : Ctx) (e : Eng) : (taken s c e).st = s.st := by simp [taken]
@[simp] theorem ran_pending (s : State) (c : Ctx) (e : Eng) (w : W128) (hs : List Nat) (j : Job) (fs : List Foot) : (ran s c e w hs j fs).pending = s.pending := by simp [ran]
@[simp] theorem ran_freeCtr (s : State) (c : Ctx) (e : Eng) (w : W128) (hs : List Nat) (j : Job) (fs : List Foot) : (ran s c e w hs j fs).freeCtr = s.freeCtr := by simp [ran]
@[simp] theorem ran_features (s : State) (c : Ctx) (e : Eng) (w : W128) (hs : List Nat) (j : Job) (fs : List Foot) : (ran s c e w hs j fs).features = s.features := by simp [ran]
@[simp] theorem ran_powered (s : State) (c : Ctx) (e : Eng) (w : W128) (hs : List Nat) (j : Job) (fs : List Foot) : (ran s c e w hs j fs).powered = s.powered := by simp [ran]
@[simp] theorem ran_vcore (s : State) (c : Ctx) (e : Eng) (w : W128) (hs : List Nat) (j : Job) (fs : List Foot) : (ran s c e w hs j fs).vcore = s.vcore := by simp [ran]
@[simp] theorem ran_vmem (s : State) (c : Ctx) (e : Eng) (w : W128) (hs : List Nat) (j : Job) (fs : List Foot) : (ran s c e w hs j fs).vmem = s.vmem := by simp [ran]
@[simp] theorem ran_rstN (s : State) (c : Ctx) (e : Eng) (w : W128) (hs : List Nat) (j : Job) (fs : List Foot) : (ran s c e w hs j fs).rstN = s.rstN := by simp [ran]
@[simp] theorem ran_wir (s : State) (c : Ctx) (e : Eng) (w : W128) (hs : List Nat) (j : Job) (fs : List Foot) : (ran s c e w hs j fs).wir = s.wir := by simp [ran]
@[simp] theorem ran_wrap (s : State) (c : Ctx) (e : Eng) (w : W128) (hs : List Nat) (j : Job) (fs : List Foot) : (ran s c e w hs j fs).wrap = s.wrap := by simp [ran]
@[simp] theorem ran_testRes (s : State) (c : Ctx) (e : Eng) (w : W128) (hs : List Nat) (j : Job) (fs : List Foot) : (ran s c e w hs j fs).testRes = s.testRes := by simp [ran]
@[simp] theorem ran_core (s : State) (c : Ctx) (e : Eng) (w : W128) (hs : List Nat) (j : Job) (fs : List Foot) : (ran s c e w hs j fs).core = s.core := by simp [ran]
@[simp] theorem ran_parked (s : State) (c : Ctx) (e : Eng) (w : W128) (hs : List Nat) (j : Job) (fs : List Foot) : (ran s c e w hs j fs).parked = s.parked := by simp [ran]
@[simp] theorem ran_serial (s : State) (c : Ctx) (e : Eng) (w : W128) (hs : List Nat) (j : Job) (fs : List Foot) : (ran s c e w hs j fs).serial = s.serial := by simp [ran]
@[simp] theorem ran_pwrdom (s : State) (c : Ctx) (e : Eng) (w : W128) (hs : List Nat) (j : Job) (fs : List Foot) : (ran s c e w hs j fs).pwrdom = s.pwrdom := by simp [ran]
@[simp] theorem ran_chainAddr (s : State) (c : Ctx) (e : Eng) (w : W128) (hs : List Nat) (j : Job) (fs : List Foot) : (ran s c e w hs j fs).chainAddr = s.chainAddr := by simp [ran]
@[simp] theorem ran_seqWr (s : State) (c : Ctx) (e : Eng) (w : W128) (hs : List Nat) (j : Job) (fs : List Foot) : (ran s c e w hs j fs).seqWr = s.seqWr := by simp [ran]
@[simp] theorem ran_seqBc (s : State) (c : Ctx) (e : Eng) (w : W128) (hs : List Nat) (j : Job) (fs : List Foot) : (ran s c e w hs j fs).seqBc = s.seqBc := by simp [ran]
@[simp] theorem ran_mcOut (s : State) (c : Ctx) (e : Eng) (w : W128) (hs : List Nat) (j : Job) (fs : List Foot) : (ran s c e w hs j fs).mcOut = s.mcOut := by simp [ran]
@[simp] theorem ran_cutAddr (s : State) (c : Ctx) (e : Eng) (w : W128) (hs : List Nat) (j : Job) (fs : List Foot) : (ran s c e w hs j fs).cutAddr = s.cutAddr := by simp [ran]
@[simp] theorem ran_cutReq (s : State) (c : Ctx) (e : Eng) (w : W128) (hs : List Nat) (j : Job) (fs : List Foot) : (ran s c e w hs j fs).cutReq = s.cutReq := by simp [ran]
@[simp] theorem ran_flags (s : State) (c : Ctx) (e : Eng) (w : W128) (hs : List Nat) (j : Job) (fs : List Foot) : (ran s c e w hs j fs).flags = s.flags := by simp [ran]
@[simp] theorem ran_stepSets (s : State) (c : Ctx) (e : Eng) (w : W128) (hs : List Nat) (j : Job) (fs : List Foot) : (ran s c e w hs j fs).stepSets = s.stepSets := by simp [ran]
@[simp] theorem ran_stepClears (s : State) (c : Ctx) (e : Eng) (w : W128) (hs : List Nat) (j : Job) (fs : List Foot) : (ran s c e w hs j fs).stepClears = s.stepClears := by simp [ran]
@[simp] theorem ran_stepMarks (s : State) (c : Ctx) (e : Eng) (w : W128) (hs : List Nat) (j : Job) (fs : List Foot) : (ran s c e w hs j fs).stepMarks = s.stepMarks := by simp [ran]
@[simp] theorem ran_stepOps (s : State) (c : Ctx) (e : Eng) (w : W128) (hs : List Nat) (j : Job) (fs : List Foot) : (ran s c e w hs j fs).stepOps = s.stepOps := by simp [ran]
@[simp] theorem ran_selfFlits (s : State) (c : Ctx) (e : Eng) (w : W128) (hs : List Nat) (j : Job) (fs : List Foot) : (ran s c e w hs j fs).selfFlits = s.selfFlits := by simp [ran]
@[simp] theorem ran_syncQ (s : State) (c : Ctx) (e : Eng) (w : W128) (hs : List Nat) (j : Job) (fs : List Foot) : (ran s c e w hs j fs).syncQ = s.syncQ := by simp [ran]
@[simp] theorem ran_syncSent (s : State) (c : Ctx) (e : Eng) (w : W128) (hs : List Nat) (j : Job) (fs : List Foot) : (ran s c e w hs j fs).syncSent = s.syncSent := by simp [ran]
@[simp] theorem ran_stepSpad (s : State) (c : Ctx) (e : Eng) (w : W128) (hs : List Nat) (j : Job) (fs : List Foot) : (ran s c e w hs j fs).stepSpad = s.stepSpad := by simp [ran]
@[simp] theorem ran_stepPages (s : State) (c : Ctx) (e : Eng) (w : W128) (hs : List Nat) (j : Job) (fs : List Foot) : (ran s c e w hs j fs).stepPages = s.stepPages := by simp [ran]
@[simp] theorem ran_accOwn (s : State) (c : Ctx) (e : Eng) (w : W128) (hs : List Nat) (j : Job) (fs : List Foot) : (ran s c e w hs j fs).accOwn = s.accOwn := by simp [ran]
@[simp] theorem ran_spad (s : State) (c : Ctx) (e : Eng) (w : W128) (hs : List Nat) (j : Job) (fs : List Foot) : (ran s c e w hs j fs).spad = s.spad := by simp [ran]
@[simp] theorem ran_spadErr (s : State) (c : Ctx) (e : Eng) (w : W128) (hs : List Nat) (j : Job) (fs : List Foot) : (ran s c e w hs j fs).spadErr = s.spadErr := by simp [ran]
@[simp] theorem ran_wbPend (s : State) (c : Ctx) (e : Eng) (w : W128) (hs : List Nat) (j : Job) (fs : List Foot) : (ran s c e w hs j fs).wbPend = s.wbPend := by simp [ran]
@[simp] theorem ran_scrub (s : State) (c : Ctx) (e : Eng) (w : W128) (hs : List Nat) (j : Job) (fs : List Foot) : (ran s c e w hs j fs).scrub = s.scrub := by simp [ran]
@[simp] theorem ran_checked (s : State) (c : Ctx) (e : Eng) (w : W128) (hs : List Nat) (j : Job) (fs : List Foot) : (ran s c e w hs j fs).checked = s.checked := by simp [ran]
@[simp] theorem ran_pages (s : State) (c : Ctx) (e : Eng) (w : W128) (hs : List Nat) (j : Job) (fs : List Foot) : (ran s c e w hs j fs).pages = s.pages := by simp [ran]
@[simp] theorem ran_handles (s : State) (c : Ctx) (e : Eng) (w : W128) (hs : List Nat) (j : Job) (fs : List Foot) : (ran s c e w hs j fs).handles = s.handles := by simp [ran]
@[simp] theorem ran_acc (s : State) (c : Ctx) (e : Eng) (w : W128) (hs : List Nat) (j : Job) (fs : List Foot) : (ran s c e w hs j fs).acc = s.acc := by simp [ran]
@[simp] theorem ran_accErr (s : State) (c : Ctx) (e : Eng) (w : W128) (hs : List Nat) (j : Job) (fs : List Foot) : (ran s c e w hs j fs).accErr = s.accErr := by simp [ran]
@[simp] theorem ran_stepAcc (s : State) (c : Ctx) (e : Eng) (w : W128) (hs : List Nat) (j : Job) (fs : List Foot) : (ran s c e w hs j fs).stepAcc = s.stepAcc := by simp [ran]
@[simp] theorem ran_mesh (s : State) (c : Ctx) (e : Eng) (w : W128) (hs : List Nat) (j : Job) (fs : List Foot) : (ran s c e w hs j fs).mesh = s.mesh := by simp [ran]
@[simp] theorem ran_stat (s : State) (c : Ctx) (e : Eng) (w : W128) (hs : List Nat) (j : Job) (fs : List Foot) : (ran s c e w hs j fs).stat = s.stat := by simp [ran]
@[simp] theorem ran_statErr (s : State) (c : Ctx) (e : Eng) (w : W128) (hs : List Nat) (j : Job) (fs : List Foot) : (ran s c e w hs j fs).statErr = s.statErr := by simp [ran]
@[simp] theorem ran_imem (s : State) (c : Ctx) (e : Eng) (w : W128) (hs : List Nat) (j : Job) (fs : List Foot) : (ran s c e w hs j fs).imem = s.imem := by simp [ran]
@[simp] theorem ran_imemLen (s : State) (c : Ctx) (e : Eng) (w : W128) (hs : List Nat) (j : Job) (fs : List Foot) : (ran s c e w hs j fs).imemLen = s.imemLen := by simp [ran]
@[simp] theorem ran_entry (s : State) (c : Ctx) (e : Eng) (w : W128) (hs : List Nat) (j : Job) (fs : List Foot) : (ran s c e w hs j fs).entry = s.entry := by simp [ran]
@[simp] theorem ran_dmem (s : State) (c : Ctx) (e : Eng) (w : W128) (hs : List Nat) (j : Job) (fs : List Foot) : (ran s c e w hs j fs).dmem = s.dmem := by simp [ran]
@[simp] theorem ran_dmemStep (s : State) (c : Ctx) (e : Eng) (w : W128) (hs : List Nat) (j : Job) (fs : List Foot) : (ran s c e w hs j fs).dmemStep = s.dmemStep := by simp [ran]
@[simp] theorem ran_trackers (s : State) (c : Ctx) (e : Eng) (w : W128) (hs : List Nat) (j : Job) (fs : List Foot) : (ran s c e w hs j fs).trackers = s.trackers := by simp [ran]
@[simp] theorem ran_stepTrk (s : State) (c : Ctx) (e : Eng) (w : W128) (hs : List Nat) (j : Job) (fs : List Foot) : (ran s c e w hs j fs).stepTrk = s.stepTrk := by simp [ran]
@[simp] theorem ran_spadWin (s : State) (c : Ctx) (e : Eng) (w : W128) (hs : List Nat) (j : Job) (fs : List Foot) : (ran s c e w hs j fs).spadWin = s.spadWin := by simp [ran]
@[simp] theorem ran_nextId (s : State) (c : Ctx) (e : Eng) (w : W128) (hs : List Nat) (j : Job) (fs : List Foot) : (ran s c e w hs j fs).nextId = s.nextId := by simp [ran]
@[simp] theorem ran_stepDone (s : State) (c : Ctx) (e : Eng) (w : W128) (hs : List Nat) (j : Job) (fs : List Foot) : (ran s c e w hs j fs).stepDone = s.stepDone := by simp [ran]
@[simp] theorem ran_units (s : State) (c : Ctx) (e : Eng) (w : W128) (hs : List Nat) (j : Job) (fs : List Foot) : (ran s c e w hs j fs).units = s.units := by simp [ran]
@[simp] theorem ran_outst (s : State) (c : Ctx) (e : Eng) (w : W128) (hs : List Nat) (j : Job) (fs : List Foot) : (ran s c e w hs j fs).outst = s.outst := by simp [ran]
@[simp] theorem ran_retired (s : State) (c : Ctx) (e : Eng) (w : W128) (hs : List Nat) (j : Job) (fs : List Foot) : (ran s c e w hs j fs).retired = s.retired := by simp [ran]
@[simp] theorem ran_rxTab (s : State) (c : Ctx) (e : Eng) (w : W128) (hs : List Nat) (j : Job) (fs : List Foot) : (ran s c e w hs j fs).rxTab = s.rxTab := by simp [ran]
@[simp] theorem ran_winAcks (s : State) (c : Ctx) (e : Eng) (w : W128) (hs : List Nat) (j : Job) (fs : List Foot) : (ran s c e w hs j fs).winAcks = s.winAcks := by simp [ran]
@[simp] theorem ran_held (s : State) (c : Ctx) (e : Eng) (w : W128) (hs : List Nat) (j : Job) (fs : List Foot) : (ran s c e w hs j fs).held = s.held := by simp [ran]
@[simp] theorem ran_rstDue (s : State) (c : Ctx) (e : Eng) (w : W128) (hs : List Nat) (j : Job) (fs : List Foot) : (ran s c e w hs j fs).rstDue = s.rstDue := by simp [ran]
@[simp] theorem ran_winDone (s : State) (c : Ctx) (e : Eng) (w : W128) (hs : List Nat) (j : Job) (fs : List Foot) : (ran s c e w hs j fs).winDone = s.winDone := by simp [ran]
@[simp] theorem ran_perfLast (s : State) (c : Ctx) (e : Eng) (w : W128) (hs : List Nat) (j : Job) (fs : List Foot) : (ran s c e w hs j fs).perfLast = s.perfLast := by simp [ran]
@[simp] theorem ran_mgmt (s : State) (c : Ctx) (e : Eng) (w : W128) (hs : List Nat) (j : Job) (fs : List Foot) : (ran s c e w hs j fs).mgmt = s.mgmt := by simp [ran]
@[simp] theorem ran_pinA (s : State) (c : Ctx) (e : Eng) (w : W128) (hs : List Nat) (j : Job) (fs : List Foot) : (ran s c e w hs j fs).pinA = s.pinA := by simp [ran]
@[simp] theorem ran_pinB (s : State) (c : Ctx) (e : Eng) (w : W128) (hs : List Nat) (j : Job) (fs : List Foot) : (ran s c e w hs j fs).pinB = s.pinB := by simp [ran]
@[simp] theorem ran_faTx (s : State) (c : Ctx) (e : Eng) (w : W128) (hs : List Nat) (j : Job) (fs : List Foot) : (ran s c e w hs j fs).faTx = s.faTx := by simp [ran]
@[simp] theorem ran_fbTx (s : State) (c : Ctx) (e : Eng) (w : W128) (hs : List Nat) (j : Job) (fs : List Foot) : (ran s c e w hs j fs).fbTx = s.fbTx := by simp [ran]
@[simp] theorem ran_txA (s : State) (c : Ctx) (e : Eng) (w : W128) (hs : List Nat) (j : Job) (fs : List Foot) : (ran s c e w hs j fs).txA = s.txA := by simp [ran]
@[simp] theorem ran_txB (s : State) (c : Ctx) (e : Eng) (w : W128) (hs : List Nat) (j : Job) (fs : List Foot) : (ran s c e w hs j fs).txB = s.txB := by simp [ran]
@[simp] theorem ran_rxA (s : State) (c : Ctx) (e : Eng) (w : W128) (hs : List Nat) (j : Job) (fs : List Foot) : (ran s c e w hs j fs).rxA = s.rxA := by simp [ran]
@[simp] theorem ran_rxB (s : State) (c : Ctx) (e : Eng) (w : W128) (hs : List Nat) (j : Job) (fs : List Foot) : (ran s c e w hs j fs).rxB = s.rxB := by simp [ran]
@[simp] theorem ran_rxS (s : State) (c : Ctx) (e : Eng) (w : W128) (hs : List Nat) (j : Job) (fs : List Foot) : (ran s c e w hs j fs).rxS = s.rxS := by simp [ran]
@[simp] theorem ran_linkA (s : State) (c : Ctx) (e : Eng) (w : W128) (hs : List Nat) (j : Job) (fs : List Foot) : (ran s c e w hs j fs).linkA = s.linkA := by simp [ran]
@[simp] theorem ran_linkB (s : State) (c : Ctx) (e : Eng) (w : W128) (hs : List Nat) (j : Job) (fs : List Foot) : (ran s c e w hs j fs).linkB = s.linkB := by simp [ran]
@[simp] theorem ran_epoch (s : State) (c : Ctx) (e : Eng) (w : W128) (hs : List Nat) (j : Job) (fs : List Foot) : (ran s c e w hs j fs).epoch = s.epoch := by simp [ran]
@[simp] theorem ran_ilPtr (s : State) (c : Ctx) (e : Eng) (w : W128) (hs : List Nat) (j : Job) (fs : List Foot) : (ran s c e w hs j fs).ilPtr = s.ilPtr := by simp [ran]
@[simp] theorem ran_pstate (s : State) (c : Ctx) (e : Eng) (w : W128) (hs : List Nat) (j : Job) (fs : List Foot) : (ran s c e w hs j fs).pstate = s.pstate := by simp [ran]
@[simp] theorem ran_proof (s : State) (c : Ctx) (e : Eng) (w : W128) (hs : List Nat) (j : Job) (fs : List Foot) : (ran s c e w hs j fs).proof = s.proof := by simp [ran]
@[simp] theorem ran_bakeOn (s : State) (c : Ctx) (e : Eng) (w : W128) (hs : List Nat) (j : Job) (fs : List Foot) : (ran s c e w hs j fs).bakeOn = s.bakeOn := by simp [ran]
@[simp] theorem ran_bake (s : State) (c : Ctx) (e : Eng) (w : W128) (hs : List Nat) (j : Job) (fs : List Foot) : (ran s c e w hs j fs).bake = s.bake := by simp [ran]
@[simp] theorem ran_cfg (s : State) (c : Ctx) (e : Eng) (w : W128) (hs : List Nat) (j : Job) (fs : List Foot) : (ran s c e w hs j fs).cfg = s.cfg := by simp [ran]
@[simp] theorem ran_setRej (s : State) (c : Ctx) (e : Eng) (w : W128) (hs : List Nat) (j : Job) (fs : List Foot) : (ran s c e w hs j fs).setRej = s.setRej := by simp [ran]
@[simp] theorem ran_warnDom (s : State) (c : Ctx) (e : Eng) (w : W128) (hs : List Nat) (j : Job) (fs : List Foot) : (ran s c e w hs j fs).warnDom = s.warnDom := by simp [ran]
@[simp] theorem ran_fw (s : State) (c : Ctx) (e : Eng) (w : W128) (hs : List Nat) (j : Job) (fs : List Foot) : (ran s c e w hs j fs).fw = s.fw := by simp [ran]
@[simp] theorem ran_sb (s : State) (c : Ctx) (e : Eng) (w : W128) (hs : List Nat) (j : Job) (fs : List Foot) : (ran s c e w hs j fs).sb = s.sb := by simp [ran]
@[simp] theorem ran_flt (s : State) (c : Ctx) (e : Eng) (w : W128) (hs : List Nat) (j : Job) (fs : List Foot) : (ran s c e w hs j fs).flt = s.flt := by simp [ran]
@[simp] theorem ran_pwr (s : State) (c : Ctx) (e : Eng) (w : W128) (hs : List Nat) (j : Job) (fs : List Foot) : (ran s c e w hs j fs).pwr = s.pwr := by simp [ran]
@[simp] theorem ran_perf (s : State) (c : Ctx) (e : Eng) (w : W128) (hs : List Nat) (j : Job) (fs : List Foot) : (ran s c e w hs j fs).perf = s.perf := by simp [ran]
@[simp] theorem ran_perfStop (s : State) (c : Ctx) (e : Eng) (w : W128) (hs : List Nat) (j : Job) (fs : List Foot) : (ran s c e w hs j fs).perfStop = s.perfStop := by simp [ran]
@[simp] theorem ran_steps (s : State) (c : Ctx) (e : Eng) (w : W128) (hs : List Nat) (j : Job) (fs : List Foot) : (ran s c e w hs j fs).steps = s.steps := by simp [ran]
@[simp] theorem ran_st (s : State) (c : Ctx) (e : Eng) (w : W128) (hs : List Nat) (j : Job) (fs : List Foot) : (ran s c e w hs j fs).st = s.st := by simp [ran]
@[simp] theorem modPwr_pending (s : State) (f : Pwr → Pwr) : (modPwr s f).pending = s.pending := rfl
@[simp] theorem modPwr_freeCtr (s : State) (f : Pwr → Pwr) : (modPwr s f).freeCtr = s.freeCtr := rfl
@[simp] theorem modPwr_features (s : State) (f : Pwr → Pwr) : (modPwr s f).features = s.features := rfl
@[simp] theorem modPwr_powered (s : State) (f : Pwr → Pwr) : (modPwr s f).powered = s.powered := rfl
@[simp] theorem modPwr_vcore (s : State) (f : Pwr → Pwr) : (modPwr s f).vcore = s.vcore := rfl
@[simp] theorem modPwr_vmem (s : State) (f : Pwr → Pwr) : (modPwr s f).vmem = s.vmem := rfl
@[simp] theorem modPwr_rstN (s : State) (f : Pwr → Pwr) : (modPwr s f).rstN = s.rstN := rfl
@[simp] theorem modPwr_wir (s : State) (f : Pwr → Pwr) : (modPwr s f).wir = s.wir := rfl
@[simp] theorem modPwr_wrap (s : State) (f : Pwr → Pwr) : (modPwr s f).wrap = s.wrap := rfl
@[simp] theorem modPwr_testRes (s : State) (f : Pwr → Pwr) : (modPwr s f).testRes = s.testRes := rfl
@[simp] theorem modPwr_core (s : State) (f : Pwr → Pwr) : (modPwr s f).core = s.core := rfl
@[simp] theorem modPwr_parked (s : State) (f : Pwr → Pwr) : (modPwr s f).parked = s.parked := rfl
@[simp] theorem modPwr_serial (s : State) (f : Pwr → Pwr) : (modPwr s f).serial = s.serial := rfl
@[simp] theorem modPwr_pwrdom (s : State) (f : Pwr → Pwr) : (modPwr s f).pwrdom = s.pwrdom := rfl
@[simp] theorem modPwr_chainAddr (s : State) (f : Pwr → Pwr) : (modPwr s f).chainAddr = s.chainAddr := rfl
@[simp] theorem modPwr_seqWr (s : State) (f : Pwr → Pwr) : (modPwr s f).seqWr = s.seqWr := rfl
@[simp] theorem modPwr_seqBc (s : State) (f : Pwr → Pwr) : (modPwr s f).seqBc = s.seqBc := rfl
@[simp] theorem modPwr_mcOut (s : State) (f : Pwr → Pwr) : (modPwr s f).mcOut = s.mcOut := rfl
@[simp] theorem modPwr_cutAddr (s : State) (f : Pwr → Pwr) : (modPwr s f).cutAddr = s.cutAddr := rfl
@[simp] theorem modPwr_cutReq (s : State) (f : Pwr → Pwr) : (modPwr s f).cutReq = s.cutReq := rfl
@[simp] theorem modPwr_c0 (s : State) (f : Pwr → Pwr) : (modPwr s f).c0 = s.c0 := rfl
@[simp] theorem modPwr_c1 (s : State) (f : Pwr → Pwr) : (modPwr s f).c1 = s.c1 := rfl
@[simp] theorem modPwr_flags (s : State) (f : Pwr → Pwr) : (modPwr s f).flags = s.flags := rfl
@[simp] theorem modPwr_stepSets (s : State) (f : Pwr → Pwr) : (modPwr s f).stepSets = s.stepSets := rfl
@[simp] theorem modPwr_stepClears (s : State) (f : Pwr → Pwr) : (modPwr s f).stepClears = s.stepClears := rfl
@[simp] theorem modPwr_stepMarks (s : State) (f : Pwr → Pwr) : (modPwr s f).stepMarks = s.stepMarks := rfl
@[simp] theorem modPwr_stepOps (s : State) (f : Pwr → Pwr) : (modPwr s f).stepOps = s.stepOps := rfl
@[simp] theorem modPwr_selfFlits (s : State) (f : Pwr → Pwr) : (modPwr s f).selfFlits = s.selfFlits := rfl
@[simp] theorem modPwr_syncQ (s : State) (f : Pwr → Pwr) : (modPwr s f).syncQ = s.syncQ := rfl
@[simp] theorem modPwr_syncSent (s : State) (f : Pwr → Pwr) : (modPwr s f).syncSent = s.syncSent := rfl
@[simp] theorem modPwr_stepSpad (s : State) (f : Pwr → Pwr) : (modPwr s f).stepSpad = s.stepSpad := rfl
@[simp] theorem modPwr_stepPages (s : State) (f : Pwr → Pwr) : (modPwr s f).stepPages = s.stepPages := rfl
@[simp] theorem modPwr_accOwn (s : State) (f : Pwr → Pwr) : (modPwr s f).accOwn = s.accOwn := rfl
@[simp] theorem modPwr_spad (s : State) (f : Pwr → Pwr) : (modPwr s f).spad = s.spad := rfl
@[simp] theorem modPwr_spadErr (s : State) (f : Pwr → Pwr) : (modPwr s f).spadErr = s.spadErr := rfl
@[simp] theorem modPwr_wbPend (s : State) (f : Pwr → Pwr) : (modPwr s f).wbPend = s.wbPend := rfl
@[simp] theorem modPwr_scrub (s : State) (f : Pwr → Pwr) : (modPwr s f).scrub = s.scrub := rfl
@[simp] theorem modPwr_checked (s : State) (f : Pwr → Pwr) : (modPwr s f).checked = s.checked := rfl
@[simp] theorem modPwr_pages (s : State) (f : Pwr → Pwr) : (modPwr s f).pages = s.pages := rfl
@[simp] theorem modPwr_handles (s : State) (f : Pwr → Pwr) : (modPwr s f).handles = s.handles := rfl
@[simp] theorem modPwr_acc (s : State) (f : Pwr → Pwr) : (modPwr s f).acc = s.acc := rfl
@[simp] theorem modPwr_accErr (s : State) (f : Pwr → Pwr) : (modPwr s f).accErr = s.accErr := rfl
@[simp] theorem modPwr_stepAcc (s : State) (f : Pwr → Pwr) : (modPwr s f).stepAcc = s.stepAcc := rfl
@[simp] theorem modPwr_mesh (s : State) (f : Pwr → Pwr) : (modPwr s f).mesh = s.mesh := rfl
@[simp] theorem modPwr_stat (s : State) (f : Pwr → Pwr) : (modPwr s f).stat = s.stat := rfl
@[simp] theorem modPwr_statErr (s : State) (f : Pwr → Pwr) : (modPwr s f).statErr = s.statErr := rfl
@[simp] theorem modPwr_imem (s : State) (f : Pwr → Pwr) : (modPwr s f).imem = s.imem := rfl
@[simp] theorem modPwr_imemLen (s : State) (f : Pwr → Pwr) : (modPwr s f).imemLen = s.imemLen := rfl
@[simp] theorem modPwr_entry (s : State) (f : Pwr → Pwr) : (modPwr s f).entry = s.entry := rfl
@[simp] theorem modPwr_dmem (s : State) (f : Pwr → Pwr) : (modPwr s f).dmem = s.dmem := rfl
@[simp] theorem modPwr_dmemStep (s : State) (f : Pwr → Pwr) : (modPwr s f).dmemStep = s.dmemStep := rfl
@[simp] theorem modPwr_trackers (s : State) (f : Pwr → Pwr) : (modPwr s f).trackers = s.trackers := rfl
@[simp] theorem modPwr_stepTrk (s : State) (f : Pwr → Pwr) : (modPwr s f).stepTrk = s.stepTrk := rfl
@[simp] theorem modPwr_spadWin (s : State) (f : Pwr → Pwr) : (modPwr s f).spadWin = s.spadWin := rfl
@[simp] theorem modPwr_running (s : State) (f : Pwr → Pwr) : (modPwr s f).running = s.running := rfl
@[simp] theorem modPwr_nextId (s : State) (f : Pwr → Pwr) : (modPwr s f).nextId = s.nextId := rfl
@[simp] theorem modPwr_stepDone (s : State) (f : Pwr → Pwr) : (modPwr s f).stepDone = s.stepDone := rfl
@[simp] theorem modPwr_units (s : State) (f : Pwr → Pwr) : (modPwr s f).units = s.units := rfl
@[simp] theorem modPwr_outst (s : State) (f : Pwr → Pwr) : (modPwr s f).outst = s.outst := rfl
@[simp] theorem modPwr_retired (s : State) (f : Pwr → Pwr) : (modPwr s f).retired = s.retired := rfl
@[simp] theorem modPwr_rxTab (s : State) (f : Pwr → Pwr) : (modPwr s f).rxTab = s.rxTab := rfl
@[simp] theorem modPwr_winAcks (s : State) (f : Pwr → Pwr) : (modPwr s f).winAcks = s.winAcks := rfl
@[simp] theorem modPwr_held (s : State) (f : Pwr → Pwr) : (modPwr s f).held = s.held := rfl
@[simp] theorem modPwr_rstDue (s : State) (f : Pwr → Pwr) : (modPwr s f).rstDue = s.rstDue := rfl
@[simp] theorem modPwr_winDone (s : State) (f : Pwr → Pwr) : (modPwr s f).winDone = s.winDone := rfl
@[simp] theorem modPwr_perfLast (s : State) (f : Pwr → Pwr) : (modPwr s f).perfLast = s.perfLast := rfl
@[simp] theorem modPwr_mgmt (s : State) (f : Pwr → Pwr) : (modPwr s f).mgmt = s.mgmt := rfl
@[simp] theorem modPwr_pinA (s : State) (f : Pwr → Pwr) : (modPwr s f).pinA = s.pinA := rfl
@[simp] theorem modPwr_pinB (s : State) (f : Pwr → Pwr) : (modPwr s f).pinB = s.pinB := rfl
@[simp] theorem modPwr_faTx (s : State) (f : Pwr → Pwr) : (modPwr s f).faTx = s.faTx := rfl
@[simp] theorem modPwr_fbTx (s : State) (f : Pwr → Pwr) : (modPwr s f).fbTx = s.fbTx := rfl
@[simp] theorem modPwr_txA (s : State) (f : Pwr → Pwr) : (modPwr s f).txA = s.txA := rfl
@[simp] theorem modPwr_txB (s : State) (f : Pwr → Pwr) : (modPwr s f).txB = s.txB := rfl
@[simp] theorem modPwr_rxA (s : State) (f : Pwr → Pwr) : (modPwr s f).rxA = s.rxA := rfl
@[simp] theorem modPwr_rxB (s : State) (f : Pwr → Pwr) : (modPwr s f).rxB = s.rxB := rfl
@[simp] theorem modPwr_rxS (s : State) (f : Pwr → Pwr) : (modPwr s f).rxS = s.rxS := rfl
@[simp] theorem modPwr_linkA (s : State) (f : Pwr → Pwr) : (modPwr s f).linkA = s.linkA := rfl
@[simp] theorem modPwr_linkB (s : State) (f : Pwr → Pwr) : (modPwr s f).linkB = s.linkB := rfl
@[simp] theorem modPwr_epoch (s : State) (f : Pwr → Pwr) : (modPwr s f).epoch = s.epoch := rfl
@[simp] theorem modPwr_ilPtr (s : State) (f : Pwr → Pwr) : (modPwr s f).ilPtr = s.ilPtr := rfl
@[simp] theorem modPwr_pstate (s : State) (f : Pwr → Pwr) : (modPwr s f).pstate = s.pstate := rfl
@[simp] theorem modPwr_proof (s : State) (f : Pwr → Pwr) : (modPwr s f).proof = s.proof := rfl
@[simp] theorem modPwr_bakeOn (s : State) (f : Pwr → Pwr) : (modPwr s f).bakeOn = s.bakeOn := rfl
@[simp] theorem modPwr_bake (s : State) (f : Pwr → Pwr) : (modPwr s f).bake = s.bake := rfl
@[simp] theorem modPwr_cfg (s : State) (f : Pwr → Pwr) : (modPwr s f).cfg = s.cfg := rfl
@[simp] theorem modPwr_setRej (s : State) (f : Pwr → Pwr) : (modPwr s f).setRej = s.setRej := rfl
@[simp] theorem modPwr_warnDom (s : State) (f : Pwr → Pwr) : (modPwr s f).warnDom = s.warnDom := rfl
@[simp] theorem modPwr_fw (s : State) (f : Pwr → Pwr) : (modPwr s f).fw = s.fw := rfl
@[simp] theorem modPwr_sb (s : State) (f : Pwr → Pwr) : (modPwr s f).sb = s.sb := rfl
@[simp] theorem modPwr_flt (s : State) (f : Pwr → Pwr) : (modPwr s f).flt = s.flt := rfl
@[simp] theorem modPwr_tmr (s : State) (f : Pwr → Pwr) : (modPwr s f).tmr = s.tmr := rfl
@[simp] theorem modPwr_perf (s : State) (f : Pwr → Pwr) : (modPwr s f).perf = s.perf := rfl
@[simp] theorem modPwr_perfStep (s : State) (f : Pwr → Pwr) : (modPwr s f).perfStep = s.perfStep := rfl
@[simp] theorem modPwr_perfStop (s : State) (f : Pwr → Pwr) : (modPwr s f).perfStop = s.perfStop := rfl
@[simp] theorem modPwr_steps (s : State) (f : Pwr → Pwr) : (modPwr s f).steps = s.steps := rfl
@[simp] theorem modPwr_st (s : State) (f : Pwr → Pwr) : (modPwr s f).st = s.st := rfl
@[simp] theorem report_getCtx (s : State) (e r : Nat) (c : Option Ctx) (k : Ctx) : getCtx (report s e r c) k = getCtx s k := by cases k <;> rfl
@[simp] theorem count_getCtx (s : State) (i n : Nat) (k : Ctx) : getCtx (count s i n) k = getCtx s k := by cases k <;> rfl
@[simp] theorem progress_getCtx (s : State) (k : Ctx) : getCtx (progress s) k = getCtx s k := by cases k <;> rfl
@[simp] theorem dropRun_getCtx (s : State) (i : Nat) (k : Ctx) : getCtx (dropRun s i) k = getCtx s k := by cases k <;> rfl
@[simp] theorem setJob_getCtx (s : State) (i : Nat) (j : Job) (k : Ctx) : getCtx (setJob s i j) k = getCtx s k := by cases k <;> rfl
@[simp] theorem failWord_getCtx (s : State) (c : Ctx) (e : Eng) (i n : Nat) (k : Ctx) : getCtx (failWord s c e i n) k = getCtx s k := by cases k <;> simp [getCtx]
@[simp] theorem setFlag_getCtx (s : State) (f : Nat) (v : Flag) (k : Ctx) : getCtx (setFlag s f v) k = getCtx s k := by cases k <;> rfl
@[simp] theorem pushSet_getCtx (s : State) (f : Nat) (c : Option Ctx) (k : Ctx) : getCtx (pushSet s f c) k = getCtx s k := by cases k <;> rfl
@[simp] theorem pushClear_getCtx (s : State) (f : Nat) (g : BitVec 4) (k : Ctx) : getCtx (pushClear s f g) k = getCtx s k := by cases k <;> rfl
@[simp] theorem pushSync_getCtx (s : State) (f : W64) (o : Option Nat) (k : Ctx) : getCtx (pushSync s f o) k = getCtx s k := by cases k <;> rfl
@[simp] theorem setH_getCtx (s : State) (h : Nat) (v : Handle) (k : Ctx) : getCtx (setH s h v) k = getCtx s k := by cases k <;> rfl
@[simp] theorem modFlt_getCtx (s : State) (f : Flt → Flt) (k : Ctx) : getCtx (modFlt s f) k = getCtx s k := by cases k <;> rfl
@[simp] theorem modSb_getCtx (s : State) (f : StepBlk → StepBlk) (k : Ctx) : getCtx (modSb s f) k = getCtx s k := by cases k <;> rfl
@[simp] theorem modSt_getCtx (s : State) (f : Starter → Starter) (k : Ctx) : getCtx (modSt s f) k = getCtx s k := by cases k <;> rfl
@[simp] theorem modTmr_getCtx (s : State) (f : Tmr → Tmr) (k : Ctx) : getCtx (modTmr s f) k = getCtx s k := by cases k <;> rfl
@[simp] theorem modPwr_getCtx (s : State) (f : Pwr → Pwr) (k : Ctx) : getCtx (modPwr s f) k = getCtx s k := by cases k <;> rfl
@[simp] theorem setCtx_other (s : State) (c : Ctx) (x : Context) : getCtx (setCtx s c x) (otherCtx c) = getCtx s (otherCtx c) := by
  cases c <;> rfl
@[simp] theorem modCtx_other (s : State) (c : Ctx) (f : Context → Context) :
    getCtx (modCtx s c f) (otherCtx c) = getCtx s (otherCtx c) := by cases c <;> rfl
@[simp] theorem setCtx_same (s : State) (c : Ctx) (x : Context) : getCtx (setCtx s c x) c = x := by cases c <;> rfl
@[simp] theorem modCtx_same (s : State) (c : Ctx) (f : Context → Context) : getCtx (modCtx s c f) c = f (getCtx s c) := by
  cases c <;> rfl

end Sys2Proof.Machine
end

