-- ==== Sys2Proof/Laws/VReg.lean ====
section
/-! SUPPORT. Vector registers bit by bit: what an element holds, and what writing elements changes. -/

namespace Sys2Proof.Machine

/-- Bit `k` of the vector bank: register k / 32768, counted from bit 0 of its byte 0. -/
def bankBit (x : Context) (k : Nat) : Bool := (sget 0 x.vregs (k / 8)).getLsbD (k % 8)

theorem testBit_ofLE_sgets (m : Sparse Byte) : ∀ (n a b : Nat),
    (ofLE (sgets 0 m a n)).testBit b = (decide (b < 8 * n) && (sget 0 m (a + b / 8)).getLsbD (b % 8)) := by
  intro n
  induction n with
  | zero => intro a b; simp [sgets, ofLE]
  | succ n ih =>
    intro a b
    have hb := (sget 0 m a).isLt
    have e : ofLE (sgets 0 m a (n + 1)) = 2 ^ 8 * ofLE (sgets 0 m (a + 1) n) + (sget 0 m a).toNat := by
      simp only [sgets, ofLE]; omega
    rw [e, Nat.testBit_two_pow_mul_add _ hb]
    by_cases h : b < 8
    · have h1 : b / 8 = 0 := by omega
      have h2 : b % 8 = b := by omega
      have h3 : b < 8 * (n + 1) := by omega
      rw [if_pos h, h1, h2, Nat.add_zero, decide_eq_true h3, Bool.true_and]
      rfl
    · rw [if_neg h, ih]
      have h1 : a + 1 + (b - 8) / 8 = a + b / 8 := by omega
      have h2 : (b - 8) % 8 = b % 8 := by omega
      have h3 : (b - 8 < 8 * n) ↔ (b < 8 * (n + 1)) := by omega
      rw [h1, h2]
      simp only [h3]

theorem testBit_getE (x : Context) (f r i b : Nat) :
    (getE x f r i).testBit b = (decide (b < fmtBits f) && bankBit x (r * 32768 + fmtBits f * i + b)) := by
  unfold getE bankBit
  dsimp only
  rw [Nat.testBit_mod_two_pow, Nat.testBit_shiftRight, testBit_ofLE_sgets]
  by_cases hb : b < fmtBits f
  · generalize fmtBits f = w at *
    generalize w * i = p
    have h1 : p % 8 + b < 8 * ((p % 8 + w + 7) / 8) := by omega
    have h2 : r * 4096 + p / 8 + (p % 8 + b) / 8 = (r * 32768 + p + b) / 8 := by omega
    have h3 : (p % 8 + b) % 8 = (r * 32768 + p + b) % 8 := by omega
    rw [h2, h3]
    simp [hb, h1]
  · simp [hb]

theorem toLE_length (n v : Nat) : (toLE n v).length = n := by
  induction n generalizing v with
  | zero => rfl
  | succ n ih => simp [toLE, ih]
theorem toLE_getD : ∀ (n v i : Nat), i < n → (toLE n v).getD i 0 = byteOf (v >>> (8 * i)) := by
  intro n
  induction n with
  | zero => intro v i h; omega
  | succ n ih =>
    intro v i h
    cases i with
    | zero => simp [toLE]
    | succ i =>
      simp only [toLE, List.getD_cons_succ]
      rw [ih _ _ (by omega), ← Nat.shiftRight_add]
      congr 2; omega
theorem byteOf_bit (v i b : Nat) (hb : b < 8) : (byteOf (v >>> (8 * i))).getLsbD b = v.testBit (8 * i + b) := by
  unfold byteOf
  rw [BitVec.getLsbD_ofNat]
  simp only [hb, decide_true, Bool.true_and, Nat.testBit_shiftRight]

/-- A field of a number replaced. -/
theorem testBit_splice (old sh w v b : Nat) :
    (old - ((old >>> sh) % 2 ^ w) <<< sh + (v % 2 ^ w) <<< sh).testBit b =
      if sh ≤ b ∧ b < sh + w then v.testBit (b - sh) else old.testBit b := by
  have hlo : old % 2 ^ sh < 2 ^ sh := Nat.mod_lt _ (Nat.two_pow_pos _)
  have hv : v % 2 ^ w < 2 ^ w := Nat.mod_lt _ (Nat.two_pow_pos _)
  have e1 : old = 2 ^ sh * (2 ^ w * (old / 2 ^ sh / 2 ^ w) + old / 2 ^ sh % 2 ^ w) + old % 2 ^ sh := by
    rw [Nat.div_add_mod (old / 2 ^ sh), Nat.div_add_mod]
  have e2 : old - ((old >>> sh) % 2 ^ w) <<< sh + (v % 2 ^ w) <<< sh =
      2 ^ sh * (2 ^ w * (old / 2 ^ sh / 2 ^ w) + v % 2 ^ w) + old % 2 ^ sh := by
    rw [Nat.shiftRight_eq_div_pow, Nat.shiftLeft_eq, Nat.shiftLeft_eq]
    have : old = 2 ^ sh * (2 ^ w * (old / 2 ^ sh / 2 ^ w)) + 2 ^ sh * (old / 2 ^ sh % 2 ^ w) + old % 2 ^ sh := by
      rw [← Nat.mul_add]; exact e1
    rw [Nat.mul_add, Nat.mul_comm (old / 2 ^ sh % 2 ^ w), Nat.mul_comm (v % 2 ^ w)]
    omega
  rw [e2, Nat.testBit_two_pow_mul_add _ hlo]
  by_cases h1 : b < sh
  · have h2 : ¬ (sh ≤ b ∧ b < sh + w) := by omega
    rw [if_pos h1, if_neg h2, Nat.testBit_mod_two_pow]
    simp [h1]
  · rw [if_neg h1, Nat.testBit_two_pow_mul_add _ hv]
    by_cases h2 : b - sh < w
    · have h3 : sh ≤ b ∧ b < sh + w := by omega
      rw [if_pos h2, if_pos h3, Nat.testBit_mod_two_pow]
      simp [h2]
    · have h3 : ¬ (sh ≤ b ∧ b < sh + w) := by omega
      rw [if_neg h2, if_neg h3, Nat.testBit_div_two_pow, Nat.testBit_div_two_pow]
      congr 1; omega

theorem bankBit_putE {x : Context} (h : swf 0 x.vregs = true) (f r : Nat) (e : Nat × Nat) (k : Nat) :
    bankBit (putE f r x e) k =
      if r * 32768 + fmtBits f * e.1 ≤ k ∧ k < r * 32768 + fmtBits f * e.1 + fmtBits f then
        e.2.testBit (k - (r * 32768 + fmtBits f * e.1)) else bankBit x k := by
  unfold bankBit putE
  dsimp only
  rw [sget_sputs _ _ _ _ _ h, toLE_length]
  generalize fmtBits f = w
  generalize w * e.1 = p
  by_cases hk : r * 4096 + p / 8 ≤ k / 8 ∧ k / 8 < r * 4096 + p / 8 + (p % 8 + w + 7) / 8
  · rw [if_pos hk, toLE_getD _ _ _ (by omega), byteOf_bit _ _ _ (Nat.mod_lt _ (by omega)), testBit_splice, testBit_ofLE_sgets]
    have h1 : 8 * (k / 8 - (r * 4096 + p / 8)) + k % 8 = k - (r * 32768 + p / 8 * 8) := by omega
    rw [h1]
    by_cases h2 : r * 32768 + p ≤ k ∧ k < r * 32768 + p + w
    · rw [if_pos h2, if_pos (by omega)]
      congr 1; omega
    · rw [if_neg h2, if_neg (by omega)]
      have h3 : r * 4096 + p / 8 + (k - (r * 32768 + p / 8 * 8)) / 8 = k / 8 := by omega
      have h4 : (k - (r * 32768 + p / 8 * 8)) % 8 = k % 8 := by omega
      have h5 : k - (r * 32768 + p / 8 * 8) < 8 * ((p % 8 + w + 7) / 8) := by omega
      rw [h3, h4]
      simp [h5]
  · rw [if_neg hk, if_neg]
    rintro ⟨h1, h2⟩
    apply hk
    clear hk h
    rw [Nat.le_div_iff_mul_le (by decide), Nat.div_lt_iff_lt_mul (by decide)]
    have h4 := Nat.div_add_mod p 8
    have h5 := Nat.div_add_mod (p % 8 + w + 7) 8
    have h6 := Nat.mod_lt (p % 8 + w + 7) (show 8 > 0 by decide)
    exact ⟨by omega, by omega⟩

theorem putE_rest (f r : Nat) (x : Context) (e : Nat × Nat) : putE f r x e = { x with vregs := (putE f r x e).vregs } := by
  unfold putE; dsimp only
theorem putE_wf {x : Context} (h : swf 0 x.vregs = true) (f r : Nat) (e : Nat × Nat) : swf 0 (putE f r x e).vregs = true :=
  swf_sputs 0 _ _ _ h

/-- An element read after an element of the same view was written. -/
theorem getE_putE {x : Context} (h : swf 0 x.vregs = true) {f r q j : Nat} {e : Nat × Nat} (he : e.1 < viewCap f) (hj : j < viewCap f) :
    getE (putE f r x e) f q j = if q = r ∧ j = e.1 then e.2 % 2 ^ fmtBits f else getE x f q j := by
  have hw : ∀ i, i < viewCap f → fmtBits f * i + fmtBits f ≤ 32768 := by
    intro i hi
    unfold viewCap at hi
    have h1 : fmtBits f * (i + 1) ≤ fmtBits f * (32768 / fmtBits f) := Nat.mul_le_mul_left _ hi
    have h2 := Nat.mul_div_le 32768 (fmtBits f)
    rw [Nat.mul_add, Nat.mul_one] at h1
    omega
  have h1 := hw _ he
  have h2 := hw _ hj
  apply Nat.eq_of_testBit_eq
  intro b
  rw [testBit_getE, bankBit_putE h]
  by_cases hb : b < fmtBits f
  · by_cases hc : q = r ∧ j = e.1
    · obtain ⟨rfl, rfl⟩ := hc
      rw [if_pos (by omega), if_pos ⟨rfl, rfl⟩, Nat.testBit_mod_two_pow]
      congr 2; omega
    · rw [if_neg (c := q = r ∧ j = e.1) hc, testBit_getE, if_neg]
      rintro ⟨h3, h4⟩
      apply hc
      have hqr : q = r := by omega
      refine ⟨hqr, ?_⟩
      subst hqr
      rcases Nat.lt_trichotomy j e.1 with hl | hl | hl
      · exfalso
        have := Nat.mul_le_mul_left (fmtBits f) (Nat.succ_le_of_lt hl)
        rw [Nat.mul_succ] at this
        omega
      · exact hl
      · exfalso
        have := Nat.mul_le_mul_left (fmtBits f) (Nat.succ_le_of_lt hl)
        rw [Nat.mul_succ] at this
        omega
  · have : ∀ v, (v % 2 ^ fmtBits f).testBit b = false := by
      intro v; rw [Nat.testBit_mod_two_pow]; simp [hb]
    have h3 : (if q = r ∧ j = e.1 then e.2 % 2 ^ fmtBits f else getE x f q j).testBit b = false := by
      split
      · exact this _
      · rw [testBit_getE]; simp [hb]
    rw [h3]; simp [hb]

theorem putEs_rest (f r : Nat) : ∀ (es : List (Nat × Nat)) (x : Context), putEs x f r es = { x with vregs := (putEs x f r es).vregs } := by
  intro es
  induction es with
  | nil => intro x; rfl
  | cons e es ih => intro x; exact ih (putE f r x e)
theorem putEs_wf (f r : Nat) : ∀ (es : List (Nat × Nat)) (x : Context), swf 0 x.vregs = true → swf 0 (putEs x f r es).vregs = true := by
  intro es
  induction es with
  | nil => intro x h; exact h
  | cons e es ih => intro x h; exact ih _ (putE_wf h f r e)
/-- Elements of one view written: each listed element takes its value, all others keep theirs. -/
theorem getE_putEs {f r : Nat} (g : Nat → Nat) {q j : Nat} (hj : j < viewCap f) : ∀ (l : List Nat) (x : Context), swf 0 x.vregs = true →
    (∀ i ∈ l, i < viewCap f) →
    getE (putEs x f r (l.map (fun i => (i, g i)))) f q j = if q = r ∧ j ∈ l then g j % 2 ^ fmtBits f else getE x f q j := by
  intro l
  induction l with
  | nil => intro x _ _; simp [putEs]
  | cons i l ih =>
    intro x h hl
    show getE (putEs (putE f r x (i, g i)) f r (l.map (fun i => (i, g i)))) f q j = _
    rw [ih _ (putE_wf h _ _ _) (fun k hk => hl k (List.mem_cons_of_mem _ hk)), getE_putE h (hl i (List.mem_cons_self ..)) hj]
    by_cases hq : q = r
    · by_cases hi : j ∈ l
      · simp [hq, hi]
      · by_cases hji : j = i
        · subst hji; simp [hq, hi]
        · simp [hq, hi, hji]
    · simp [hq]

end Sys2Proof.Machine
end

