-- ==== Sys2Proof/Laws/Engine.lean ====
section
/-! SUPPORT. What an engine word answers when it starts: refused, or run to its end. -/

namespace Sys2Proof.Machine

variable {s : State} {c : Ctx} {e : Eng} {w : W128} {op : Nat}

/-- The word that a starting engine finds at the head of the queue. -/
theorem headWord_word (h : Starts s c e w op) : (headWord s c e).word = w := by
  obtain ⟨h1, -, -, -⟩ := h
  unfold mayStart at h1
  unfold headWord
  cases hq : headOf s c e with
  | none => rw [hq] at h1; simp at h1
  | some q => rw [hq] at h1; simp at h1; exact h1.2
theorem taken_eq (s : State) (c : Ctx) (e : Eng) : progress (count (popHead s c e) 8 1) = taken s c e := by
  cases c <;> rfl
theorem startWord_eq (h : (headWord s c e).word = w) (hs : List Nat) (j : Job) (foot : List Foot) :
    startWord s c e (headWord s c e) hs j foot = ran s c e w hs j foot := by
  unfold startWord ran
  dsimp only
  rw [taken_eq, h]
  have h1 : (taken s c e).running = s.running := by cases c <;> rfl
  have h2 : (taken s c e).steps = s.steps := by cases c <;> rfl
  rw [h1, h2]
theorem refuseWord_eq (s : State) (c : Ctx) (e : Eng) (code : Nat) : refuseWord s c e code =
    { taken s c e with flt := { s.flt with reports := s.flt.reports ++ [{ code := code, rep := engNum e, ctx := some c }] } } := by
  unfold refuseWord report
  rw [taken_eq]
  have : (taken s c e).flt = s.flt := by cases c <;> rfl
  rw [this]
  rfl

/-- A word that its engine takes. -/
theorem engineWord_taken (h : Starts s c e w op) (b : State → Begin) :
    engineWord s c e w op b = .next (settle s (begun s c e (b s))) := by
  obtain ⟨h1, h2, h3, h4⟩ := h
  simp [engineWord, guarded, h1, h2, h3, h4]
theorem engineWord_refused {b : State → Begin} {code : Nat} (h : Starts s c e w op) (hb : b s = .refuse code) :
    engineWord s c e w op b = .next (if reporting s (engNum e) then s else { taken s c e with
      flt := { s.flt with reports := s.flt.reports ++ [{ code := code, rep := engNum e, ctx := some c }] } }) := by
  rw [engineWord_taken h, hb]
  refine congrArg Host.Outcome.next ?_
  unfold begun
  dsimp only
  rw [refuseWord_eq]
  exact settle_one (q := { code := code, rep := engNum e, ctx := some c }) (by cases c <;> rfl)
theorem breach_none {q : Option (Eng × Ctx)} {id : Option Nat} {foot done : List Foot} (h : foes s q id foot = []) :
    breach s q id foot done = s := by
  unfold breach
  rw [h]
  rfl
/-- A word alone on its places is alone after its accesses, which start and end no other word. -/
theorem foes_ran {t : State} {hs : List Nat} {j : Job} {foot : List Foot} (h : Alone s c e foot)
    (hr : t.running = (ran s c e w hs j foot).running) (ht : t.steps = s.steps) (hd : t.stepDone = s.stepDone) :
    foes t (some (e, c)) (some (headWord s c e).id) foot = [] := by
  unfold Alone foes at h
  unfold foes
  rw [List.filter_eq_nil_iff] at h ⊢
  rw [hr, ht, hd]
  intro r hm
  rcases List.mem_append.1 hm with hm | hm
  · rcases List.mem_append.1 hm with hm | hm
    · exact h r (List.mem_append.2 (.inl hm))
    · cases List.mem_singleton.1 hm
      simp
  · obtain ⟨hm, hs⟩ := List.mem_filter.1 hm
    refine h r (List.mem_append.2 (.inr (List.mem_filter.2 ⟨hm, ?_⟩)))
    unfold startsAfter at hs ⊢
    unfold findRun at hs ⊢
    cases hf : s.running.find? (fun x => x.id = (headWord s c e).id) with
    | none => simp [hf]
    | some x =>
      rw [hr] at hs
      unfold ran at hs
      simp only [Option.bind_some, List.find?_append, hf, Option.some_or] at hs ⊢
      exact hs
/-- A word that starts, whose work neither fails nor reports a fault, and that meets no other on a place. -/
theorem engineWord_run {b : State → Begin} {hs : List Nat} {j : Job} {run : State → Got} {foot : List Foot} (h : Starts s c e w op)
    (hb : b s = .start hs j run foot) (hf : (run (ran s c e w hs j foot)).fail = none)
    (hq : (run (ran s c e w hs j foot)).s.flt.reports = s.flt.reports)
    (ha : foes (run (ran s c e w hs j foot)).s (some (e, c)) (some (headWord s c e).id) foot = []) :
    engineWord s c e w op b = .next (run (ran s c e w hs j foot)).s := by
  rw [engineWord_taken h, hb]
  unfold begun runWord
  dsimp only
  rw [startWord_eq (headWord_word h), hf]
  dsimp only
  rw [breach_none ha, settle_same hq]
theorem beginWord_start {own : List (Bool × Nat)} {us : List Use} {j : Job} {run : State → Got} {more : List Foot}
    (h1 : firstFault own = none) (h2 : checkUses s us = none) (h3 : heldPages s us = []) :
    beginWord s own us j run more = .start (useIdx us) j run (useFoot s us ++ more) := by
  unfold beginWord beginPart
  rw [h1, h2, h3]
theorem beginWord_own {own : List (Bool × Nat)} {us : List Use} {j : Job} {run : State → Got} {code : Nat} {more : List Foot}
    (h1 : firstFault own = some code) : beginWord s own us j run more = .refuse code := by
  unfold beginWord beginPart
  rw [h1]
theorem runFits_zero (ext : Nat) (r : Int × Nat) (h : r.2 = 0) : runFits ext r = true := by simp [runFits, h]
theorem runFits_of (ext : Nat) (r : Int × Nat) (h1 : 0 ≤ r.1) (h2 : r.1 + r.2 ≤ (ext : Int)) : runFits ext r = true := by
  simp [runFits, h1, h2]
theorem le_ext {h : Handle} {a : Int} {n : Nat} (k : a + n ≤ h.npages.toNat * 65536) : a + n ≤ (extentOf h : Int) := by
  unfold extentOf
  rw [Int.natCast_mul]
  exact k
/-- The checks on handles pass where every use fits. -/
theorem checkUses_fit {us : List Use} (h : UsesFit s us) : checkUses s us = none := by
  unfold checkUses
  rw [if_neg, if_neg, if_neg, if_neg, if_neg]
  · rw [List.any_eq_true]
    rintro ⟨u, hu, hh⟩
    rw [List.any_eq_true] at hh
    obtain ⟨r, hr, hh⟩ := hh
    obtain ⟨-, -, -, -, h5⟩ := h u hu
    have k : runFits (extentOf (getH s u.idx)) r = true := by
      by_cases hz : r.2 = 0
      · exact runFits_zero _ _ hz
      · obtain ⟨h6, h7⟩ := (h5 r hr).2 hz
        exact runFits_of _ _ h6 (le_ext h7)
    rw [k] at hh
    cases hh
  · simp only [List.any_eq_true, not_exists, not_and, Bool.not_eq_true, Bool.and_eq_true, Bool.and_eq_false_iff, decide_eq_true_eq,
      decide_eq_false_iff_not, Decidable.not_not]
    intro u hu ha r hr
    obtain ⟨-, -, -, -, h5⟩ := h u hu
    exact (h5 r hr).1 ha
  · simp only [List.any_eq_true, not_exists, not_and, Bool.and_eq_true, Bool.not_eq_true']
    intro u hu ha
    obtain ⟨-, -, -, h4, -⟩ := h u hu
    rw [h4 ha]; simp
  · simp only [List.any_eq_true, not_exists, not_and, Bool.and_eq_true, Bool.or_eq_true]
    intro u hu ha
    obtain ⟨-, -, h3, -, -⟩ := h u hu
    rw [h3 ha]; simp
  · simp only [List.any_eq_true, not_exists, not_and, Bool.or_eq_true, Bool.not_eq_true', decide_eq_true_eq]
    intro u hu
    obtain ⟨h1, h2, -⟩ := h u hu
    rw [h1, h2]; simp
/-- No page is protected. -/
theorem heldPages_none {us : List Use} (h : s.st.protSpad = []) : heldPages s us = [] := by
  unfold heldPages protPage
  rw [h]
  simp

theorem canon_taken (h : Canon s) (c : Ctx) (e : Eng) : Canon (taken s c e) := by
  rw [← taken_eq]
  exact (keep_progress (keep_count (keep_popHead (Keep.refl s)))).1.1.2.2 h
theorem canon_ran (h : Canon s) (c : Ctx) (e : Eng) (w : W128) (hs : List Nat) (j : Job) (foot : List Foot) (hj : JobCanon j) :
    Canon (ran s c e w hs j foot) := by
  have k : Keep s (ran s c e w hs j foot) := by
    have k1 : Keep s (taken s c e) := by rw [← taken_eq]; exact keep_progress (keep_count (keep_popHead (Keep.refl s)))
    refine keep_running k1 fun _ h1 p hp => ?_
    rcases List.mem_append.1 hp with hp | hp
    · exact canon_running h1 p (by have : (taken s c e).running = s.running := by cases c <;> rfl
                                   rw [this]; exact hp)
    · cases List.mem_singleton.1 hp
      exact hj
  exact k.1.1.2.2 h
@[simp] theorem ran_getCtx (s : State) (c : Ctx) (e : Eng) (w : W128) (hs : List Nat) (j : Job) (foot : List Foot) :
    getCtx (ran s c e w hs j foot) c = popped (getCtx s c) e := by cases c <;> rfl
@[simp] theorem popped_vregs (x : Context) (e : Eng) : (popped x e).vregs = x.vregs := rfl
@[simp] theorem popped_regs (x : Context) (e : Eng) : (popped x e).regs = x.regs := rfl
@[simp] theorem popped_masks (x : Context) (e : Eng) : (popped x e).masks = x.masks := rfl
@[simp] theorem popped_mslots (x : Context) (e : Eng) : (popped x e).mslots = x.mslots := rfl
@[simp] theorem popped_rslots (x : Context) (e : Eng) : (popped x e).rslots = x.rslots := rfl

end Sys2Proof.Machine
end

