-- ==== Sys2Proof/Laws/Issue.lean ====
section
/-! SUPPORT. How an instruction issues: what `runInsn` answers for a ready instruction, and what its results write. -/

namespace Sys2Proof.Machine

variable {s t : State} {c : Ctx} {w : W32} {srcs : List Nat}

@[simp] theorem setCtx_setCtx (s : State) (c : Ctx) (x y : Context) : setCtx (setCtx s c x) c y = setCtx s c y := by
  cases c <;> rfl
@[simp] theorem setCtx_getCtx (s : State) (c : Ctx) : setCtx s c (getCtx s c) = s := by cases c <;> rfl
@[simp] theorem getCtx_issued (s : State) (c : Ctx) : getCtx (issued s c) c = stepped (getCtx s c) := by cases c <;> rfl
@[simp] theorem steps_issued (s : State) (c : Ctx) : (issued s c).steps = s.steps := by cases c <;> rfl

/-- The state in which a context has issued differs in that context, the step's counts and the progress mark alone. -/
theorem onlyCtx_issued (s : State) (c : Ctx) : OnlyCtx s (issued s c) c := by cases c <;> rfl
/-- A context replaced after it has issued: nothing else changes. -/
theorem onlyCtx_setCtx (s : State) (c : Ctx) (x : Context) : OnlyCtx s (setCtx (issued s c) c x) c := by cases c <;> rfl
theorem onlyCtx_modCtx (s : State) (c : Ctx) (f : Context → Context) : OnlyCtx s (modCtx (issued s c) c f) c :=
  onlyCtx_setCtx s c _

/-- What a ready instruction of a legal word answers. -/
theorem runInsn_ready {eff : State → Context → Eff} (hl : legalWord w = true) (h : Ready s c w srcs) :
    runInsn s c w srcs eff = .next (finish s c (eff (issued s c) (getCtx s c))) := by
  obtain ⟨h1, h2, h3⟩ := h
  simp [runInsn, operandFault, hl, h1, h2, h3]
/-- What a ready instruction answers whose operands give no fault. -/
theorem runInsn_go {eff : State → Context → Eff} {pre : List Nat × Option Nat} (hl : legalWord w = true) (h : Ready s c w srcs)
    (hp : operandFault s (getCtx s c) pre = none) :
    runInsn s c w srcs eff pre = .next (finish s c (eff (issued s c) (getCtx s c))) := by
  obtain ⟨h1, h2, h3⟩ := h
  simp [runInsn, hp, hl, h1, h2, h3]
/-- An instruction of a legal word whose operands give a fault traps, once those are available. -/
theorem runInsn_fault {eff : State → Context → Eff} {ks : List Nat} {code : Nat} (hl : legalWord w = true) (h : Ready s c w ks) :
    runInsn s c w srcs eff (ks, some code) = .next (trapped s c code) := by
  obtain ⟨h1, h2, h3⟩ := h
  simp [runInsn, operandFault, hl, h1, h2, h3]
/-- A word with an illegal encoding traps, whatever its sources. -/
theorem runInsn_illegal {eff : State → Context → Eff} {pre : List Nat × Option Nat} (hl : legalWord w = false) (h1 : canIssue s c = true)
    (h2 : fetch s (getCtx s c) = some w) : runInsn s c w srcs eff pre = .next (trapped s c fIllegal) := by
  simp [runInsn, hl, h1, h2]

/-- The state after a trap: a report more than the state in which the context has issued. -/
theorem traps_trapped {i : Instr} {code : Nat} (h : exec i s = .next (trapped s c code)) : Traps i s c code := by
  unfold trapped at h
  rw [settle_one (q := { code := code, rep := ctxRep c, ctx := some c }) (by cases c <;> rfl)] at h
  unfold Traps
  by_cases hr : reporting s (ctxRep c) = true
  · rw [if_pos hr] at h
    exact (if_pos hr).mpr h
  · rw [if_neg hr] at h
    exact (if_neg hr).mpr ⟨_, h, by cases c <;> rfl, by cases c <;> rfl⟩
theorem stalls_stalled {i : Instr} (h : exec i s = .next (stalled s c)) : Stalls i s c := h

theorem ctx_stepped {x : Context} (h : CtxCanon x) : CtxCanon (stepped x) := h
theorem rdS_wrS {x : Context} (h : CtxCanon x) (k n : Nat) (v : W32) :
    rdS (wrS x k v) n = if n = k ∧ n ≠ 0 then v else rdS x n := by
  unfold rdS wrS
  by_cases hk : k = 0
  · subst hk
    by_cases hn : n = 0 <;> simp [hn]
  · simp only [hk, if_false]
    rw [sget_sput_wf 0 _ _ _ _ h.1]
    by_cases hn : n = 0
    · simp [hn]
    · simp [hn]
theorem rdE_wrE {x : Context} (h : CtxCanon x) (k n : Nat) (v : W128) : rdE (wrE x k v) n = if n = k then v else rdE x n :=
  sget_sput_wf 0 _ _ _ _ h.2.2.1

/-- What a result of a scalar register writes. -/
theorem writesReg_setReg {x : Context} {rd : BitVec 5} {v : W32} {lat : Nat} (hx : getCtx t c = stepped x) (h : CtxCanon x)
    (hs : t.steps = s.steps) :
    WritesReg s x (getCtx (setReg t c rd v lat) c) rd v lat ∧ OnlyRegs x (getCtx (setReg t c rd v lat) c) := by
  unfold setReg
  rw [modCtx_same, hx, hs]
  dsimp only
  have e : ∀ n, rdS (wrS (stepped x) rd.toNat v) n = if n = rd.toNat ∧ n ≠ 0 then v else rdS x n :=
    fun n => rdS_wrS (ctx_stepped h) _ _ _
  have hr : (wrS (stepped x) rd.toNat v).ready = x.ready := by unfold wrS; split <;> rfl
  by_cases hz : rd = 0
  · subst hz
    simp only [if_true]
    refine ⟨⟨e, fun k => ?_⟩, rfl⟩
    rw [hr]
    by_cases hk : k = 0 <;> simp [hk]
  · have hn : rd.toNat ≠ 0 := fun q => hz (BitVec.eq_of_toNat_eq q)
    simp only [hz, if_false]
    refine ⟨⟨e, fun k => ?_⟩, ?_⟩
    · dsimp only
      rw [hr, sget_sput_wf 0 _ _ _ _ h.2.2.2.1]
      by_cases hk : k = rd.toNat <;> simp [hk, hn]
    · unfold OnlyRegs wrS
      simp only [hn, if_false]
/-- What a result of a staging register writes. -/
theorem writesStage_setStage {x : Context} {ed : BitVec 3} {v : W128} {lat : Nat} (hx : getCtx t c = stepped x) (h : CtxCanon x)
    (hs : t.steps = s.steps) :
    WritesStage s x (getCtx (setStage t c ed v lat) c) ed v lat ∧ OnlyStage x (getCtx (setStage t c ed v lat) c) := by
  unfold setStage
  rw [modCtx_same, hx, hs]
  exact ⟨⟨fun n => rdE_wrE (ctx_stepped h) _ _ _, fun k => by
    refine (sget_sput_wf 0 _ _ _ _ h.2.2.2.1).trans ?_
    by_cases hk : k = eKey ed.toNat
    · subst hk; simp only [if_true]
    · simp [hk]⟩, rfl⟩

/-- An instruction whose effect is one register result. -/
theorem regResult_of {i : Instr} {rd : BitVec 5} {v : W32} {lat : Nat} {eff : State → Context → Eff}
    (he : exec i s = runInsn s c w srcs eff) (hl : legalWord w = true)
    (hf : eff (issued s c) (getCtx s c) = toReg (issued s c) (getCtx s c) c rd v lat) (hc : Canon s) :
    RegResult i s c w srcs rd v lat := by
  intro hr
  rw [runInsn_ready hl hr, hf] at he
  unfold toReg at he
  by_cases hb : regReserved (getCtx s c) rd.toNat = true
  · simp only [hb, if_true] at he ⊢
    exact he
  · rw [if_neg hb] at he ⊢
    have k := writesReg_setReg (s := s) (t := issued s c) (rd := rd) (v := v) (lat := lat) (getCtx_issued s c)
      (canon_getCtx hc c) (steps_issued s c)
    exact ⟨_, he, show OnlyCtx s (setReg (issued s c) c rd v lat) c from onlyCtx_modCtx s c _, k.2, k.1⟩
/-- An instruction whose effect is one staging register result. -/
theorem stageResult_of {i : Instr} {ed : BitVec 3} {v : W128} {lat : Nat} {eff : State → Context → Eff}
    (he : exec i s = runInsn s c w srcs eff) (hl : legalWord w = true)
    (hf : eff (issued s c) (getCtx s c) = .go (setStage (issued s c) c ed v lat)) (hc : Canon s) :
    StageResult i s c w srcs ed v lat := by
  intro hr
  rw [runInsn_ready hl hr, hf] at he
  have k := writesStage_setStage (s := s) (t := issued s c) (ed := ed) (v := v) (lat := lat) (getCtx_issued s c)
    (canon_getCtx hc c) (steps_issued s c)
  exact ⟨_, he, show OnlyCtx s (setStage (issued s c) c ed v lat) c from onlyCtx_modCtx s c _, k.2, k.1⟩
/-- A compare-and-branch. -/
theorem branches_of {i : Instr} {p : Prop} [Decidable p] {q : BitVec 16} {eff : State → Context → Eff}
    (he : exec i s = runInsn s c w srcs eff) (hl : legalWord w = true)
    (hf : eff (issued s c) (getCtx s c) = .go (if p then jumpTo (issued s c) c q else issued s c)) :
    Branches i s c w srcs p q := by
  intro hr
  rw [runInsn_ready hl hr, hf] at he
  refine ⟨_, he, ?_, fun hp => ?_, fun hp => ?_⟩
  · dsimp only [finish]
    split
    · exact onlyCtx_modCtx s c _
    · exact onlyCtx_issued s c
  · simp only [finish, if_pos hp, jumpTo, modCtx_same, getCtx_issued, steps_issued]
  · simp only [finish, if_neg hp, getCtx_issued]

end Sys2Proof.Machine
end

