-- ==== Sys2Proof/Laws/KeepCore.lean ====
section
/-!
SUPPORT. What the control core's instructions, the handle operations and the frame of every engine word keep.
-/

namespace Sys2Proof.Machine

/-- The command answers a next state that keeps what `Keep` says. -/
def KeepO (s : State) (o : Out) : Prop := ∃ t, o = .next t ∧ Keep s t
/-- The command answers a next state that keeps what `Mid` says. -/
def MidO (s : State) (o : Out) : Prop := ∃ t, o = .next t ∧ Mid s t
/-- The command answers a next state that keeps what `Ok` says. -/
def OkO (s : State) (o : Out) : Prop := ∃ t, o = .next t ∧ Ok s t

theorem KeepO.mid {s : State} {o : Out} (h : KeepO s o) : MidO s o := h.elim fun t k => ⟨t, k.1, k.2.mid⟩
theorem MidO.ok {s : State} {o : Out} (h : MidO s o) : OkO s o := h.elim fun t k => ⟨t, k.1, k.2.1⟩
theorem KeepO.ok {s : State} {o : Out} (h : KeepO s o) : OkO s o := h.mid.ok

variable {r s t : State} {c : Ctx} {e : Eng}

theorem keepO_next (h : Keep r s) : KeepO r (.next s) := ⟨s, rfl, h⟩
theorem keepO_guarded {b : Bool} (h : Keep r s) (k : Keep r t) : KeepO r (guarded b s t) :=
  ⟨_, rfl, keep_ite (keep_settle h k) h⟩
theorem keepO_occurs {b : Bool} (h : Keep r s) (k : Keep r t) : KeepO r (occurs b s t) := ⟨_, rfl, keep_ite k h⟩

/-! ### Instructions -/

theorem ctx_issueCtx {x : Context} (h : CtxCanon x) : CtxCanon (issueCtx x) := h
theorem keep_issued (h : Keep r s) : Keep r (issued s c) := keep_progress (keep_count (keep_modCtx h fun _ => ctx_issueCtx))
theorem keep_stalled (h : Keep r s) : Keep r (stalled s c) := keep_modCtx h fun _ k => k
theorem keep_trapped {code : Nat} (h : Keep r s) : Keep r (trapped s c code) := keep_settle h (keep_report (keep_issued h))

/-! ### The host's accesses -/

theorem keep_later {m : Mgmt} (h : Keep r s) : Keep r (later s m) := h
/-- A host's access that acts now, or waits for the end of the step. -/
theorem keep_hosted {b : Bool} {m : Mgmt} (h : Keep r s) (k : Keep r t) : KeepO r (hosted s b m t) :=
  keepO_guarded h (keep_ite k (keep_later h))

/-- What an instruction's effect keeps. -/
def KeepE (s : State) : Eff → Prop
  | .go t => Keep s t
  | .trap _ => True
  | .stall => True

theorem keep_finish {f : Eff} (h : Keep r s) (k : KeepE r f) : Keep r (finish s c f) := by
  cases f with
  | go t => exact k
  | trap code => exact keep_trapped h
  | stall => exact keep_stalled h

/-- An instruction answers a next state whatever stands in the state; what its effect keeps from the issued state, it keeps. -/
theorem keep_runInsn {w : W32} {srcs : List Nat} {eff : State → Context → Eff} {pre : List Nat × Option Nat}
    (hf : ∀ t x, Keep s t → KeepE s (eff t x)) : KeepO s (runInsn s c w srcs eff pre) := by
  unfold runInsn
  dsimp only
  split
  · split
    · split
      · exact keepO_next (keep_trapped (.refl s))
      · split
        · exact keepO_next (keep_finish (.refl s) (hf _ _ (keep_issued (.refl s))))
        · exact keepO_next (.refl s)
    · exact keepO_next (keep_trapped (.refl s))
  · exact keepO_next (.refl s)

theorem keep_setReg {rd : BitVec 5} {v : W32} {lat : Nat} (h : Keep r s) : Keep r (setReg s c rd v lat) :=
  keep_modCtx h fun x k => by
    dsimp only
    split <;> first | exact ctx_wrS k _ _ | exact ctx_ready (ctx_wrS k _ _) _ _
theorem keep_setStage {ed : BitVec 3} {v : W128} {lat : Nat} (h : Keep r s) : Keep r (setStage s c ed v lat) :=
  keep_modCtx h fun _ k => ctx_ready (ctx_wrE k _ _) _ _
theorem keep_toReg {x : Context} {rd : BitVec 5} {v : W32} {lat : Nat} (h : Keep r s) : KeepE r (toReg s x c rd v lat) := by
  unfold toReg; split <;> first | exact keep_setReg h | trivial
theorem keep_jumpTo {p : BitVec 16} (h : Keep r s) : Keep r (jumpTo s c p) := keep_modCtx h fun _ k => k
theorem keep_aluR {fn lat : Nat} {rd ra rb : BitVec 5} {f : W32 → W32 → W32} : KeepO s (aluR s c fn lat rd ra rb f) :=
  keep_runInsn fun _ _ h => keep_toReg h
theorem keep_aluI {op : Nat} {rd ra : BitVec 5} {imm : BitVec 16} {f : W32 → W32} : KeepO s (aluI s c op rd ra imm f) :=
  keep_runInsn fun _ _ h => keep_toReg h
theorem keep_execLui {rd : BitVec 5} {imm : BitVec 16} : KeepO s (execLui c rd imm s) :=
  keep_runInsn fun _ _ h => keep_toReg h
theorem keep_execLw {rd ra : BitVec 5} {imm : BitVec 16} : KeepO s (execLw c rd ra imm s) :=
  keep_runInsn fun _ _ h => by dsimp only; split <;> first | exact keep_toReg h | trivial
theorem keep_storeInsn {w : W32} {ra : BitVec 5} {src n : Nat} {imm : BitVec 16} {data : Context → Nat} :
    KeepO s (storeInsn s c w ra src imm n data) :=
  keep_runInsn (eff := fun t x => if memReserved t _ then .stall else .go (dmemStore t (some c) _ (toLE n (data x))))
    fun _ _ h => by split <;> first | exact keep_dmemStore h | trivial
theorem keep_execSw {rd ra : BitVec 5} {imm : BitVec 16} : KeepO s (execSw c rd ra imm s) := keep_storeInsn
theorem keep_execLde {ed : BitVec 3} {ra : BitVec 5} {imm : BitVec 16} : KeepO s (execLde c ed ra imm s) :=
  keep_runInsn fun _ _ h => by dsimp only; split <;> first | exact keep_setStage h | trivial
theorem keep_execSte {ed : BitVec 3} {ra : BitVec 5} {imm : BitVec 16} : KeepO s (execSte c ed ra imm s) := keep_storeInsn
theorem keep_branch {op : Nat} {ra rb : BitVec 5} {off : BitVec 16} {f : W32 → W32 → Bool} : KeepO s (branch s c op ra rb off f) :=
  keep_runInsn fun _ _ h => keep_ite (keep_jumpTo h) h
theorem keep_linkTo {x : Context} {rd : BitVec 5} {p : BitVec 16} (h : Keep r s) : KeepE r (linkTo s x c rd p) := by
  unfold linkTo; split <;> first | exact keep_jumpTo (keep_setReg h) | trivial
theorem keep_execJal {rd : BitVec 5} {off : BitVec 21} : KeepO s (execJal c rd off s) := keep_runInsn fun _ _ h => keep_linkTo h
theorem keep_execJalr {rd ra : BitVec 5} {imm : BitVec 16} : KeepO s (execJalr c rd ra imm s) :=
  keep_runInsn fun _ _ h => keep_linkTo h
theorem keep_execBcr {m : BitVec 10} {off : BitVec 16} : KeepO s (execBcr c m off s) :=
  keep_runInsn fun _ _ h => keep_ite (keep_jumpTo h) h
theorem keep_execCrclr {m : BitVec 10} : KeepO s (execCrclr c m s) := keep_runInsn fun _ _ h => keep_modCtx h fun _ k => k
theorem keep_execEfldi {ed : BitVec 3} {p : BitVec 7} {imm : BitVec 16} : KeepO s (execEfldi c ed p imm s) :=
  keep_runInsn fun _ _ h => keep_setStage h
theorem keep_execEfld {ed : BitVec 3} {p : BitVec 7} {ra l : BitVec 5} : KeepO s (execEfld c ed p ra l s) :=
  keep_runInsn fun _ _ h => keep_setStage h
theorem keep_execErd {rd : BitVec 5} {es : BitVec 3} {k : BitVec 2} : KeepO s (execErd c rd es k s) :=
  keep_runInsn fun _ _ h => keep_toReg h
theorem keep_pushWord {w : W128} (h : Keep r s) : Keep r (pushWord s c e w) := by
  unfold pushWord; dsimp only; exact keep_modCtx h fun _ k => ctx_setQueue k _ _
theorem keep_execIssue {ed : BitVec 3} : KeepO s (execIssue c ed s) :=
  keep_runInsn fun _ _ h => by
    dsimp only; split
    · trivial
    · split <;> first | exact keep_pushWord h | trivial
theorem keep_execFset {ra : BitVec 5} : KeepO s (execFset c ra s) := keep_runInsn fun _ _ h => keep_pushSet h
theorem keep_execFclr {ra : BitVec 5} : KeepO s (execFclr c ra s) := keep_runInsn fun _ _ h => keep_pushClear h
theorem keep_waitOn {w : CtxWait} (h : Keep r s) : Keep r (waitOn s c w) := keep_modCtx h fun _ k => k
theorem keep_execFwait {ra : BitVec 5} : KeepO s (execFwait c ra s) := keep_runInsn fun _ _ h => keep_waitOn h
theorem keep_execFrd {rd ra : BitVec 5} : KeepO s (execFrd c rd ra s) := keep_runInsn fun _ _ h => keep_toReg h
theorem keep_execSrd {rd : BitVec 5} {n : BitVec 12} : KeepO s (execSrd c rd n s) := keep_runInsn fun _ _ h => keep_toReg h
theorem keep_execSfence : KeepO s (execSfence c s) := keep_runInsn fun _ _ h => keep_ite (keep_waitOn h) h
theorem keep_execLfence : KeepO s (execLfence c s) := keep_runInsn fun _ _ h => keep_ite (keep_waitOn h) h
theorem keep_execSnapf {ra : BitVec 5} : KeepO s (execSnapf c ra s) := by
  unfold execSnapf
  dsimp only
  refine keep_runInsn fun t x h => ?_
  exact keep_ite (keep_waitOn h) h
theorem keep_execHalt : KeepO s (execHalt c s) := keep_runInsn fun _ _ h => keep_modCtx h fun _ k => k
theorem keep_execCstart {ra : BitVec 5} : KeepO s (execCstart c ra s) :=
  keep_runInsn fun _ _ h => keep_modCtx h fun _ k => k
theorem keep_execFwIllegal {w : W32} : KeepO s (execFwIllegal c w s) := keepO_guarded (.refl s) (keep_trapped (.refl s))
theorem keep_execFwPcRange : KeepO s (execFwPcRange c s) := keepO_guarded (.refl s) (keep_trapped (.refl s))
theorem keep_takeSall {q : Running} (h : Keep r s) : Keep r (takeSall s q) := by
  unfold takeSall
  split
  · exact keep_setJob (keep_ite (keep_foldl (fun _ _ => keep_pushClear) _ _ h) h) trivial
  · exact h
theorem keep_execWaitSatisfied {w : WaitRef} : KeepO s (execWaitSatisfied w s) := by
  have h := Keep.refl s
  unfold execWaitSatisfied
  split
  · split
    · split
      · exact keepO_next (keep_modCtx h fun x k => by split <;> exact k)
      · exact keepO_next h
    · split <;> first | exact keepO_next (keep_modCtx h fun _ k => ctx_setHeadWait k _ _) | exact keepO_next h
    · split <;> first | exact keepO_next (keep_takeSall h) | exact keepO_next h
  · exact keepO_next h
theorem keep_freePlace {k : Nat} {f : Foot} (h : Keep r s) : Keep r (freePlace s k f) := by
  unfold freePlace
  split
  · exact keep_spad h (swf_sputs _ _ _ _)
  · exact keep_acc h (swf_foldl 0 _ (fun _ _ => swf_sputs 0 _ _ _) _ _) id
  · exact keep_stat h (swf_sputs _ _ _ _) id
  · exact keep_trackers h (swf_sputs _ _ _ _)
  · exact keep_any h
  · exact keep_modCtx h fun _ hx => ctx_vregs hx (swf_sputs _ _ _ _ hx.2.2.2.2.1)
theorem keep_freeFoot {f : Foot} (h : Keep r s) : Keep r (freeFoot s f) := keep_ite (keep_freePlace h) h
theorem keep_freeFeet {fs : List Foot} (h : Keep r s) : Keep r (freeFeet s fs) := keep_foldl (fun _ _ => keep_freeFoot) _ _ h
theorem keep_execWordComplete {id : Nat} : KeepO s (execWordComplete id s) := by
  have h := Keep.refl s
  unfold execWordComplete
  split
  · next q _ =>
    have k : Keep s (progress { leaveArray (dropRun s id) q.eng id with stepDone := s.stepDone ++ [q] }) :=
      keep_progress (keep_any (keep_leaveArray (keep_dropRun h)))
    have k2 := keep_ite (p := q.clash = true) (keep_freeFeet (fs := q.wrote) k) k
    exact keepO_guarded h (keep_ite (keep_pushSet k2) k2)
  · exact keepO_next h

/-! ### Handles -/

/-- A handle operation that is done keeps what `Keep` says. -/
def KeepX (s : State) : Except Nat State → Prop
  | .ok t => Keep s t
  | .error _ => True

theorem keep_allocH {h b n p : Nat} {w i q : Bool} (k : Keep r s) : KeepX r (allocH s h b n p w i q) := by
  unfold allocH; split <;> first | exact keep_emptyPages (keep_setH k) | trivial
theorem keep_freeH {h : Nat} (k : Keep r s) : KeepX r (freeH s h) := by
  unfold freeH; split <;> first | exact keep_emptyPages (keep_setH k) | trivial
theorem keep_rebaseH {h d : Nat} (k : Keep r s) : KeepX r (rebaseH s h d) := by
  unfold rebaseH; split
  · trivial
  · split <;> first | exact keep_emptyPages (keep_setH (keep_setH k)) | trivial
theorem keep_flagsH {h : Nat} {w i q : Bool} (k : Keep r s) : KeepX r (flagsH s h w i q) := by
  unfold flagsH; split <;> first | exact keep_setH k | trivial
theorem keep_drainH {h i n : Nat} (k : Keep r s) : KeepX r (drainH s h i n) := by
  unfold drainH; dsimp only; split
  · trivial
  · split <;> first | exact keep_emptyPages k | trivial
theorem keep_handleOp {op : Nat} {a b : W32} (k : Keep r s) : KeepX r (handleOp s op a b) := by
  unfold handleOp
  split
  · exact keep_allocH k
  · exact keep_freeH k
  · exact keep_rebaseH k
  · exact keep_flagsH k
  · exact keep_drainH k
  · exact k
theorem keep_handleResult {rd : BitVec 5} {v : W32} (k : Keep r s) : Keep r (handleResult s c rd v) :=
  keep_modCtx k fun _ h => ctx_wrS h _ _
theorem keep_applyHandleOp {o : HandleOp} (k : Keep r s) : Keep r (applyHandleOp s o) := by
  have h := keep_handleOp (op := o.op) (a := o.a) (b := o.b) k
  unfold applyHandleOp
  split
  · next e =>
    rw [e] at h
    split <;> first | exact keep_handleResult h | exact h
  · have k2 : Keep r (modCtx s o.ctx (fun x => setCR x 0)) := keep_modCtx k fun _ hx => ctx_setCR hx 0
    dsimp only
    split <;> first | exact keep_handleResult (keep_report k2) | exact keep_report k2
theorem keep_applyHandleOps (k : Keep r s) : Keep r (applyHandleOps s) := keep_foldl (fun _ _ => keep_applyHandleOp) _ _ k
theorem keep_handleInsn {op : Nat} {rd ra rb : BitVec 5} {v : Nat} {w : Bool} : KeepO s (handleInsn s c op rd ra rb v w) :=
  keep_runInsn fun t x h => by
    dsimp only
    split
    · trivial
    · · have k : Keep s (if w = true then modCtx t c (fun y => claimReg y s.steps rd.toNat) else t) :=
          keep_ite (keep_modCtx h fun x hx => by
            unfold claimReg
            split <;> first | exact hx | exact ctx_ready hx _ _) h
        exact k
theorem keep_hostRefused (h : Keep r s) : Keep r (hostRefused s) := h
theorem keep_hostEntry {h : Nat} {w : W64} (k : Keep r s) : Keep r (hostEntry s h w) := by
  unfold hostEntry
  split
  · exact k
  · have h1 : KeepX r (if bit w 59 then
        allocH s h (fld w 37 11) (fld w 26 11) (fld w 48 3) (bit w 58) (bit w 57) (bit w 56) else freeH s h) := by
      split <;> first | exact keep_allocH k | exact keep_freeH k
    dsimp only
    split
    · next e => rw [e] at h1; exact h1
    · exact k
/-- One entry of a host frame over the handle table window. -/
def hostHandle1 (first : Nat) (ws : List W32) (s : State) (i : Nat) : State :=
  let last := first + ws.length
  let at' (k : Nat) : Option W32 := if first ≤ k && k < last then ws[k - first]? else none
  let h := first / 4 + i
  match at' (4 * h), at' (4 * h + 1) with
  | some lo, some hi => if h < handleCount then hostEntry s h (BitVec.ofNat 64 (lo.toNat + hi.toNat * 2 ^ 32)) else s
  | none, none => s
  | _, _ => if h < handleCount then hostRefused s else s
theorem hostHandles_eq (n : Nat) (ws : List W32) (s : State) :
    hostHandles n ws s = (List.range ((n + ws.length) / 4 + 1 - n / 4)).foldl (hostHandle1 n ws) s := rfl
theorem keep_hostHandle1 {n : Nat} {ws : List W32} {i : Nat} (k : Keep r s) : Keep r (hostHandle1 n ws s i) := by
  unfold hostHandle1
  extract_lets last atk h
  generalize atk (4 * h) = a
  generalize atk (4 * h + 1) = b
  cases a <;> cases b
  · exact k
  · exact keep_ite (keep_hostRefused k) k
  · exact keep_ite (keep_hostRefused k) k
  · exact keep_ite (keep_hostEntry k) k
theorem keep_hostHandles {n : Nat} {ws : List W32} (k : Keep r s) : Keep r (hostHandles n ws s) := by
  rw [hostHandles_eq]
  exact keep_foldl (fun _ _ => keep_hostHandle1) _ _ k

/-! ### Engine words -/

/-- What a word does when it starts keeps what `Keep` says. -/
def KeepB (s : State) : Begin → Prop
  | .refuse _ => True
  | .wait _ _ _ _ => True
  | .start _ j run _ => JobCanon j ∧ ∀ t, Keep s t → Keep s (run t).s

theorem keep_breach {q : Option (Eng × Ctx)} {id : Option Nat} {fs done : List Foot} (h : Keep r s) : Keep r (breach s q id fs done) := by
  unfold breach
  dsimp only
  split
  · exact h
  · refine keep_freeFeet (keep_running h fun _ k p hp => ?_)
    obtain ⟨p', hp', rfl⟩ := List.mem_map.1 hp
    split <;> exact canon_running k p' hp'
theorem keep_wrote {id : Nat} {fs : List Foot} (h : Keep r s) : Keep r (wrote s id fs) := by
  unfold wrote
  dsimp only
  split
  · exact keep_ite (keep_freeFeet (keep_addWrote h)) (keep_addWrote h)
  · exact keep_addWrote h
theorem keep_runWord {id : Nat} {run : State → Got} {fs : List Foot} (h : Keep r (run s).s) : Keep r (runWord s c e id run fs) := by
  unfold runWord
  dsimp only
  split
  · exact keep_failWord (keep_breach h)
  · exact keep_breach h
theorem keep_begun {b : Begin} (hb : KeepB s b) : Keep s (begun s c e b) := by
  cases b with
  | refuse code => exact keep_refuseWord (.refl s)
  | wait ps hs foot d => exact keep_urge (keep_startWord (.refl s) fun k => canon_getCtx k c)
  | start hs j run foot => exact keep_runWord (hb.2 _ (keep_startWord (.refl s) fun _ => hb.1))

/-- What a word that stands started and stalled has kept of its start is canonical. -/
theorem stalledWord_mem {w : W128} {q : Running} (h : stalledWord s c e w = some q) : q ∈ s.running := by
  have := List.mem_of_find?_eq_some h
  exact (List.mem_filter.1 this).1
theorem keep_atStart {q : Running} (h : Keep r s) (hq : Canon r → JobCanon q.job) : Keep r (atStart s q) := by
  unfold atStart
  split
  · next x d e =>
    exact keep_setCtxFrom h fun k => by have := hq k; rw [e] at this; exact this
  · exact h
theorem keep_resumed {q : Running} {b : Begin} (hq : q ∈ s.running) (hb : ∀ t, Keep s t → KeepB t b) : Keep s (resumed s c e q b) := by
  have k := Keep.refl s
  unfold resumed
  cases b with
  | refuse code => exact keep_failWord k
  | wait ps hs foot d => exact k
  | start hs j run foot =>
    dsimp only
    have k2 : Keep s { s with running := s.running.filter (fun x => x.id ≠ q.id) ++
        [{ q with job := j, foot := foot, wrote := writtenFeet j foot, since := s.steps }] } := by
      refine keep_runningOf k fun p hp => ?_
      rcases List.mem_append.1 hp with hp | hp
      · exact .inl (List.mem_filter.1 hp).1
      · cases List.mem_singleton.1 hp
        exact .inr (hb s k).1
    have k3 := keep_atStart (q := q) k2 fun k0 => canon_running k0 q hq
    have k4 := (hb _ k3).2 _ (.refl _)
    exact keep_setCtxFrom (keep_runWord (k3.trans k4)) fun k0 => canon_getCtx k0 c
theorem keep_engineWord {w : W128} {op : Nat} {b : State → Begin} (hb : ∀ t u, KeepB u (b t)) :
    KeepO s (engineWord s c e w op b) := by
  have k := Keep.refl s
  unfold engineWord
  split
  · next q hq => exact keepO_guarded k (keep_resumed (stalledWord_mem hq) fun t _ => hb _ t)
  · exact keepO_guarded k (keep_begun (hb s s))
theorem keep_nopWord {w : W128} {l : List Nat} : KeepO s (nopWord s c e w l) :=
  keepO_guarded (.refl s) (keep_begun (by split <;> first | exact ⟨trivial, fun t h => h⟩ | trivial))
theorem keep_sure (h : Keep r s) : Keep r (sure s).s := h
theorem keep_beginPart {own : List (Bool × Nat)} {us acts : List Use} {j : Job} {run : State → Got} {fs : List Foot} (hj : JobCanon j)
    (hr : ∀ t, Keep r t → Keep r (run t).s) : KeepB r (beginPart s own us acts j run fs) := by
  unfold beginPart
  split
  · trivial
  · split
    · trivial
    · split <;> first | exact ⟨hj, hr⟩ | trivial
theorem keep_beginWord {own : List (Bool × Nat)} {us : List Use} {j : Job} {run : State → Got} {fs : List Foot} (hj : JobCanon j)
    (hr : ∀ t, Keep r t → Keep r (run t).s) : KeepB r (beginWord s own us j run fs) := keep_beginPart hj hr
theorem keep_readRows {u : Who} {h : Handle} {o d n : Nat} :
    ∀ (l : List Nat) (s : State), Keep r s → Keep r (readRows u h o d n s l).1 := by
  intro l
  induction l with
  | nil => intro s k; exact k
  | cons i t ih =>
    intro s k
    unfold readRows
    dsimp only
    split <;> first | exact keep_wordRead k | exact ih _ (keep_wordRead k)
theorem keep_writeRuns {u : Who} {h : Handle} {m : Acc} :
    ∀ (l : List (Nat × List Byte)) (s : State), Keep r s → Keep r (writeRuns u h m s l).s := by
  intro l
  induction l with
  | nil => intro s k; exact k
  | cons i t ih =>
    intro s k
    obtain ⟨o, bs⟩ := i
    unfold writeRuns
    dsimp only
    split <;> first | exact keep_wordWrite k | exact ih _ (keep_wordWrite k)

end Sys2Proof.Machine
end

