-- ==== Sys2Proof/Laws/KeepEngines.lean ====
section
/-! SUPPORT. What the words of the matrix, vector and row engines keep. -/

namespace Sys2Proof.Machine

variable {r s t : State} {c : Ctx} {e : Eng}

/-! ### Matrix -/

theorem keep_accPut {i j : Nat} {v : W32} (h : Keep r s) : Keep r (accPut s c i j v) :=
  keep_acc (s := { s with stepAcc := _ }) h (swf_sput 0 _ _ _) (swf_sput _ _ _ _)
theorem keep_accErr {v : Sparse EccMark} (h : Keep r s) (hv : swf EccMark.good s.accErr = true → swf EccMark.good v = true) :
    Keep r { s with accErr := v } := keep_acc h id hv
theorem keep_accRead {o : Option Ctx} {i j : Nat} (h : Keep r s) : Keep r (accRead s c o i j).1 := by
  unfold accRead
  split
  · exact h
  · exact keep_report (keep_accErr h (swf_sput _ _ _ _))
  · exact h
theorem keep_accReadRow {o : Option Ctx} {i : Nat} : ∀ (l : List Nat) (s : State), Keep r s → Keep r (accReadRow c o i s l).1 := by
  intro l
  induction l with
  | nil => intro s h; exact h
  | cons j t ih =>
    intro s h
    unfold accReadRow
    dsimp only
    split <;> first | exact keep_accRead h | exact ih _ (keep_accRead h)
theorem keep_accPutRow {i : Nat} {vs : List W32} (h : Keep r s) : Keep r (accPutRow s c i vs) :=
  keep_foldl (fun _ _ => keep_accPut) _ _ h
theorem keep_observeTid {b : Bool} {i : Nat} {vs : List W32} (h : Keep r s) : Keep r (observeTid s b i vs) := by
  unfold observeTid
  split <;> first | exact keep_trackers (s := { s with stepTrk := _ }) h (swf_sput _ _ _ _) | exact h
theorem keep_drainRows {d : Slot} {v : Handle} {p q : Bool} {i n : Nat} {ms : List Nat} {l : List (List W32)} (h : Keep r s) :
    Keep r (drainRows s c d v p q i ms n l).s := keep_writeRuns _ _ (keep_observeTid h)
theorem keep_seedRow {p : Mma} {i n : Nat} (h : Keep r s) : Keep r (seedRow s c p i n).1 := by
  unfold seedRow
  split <;> first | exact keep_accReadRow _ _ h | exact h
theorem keep_productBlock {g : GangIn} {p : Mma} {a b : Opnd} {kl jb n : Nat} {f : Nat → Nat → Nat} :
    ∀ (l : List (Nat × Nat)) (s : State) (x : Nat), Keep r s → Keep r (productBlock c g p a b kl jb n f s x l).1 := by
  intro l
  induction l with
  | nil => intro s x h; exact h
  | cons q t ih =>
    intro s x h
    obtain ⟨i, m⟩ := q
    unfold productBlock
    dsimp only
    split <;> first | exact keep_seedRow h | exact ih _ _ (keep_accPutRow (keep_seedRow h))
theorem keep_runPieces {g : GangIn} {p : Mma} {a b : Opnd} {kl : Nat} {v : Handle} :
    ∀ (l : List (Nat × Nat × List (Nat × Nat))) (s : State) (x : Nat), Keep r s → Keep r (runPieces c g p a b kl v s x l).s := by
  intro l
  induction l with
  | nil => intro s x h; exact h
  | cons q t ih =>
    intro s x h
    obtain ⟨jb, n, ch⟩ := q
    unfold runPieces
    dsimp only
    split
    · exact keep_productBlock _ _ _ h
    · cases hd : p.dst
      · simp only [Bool.false_eq_true, if_false]
        split <;> first | exact keep_productBlock _ _ _ h | exact ih _ _ (keep_productBlock _ _ _ h)
      · simp only [if_true]
        split <;> first
          | exact keep_drainRows (keep_productBlock _ _ _ h)
          | exact ih _ _ (keep_drainRows (keep_productBlock _ _ _ h))
theorem keep_readSlot {l : Slot} {f n : Nat} {rows : List Nat} (h : Keep r s) : Keep r (readSlot s c l f n rows).1 := by
  unfold readSlot
  split <;> first | exact h | exact keep_readRows _ _ h
theorem keep_thenRead {q : State × List (List Byte) × Option Nat} {k : State → List (List Byte) → Got} (h : Keep r q.1)
    (hk : ∀ s l, Keep r s → Keep r (k s l).s) : Keep r (thenRead q k).s := by
  unfold thenRead
  split <;> first | exact h | exact hk _ _ h
/-- A read that may be left out. -/
theorem keep_readIf {p : Prop} [Decidable p] {q : State × List (List Byte) × Option Nat} (hq : Keep r q.1) (h : Keep r s) :
    Keep r (if p then q else (s, [], none)).1 := by split <;> assumption
theorem swf_putBundle {n : Nat} {m : Sparse (BitVec n)} {k lo l v : Nat} (h : swf 0 m = true) : swf 0 (putBundle m k lo l v) = true :=
  swf_sput 0 _ _ _ h
/-- A table built by a fold whose every step keeps the form. -/
theorem swf_fold {α β : Type} [DecidableEq α] {d : α} {f : Sparse α → β → Sparse α} (hf : ∀ m e, swf d m = true → swf d (f m e) = true)
    (l : List β) {m : Sparse α} (h : swf d m = true) : swf d (l.foldl f m) = true := swf_foldl d f hf l m h
theorem swf_ite {α : Type} [DecidableEq α] {d : α} {m : Sparse α} {p : Prop} [Decidable p] (h : swf d m = true) :
    swf d (if p then m else []) = true := by split <;> first | exact h | rfl
theorem mesh_queueSlices {xs : List Slice} {m : Mesh} (h : MeshCanon m) : MeshCanon (queueSlices xs m) := by
  unfold queueSlices
  split
  · exact mesh_restock ⟨swf_overload h.1, h.2⟩
  · exact mesh_restock h
theorem meshCanon_after {g : GangIn} {p : Mma} {a b : Opnd} {kl nl : Nat} {rows : List Nat} (h : MeshCanon s.mesh) :
    MeshCanon (meshAfter s c g p a b kl nl rows) := by
  obtain ⟨h1, h2, -⟩ := mesh_queueSlices (xs := slicesOf s (startedId s) p b kl nl rows) h
  have h3 : swf 0 (geBundles p a kl rows.length) = true := by
    unfold geBundles
    refine swf_fold (fun m j hm => ?_) _ rfl
    refine swf_fold (fun m i hm => ?_) _ hm
    refine swf_fold (fun m x hm => ?_) _ hm
    exact swf_fold (fun _ _ hm => swf_putBundle (swf_putBundle hm)) _ hm
  have h4 : swf 0 (geExps p a kl rows.length) = true := by
    unfold geExps
    split
    · exact swf_fold (fun _ _ hm => swf_fold (fun _ _ hm => swf_sput 0 _ _ _ hm) _ hm) _ rfl
    · rfl
  have h5 : swf 0 (gsBundles s c g p a b kl nl rows) = true := by
    unfold gsBundles
    refine swf_fold (fun m jb hm => ?_) _ rfl
    refine swf_fold (fun m col hm => ?_) _ hm
    refine swf_fold (fun m e hm => ?_) _ hm
    refine swf_fold (fun m j hm => ?_) _ hm
    exact swf_putBundle hm
  unfold meshAfter
  refine ⟨h1, h2, ?_, ?_, ?_⟩
  · exact swf_ite h3
  · exact swf_ite h4
  · exact swf_ite h5
theorem keep_runMma {g : GangIn} {p : Mma} (h : Keep r s) : Keep r (runMma c g p s).s := by
  unfold runMma
  split
  · exact h
  · refine keep_thenRead (keep_readIf (keep_readSlot h) h) fun s l h => ?_
    dsimp only
    generalize (if p.mask = 0 then List.range p.m else if gangLead s = true then maskRows p (l.headD []) else g.rows) = rows
    split
    · exact h
    · refine keep_thenRead (keep_readIf (keep_readSlot h) h) fun s l h => ?_
      refine keep_thenRead (keep_readSlot h) fun s l h => ?_
      refine keep_thenRead (keep_readIf (keep_readSlot h) h) fun s l h => ?_
      refine keep_thenRead (keep_readIf (keep_readSlot h) h) fun s l h => ?_
      split <;> first | exact keep_runPieces _ _ _ (keep_mesh h meshCanon_after) | exact keep_mesh h meshCanon_after
theorem keep_runGang {g : GangIn} {p : Mma} {fs : List Foot} (h : Keep r s) : Keep r (runGang c g p fs s).s := by
  unfold runGang
  dsimp only
  split <;> first | exact keep_freeFeet (keep_runMma h) | exact keep_runMma h
theorem keep_beginMma {b : Bool} {w : W128} {g : GangIn} {p : Mma} {n : Nat} : KeepB r (beginMma b c w g p n s) := by
  have h : KeepB r (beginPart s (mmaChecks s p (anyBit w n)) (mmaUses s p) (mmaActs s c g p) .done
      (runGang c g p (useFoot s (mmaActs s c g p) ++ mmaFoot s c g p)) (mmaFoot s c g p)) := keep_beginPart trivial fun _ => keep_runGang
  unfold beginMma
  dsimp only
  revert h
  generalize beginPart s _ _ _ _ _ _ = q
  intro h
  cases q with
  | refuse code => trivial
  | wait ps hs f d =>
    dsimp only
    split <;> trivial
  | start hs j run f =>
    dsimp only
    split
    · trivial
    · split <;> first | trivial | exact h
theorem keep_movePtr (h : Keep r t) : Keep r (movePtr s t) := by
  unfold movePtr
  split
  · split <;> exact h
  · exact h
theorem keep_gangRefuse {code : Nat} (h : Keep r s) : Keep r (gangRefuse s c code) :=
  keep_report (keep_progress (keep_popHead h))
theorem keep_noteUnready {g : GangIn} {o : BitVec 2} (h : Keep r s) : Keep r (noteUnready s c g o) := keep_ite (keep_mesh h id) h
theorem keep_driveGang {w : W128} {g : GangIn} {p : Mma} {o : BitVec 2} {b : Bool} (h : Keep r s) : Keep r (driveGang s w g p o b) :=
  keep_ite (keep_mesh h id) h
theorem keep_beginProduct {b : Begin} (hb : KeepB s b) : Keep s (beginProduct s c b) := by
  have k := keep_begun (c := c) (e := .matrix) hb
  cases b with
  | refuse code => exact keep_ite (keep_gangRefuse (.refl s)) (keep_refuseWord (.refl s))
  | wait _ _ _ _ => exact keep_movePtr k
  | start _ _ _ _ => exact keep_movePtr k
theorem keep_product {w : W128} {g : GangIn} {op n : Nat} {p : State → Mma} : KeepO s (product s c w g op p n) := by
  have k := Keep.refl s
  unfold product
  split
  · next q hq => exact keepO_guarded k (keep_resumed (stalledWord_mem hq) fun _ _ => keep_beginMma)
  · exact keepO_guarded k (keep_ite ((keep_driveGang k).trans (keep_beginProduct keep_beginMma)) (keep_noteUnready (keep_driveGang k)))
theorem keep_execMset {w : W128} : KeepO s (execMset c w s) :=
  keep_engineWord fun _ _ => (by
    split
    · trivial
    · exact ⟨trivial, fun t h => keep_modCtx h fun x k => ctx_mslots k (swf_sput 0 _ _ _ k.2.2.2.2.2.2.1)⟩)
theorem keep_drainPlain {d : Slot} {v : Handle} {p q : Bool} {i n b : Nat} :
    ∀ (l : List Nat) (s : State), Keep r s → Keep r (drainPlain c d v p q i n b s l).s := by
  intro l
  induction l with
  | nil => intro s h; exact h
  | cons j t ih =>
    intro s h
    unfold drainPlain
    dsimp only
    split
    · exact keep_accReadRow _ _ h
    · split <;> first | exact keep_drainRows (keep_accReadRow _ _ h) | exact ih _ (keep_drainRows (keep_accReadRow _ _ h))
theorem keep_accReadRows {n b : Nat} : ∀ (l : List Nat) (s : State), Keep r s → Keep r (accReadRows c n b s l).1 := by
  intro l
  induction l with
  | nil => intro s h; exact h
  | cons j t ih =>
    intro s h
    unfold accReadRows
    dsimp only
    split <;> first | exact keep_accReadRow _ _ h | exact ih _ (keep_accReadRow _ _ h)
theorem keep_execMdrain {w : W128} : KeepO s (execMdrain c w s) :=
  keep_engineWord fun _ _ => (keep_beginWord trivial fun t h => by
    dsimp only
    split
    · exact h
    · split
      · split <;> first | exact keep_accReadRows _ _ h | exact keep_drainRows (keep_accReadRows _ _ h)
      · exact keep_drainPlain _ _ h)
theorem keep_execMzero {w : W128} : KeepO s (execMzero c w s) :=
  keep_engineWord fun _ _ => (keep_beginWord trivial fun _ h => keep_foldl (fun _ _ => keep_accPutRow) _ _ h)

/-! ### Vector -/

variable {x : Context}

theorem ctx_putE {f n : Nat} {p : Nat × Nat} (h : CtxCanon x) : CtxCanon (putE f n x p) :=
  ctx_vregs h (swf_sputs 0 _ _ _ h.2.2.2.2.1)
theorem ctx_putEs {f n : Nat} : ∀ (l : List (Nat × Nat)) (x : Context), CtxCanon x → CtxCanon (putEs x f n l) := by
  intro l
  induction l with
  | nil => intro x h; exact h
  | cons p t ih => intro x h; exact ih _ (ctx_putE h)
theorem ctx_putM {n : Nat} {v : BitVec 2048} (h : CtxCanon x) : CtxCanon (putM x n v) :=
  ctx_masks h (swf_sput 0 _ _ _ h.2.2.2.2.2.1)
theorem ctx_orStatus {v : W32} (h : CtxCanon x) : CtxCanon (orStatus x v) := h
theorem keep_bankRun {w : W128} {f : Context → Context} (hf : ∀ x, CtxCanon x → CtxCanon (f x)) (h : Keep r s) :
    Keep r (bankRun c w f s).s := keep_ite h (keep_modCtx h hf)
theorem keep_formAWord {w : W128} {op : Nat} {k : VChk} {f : Context → Context} (hf : ∀ x, CtxCanon x → CtxCanon (f x)) :
    KeepO s (formAWord s c w op k f) := keep_engineWord fun _ _ => (keep_beginWord trivial fun _ h => keep_bankRun hf h)
theorem keep_ewWord {w : W128} {op : Nat} {a : Nat → Bool} {f : Nat → Nat → Nat → Nat → Nat} : KeepO s (ewWord s c w op a f) :=
  keep_formAWord fun _ h => ctx_putEs _ _ h
theorem keep_execVcmp {w : W128} : KeepO s (execVcmp c w s) := keep_formAWord fun _ h => ctx_putM h
theorem keep_execVsel {w : W128} : KeepO s (execVsel c w s) := keep_formAWord fun _ h => ctx_putEs _ _ h
theorem keep_execMlogic {w : W128} : KeepO s (execMlogic c w s) := keep_formAWord fun _ h => ctx_putM h
theorem keep_execVslide {w : W128} : KeepO s (execVslide c w s) := keep_formAWord fun _ h => ctx_putEs _ _ h
theorem keep_execViota {w : W128} : KeepO s (execViota c w s) := keep_formAWord fun _ h => ctx_putEs _ _ h
theorem keep_execVcompress {w : W128} : KeepO s (execVcompress c w s) := keep_formAWord fun _ h => ctx_putEs _ _ h
theorem keep_execVsplat {w : W128} : KeepO s (execVsplat c w s) := keep_formAWord fun _ h => ctx_putEs _ _ h
theorem keep_execVred {w : W128} : KeepO s (execVred c w s) :=
  keep_formAWord fun _ h => by
    dsimp only
    split <;> first | exact ctx_orStatus (ctx_putE h) | exact ctx_putE h
theorem keep_execVscan {w : W128} : KeepO s (execVscan c w s) :=
  keep_formAWord fun _ h => by
    dsimp only
    split <;> first | exact ctx_orStatus (ctx_putEs _ _ h) | exact ctx_putEs _ _ h
theorem keep_setTrk {n : Nat} {v : Tracker} (h : Keep r s) : Keep r (setTrk s n v) := keep_trackers h (swf_sput _ _ _ _)
theorem keep_castStatus {p q w : Bool} (h : Keep r s) : Keep r (castStatus s c p q w) := by
  unfold castStatus
  dsimp only
  refine keep_ite (keep_report (keep_ite (keep_report ?_) ?_)) (keep_ite (keep_report ?_) ?_) <;>
    exact keep_modCtx h fun _ => ctx_orStatus
theorem keep_castRun {w : W128} {k : Int} (h : Keep r s) : Keep r (castRun c w k s) :=
  keep_castStatus (keep_modCtx (keep_ite (show Keep r (useTrk _ _) from keep_setTrk h) h) fun _ => ctx_putEs _ _)
theorem keep_execVcvt {w : W128} : KeepO s (execVcvt c w s) :=
  keep_engineWord fun _ _ => (keep_beginWord trivial fun _ h => keep_ite h (keep_castRun h))
theorem keep_execVcast {w : W128} : KeepO s (execVcast c w s) :=
  keep_engineWord fun _ _ => (keep_beginWord trivial fun _ h => keep_ite h (keep_modCtx (show Keep _ (useTrk _ _) from keep_castRun h) fun _ => ctx_putE))
theorem keep_execVmxe {w : W128} : KeepO s (execVmxe c w s) :=
  keep_engineWord fun _ _ => (keep_beginWord trivial fun t h => by
    have k : Keep _ (modCtx t c (fun x =>
        putEs (putEs x (vDFMT w) (vVD w) ((List.range (((List.range (vVL w / 32)).map (mxBlock (getCtx t c) w)).flatMap
          (fun b => b.2.1)).length).zip (((List.range (vVL w / 32)).map (mxBlock (getCtx t c) w)).flatMap (fun b => b.2.1))))
          10 (vVC w) ((List.range ((List.range (vVL w / 32)).map (mxBlock (getCtx t c) w)).length).zip
            (((List.range (vVL w / 32)).map (mxBlock (getCtx t c) w)).map (fun b => b.1))))) :=
      keep_modCtx h fun _ hx => ctx_putEs _ _ (ctx_putEs _ _ hx)
    exact keep_ite k (keep_castStatus k))
theorem keep_execVmxd {w : W128} : KeepO s (execVmxd c w s) :=
  keep_engineWord fun _ _ => (keep_beginWord trivial fun _ h => keep_bankRun (fun _ k => ctx_putEs _ _ k) h)
theorem keep_trkWord {w : W128} {n : Nat} {p : Bool} {f : State → Begin} (hf : KeepB s (f s)) : KeepO s (trkWord s c w n p f) :=
  keepO_guarded (.refl s) (keep_begun (by split <;> first | trivial | exact hf))
theorem keep_useTrk {n : Nat} (h : Keep r s) : Keep r (useTrk s n) := h
theorem keep_execVtrkRead {w : W128} : KeepO s (execVtrkRead c w s) :=
  keep_trkWord ⟨trivial, fun _ h => keep_modCtx h fun _ k => ctx_putEs _ _ k⟩
theorem keep_execVtrkWrite {w : W128} : KeepO s (execVtrkWrite c w s) :=
  keep_trkWord (by
    dsimp only
    split
    · trivial
    · exact ⟨trivial, fun _ h => keep_setTrk h⟩)
theorem keep_execVtrkReset {w : W128} : KeepO s (execVtrkReset c w s) := keep_trkWord ⟨trivial, fun _ h => keep_setTrk h⟩
theorem keep_execVtrkAdvance {w : W128} : KeepO s (execVtrkAdvance c w s) := keep_trkWord ⟨trivial, fun _ h => keep_setTrk h⟩
theorem keep_execVrand {w : W128} : KeepO s (execVrand c w s) := keep_formAWord fun _ h => ctx_putEs _ _ h
theorem keep_loadRuns {v : Handle} {f w i : Nat} {g : Nat → Nat} :
    ∀ (l : List (Nat × Nat × Nat)) (s : State), Keep r s → Keep r (loadRuns c v f w i g s l).s := by
  intro l
  induction l with
  | nil => intro s h; exact h
  | cons q t ih =>
    intro s h
    obtain ⟨i, n, o⟩ := q
    unfold loadRuns
    dsimp only
    split <;> first
      | exact keep_modCtx (keep_wordRead h) fun _ => ctx_putEs _ _
      | exact ih _ (keep_modCtx (keep_wordRead h) fun _ => ctx_putEs _ _)
theorem keep_execVload {w : W128} : KeepO s (execVload c w s) :=
  keep_engineWord fun _ _ => (keep_beginPart trivial fun _ h => keep_loadRuns _ _ h)
theorem keep_execVstore {w : W128} : KeepO s (execVstore c w s) :=
  keep_engineWord fun _ _ => (keep_beginPart trivial fun _ h => keep_writeRuns _ _ h)
theorem keep_gatherRows {v : Handle} {g : GWord} :
    ∀ (l : List (Nat × Option Int)) (s : State), Keep r s → Keep r (gatherRows c v g s l).s := by
  intro l
  induction l with
  | nil => intro s h; exact h
  | cons q t ih =>
    intro s h
    obtain ⟨j, o⟩ := q
    unfold gatherRows
    cases o with
    | none => exact ih _ (keep_modCtx h fun _ => ctx_putEs _ _)
    | some v =>
      dsimp only
      split <;> first | exact keep_loadRuns _ _ h | exact ih _ (keep_loadRuns _ _ h)
theorem keep_execVgather {w : W128} : KeepO s (execVgather c w s) :=
  keep_engineWord fun _ _ => (keep_beginWord trivial fun _ h => by
    split
    · exact h
    · exact keep_gatherRows _ _ h)
theorem keep_execVscatter {w : W128} : KeepO s (execVscatter c w s) :=
  keep_engineWord fun _ _ => (keep_beginWord trivial fun _ h => by
    split
    · exact h
    · exact keep_writeRuns _ _ h)
theorem keep_vaccRows {i b : Nat} : ∀ (l : List Nat) (s : State), Keep r s → Keep r (vaccRows c i b s l).s := by
  intro l
  induction l with
  | nil => intro s h; exact h
  | cons j t ih =>
    intro s h
    unfold vaccRows
    dsimp only
    split
    · exact keep_accReadRow _ _ h
    · exact ih _ (keep_modCtx (keep_accReadRow _ _ h) fun _ => ctx_putEs _ _)
theorem keep_execVacc {w : W128} : KeepO s (execVacc c w s) :=
  keep_engineWord fun _ _ => (keep_beginWord trivial fun _ h => keep_vaccRows _ _ h)
theorem keep_execVstat {w : W128} : KeepO s (execVstat c w s) :=
  keep_engineWord fun _ _ => (by
    split
    · trivial
    · exact ⟨trivial, fun _ h => keep_modCtx h fun x k => by
        have q : CtxCanon (putE 12 (fld w 88 5) x (0, x.vstatus.toNat)) := ctx_putE k
        dsimp only
        split <;> exact q⟩)

/-! ### Row engine -/

theorem keep_statErr {v : Sparse EccMark} (h : Keep r s) (hv : swf EccMark.good s.statErr = true → swf EccMark.good v = true) :
    Keep r { s with statErr := v } := keep_stat h id hv
theorem keep_statRead {k : Nat} (h : Keep r s) : Keep r (statRead s c k).1 := by
  unfold statRead
  dsimp only
  split
  · exact h
  · exact keep_report (keep_statErr h (swf_sput _ _ _ _))
  · exact h
theorem keep_statPut {k : Nat} {v : StatRec} (h : Keep r s) : Keep r (statPut s k v) :=
  keep_stat h (swf_sput 0 _ _ _) (swf_sput _ _ _ _)
theorem keep_rowMask {o : Who} {w : W128} {j : Nat} (h : Keep r s) : Keep r (rowMask s o c w j).1.s := by
  unfold rowMask
  split
  · exact h
  · dsimp only
    split <;> exact keep_wordRead h
theorem keep_rowVals {o : Who} {l : RSlot} {j n : Nat} (h : Keep r s) : Keep r (rowVals s o l j n).1.s := keep_wordRead h
theorem keep_rowOut {o : Who} {w : W128} {j : Nat} {l : List Nat} (h : Keep r s) : Keep r (rowOut s o c w j l).s := keep_wordWrite h
theorem keep_forwardRow {o : Who} {w : W128} {j : Nat} (h : Keep r s) : Keep r (forwardRow s o c w j).s := by
  have h1 := keep_rowMask (o := o) (c := c) (w := w) (j := j) h
  have h2 := keep_rowVals (o := o) (l := rslot s c (rSX w)) (j := j) (n := rLEN w) h1
  unfold forwardRow
  dsimp only
  split
  · exact h1
  · split
    · exact h2
    · split
      · exact keep_rowOut h2
      · exact keep_ite (keep_statPut (keep_rowOut h2)) (keep_rowOut h2)
theorem keep_backwardRow {o : Who} {w : W128} {j : Nat} (h : Keep r s) : Keep r (backwardRow s o c w j).s := by
  have h0 := keep_statRead (c := c) (k := rBASE w + j) h
  have h1 := keep_rowMask (o := o) (c := c) (w := w) (j := j) h0
  have h2 := keep_rowVals (o := o) (l := rslot s c (rSX w)) (j := j) (n := rLEN w) h1
  unfold backwardRow
  dsimp only
  split
  · exact h0
  · split
    · exact keep_rowOut h0
    · split
      · exact h1
      · split
        · exact h2
        · split
          · exact keep_rowVals h2
          · exact keep_rowOut (keep_rowVals h2)
theorem keep_doRow {q : Running} {u j : Nat} (h : Keep r s) : Keep r (doRow s q u j).s := by
  unfold doRow
  split <;> first | exact keep_backwardRow h | exact keep_forwardRow h
theorem keep_dealUnit {u : Nat} (h : Keep r s) : Keep r (dealUnit s u) := by
  unfold dealUnit
  split
  · exact h
  · split
    · exact h
    · next q _ =>
      split
      · exact h
      · next j e =>
        have k : JobCanon (takeRow q.job) := by
          unfold waitingRow at e
          split at e
          · next e2 => rw [e2]; trivial
          · cases e
        exact keep_setJob h k
theorem keep_dealRows (h : Keep r s) : Keep r (dealRows s) := keep_foldl (fun _ _ => keep_dealUnit) _ _ h
theorem keep_rowFinished {q : Running} {b : Bool} (h : Keep r s) : Keep r (rowFinished s q b) := by
  unfold rowFinished
  split
  · split
    · exact keep_ite (keep_setJob h trivial) (keep_dropRun h)
    · exact keep_ite (keep_setJob h trivial) (keep_setJob h trivial)
  · exact h
theorem keep_finishRow {q : Running} {u j : Nat} (h : Keep r s) : Keep r (finishRow s q u j) := by
  have k : Keep r (doRow (progress (freeUnit s u)) q u j).s := keep_doRow (s := progress (freeUnit s u)) h
  unfold finishRow
  dsimp only
  split
  · exact keep_dealRows (keep_rowFinished (keep_wrote k))
  · split
    · exact keep_dealRows (keep_rowFinished (keep_report k))
    · exact keep_dealRows (keep_failWord k)
theorem keep_execRowDone {u : Nat} : KeepO s (execRowDone u s) := by
  have h := Keep.refl s
  unfold execRowDone
  split
  · exact keepO_next h
  · split
    · exact keepO_next h
    · exact keepO_guarded h (keep_finishRow h)
theorem keep_rowWord {w : W128} {op : Nat} : KeepO s (rowWord s c w op) :=
  keep_engineWord fun _ _ => keep_beginWord (by split <;> trivial) fun _ h => keep_dealRows h
theorem keep_execRset {w : W128} : KeepO s (execRset c w s) :=
  keep_engineWord fun _ _ => (by
    split
    · trivial
    · exact ⟨trivial, fun t h => keep_modCtx h fun x k => ctx_rslots k (swf_sput 0 _ _ _ k.2.2.2.2.2.2.2.1)⟩)
theorem keep_statReads : ∀ (l : List Nat) (s : State), Keep r s → Keep r (statReads c s l).1 := by
  intro l
  induction l with
  | nil => intro s h; exact h
  | cons j t ih =>
    intro s h
    unfold statReads
    dsimp only
    split <;> first | exact keep_statRead h | exact ih _ (keep_statRead h)
theorem keep_execRsave {w : W128} : KeepO s (execRsave c w s) :=
  keep_engineWord fun _ _ => (keep_beginWord trivial fun t h => by
    have k := keep_wordWrite (u := wordWho t .row c) (v := getH t (rslot t c (rSX w)).hidx) (m := .write)
      (o := (rslot t c (rSX w)).off) (bs := (statReads c t ((List.range (rROWS w)).map (fun j => rBASE w + j))).2.1)
      (keep_statReads (c := c) ((List.range (rROWS w)).map (fun j => rBASE w + j)) t h)
    dsimp only
    split
    · exact k
    · split <;> exact k)
theorem keep_execRload {w : W128} : KeepO s (execRload c w s) :=
  keep_engineWord fun _ _ => (keep_beginWord trivial fun _ h => keep_foldl (fun _ _ => keep_statPut) _ _ (keep_wordRead h))

end Sys2Proof.Machine
end

