-- ==== Sys2Proof/Laws/KeepFabric.lean ====
section
/-! SUPPORT. What transfers, window writes, sync and step flits, the Starter engine and the fabric's answers keep. -/

namespace Sys2Proof.Machine

variable {r s t : State} {c : Ctx} {e : Eng}

/-! ### DMA -/

theorem keep_nonfinite {b : Bool} (h : Keep r s) : Keep r (nonfinite s c b) := keep_ite (keep_report h) h
theorem keep_spadToSpad {d : Desc} {o : Who} (h : Keep r s) : Keep r (spadToSpad c d o s).s := by
  have k := keep_readRows (u := o) (h := getH s d.sh) (o := d.saddr) (d := d.sstride) (n := d.slen)
    (List.range d.rows) s h
  unfold spadToSpad
  dsimp only
  split
  · exact k
  · exact keep_writeRuns _ _ (keep_nonfinite k)
theorem keep_spadOut {d : Desc} {o : Who} {i : Nat} {x : Xfer} (h : Keep r s) : Keep r (spadOut c d o i x s).s := by
  have k := keep_readRows (u := o) (h := getH s d.sh) (o := d.saddr) (d := d.sstride) (n := d.slen)
    (List.range d.rows) s h
  unfold spadOut
  dsimp only
  split
  · exact k
  · exact keep_setJob (keep_nonfinite k) trivial
theorem keep_stackIn {d : Desc} {i : Nat} {x : Xfer} (h : Keep r s) : Keep r (stackIn d i x s).s := keep_setJob h trivial
theorem keep_beginXfer {w : W128} : KeepB r (beginXfer s c w) := by
  unfold beginXfer
  dsimp only
  split
  · trivial
  · split
    · trivial
    · split
      · trivial
      · split
        · trivial
        · split
          · exact ⟨trivial, fun _ h => h⟩
          · split
            · exact ⟨trivial, fun _ h => keep_stackIn h⟩
            · split
              · exact ⟨trivial, fun _ h => keep_spadToSpad h⟩
              · exact ⟨trivial, fun _ h => keep_spadOut h⟩
theorem keep_execDxfer {w : W128} : KeepO s (execDxfer c w s) := by
  unfold execDxfer
  generalize (if (stalledWord s c .dma w).isSome = true then flitOn s (wCh w) else sumsBehind s c w) = b
  cases b
  · simp only [Bool.false_eq_true, if_false]
    exact keep_engineWord fun _ _ => keep_beginXfer
  · simp only [if_true]
    exact keepO_next (.refl s)
theorem keep_windowWord {w : W128} {op : Nat} {b : Handle → Bool} {f : State → Nat → State}
    (hf : ∀ r t n, Keep r t → Keep r (f t n)) : KeepO s (windowWord s c w op b f) :=
  keep_engineWord fun _ _ => (by
    dsimp only
    split
    · trivial
    · split
      · trivial
      · split
        · trivial
        · exact ⟨trivial, fun _ h => hf _ _ _ h⟩)
theorem keep_execDwopen {w : W128} : KeepO s (execDwopen c w s) := keep_windowWord fun _ _ _ h => keep_setH h
theorem keep_execDwclose {w : W128} : KeepO s (execDwclose c w s) := keep_windowWord fun r t n h => by
  have k : Keep r (setH t n { getH t n with wopen := false, wgen := (getH t n).wgen + 1 }) := keep_setH h
  exact k
theorem keep_endXfer {q : Running} {code : Nat} (h : Keep r s) : Keep r (endXfer s q code) := keep_failWord (keep_abandon h)
theorem keep_recordTag {d : Desc} {x : Xfer} (h : Keep r s) : Keep r (recordTag s d x) := by
  unfold recordTag
  split
  · exact keep_setH h
  · exact h
theorem keep_phaseDone {q : Running} {d : Desc} {x : Xfer} (h : Keep r s) : Keep r (phaseDone s q d x) := by
  unfold phaseDone
  split
  · exact keep_ite (keep_endXfer h) (keep_setJob h trivial)
  · exact keep_ite (keep_setJob h trivial) (keep_setJob (keep_recordTag h) trivial)
  · exact keep_setJob h trivial
theorem keep_answered {q : Running} {d : Desc} {x : Xfer} (h : Keep r s) : Keep r (answered s q d x) :=
  keep_ite (keep_phaseDone h) (keep_setJob h trivial)
theorem keep_landAt {q : Running} {x : Xfer} {d : Desc} {l : List (Nat × List Byte)} (h : Keep r s) : Keep r (landAt s q x d l).s := by
  have k := keep_writeRuns (u := dmaWho q.ctx q.id x.ch) (h := x.dst) (m := d.mode) l _ (keep_progress h)
  unfold landAt
  split
  · exact h
  · dsimp only
    split
    · exact k
    · exact keep_wrote k
theorem keep_xferData {q : Running} {x : Xfer} {p : Nat} {bs : List Byte} (h : Keep r s) : Keep r (xferData s q x p bs) := by
  unfold xferData
  dsimp only
  split
  · exact keep_answered h
  · have k := keep_landAt (q := q) (x := x) (d := descOf x.desc) (l := (landPiece (descOf x.desc) x p bs).1)
      (keep_nonfinite (c := q.ctx) (b := (landPiece (descOf x.desc) x p bs).2.1 && !x.nonfin) h)
    split
    · exact keep_endXfer k
    · exact keep_answered k
theorem keep_xferAck {q : Running} {x : Xfer} (h : Keep r s) : Keep r (xferAck s q x) := keep_answered h

/-! ### Step sequencer and sync -/

theorem keep_modSb {f : StepBlk → StepBlk} (h : Keep r s) : Keep r (modSb s f) := by
  unfold modSb; exact keep_any h
theorem keep_stepRefused (h : Keep r s) : Keep r (stepRefused s) := h
theorem keep_stepSkew (h : Keep r s) : Keep r (stepSkew s) := keep_pushSync (keep_report (keep_modSb h))
theorem keep_takeStart {f : W64} (h : Keep r s) : Keep r (takeStart s f) :=
  keep_ite (a := s) h (keep_ite (a := stepSkew s) (keep_stepSkew h) (keep_ite (keep_stepSkew (keep_modSb h)) (keep_ite (keep_stepSkew h) (keep_modSb h))))
theorem keep_acceptSync (h : Keep r s) : Keep r (acceptSync s) := keep_count (s := { s with rxS := true }) h
theorem keep_sendStart (h : Keep r s) : Keep r (sendStart s) := keep_pushSync (keep_modSb h)
theorem keep_admitStep (h : Keep r s) : Keep r (admitStep s) := keep_pushSet (keep_modSb h)
theorem keep_seqDone (h : Keep r s) : Keep r (seqDone s) := by
  have k : Keep r (if s.sb.sendDue = true then sendStart s else s) := keep_ite (keep_sendStart h) h
  exact keep_ite (keep_admitStep k) k
theorem keep_stepFlitIn {f : W64} {k : Nat} {g : State → State} (hg : ∀ t, Keep s t → Keep s (g t)) :
    KeepO s (stepFlitIn s f k g) :=
  keepO_guarded (.refl s) (by
    have h : Keep s (acceptSync (seqDone s)) := keep_acceptSync (keep_seqDone (.refl s))
    dsimp only
    split <;> first | exact hg _ h | exact keep_discardFlit h)
theorem keep_execStepStartFlit {f : W64} : KeepO s (execStepStartFlit f s) := keep_stepFlitIn fun _ h => keep_takeStart h
theorem keep_execStepMismatchFlit {f : W64} : KeepO s (execStepMismatchFlit f s) :=
  keep_stepFlitIn fun _ h => keep_ite (keep_report h) h
theorem keep_judgeSeq (h : Keep r s) : Keep r (judgeSeq s) := keep_modSb h
theorem keep_execStepStartSend : KeepO s (execStepStartSend s) := keepO_guarded (.refl s) (keep_sendStart (.refl s))
theorem keep_execStepAdmit : KeepO s (execStepAdmit s) := keepO_guarded (.refl s) (keep_seqDone (.refl s))
theorem keep_writeParam {b : Bool} {n : Nat} {v : W32} (h : Keep r s) : Keep r (writeParam s b n v) :=
  keep_ite (keep_modSb h) (keep_stepRefused h)
theorem keep_doValid {b : Bool} (h : Keep r s) : Keep r (doValid s b) :=
  keep_ite (keep_modSb h) (keep_stepRefused h)
theorem keep_doWithdraw {b : Bool} (h : Keep r s) : Keep r (doWithdraw s b) :=
  keep_ite (keep_modSb h) (keep_stepRefused h)
theorem keep_ctlFields {v : W32} (h : Keep r s) : Keep r (ctlFields s v) := by
  unfold ctlFields ctlSet; exact keep_ite (keep_any (keep_modSb h)) (keep_modSb h)
theorem keep_writeCtl {v : W32} (h : Keep r s) : Keep r (writeCtl s v) := by
  have k : Keep r (ctlFields s v) := keep_ctlFields h
  unfold writeCtl
  dsimp only
  split <;> first | exact k | exact keep_doValid k | exact keep_doWithdraw k
theorem keep_writeNumLo {v : W32} (h : Keep r s) : Keep r (writeNumLo s v) := keep_ite (keep_modSb h) (keep_stepRefused h)
theorem keep_writeNumHi {v : W32} (h : Keep r s) : Keep r (writeNumHi s v) := keep_ite (keep_modSb h) (keep_stepRefused h)
theorem keep_execStepParamWrite {b : Bool} {n : BitVec 4} {v : W32} : KeepO s (execStepParamWrite b n v s) :=
  keep_hosted (.refl s) (keep_writeParam (keep_seqDone (.refl s)))
theorem keep_execStepParamValid {b : Bool} {v : W32} : KeepO s (execStepParamValid b v s) :=
  keep_hosted (.refl s) (keep_doValid (keep_ctlFields (keep_seqDone (.refl s))))
theorem keep_execStepParamWithdraw {b : Bool} {v : W32} : KeepO s (execStepParamWithdraw b v s) :=
  keep_hosted (.refl s) (keep_doWithdraw (keep_ctlFields (keep_seqDone (.refl s))))
theorem keep_execStepNumLoWrite {v : W32} : KeepO s (execStepNumLoWrite v s) :=
  keep_hosted (.refl s) (keep_writeNumLo (keep_seqDone (.refl s)))
theorem keep_execStepNumHiWrite {v : W32} : KeepO s (execStepNumHiWrite v s) :=
  keep_hosted (.refl s) (keep_writeNumHi (keep_seqDone (.refl s)))

theorem keep_execSrset {w : W128} : KeepO s (execSrset c w s) :=
  keep_engineWord fun _ _ => by
    dsimp only
    split
    · trivial
    · split <;> exact ⟨trivial, fun _ h => h⟩
theorem keep_execSall {w : W128} : KeepO s (execSall c w s) :=
  keep_engineWord fun _ _ => by
    dsimp only
    split
    · trivial
    · split
      · trivial
      · exact ⟨by split <;> trivial, fun _ h => h⟩
theorem keep_execSetFlit {f : W64} : KeepO s (execSetFlit f s) := keepO_guarded (.refl s) (keep_takeSet (keep_acceptSync (.refl s)))
theorem keep_noticeIn {f : W64} {k : Nat} {m : Mark} : KeepO s (noticeIn s f k m) :=
  keepO_guarded (.refl s) (by
    have h : Keep s (acceptSync s) := keep_acceptSync (.refl s)
    dsimp only
    split <;> first | exact h | exact keep_discardFlit h)
theorem keep_lostClear {f : Nat} (h : Keep r s) : Keep r (lostClear s f) := keep_changeFlag h
theorem keep_writeFlag {f : Nat} {v : W32} (h : Keep r s) : Keep r (writeFlag s f v) := by
  have k : Keep r (if bit v 29 = true then lostClear s f else s) := keep_ite (keep_lostClear h) h
  exact keep_ite (keep_ite (keep_pushSet k) (keep_ite (keep_pushClear k) k)) h
theorem keep_execSetcmd {f : BitVec 10} : KeepO s (execSetcmd f s) := keep_hosted (.refl s) (keep_pushSet (.refl s))
theorem keep_execClrcmd {f : BitVec 10} {g : BitVec 4} : KeepO s (execClrcmd f g s) :=
  keep_hosted (.refl s) (keep_pushClear (.refl s))
theorem keep_execLostclr {f : BitVec 10} : KeepO s (execLostclr f s) := keep_hosted (.refl s) (keep_lostClear (.refl s))

/-! ### Window writes -/

theorem keep_countRx {p : Port} (h : Keep r s) : Keep r (countRx s p) := by
  unfold countRx
  split
  · exact keep_count (s := { s with rxA := true }) h
  · exact keep_count (s := { s with rxB := true }) h
theorem keep_sendFlit {p : Port} {f : TxFlit} (h : Keep r s) : Keep r (sendFlit s p f) := by
  unfold sendFlit
  split
  · exact keep_count (s := { s with faTx := s.faTx ++ [f], txA := true }) h
  · exact keep_count (s := { s with fbTx := s.fbTx ++ [f], txB := true }) h
theorem keep_pushAck {p : Port} {w : WinWr} {n : Nat} (h : Keep r s) : Keep r (pushAck s p w n) := h
theorem keep_countEntry {w : WinWr} (h : Keep r s) : Keep r (countEntry s w) := h
theorem keep_ownerless {a b : Nat} (h : Keep r s) : Keep r (ownerless s a b) := h
theorem keep_landFlit {d : WinDone} (h : Keep r s) : Keep r (landFlit s d) :=
  keep_ite (keep_pushAck h) (keep_pushAck (keep_ite (keep_countEntry h) h))
theorem keep_landFlits (h : Keep r s) : Keep r (landFlits s) := keep_foldl (fun _ _ => keep_landFlit) _ _ h
theorem keep_winStore {p : Port} {f : Flit} (h : Keep r s) : Keep r (winStore s p f) := by
  have k := keep_runWrite (u := flitWho p (winWrOf f).ch (portRep p)) (m := .write) (k := (winWrOf f).len + 1)
    (a := physOf (getH s (winWrOf f).wh) (winWrOf f).off) (bs := (winWrOf f).data) h
  unfold winStore
  dsimp only
  split
  · exact h
  · split
    · exact keep_pushAck (keep_ownerless k)
    · exact keep_any (keep_breach k)
theorem keep_winTake {p : Port} {f : Flit} (h : Keep r s) : Keep r (winTake s p f) := by
  unfold winTake
  dsimp only
  split
  · exact keep_pushAck (keep_report (keep_count h))
  · exact h
  · exact h
  · exact h
  · exact h
  · exact h
  · exact keep_ite (keep_winStore h) h
theorem keep_execWinWrReceive {p : Port} {a : BitVec 48} {b : BitVec 128} {d : BitVec 512} : KeepO s (execWinWrReceive p a b d s) :=
  keepO_guarded (.refl s) (keep_winTake (keep_countRx (.refl s)))
theorem keep_execWinAckSend {p : Port} : KeepO s (execWinAckSend p s) := by
  have h := Keep.refl s
  unfold execWinAckSend
  split
  · next a _ => exact keepO_guarded h (keep_sendFlit (s := { s with winAcks := s.winAcks.erase a }) h)
  · exact keepO_next h
theorem keep_hostWord {a w : Nat} {bs : List Byte} (h : Keep r s) : Keep r (hostWord a bs s w) := by
  unfold hostWord
  dsimp only
  split
  · exact keep_storeLine (keep_cleanWords h)
  · exact keep_storeLine (keep_cleanWords (keep_corrected h))
  · exact keep_report h
theorem keep_betweenSteps (h : Keep r t) : Keep r (betweenSteps s t) := by
  unfold betweenSteps
  exact keep_ite (keep_any h) h
theorem keep_hostPage {p o : Nat} {bs : List Byte} (h : Keep r s) : Keep r (hostPage s p o bs) := by
  unfold hostPage
  split
  · exact keep_report h
  · next t e =>
    exact keep_breach (keep_betweenSteps (keep_foldl (fun _ _ => keep_hostWord) _ _ (keep_takeOwners (keep_admit h t e))))
theorem keep_hostSpad {o : Nat} {bs : List Byte} (h : Keep r s) : Keep r (hostSpad s o bs) :=
  keep_ite h (keep_ite (keep_report h) (keep_hostPage h))
/-- A host's write that acts now, or waits for the end of the step or for a protected page. -/
theorem keep_hostedAt {b : Bool} {a : Nat} {bs : List Byte} (h : Keep r s) (k : Keep r t) : KeepO r (hostedAt s b a bs t) := by
  unfold hostedAt
  split
  · exact keepO_guarded h (keep_urge (keep_later h))
  · exact keep_hosted h k
theorem keep_execSpadWindowWrite {o : Nat} {bs : List Byte} : KeepO s (execSpadWindowWrite o bs s) :=
  keep_hostedAt (.refl s) (keep_hostSpad (.refl s))
theorem keep_applyHeld {q : Held} (h : Keep r s) : Keep r (applyHeld s q) := by
  cases q with
  | flit p f => exact keep_winTake h
theorem keep_releaseHeld (h : Keep r s) : Keep r (releaseHeld s) := by
  unfold releaseHeld
  exact keep_foldl (fun s q k => keep_ite (keep_applyHeld k) (keep_any k)) _ _ (keep_any h)

/-! ### The Starter engine -/

theorem keep_modSt {f : Starter → Starter} (h : Keep r s) : Keep r (modSt s f) := by
  unfold modSt; exact keep_any h
theorem keep_modSnap {f : Snap → Snap} (h : Keep r s) : Keep r (modSnap s f) := keep_modSt h
theorem keep_pushReqs {l : List StReq} (h : Keep r s) : Keep r (pushReqs s l) := h
theorem keep_stAbandon {l : List Nat} (h : Keep r s) : Keep r (stAbandon s l) := h
theorem keep_sealAct {i : Nat} (h : Keep r s) : Keep r (sealAct s i) := by
  unfold sealAct
  split
  · split <;> first | exact keep_setJob (keep_pushReqs h) trivial | exact keep_setJob (keep_modSt h) trivial
  · exact keep_setJob h trivial
theorem keep_wakeSeals (h : Keep r s) : Keep r (wakeSeals s) :=
  keep_foldl (fun s q k => by split <;> first | exact keep_sealAct k | exact k) _ _ h
theorem keep_advanceCopy {n : Nat} : ∀ {s : State}, Keep r s → Keep r (advanceCopy n s) := by
  induction n with
  | zero => intro s h; exact h
  | succ n ih =>
    intro s h
    unfold advanceCopy
    split
    · exact h
    · dsimp only
      split
      · exact h
      · split
        · exact keep_wakeSeals (keep_modSt h)
        · exact ih (keep_pushReqs (keep_modSnap h))
theorem keep_copyFail (h : Keep r s) : Keep r (copyFail s) :=
  keep_wakeSeals (keep_report (keep_modSt (keep_stAbandon h)))
theorem keep_liftPart (h : Keep r s) : Keep r (liftPart s) := keep_modSt h
theorem keep_pageRead {p : CopyPage} {bs : List Byte} (h : Keep r s) : Keep r (pageRead s p bs) :=
  keep_pushReqs (keep_modSnap h)
theorem keep_starterRead {p : Nat} (h : Keep r s) : Keep r (starterRead s p).1 :=
  keep_foldl (fun _ _ k => keep_report k) _ _ (keep_foldl (fun _ _ => keep_corrected) _ _ h)
theorem keep_execCopyPage : KeepO s (execCopyPage s) := by
  have h := Keep.refl s
  unfold execCopyPage
  split
  · exact keepO_next h
  · next p _ _ =>
    split
    · split
      · exact keepO_next (keep_settle h (keep_pageRead (keep_starterRead h)))
      · split
        · exact keepO_next h
        · exact keepO_next h
    · exact keepO_next h
theorem keep_stackPageRead (h : Keep r s) : Keep r (stackPageRead s) := by
  unfold stackPageRead
  split
  · exact h
  · exact keep_modSnap (keep_pageRead h)
theorem keep_endSnapf (h : Keep r s) : Keep r (endSnapf s c) := by
  unfold endSnapf
  split
  · exact keep_modCtx h fun x k => ctx_resume k
  · exact h
theorem keep_endFences (h : Keep r s) : Keep r (endFences s) := keep_woke (keep_endSnapf (keep_endSnapf h))
theorem keep_beginCopy {p : BitVec 24 × Nat × Nat} {l : List W64} {ps : List CopyPage} (h : Keep r s) :
    Keep r (beginCopy s p l ps) := keep_pushReqs (keep_modSt h)
theorem keep_endPart (h : Keep r s) : Keep r (endPart s) := keep_ite (keep_endFences (keep_modSt h)) h
theorem keep_execSnapshotCapture : KeepO s (execSnapshotCapture s) := by
  have h := keep_seqDone (Keep.refl s)
  refine keepO_guarded (.refl s) ?_
  dsimp only
  split
  · exact keep_endFences (keep_report h)
  · split
    · exact keep_endFences (keep_report h)
    · exact keep_ite (keep_endFences (keep_report h)) (keep_beginCopy h)
theorem keep_execCaptureComplete : KeepO s (execCaptureComplete s) := by
  have h := Keep.refl s
  unfold execCaptureComplete
  split
  · exact keepO_guarded h (keep_endFences (keep_modSt h))
  · exact keepO_next h
theorem keep_advanceRecord {n : Nat} : ∀ {s : State}, Keep r s → Keep r (advanceRecord n s) := by
  induction n with
  | zero => intro s h; exact h
  | succ n ih =>
    intro s h
    unfold advanceRecord
    exact keep_ite h (keep_ite (ih (keep_pushReqs (keep_modSt h))) (keep_modSt h))
theorem keep_execPRecordSample : KeepO s (execPRecordSample s) := by
  refine keepO_guarded (.refl s) ?_
  have h : Keep s (modSt (seqDone s) (fun t => { t with endDue := true })) := keep_modSt (keep_seqDone (.refl s))
  dsimp only
  exact keep_ite (keep_report h) (keep_advanceRecord (keep_pushReqs (keep_modSt h)))
theorem keep_execSfold {w : W128} : KeepO s (execSfold c w s) :=
  keep_engineWord fun _ _ => keep_beginWord trivial fun _ h => keep_modSt (keep_wordRead h)
theorem keep_replaySeal (h : Keep r s) : Keep r (replaySeal s).s := by
  unfold replaySeal; split <;> exact keep_modSt h
theorem keep_execSseal {w : W128} : KeepO s (execSseal c w s) :=
  keep_engineWord fun _ _ => by
    dsimp only
    split
    · trivial
    · refine ⟨trivial, fun t h => ?_⟩
      have k : Keep _ (modSt t (fun u => { u with digest := u.dacc, dacc := 0 })) := keep_modSt h
      dsimp only
      split
      · exact keep_replaySeal k
      · split
        · exact keep_setJob k trivial
        · split
          · exact keep_sealAct k
          · exact k
theorem keep_advanceSeal (h : Keep r s) : Keep r (advanceSeal s) := by
  unfold advanceSeal
  split
  · exact h
  · exact keep_foldl (fun s q k => by
      split
      · exact keep_setJob (keep_pushReqs k) trivial
      · exact keep_setJob (keep_modSt k) trivial
      · exact k) _ _ h
theorem keep_sealFail (h : Keep r s) : Keep r (sealFail s) := by
  unfold sealFail
  exact keep_foldl (fun s q k => by split <;> first | exact keep_setJob k trivial | exact k) _ _
    (keep_report (keep_modSt (keep_stAbandon h)))
theorem keep_modRestore {f : Restore → Restore} (h : Keep r s) : Keep r (modRestore s f) := keep_modSt h
theorem keep_beginRestore (h : Keep r s) : Keep r (beginRestore s) := by 
  unfold beginRestore
  split <;> first | exact keep_report h | exact keep_pushReqs (keep_modSt h)
theorem keep_writeStCtl {v : W32} (h : Keep r s) : Keep r (writeStCtl s v) :=
  keep_ite (keep_beginRestore (keep_modSt h)) (keep_modSt h)
theorem keep_execRestore {v : W32} : KeepO s (execRestore v s) := keep_hosted (.refl s) (keep_writeStCtl (.refl s))
theorem keep_execForce {v : W32} : KeepO s (execForce v s) := keep_hosted (.refl s) (keep_writeStCtl (.refl s))
theorem keep_advanceRestore (h : Keep r s) : Keep r (advanceRestore s) :=
  keep_ite h (keep_ite (keep_pushReqs (keep_modRestore h)) (keep_modRestore h))

theorem sget_zero_fill (n : Nat) (f : Nat → W32) : sget 0 (fillTable 0 n (fun i => if i = 0 then 0 else f i)) 0 = 0 := by
  have : ∀ (l : List Nat) (m : Sparse W32), swf 0 m = true → sget 0 m 0 = 0 →
      sget 0 (l.foldl (fun m i => sput 0 m i (if i = 0 then 0 else f i)) m) 0 = 0 := by
    intro l
    induction l with
    | nil => intro m _ h; exact h
    | cons i t ih =>
      intro m hm h
      refine ih _ (swf_sput 0 _ _ _ hm) ?_
      rw [sget_sput_wf 0 _ _ _ _ hm]
      by_cases hi : i = 0
      · simp [hi]
      · have : ¬ 0 = i := fun e => hi e.symm
        simp only [this, if_false]; exact h
  exact this (List.range n) [] rfl rfl
/-- A context of which every table but the vector registers and masks is replaced. -/
theorem ctx_replace {x : Context} {pc : BitVec 16} {ru sv : RunSt} {cr vs : W32} {wt : CtxWait} {is : Bool} {ni : Nat}
    {rd : Sparse Nat} {rg : Sparse W32} {es : Sparse W128} {ms rs : Sparse (BitVec 93)} {q : Sparse (List QWord)}
    {hw : Sparse HWait} (h : CtxCanon x) (h1 : swf 0 rg = true) (h2 : sget 0 rg 0 = 0) (h3 : swf 0 es = true)
    (h4 : swf 0 rd = true) (h5 : swf 0 ms = true) (h6 : swf 0 rs = true) (h7 : swf [] q = true)
    (h8 : swf HWait.pending hw = true) :
    CtxCanon { x with pc := pc, run := ru, saved := sv, cr := cr, vstatus := vs, wait := wt, issued := is, nextIssue := ni,
                      ready := rd, regs := rg, estage := es, mslots := ms, rslots := rs, queue := q, hwait := hw } :=
  ⟨h1, h2, h3, h4, h.2.2.2.2.1, h.2.2.2.2.2.1, h5, h6, h7, h8⟩
theorem ctx_loadCtx {x : Context} {b q i : Nat} (h : CtxCanon x) : CtxCanon (loadCtx s x b q i) := by
  unfold loadCtx
  exact ctx_replace h (swf_fillTable _ _ _) (sget_zero_fill _ _) (swf_fillTable _ _ _) rfl (swf_fillTable _ _ _)
    (swf_fillTable _ _ _) (swf_fillTable _ _ _) rfl
/-- What a restore replaces, whatever replaces it. -/
theorem keep_contents {x y : Context} {n fc il : Nat} {fl : Sparse Flag} {hs : Sparse Handle} {ps : Sparse PageSt}
    {tr : Sparse Tracker} {b : StepBlk} {ep : BitVec 4} {dm sp : Sparse Byte} {rx : List RxEntry} (h : Keep r s)
    (hx : CtxCanon s.c0 → CtxCanon x) (hy : CtxCanon s.c1 → CtxCanon y) (hf : swf Flag.zero fl = true)
    (hh : swf Handle.zero hs = true) (hp : swf PageSt.empty s.pages = true → swf PageSt.empty ps = true)
    (ht : swf Tracker.reset tr = true) (hd : swf 0 dm = true) (hm : swf 0 s.spad = true → swf 0 sp = true) :
    Keep r { s with freeCtr := fc, c0 := x, c1 := y, nextId := n, flags := fl, handles := hs, pages := ps, trackers := tr,
                    sb := b, epoch := ep, ilPtr := il, dmem := dm, spad := sp, rxTab := rx } :=
  keep_any (v_freeCtr := fc) (v_nextId := n) (v_sb := b) (v_epoch := ep) (v_ilPtr := il) (v_rxTab := rx)
    (keep_spad (keep_dmem (w := s.dmemStep) (keep_trackers (keep_pages (c := s.checked) (keep_handles (keep_flags (keep_c1
      (keep_c0 h hx) hy) fun _ => hf) fun _ => hh) hp) fun _ => ht) fun _ => hd) hm)
theorem wf_loadPages (k : swf PageSt.empty s.pages = true) : swf PageSt.empty (loadPages s) = true := by
  unfold loadPages
  split <;> first | exact swf_fillTable _ _ _ | exact k
theorem keep_loadS (h : Keep r s) : Keep r (loadS s) := by
  unfold loadS
  exact keep_contents h ctx_loadCtx ctx_loadCtx (swf_fillTable _ _ _) (swf_fillTable _ _ _) wf_loadPages (swf_fillTable _ _ _)
    (swf_fillTable _ _ _) id
theorem sget_zero_regs (raw : List (Nat × W32)) : sget 0 (bounded 0 32 (raw.filter (fun e => e.1 ≠ 0))) 0 = 0 := by
  have : ∀ (l : List (Nat × W32)) (m : Sparse W32), (∀ e ∈ l, e.1 ≠ 0) → swf 0 m = true → sget 0 m 0 = 0 →
      sget 0 (l.foldl (fun m e => sput 0 m e.1 e.2) m) 0 = 0 := by
    intro l
    induction l with
    | nil => intro m _ _ h; exact h
    | cons e t ih =>
      intro m he hm h
      refine ih _ (fun x hx => he x (List.mem_cons_of_mem _ hx)) (swf_sput 0 _ _ _ hm) ?_
      rw [sget_sput_wf 0 _ _ _ _ hm]
      have : ¬ 0 = e.1 := fun q => he e (List.mem_cons_self) q.symm
      simp only [this, if_false]; exact h
  refine this _ [] ?_ rfl rfl
  intro e he
  have := (List.mem_filter.mp (List.mem_filter.mp he).1).2
  simpa using this
theorem ctx_freeCtx {x y : Context} {i : Nat} (h : CtxCanon x) : CtxCanon (freeCtx x y i) :=
  ⟨swf_bounded _ _ _, sget_zero_regs _, swf_bounded _ _ _, h.2.2.2.1, swf_bounded _ _ _, swf_bounded _ _ _, swf_bounded _ _ _,
   swf_bounded _ _ _, swf_fillTable _ _ _, swf_bounded _ _ _⟩
theorem keep_freeContents (h : Keep r s) : Keep r (freeContents s) := by
  unfold freeContents
  extract_lets f
  exact keep_stat (w := s.statErr) (keep_acc (w := s.accErr) (keep_contents (s := s) (fc := s.freeCtr + 1) (n := s.nextId + 768) (il := f.ilPtr)
    (ep := f.epoch) (rx := s.rxTab) h ctx_freeCtx ctx_freeCtx (swf_bounded _ _ _) (swf_bounded _ _ _) (fun _ => swf_bounded _ _ _)
    (swf_bounded _ _ _) (swf_bounded _ _ _) fun _ => swf_bounded _ _ _) (fun _ => swf_bounded _ _ _) id) (fun _ => swf_bounded _ _ _) id
theorem keep_restoreRefuse {a b : Nat} (h : Keep r s) : Keep r (restoreRefuse s a b) :=
  keep_report (keep_freeContents (keep_modSt (keep_stAbandon h)))
theorem keep_loadSpadPage {i : State} {p : CopyPage} (h : Keep r s) : Keep r (loadSpadPage i s p) :=
  keep_spadPut (keep_cleanWords h)
theorem keep_restoreTake (h : Keep r s) : Keep r (restoreTake s) :=
  keep_pushReqs (keep_modSt (keep_foldl (fun _ _ => keep_loadSpadPage) _ _ (keep_loadS h)))
theorem keep_execRestoreLoad : KeepO s (execRestoreLoad s) := by
  refine keepO_guarded (.refl s) ?_
  split
  · exact keep_restoreRefuse (.refl s)
  · exact keep_restoreTake (.refl s)
theorem keep_starterData {a : Nat} {bs : List Byte} (h : Keep r s) : Keep r (starterData s a bs) := by
  unfold starterData
  split
  · exact keep_ite (keep_stackPageRead (keep_modSnap h)) (keep_modSnap h)
  · exact keep_advanceRestore (keep_modRestore h)
theorem keep_starterAck {a : Nat} (h : Keep r s) : Keep r (starterAck s a) := by
  unfold starterAck
  split
  · exact keep_advanceCopy h
  · split
    · exact keep_advanceRecord h
    · split
      · exact keep_advanceSeal h
      · split <;> first | exact keep_modSt h | exact h
theorem keep_starterErr {a : Nat} (h : Keep r s) : Keep r (starterErr s a) := by
  unfold starterErr
  split
  · exact keep_copyFail h
  · split
    · exact keep_report (keep_modSt (keep_stAbandon h))
    · split
      · exact keep_sealFail h
      · split
        · exact keep_advanceRestore (keep_modRestore h)
        · exact keep_restoreRefuse h

/-! ### Fabric requests and answers -/

theorem keep_sendReq {p : Port} {f : TxFlit} {q : Outst} (h : Keep r s) : Keep r (sendReq s p f q) :=
  keep_sendFlit (s := { s with outst := s.outst ++ [q] }) h
theorem keep_popReq {q : Running} {x : Xfer} (h : Keep r s) : Keep r (popReq s q x) := keep_setJob h trivial
theorem keep_stSend {w : Bool} {a b : Nat} (h : Keep r s) : Keep r (stSend s w a b) := by
  unfold stSend
  split
  · exact h
  · next q _ => exact keep_sendReq (s := stPop s q) h
theorem keep_execStkRdSend {a : BitVec 2} {b : Bool} {i : BitVec 9} : KeepO s (execStkRdSend a b i s) := by
  have h := Keep.refl s
  unfold execStkRdSend
  dsimp only
  split
  · exact keepO_guarded h (keep_stSend h)
  · split
    · exact keepO_next h
    · split
      · exact keepO_guarded h (keep_sendReq (keep_popReq h))
      · exact keepO_next h
theorem keep_execStkWrSend {a : BitVec 2} {b : Bool} {i : BitVec 9} : KeepO s (execStkWrSend a b i s) := by
  have h := Keep.refl s
  unfold execStkWrSend
  dsimp only
  split
  · exact keepO_guarded h (keep_stSend h)
  · split
    · exact keepO_next h
    · split
      · split
        · exact keepO_next h
        · exact keepO_guarded h (keep_sendReq (keep_popReq h))
      · exact keepO_next h
theorem keep_execWinWrSend {a : BitVec 2} {i : BitVec 9} : KeepO s (execWinWrSend a i s) := by
  have h := Keep.refl s
  unfold execWinWrSend
  dsimp only
  split
  · exact keepO_next h
  · split
    · next q x _ _ o bs _ => exact keepO_guarded h (keep_sendReq (s := { popReq s q x with freeCtr := s.freeCtr + 3 }) (keep_popReq h))
    · exact keepO_next h
theorem keep_failReq {q : Outst} {n : Nat} (h : Keep r s) : Keep r (failReq s q n) := by
  unfold failReq
  split
  · exact keep_starterErr h
  · split
    · exact keep_endXfer h
    · exact h
theorem keep_dataReq {q : Outst} {bs : List Byte} (h : Keep r s) : Keep r (dataReq s q bs) := by
  unfold dataReq
  split
  · exact keep_starterData h
  · split
    · exact keep_xferData h
    · exact h
theorem keep_ackReq {q : Outst} (h : Keep r s) : Keep r (ackReq s q) := by
  unfold ackReq
  split
  · exact keep_starterAck h
  · split
    · exact keep_xferAck h
    · exact h
theorem keep_answer {p : Port} {a : BitVec 128} {i j : Nat} {f : State → Outst → State}
    (hf : ∀ t q, Keep s t → Keep s (f t q)) : KeepO s (answer s p a i j f) := by
  unfold answer
  split
  · next q _ => exact keepO_guarded (.refl s) (hf _ _ (by
      have k : Keep s (countRx s p) := keep_countRx (.refl s)
      exact k))
  · exact keepO_next (.refl s)
theorem keep_execStkRdRsp {p : Port} {a : BitVec 48} {b : BitVec 128} {d : BitVec 512} : KeepO s (execStkRdRsp p a b d s) := by
  unfold execStkRdRsp
  split
  · split
    · exact keepO_next (.refl s)
    · exact keep_answer fun _ _ h => keep_ite (keep_dataReq h) (keep_failReq h)
  · exact keepO_next (.refl s)
theorem keep_execStkWrAck {p : Port} {a : BitVec 48} {b : BitVec 128} {d : BitVec 512} : KeepO s (execStkWrAck p a b d s) :=
  keep_answer fun _ _ h => keep_ite (keep_ackReq h) (keep_failReq h)
theorem keep_execWinAck {p : Port} {a : BitVec 48} {b : BitVec 128} {d : BitVec 512} : KeepO s (execWinAck p a b d s) :=
  keep_answer fun _ _ h => keep_ite (keep_ackReq h) (keep_failReq h)
theorem keep_execNack {p : Port} {a : BitVec 48} {b : BitVec 128} {d : BitVec 512} : KeepO s (execNack p a b d s) :=
  keep_answer fun _ _ h => keep_failReq h
theorem keep_execFabricFlitDiscard {p : Port} {a : BitVec 48} {b : BitVec 128} {d : BitVec 512} :
    KeepO s (execFabricFlitDiscard p a b d s) := by
  have k : Keep s (countRx s p) := keep_countRx (.refl s)
  refine keepO_guarded (.refl s) ?_
  split <;> exact k

end Sys2Proof.Machine
end

