-- ==== Sys2Proof/Laws/KeepHost.lean ====
section
/-! SUPPORT. What the host's commands, the step, timers, the power manager's interface, resets and the wrapper keep. -/

namespace Sys2Proof.Machine

variable {r s t : State} {c : Ctx} {e : Eng}

/-! ### Configuration sets -/

theorem keep_core {v : CoreState} (h : Keep r s) (hv : v = s.core ∨ (v ≠ .held ∧ v ≠ .running)) : Keep r { s with core := v } := by
  refine h.trans ⟨⟨⟨rfl, rfl, id⟩, fun k => ⟨fun e => ?_, fun e => ?_⟩⟩, rfl, rfl, rfl⟩ <;> dsimp only at e ⊢ <;>
    rcases hv with hv | hv
  · exact k.1 (hv.symm.trans e)
  · exact absurd e hv.1
  · exact k.2 (hv.symm.trans e)
  · exact absurd e hv.2
theorem keep_startRun (h : Keep r s) (hf : s.flt.holdCore = false) : Keep r { s with core := .running } :=
  h.trans ⟨⟨⟨rfl, rfl, id⟩, fun _ => ⟨fun e => (by cases e), fun _ => hf⟩⟩, rfl, rfl, rfl⟩

theorem keep_setRefused (h : Keep r s) : Keep r (setRefused s) := keep_report h
theorem keep_setFail {a b d : Nat} (h : Keep r s) : Keep r (setFail s a b d) := by
  unfold setFail; exact keep_report (keep_any h)
theorem keep_setFailAt {a b : Nat} (h : Keep r s) : Keep r (setFailAt s a b) := keep_setFail h
theorem keep_beginSet (h : Keep r s) : Keep r (beginSet s) := keep_ite (keep_any h) (keep_setRefused h)
theorem keep_swapSet (h : Keep r s) : Keep r (swapSet s) := keep_ite (keep_any h) (keep_setRefused h)
theorem keep_cancelSet (h : Keep r s) : Keep r (cancelSet s) := keep_ite (keep_any h) (keep_setRefused h)
theorem keep_writeSetCtl {v : W32} (h : Keep r s) : Keep r (writeSetCtl s v) := by
  unfold writeSetCtl
  split
  · exact h
  · exact keep_beginSet h
  · exact keep_swapSet h
  · exact keep_cancelSet h
  · exact keep_setRefused h
theorem keep_proofWrite {o : Nat} {bs : List Byte} (h : Keep r s) : Keep r (proofWrite s o bs) := by
  unfold proofWrite
  split
  · exact keep_setRefused h
  · split
    · exact keep_setFail h
    · dsimp only
      split
      · exact keep_setFail (keep_any h)
      · exact keep_ite (keep_setRefused (keep_any h)) (keep_any h)
      · exact keep_ite (keep_setFail (keep_any h)) (keep_any h)
theorem keep_execProofWindowWrite {o : Nat} {bs : List Byte} : KeepO s (execProofWindowWrite o bs s) :=
  keep_hosted (.refl s) (keep_proofWrite (.refl s))
theorem keep_execBegin : KeepO s (execBegin s) := keep_hosted (.refl s) (keep_beginSet (.refl s))
theorem keep_execSwap : KeepO s (execSwap s) := keep_hosted (.refl s) (keep_swapSet (.refl s))
theorem keep_execCancel : KeepO s (execCancel s) := keep_hosted (.refl s) (keep_cancelSet (.refl s))
theorem keep_execProofCheckDone : KeepO s (execProofCheckDone s) := by
  refine keepO_guarded (.refl s) ?_
  split
  · exact keep_any (.refl s)
  · exact keep_setFail (.refl s)
  · exact keep_setFailAt (.refl s)

theorem wf_installHandles {n : Nat} {ps : List (Nat × Nat)} : ∀ (l : List (Nat × W64)) (m u : Sparse Handle),
    swf Handle.zero m = true → installHandles n ps m l = some u → swf Handle.zero u = true := by
  intro l
  induction l with
  | nil => intro m u h e; cases e; exact h
  | cons x t ih =>
    intro m u h e
    obtain ⟨k, w⟩ := x
    unfold installHandles at e
    dsimp only at e
    split at e
    · cases e
    · exact ih _ _ (swf_sput _ _ _ _ h) e
theorem wf_freedHandles {m : Sparse Handle} (h : swf Handle.zero m = true) : swf Handle.zero (freedHandles m) = true :=
  swf_foldl _ _ (fun _ _ => swf_sput _ _ _ _) _ _ h
theorem wf_handlesAfter {g : Cfg} {u : Sparse Handle} (h : swf Handle.zero s.handles = true) (e : handlesAfter s g = some u) :
    swf Handle.zero u = true := by
  unfold handlesAfter at e
  split at e
  · exact wf_installHandles _ _ _ (wf_freedHandles h) e
  · cases e; exact h
theorem canon_handles (h : Canon s) : swf Handle.zero s.handles = true := h.2.2.2.2.2.2.2.1
theorem keep_handlesFrom {v : Sparse Handle} (h : Keep r s) (hv : Canon r → swf Handle.zero v = true) :
    Keep r { s with handles := v } :=
  ⟨⟨⟨h.ok.1, h.ok.2.1, fun k => (keep_handles (v := v) (.refl s) fun _ => hv k).ok.2.2 (h.ok.2.2 k)⟩, h.mid.2⟩, h.2⟩
theorem keep_emptyAll {m : Sparse Handle} (h : Keep r s) : Keep r (emptyAll s m) :=
  keep_foldl (fun _ _ k => keep_ite (keep_emptyPages k) k) _ _ h
theorem keep_swapHandles {m : Sparse Handle} (h : Keep r s) (hm : Canon r → swf Handle.zero m = true) :
    Keep r (swapHandles s m) := by
  unfold swapHandles
  exact keep_handlesFrom (keep_emptyAll (keep_emptyAll h)) hm
theorem keep_swapMode {b : Bool} (h : Keep r s) : Keep r (swapMode s b) := by
  unfold swapMode
  split
  · exact h
  · exact keep_pages h fun _ => by split <;> first | exact swf_sfill _ _ _ _ _ rfl | rfl
theorem keep_swapLayout {ws : List W64} (h : Keep r s) : Keep r (swapLayout s ws) := by
  unfold swapLayout dmemPut; exact keep_dmem (keep_any h) (swf_sputs _ _ _ _)
theorem keep_clearMarks (h : Keep r s) : Keep r (clearMarks s) := by
  unfold clearMarks
  exact keep_flags h (swf_foldl _ _ (fun _ _ => swf_sput _ _ _ _) _ _)
theorem keep_warnDomain (h : Keep r s) : Keep r (warnDomain s) := keep_ite (keep_report (keep_any h)) h
theorem keep_exchangeSets (h : Keep r s) : Keep r (exchangeSets s) := by unfold exchangeSets; exact keep_any h
theorem keep_ready (h : Keep r s) : Keep r { s with core := if s.core = .loaded then .ready else s.core } :=
  keep_core h (by split <;> first | exact .inr ⟨(by intro e; cases e), (by intro e; cases e)⟩ | exact .inl rfl)
theorem keep_takeSwap (h : Keep r s) : Keep r (takeSwap s) := by
  have hw : ∀ u, handlesAfter s (cfgOf (pageCount s) s.proof) = some u → Canon r → swf Handle.zero u = true :=
    fun u e k => wf_handlesAfter (canon_handles (h.ok.2.2 k)) e
  unfold takeSwap
  dsimp only
  refine keep_warnDomain (keep_ready ?_)
  have h0 : Keep r { s with cfg := cfgOf (pageCount s) s.proof } := keep_any h
  have h1 := keep_swapMode (b := (cfgOf (pageCount s) s.proof).chk) (keep_exchangeSets h0)
  split
  · refine keep_swapLayout (keep_ite (keep_any (keep_ite (keep_clearMarks ?_) ?_)) (keep_ite (keep_clearMarks ?_) ?_)) <;> split
    all_goals first | exact keep_swapHandles h1 (hw _ ‹_›) | exact h1
  · refine keep_ite (keep_any (keep_ite (keep_clearMarks ?_) ?_)) (keep_ite (keep_clearMarks ?_) ?_) <;> split
    all_goals first | exact keep_swapHandles h1 (hw _ ‹_›) | exact h1
theorem ctx_endFence {x : Context} {w : CtxWait} {b : Option Nat} {n : Nat} (h : CtxCanon x) : CtxCanon (endFence w b n x) := by
  unfold endFence
  split
  · dsimp only
    split <;> exact ctx_resume h
  · exact h
theorem keep_endSetFences {w : CtxWait} {b : Option Nat} (h : Keep r s) : Keep r (endSetFences s w b) :=
  keep_woke (keep_modCtx (keep_modCtx h fun _ => ctx_endFence) fun _ => ctx_endFence)
theorem keep_execSetSwap : KeepO s (execSetSwap s) := by
  refine keepO_guarded (.refl s) ?_
  split
  · exact keep_endSetFences (keep_setFailAt (.refl s))
  · exact keep_endSetFences (keep_takeSwap (.refl s))
theorem keep_lostFences (h : Keep r s) : Keep r (lostFences s) := by
  have k : Keep r (if pendingSwap s = some false then s else endSetFences s .sfence none) := keep_ite h (keep_endSetFences h)
  exact keep_ite k (keep_endSetFences k)

/-! ### Run control -/

theorem keep_runRefused (h : Keep r s) : Keep r (runRefused s) := keep_report h
theorem keep_startC0 (h : Keep r s) : Keep r (startC0 s) := by
  unfold startC0; exact keep_woke (keep_modCtx (keep_any h) fun _ k => k)
theorem startC0_hold (s : State) : (startC0 s).flt.holdCore = s.flt.holdCore := by unfold startC0 woke; split <;> rfl
theorem notHeld_of_goFree (h : goFree s = true) : s.flt.holdCore = false := by
  unfold goFree anyHold at h
  revert h
  cases s.flt.holdCore <;> simp
theorem keep_goCmd (h : Keep r s) : Keep r (goCmd s) := by
  unfold goCmd
  split
  · next hg =>
    have hf : s.flt.holdCore = false := notHeld_of_goFree (by revert hg; cases goFree s <;> simp)
    split
    · exact keep_startRun (keep_modSt h) hf
    · exact keep_startRun (keep_modCtx (keep_startC0 h) fun _ k => k) ((startC0_hold s).trans hf)
  · exact keep_ite (keep_startC0 h) (keep_runRefused h)
theorem keep_dropRows {n : Nat} (h : Keep r s) : Keep r (dropRows s n) := by unfold dropRows; exact keep_any h
theorem keep_endWords (h : Keep r s) : Keep r (endWords s c) := by
  unfold endWords
  dsimp only
  refine keep_dealRows (keep_any (keep_runningOf ?_ fun q hq => .inl (List.mem_filter.1 hq).1))
  exact keep_foldl (fun _ _ k => keep_leaveArray (keep_abandon (keep_dropRows k))) _ _ (keep_ite (keep_stAbandon h) h)
theorem keep_resetCtx (h : Keep r s) : Keep r (resetCtx s c) := by
  unfold resetCtx
  dsimp only
  exact keep_settleHolds (keep_setCtx (keep_any (keep_endWords h)) fun _ => ctx_reset)
theorem keep_crstCmd (h : Keep r s) : Keep r (crstCmd s c) := keep_ite (keep_resetCtx h) (keep_runRefused h)
theorem keep_parkCmd (h : Keep r s) : Keep r (parkCmd s) := keep_ite (keep_pushSync (keep_any h)) (keep_runRefused h)
theorem keep_unparkCmd (h : Keep r s) : Keep r (unparkCmd s) := keep_ite (keep_pushSync (keep_any h)) (keep_runRefused h)
theorem keep_writeRunCtl {v : W32} (h : Keep r s) : Keep r (writeRunCtl s v) := by
  unfold writeRunCtl
  split
  · exact h
  · exact keep_goCmd h
  · exact keep_parkCmd h
  · exact keep_unparkCmd h
  · exact keep_crstCmd h
  · exact keep_crstCmd h
  · exact keep_runRefused h
theorem keep_execGo : KeepO s (execGo s) := keep_hosted (.refl s) (keep_goCmd (.refl s))
theorem keep_execPark : KeepO s (execPark s) := keep_hosted (.refl s) (keep_parkCmd (.refl s))
theorem keep_execUnpark : KeepO s (execUnpark s) := keep_hosted (.refl s) (keep_unparkCmd (.refl s))
theorem keep_execCrst : KeepO s (execCrst c s) := keep_hosted (.refl s) (keep_crstCmd (.refl s))

/-! ### The firmware loader: instruction memory changes -/

variable {b : Nat}

theorem mid_loader {fw : Fw} {fc : Nat} {im : Sparse W32} {il : Nat} {en : BitVec 16} {dm : Sparse Byte} {ds : List DmemStore}
    (h : Mid r s) (hi : swf 0 im = true) (hd : swf 0 dm = true) :
    Mid r { s with fw := fw, freeCtr := fc, imem := im, imemLen := il, entry := en, dmem := dm, dmemStep := ds } := by
  refine h.trans ⟨⟨rfl, rfl, fun k => ?_⟩, id⟩
  unfold Canon at *
  simp_all
theorem mid_loaded {im : Sparse W32} {il : Nat} {en : BitVec 16} {dm : Sparse Byte} (h : Mid r s) (hi : swf 0 im = true)
    (hd : swf 0 dm = true) :
    Mid r { s with imem := im, imemLen := il, entry := en, dmem := dm, core := .loaded } := by
  refine h.trans ⟨⟨rfl, rfl, fun k => ?_⟩, fun _ => ⟨fun e => (by cases e), fun e => (by cases e)⟩⟩
  unfold Canon at *
  simp_all
theorem Mid.of (h : Mid r s) (k : Keep s t) : Mid r t := h.trans k.mid
theorem mid_ite {a u : State} {p : Prop} [Decidable p] (ha : Mid r a) (hu : Mid r u) : Mid r (if p then a else u) := by
  split <;> assumption
theorem mid_foldl {α : Type} {f : State → α → State} (hf : ∀ s x, Mid r s → Mid r (f s x)) :
    ∀ (l : List α) (s : State), Mid r s → Mid r (l.foldl f s) := by
  intro l
  induction l with
  | nil => intro s h; exact h
  | cons x t ih => intro s h; exact ih _ (hf s x h)
theorem keep_modFw {f : Fw → Fw} (h : Keep r s) : Keep r (modFw s f) := by unfold modFw; exact keep_any h
theorem keep_fwRefused (h : Keep r s) : Keep r (fwRefused s) := keep_report h
theorem keep_writeFwLen {v : W32} (h : Keep r s) : Keep r (writeFwLen s v) := keep_ite (keep_fwRefused h) (keep_modFw h)
theorem mid_startLoad (h : Mid r s) : Mid r (startLoad s) := by
  unfold startLoad
  split
  · exact h.of (keep_fwRefused (.refl s))
  · exact mid_loader h rfl rfl
theorem mid_loadFail {n : BitVec 4} (h : Mid r s) : Mid r (loadFail s n) := by
  unfold loadFail
  exact Mid.of (mid_loader h (swf_bounded _ _ _) (swf_bounded _ _ _)) (keep_report (.refl _))
theorem mid_loadImage (h : Mid r s) : Mid r (loadImage s) := by
  unfold loadImage
  dsimp only
  exact mid_loaded (h.of (keep_modFw (.refl s))) (swf_sputs 0 _ _ _ rfl) (swf_sputs 0 _ _ _ rfl)
theorem mid_finishLoad (h : Mid r s) : Mid r (finishLoad s) := by
  unfold finishLoad
  exact mid_ite h (mid_ite (mid_loadFail h) (mid_loadImage h))
theorem mid_takeImage {o : Nat} {bs : List Byte} (h : Mid r s) : Mid r (takeImage s o bs) := by
  unfold takeImage
  split
  · exact mid_loadFail h
  · dsimp only
    have k := h.of (keep_modFw (f := fun f => { f with buf := sputs 0 f.buf o bs, rcvd := min (o + bs.length) f.len.toNat }) (.refl s))
    split
    · exact mid_loadFail k
    · exact mid_ite (mid_loadFail h) (mid_finishLoad (mid_ite (k.of (keep_modFw (.refl _))) k))
theorem mid_imemWrite {o : Nat} {bs q : List Byte} (h : Mid r s) : Mid r (imemWrite s o bs q) := by
  unfold imemWrite
  exact mid_ite (h.of (keep_fwRefused (.refl s))) (mid_ite (h.of (keep_modFw (.refl s))) (mid_takeImage h))
theorem keep_sendFrame {f : List Byte} (h : Keep r s) : Keep r (sendFrame s f) := by unfold sendFrame; exact keep_any h
theorem mid_takeHeld {q : FwHeld} (h : Mid r s) : Mid r (takeHeld s q) := (mid_imemWrite h).of (keep_sendFrame (.refl _))
theorem mid_zeroDone (h : Mid r s) : Mid r (zeroDone s) := by
  have k := h.of (keep_modFw (f := fun f => { f with held := [] }) (.refl s))
  unfold zeroDone
  dsimp only
  exact mid_foldl (fun _ _ => mid_takeHeld) _ _ (mid_ite (mid_loadFail k) (k.of (keep_modFw (.refl _))))
theorem midO_guarded {p : Bool} (h : Mid r s) (k : Mid r t) : MidO r (guarded p s t) :=
  ⟨_, rfl, mid_ite (mid_ite h k) h⟩
theorem midO_occurs {p : Bool} (h : Mid r s) (k : Mid r t) : MidO r (occurs p s t) := ⟨_, rfl, mid_ite k h⟩
/-- A host's access that acts now, or waits for the end of the step. -/
theorem mid_hosted {p : Bool} {m : Mgmt} (h : Mid r s) (k : Mid r t) : MidO r (hosted s p m t) :=
  midO_guarded h (mid_ite k (h.of (keep_later (.refl s))))
theorem mid_hostedAt {p : Bool} {a : Nat} {bs : List Byte} (h : Mid r s) (k : Mid r t) : MidO r (hostedAt s p a bs t) := by
  unfold hostedAt
  split
  · exact midO_guarded h (h.of (keep_urge (keep_later (.refl s))))
  · exact mid_hosted h k
theorem mid_execLoad : MidO s (execLoad s) := mid_hosted (.refl s) (mid_startLoad (.refl s))
theorem mid_execImemWindowWrite {o : Nat} {bs : List Byte} : MidO s (execImemWindowWrite o bs s) :=
  mid_hosted (.refl s) (mid_imemWrite (.refl s))
theorem keep_hostDmem {o : Nat} {bs : List Byte} (h : Keep r s) : Keep r (hostDmem s o bs) :=
  keep_ite (keep_fwRefused h) (keep_dmemWrite h)
theorem keep_execDmemWindowWrite {o : Nat} {bs : List Byte} : KeepO s (execDmemWindowWrite o bs s) :=
  keep_hosted (.refl s) (keep_hostDmem (.refl s))

/-! ### Registers and windows -/

theorem keep_hostReadWord {w : Nat} (h : Keep r s) : Keep r (hostReadWord s w) := by
  unfold hostReadWord
  split
  · exact h
  · exact keep_corrected h
  · exact keep_report h
theorem keep_hostReadSpad {o n : Nat} (h : Keep r s) : Keep r (hostReadSpad s o n).1 := by
  unfold hostReadSpad
  split
  · exact h
  · exact keep_foldl (fun _ _ => keep_hostReadWord) _ _ h
theorem keep_readRun {g : Region} {l a n : Nat} (h : Keep r s) : Keep r (readRun s g l a n).1 := by
  unfold readRun
  cases g <;> first | exact keep_hostReadSpad h | exact h
theorem keep_frameRead : ∀ (k : Nat) (s : State) (a n : Nat), Keep r s → Keep r (frameRead k s a n).1 := by
  intro k
  induction k with
  | zero => intro s a n h; exact h
  | succ k ih =>
    intro s a n h
    unfold frameRead
    split
    · exact h
    · exact ih _ _ _ (keep_readRun h)
theorem keep_writeHold {v : W32} (h : Keep r s) : Keep r (writeHold s v) := keep_releases h
theorem keep_modFlt {f : Flt → Flt} (h : Keep r s) (hf : (f s.flt).holdCore = s.flt.holdCore) : Keep r (modFlt s f) := by
  unfold modFlt; exact keep_flt h hf
theorem keep_modTmr {f : Tmr → Tmr} (h : Keep r s) : Keep r (modTmr s f) := by unfold modTmr; exact keep_any h
theorem keep_modPwr {f : Pwr → Pwr} (h : Keep r s) : Keep r (modPwr s f) := by unfold modPwr; exact keep_any h
theorem keep_clearWire {m : BitVec 16} (h : Keep r s) : Keep r (clearWire s m) := keep_modFlt h rfl
theorem keep_clearSticky {n : Nat} {v : W32} (h : Keep r s) : Keep r (clearSticky s n v) := keep_modFlt h rfl
theorem keep_writePerf {x y : Bool} (h : Keep r s) : Keep r (writePerf s x y) := by
  unfold writePerf
  exact keep_perfs (l := s.perfLast) h (fun k => by split <;> first | rfl | exact k) id (fun _ => id)
theorem keep_writeFlt {a : Nat} {v : W32} (h : Keep r s) : Keep r (writeFlt s a v) := by
  unfold writeFlt
  split
  · exact keep_clearSticky h
  · split
    · exact keep_ite (keep_modFlt h rfl) h
    · exact keep_modFlt h rfl
    · exact keep_modFlt h rfl
    · exact keep_modFlt h rfl
    · exact keep_clearWire h
    · exact keep_writeHold h
    · exact h
theorem keep_writeHigh {a : Nat} {v : W32} (h : Keep r s) : Keep r (writeHigh s a v) := by
  unfold writeHigh
  split
  · exact keep_writeParam (keep_seqDone h)
  · split
    · exact keep_writeParam (keep_seqDone h)
    · split
      · exact keep_modTmr h
      · exact keep_ite (keep_modTmr h) h
      · exact keep_modTmr h
      · exact keep_writeNumLo (keep_seqDone h)
      · exact keep_writeNumHi (keep_seqDone h)
      · exact keep_writeCtl (keep_seqDone h)
      · exact keep_writeStCtl h
      · exact keep_modSt h
      · exact keep_modSt h
      · exact keep_modSt h
      · exact keep_writePerf h
      · exact h
theorem mid_writeReg {a : Nat} {v : W32} (h : Mid r s) : Mid r (writeReg s a v) := by
  have k := Keep.refl s
  unfold writeReg
  split
  · exact h.of (keep_writeRunCtl k)
  · exact mid_ite (mid_startLoad h) h
  · exact h.of (keep_writeFwLen k)
  · exact h.of (keep_any k)
  · exact h.of (keep_writeSetCtl k)
  · exact h.of (keep_ite (keep_any k) k)
  · exact h.of (keep_ite (keep_writeFlt k) (keep_ite (keep_writeFlag k) (keep_writeHigh k)))
theorem mid_writeRun {g : Region} {l a : Nat} {bs q : List Byte} (h : Mid r s) : Mid r (writeRun s g l a bs q) := by
  have k := Keep.refl s
  unfold writeRun
  cases g
  · exact h.of (keep_hostSpad k)
  · exact mid_imemWrite h
  · exact h.of (keep_hostDmem k)
  · exact h.of (keep_proofWrite k)
  · exact h.of (keep_hostHandles k)
  · exact mid_writeReg h
theorem mid_frameWrite : ∀ (k : Nat) (s : State) (a : Nat) (bs q : List Byte), Mid r s → Mid r (frameWrite k s a bs q) := by
  intro k
  induction k with
  | zero => intro s a bs q h; exact h
  | succ k ih =>
    intro s a bs q h
    unfold frameWrite
    split
    · exact h
    · exact ih _ _ _ _ (mid_writeRun h)
theorem mid_execRegisterWrite {a : BitVec 24} {v : W32} : MidO s (execRegisterWrite a v s) :=
  mid_hostedAt (.refl s) (mid_frameWrite _ _ _ _ _ (.refl s))
theorem keep_execHandleWindowWrite {o : Nat} {ws : List W32} : KeepO s (execHandleWindowWrite o ws s) :=
  keep_hosted (.refl s) (keep_hostHandles (.refl s))
theorem keep_execRelContext : KeepO s (execRelContext c s) := keep_hosted (.refl s) (keep_releaseCtx (.refl s))
theorem keep_execRelCore : KeepO s (execRelCore s) := keep_hosted (.refl s) (keep_releaseCore (.refl s))
theorem keep_execFltWireClear {m : BitVec 16} : KeepO s (execFltWireClear m s) := keep_hosted (.refl s) (keep_clearWire (.refl s))
theorem keep_execClear {x : Bool} : KeepO s (execClear x s) := keep_hosted (.refl s) (keep_writePerf (.refl s))

/-! ### The chain -/

variable {f : List Byte}

theorem keep_respond {x : Byte} {d : List Byte} (h : Keep r s) : Keep r (respond s f x d) := keep_sendFrame h
theorem keep_doRd (h : Keep r s) : Keep r (doRd f s) := keep_ite (keep_respond h) (keep_respond (keep_frameRead _ _ _ _ h))
theorem mid_doWr (h : Mid r s) : Mid r (doWr f s) := by
  have k := Keep.refl s
  have hs : Mid r { s with seqWr := some (frSeq f) } := h.of (keep_any k)
  exact mid_ite (h.of (keep_respond k)) (mid_ite (h.of (keep_respond k)) (mid_ite (mid_frameWrite _ _ _ _ _ hs)
    ((mid_frameWrite _ _ _ _ _ hs).of (keep_sendFrame (.refl _)))))
theorem keep_newFrame (h : Keep r s) : Keep r (newFrame s) := by unfold newFrame; exact keep_any h
theorem keep_doErrType (h : Keep r s) : Keep r (doErrType f s) := keep_respond h
theorem mid_doFrame (h : Mid r s) : Mid r (doFrame f s) :=
  mid_ite (h.of (keep_doRd (.refl s))) (mid_ite (mid_doWr h) (h.of (keep_doErrType (.refl s))))
theorem mid_doBroadcast (h : Mid r s) : Mid r (doBroadcast f s) :=
  mid_ite (mid_frameWrite _ _ _ _ _ (h.of (keep_any (.refl s)))) h
theorem keep_doEnum (h : Keep r s) : Keep r (doEnum f s) := by
  have k : Keep r (newFrame s) := keep_newFrame h
  unfold doEnum
  dsimp only
  refine keep_ite (keep_ite (keep_sendFrame ?_) (keep_sendFrame k)) (keep_sendFrame k)
  have h1 : Keep r { newFrame s with core := .addressed } :=
    keep_core k (.inr ⟨(by intro e; cases e), (by intro e; cases e)⟩)
  exact keep_any (v_chainAddr := enumValue f) h1
theorem keep_reportN {a b : Nat} : ∀ (n : Nat) (s : State), Keep r s → Keep r (reportN s a b n) := by
  intro n
  induction n with
  | zero => intro s h; exact h
  | succ n ih => intro s h; exact ih _ (keep_report h)
theorem keep_resetAnswer {q : List Byte} (h : Keep r s) : Keep r (resetAnswer s q) := keep_ite h (keep_sendFrame h)
theorem keep_cutFeed : ∀ (l : List (BitVec 9)) (s : State), Keep r s → Keep r (cutFeed l s).1 := by
  intro l
  induction l with
  | nil => intro s h; exact h
  | cons x t ih =>
    intro s h
    unfold cutFeed
    dsimp only
    split
    · exact h
    · split
      · exact keep_sendFrame (keep_newFrame h)
      · split
        · exact keep_resetAnswer (keep_newFrame h)
        · exact ih _ (keep_any h)
theorem keep_doForward {l : List (BitVec 9)} (h : Keep r s) : Keep r (doForward l s) := by
  have h1 : Keep r (cutFeed (cutFrames l).1 s).1 := keep_cutFeed _ _ h
  unfold doForward
  dsimp only
  have h2 := fun (p : Prop) (d : Decidable p) => keep_ite (p := p) h1 (keep_newFrame h1)
  exact keep_ite (keep_reportN _ _ (keep_any (h2 _ _))) (keep_any (h2 _ _))

/-! ### What has arrived and is still to act -/

theorem keep_urgeFirst (h : Keep r s) : Keep r (urgeFirst s) := by
  unfold urgeFirst
  split
  · exact keep_ite (keep_urge h) h
  · exact h
theorem mid_doMgmt {m : Mgmt} (h : Mid r s) : Mid r (doMgmt s m) := by
  have k := Keep.refl s
  cases m with
  | write a bs => exact mid_frameWrite _ _ _ _ _ h
  | frame f => exact mid_doFrame h
  | bcast fwd f => exact mid_doBroadcast (h.of (keep_ite (keep_sendFrame (keep_newFrame k)) k))
  | enum f => exact h.of (keep_doEnum k)
  | syms xs => exact h.of (keep_doForward k)
theorem mid_runMgmt {may : Mgmt → Bool} : ∀ (n : Nat) (s : State), Mid r s → Mid r (runMgmt may n s) := by
  intro n
  induction n with
  | zero => intro s h; exact h
  | succ n ih =>
    intro s h
    unfold runMgmt
    split
    · exact h
    · exact mid_ite h (mid_ite h (ih _ ((mid_doMgmt (h.of (keep_any (.refl s)))).of (keep_urgeFirst (.refl _)))))
theorem mid_earlyMgmt {n : Nat} (h : Mid r s) : Mid r (earlyMgmt n s) := mid_runMgmt _ _ h
theorem mid_lateMgmt {n : Nat} (h : Mid r s) : Mid r (lateMgmt n s) := mid_runMgmt _ _ h
theorem keep_takeFrame {m : Mgmt} (h : Keep r s) (k : Keep r t) : Keep r (takeFrame s m t) :=
  keep_ite k (keep_ite (keep_urgeFirst (keep_later h)) (keep_later h))
theorem mid_takeFrame {m : Mgmt} (h : Mid r s) (k : Mid r t) : Mid r (takeFrame s m t) :=
  mid_ite k (mid_ite (h.of (keep_urgeFirst (keep_later (.refl s)))) (h.of (keep_later (.refl s))))
theorem keep_execRd : KeepO s (execRd f s) := keepO_guarded (.refl s) (keep_takeFrame (.refl s) (keep_doRd (.refl s)))
theorem mid_execWr : MidO s (execWr f s) := midO_guarded (.refl s) (mid_takeFrame (.refl s) (mid_doWr (.refl s)))
theorem keep_execErrType : KeepO s (execErrType f s) :=
  keepO_guarded (.refl s) (keep_takeFrame (.refl s) (keep_doErrType (.refl s)))
theorem mid_execWrBroadcast : MidO s (execWrBroadcast f s) := by
  have k : Mid s (sendFrame (newFrame s) f) := (keep_sendFrame (keep_newFrame (.refl s))).mid
  refine midO_guarded (.refl s) (mid_ite ?_ (keep_later (.refl s)).mid)
  dsimp only
  exact mid_ite (mid_takeFrame k (mid_doBroadcast k)) k
theorem keep_execEnum : KeepO s (execEnum f s) := keepO_guarded (.refl s) (keep_takeFrame (.refl s) (keep_doEnum (.refl s)))
theorem keep_execFrameForward {l : List (BitVec 9)} : KeepO s (execFrameForward l s) :=
  keepO_guarded (.refl s) (keep_ite (keep_later (.refl s)) (keep_doForward (.refl s)))
theorem mid_execFwZeroComplete : MidO s (execFwZeroComplete s) := by
  have k : Mid s (zeroDone s) := mid_zeroDone (.refl s)
  refine midO_guarded (.refl s) ?_
  dsimp only
  exact mid_ite k (mid_runMgmt _ _ (k.of (keep_urgeFirst (.refl _))))
theorem keep_cutMgmt {m : Mgmt} (h : Keep r s) : Keep r (cutMgmt s m) := by
  cases m with
  | write a bs => exact h
  | frame f => exact keep_resetAnswer h
  | bcast fwd f => exact keep_ite (keep_sendFrame h) h
  | enum f => exact keep_sendFrame h
  | syms xs => exact keep_any h

/-! ### Timers, power and pins -/

theorem keep_endStalled {q : Running} (h : Keep r s) : Keep r (endStalled s q) := keep_dropRun (keep_abandon h)
theorem keep_endStarter (h : Keep r s) : Keep r (endStarter s) := by
  unfold endStarter
  dsimp only
  have h0 : Keep r { s with running := s.running.filter (fun r => match r.job with | .seal _ => false | _ => true) } :=
    keep_runningOf h fun q hq => .inl (List.mem_filter.1 hq).1
  have h1 := keep_ite (p := (decide (s.st.snap = .copying) && (starterStalled s forCopy || starterStalled s forPage) ||
    starterStalled s forSeal) = true) h0 h
  have h2 := keep_ite (p := (decide (s.st.snap = .copying) && (starterStalled s forCopy || starterStalled s forPage)) = true)
    (keep_starterErr (a := forCopy) h1) h1
  have h3 := fun p (d : Decidable p) => keep_ite (p := p) (keep_starterErr (a := forRecord) h2) h2
  exact keep_ite (keep_starterErr (h3 _ _)) (h3 _ _)
theorem ctx_timerRelease {x : Context} {n : Nat} (h : CtxCanon x) : CtxCanon (timerRelease n x) := by
  have k := ctx_setCR (ctx_resume h) 3
  unfold timerRelease
  split
  · exact k
  · split <;> first | exact h | exact k
  · exact h
theorem keep_declareDeadlock (h : Keep r s) : Keep r (declareDeadlock s) := by
  unfold declareDeadlock
  dsimp only
  refine keep_report ?_
  have h0 : Keep r (modTmr s fun t => { t with dlStatus := dlWord s, dlCount := 0 }) := keep_modTmr h
  have k := keep_endStarter (keep_foldl (r := r) (f := endStalled) (fun _ _ => keep_endStalled)
    (List.filter (fabricStalled (modTmr s fun t => { t with dlStatus := dlWord s, dlCount := 0 }))
      (modTmr s fun t => { t with dlStatus := dlWord s, dlCount := 0 }).running) _ h0)
  exact keep_ite k (keep_woke (keep_modCtx (keep_modCtx k fun _ => ctx_timerRelease) fun _ => ctx_timerRelease))
theorem keep_execLocalDeadlock : KeepO s (execLocalDeadlock s) := keepO_guarded (.refl s) (keep_declareDeadlock (.refl s))
theorem keep_execRestExpiry : KeepO s (execRestExpiry s) := keepO_guarded (.refl s) (keep_restExpire (.refl s))
theorem keep_execLendOffer : KeepO s (execLendOffer s) := keepO_guarded (.refl s) (keep_modPwr (.refl s))
theorem keep_execStepRateWindow {n : BitVec 24} : KeepO s (execStepRateWindow n s) := keepO_guarded (.refl s) (keep_modTmr (.refl s))
theorem keep_execTbaseLost : KeepO s (execTbaseLost s) := keepO_guarded (.refl s) (keep_report (keep_modTmr (.refl s)))
theorem keep_execTbaseReturn : KeepO s (execTbaseReturn s) := keepO_guarded (.refl s) (keep_modTmr (.refl s))
theorem keep_tickOn (h : Keep r s) : Keep r (tickOn s) := by
  have k : Keep r (if s.pwr.lend then count s 20 1 else s) := keep_ite (keep_count h) h
  unfold tickOn
  dsimp only
  generalize (if s.pwr.lend then count s 20 1 else s) = u at k
  have h1 : Keep r { u with flt := { u.flt with restCnt := if u.flt.restRun then u.flt.restCnt + 1 else u.flt.restCnt } } :=
    keep_flt k rfl
  exact keep_any h1
/-- What a tick of the time base keeps. -/
theorem keep_tick (h : Keep r s) : Keep r (tick s) := keep_ite (keep_tickOn h) h
theorem keep_execActivityUpdate : KeepO s (execActivityUpdate s) := keepO_guarded (.refl s) (keep_modPwr (.refl s))
theorem keep_execBudgetSample {n : Byte} : KeepO s (execBudgetSample n s) := keepO_guarded (.refl s) (keep_modPwr (.refl s))
theorem keep_execPmRiseReq : KeepO s (execPmRiseReq s) := keepO_guarded (.refl s) (keep_modPwr (.refl s))
theorem keep_riseLink {b : Bool} (h : Keep r s) : Keep r (riseLink s b) := keep_ite (keep_mesh h id) h
theorem keep_execPmRiseGnt : KeepO s (execPmRiseGnt s) := keepO_guarded (.refl s) (keep_modPwr (keep_riseLink (keep_count (.refl s))))
theorem keep_execPmRiseGntLower : KeepO s (execPmRiseGntLower s) := keepO_guarded (.refl s) (keep_modPwr (keep_riseLink (.refl s)))
theorem keep_execFillerStop : KeepO s (execFillerStop s) := keepO_guarded (.refl s) (keep_modPwr (.refl s))
theorem keep_execWire {q : BitVec 4} : KeepO s (execWire q s) := keepO_guarded (.refl s) (keep_modFlt (.refl s) rfl)
theorem keep_execFinAlarm : KeepO s (execFinAlarm s) := keepO_guarded (.refl s) (keep_modFlt (.refl s) rfl)
theorem keep_execFinQuiet : KeepO s (execFinQuiet s) := keepO_guarded (.refl s) (keep_modFlt (.refl s) rfl)
theorem keep_setLink {p : Port} {v : Bool} (h : Keep r s) : Keep r (setLink s p v) := by
  unfold setLink; cases p <;> exact keep_any h
theorem keep_setPin {p : Port} {v : Bool} (h : Keep r s) : Keep r (setPin s p v) := by
  unfold setPin; cases p <;> exact keep_any h
theorem keep_movePin {p : Port} {v : Bool} (h : Keep r s) : Keep r (movePin s p v) :=
  keep_ite (keep_setPin h) (keep_setLink (keep_setPin h))
theorem keep_sampleLink {p : Port} (h : Keep r s) : Keep r (sampleLink s p) := keep_setLink (keep_ite (keep_report h) h)
theorem keep_linkPart (h : Keep r s) : Keep r (linkPart s) := keep_sampleLink (keep_sampleLink h)
theorem keep_execLinkDown {p : Port} : KeepO s (execLinkDown p s) := keepO_guarded (.refl s) (keep_movePin (.refl s))
theorem keep_execLinkdownDeassert {p : Port} : KeepO s (execLinkdownDeassert p s) := keepO_guarded (.refl s) (keep_movePin (.refl s))

/-! ### The step -/

theorem keep_countClash {n : Nat} (h : Keep r s) : Keep r (countClash s n) := keep_ite (keep_count (keep_count h)) h
theorem meshCanon_nextWave {m : Mesh} (h : MeshCanon m) : MeshCanon (nextWave m) := by
  unfold nextWave
  split
  · split <;> first | exact mesh_nextSlice h | exact h
  · exact h
theorem keep_doWave (h : Keep r s) : Keep r (doWave s) :=
  keep_modPwr (keep_progress (keep_count (keep_mesh h meshCanon_nextWave)))
theorem keep_doHold {n : Nat} (h : Keep r s) : Keep r (doHold s n) := keep_modPwr (keep_count h)
theorem keep_ringPart {x : Bool} {n : Nat} {l : List (Nat × Nat)} (h : Keep r s) : Keep r (ringPart s x n l) := by
  unfold ringPart
  dsimp only
  have h0 : Keep r { s with steps := s.steps + 1 } := keep_any h
  have k := keep_countClash (n := kMax (portAccesses s [] l)) (keep_count (i := 0) (n := 1) h0)
  have k2 := fun p (d : Decidable p) => keep_ite (p := p) k (keep_progress k)
  exact keep_ite (keep_doWave (k2 _ _)) (keep_doHold (k2 _ _))
theorem keep_flagPart (h : Keep r s) : Keep r (flagPart s) := by
  unfold flagPart
  dsimp only
  have h0 : Keep r { s with selfFlits := [] } := keep_any h
  have k := keep_foldl (r := r) (f := takeSet) (fun _ _ => keep_takeSet) s.selfFlits _ h0
  exact keep_applyFlags (keep_ite (keep_modSb k) k)
theorem keep_syncPart (h : Keep r s) : Keep r (syncPart s) := by
  unfold syncPart
  split
  · exact h
  · next o l _ =>
    dsimp only
    have h0 : Keep r { s with syncQ := l, syncSent := s.syncSent ++ [o.flit] } := keep_any h
    have k := keep_count (i := 18) (n := 1) h0
    split
    · exact keep_setJob k trivial
    · exact k
theorem keep_copyPart (h : Keep r s) : Keep r (copyPart s) := keep_modSb h
theorem keep_timerPart (h : Keep r s) : Keep r (timerPart s) := keep_modTmr h
theorem keep_powerPart (h : Keep r s) : Keep r (powerPart s) := keep_modPwr h
theorem keep_clearPart (h : Keep r s) : Keep r (clearPart s) := h.trans ⟨⟨⟨rfl, rfl, id⟩, id⟩, rfl, rfl, rfl⟩
theorem keep_updatePart (h : Keep r s) : Keep r (updatePart s) :=
  keep_endPart (keep_lostFences (keep_judgeWaits (keep_applyMarks (keep_applyHandleOps (keep_flagPart h)))))
theorem mid_collectPart (h : Mid r s) : Mid r (collectPart s) :=
  (mid_earlyMgmt (h.of (keep_commitCounts (.refl s)))).of (keep_collect (keep_linkPart (.refl _)))
theorem mid_hostPart (h : Mid r s) : Mid r (hostPart s) :=
  (mid_lateMgmt (h.of (keep_urgeFirst (keep_releaseHeld (keep_liftPart (.refl s)))))).of (keep_dealRows (.refl _))
theorem mid_boundary (h : Mid r s) : Mid r (boundary s) := by
  have k : ∀ t, Keep t (flushCounts (clearPart (powerPart (judgeSeq (copyPart (syncPart (updatePart t))))))) := fun t =>
    keep_flushCounts (keep_clearPart (keep_powerPart (keep_judgeSeq (keep_copyPart (keep_syncPart (keep_updatePart (.refl t)))))))
  exact (mid_hostPart ((mid_collectPart (h.of (keep_landFlits (.refl s)))).of (k _))).of (keep_timerPart (.refl _))
theorem keep_execEccWriteback {w : Nat} : KeepO s (execEccWriteback w s) := keepO_guarded (.refl s) (keep_cleanWords (.refl s))
theorem keep_scrubWord {w : Nat} (h : Keep r s) : Keep r (scrubWord s w) := by
  unfold scrubWord
  split
  · exact keep_report (keep_count (keep_cleanWords h))
  · exact h
theorem keep_execScrub {n : Nat} : KeepO s (execScrub n s) := by
  refine keepO_guarded (.refl s) ?_
  dsimp only
  have k := keep_ite (p := (marked s .double (wordsOf (lineAddr n (sget 0 s.scrub n % bankRows s)) 256)).isEmpty = true)
    (keep_foldl (r := s) (f := scrubWord) (fun _ _ => keep_scrubWord)
      (wordsOf (lineAddr n (sget 0 s.scrub n % bankRows s)) 256) s (.refl s))
    (keep_report (code := fSpadUe) (rep := 8) (ctx := none) (.refl s))
  generalize (if (marked s .double (wordsOf (lineAddr n (sget 0 s.scrub n % bankRows s)) 256)).isEmpty = true then
      (wordsOf (lineAddr n (sget 0 s.scrub n % bankRows s)) 256).foldl scrubWord s else report s fSpadUe 8 none) = v at k
  have k3 : Keep s { v with scrub := sput 0 v.scrub n (sget 0 s.scrub n + 1) } := keep_scrub k (swf_sput _ _ _ _)
  exact keep_ite (keep_count k3) k3

/-! ### Resets, supplies and the wrapper -/

theorem canon_reset : Canon State.reset :=
  ⟨ctx_reset, ctx_reset, rfl, rfl, rfl, rfl, rfl, rfl, rfl, rfl, rfl, rfl, rfl, rfl, rfl, rfl, rfl, rfl, rfl, ⟨rfl, rfl, rfl, rfl, rfl⟩,
   fun _ h => by cases h⟩
theorem mid_fullReset : Mid s (fullReset s) :=
  ⟨⟨rfl, rfl, fun _ => canon_reset⟩, fun _ => ⟨fun e => (by cases e), fun e => (by cases e)⟩⟩
theorem keep_cutWaiting (h : Keep r s) : Keep r (cutWaiting s) :=
  keep_foldl (fun _ _ => keep_cutMgmt) _ _ (keep_foldl (fun _ _ => keep_resetAnswer) _ _ (keep_any h))
theorem keep_cutArriving {q : List Byte} (h : Keep r s) : Keep r (cutArriving s q) :=
  keep_ite h (keep_ite (keep_resetAnswer h) (keep_any h))
theorem mid_resetNow (h : Mid r s) : Mid r (resetNow s) := by
  have k : Keep s { cutWaiting s with rstN := false } := keep_any (keep_cutWaiting (.refl s))
  exact (h.of k).trans mid_fullReset
theorem mid_execStep {x : Bool} {n : Nat} {l : List (Nat × Nat)} : MidO s (execStep x n l s) :=
  midO_occurs (.refl s) (mid_ite (mid_resetNow (.refl s)) (mid_boundary (keep_ringPart (keep_seqDone (.refl s))).mid))
theorem mid_execRstNAssert {q : List Byte} : MidO s (execRstNAssert q s) := by
  unfold execRstNAssert
  split
  · exact ⟨_, rfl, .refl s⟩
  · split
    · exact ⟨_, rfl, (keep_any (.refl s)).mid⟩
    · have k : Keep s (cutArriving (cutWaiting s) q) := keep_cutArriving (keep_cutWaiting (.refl s))
      exact ⟨_, rfl, mid_ite (keep_any k).mid (mid_resetNow k.mid)⟩
theorem keep_execRstNRelease {d : BitVec 48} {i : BitVec 16} {p : Byte} : KeepO s (execRstNRelease d i p s) :=
  keepO_occurs (.refl s) (keep_ite (keep_any (.refl s)) (keep_any (.refl s)))
theorem keep_execSelfInitComplete : KeepO s (execSelfInitComplete s) :=
  keepO_occurs (.refl s) (keep_core (.refl s) (.inr ⟨(by intro e; cases e), (by intro e; cases e)⟩))
theorem ctx_boundCtx (x : Context) : CtxCanon (boundCtx x) :=
  ⟨swf_bounded _ _ _, sget_zero_regs _, swf_bounded _ _ _, swf_bounded _ _ _, swf_bounded _ _ _, swf_bounded _ _ _,
   swf_bounded _ _ _, swf_bounded _ _ _, swf_bounded _ _ _, swf_bounded _ _ _⟩
theorem job_boundRun (q : Running) : JobCanon (boundRun q).job := by
  unfold boundRun
  split
  · exact ctx_boundCtx _
  · next h => unfold JobCanon; split <;> first | trivial | exact absurd ‹_› (h _ _)
/-- The core with unspecified contents is in canonical form, whatever they are. -/
theorem ok_freeAll (h : Ok r s) : Ok r (freeAll s) := by
  refine h.trans ⟨rfl, rfl, fun _ => ?_⟩
  unfold freeAll Canon
  dsimp only
  refine ⟨ctx_boundCtx _, ctx_boundCtx _, swf_bounded _ _ _, swf_bounded _ _ _, swf_bounded _ _ _, swf_bounded _ _ _, swf_bounded _ _ _,
    swf_bounded _ _ _, swf_bounded _ _ _, swf_bounded _ _ _, swf_bounded _ _ _, swf_bounded _ _ _, swf_bounded _ _ _,
    swf_bounded _ _ _, swf_bounded _ _ _, swf_bounded _ _ _, swf_bounded _ _ _, swf_bounded _ _ _, swf_bounded _ _ _,
    ⟨swf_bounded _ _ _, swf_bounded _ _ _, swf_snorm _ _, swf_snorm _ _, swf_snorm _ _⟩, fun q hq => ?_⟩
  obtain ⟨p, -, rfl⟩ := List.mem_map.1 hq
  exact job_boundRun p
theorem ok_any {w : Byte} {x : Wrap} {y : W64} (h : Ok r s) : Ok r { s with wir := w, wrap := x, testRes := y } :=
  h.trans (keep_any (.refl s)).ok
theorem ok_ite {a u : State} {p : Prop} [Decidable p] (ha : Ok r a) (hu : Ok r u) : Ok r (if p then a else u) := by
  split <;> assumption
theorem okO_occurs {p : Bool} (h : Ok r s) (k : Ok r t) : OkO r (occurs p s t) := ⟨_, rfl, ok_ite k h⟩
theorem keep_execSupplyChange {a d : Nat} : KeepO s (execSupplyChange a d s) := keepO_guarded (.refl s) (keep_any (.refl s))
theorem ok_execSupplyLoss {a d : Nat} : OkO s (execSupplyLoss a d s) := by
  have k : Ok s { s with powered := false, vcore := a, vmem := d } := (keep_any (.refl s)).ok
  exact okO_occurs (.refl s) (ok_ite (ok_any (ok_freeAll k)) k)
theorem mid_execSupplyUp {a d : Nat} : MidO s (execSupplyUp a d s) := by
  have k : Keep s { s with vcore := a, vmem := d } := keep_any (.refl s)
  have k2 : Keep s { s with powered := true, vcore := a, vmem := d } := keep_any (.refl s)
  refine midO_occurs (.refl s) ?_
  dsimp only
  exact mid_ite (mid_ite k2.mid (k2.mid.trans mid_fullReset)) k.mid

theorem keep_loadWir {w : Byte} (h : Keep r s) : Keep r (loadWir s w) := by unfold loadWir; exact keep_any h
theorem keep_wsoOut {l : List Bool} (h : Keep r s) : Keep r (wsoOut s l) := by unfold wsoOut; exact keep_any h
theorem keep_shiftBypass {l : List Bool} (h : Keep r s) : Keep r (shiftBypass s l) := keep_wsoOut (keep_any h)
theorem keep_shiftBound {l : List Bool} (h : Keep r s) : Keep r (shiftBound s l) := keep_wsoOut (keep_any h)
theorem keep_shiftResult {l : List Bool} (h : Keep r s) : Keep r (shiftResult s l) := keep_wsoOut h
theorem keep_shiftScan {l : List Bool} (h : Keep r s) : Keep r (shiftScan s l) := keep_wsoOut (keep_any h)
theorem ok_toBypass {w : Byte} : Ok s (toBypass s w) := by
  have k : Keep s { s with wir := w } := keep_any (.refl s)
  unfold toBypass
  exact ok_ite k.ok (ok_ite (ok_freeAll k.ok) (k.mid.trans mid_fullReset).1)
theorem ok_execWsBypass {w : Byte} {l : List Bool} : OkO s (execWsBypass s w l) :=
  okO_occurs (.refl s) (ok_toBypass.trans (keep_shiftBypass (.refl _)).ok)
theorem ok_execWrstnLow : OkO s (execWrstnLow s) := okO_occurs (.refl s) ok_toBypass
theorem keep_execWsExtest {n : Nat} {l : List Bool} : KeepO s (execWsExtest s n l) :=
  keepO_occurs (.refl s) (keep_shiftBound (keep_any (keep_loadWir (.refl s))))
theorem keep_execWsPreload {l : List Bool} : KeepO s (execWsPreload s l) :=
  keepO_occurs (.refl s) (keep_shiftBound (keep_loadWir (.refl s)))
theorem keep_execWsIntestScan {l : List Bool} : KeepO s (execWsIntestScan s l) :=
  keepO_occurs (.refl s) (keep_shiftScan (keep_loadWir (.refl s)))
theorem keep_execWsClamp {l : List Bool} : KeepO s (execWsClamp s l) :=
  keepO_occurs (.refl s) (keep_shiftBypass (keep_loadWir (.refl s)))
theorem keep_execWsSafe {l : List Bool} : KeepO s (execWsSafe s l) :=
  keepO_occurs (.refl s) (keep_shiftBypass (keep_modFlt (keep_modPwr (keep_loadWir (.refl s))) rfl))
theorem keep_execWtMbist : KeepO s (execWtMbist s) := keepO_occurs (.refl s) (keep_loadWir (.refl s))
theorem keep_execWtLbist : KeepO s (execWtLbist s) := keepO_occurs (.refl s) (keep_loadWir (.refl s))
theorem keep_execWtRing : KeepO s (execWtRing s) := keepO_occurs (.refl s) (keep_loadWir (.refl s))
theorem keep_execWtResult {l : List Bool} : KeepO s (execWtResult s l) :=
  keepO_occurs (.refl s) (keep_shiftResult (keep_loadWir (.refl s)))
theorem keep_execTestDone {p : Bool} {a : BitVec 6} {w : BitVec 24} {q : W32} : KeepO s (execTestDone p a w q s) :=
  keepO_occurs (.refl s) (keep_any (.refl s))

end Sys2Proof.Machine
end

