-- ==== Sys2Proof/Laws/KeepExec.lean ====
section
/-!
SUPPORT. What the commands keep whose meaning is one call of a shared one.
-/

namespace Sys2Proof.Machine

variable {s : State}

theorem keep_execAdd (c : Ctx) (rd ra rb : BitVec 5) : KeepO s (execAdd c rd ra rb s) := keep_aluR
theorem keep_execSub (c : Ctx) (rd ra rb : BitVec 5) : KeepO s (execSub c rd ra rb s) := keep_aluR
theorem keep_execAnd (c : Ctx) (rd ra rb : BitVec 5) : KeepO s (execAnd c rd ra rb s) := keep_aluR
theorem keep_execOr (c : Ctx) (rd ra rb : BitVec 5) : KeepO s (execOr c rd ra rb s) := keep_aluR
theorem keep_execXor (c : Ctx) (rd ra rb : BitVec 5) : KeepO s (execXor c rd ra rb s) := keep_aluR
theorem keep_execSll (c : Ctx) (rd ra rb : BitVec 5) : KeepO s (execSll c rd ra rb s) := keep_aluR
theorem keep_execSrl (c : Ctx) (rd ra rb : BitVec 5) : KeepO s (execSrl c rd ra rb s) := keep_aluR
theorem keep_execSra (c : Ctx) (rd ra rb : BitVec 5) : KeepO s (execSra c rd ra rb s) := keep_aluR
theorem keep_execSlt (c : Ctx) (rd ra rb : BitVec 5) : KeepO s (execSlt c rd ra rb s) := keep_aluR
theorem keep_execSltu (c : Ctx) (rd ra rb : BitVec 5) : KeepO s (execSltu c rd ra rb s) := keep_aluR
theorem keep_execMul (c : Ctx) (rd ra rb : BitVec 5) : KeepO s (execMul c rd ra rb s) := keep_aluR
theorem keep_execMulhu (c : Ctx) (rd ra rb : BitVec 5) : KeepO s (execMulhu c rd ra rb s) := keep_aluR
theorem keep_execAddi (c : Ctx) (rd ra : BitVec 5) (imm : BitVec 16) : KeepO s (execAddi c rd ra imm s) := keep_aluI
theorem keep_execAndi (c : Ctx) (rd ra : BitVec 5) (imm : BitVec 16) : KeepO s (execAndi c rd ra imm s) := keep_aluI
theorem keep_execOri (c : Ctx) (rd ra : BitVec 5) (imm : BitVec 16) : KeepO s (execOri c rd ra imm s) := keep_aluI
theorem keep_execXori (c : Ctx) (rd ra : BitVec 5) (imm : BitVec 16) : KeepO s (execXori c rd ra imm s) := keep_aluI
theorem keep_execSlti (c : Ctx) (rd ra : BitVec 5) (imm : BitVec 16) : KeepO s (execSlti c rd ra imm s) := keep_aluI
theorem keep_execShi (c : Ctx) (rd ra : BitVec 5) (imm : BitVec 16) : KeepO s (execShi c rd ra imm s) := keep_aluI
theorem keep_execBeq (c : Ctx) (ra rb : BitVec 5) (off : BitVec 16) : KeepO s (execBeq c ra rb off s) := keep_branch
theorem keep_execBne (c : Ctx) (ra rb : BitVec 5) (off : BitVec 16) : KeepO s (execBne c ra rb off s) := keep_branch
theorem keep_execBlt (c : Ctx) (ra rb : BitVec 5) (off : BitVec 16) : KeepO s (execBlt c ra rb off s) := keep_branch
theorem keep_execBge (c : Ctx) (ra rb : BitVec 5) (off : BitVec 16) : KeepO s (execBge c ra rb off s) := keep_branch
theorem keep_execBltu (c : Ctx) (ra rb : BitVec 5) (off : BitVec 16) : KeepO s (execBltu c ra rb off s) := keep_branch
theorem keep_execBgeu (c : Ctx) (ra rb : BitVec 5) (off : BitVec 16) : KeepO s (execBgeu c ra rb off s) := keep_branch
theorem keep_execHalloc (c : Ctx) (rd ra rb : BitVec 5) : KeepO s (execHalloc c rd ra rb s) := keep_handleInsn
theorem keep_execHfree (c : Ctx) (rd ra rb : BitVec 5) : KeepO s (execHfree c rd ra rb s) := keep_handleInsn
theorem keep_execHrebase (c : Ctx) (rd ra rb : BitVec 5) : KeepO s (execHrebase c rd ra rb s) := keep_handleInsn
theorem keep_execHflags (c : Ctx) (rd ra rb : BitVec 5) : KeepO s (execHflags c rd ra rb s) := keep_handleInsn
theorem keep_execHdrain (c : Ctx) (rd ra rb : BitVec 5) : KeepO s (execHdrain c rd ra rb s) := keep_handleInsn
theorem keep_execHrd (c : Ctx) (rd ra rb : BitVec 5) : KeepO s (execHrd c rd ra rb s) := keep_handleInsn
theorem keep_execMnop (c : Ctx) (w : W128) : KeepO s (execMnop c w s) := keep_nopWord
theorem keep_execMma (c : Ctx) (w : W128) (g : GangIn) : KeepO s (execMma c w g s) := keep_product
theorem keep_execMma6 (c : Ctx) (w : W128) (g : GangIn) : KeepO s (execMma6 c w g s) := keep_product
theorem keep_execVnop (c : Ctx) (w : W128) : KeepO s (execVnop c w s) := keep_nopWord
theorem keep_execVadd (c : Ctx) (w : W128) : KeepO s (execVadd c w s) := keep_ewWord
theorem keep_execVsub (c : Ctx) (w : W128) : KeepO s (execVsub c w s) := keep_ewWord
theorem keep_execVmul (c : Ctx) (w : W128) : KeepO s (execVmul c w s) := keep_ewWord
theorem keep_execVfma (c : Ctx) (w : W128) : KeepO s (execVfma c w s) := keep_ewWord
theorem keep_execVmin (c : Ctx) (w : W128) : KeepO s (execVmin c w s) := keep_ewWord
theorem keep_execVmax (c : Ctx) (w : W128) : KeepO s (execVmax c w s) := keep_ewWord
theorem keep_execVabs (c : Ctx) (w : W128) : KeepO s (execVabs c w s) := keep_ewWord
theorem keep_execVneg (c : Ctx) (w : W128) : KeepO s (execVneg c w s) := keep_ewWord
theorem keep_execVsqrt (c : Ctx) (w : W128) : KeepO s (execVsqrt c w s) := keep_ewWord
theorem keep_execVrcp (c : Ctx) (w : W128) : KeepO s (execVrcp c w s) := keep_ewWord
theorem keep_execVrsqrt (c : Ctx) (w : W128) : KeepO s (execVrsqrt c w s) := keep_ewWord
theorem keep_execVexp2 (c : Ctx) (w : W128) : KeepO s (execVexp2 c w s) := keep_ewWord
theorem keep_execVlog2 (c : Ctx) (w : W128) : KeepO s (execVlog2 c w s) := keep_ewWord
theorem keep_execVand (c : Ctx) (w : W128) : KeepO s (execVand c w s) := keep_ewWord
theorem keep_execVor (c : Ctx) (w : W128) : KeepO s (execVor c w s) := keep_ewWord
theorem keep_execVxor (c : Ctx) (w : W128) : KeepO s (execVxor c w s) := keep_ewWord
theorem keep_execVshl (c : Ctx) (w : W128) : KeepO s (execVshl c w s) := keep_ewWord
theorem keep_execVshr (c : Ctx) (w : W128) : KeepO s (execVshr c w s) := keep_ewWord
theorem keep_execVsra (c : Ctx) (w : W128) : KeepO s (execVsra c w s) := keep_ewWord
theorem keep_execRnop (c : Ctx) (w : W128) : KeepO s (execRnop c w s) := keep_nopWord
theorem keep_execLnf (c : Ctx) (w : W128) : KeepO s (execLnf c w s) := keep_rowWord
theorem keep_execRmsf (c : Ctx) (w : W128) : KeepO s (execRmsf c w s) := keep_rowWord
theorem keep_execSmf (c : Ctx) (w : W128) : KeepO s (execSmf c w s) := keep_rowWord
theorem keep_execLnb (c : Ctx) (w : W128) : KeepO s (execLnb c w s) := keep_rowWord
theorem keep_execRmsb (c : Ctx) (w : W128) : KeepO s (execRmsb c w s) := keep_rowWord
theorem keep_execSmb (c : Ctx) (w : W128) : KeepO s (execSmb c w s) := keep_rowWord
theorem keep_execDnop (c : Ctx) (w : W128) : KeepO s (execDnop c w s) := keep_nopWord
theorem keep_execSnop (c : Ctx) (w : W128) : KeepO s (execSnop c w s) := keep_nopWord
theorem keep_execLostFlit (f : W64) : KeepO s (execLostFlit f s) := keep_noticeIn
theorem keep_execParkFlit (f : W64) : KeepO s (execParkFlit f s) := keep_noticeIn
theorem keep_execUnparkFlit (f : W64) : KeepO s (execUnparkFlit f s) := keep_noticeIn
theorem keep_execTnop (c : Ctx) (w : W128) : KeepO s (execTnop c w s) := keep_nopWord

end Sys2Proof.Machine
end

