-- ==== Sys2Proof/Laws/Plain.lean ====
section
/-!
SUPPORT. Accesses of engine words in a plain state: unchecked, no ECC mark, no other access in the step under way: bytes are read and
stored, and the stores are noted among the step's accesses, nothing else.
-/

namespace Sys2Proof.Machine

variable {s : State} {u : Who}

/-- No page is tracked, every stored word is good, and only `u` has accessed the scratchpad in the step under way. -/
def Quiet (s : State) (u : Who) : Prop :=
  s.checked = false ∧ s.spadErr = [] ∧ s.wbPend = [] ∧ ∀ e ∈ s.stepSpad, e.by u = true

theorem Plain.quiet (h : Plain s) (u : Who) : Quiet s u :=
  ⟨h.1, h.2.2.1, h.2.2.2.1, fun e he => by rw [h.2.2.2.2.2.2.1] at he; cases he⟩

/-- The state with the scratchpad, the record of the step's accesses and the record of who has accumulated replaced. -/
def noted (s : State) (m : Sparse Byte) (l : List SpadAcc) (o : Sparse Nat) : State := { s with spad := m, stepSpad := l, accOwn := o }
@[simp] theorem noted_spad (s : State) (m : Sparse Byte) (l : List SpadAcc) (o : Sparse Nat) : (noted s m l o).spad = m := rfl
@[simp] theorem noted_noted (s : State) (m n : Sparse Byte) (l k : List SpadAcc) (o q : Sparse Nat) :
    noted (noted s m l o) n k q = noted s n k q := rfl
theorem quiet_noted (h : Quiet s u) (m : Sparse Byte) {l : List SpadAcc} (o : Sparse Nat) (hl : ∀ e ∈ l, e.by u = true) :
    Quiet (noted s m l o) u :=
  ⟨h.1, h.2.1, h.2.2.1, hl⟩

theorem meets_quiet (h : Quiet s u) (p : Nat) : meets s u p = false := by
  unfold meets
  rw [List.any_eq_false]
  intro e he
  simp [h.2.2.2 e he]
theorem marked_quiet (h : Quiet s u) (m : EccMark) (hm : m ≠ .good) (ws : List Nat) : marked s m ws = [] := by
  unfold marked eccOf
  rw [h.2.1, List.filter_eq_nil_iff]
  intro a _
  simp [sget]
  exact decide_eq_false (fun (e : EccMark.good = m) => hm e.symm)
theorem cleanWords_quiet (h : Quiet s u) (ws : List Nat) : cleanWords s ws = s := by
  have hf : ∀ l : List Nat, l.foldl (fun m w => sput EccMark.good m w .good) [] = [] := by
    intro l
    induction l with
    | nil => rfl
    | cons a l ih => exact ih
  unfold cleanWords
  rw [h.2.1, h.2.2.1, hf, List.filter_nil, ← h.2.1]
  conv => lhs; rw [← h.2.2.1]
theorem admit_quiet (h : Quiet s u) (k : Acc) (p : Nat) : admitAccess s u k p = .ok s := by
  unfold admitAccess
  rw [h.1]
  rfl
theorem checkWords_quiet (h : Quiet s u) (c : Option Ctx) (ws : List Nat) : checkWords s c ws = s := by
  unfold checkWords
  rw [marked_quiet h _ (by decide)]
  rfl
theorem seenBytes_quiet (h : Quiet s u) (a n : Nat) : seenBytes s u a n = spadBytes s a n := by
  unfold seenBytes
  rw [meets_quiet h]
  rfl

theorem lineRead_quiet (h : Quiet s u) (a n : Nat) : lineRead s u a n = { s := s, data := spadBytes s a n, fail := none } := by
  unfold lineRead
  rw [admit_quiet h]
  dsimp only
  rw [marked_quiet h _ (by decide), checkWords_quiet h, seenBytes_quiet h]
  rfl

theorem takeOwners_only (s : State) (u : Who) (k : Acc) (a n : Nat) :
    takeOwners s u k a n = { s with accOwn := (takeOwners s u k a n).accOwn } := by
  unfold takeOwners
  split
  · rfl
  · cases k <;> rfl
/-- A line written by a first producer: its bytes take the place of those before as the kind of write makes them, and the access is noted. -/
theorem lineWrite_quiet (h : Quiet s u) (k : Acc) (a : Nat) (bs : List Byte) (hp : secondProducer s u k a bs.length = false) :
    ∃ l o, lineWrite s u k a bs =
        { s := noted s (sputs 0 s.spad a (written k (spadBytes s a bs.length) bs)) l o, data := [], fail := none } ∧
      ∀ e ∈ l, e.by u = true := by
  have e : storeLine s u k a bs =
      noted s (sputs 0 s.spad a (written k (spadBytes s a bs.length) bs)) (s.stepSpad ++ [accOf s u k a bs]) s.accOwn := by
    unfold storeLine
    dsimp only
    rw [meets_quiet h]
    unfold accOf
    rw [seenBytes_quiet h]
    rfl
  refine ⟨s.stepSpad ++ [accOf s u k a bs], (takeOwners (storeLine s u k a bs) u k a bs.length).accOwn, ?_, fun e he => ?_⟩
  · unfold lineWrite
    rw [admit_quiet h]
    dsimp only
    rw [marked_quiet h _ (by decide), checkWords_quiet h, cleanWords_quiet h]
    show Got.mk (storeOwned s u k a bs) [] none = _
    unfold storeOwned
    rw [hp]
    show Got.mk (takeOwners (storeLine s u k a bs) u k a bs.length) [] none = _
    rw [takeOwners_only, e]
    rfl
  · rcases List.mem_append.1 he with he | he
    · exact h.2.2.2 e he
    · cases List.mem_singleton.1 he
      simp [SpadAcc.by, accOf]
theorem first_write (s : State) (u : Who) (a n : Nat) : secondProducer s u .write a n = false := rfl

theorem sgets_append {α : Type} (d : α) (m : Sparse α) : ∀ (n k a : Nat), sgets d m a (n + k) = sgets d m a n ++ sgets d m (a + n) k := by
  intro n
  induction n with
  | zero => intro k a; simp [sgets]
  | succ n ih =>
    intro k a
    rw [show n + 1 + k = (n + k) + 1 by omega]
    simp only [sgets, List.cons_append]
    rw [ih, show a + 1 + n = a + (n + 1) by omega]
theorem sgets_length {α : Type} (d : α) (m : Sparse α) : ∀ (n a : Nat), (sgets d m a n).length = n := by
  intro n
  induction n with
  | zero => intro a; rfl
  | succ n ih => intro a; simp [sgets, ih]
theorem sputs_append {α : Type} [DecidableEq α] (d : α) : ∀ (xs ys : List α) (m : Sparse α) (a : Nat),
    sputs d m a (xs ++ ys) = sputs d (sputs d m a xs) (a + xs.length) ys := by
  intro xs
  induction xs with
  | nil => intro ys m a; rfl
  | cons x xs ih =>
    intro ys m a
    simp only [List.cons_append, sputs, List.length_cons]
    rw [ih, show a + 1 + xs.length = a + (xs.length + 1) by omega]

theorem piece_pos (a n : Nat) (h : n ≠ 0) : 0 < piece a n := by
  unfold piece
  have := Nat.mod_lt a (show 0 < 256 by omega)
  omega
theorem piece_le (a n : Nat) : piece a n ≤ n := by unfold piece; omega

/-- A run of bytes read. -/
theorem runRead_quiet (h : Quiet s u) : ∀ (k a n : Nat), n ≤ k → runRead u k s a n = { s := s, data := spadBytes s a n, fail := none } := by
  intro k
  induction k with
  | zero =>
    intro a n hn
    rw [show n = 0 by omega]
    rfl
  | succ k ih =>
    intro a n hn
    unfold runRead
    by_cases hz : n = 0
    · rw [if_pos hz, hz]; rfl
    · rw [if_neg hz]
      dsimp only
      rw [lineRead_quiet h]
      dsimp only
      have h1 := piece_pos a n hz
      have h2 := piece_le a n
      rw [ih _ _ (by omega)]
      dsimp only
      congr 1
      unfold spadBytes
      rw [← sgets_append, show piece a n + (n - piece a n) = n by omega]

/-- A run of bytes stored. -/
theorem runWrite_quiet : ∀ (k : Nat) (s : State) (a : Nat) (bs : List Byte), Quiet s u → bs.length ≤ k →
    ∃ l o, runWrite u .write k s a bs = { s := noted s (sputs 0 s.spad a bs) l o, data := [], fail := none } ∧ ∀ e ∈ l, e.by u = true := by
  intro k
  induction k with
  | zero =>
    intro s a bs h hn
    have : bs = [] := List.length_eq_zero_iff.mp (by omega)
    rw [this]
    exact ⟨s.stepSpad, s.accOwn, rfl, h.2.2.2⟩
  | succ k ih =>
    intro s a bs h hn
    unfold runWrite
    by_cases hz : bs.isEmpty = true
    · rw [if_pos hz, List.isEmpty_iff.mp hz]
      exact ⟨s.stepSpad, s.accOwn, rfl, h.2.2.2⟩
    · rw [if_neg hz]
      dsimp only
      obtain ⟨l, o, e1, hl⟩ := lineWrite_quiet h .write a (bs.take (piece a bs.length)) (first_write ..)
      rw [e1]
      dsimp only
      have hb : bs.length ≠ 0 := fun q => hz (List.isEmpty_iff.mpr (List.length_eq_zero_iff.mp q))
      have h1 := piece_pos a bs.length hb
      have h2 := piece_le a bs.length
      obtain ⟨l2, o2, e2, hl2⟩ := ih _ (a + piece a bs.length) (bs.drop (piece a bs.length)) (quiet_noted h _ o hl)
        (by rw [List.length_drop]; omega)
      refine ⟨l2, o2, ?_, hl2⟩
      rw [e2]
      simp only [noted_noted, noted_spad, written]
      congr 2
      conv => rhs; rw [← List.take_append_drop (piece a bs.length) bs]
      rw [sputs_append, List.length_take, Nat.min_eq_left h2]

theorem wordRead_quiet (h : Quiet s u) (x : Handle) (o n : Nat) :
    wordRead s u x o n = { s := s, data := spadBytes s (physOf x o) n, fail := none } := runRead_quiet h _ _ _ (by omega)
theorem wordWrite_quiet (h : Quiet s u) (x : Handle) (o : Nat) (bs : List Byte) :
    ∃ l q, wordWrite s u x .write o bs = { s := noted s (sputs 0 s.spad (physOf x o) bs) l q, data := [], fail := none } ∧
      ∀ e ∈ l, e.by u = true := runWrite_quiet _ _ _ _ h (by omega)

/-- Rows of a buffer read. -/
theorem readRows_quiet (h : Quiet s u) (x : Handle) (off stride nb : Nat) : ∀ rs : List Nat,
    readRows u x off stride nb s rs = (s, rs.map (fun r => spadBytes s (physOf x (off + r * stride)) nb), none) := by
  intro rs
  induction rs with
  | nil => rfl
  | cons r rs ih =>
    unfold readRows
    rw [wordRead_quiet h]
    dsimp only
    rw [ih]
    rfl

/-- Runs of bytes stored one after another. -/
theorem writeRuns_quiet (x : Handle) : ∀ (rs : List (Nat × List Byte)) (s : State), Quiet s u →
    ∃ l o, writeRuns u x .write s rs =
        { s := noted s (rs.foldl (fun m r => sputs 0 m (physOf x r.1) r.2) s.spad) l o, data := [], fail := none } ∧
      ∀ e ∈ l, e.by u = true := by
  intro rs
  induction rs with
  | nil => intro s h; exact ⟨s.stepSpad, s.accOwn, rfl, h.2.2.2⟩
  | cons r rs ih =>
    intro s h
    obtain ⟨o, bs⟩ := r
    unfold writeRuns
    obtain ⟨l, q, e1, hl⟩ := wordWrite_quiet h x o bs
    rw [e1]
    dsimp only
    obtain ⟨l2, o2, e2, hl2⟩ := ih _ (quiet_noted h _ q hl)
    refine ⟨l2, o2, ?_, hl2⟩
    rw [e2]
    simp only [noted_noted, noted_spad, List.foldl_cons]

/-- Bytes read one by one. -/
theorem spadBytes_getD (s : State) (a n i : Nat) (h : i < n) : (spadBytes s a n).getD i 0 = sget 0 s.spad (a + i) := by
  unfold spadBytes
  generalize s.spad = m
  induction n generalizing a i with
  | zero => omega
  | succ n ih =>
    cases i with
    | zero => rfl
    | succ i =>
      show (sgets 0 m (a + 1) n).getD i 0 = _
      rw [ih _ _ (by omega), show a + 1 + i = a + (i + 1) by omega]

/-- A byte after a run was stored. -/
theorem spadPut_byte (hw : swf 0 s.spad = true) (a b : Nat) (bs : List Byte) :
    sget 0 (spadPut s a bs).spad b = if a ≤ b ∧ b < a + bs.length then bs.getD (b - a) 0 else sget 0 s.spad b :=
  sget_sputs 0 bs s.spad a b hw

/-- Accumulator entries read. -/
theorem accReadRow_plain (h : Plain s) (c : Ctx) (own : Option Ctx) (row : Nat) : ∀ js : List Nat,
    accReadRow c own row s js = (s, js.map (accGet s row), none) := by
  intro js
  induction js with
  | nil => rfl
  | cons j js ih =>
    unfold accReadRow accRead
    rw [h.2.2.2.2.1]
    have e : accSeen s own (accKey row j) = accGet s row j := by
      unfold accSeen accGet
      rw [h.2.2.2.2.2.2.2]
      rfl
    show (_, _) = _
    rw [show sget EccMark.good [] (accKey row j) = .good from rfl]
    dsimp only
    rw [ih, e]
    rfl

end Sys2Proof.Machine
end

