-- ==== Sys2Proof/WellFormed.lean ====
section
/-!
DEFINITION. When a command is well formed: its operands lie in the ranges and bear the codes that its row of the manual gives
(08 R182, R186; 09 R211; 15 R331; 16 R355, R370; 17 R373). The machine itself checks them again: an ill-formed command changes
nothing, or takes the outcome that the manual gives its fault.
-/

namespace Sys2Proof

open Machine

/-- An engine word of an engine and an operation (08 R186). -/
def wordOf (w : W128) (eng op : Nat) : Bool := wEng w = eng && wOp w = op

/-- A supply within its operating range, in millivolts, and the other below its absolute maximum (16 R370). -/
def inRange (vcore vmem : Nat) : Bool :=
  ((550 ≤ vcore && vcore ≤ 850) || (700 ≤ vmem && vmem ≤ 800)) && vcore ≤ 880 && vmem ≤ 830

/-- A command is well formed. -/
def wf (i : Instr) : Bool :=
  match i with
  | .step _ _ lines => lines.all (fun l => l.1 < 16)
  | .eccWriteback _ => true
  | .scrub bank => bank < 64
  | .add _ _ _ _ => true
  | .sub _ _ _ _ => true
  | .and _ _ _ _ => true
  | .or _ _ _ _ => true
  | .xor _ _ _ _ => true
  | .sll _ _ _ _ => true
  | .srl _ _ _ _ => true
  | .sra _ _ _ _ => true
  | .slt _ _ _ _ => true
  | .sltu _ _ _ _ => true
  | .mul _ _ _ _ => true
  | .mulhu _ _ _ _ => true
  | .addi _ _ _ _ => true
  | .andi _ _ _ _ => true
  | .ori _ _ _ _ => true
  | .xori _ _ _ _ => true
  | .slti _ _ _ _ => true
  | .shi _ rd ra imm => legalWord (encI 0x06 rd ra imm)
  | .lui _ _ _ => true
  | .lw _ _ _ _ => true
  | .sw _ _ _ _ => true
  | .lde _ _ _ _ => true
  | .ste _ _ _ _ => true
  | .beq _ _ _ _ => true
  | .bne _ _ _ _ => true
  | .blt _ _ _ _ => true
  | .bge _ _ _ _ => true
  | .bltu _ _ _ _ => true
  | .bgeu _ _ _ _ => true
  | .jal _ _ _ => true
  | .jalr _ _ _ _ => true
  | .bcr _ _ _ => true
  | .crclr _ _ => true
  | .efldi _ ed pos imm => legalWord (encEI 0x20 ed pos imm)
  | .efld _ ed pos ra lenm1 => legalWord (encER 0x21 ed pos ra lenm1)
  | .erd _ _ _ _ => true
  | .issue _ _ => true
  | .fset _ _ => true
  | .fclr _ _ => true
  | .fwait _ _ => true
  | .frd _ _ _ => true
  | .halloc _ _ _ _ => true
  | .hfree _ _ _ _ => true
  | .hrebase _ _ _ _ => true
  | .hflags _ _ _ _ => true
  | .hdrain _ _ _ _ => true
  | .hrd _ _ _ _ => true
  | .srd _ _ num => srdKnown num.toNat
  | .sfence _ => true
  | .snapf _ _ => true
  | .lfence _ => true
  | .halt _ => true
  | .cstart _ _ => true
  | .fwIllegal _ w => !legalWord w
  | .fwPcRange _ => true
  | .waitSatisfied _ => true
  | .wordComplete _ => true
  | .mnop _ w => wEng w = 0 && (wOp w = 0 || !([1, 2, 3, 4, 6].contains (wOp w)))
  | .mset _ w => wordOf w 0 0x01
  | .mma _ w _ => wordOf w 0 0x02
  | .mdrain _ w => wordOf w 0 0x03
  | .mzero _ w => wordOf w 0 0x04
  | .mma6 _ w _ => wordOf w 0 0x06
  | .vnop _ w => wEng w = 1 && (wOp w = 0 || !([0x01, 0x02, 0x03, 0x04, 0x05, 0x06, 0x07, 0x08, 0x09, 0x0A, 0x0B, 0x0C, 0x0D, 0x10, 0x11, 0x12,
      0x13, 0x14, 0x15, 0x18, 0x19, 0x1A, 0x1B, 0x1C, 0x1D, 0x1E, 0x20, 0x21, 0x28, 0x29, 0x2A, 0x2B, 0x2C, 0x30, 0x38, 0x39, 0x3A, 0x3B, 0x3C, 0x3F].contains (wOp w)))
  | .vadd _ w => wordOf w 1 0x01
  | .vsub _ w => wordOf w 1 0x02
  | .vmul _ w => wordOf w 1 0x03
  | .vfma _ w => wordOf w 1 0x04
  | .vmin _ w => wordOf w 1 0x05
  | .vmax _ w => wordOf w 1 0x06
  | .vabs _ w => wordOf w 1 0x07
  | .vneg _ w => wordOf w 1 0x08
  | .vsqrt _ w => wordOf w 1 0x09
  | .vrcp _ w => wordOf w 1 0x0A
  | .vrsqrt _ w => wordOf w 1 0x0B
  | .vexp2 _ w => wordOf w 1 0x0C
  | .vlog2 _ w => wordOf w 1 0x0D
  | .vand _ w => wordOf w 1 0x10
  | .vor _ w => wordOf w 1 0x11
  | .vxor _ w => wordOf w 1 0x12
  | .vshl _ w => wordOf w 1 0x13
  | .vshr _ w => wordOf w 1 0x14
  | .vsra _ w => wordOf w 1 0x15
  | .vcmp _ w => wordOf w 1 0x18
  | .vsel _ w => wordOf w 1 0x19
  | .mlogic _ w => wordOf w 1 0x1A
  | .vslide _ w => wordOf w 1 0x1B
  | .viota _ w => wordOf w 1 0x1C
  | .vcompress _ w => wordOf w 1 0x1D
  | .vsplat _ w => wordOf w 1 0x1E
  | .vred _ w => wordOf w 1 0x20
  | .vscan _ w => wordOf w 1 0x21
  | .vcvt _ w => wordOf w 1 0x28
  | .vcast _ w => wordOf w 1 0x29
  | .vmxe _ w => wordOf w 1 0x2A
  | .vmxd _ w => wordOf w 1 0x2B
  | .vtrkRead _ w => wordOf w 1 0x2C && fld w 91 2 = 0
  | .vtrkWrite _ w => wordOf w 1 0x2C && fld w 91 2 = 1
  | .vtrkReset _ w => wordOf w 1 0x2C && fld w 91 2 = 2
  | .vtrkAdvance _ w => wordOf w 1 0x2C && fld w 91 2 = 3
  | .vrand _ w => wordOf w 1 0x30
  | .vload _ w => wordOf w 1 0x38
  | .vstore _ w => wordOf w 1 0x39
  | .vgather _ w => wordOf w 1 0x3A
  | .vscatter _ w => wordOf w 1 0x3B
  | .vacc _ w => wordOf w 1 0x3C
  | .vstat _ w => wordOf w 1 0x3F
  | .rnop _ w => wEng w = 2 && (wOp w = 0 || !([0x01, 0x02, 0x03, 0x04, 0x09, 0x0A, 0x0B, 0x10, 0x11].contains (wOp w)))
  | .lnf _ w => wordOf w 2 0x01
  | .rmsf _ w => wordOf w 2 0x02
  | .smf _ w => wordOf w 2 0x03
  | .rset _ w => wordOf w 2 0x04
  | .lnb _ w => wordOf w 2 0x09
  | .rmsb _ w => wordOf w 2 0x0A
  | .smb _ w => wordOf w 2 0x0B
  | .rsave _ w => wordOf w 2 0x10
  | .rload _ w => wordOf w 2 0x11
  | .rowDone u => u < 2
  | .dnop _ w => wEng w = 3 && (wOp w = 0 || !([1, 2, 3].contains (wOp w)))
  | .dxfer _ w => wordOf w 3 0x01
  | .dwopen _ w => wordOf w 3 0x02
  | .dwclose _ w => wordOf w 3 0x03
  | .stkRdSend _ _ _ => true
  | .stkWrSend _ _ _ => true
  | .winWrSend _ _ => true
  | .stkRdRsp _ _ hdr _ => hKind hdr = 2
  | .stkWrAck _ _ hdr _ => hKind hdr = 4
  | .winAck _ _ hdr _ => hKind hdr = 6
  | .nack _ _ hdr _ => hKind hdr = 7
  | .fabricFlitDiscard _ _ _ _ => true
  | .winWrReceive _ _ hdr _ => hKind hdr = 5 && hLen hdr ≤ 64
  | .winAckSend _ => true
  | .snop _ w => wEng w = 4 && (wOp w = 0 || !([1, 2].contains (wOp w)))
  | .srset _ w => wordOf w 4 0x01
  | .sall _ w => wordOf w 4 0x02
  | .setFlit f => fKind f ≤ 1 || fKind f ≥ 7
  | .lostFlit f => fKind f = 2
  | .parkFlit f => fKind f = 3
  | .unparkFlit f => fKind f = 4
  | .stepStartFlit f => fKind f = 5
  | .stepMismatchFlit f => fKind f = 6
  | .stepStartSend => true
  | .stepAdmit => true
  | .tnop _ w => wEng w = 5 && (wOp w = 0 || !([1, 2].contains (wOp w)))
  | .sfold _ w => wordOf w 5 0x01
  | .sseal _ w => wordOf w 5 0x02
  | .setSwap => true
  | .snapshotCapture => true
  | .captureComplete => true
  | .pRecordSample => true
  | .copyPage => true
  | .restoreLoad => true
  | .localDeadlock => true
  | .restExpiry => true
  | .lendOffer => true
  | .stepRateWindow _ => true
  | .activityUpdate => true
  | .budgetSample _ => true
  | .tbaseLost => true
  | .wire _ => true
  | .pmRiseReq => true
  | .pmRiseGnt => true
  | .fillerStop => true
  | .rstNAssert _ => true
  | .rstNRelease _ _ _ => true
  | .selfInitComplete => true
  | .supplyChange vcore vmem => 500 ≤ vcore && vcore ≤ 880 && 660 ≤ vmem && vmem ≤ 830
  | .supplyLoss vcore vmem => vcore < 500 || vmem < 660
  | .finAlarm => true
  | .linkDown _ => true
  | .linkdownDeassert _ => true
  | .rd f => frRequest f && frType f = 1 && frGood f
  | .wr f => frRequest f && frType f = 2 && frGood f
  | .wrBroadcast f => isBroadcast f && frGood f
  | .enum f => isEnum f && frGood f
  | .frameForward _ => true
  | .registerWrite a _ => a.toNat % 4 = 0
  | .go => true
  | .park => true
  | .unpark => true
  | .crst _ => true
  | .load => true
  | .fwZeroComplete => true
  | .imemWindowWrite off bs => !bs.isEmpty && off + bs.length ≤ imemWindow
  | .dmemWindowWrite off bs => !bs.isEmpty && off + bs.length ≤ 65536
  | .spadWindowWrite off bs => !bs.isEmpty && off + bs.length ≤ 65536
  | .begin => true
  | .swap => true
  | .cancel => true
  | .proofWindowWrite _ bs => !bs.isEmpty
  | .proofCheckDone => true
  | .setcmd _ => true
  | .clrcmd _ _ => true
  | .lostclr _ => true
  | .handleWindowWrite off ws => off % 4 = 0 && off + 4 * ws.length ≤ 0x2000
  | .stepParamWrite _ _ _ => true
  | .stepParamValid b v => fld v 0 4 = (if b then 2 else 1)
  | .stepParamWithdraw b v => fld v 0 4 = (if b then 8 else 4)
  | .stepNumLoWrite _ => true
  | .stepNumHiWrite _ => true
  | .relContext _ => true
  | .relCore => true
  | .fltWireClear _ => true
  | .force v => bit v 7
  | .restore v => bit v 5
  | .clear _ => true
  | .wsBypass code _ => !testCodes.contains code
  | .wsExtest _ _ => true
  | .wsPreload _ => true
  | .wsIntestScan _ => true
  | .wsClamp _ => true
  | .wsSafe _ => true
  | .wtMbist => true
  | .wtLbist => true
  | .wtRing => true
  | .wtResult _ => true
  | .testDone _ _ _ _ => true
  | .wrstnLow => true
  | .errType f => frRequest f && frType f ≠ 1 && frType f ≠ 2 && frType f ≠ 3 && frGood f
  | .tbaseReturn => true
  | .finQuiet => true
  | .pmRiseGntLower => true
  | .supplyUp vcore vmem => inRange vcore vmem

end Sys2Proof
end

