-- ==== Sys2Proof/Tests/Slice0.lean ====
section
/-!
SUPPORT. Own tests: commands that no row of the manual allows are refused by WellFormed, single commands on small states, and for
every statement with hypotheses a witness that meets them.
-/

set_option Elab.async false

namespace Sys2Proof.Tests

open Sys2Proof Sys2Proof.Machine

/-! ### WellFormed refuses what no row allows -/

/-- The word of an engine, an operation and the bits below them. -/
def word (eng op low : Nat) : W128 := BitVec.ofNat 128 (eng * 2 ^ 124 + op * 2 ^ 116 + low)

/-- A fabric header of a kind and a length. -/
def header (kind len : Nat) : BitVec 128 := BitVec.ofNat 128 (kind * 2 ^ 124 + len * 2 ^ 106)

/-- A sync flit of a kind. -/
def flit (kind : Nat) : W64 := BitVec.ofNat 64 (kind * 2 ^ 60)

/-- What a core outside a gang meets on its gang links. -/
def noGang : GangIn := { status := 0, ctl := 0, rows := [], gw := [], actExp := [], gn := [], agree := true }

/-- 01 R12, 06 R126, 08 R182, R185, R194: lines of ports above 15, banks above 63, and illegal encodings are refused. -/
theorem test_wf_instructions : [
    .step false 0 [(16, 0)], .scrub 64, .shi .c0 1 1 0x60, .shi .c0 1 1 0x80, .efldi .c0 0 113 0, .efld .c0 0 127 1 1, .srd .c0 1 0x004,
    .srd .c0 1 0x030, .fwIllegal .c0 0x00000000, .rowDone 2].all (fun i => !wf i) = true := by decide

/-- 08 R186: a command of the matrix engine bears the word of another engine, or of an operation that is not its own. -/
theorem test_wf_words_matrix : [word 1 0x01 0, word 0 0x05 0].all (fun w => [
    .mset .c0 w, .mma .c0 w noGang, .mdrain .c0 w, .mzero .c0 w, .mma6 .c0 w noGang].all (fun i => !wf i)) = true := by decide

/-- 08 R186: a command of the vector engine bears the word of another engine, or of an operation that is not its own. -/
theorem test_wf_words_vector : [word 2 0x01 0, word 1 0x3E 0].all (fun w => [
    .vadd .c0 w, .vsub .c0 w, .vmul .c0 w, .vfma .c0 w, .vmin .c0 w, .vmax .c0 w, .vabs .c0 w, .vneg .c0 w, .vsqrt .c0 w,
    .vrcp .c0 w, .vrsqrt .c0 w, .vexp2 .c0 w, .vlog2 .c0 w, .vand .c0 w, .vor .c0 w, .vxor .c0 w, .vshl .c0 w, .vshr .c0 w,
    .vsra .c0 w, .vcmp .c0 w, .vsel .c0 w, .mlogic .c0 w, .vslide .c0 w, .viota .c0 w, .vcompress .c0 w, .vsplat .c0 w,
    .vred .c0 w, .vscan .c0 w, .vcvt .c0 w, .vcast .c0 w, .vmxe .c0 w, .vmxd .c0 w, .vtrkRead .c0 w, .vtrkWrite .c0 w,
    .vtrkReset .c0 w, .vtrkAdvance .c0 w, .vrand .c0 w, .vload .c0 w, .vstore .c0 w, .vgather .c0 w, .vscatter .c0 w,
    .vacc .c0 w, .vstat .c0 w].all (fun i => !wf i)) = true := by decide

/-- 08 R186: a command of the row engine bears the word of another engine, or of an operation that is not its own. -/
theorem test_wf_words_row : [word 3 0x01 0, word 2 0x3E 0].all (fun w => [
    .lnf .c0 w, .rmsf .c0 w, .smf .c0 w, .rset .c0 w, .lnb .c0 w, .rmsb .c0 w, .smb .c0 w, .rsave .c0 w,
      .rload .c0 w].all (fun i => !wf i)) = true := by decide

/-- 08 R186: a command of the dma engine bears the word of another engine, or of an operation that is not its own. -/
theorem test_wf_words_dma : [word 4 0x01 0, word 3 0x3E 0].all (fun w => [
    .dxfer .c0 w, .dwopen .c0 w, .dwclose .c0 w].all (fun i => !wf i)) = true := by decide

/-- 08 R186: a command of the sync engine bears the word of another engine, or of an operation that is not its own. -/
theorem test_wf_words_sync : [word 5 0x01 0, word 4 0x3E 0].all (fun w => [
    .srset .c0 w, .sall .c0 w].all (fun i => !wf i)) = true := by decide

/-- 08 R186: a command of the starter engine bears the word of another engine, or of an operation that is not its own. -/
theorem test_wf_words_starter : [word 0 0x01 0, word 5 0x3E 0].all (fun w => [
    .sfold .c0 w, .sseal .c0 w].all (fun i => !wf i)) = true := by decide

/-- 02 R48, 03 R65, 04 R88, R101, 05 R120, 07 R156, 09 R214, 13 R296: a no-operation bears an assigned operation, and a tracker word the
function of another. -/
theorem test_wf_words_nop : [
    .mnop .c0 (word 0 6 0), .vnop .c0 (word 1 0x3F 0), .rnop .c0 (word 2 0x11 0), .dnop .c0 (word 3 3 0), .snop .c0 (word 4 2 0),
    .tnop .c0 (word 5 2 0), .mnop .c0 (word 1 0 0), .vnop .c0 (word 0 0 0), .rnop .c0 (word 0 0 0), .dnop .c0 (word 0 0 0),
    .snop .c0 (word 0 0 0), .tnop .c0 (word 0 0 0), .vtrkRead .c0 (word 1 0x2C (2 ^ 91)), .vtrkWrite .c0 (word 1 0x2C 0),
    .vtrkReset .c0 (word 1 0x2C (3 * 2 ^ 91)), .vtrkAdvance .c0 (word 1 0x2C (2 ^ 92))].all (fun i => !wf i) = true := by decide

/-- 16 R355, 09 R211: a flit under the name of another KIND, and a window write of more than 64 bytes. -/
theorem test_wf_flits : [
    .stkRdRsp .fa 0 (header 4 16) 0, .stkWrAck .fa 0 (header 2 16) 0, .winAck .fb 0 (header 7 0) 0, .nack .fb 0 (header 6 0) 0,
    .winWrReceive .fa 0 (header 6 64) 0, .winWrReceive .fa 0 (header 5 65) 0, .setFlit (flit 2), .lostFlit (flit 3), .parkFlit (flit 4),
    .unparkFlit (flit 5), .stepStartFlit (flit 6), .stepMismatchFlit (flit 1)].all (fun i => !wf i) = true := by decide

/-- 15 R329 to R332: a frame of another TYPE, a damaged one, a request to a broadcast address that is no write. -/
theorem test_wf_frames : [
    .rd [2, 1, 0, 0, 0, 0, 0, 4, 0], .wr [1, 1, 0, 0, 0, 0, 0, 4, 0], .rd [1, 1, 0, 0, 0, 0, 0, 4, 0, 0, 0], .wrBroadcast [1, 0xFF, 0, 0, 0, 0, 0, 4,
      0],
    .enum [2, 0xFF, 0, 0, 0, 0, 0, 1, 0, 1], .errType [1, 1, 0, 0, 0, 0, 0, 0, 0], .errType [0x81, 1, 0, 0, 0, 0, 0, 0, 0]
    ].all (fun i => !wf i) = true := by decide +kernel

/-- 17 R373, R388 to R390, 06 R151, 10 R246, 11 R255, 13, 16 R370: a host write off its grid or its window, under the name of another
command bit, or supplies out of the ranges. -/
theorem test_wf_host : [
    .registerWrite 0x102 0, .imemWindowWrite 0 [], .imemWindowWrite 0x50044 [0], .dmemWindowWrite 0 [], .dmemWindowWrite 65536 [0],
    .spadWindowWrite 0 [], .spadWindowWrite 65535 [0, 0], .proofWindowWrite 0 [], .handleWindowWrite 2 [], .handleWindowWrite 0x2000 [0],
    .stepParamValid false 2, .stepParamValid true 1, .stepParamWithdraw false 8, .stepParamWithdraw true 4, .force 0x40, .restore 0x80,
    .supplyChange 499 750, .supplyChange 720 831, .supplyUp 881 750, .supplyUp 549 699, .supplyLoss 500 660, .wsBypass 5 []
    ].all (fun i => !wf i) = true := by decide +kernel

/-! ### Checks that evaluate, each equal to its term of Safety -/

/-- The check of `CtxCanon`. -/
def ctxB (x : Context) : Bool :=
  swf 0 x.regs && sget 0 x.regs 0 = 0 && swf 0 x.estage && swf 0 x.ready && swf 0 x.vregs && swf 0 x.masks && swf 0 x.mslots &&
  swf 0 x.rslots && swf [] x.queue && swf HWait.pending x.hwait

theorem ctxCanon_iff (x : Context) : CtxCanon x ↔ ctxB x = true := by simp [CtxCanon, ctxB, and_assoc]

/-- The check of `JobCanon`. -/
def jobB : Job → Bool
  | .stalled x _ => ctxB x
  | _ => true

theorem jobCanon_iff (j : Job) : JobCanon j ↔ jobB j = true := by cases j <;> simp [JobCanon, jobB, ctxCanon_iff]

/-- The check of `Canon`. -/
def canonB (s : State) : Bool :=
  ctxB s.c0 && ctxB s.c1 && swf Flag.zero s.flags && swf 0 s.spad && swf EccMark.good s.spadErr && swf 0 s.scrub &&
  swf PageSt.empty s.pages && swf Handle.zero s.handles && swf 0 s.acc && swf EccMark.good s.accErr && swf 0 s.stat &&
  swf EccMark.good s.statErr && swf 0 s.imem && swf 0 s.dmem && swf Tracker.reset s.trackers && swf 0 s.perf && swf 0 s.perfStep &&
  swf 0 s.perfLast && swf 0 s.accOwn && swf 0 s.mesh.cells && swf 0 s.mesh.shadows && swf 0 s.mesh.geOut && swf 0 s.mesh.geExp && swf 0 s.mesh.gsOut && s.running.all (fun r => jobB r.job)

theorem canon_iff (s : State) : Canon s ↔ canonB s = true := by
  simp [Canon, canonB, ctxCanon_iff, jobCanon_iff, MeshCanon, and_assoc]

/-- The check of `Ready`. -/
def readyB (s : State) (c : Ctx) (w : W32) (srcs : List Nat) : Bool :=
  canIssue s c && fetch s (getCtx s c) = some w && srcsReady s (getCtx s c) srcs

theorem ready_iff (s : State) (c : Ctx) (w : W32) (srcs : List Nat) : Ready s c w srcs ↔ readyB s c w srcs = true := by
  simp [Ready, readyB, and_assoc]

/-- The check of `Starts`. -/
def startsB (s : State) (c : Ctx) (e : Eng) (w : W128) (op : Nat) : Bool :=
  mayStart s c e w && chosen s c e && wOp w = op && stalledWord s c e w = none

theorem starts_iff (s : State) (c : Ctx) (e : Eng) (w : W128) (op : Nat) : Starts s c e w op ↔ startsB s c e w op = true := by
  simp [Starts, startsB, and_assoc]

/-- The check of `FormA`. -/
def formB (s : State) (c : Ctx) (w : W128) (op resv : Nat) (fmts : List Nat) : Bool :=
  startsB s c .vector w op && w.toNat % 2 ^ resv = 0 && fmts.contains (vFMT w) && s.cfg.formats.getLsbD (vFMT w) &&
  vVL w ≤ 32768 / fmtBits (vFMT w)

theorem formA_iff (s : State) (c : Ctx) (w : W128) (op resv : Nat) (fmts : List Nat) :
    FormA s c w op resv fmts ↔ formB s c w op resv fmts = true := by
  simp only [FormA, formB, starts_iff, Bool.and_eq_true, decide_eq_true_eq, List.contains_iff_mem, and_assoc]

/-- No word runs, and none has completed in the step. -/
def aloneB (s : State) : Bool := s.running.isEmpty && s.stepDone.isEmpty

/-- The check of `Plain`. -/
def plainB (s : State) : Bool :=
  !s.checked && s.st.protSpad.isEmpty && s.spadErr.isEmpty && s.wbPend.isEmpty && s.accErr.isEmpty && s.statErr.isEmpty &&
  s.stepSpad.isEmpty && s.stepAcc.isEmpty

theorem plain_iff (s : State) : Plain s ↔ plainB s = true := by simp [Plain, plainB, List.isEmpty_iff, and_assoc]

/-- A plain state in which no word runs: a word that starts in it is alone on its places, and so is an access from outside. -/
def idleB (s : State) : Bool := plainB s && aloneB s

theorem idle_meets (s : State) (h : idleB s = true) : Plain s ∧ ∀ q id foot, foes s q id foot = [] := by
  simp only [idleB, aloneB, Bool.and_eq_true, List.isEmpty_iff] at h
  exact ⟨(plain_iff s).2 h.1, fun q id foot => by simp [foes, h.2.1, h.2.2]⟩

/-- The check of `UsesFit`. -/
def fitB (s : State) (us : List Use) : Bool :=
  us.all (fun u => let h := getH s u.idx
    h.valid && h.gen.toNat = u.gen && (!(u.wr || u.acc) || !h.wp) && (!u.acc || h.sp) &&
    u.runs.all (fun r => (!u.acc || r.1 % 4 = 0) && (r.2 = 0 || 0 ≤ r.1 && r.1 + r.2 ≤ h.npages.toNat * 65536)))

theorem usesFit_iff (s : State) (us : List Use) : UsesFit s us ↔ fitB s us = true := by
  unfold UsesFit fitB
  rw [List.all_eq_true]
  refine forall_congr' fun u => imp_congr_right fun _ => ?_
  simp only [Bool.and_eq_true, Bool.or_eq_true, Bool.not_eq_true', decide_eq_true_eq, List.all_eq_true]
  cases u.wr <;> cases u.acc <;> simp [and_assoc, Decidable.or_iff_not_imp_left]

/-! ### States -/

/-- A running core: RST_N released, chain address 1, C0 RUNNING from index 0. -/
def run0 : State := { State.reset with rstN := true, core := .running, chainAddr := 1, c0 := { Context.reset with run := .running } }

/-- C0 of a running core replaced. -/
def ctx0 (f : Context → Context) : State := { run0 with c0 := f run0.c0 }

/-- A core whose instruction memory holds one word. -/
def ins (s : State) (w : W32) : State := { s with imem := if w = 0 then [] else [(0, w)], imemLen := 1 }

/-- A running core with one value in s1. -/
def reg1 (v : W32) : State := ctx0 fun x => { x with regs := [(1, v)] }

/-- A word at the head of C0's queue of an engine. -/
def eng (s : State) (e : Eng) (w : W128) : State :=
  { s with nextId := 8, c0 := { s.c0 with queue := [(engNum e, [{ id := 7, word := w }])] } }

/-- A value at a bit position of a word. -/
def b (v lo : Nat) : Nat := v * 2 ^ lo

/-- A running word. -/
def job (e : Eng) (w : W128) (j : Job) : Running := { id := 7, eng := e, ctx := .c0, word := w, handles := [], job := j }

/-- A handle of two pages from page 4 that may be written, accumulated to and received in. -/
def buf : Handle := { Handle.zero with gen := 5, valid := true, win := true, sp := true, base := 4, npages := 2 }

/-- The state that a command answers. -/
def after (i : Instr) (s : State) : State := match exec i s with | .next t => t | _ => State.reset

/-- A command that answers a next state. -/
def answers (i : Instr) (s : State) : Bool := match exec i s with | .next _ => true | _ => false

theorem answers_next (i : Instr) (s : State) (h : answers i s = true) : ∃ t, exec i s = .next t := by
  unfold answers at h
  split at h
  · exact ⟨_, ‹_›⟩
  · simp at h

/-- A word at the head of C0's queue of an engine may start, and is refused with a code. -/
def refusedB (i : W128 → Instr) (s : State) (e : Eng) (w : W128) (code : Nat) : Bool :=
  startsB s .c0 e w (wOp w) && (after (i w) s).flt.reports.map (fun r => r.code) = [code] && (queueOf (after (i w) s).c0 e).isEmpty

/-! ### Witnesses: every statement with hypotheses has states and operands that meet them -/

theorem wit_StepRunsFront : State.reset.pending = [] ∧ live State.reset = false := by decide +kernel

/-- Running and offering, with both contexts idle, and blocked on a flag. -/
theorem wit_TickMovesTimers :
    let o : State := { run0 with pwr := { run0.pwr with lend := true } }
    let h : State := ctx0 fun x => { x with run := .halted }
    let f : State := ctx0 fun x => { x with run := .waiting, wait := .flag 3 }
    live run0 = true ∧ run0.tmr.lost = false ∧ run0.pwr.lend = false ∧ run0.c0.run = .running ∧ live o = true ∧ o.pwr.lend = true ∧
      live h = true ∧ h.running = [] ∧ h.c0.run = .halted ∧ h.c1.run = .halted ∧ h.c0.wait = .none ∧ h.c1.wait = .none ∧
      live f = true ∧ f.tmr.lost = false ∧ f.tmr.progress = false ∧ f.parked = false ∧ f.core ≠ .held ∧ parkedWait f = false ∧ f.running = [] ∧
      (∀ c ∈ allCtxs, ∀ e ∈ allEngs, queueOf (getCtx f c) e = []) ∧ f.c0.run = .waiting ∧ f.c1.run = .halted := by decide +kernel

theorem wit_StepKeepsInvariants : Canon State.reset ∧ HoldInv State.reset ∧ HoldInv run0 ∧ run0.core = .running ∧
    (∀ i ∈ State.reset.pending.head?, losesContents i = false) ∧ ∃ t, step State.reset = .next t :=
  ⟨(canon_iff _).2 (by decide +kernel), ⟨nofun, nofun⟩, ⟨nofun, fun _ => rfl⟩, rfl, by rw [show State.reset.pending = [] from rfl]; simp,
    tick State.reset, by rw [step, show State.reset.pending = [] from rfl]⟩

theorem wit_InstructionMemoryStays : (reachesImem .go = false ∧ ∃ t, exec .go State.reset = .next t) ∧
    run0.rstDue = false ∧ run0.mgmt = [] ∧ ∃ t, exec (.step false 0 []) run0 = .next t :=
  ⟨⟨rfl, _, rfl⟩, rfl, rfl, answers_next _ _ (by decide +kernel)⟩

/-- Every form R word. -/
theorem wit_RegisterArithmetic :
    ([0x000, 0x001, 0x002, 0x003, 0x004, 0x005, 0x006, 0x007, 0x008, 0x009, 0x00A, 0x00B] : List (BitVec 11)).all (fun fn =>
      let w : W32 := 0x00#6 ++ 31#5 ++ 1#5 ++ 2#5 ++ fn
      canonB (ins run0 w) && readyB (ins run0 w) .c0 w [1, 2] && !regReserved (ins run0 w).c0 31) = true := by decide +kernel

/-- Every immediate word, SHI at the last amount of each of its three shifts. -/
theorem wit_ImmediateArithmetic :
    (([(0x01, 0xFFFF), (0x02, 0xFFFF), (0x03, 0xFFFF), (0x04, 0xFFFF), (0x05, 0x8000), (0x06, 0x001F), (0x06, 0x003F), (0x06, 0x005F), (0x07,
      0x8000)] :
        List (BitVec 6 × BitVec 16)).all (fun p =>
      let w : W32 := p.1 ++ 31#5 ++ 0#5 ++ p.2
      canonB (ins run0 w) && readyB (ins run0 w) .c0 w [0] && !regReserved (ins run0 w).c0 31) &&
    [0, 1, 2].all (fun k => (BitVec.ofNat 16 (32 * k + 31)).toNat / 128 = 0 && (BitVec.ofNat 16 (32 * k + 31)).toNat / 32 % 4 = k)) = true := by
  decide +kernel

/-- The last aligned address of data memory. -/
theorem wit_LoadsReadDataMemory :
    let a (v : W32) : Nat := (BitVec.ofInt 32 ((rdS (reg1 v).c0 1).toNat + (0 : BitVec 16).toInt)).toNat
    let lw : W32 := 0x08#6 ++ 3#5 ++ 1#5 ++ 0#16
    let lde : W32 := 0x0A#6 ++ 0#2 ++ 7#3 ++ 1#5 ++ 0#16
    (a 65532 < 65536 ∧ a 65532 % 4 = 0 ∧ Canon (ins (reg1 65532) lw) ∧ Ready (ins (reg1 65532) lw) .c0 lw [1]) ∧
      a 65520 < 65536 ∧ a 65520 % 16 = 0 ∧ Canon (ins (reg1 65520) lde) ∧ Ready (ins (reg1 65520) lde) .c0 lde [1] := by
  simp only [canon_iff, ready_iff]; decide +kernel

theorem wit_StoresWriteDataMemory :
    let a (v : W32) : Nat := (BitVec.ofInt 32 ((rdS (reg1 v).c0 1).toNat + (0 : BitVec 16).toInt)).toNat
    let sw : W32 := 0x09#6 ++ 3#5 ++ 1#5 ++ 0#16
    let ste : W32 := 0x0B#6 ++ 0#2 ++ 7#3 ++ 1#5 ++ 0#16
    (a 65532 < 65536 ∧ a 65532 % 4 = 0 ∧ memReserved (ins (reg1 65532) sw) (a 65532) = false ∧ Canon (ins (reg1 65532) sw) ∧
      Ready (ins (reg1 65532) sw) .c0 sw [1, 3]) ∧
    a 65520 < 65536 ∧ a 65520 % 16 = 0 ∧ memReserved (ins (reg1 65520) ste) (a 65520) = false ∧ Canon (ins (reg1 65520) ste) ∧
      Ready (ins (reg1 65520) ste) .c0 ste [1, eKey 7] := by
  simp only [canon_iff, ready_iff]; decide +kernel

/-- The first address beyond data memory, the last one within, and a store to the descriptor of a queued DXFER; an illegal word and a
fetch at the image's length. -/
theorem wit_InstructionsFault :
    let a (v : W32) : Nat := (BitVec.ofInt 32 ((rdS (reg1 v).c0 1).toNat + (0 : BitVec 16).toInt)).toNat
    let ws : List (W32 × List Nat) := [(0x08#6 ++ 3#5 ++ 1#5 ++ 0#16, [1]), (0x09#6 ++ 3#5 ++ 1#5 ++ 0#16, [1, 3]),
      (0x0A#6 ++ 0#2 ++ 7#3 ++ 1#5 ++ 0#16, [1]), (0x0B#6 ++ 0#2 ++ 7#3 ++ 1#5 ++ 0#16, [1, eKey 7])]
    let q (w : W32) : State := eng (ins (reg1 65520) w) .dma (word 3 1 (b 1023 81))
    let w : W32 := 0xFFFFFFFF
    (ws.all (fun w => [65535, 65536].all (fun v => readyB (ins (reg1 v) w.1) .c0 w.1 w.2)) && 65536 ≤ a 65536 && a 65535 < 65536 &&
      a 65535 % 4 ≠ 0 && a 65535 % 16 ≠ 0 && ws.all (fun w => readyB (q w.1) .c0 w.1 w.2 && memReserved (q w.1) (a 65520)) && a 65520 % 16 = 0 &&
      canIssue (ins run0 w) .c0 && fetch (ins run0 w) (ins run0 w).c0 = some w && fld w 26 6 = 0x3F && fld w 0 26 ≠ 0 && fld w 21 5 ≠ 0 &&
      canIssue run0 .c0 && run0.imemLen ≤ run0.c0.pc.toNat) = true := by decide +kernel

/-- Each branch taken and not taken: s1 holds the most negative number. -/
theorem wit_ControlTransfers :
    let s : State := ctx0 fun x => { x with regs := [(1, 0x80000000)], cr := 0x40 }
    let two (ra rb : BitVec 5) : Prop := ∀ op ∈ ([0x10, 0x11, 0x12, 0x13, 0x14, 0x15] : List (BitVec 6)),
      let w : W32 := op ++ ra ++ rb ++ 0#16
      Ready (ins s w) .c0 w [ra.toNat, rb.toNat]
    let a := rdS s.c0 1
    let z := rdS s.c0 0
    two 1 0 ∧ two 0 1 ∧ two 0 0 ∧ a ≠ z ∧ a.toInt < z.toInt ∧ z.toNat < a.toNat ∧ ¬ z.toInt < a.toInt ∧ ¬ a.toNat < z.toNat ∧
      (let w : W32 := 0x16#6 ++ 1#5 ++ 0#21
       Canon (ins s w) ∧ Ready (ins s w) .c0 w []) ∧
      (let w : W32 := 0x17#6 ++ 1#5 ++ 1#5 ++ 0#16
       Canon (ins s w) ∧ Ready (ins s w) .c0 w [1]) ∧
      (∀ m ∈ ([0x40, 0x3BF] : List (BitVec 10)), let w : W32 := 0x18#6 ++ m ++ 0#16
       Ready (ins s w) .c0 w []) ∧
      ((0x40 : BitVec 10).getLsbD 6 = true ∧ s.c0.cr.getLsbD 6 = true) ∧ (∀ k < 7, ¬ ((0x3BF : BitVec 10).getLsbD k = true ∧
        s.c0.cr.getLsbD k = true)) ∧
      (let w : W32 := 0x19#6 ++ 0x3FF#10 ++ 0#16
       Ready (ins s w) .c0 w []) := by
  simp only [canon_iff, ready_iff]; decide +kernel

/-- The last places that fit, and the first that do not; an e5 not yet available. -/
theorem wit_StagingFields :
    let wi (pos : BitVec 7) : W32 := 0x20#6 ++ 5#3 ++ pos ++ 0xFFFF#16
    let wr (pos : BitVec 7) (n : BitVec 5) : W32 := 0x21#6 ++ 5#3 ++ pos ++ 1#5 ++ n ++ 0#6
    let s : State := reg1 0xFFFFFFFF
    let l : State := { s with c0 := { s.c0 with ready := [(37, 2)] } }
    (Canon (ins s (wi 112)) ∧ Ready (ins s (wi 112)) .c0 (wi 112) [eKey 5]) ∧
    (96 + ((31 : BitVec 5).toNat + 1) = 128 ∧ Ready (ins s (wr 96 31)) .c0 (wr 96 31) [1, eKey 5]) ∧
    (canIssue (ins l (wi 112)) .c0 = true ∧ fetch (ins l (wi 112)) (ins l (wi 112)).c0 = some (wi 112) ∧
      srcsReady (ins l (wi 112)) (ins l (wi 112)).c0 [eKey 5] = false) ∧
    (canIssue (ins l (wr 96 31)) .c0 = true ∧ fetch (ins l (wr 96 31)) (ins l (wr 96 31)).c0 = some (wr 96 31) ∧
      srcsReady (ins l (wr 96 31)) (ins l (wr 96 31)).c0 [1, eKey 5] = false) ∧
    (canIssue (ins s (wi 113)) .c0 = true ∧ fetch (ins s (wi 113)) (ins s (wi 113)).c0 = some (wi 113)) ∧
    canIssue (ins s (wr 97 31)) .c0 = true ∧ fetch (ins s (wr 97 31)) (ins s (wr 97 31)).c0 = some (wr 97 31) := by
  simp only [canon_iff, ready_iff]; decide +kernel

/-- A queue that is empty, one that is full, and an engine that does not exist. -/
theorem wit_IssuePushesWord :
    let w : W32 := 0x23#6 ++ 2#3 ++ 0#23
    let s (v : W128) (n : Nat) : State := ctx0 fun x =>
      { x with estage := [(2, v)], queue := if n = 0 then [] else [(1, List.replicate n { id := 1, word := 0 })] }
    let v : W128 := word 1 0x3F 0
    Canon (ins (s v 0) w) ∧ Ready (ins (s v 0) w) .c0 w [eKey 2] ∧ engOf (fld (rdE (s v 0).c0 2) 124 4) = some .vector ∧
      (queueOf (s v 63).c0 .vector).length < queueLimit (s v 63) .c0 .vector ∧ Ready (ins (s v 64) w) .c0 w [eKey 2] ∧
      queueLimit (s v 64) .c0 .vector ≤ (queueOf (s v 64).c0 .vector).length ∧
      Ready (ins (s (word 6 0 0) 0) w) .c0 w [eKey 2] ∧ 6 ≤ fld (rdE (s (word 6 0 0) 0).c0 2) 124 4 := by
  simp only [canon_iff, ready_iff]; decide +kernel

theorem wit_FlagsAndStagingReads :
    (∀ op ∈ ([0x28, 0x29, 0x2A] : List (BitVec 6)), let w : W32 := op ++ 0#5 ++ 1#5 ++ 0#5 ++ 0#11
      Ready (ins (reg1 0x3FFF) w) .c0 w [1]) ∧
    (let w : W32 := 0x2B#6 ++ 2#5 ++ 1#5 ++ 0#5 ++ 0#11
     Canon (ins (reg1 0x3FFF) w) ∧ Ready (ins (reg1 0x3FFF) w) .c0 w [1]) ∧
    (let w : W32 := 0x22#6 ++ 2#5 ++ 0#2 ++ 7#3 ++ 0#3 ++ 3#2 ++ 0#11
     Canon (ins run0 w) ∧ Ready (ins run0 w) .c0 w [eKey 7]) := by
  simp only [canon_iff, ready_iff]; decide +kernel

/-- Every assigned number, and the first ones that are not. -/
theorem wit_SpecialRegisterReads :
    let w (n : BitVec 12) : W32 := 0x38#6 ++ 31#5 ++ 0#5 ++ 0#4 ++ n
    (([0x000, 0x001, 0x002, 0x003, 0x010, 0x011, 0x020, 0x02F, 0x040, 0x041] : List (BitVec 12)).all (fun n =>
      canonB (ins run0 (w n)) && readyB (ins run0 (w n)) .c0 (w n) []) &&
    ([0x004, 0x00F, 0x012, 0x01F, 0x030, 0x03F, 0x042, 0xFFF] : List (BitVec 12)).all (fun n =>
      ¬ (n.toNat ≤ 3 ∨ n = 0x010 ∨ n = 0x011 ∨ 0x020 ≤ n.toNat ∧ n.toNat ≤ 0x02F ∨ n = 0x040 ∨ n = 0x041) &&
        canIssue (ins run0 (w n)) .c0 && fetch (ins run0 (w n)) (ins run0 (w n)).c0 = some (w n))) = true := by decide +kernel

/-- Every handle instruction with zero and with reserved operand bits, and with rd reserved by a queued VLOAD. -/
theorem wit_HandleInstructionsIssue : ∀ op < 6,
    let w : W32 := BitVec.ofNat 6 (0x30 + op) ++ 2#5 ++ 0#5 ++ 1#5 ++ 0#11
    let q : State := eng run0 .vector (word 1 0x1E (b 2 59 + b 1 64))
    Canon (ins (reg1 0xF0000000) w) ∧ Ready (ins (reg1 0xF0000000) w) .c0 w [0, 1] ∧ (rdS (reg1 0xF0000000).c0 1).toNat / 2 ^ 28 ≠ 0 ∧
      Ready (ins run0 w) .c0 w [0, 1] ∧ regReserved run0.c0 2 = false ∧ Ready (ins q w) .c0 w [0, 1] ∧ regReserved q.c0 2 = true := by
  simp only [canon_iff, ready_iff]; decide +kernel

/-- With a swap pending of either kind and none, a snapshot due, a P record due and none, C1 HALTED and RUNNING. -/
theorem wit_FencesAndHalting :
    let p : State := { run0 with pstate := .pending }
    let l : State := { p with proof := { p.proof with recs := [(0x0D, 0)] } }
    let d : State := { run0 with st := { run0.st with en := true, cadence := 1, force := true } }
    let e : State := { run0 with st := { run0.st with en := true, cmask := 0x11, pcadence := 1 } }
    let r : State := { run0 with c1 := { run0.c1 with run := .running } }
    let layout (s : State) : Bool := s.proof.recs.any (fun x => x.1 = 0x0D)
    ([run0, p, l, d, e, r].all (fun s => ([0x3C#6 ++ 0#26, 0x3E#6 ++ 0#26, 0x3D#6 ++ 0#5 ++ 1#5 ++ 0#16, 0x3F#6 ++ 0#26,
      0x3F#6 ++ 0#5 ++ 1#5 ++ 0#5 ++ 0x001#11] : List W32).all (fun w => readyB (ins s w) .c0 w [1])) &&
    (p.pstate = .pending && !layout p) && (l.pstate = .pending && layout l) && d.st.en && d.st.rstate ≠ .replaying && d.st.force && !run0.st.en &&
      e.st.en && e.st.rstate ≠ .replaying && !e.st.force && e.st.cadence = 0 && e.st.cmask.getLsbD 4 && e.st.pcadence = 1 && run0.c1.run = .halted &&
      r.c1.run ≠ .halted) = true := by decide +kernel

theorem wit_WaitsEndAndWordsComplete :
    let a : State := ctx0 fun x => { x with run := .waiting, wait := .flagSat 5 3 }
    let h : State := ctx0 fun x => { x with hwait := [(0, .satisfied 3)] }
    let r : Running := job .sync (word 4 2 0) (.sall 1023 1 true (some [(1023, 2)]))
    let q : State := { run0 with running := [r] }
    let d : State := { run0 with running := [job .vector (word 1 0x3F 0) .done] }
    let m : Running := { job .matrix (word 0 2 0) .done with foot := [{ place := .acc, wr := true, acc := false, lo := 0, len := 1 }] }
    let p : State := { run0 with running := [m] }
    (live a = true ∧ a.c0.wait = .flagSat 5 3 ∧ a.c0.run = .waiting) ∧ (live h = true ∧ CtxCanon h.c0 ∧ headWait h.c0 .matrix = .satisfied 3) ∧
    (live q = true ∧ (∀ x ∈ q.running, x.id = r.id ↔ x = r) ∧ runningOf q .sync r.ctx = [r]) ∧
    (live d = true ∧ findRun d 7 = some (job .vector (word 1 0x3F 0) .done) ∧ (job .vector (word 1 0x3F 0) .done).eng ≠ .matrix) ∧
    live p = true ∧ findRun p 7 = some m ∧ m.job = .done ∧ p.pwr.need = true ∧ wOp m.word = 2 ∧
      ∃ f ∈ m.foot, f.len ≠ 0 := by simp only [ctxCanon_iff]; decide +kernel

/-- A free entry at the last page that fits and the first that does not, pages of another entry, entries that may be used, one in use,
entries of two partitions, and one of no page. -/
theorem wit_HandleOperations :
    let s : State := { run0 with handles := [(5, buf), (6, { buf with base := 8 }), (7, { buf with base := 12, part := 1 }), (8, { buf with npages := 0, part := 2 })] }
    let u : State := { s with running := [{ job .vector 0 .done with handles := [5] }] }
    let v (lo hi part : Nat) : Nat := lo + hi * 2048 + part * 2 ^ 22
    let fits (lo hi : Nat) : Bool := lo + hi ≤ pageCount s && (s.cfg.parts.getD 0 (0, 0)).1 ≤ lo &&
      lo + hi ≤ (s.cfg.parts.getD 0 (0, 0)).1 + (s.cfg.parts.getD 0 (0, 0)).2
    let clear (lo hi : Nat) : Bool := (List.range 512).all (fun k => k = 9 || !(getH s k).valid ||
      lo + hi ≤ (getH s k).base.toNat || (getH s k).base.toNat + (getH s k).npages.toNat ≤ lo)
    (canonB s && canonB u && !(getH s 9).valid && fits 1022 2 && clear 1022 2 && v 1022 2 0 < 2 ^ 32 &&
      (!inUse s 5 && (getH s 5).valid) && (!inUse s 6 && (getH s 6).valid && (getH s 5).part = (getH s 6).part) && 2 ≤ (getH s 5).npages.toNat &&
      !fits 1022 3 && (s.cfg.parts.getD 1 (0, 0)).2 < 2 && fits 5 1 && !clear 5 1 && inUse u 5 && (getH s 5).part ≠ (getH s 7).part &&
      (getH s 5).npages ≠ 0 && (getH s 7).npages ≠ 0 && (getH s 5).part ≠ (getH s 8).part && (getH s 8).npages = 0 && (getH s 8).valid &&
      (getH s 5).npages.toNat < 3) = true := by decide +kernel

/-- No handle instruction, one, and one of each context, C1's first; progress, a flag that changes, a wave, and none of these. -/
theorem wit_StepEndsTheStep :
    let o (c : Ctx) : HandleOp := { ctx := c, op := 0, rd := 1, a := 5, b := BitVec.ofNat 32 (4 + 2 * 2048) }
    let one : State := { run0 with stepOps := [o .c1] }
    let two : State := { run0 with stepOps := [o .c1, o .c0] }
    let w : State := { run0 with running := [job .matrix 0 .done], pwr := { run0.pwr with need := false } }
    let f : State := { run0 with stepSets := [(3, none)] }
    ([run0, one, two, w, f].all (fun s => awake s && !s.rstDue && s.held.isEmpty && s.mgmt.isEmpty && !s.perfStop && canonB s && (seqDone s).stepSets.isEmpty = s.stepSets.isEmpty) &&
      run0.stepOps.isEmpty && !run0.tmr.progress && one.stepOps = [o .c1] && two.stepOps = [o .c1, o .c0] && (o .c1).ctx = .c1 &&
      getFlag (after (.step false 0 []) f) 3 ≠ getFlag f 3 && !w.pwr.need && w.running.any (fun r => r.eng = .matrix) &&
      { run0 with tmr := { run0.tmr with progress := true } }.tmr.progress && awake { run0 with perfStop := true }) = true := by decide +kernel

/-- Two sets of one flag, a set of the last flag, a clear, and notices of the owner of a flag. -/
theorem wit_FlagUpdates :
    let s : State := { run0 with
      flags := [(5, { Flag.zero with set := true, gen := 2 })], stepSets := [(3, none), (1023, some .c0), (3, some .c1), (5, none)],
      stepClears := [(5, 2), (6, 0)] }
    let m : State := { s with stepMarks := [.park 9, .lost 9, .unpark 9], cfg := { s.cfg with flagmap := [(4, 9), (3, 9)] } }
    (awake s && !s.rstDue && canonB s && s.selfFlits.isEmpty && s.flt.reports.isEmpty && s.stepMarks.isEmpty && s.stepOps.isEmpty && !s.perfStop &&
      (seqDone s).stepSets.all (fun e => e.1 < 1024) && s.held.isEmpty && s.mgmt.isEmpty && s.pinA = s.linkA && s.pinB = s.linkB && m.mgmt.isEmpty &&
      awake m && !m.rstDue && canonB m && m.selfFlits.isEmpty) = true := by decide +kernel

/-- A context, a head word and an SALL that wait on a flag that is set, lost, parked, or none of these; a head word that has met the flag
LOST. -/
theorem wit_WaitsJudged : ([{ Flag.zero with set := true }, { Flag.zero with lost := true }, { Flag.zero with parked := true },
  Flag.zero].all (fun f =>
      let w : W128 := word 1 1 (b 1 114 + b 3 104)
      let s : State := { eng run0 .vector w with flags := if f = Flag.zero then [] else [(3, f)] }
      let t : State := { s with c0 := { s.c0 with run := .waiting, wait := .flag 3 } }
      let u : State := { s with c0 := { s.c0 with hwait := [(1, .lost)] } }
      let r : Running := job .sync (word 4 2 0) (.sall 3 1 true none)
      let v : State := { s with running := [r] }
      [t, u, v].all (fun s => !s.rstDue && s.mgmt.isEmpty && s.held.isEmpty && s.pinA = s.linkA && s.pinB = s.linkB) &&
        awake v && canonB v && (occurrences v).isEmpty && v.stepOps.isEmpty && v.selfFlits.isEmpty && v.running = [r] && r.ctx = .c0 &&
        v.syncQ.isEmpty && awake t && canonB t && (occurrences t).isEmpty && t.stepOps.isEmpty && t.selfFlits.isEmpty && t.c0.wait = .flag 3 && t.c0.run = .waiting &&
        headOf t .c0 .vector = some ⟨7, w⟩ && wWV w && headWait t.c0 .vector = .pending && wFlag w = 3 && getFlag t 3 = f &&
        awake u && canonB u && (occurrences u).isEmpty && u.stepOps.isEmpty && u.selfFlits.isEmpty && headOf u .c0 .vector = some ⟨7, w⟩ &&
        headWait u.c0 .vector = .lost && u.stepMarks.isEmpty && u.c0.wait = .none && u.running.isEmpty &&
        allEngs.all (fun e => e = .vector || (headOf u .c0 e).isNone))) = true := by decide +kernel

/-- A code that no record maps, one of each mapping, and the two that are not mapped. -/
theorem wit_FaultReactions :
    let s : State := { run0 with cfg := { run0.cfg with faultmap := [(1, 0), (2, 1), (3, 2), (4, 3), (5, 4)] } }
    ([0, 1, 2, 3, 4].all (fun k => (sget 0xF s.cfg.faultmap (k + 1)).toNat = k && k + 1 ≠ 0xC1 && k + 1 ≠ 0xE5) &&
      (sget 0xF s.cfg.faultmap 0x20).toNat = 15) = true := by decide +kernel

/-- A report of the last reporter under each reaction. -/
theorem wit_FaultsAreRecorded :
    let s (k : BitVec 4) : State := { run0 with
      cfg := { run0.cfg with faultmap := [(255, k)] }, flt := { run0.flt with reports := [{ code := 255, rep := 15, ctx := some .c1 }] } }
    let r : Report := { code := 255, rep := 15, ctx := some .c1 }
    ([(0, .log), (1, .signal), (2, .holdCtx), (3, .holdCore), (4, .resetReq)].all (fun p =>
      awake (s p.1) && !(s p.1).rstDue && (s p.1).flt.reports = [r] && !(s p.1).flt.repAck.contains r.rep && r.rep < 16 && !(s p.1).flt.wire.getLsbD r.rep &&
        r.code < 256 && effReact (s p.1) r = p.2 && (s p.1).flt.wireDue = 0 && !(s p.1).flt.finNew && !(s p.1).flt.rel0 && !(s p.1).flt.rel1 &&
        !(s p.1).flt.relC && (s p.1).mgmt.isEmpty && (s p.1).pinA = (s p.1).linkA && (s p.1).pinB = (s p.1).linkB)) = true := by decide +kernel

/-- A word to correct in row 0 of bank 0, the acknowledge of the memory tier low and still high. -/
theorem wit_MemoryTierCorrects :
    let s : State := { run0 with spadErr := [(2, .single), (2016, .double)], wbPend := [2] }
    let ack : State := { s with flt := { s.flt with repAck := [8] } }
    (awake s && canonB s && s.wbPend.contains 2 && !reporting s 8 && awake ack && canonB ack && reporting ack 8) = true := by decide +kernel

/-- A form A word that names v31 to v28, with its mask where `me` is 1. -/
def formA (op me f vl low : Nat) : W128 := word 1 op (b 31 88 + b 30 83 + b 29 78 + b 28 73 + b me 72 + b f 65 + b vl 47 + low)

/-- Every operation in each of its formats, at the longest vector. -/
theorem wit_VectorElementwise :
    ([(0x01, [0, 1, 12]), (0x02, [0, 1, 12]), (0x03, [0, 1, 12]), (0x04, [0, 1, 12]), (0x05, [0, 1, 12]), (0x06, [0, 1, 12]), (0x07, [0, 1, 12]),
      (0x08, [0, 1, 12]), (0x09, [0, 1]), (0x0A, [0, 1]), (0x0B, [0, 1]), (0x0C, [0, 1]), (0x0D, [0, 1]), (0x10, [12]), (0x11, [12]), (0x12, [12]),
      (0x13, [12]), (0x14, [12]), (0x15, [12])] : List (Nat × List Nat)).all (fun p => p.2.all (fun f =>
        let w := formA p.1 1 f (32768 / fmtBits f) 0
        canonB (eng run0 .vector w) && formB (eng run0 .vector w) .c0 w p.1 47 p.2)) = true := by decide +kernel

/-- Each other form A word, and VADD, with a reserved bit, with a format that it does not take, and with too long a vector. -/
theorem wit_VectorElementwise_refused :
    let vs : List ((W128 → Instr) × Nat × Nat × Nat × Nat × Nat × Nat) := [(.vadd .c0, 0x01, 31, 0, 0, 0, 2), (.vcmp .c0, 0x18, 7, 0, 0, 0, 2),
      (.vsel .c0, 0x19, 31, 1, 0, 0, 2), (.mlogic .c0, 0x1A, 7, 0, 0, 0, 16), (.vslide .c0, 0x1B, 31, 0, 0, 0, 2), (.viota .c0, 0x1C, 31, 0, 12, 0, 2),
      (.vcompress .c0, 0x1D, 31, 1, 0, 0, 2), (.vsplat .c0, 0x1E, 31, 0, 0, 0, 2), (.vred .c0, 0x20, 31, 0, 0, 0, 2),
      (.vscan .c0, 0x21, 31, 0, 0, 0, 2), (.vcvt .c0, 0x28, 31, 0, 0, 0, 2), (.vcast .c0, 0x29, 31, 0, 0, b 3 43, 2),
      (.vmxe .c0, 0x2A, 31, 0, 0, b 3 43, 2), (.vmxd .c0, 0x2B, 31, 0, 0, b 3 43, 16), (.vrand .c0, 0x30, 31, 0, 0, 0, 2)]
    (vs.all (fun v =>
      let w (f vl low : Nat) : W128 := word 1 v.2.1 (b v.2.2.1 88 + b v.2.2.2.1 72 + b f 65 + b vl 47 + low)
      let low := v.2.2.2.2.2.1
      refusedB v.1 (eng run0 .vector (w v.2.2.2.2.1 32 (low + 1))) .vector (w v.2.2.2.2.1 32 (low + 1)) fOpcode &&
      (v.2.2.2.2.2.2 = 16 || refusedB v.1 (eng run0 .vector (w 2 32 low)) .vector (w 2 32 low) fFormat) &&
      refusedB v.1 (eng run0 .vector (w v.2.2.2.2.1 4095 low)) .vector (w v.2.2.2.2.1 4095 low) fExtent) &&
     (let w : W128 := word 1 0x2B (b 12 43 + b 32 47)
      refusedB (.vmxd .c0) (eng run0 .vector w) .vector w fFormat)) = true := by decide +kernel

theorem wit_VectorRearranges :
    (([(0x19, 1, 47, [0, 1, 12]), (0x1B, 0, 35, [0, 1, 12]), (0x1C, 0, 47, [12]), (0x1D, 1, 47, [0, 1, 12]), (0x1E, 0, 47, [0, 1, 12]),
      (0x30, 0, 25, [0, 12])] : List (Nat × Nat × Nat × List Nat)).all (fun p => p.2.2.2.all (fun f =>
        let w := formA p.1 p.2.1 f (32768 / fmtBits f) 0
        canonB (eng run0 .vector w) && formB (eng run0 .vector w) .c0 w p.1 p.2.2.1 p.2.2.2 && vME w = (p.2.1 = 1) && fld w 40 5 ≠ 31 &&
          fld w 30 5 ≠ 31)) &&
      [b 31 40, b 31 30].all (fun low =>
        let w := formA 0x30 0 12 1024 low
        formB (eng run0 .vector w) .c0 w 0x30 25 [0, 12] && (fld w 40 5 = 31 || fld w 30 5 = 31))) = true := by decide +kernel

/-- The last mask, the last condition and the longest vector of a mask. -/
theorem wit_MaskWords :
    let w (f : Nat) : W128 := word 1 0x18 (b 7 88 + b f 65 + b (min 2048 (32768 / fmtBits f)) 47 + b 6 44)
    let m : W128 := word 1 0x1A (b 7 88 + b 2048 47 + b 5 44)
    ([0, 1, 12].all (fun f => canonB (eng run0 .vector (w f)) && formB (eng run0 .vector (w f)) .c0 (w f) 0x18 44 [0, 1, 12] && vVD (w f) < 8 &&
      fld (w f) 44 3 ≠ 7 && vVL (w f) ≤ 2048) &&
    canonB (eng run0 .vector m) && startsB (eng run0 .vector m) .c0 .vector m 0x1A && m.toNat % 2 ^ 44 = 0 && vVD m < 8 && !vME m &&
      fld m 44 3 ≠ 7 && vVL m = 2048) = true := by decide +kernel

/-- Each function, with elements and with none. -/
theorem wit_VectorReductions :
    ([0, 1].all (fun vl => (List.range 7).all (fun fn => [0, 1, 12].all (fun f =>
        let w := formA 0x20 0 f vl (b fn 44)
        canonB (eng run0 .vector w) && formB (eng run0 .vector w) .c0 w 0x20 44 [0, 1, 12] && fld w 44 3 ≠ 7)) &&
      [0, 12].all (fun f => let w := formA 0x21 1 f (1024 * vl) (b 7 42)
        canonB (eng run0 .vector w) && formB (eng run0 .vector w) .c0 w 0x21 42 [0, 12]))) = true := by decide +kernel

theorem wit_VectorConversions :
    let on (s : State) (d : Nat) : Bool := d ≤ 12 && s.cfg.formats.getLsbD d
    let castOk (s : State) (w : W128) : Bool :=
      let df := fld w 43 4
      on s df && df ≠ 11 && (!vME w || 8 ≤ fmtBits df) && vVL w ≤ viewCap df
    let mxOk (s : State) (w : W128) : Bool :=
      let df := fld w 43 4
      [3, 4, 5, 6, 7, 8].contains df && on s df && !vME w && vVL w ≤ viewCap df && vVL w ≤ 1024 && vVL w % 32 = 0
    let nan (w : W128) : State :=
      let x := eng run0 .vector w
      { x with flt := { x.flt with repAck := [1] }, c0 := { x.c0 with vregs := sputs 0 [] (fld w 83 5 * 4096) [0, 0, 0xC0, 0x7F] } }
    ((let w := formA 0x28 0 0 1 (b 8 43 + b 127 35)
      canonB (nan w) && aloneB (nan w) && formB (nan w) .c0 w 0x28 26 [0, 1, 12] && castOk (nan w) w && reporting (nan w) 1 &&
        (cvt 8 false (scaleN (decodeElem 0 (getE (nan w).c0 0 (vVA w) 0)) 0)).nan) &&
    [0, 1, 2, 3, 4, 5, 6, 7, 8, 9, 10, 12].all (fun df =>
      let w := formA 0x28 0 0 1024 (b df 43 + b 254 35)
      canonB (eng run0 .vector w) && aloneB (eng run0 .vector w) && formB (eng run0 .vector w) .c0 w 0x28 26 [0, 1, 12] &&
        castOk (eng run0 .vector w) w && fld w 35 8 ≠ 255) &&
    (let w := formA 0x29 1 0 1024 (b 3 43 + b 1 33 + b 127 26)
     let s := eng run0 .vector w
     canonB s && aloneB s && formB s .c0 w 0x29 26 [0] && castOk s w && fld w 35 8 = 0 &&
       fld w 43 4 = (sget Tracker.reset s.trackers (fld w 26 7)).fmt.toNat) &&
    [3, 4, 5, 6, 7, 8].all (fun df =>
      let e := formA 0x2A 0 0 1024 (b df 43)
      let d := formA 0x2B 0 0 1024 (b df 43)
      canonB (eng run0 .vector e) && formB (eng run0 .vector e) .c0 e 0x2A 43 [0] && mxOk (eng run0 .vector e) e &&
        startsB (eng run0 .vector d) .c0 .vector d 0x2B && d.toNat % 2 ^ 43 = 0 && mxOk (eng run0 .vector d) d)) = true := by decide +kernel

/-- The last tracker; values of format 3 and 7, of format 8 and of SINIT -128. -/
theorem wit_TrackersAndStatus :
    let w (fn : Nat) : W128 := word 1 0x2C (b fn 91 + b 127 84 + b 31 79)
    let s (fn v : Nat) : State :=
      let x := eng run0 .vector (w fn)
      { x with c0 := { x.c0 with vregs := sputs 0 [] (31 * 4096 + 64) (toLE 4 v) } }
    let word16 (v : Nat) : W32 := BitVec.ofNat 32 (getE (s 1 v).c0 12 31 16)
    let ok (v : W32) : Bool := 3 ≤ fld v 4 4 && fld v 4 4 ≤ 7 && fld v 12 8 ≠ 0x80
    ([0, 1, 2, 3].all (fun fn => canonB (s fn 0x30) && aloneB (s fn 0x30) && !(s fn 0x30).stepTrk.contains 127 &&
        fld (w fn) 84 7 = 127 && startsB (s fn 0x30) .c0 .vector (w fn) 0x2C && fld (w fn) 91 2 = fn && (w fn).toNat % 2 ^ 79 = 0) &&
      startsB { s 3 0 with stepTrk := [127] } .c0 .vector (w 3) 0x2C && ok (word16 0x30) && ok (word16 0x7F070) && !ok (word16 0x20) &&
        !ok (word16 0x80) && !ok (word16 0x80030) &&
      [0, 1, 2, 3].all (fun fn => startsB (eng run0 .vector (w fn + 1)) .c0 .vector (w fn + 1) 0x2C && fld (w fn + 1) 91 2 = fn &&
        (w fn + 1).toNat % 2 ^ 79 ≠ 0) && startsB (eng run0 .vector (word 1 0x3F 1)) .c0 .vector (word 1 0x3F 1) 0x3F &&
      [word 1 0x3F (b 31 88), word 1 0x3F (b 31 88 + b 1 87)].all (fun t =>
        canonB (eng run0 .vector t) && startsB (eng run0 .vector t) .c0 .vector t 0x3F && t.toNat % 2 ^ 87 = 0)) = true := by decide +kernel

/-- An unchecked core with one handle of two pages. -/
def plain0 : State := { run0 with checked := false, handles := [(5, buf)] }

/-- Buffers that end with the handle's last byte; a null index beside one that is not; the last rows of the accumulators, and one more. -/
theorem wit_VectorLoads :
    let use (f n : Nat) : List Use := [{ idx := 5, gen := 5, wr := false, acc := false, runs := [(((131072 - runBytes f n : Nat) : Int),
      runBytes f n)] }]
    let ld (f vl me w : Nat) : W128 := word 1 0x38 (b 31 88 + b 5 79 + b 5 75 + b me 74 + b f 67 + b vl 50 + b (131072 - runBytes f vl) 27 + b w 25)
    let g (f : Nat) : W128 := word 1 0x3A (b 31 88 + b 30 83 + b 5 74 + b 5 70 + b f 66 + b 2 50 + b 16 39 + b 64 16)
    let s (f : Nat) : State :=
      let x := eng plain0 .vector (g f)
      { x with c0 := { x.c0 with vregs := sputs 0 [] (30 * 4096) [0xFF, 0xFF, 0xFF, 0xFF, 1] } }
    let ix (f j : Nat) : Nat := getE (s f).c0 12 30 j
    let acc (base rows : Nat) : W128 := word 1 0x3C (b 31 88 + b base 76 + b rows 72)
    (([(0, 1024, 1, 0), (1, 1024, 1, 1), (2, 2048, 1, 0), (3, 2048, 1, 0), (4, 1024, 1, 1), (5, 4095, 0, 0), (6, 1024, 0, 1), (7, 4095, 0, 0),
        (8, 1024, 1, 1), (9, 1024, 0, 1), (10, 2048, 1, 0), (12, 1024, 1, 1)] : List (Nat × Nat × Nat × Nat)).all (fun p =>
      let w := ld p.1 p.2.1 p.2.2.1 p.2.2.2
      let s := eng plain0 .vector w
      canonB s && idleB s && startsB s .c0 .vector w 0x38 && w.toNat % 2 ^ 25 = 0 && s.cfg.formats.getLsbD p.1 &&
        (p.2.2.1 = 0 || (8 ≤ fmtBits p.1 && p.2.1 ≤ 2048)) && p.2.1 ≤ 32768 / fmtBits p.1 && (p.2.2.2 = 0 || p.2.1 ≤ 1024) &&
        fld w 27 23 = 131072 - runBytes p.1 p.2.1 && fitB s (use p.1 p.2.1)) &&
    [0, 1, 12].all (fun f => canonB (s f) && idleB (s f) && startsB (s f) .c0 .vector (g f) 0x3A && (g f).toNat % 2 ^ 10 = 0 &&
      ix f 0 = 0xFFFFFFFF && ix f 1 = 1 && 2 * 16 ≤ 32768 / fmtBits f &&
      fitB (s f) [{ idx := 5, gen := 5, wr := false, acc := false, runs := [(64, runBytes f 16)] }]) &&
    [(4088, 8), (4089, 8), (0, 9)].all (fun p => let w := acc p.1 p.2
      canonB (eng plain0 .vector w) && idleB (eng plain0 .vector w) && startsB (eng plain0 .vector w) .c0 .vector w 0x3C && w.toNat % 2 ^ 72 = 0)) =
      true := by decide +kernel

/-- A core in checked mode whose handle's first page has a state, and an unchecked one with a word that ECC cannot correct. -/
def tier (checked : Bool) (g : PageSt) (bad : Bool) (w : W128) : State :=
  { eng run0 .vector w with checked := checked, handles := [(5, buf)], pages := if g = PageSt.empty then [] else [(4, g)],
                            spadErr := if bad then [(32768, .double)] else [] }

/-- A page of each state, of this context's engine and of another. -/
def pageStates : List PageSt := [PageSt.empty, { st := 1, prod := 2 }, { st := 1, prod := 0 }, { st := 2, prod := 2 }, { st := 3, prod := 0 }]

/-- A VLOAD from a page of each state, one that meets an uncorrectable word; each check that refuses VLOAD, VGATHER and VACC. -/
theorem wit_VectorLoads_checked :
    let ld (f vl gen off low : Nat) : W128 := word 1 0x38 (b 31 88 + b 5 79 + b gen 75 + b f 67 + b vl 50 + b off 27 + low)
    let w := ld 0 1 5 0 0
    let us : List Use := [{ idx := 5, gen := 5, wr := false, acc := false, runs := [(0, 4)] }]
    let g (f rows n gen low : Nat) : W128 := word 1 0x3A (b 31 88 + b 30 83 + b 5 74 + b gen 70 + b f 66 + b rows 50 + b n 39 + b 4096 16 + low)
    let s (w : W128) : State := eng plain0 .vector w
    let far (w : W128) : State := { s w with c0 := { (s w).c0 with vregs := sputs 0 [] (30 * 4096) [32] } }
    (pageStates.all (fun p => let s := tier true p false w
       canonB s && aloneB s && startsB s .c0 .vector w 0x38 && w.toNat % 2 ^ 25 = 0 && s.cfg.formats.getLsbD 0 && fitB s us && s.spadErr.isEmpty &&
         s.stepSpad.isEmpty && s.stepPages.isEmpty && getPage s 4 = p && !w.getLsbD 74 && fld w 50 12 = 1 && !reporting s 1) &&
     (let s := tier false PageSt.empty true w
      canonB s && aloneB s && startsB s .c0 .vector w 0x38 && fitB s us && !s.checked && eccOf s 32768 = .double && !reporting s 8) &&
     [(ld 0 1 5 0 1, fOpcode), (ld 11 1 5 0 0, fFormat), (ld 0 1025 5 0 0, fExtent), (ld 0 1 4 0 0, fStale), (ld 0 2 5 131068 0, fExtent)].all (fun p =>
       refusedB (.vload .c0) (s p.1) .vector p.1 p.2) &&
     [(g 0 2 16 5 1, fOpcode), (g 2 2 16 5 0, fFormat), (g 0 1024 16 5 0, fExtent), (g 0 2 16 4 0, fStale)].all (fun p =>
       refusedB (.vgather .c0) (s p.1) .vector p.1 p.2) && refusedB (.vgather .c0) (far (g 0 2 16 5 0)) .vector (g 0 2 16 5 0) fExtent &&
     [(word 1 0x3C 1, fOpcode), (word 1 0x3C (b 9 72), fExtent)].all (fun p => refusedB (.vacc .c0) (s p.1) .vector p.1 p.2)) = true := by
  decide +kernel

theorem wit_VectorStores :
    let use (f n : Nat) (acc : Bool) : List Use :=
      [{ idx := 5, gen := 5, wr := true, acc := acc, runs := [(((131072 - runBytes f n : Nat) : Int), runBytes f n)] }]
    let st (f vl me a : Nat) : W128 := word 1 0x39 (b 31 88 + b 5 79 + b 5 75 + b me 74 + b f 67 + b vl 50 + b (131072 - runBytes f vl) 27 + b a 26)
    let g (f a : Nat) : W128 := word 1 0x3B (b 31 88 + b 30 83 + b 5 74 + b 5 70 + b f 66 + b 2 50 + b 16 39 + b 64 16 + b a 10)
    let s (f a : Nat) : State :=
      let x := eng plain0 .vector (g f a)
      { x with c0 := { x.c0 with vregs := sputs 0 [] (30 * 4096) [0xFF, 0xFF, 0xFF, 0xFF, 1] } }
    let ix (f j : Nat) : Nat := getE (s f 0).c0 12 30 j
    (([(0, 1024, 1, 1), (1, 1024, 1, 0), (2, 2048, 1, 0), (3, 2048, 1, 0), (4, 1024, 1, 0), (5, 4095, 0, 0), (6, 1024, 0, 0), (7, 4095, 0, 0),
        (8, 1024, 1, 0), (9, 1024, 0, 0), (10, 2048, 1, 0), (12, 1024, 0, 1)] : List (Nat × Nat × Nat × Nat)).all (fun p =>
      let w := st p.1 p.2.1 p.2.2.1 p.2.2.2
      let s := eng plain0 .vector w
      canonB s && idleB s && startsB s .c0 .vector w 0x39 && w.toNat % 2 ^ 25 = 0 && s.cfg.formats.getLsbD p.1 &&
        (p.2.2.2 = 0 || p.1 = 0 || p.1 = 12) && (p.2.2.1 = 0 || (8 ≤ fmtBits p.1 && p.2.1 ≤ 2048)) && p.2.1 ≤ 32768 / fmtBits p.1 &&
        fitB s (use p.1 p.2.1 (p.2.2.2 = 1))) &&
    [(0, 1), (1, 0), (12, 1)].all (fun p => canonB (s p.1 p.2) && idleB (s p.1 p.2) && startsB (s p.1 p.2) .c0 .vector (g p.1 p.2) 0x3B &&
      (g p.1 p.2).toNat % 2 ^ 10 = 0 && ix p.1 0 = 0xFFFFFFFF && ix p.1 1 = 1 && 2 * 16 ≤ 32768 / fmtBits p.1 &&
      fitB (s p.1 p.2) [{ idx := 5, gen := 5, wr := true, acc := p.2 = 1, runs := [(64, runBytes p.1 16)] }])) = true := by decide +kernel

/-- A VSTORE to a page of each state, plain and accumulating; each check that refuses VSTORE and VSCATTER. -/
theorem wit_VectorStores_checked :
    let st (f vl gen off acc low : Nat) : W128 := word 1 0x39 (b 31 88 + b 5 79 + b gen 75 + b f 67 + b vl 50 + b off 27 + b acc 26 + low)
    let us (acc : Bool) : List Use := [{ idx := 5, gen := 5, wr := true, acc := acc, runs := [(0, 4)] }]
    let g (f rows gen acc low : Nat) : W128 :=
      word 1 0x3B (b 31 88 + b 30 83 + b 5 74 + b gen 70 + b f 66 + b rows 50 + b 16 39 + b 64 16 + b acc 10 + low)
    let s (h : Handle) (w : W128) : State := { eng plain0 .vector w with handles := [(5, h)] }
    (pageStates.all (fun p => [0, 1].all (fun acc => let w := st 0 1 5 0 acc 0
       let s := tier true p false w
       canonB s && aloneB s && startsB s .c0 .vector w 0x39 && w.toNat % 2 ^ 25 = 0 && s.cfg.formats.getLsbD 0 && fitB s (us (acc = 1)) &&
         s.spadErr.isEmpty && s.wbPend.isEmpty && s.st.protSpad.isEmpty && s.stepSpad.isEmpty && s.stepPages.isEmpty && getPage s 4 = p &&
         s.accOwn.isEmpty && !w.getLsbD 74 && fld w 50 12 = 1)) &&
     [(st 0 1 5 0 0 1, buf, fOpcode), (st 1 1 5 0 1 0, buf, fFormat), (st 0 1025 5 0 0 0, buf, fExtent), (st 0 1 4 0 0 0, buf, fStale),
       (st 0 1 5 0 0 0, { buf with wp := true }, fProtect), (st 0 1 5 0 1 0, { buf with sp := false }, fAccum), (st 0 1 5 2 1 0, buf, fMisaligned),
       (st 0 2 5 131068 0 0, buf, fExtent)].all (fun p => refusedB (.vstore .c0) (s p.2.1 p.1) .vector p.1 p.2.2) &&
     [(g 0 2 5 0 1, buf, fOpcode), (g 1 2 5 1 0, buf, fFormat), (g 0 1025 5 0 0, buf, fExtent), (g 0 2 4 0 0, buf, fStale),
       (g 0 2 5 1 0, { buf with sp := false }, fAccum)].all (fun p => refusedB (.vscatter .c0) (s p.2.1 p.1) .vector p.1 p.2.2)) = true := by
  decide +kernel

theorem wit_NoOperationsSlotsAndZero :
    (allEngs.all (fun e => [0, 0x3E].all (fun op => let w := word (engNum e) op 0
      canonB (eng run0 e w) && startsB (eng run0 e w) .c0 e w op)) &&
    (let w := word 0 1 (b 15 89 + b 8 85)
     startsB (eng run0 .matrix w) .c0 .matrix w 1 && w.toNat % 2 ^ 15 = 0) &&
    (let w := word 2 4 (b 7 90 + b 2 86)
     startsB (eng run0 .row w) .c0 .row w 4 && w.toNat % 2 ^ 26 = 0) &&
    (let w := word 0 4 (b 96 80 + b 4000 68)
     startsB (eng run0 .matrix w) .c0 .matrix w 4 && aloneB (eng run0 .matrix w) && w.toNat % 2 ^ 68 = 0 &&
       fld w 68 12 + fld w 80 13 = 4096) &&
    ([(.mnop .c0, .matrix, word 0 0x3E 0, fOpcode), (.tnop .c0, .starter, word 5 0x3E 0, fOpcode), (.mset .c0, .matrix, word 0 1 1, fOpcode),
      (.rset .c0, .row, word 2 4 1, fOpcode), (.mzero .c0, .matrix, word 0 4 1, fOpcode), (.mzero .c0, .matrix, word 0 4 (b 97 80 + b 4000 68), fExtent)] :
        List ((W128 → Instr) × Eng × W128 × Nat)).all (fun p => refusedB p.1 (eng run0 p.2.1 p.2.2.1) p.2.1 p.2.2.1 p.2.2.2)) = true := by
  decide +kernel

/-- The bits of a matrix slot. -/
def slotBits (fmt off stride t : Nat) : BitVec 93 :=
  BitVec.ofNat 93 (b fmt 85 + b 5 81 + b 5 72 + b off 45 + b stride 25 + b t 24 + b 127 16)

/-- A word of the matrix engine on an unchecked core whose C0 has six slots. -/
def mat (w : W128) (slots : List (Nat × BitVec 93)) : State :=
  let x := eng plain0 .matrix w
  { x with c0 := { x.c0 with mslots := slots } }

/-- Every destination format, row by row and column by column, to the handle's last byte. -/
theorem wit_AccumulatorDrains :
    let w (acc : Nat) : W128 := word 0 3 (b 2 80 + b 4094 68 + b 128 60 + b 3 56 + b acc 55 + b 1 54 + b 127 47)
    let s (f t acc : Nat) : State :=
      let n := if t = 1 then 127 * 64 + 2 * (fmtBits f / 8) else 1024 + 128 * (fmtBits f / 8)
      mat (w acc) [(3, slotBits f (131072 - n) (if t = 1 then 64 else 1024) t)]
    ([(0, 0, 1), (0, 1, 1), (0, 0, 0), (1, 0, 0), (1, 1, 0), (2, 0, 0), (3, 0, 0), (3, 1, 0), (4, 0, 0)] : List (Nat × Nat × Nat)).all (fun p =>
      let z := s p.1 p.2.1 p.2.2
      let d := mslot z .c0 3
      let bytes := fmtBits d.fmt / 8
      canonB z && idleB z && startsB z .c0 .matrix (w p.2.2) 3 && (w p.2.2).toNat % 2 ^ 47 = 0 && d.fmt = p.1 && d.tscale ≠ 255 &&
        fitB z [{ idx := d.hidx, gen := d.hgen, wr := true, acc := p.2.2 = 1,
                  runs := if d.t then (List.range 128).map (fun j => (((d.off + j * d.stride : Nat) : Int), bytes * 2))
                    else (List.range 2).map (fun i => (((d.off + i * d.stride : Nat) : Int), bytes * 128)) }] && z.accOwn.isEmpty) = true := by
  decide +kernel

/-- Each check that refuses MDRAIN; a drain of no row with a TSCALE that is not applied. -/
theorem wit_AccumulatorDrains_refused :
    let w (rows base cols acc low : Nat) : W128 := word 0 3 (b rows 80 + b base 68 + b cols 60 + b 3 56 + b acc 55 + low)
    let s (w : W128) (slot : BitVec 93) (h : Handle) : State := { mat w [(3, slot)] with handles := [(5, h)] }
    let d (f off : Nat) : BitVec 93 := slotBits f off 1024 0
    let e : BitVec 93 := BitVec.ofNat 93 (b 3 85 + b 5 81 + b 5 72 + b 255 16)
    ([(w 2 0 128 0 1, d 0 0, buf, fOpcode), (w 2 0 128 0 0, d 5 0, buf, fFormat), (w 2 0 128 1 0, d 1 0, buf, fFormat), (w 2 0 128 0 0, e, buf, fFormat),
      (w 2 4095 128 0 0, d 0 0, buf, fExtent), (w 0 0 129 0 0, d 0 0, buf, fExtent), (w 2 0 128 0 0, d 0 0, { buf with gen := 6 }, fStale),
      (w 2 0 128 0 0, d 0 0, { buf with wp := true }, fProtect), (w 2 0 128 1 0, d 0 0, { buf with sp := false }, fAccum),
      (w 2 0 128 1 0, d 0 2, buf, fMisaligned), (w 2 0 128 0 0, d 0 131068, buf, fExtent)].all (fun p =>
        refusedB (.mdrain .c0) (s p.1 p.2.1 p.2.2.1) .matrix p.1 p.2.2.2) &&
     (after (.mdrain .c0 (w 0 0 128 0 0)) (s (w 0 0 128 0 0) e buf)).flt.reports.isEmpty) = true := by decide +kernel

/-- Products of each operand width, scaled and masked, into the accumulators and into a buffer; a word of HT6; a gang's lead word that
disagrees; a product that a gang drains; members that wait, that refuse, that are not ready and that lack a Rise. -/
theorem wit_MatrixProducts :
    let w (dst acc mx mask : Nat) : W128 := word 0 2 (b 8 77 + b 8 61 + b 32 45 + b 0 41 + b 1 37 + b 2 33 + b (if dst = 1 then 2048 else 4088) 21 +
      b dst 20 + b acc 19 + b mx 18 + b 2 15 + b mask 13 + b 3 9 + b 1 7 + b 127 0)
    let z (f g dst acc mx mask : Nat) : State := mat (w dst acc mx mask)
      [(0, slotBits f 0 128 0), (1, slotBits g 8192 128 0), (2, slotBits 0 65536 64 0), (3, slotBits 0 100000 0 0), (4, slotBits 10 90000 4 0),
       (5, slotBits 10 91000 4 0)]
    let ok (s : State) (w : W128) (op : Nat) (resv : Bool) (p : Mma) : Bool := [false, true].all fun need =>
      let s : State := { s with pwr := { s.pwr with need := need } }
      canonB s && idleB s && startsB s .c0 .matrix w op && s.cfg.shape = 0 && s.cfg.posr = 0 && s.cfg.posc = 0 &&
        firstFault (mmaChecks s p resv) = none && fitB s (mmaUses s p) && !p.isEmpty
    let w6 : W128 := word 0 6 (b 0 89 + b 1 85 + b 4032 73 + b 1 72)
    let v (f : Nat) : State := mat w6 [(0, slotBits f 0 128 0), (1, slotBits f 65536 128 0)]
    let gw : W128 := word 0 2 (b 8 77 + b 136 61 + b 160 45 + b 1 37 + b 4080 21)
    let gd : W128 := word 0 2 (b 8 77 + b 136 61 + b 160 45 + b 1 37 + b 2 33 + b 2048 21 + b 1 20)
    let member (s : State) (shape posr posc : Nat) : State :=
      { s with cfg := { s.cfg with shape := shape, posr := posr, posc := posc }, pwr := { s.pwr with need := false } }
    let of (s : State) (w : W128) (p : Mma) : GangIn := { noGang with ctl := ctlOf s w p true }
    let taken (s : State) (start : Bool) (g : GangIn) : Bool :=
      if gangLead s then chosen s .c0 .matrix else !(ctlHead g.ctl).getLsbD 115 && (!start || ctlStart g.ctl)
    let meets (s : State) (w : W128) (op : Nat) (resv : Bool) (p : Mma) (g : GangIn) : Bool :=
      ganged s && mayStart s .c0 .matrix w && wOp w = op && stalledWord s .c0 .matrix w = none && taken s true g && taken s false g && g.status = 0 &&
        firstFault (mmaChecks s p resv) = none && fitB s (mmaUses s p) && idleB s && canonB s
    let agrees (s : State) (w : W128) (op : Nat) (resv : Bool) (p : Mma) : Bool :=
      let g := of s w p
      meets s w op resv p g && !gangMismatch s g w p && g.agree && !s.pwr.need && !p.dst && !p.isEmpty
    let differs (s : State) (w : W128) (op : Nat) (resv : Bool) (p : Mma) (w' : W128) : Bool :=
      meets s w op resv p (of s w' p) && !gangLead s && gangMismatch s (of s w' p) w p
    let acts (s : State) (w : W128) (resv : Bool) (p : Mma) (g : GangIn) : Bool :=
      let ready := mayStart s .c0 .matrix w && (if gangLead s then chosen s .c0 .matrix else (ctlHead g.ctl).getLsbD 115 == false)
      let own : Nat := if !ready then 2
        else if gangMismatch s g w p || (firstFault (mmaChecks s p resv)).isSome || (checkUses s (mmaUses s p)).isSome then 1 else 0
      ganged s && live s && stalledWord s .c0 .matrix w = none && own ≠ 2 && g.status ≠ 2 &&
        (gangLead s || ctlStart g.ctl || own = 1 || g.status = 1)
    let ms (shape posr posc : Nat) : State := member (mat gw [(0, slotBits 1 0 512 0), (1, slotBits 1 16384 512 0)]) shape posr posc
    let vs (posc : Nat) : State := member (v 2) 1 0 posc
    (([(0, 0, 0, 1, 0, 0), (1, 1, 0, 0, 0, 1), (2, 2, 1, 0, 0, 2), (3, 4, 1, 1, 1, 1), (5, 7, 0, 1, 0, 0), (8, 9, 0, 0, 0, 2), (8, 8, 1, 0, 1, 0)] :
        List (Nat × Nat × Nat × Nat × Nat × Nat)).all (fun p =>
      let x := w p.2.2.1 p.2.2.2.1 p.2.2.2.2.1 p.2.2.2.2.2
      let s := z p.1 p.2.1 p.2.2.1 p.2.2.2.1 p.2.2.2.2.1 p.2.2.2.2.2
      ok s x 2 (x.getLsbD 8) (mmaOf s .c0 x)) &&
    [1, 2, 3, 4, 8].all (fun f => ok (v f) w6 6 (decide (w6.toNat % 2 ^ 72 ≠ 0)) (mma6Of (v f) .c0 w6)) &&
    [(1, 0, 0), (1, 0, 1), (2, 0, 0), (2, 1, 0), (3, 0, 1), (3, 1, 1), (4, 1, 3)].all (fun p => let s := ms p.1 p.2.1 p.2.2
      agrees s gw 2 (gw.getLsbD 8) (mmaOf s .c0 gw)) &&
    differs (ms 1 0 1) gw 2 (gw.getLsbD 8) (mmaOf (ms 1 0 1) .c0 gw) (gw + BitVec.ofNat 128 (b 1 77)) &&
    [0, 1].all (fun posc => agrees (vs posc) w6 6 (decide (w6.toNat % 2 ^ 72 ≠ 0)) (mma6Of (vs posc) .c0 w6)) &&
    differs (vs 1) w6 6 (decide (w6.toNat % 2 ^ 72 ≠ 0)) (mma6Of (vs 1) .c0 w6) (w6 + BitVec.ofNat 128 (b 1 72)) &&
    [0, 1].map (fun r => gangBottom (ms 3 r 1)) = [false, true] &&
    [(3, 0, 0), (3, 0, 1), (3, 1, 1), (4, 1, 3)].all (fun p =>
      let s : State := { mat gd [(0, slotBits 1 0 512 0), (1, slotBits 1 16384 512 0), (2, slotBits 0 65536 1024 0)] with
        cfg := { run0.cfg with shape := p.1, posr := p.2.1, posc := p.2.2 }, pwr := { run0.pwr with need := false } }
      let m := mmaOf s .c0 gd
      let g := of s gd m
      meets s gd 2 (gd.getLsbD 8) m g && acts s gd (gd.getLsbD 8) m g && m.dst && !m.accum && !m.isEmpty && g.agree && !gangDiffers s g gd m &&
        [false, true].contains (gangBottom s)) &&
    (let s := ms 1 0 0
     let p := mmaOf s .c0 gw
     let r (st : BitVec 2) (start : Bool) : GangIn := { of s gw p with status := st, ctl := ctlOf s gw p start }
     let m := ms 1 0 1
     let t : State := { m with core := .held }
     let n : State := { s with pwr := { s.pwr with need := true } }
     acts s gw false p (r 0 true) && acts s gw false p (r 1 false) && !acts s gw false p (r 2 true) && acts m gw false p (r 1 false) &&
       !acts m gw false p (r 0 false) && !acts m gw false p (r 2 true) && !acts t gw false p (r 0 true) && !mayStart t .c0 .matrix gw &&
       acts n gw false p (r 0 true) && canonB n && idleB n) &&
    (let s := ms 1 0 1
     let x := gw + 256
     let t : State := eng s .matrix x
     let a : State := { t with flt := { t.flt with repAck := [0] } }
     let g := of s gw (mmaOf s .c0 gw)
     [t, a].all (fun t => canonB t && firstFault (mmaChecks t (mmaOf t .c0 x) (x.getLsbD 8)) = some fOpcode && acts t x true (mmaOf t .c0 x) g) &&
       !reporting t 0 && reporting a 0)) = true := by decide +kernel

/-- Each check that refuses MMA on a core of its own; one of no row with a TSCALE that is not applied. -/
theorem wit_MatrixProducts_refused :
    let w (m base low : Nat) : W128 := word 0 2 (b m 77 + b 8 61 + b 32 45 + b 1 37 + b base 21 + low)
    let s (w : W128) (f off : Nat) : State := mat w [(0, slotBits f off 128 0), (1, slotBits f 8192 128 0)]
    let e (w : W128) : State := let x := BitVec.ofNat 93 (b 3 85 + b 5 81 + b 5 72 + b 128 25 + b 255 16)
      mat w [(0, x), (1, x)]
    let i (w : W128) : Instr := .mma .c0 w noGang
    ([(w 8 0 256, 0, 0, fOpcode), (w 8 0 (b 3 13), 0, 0, fOpcode), (w 8 0 0, 11, 0, fFormat), (w 8 0 (b 1 18), 0, 0, fFormat), (w 8 4089 0, 0, 0, fExtent),
      (w 8 1 (b 1 20), 0, 0, fExtent), (w 8 0 0, 0, 130944, fExtent)].all (fun p => refusedB i (s p.1 p.2.1 p.2.2.1) .matrix p.1 p.2.2.2) &&
     refusedB i (e (w 8 0 0)) .matrix (w 8 0 0) fFormat && (after (i (w 0 0 0)) (e (w 0 0 0))).flt.reports.isEmpty &&
     refusedB i (mat (w 8 0 0) [(0, slotBits 0 0 128 0), (1, BitVec.ofNat 93 (b 4 81 + b 5 72 + b 128 25))]) .matrix (w 8 0 0) fStale) = true := by
  decide +kernel

/-- The bits of a row slot. -/
def rowBits (fmt off stride : Nat) : BitVec 93 := BitVec.ofNat 93 (b fmt 86 + b 5 82 + b 5 73 + b off 46 + b stride 26)

/-- A word of the row engine on an unchecked core whose C0 has four row slots. -/
def rowCore (s : State) (w : W128) : State :=
  let x := eng s .row w
  { x with c0 := { x.c0 with rslots := [(0, rowBits 1 0 128), (1, rowBits 2 1024 128), (2, rowBits 0 2048 256), (3, rowBits 12 4096 8)] } }

/-- The bits of a row word: operands in slots 0, 1, 2 and the mask in slot 3, the last records of the stat store. -/
def rowWord (op rows n mask : Nat) : W128 :=
  word 2 op (b rows 77 + b n 60 + b (32768 - rows) 45 + b 0 42 + b 1 39 + b 2 36 + b 3 33 + b mask 31 + b 0x3F80 15 + b (if op < 4 then 1 else 0) 14)

theorem wit_RowWordsStart :
    let ok (w : W128) (op : Nat) : Bool :=
      let s := rowCore plain0 w
      canonB s && idleB s && startsB s .c0 .row w op && firstFault (rowChecks s .c0 w op) = none && fitB s (rowUses s .c0 w op) &&
        s.running.all (fun q => q.eng ≠ .row && q.id ≠ (headWord s .c0 .row).id) && s.units.isEmpty
    let copy (op : Nat) : W128 := word 2 op (b 4 77 + b 32764 45)
    let fits (wr : Bool) : Bool :=
      let s := rowCore plain0 (copy 0x10)
      let l := rslot s .c0 0
      fitB s [{ idx := l.hidx, gen := l.hgen, wr := wr, acc := false, runs := [((l.off : Int), 8 * 4)] }]
    ([0x01, 0x02, 0x03, 0x09, 0x0A, 0x0B].all (fun op => [(0, 4), (2, 0), (3, 32), (1, 1)].all (fun p => ok (rowWord op p.1 p.2 0) op)) &&
      [0x03, 0x0B].all (fun op => [1, 2].all (fun m => ok (rowWord op 3 32 m) op)) &&
      [0x10, 0x11].all (fun op => let s := rowCore plain0 (copy op)
        canonB s && idleB s && startsB s .c0 .row (copy op) op && (copy op).toNat % 2 ^ 42 = 0 && fld (copy op) 60 17 = 0) &&
      fits true && fits false &&
      ([(.lnf .c0, rowWord 0x01 2 32 0 + 1, fOpcode), (.lnf .c0, rowWord 0x01 2 32 1, fOpcode), (.smf .c0, rowWord 0x03 2 32 3, fOpcode),
        (.smf .c0, rowWord 0x03 2 32 2 + BitVec.ofNat 128 (b 2 39), fFormat), (.lnf .c0, rowWord 0x01 2 65537 0, fExtent),
        (.lnb .c0, rowWord 0x09 2 32 0 + BitVec.ofNat 128 (b 1 45), fExtent), (.rmsf .c0, rowWord 0x02 2048 64 0, fExtent),
        (.rsave .c0, copy 0x10 + 1, fOpcode), (.rload .c0, copy 0x11 + BitVec.ofNat 128 (b 1 45), fExtent)] :
          List ((W128 → Instr) × W128 × Nat)).all (fun p => refusedB p.1 (rowCore plain0 p.2.1) .row p.2.1 p.2.2)) = true := by decide +kernel

/-- The last row and one before it of each operation; a softmax row that its mask empties, and a record that says so. -/
theorem wit_RowsComplete :
    [0x01, 0x02, 0x03, 0x09, 0x0A, 0x0B].all (fun op => [1, 2].all (fun left =>
      let w := rowWord op 2 32 0
      let r := job .row w (.rows 2 2 left false)
      let s : State := { rowCore plain0 w with running := [r], units := [{ unit := 1, id := 7, row := 1 }] }
      canonB s && plainB s && live s && unitRow s 1 = some { unit := 1, id := 7, row := 1 } && findRun s 7 = some r && r.eng = .row && !r.clash &&
        s.running.all (fun q => decide (q.id = r.id ↔ q = r)) && wOp w = op && fld w 60 17 ≠ 0)) = true ∧
    (let w := rowWord 0x03 2 32 1
     let s : State := rowCore plain0 w
     (spadBytes s (buf.base.toNat * 65536 + 4096 + 8) 4).all (fun x => x = 0) ∧ rowMax [none, none] = none ∧
       ((0x00000000FF800000 : W64).extractLsb' 0 32 = 0xFF800000 ∧ (0x00000000FF800000 : W64).extractLsb' 32 32 = 0)) := by decide +kernel

/-- A descriptor of `rows` rows of length `n`, its kinds and modes in `modes`: from the start of the handle (or address 16 of an
interface) to its last rows. -/
def desc (modes rows n sa ss ta ts : Nat) : List W64 :=
  [modes + b rows 29 + b n 5, b 5 55 + b 5 51 + b 0x000010 40, sa, ss, b 5 55 + b 5 51 + b 0x000010 40, ta, b 5 55 + b 5 51 + ts, b 9 16].map
    (BitVec.ofNat 64)

/-- An unchecked core with a word of the DMA engine and a descriptor at the last index of data memory. -/
def dma (w : W128) (d : List W64) : State :=
  { eng plain0 .dma w with dmem := sputs 0 [] 65472 (d.flatMap (fun v => toLE 8 v.toNat)) }

/-- A transfer under way with a request to offer, or one outstanding. -/
def xfer (d : List W64) (p : XPhase) (todo : List XReq) (left : Nat) : Xfer :=
  { ch := 3, desc := d, src := buf, dst := buf, phase := p, todo := todo, left := left, epoch := 0, hdr := [], buf := [], got := [], nonfin := false }

/-- Each kind, shape, conversion and mode of a transfer; one behind an earlier one that still accumulates; windows open and closed, and
handles that are none. -/
theorem wit_DmaWords :
    let w : W128 := word 3 1 (b 3 91 + b 1023 81)
    let ds : List (List W64) := [
      desc (b 1 47) 2 64 0 64 130944 64,
        desc (b 1 53 + b 2 51 + b 1 50 + b 1 49) 4 8 0 64 131040 16 |>.set 6 (BitVec.ofNat 64 (b 5 55 + b 5 51 + 16)),
      desc (b 1 54) 2 1 0 128 130940 66 |>.set 5 130940, desc (b 2 54 + b 1 50) 2 1 0 66 130816 128, desc 0 0 64 0 64 0 64, desc 0 2 0 0 64 0 64,
      desc (b 1 60) 2 64 16 64 130944 64, desc (b 1 60 + b 1 45) 2 64 16 64 130944 64, desc (b 1 60 + b 2 45) 2 64 16 64 130944 64,
      desc (b 1 56) 2 64 0 64 16 64, desc (b 1 56 + b 3 45) 2 64 0 64 16 64, desc (b 2 56 + b 2 47) 2 64 0 64 0 64]
    let win (op h g : Nat) : W128 := word 3 op (b h 84 + b g 80)
    let s (w : W128) (o : Bool) : State :=
      { eng plain0 .dma w with handles := [(5, { buf with wopen := o }), (6, { buf with win := false, base := 8 })] }
    let named (s : State) (w : W128) : Bool := (getH s (fld w 84 9)).valid && (getH s (fld w 84 9)).gen.toNat = fld w 80 4
    (ds.all (fun d =>
      let z := dma w d
      let d := descOf (descWords z (fld w 81 10))
      canonB z && idleB z && startsB z .c0 .dma w 1 && firstFault (xferChecks z w d) = none && fitB z (xferUses d) && !xferExtent z d &&
        z.running.all (fun q => q.id ≠ (headWord z .c0 .dma).id)) &&
    (let d := desc (b 1 60 + b 1 50) 2 64 16 64 130944 64
     let z := dma w d
     let r : Running := { job .dma (word 3 1 (b 2 91 + b 1022 81)) (.xfer (xfer d .data [.rd 16 0 64] 2)) with id := 3, foot := useFoot z (xferUses (descOf d)) }
     startsB { z with running := [r] } .c0 .dma w 1 && (descOf d).acc && r.ctx = .c0 &&
       r.foot.any (fun a => (useFoot z (xferUses (descOf d))).any (fun c => a.acc && c.acc && a.meets c))) &&
    ds.map (fun d => let d := descOf (descWords (dma w d) 1023)
      (d.sk, d.tk, d.rows = 0 || d.rlen = 0, d.vmode)) = [(0, 0, false, 0), (0, 0, false, 0), (0, 0, false, 0), (0, 0, false, 0), (0, 0, true, 0),
        (0, 0, true, 0), (1, 0, false, 0), (1, 0, false, 1), (1, 0, false, 2), (0, 1, false, 0), (0, 1, false, 3), (0, 2, false, 0)] &&
    [2, 3].all (fun op => [false, true].all (fun o => [(5, 5), (5, 4), (6, 5), (511, 0)].all (fun p =>
      let x := win op p.1 p.2
      canonB (s x o) && idleB (s x o) && startsB (s x o) .c0 .dma x op && x.toNat % 2 ^ 80 = 0 &&
        named (s x o) x = (p.2 = 5) && (p.2 ≠ 5 || (getH (s x o) p.1).win = (p.1 = 5)) && (p.1 ≠ 5 || (getH (s x o) 5).wopen = o))))) = true := by
  decide +kernel

/-- Each kind of request, of 64 bytes, at the last index, of a channel and of the Starter engine. -/
theorem wit_FabricRequests :
    let d := desc (b 1 56 + b 1 47) 1 64 0 64 16 64
    let s (q : XReq) : State := { run0 with running := [job .dma 0 (.xfer (xfer d .data [q] 1))] }
    let rq (wr : Bool) : StReq := { sfid := 1, wr := wr, addr := 0, len := 64, data := List.replicate 64 0, aux := 0 }
    let z (wr : Bool) : State := { run0 with st := { run0.st with todo := [rq wr] } }
    ([.rd 0 0 64, .wr 16 (List.replicate 64 7), .win (2 ^ 27 - 1) (List.replicate 64 7)].all (fun q => [Port.fa, .fb].all (fun p =>
      txOpen (s q) p && idxFree (s q) 3 511 && (xferOn (s q) 3).isSome && !protStack (s q) 0x10 16)) &&
    [false, true].all (fun wr => txOpen (z wr) .fa && idxFree (z wr) 3 511 && (rq wr).len ≤ 64 &&
      (z wr).st.todo.find? (fun r => r.wr = wr) = some (rq wr))) = true := by decide +kernel

/-- An answer of each kind and status, to a request that is outstanding and to none; a phase with one answer due and with more. -/
theorem wit_FabricAnswers :
    let h (kind st : Nat) : BitVec 128 := BitVec.ofNat 128 (b kind 124 + b 3 122 + b 511 113 + b 3 102 + b st 56)
    let o (kind : Nat) : Outst := { ch := 3, idx := 511, owner := .word 7, kind := kind, addr := 16, len := 64, aux := 0 }
    let s (kind vmode : Nat) (p : XPhase) : State := { plain0 with
      running := [job .dma 0 (.xfer (xfer (desc (b 1 60 + b vmode 45) 1 64 16 64 0 64) p [] 1))], outst := [o kind] }
    let asks (s : State) (hdr : BitVec 128) (k : Nat) : Bool :=
      s.outst.find? (fun r => r.ch = fld hdr 122 2 && r.idx = fld hdr 113 9 && r.kind = k) = some (o k)
    let d := descOf (desc (b 1 60) 1 64 16 64 0 64)
    ([(2, 1), (4, 3), (6, 5)].all (fun p => [0, 1, 2, 3].all (fun st => [XPhase.header, .data].all (fun q =>
        rxOpen (s p.2 0 q) .fb && (xferOf (s p.2 0 q) 7).isSome && asks (s p.2 0 q) (h p.1 st) p.2 && fld (h p.1 st) 124 4 = p.1 &&
          fld (h p.1 st) 56 2 = st && canonB (s p.2 0 q) && plainB (s p.2 0 q) && !flitOn (s p.2 0 q) 3))) &&
      flitOn { s 1 0 .data with stepSpad := [{ (default : SpadAcc) with port := 15, tag := 0xF }] } 3 && (s 1 0 .data).running.all (fun r => !r.clash) && d.conv = 0 && !d.acc && !d.tr &&
      asks (s 3 0 .data) (h 7 0) (fld (h 7 0) 102 4) && fld (h 7 0) 124 4 = 7 && rxOpen run0 .fb && run0.outst.isEmpty &&
      [2, 4, 6, 7, 0, 1, 3, 8, 15].all (fun k => fld (h k 0) 124 4 = k) &&
      [0, 1, 2, 3].all (fun v => (descOf (desc (b 1 60 + b v 45) 1 64 16 64 0 64)).vmode = v)) = true ∧
    (let x := { buf with vvalid := true, vstep := 9 }
     let t := hdrTag (sputs 0 [] 0 [9, 0, 0, 0, 0, 0, 0, 0])
     x.vvalid = true ∧ x.vstep = t.1 ∧ x.vsgen = t.2 ∧ ¬ buf.vvalid = true) := by decide +kernel

/-- A flit for each outcome of an arriving write: the last byte of the window, one beyond it, another epoch, and each state of the
entry. -/
theorem wit_WindowWrites :
    let h (g wg ep off last : Nat) : BitVec 128 :=
      BitVec.ofNat 128 (b 5 124 + b 3 122 + b 64 106 + b 5 97 + b g 93 + b wg 89 + b ep 85 + b off 58 + b 64 31 + b last 4)
    let s (x : Handle) : State := { plain0 with handles := [(5, x)] }
    let o : Handle := { buf with wopen := true }
    let full : State := { s o with rxTab := (List.range 64).map (fun k => { sfid := 9, ch := 0, whidx := k, cnt := 0, total := 64 }) }
    let live' (s : State) (hdr : BitVec 128) : Bool :=
      let h := getH s (fld hdr 97 9)
      h.valid && h.gen.toNat = fld hdr 93 4 && h.wgen.toNat = fld hdr 89 4
    let fits (s : State) (hdr : BitVec 128) : Bool :=
      let n := (getH s (fld hdr 97 9)).npages.toNat * 65536
      fld hdr 4 27 < n && fld hdr 58 27 + fld hdr 106 7 ≤ n
    let good := h 5 0 0 131008 131071
    (rxOpen (s o) .fa && fld good 124 4 = 5 && fld good 106 7 ≤ 64 && !live' (s o) (h 4 0 0 0 0) && !live' (s o) (h 5 1 0 0 0) && live' (s o) good &&
      fld (h 5 0 2 0 0) 85 4 ≠ ((s o).epoch.toNat + 1) % 16 && fld (h 5 0 1 0 0) 85 4 = ((s o).epoch.toNat + 1) % 16 &&
      live' (s o) (h 5 0 1 0 0) && live' (s o) (h 5 0 2 0 0) && fld good 85 4 = (s o).epoch.toNat && !buf.wopen && o.wopen && o.win && !o.wp &&
      fits (s o) good && !fits (s o) (h 5 0 0 131009 131071) && !fits (s o) (h 5 0 0 0 131072) && canonB (s o) && idleB (s o) &&
        { s o with rxA := true }.rxA && !channelOn (s o) 1 && channelOn { s o with stepSpad := [{ (default : SpadAcc) with port := 13, tag := 3 }] } 1 &&
      ([false, true].all fun bad =>
        let k : WinDone := { port := .fa, flit := { route := 0, hdr := good, data := 0 }, sp := 13, lo := 0, len := 64, bad := bad }
        let t : State := { s o with winDone := [k] }
        awake t && !t.rstDue && t.held.isEmpty && t.mgmt.isEmpty && t.stepMarks.isEmpty) &&
      (s o).rxTab.length < 64 && full.rxTab.length = 64 && !full.rxTab.any (fun e => e.sfid = 0) && full.st.protSpad.isEmpty &&
      txOpen { s o with winAcks := [{ port := .fa, flit := { route := 0, hdr := 0, data := [] } }] } .fa) = true := by decide +kernel

/-- Words to the core itself, to another and to all; ranges of none, of the last flags, and beyond; flits of each kind and outcome. -/
theorem wit_SyncWordsAndFlits :
    let set (dst low : Nat) : W128 := word 4 1 (b dst 73 + b 1023 63 + low)
    let all (base n low : Nat) : W128 := word 4 2 (b base 83 + b n 72 + low)
    let f (kind dst flag gen : Nat) : W64 := BitVec.ofNat 64 (b kind 60 + b dst 40 + b flag 10 + b gen 6)
    let s : State := { run0 with cfg := { run0.cfg with flagmap := [(1023, 9)] } }
    ([set 0 0, set 5 0, set 0xFFFFF 0, set 0 1].all (fun w => startsB (eng run0 .sync w) .c0 .sync w 1) &&
      (set 5 0).extractLsb' 73 20 = (5 : BitVec 20) && (set 0 1).toNat % 2 ^ 59 ≠ 0 &&
      [all 1023 1 0, all 1023 2 0, all 1023 0 0, all 0 1 1].all (fun w => startsB (eng run0 .sync w) .c0 .sync w 2) &&
      fld (all 1023 2 0) 83 10 + fld (all 1023 2 0) 72 11 = 1025 && live s && !s.rxS && { s with rxS := true }.rxS && s.core = .running &&
        live { s with core := .loaded } &&
      [0, 1, 2, 3, 4, 7].all (fun k => fld (f k 0 0 0) 60 4 = k) && s.cfg.fid.extractLsb' 4 20 = (0 : BitVec 20) &&
      (f 1 5 0 0).extractLsb' 40 20 = (5 : BitVec 20) && fld (f 1 0 1023 0) 10 10 = 1023 && !s.cfg.flagmap.any (fun e => e.1 = 1022) &&
      (getFlag s 1023).gen = (f 1 0 1023 0).extractLsb' 6 4 && (getFlag s 1023).gen ≠ (f 1 0 1023 3).extractLsb' 6 4) = true := by decide +kernel

/-- A leader and a follower, pending and not, asked, admitted, and each state of a buffer; writes that R258 allows and writes that it does
not. -/
theorem wit_StepSequencer :
    let f (kind n : Nat) : W64 := BitVec.ofNat 64 (b kind 60 + b 0xFFFFF 40 + n)
    let s (e l : Bool) (p : Option W64) : State := { run0 with sb := { run0.sb with en := e, leader := l, pend := p } }
    let r : State := { s true true none with sb := { (s true true none).sb with req := true, stA := .valid } }
    let a : State := { r with sb := { r.sb with leader := false, pend := some (f 5 1) } }
    let c : State := { r with sb := { r.sb with copy := .arrived, sentFor := some 1 } }
    let i : State := { run0 with core := .addressed, sb := { run0.sb with bufA := [(0, 1)] } }
    let q : State := { r with stepSets := [(r.sb.rqflag.toNat, none)] }
    let fields (v : W32) (s : State) : StepBlk := { s.sb with
      en := v.getLsbD 31, leader := v.getLsbD 30, gflag := v.extractLsb' 20 10, rqflag := v.extractLsb' 10 10 }
    let legal (s : State) (v : W32) : Bool := ((s.core ≠ .running && s.core ≠ .held) || fields v s = s.sb) &&
      !(v.getLsbD 31 && v.extractLsb' 20 10 = v.extractLsb' 10 10)
    (mcOpen run0 && mcOpen i && run0.mgmt.isEmpty && !run0.rstDue && !q.rstDue && [4, 12].all (fun k => !reporting run0 k && reporting { run0 with flt := { run0.flt with repAck := [k] } } k) && q.mgmt.isEmpty && awake q && q.selfFlits.isEmpty && (seqDone q).stepSets.any (fun e => e.1 = 0) &&
      (seqDone r).stepSets.isEmpty && [0, 1, 2, 3, 4, 8].all (fun v => legal i v && !legal i (v + 0x80000000) && legal run0 v && !legal run0 (v + 0x80100000)) &&
      legal i 0xC0100801 &&
      live run0 && run0.core ≠ .init && run0.core ≠ .unaddressed && !run0.rxS && run0.fw.held.isEmpty && !run0.sb.sendDue && !run0.sb.admDue &&
      { r with sb := { r.sb with sendDue := true, admDue := true } }.sb.admDue && [5, 6].all (fun k => fld (f k 1) 60 4 = k) &&
        (f 5 1).extractLsb' 0 40 = (1 : BitVec 40) &&
      (s true true none).sb.leader && !(s true false none).sb.leader && !(s false false none).sb.en && (s true false (some 7)).sb.pend ≠ none &&
      awake r && awake c && r.sb.sentFor ≠ some (r.sb.num + 1) && a.sb.pend = some (f 5 1) && c.sb.sentFor = some (c.sb.num + 1) &&
        i.core ≠ .running && i.core ≠ .held &&
      i.sb.stA = .free && swf 0 i.sb.bufA && swf 0 i.sb.bufB && (sget 0 i.sb.bufA 1 ++ sget 0 i.sb.bufA 0 : W64) = i.sb.num + 1 && r.sb.stA ≠ .free &&
      [0, 1, 2, 3, 4, 8].all (fun v => fld (BitVec.ofNat 32 v : W32) 0 4 = v) && !([0, 1, 2, 4, 8].contains 3)) = true := by decide +kernel

/-- A run to the handle's last byte, one beyond, and a stale name; SSEAL in each state of a restore and of a snapshot. -/
theorem wit_StarterWords :
    let fold (g off n low : Nat) : W128 := word 5 1 (b 5 84 + b g 80 + b off 53 + b n 26 + low)
    let s (w : W128) : State := eng plain0 .starter w
    let fits (w : W128) : Bool := fld w 26 27 = 0 || fld w 53 27 + fld w 26 27 ≤ (getH plain0 (fld w 84 9)).npages.toNat * 65536
    let named (w : W128) : Bool := (getH plain0 (fld w 84 9)).valid && (getH plain0 (fld w 84 9)).gen.toNat = fld w 80 4
    let sl : W128 := word 5 2 0
    let z (r : RState) (p : SnapSt) (num : W64) : State :=
      { eng plain0 .starter sl with sb := { plain0.sb with num := num }, st := { plain0.st with rstate := r, snap := p } }
    ([fold 5 131071 1 0, fold 5 131071 2 0, fold 4 0 1 0, fold 5 0 0 0, fold 5 0 1 1].all (fun w =>
        startsB (s w) .c0 .starter w 1 && idleB (s w)) && fits (fold 5 131071 1 0) && !fits (fold 5 131071 2 0) && named (fold 5 0 1 0) &&
      !named (fold 4 0 1 0) && (fold 5 0 1 1).toNat % 2 ^ 26 ≠ 0 && startsB (s (word 5 2 1)) .c0 .starter (word 5 2 1) 2 &&
      [RState.none, .loading, .loaded, .replaying, .admitted, .refused].all (fun r => [SnapSt.idle, .copying, .copied, .failed].all (fun p =>
        [0, 1].all (fun n => startsB (z r p n) .c0 .starter sl 2 && sl.toNat % 2 ^ 93 = 0 &&
          (z r p n).running.isEmpty && (n = 0 || ((z r p n).st.dacc = (z r p n).st.restore.sdig &&
            (seqDone (z r p n)).sb.num = (z r p n).st.restore.cut + 1 &&
              (seqDone (z r p n)).sb.num = (z r p n).st.cur.cut + 1)))))) = true := by decide +kernel

/-! A slot of zeros but for its first bytes: its captured image is all zero, and so is its digest. -/

theorem crc_zeros (n : Nat) : crc64 (List.replicate n 0) = 0 := by
  unfold crc64 crc64From
  induction n with
  | zero => rfl
  | succ n ih =>
    show crcMsb 64 0x42F0E1EBA9EA3693 (crcMsbByte 64 0x42F0E1EBA9EA3693 8 (0 ^^^ BitVec.ofNat 64 ((0 : Byte).toNat <<< (64 - 8)))) _ = 0
    rw [show crcMsbByte 64 0x42F0E1EBA9EA3693 8 (0 ^^^ BitVec.ofNat 64 ((0 : Byte).toNat <<< (64 - 8))) = 0 by decide +kernel]
    exact ih

theorem sgets_zeros (m : Sparse Byte) (lo n : Nat) (h : ∀ i, lo ≤ i → sget 0 m i = 0) : sgets 0 m lo n = List.replicate n 0 := by
  induction n generalizing lo with
  | zero => rfl
  | succ n ih => rw [sgets, h lo (Nat.le_refl _), ih (lo + 1) (fun i hi => h i (by omega)), List.replicate_succ]

/-- A slot read whose bytes below 256 are given; every other byte is zero. -/
def slot (hd : Sparse Byte) (err : Bool) : State :=
  { run0 with core := .ready, st := { run0.st with
      rstate := .loading, restore := { run0.st.restore with buf := hd, stage := 1, err := err } } }

/-- A sealed descriptor of this core, a slot class mask, a cut and the digest of class S. -/
def sealed (mask cut dig : Byte) : Sparse Byte :=
  sput 0 (sputs 0 [] 0 [0x48, 0x54, 0x37, 0x53, 1, 0, 2, mask, cut]) 56 dig

/-- The digests of a slot are those of its contents, as O48 says. -/
def Digests (s : State) : Prop :=
  let bytes (o n : Nat) : List Byte := sgets 0 s.st.restore.buf o n
  let b (o n : Nat) : Nat := ofLE (bytes o n)
  let num (o : Nat) : W64 := BitVec.ofNat 64 (b o 8)
  let nsp := b 40 2
  let mask : BitVec 5 := BitVec.ofNat 5 (b 7 1)
  let stored (k : Nat) : W64 := num (0x3000 + 8 * k)
  let body := bytes 0x1040 (b 0x1004 2)
  (∀ k : Nat, k < nsp → crc64 (bytes (0x200000 + k * 65536) 65536) = stored k) ∧
  (∀ k : Nat, k < b 42 2 → crc64 (bytes ((1 + (nsp + 31) / 32 + k) * 2097152) 2097152) = stored (nsp + k)) ∧
  crc64 (bytes 0x10000 131072) = num 56 ∧
  (∀ k : Nat, k < 3 → mask.getLsbD (k + 1) = true → crc64 (((slotPages s).filter (fun p => p.cls = k)).flatMap (fun p =>
    toLE 8 (stored (if p.stack then nsp + p.idx else p.idx)).toNat)) = num (64 + 8 * k)) ∧
  (mask.getLsbD 4 = true → crc64 body = num 0x1010 ∧ crc64 body = num 88)

theorem slot_digest (mask cut dig : Byte) (err : Bool) : crc64 (sgets 0 (slot (sealed mask cut dig) err).st.restore.buf 0x10000 131072) = 0 := by
  have h : ∀ i, 0x10000 ≤ i → sget 0 (sealed mask cut dig) i = 0 := fun i hi => by
    have hw : swf (0 : Byte) [] = true := rfl
    unfold sealed
    rw [sget_sput_wf _ _ _ _ _ (swf_sputs 0 _ _ _ hw), sget_sputs 0 _ _ _ _ hw]
    rw [if_neg (by omega), if_neg (by intro h; have := h.2; simp at this; omega)]
    rfl
  rw [show (slot (sealed mask cut dig) err).st.restore.buf = sealed mask cut dig from rfl, sgets_zeros _ _ _ h]
  exact crc_zeros _

theorem slot_good (mask cut : Byte) (h : mask = 0 ∧ cut = 0 ∨ mask = 16 ∧ cut = 1) : Digests (slot (sealed mask cut 0) false) := by
  have e := slot_digest mask cut 0 false
  rcases h with ⟨rfl, rfl⟩ | ⟨rfl, rfl⟩
  all_goals exact ⟨fun k hk => absurd (show k < 0 from hk) (Nat.not_lt_zero k), fun k hk => absurd (show k < 0 from hk) (Nat.not_lt_zero k),
      e.trans (by decide +kernel), by decide +kernel, by decide +kernel⟩

theorem slot_bad : ¬ Digests (slot (sealed 0 0 1) false) := fun h =>
  absurd ((slot_digest 0 0 1 false).symm.trans h.2.2.1) (by decide +kernel)

/-- Partners with a place for each slot. -/
def partner (k rlen : Nat) : Partner := { serial := 0, pfid := 0x20, accept := true, pidx := k, rbase := 0, sfid := 0x30, rlen := rlen }

/-- One partner and two; a restore that may begin and ones that may not; slots that fail each check in turn, and one that passes. -/
theorem wit_Restores :
    let one : State := { run0 with cfg := { run0.cfg with partner := [partner 0 7] } }
    let two : State := { run0 with cfg := { run0.cfg with partner := [partner 0 7, partner 1 7] } }
    let r (s : State) (x : RState) : State := { s with core := .ready, bakeOn := true, st := { s.st with rstate := x } }
    let read (s : State) : Bool := live s && s.st.rstate = .loading && s.st.restore.stage = 1 && s.st.todo.isEmpty && s.outst.isEmpty
    let isSealed (s : State) : Bool := slotSealed s
    let num (s : State) (o : Nat) : Nat := ofLE (sgets 0 s.st.restore.buf o 8)
    (one.cfg.partner = [partner 0 7] && two.cfg.partner = [partner 0 7, partner 1 7] && [RState.none, .refused, .loading, .loaded].all (fun x =>
        mcOpen (r one x) && (slotPlace (r one x) false).isSome && (slotPlace (r one x) true).isSome) &&
          (slotPlace (r run0 .none) false).isNone &&
      [0x80, 0xA0, 0x20].map (fun v => ((BitVec.ofNat 32 v : W32).getLsbD 7, (BitVec.ofNat 32 v : W32).getLsbD 5)) =
        [(true, false), (true, true), (false, true)] &&
      read (slot [] false) && !isSealed (slot [] false) && isSealed (slot (sealed 0 0 0) false) && slotMine (slot (sealed 0 0 0) false) &&
      !slotMine { slot (sealed 0 0 0) false with cfg := { run0.cfg with fid := 0x10 } } && read (slot (sealed 0 0 0) true) &&
      (slot (sealed 0 0 0) true).st.restore.err && read (slot (sealed 16 1 0) false) && isSealed (slot (sealed 16 1 0) false) &&
      slotMine (slot (sealed 16 1 0) false) && (sealed 16 1 0 : Sparse Byte).any (fun e => e = (7, 16)) &&
      num (slot (sealed 16 1 0) false) 0x1008 ≠ num (slot (sealed 16 1 0) false) 8) = true ∧
    Digests (slot (sealed 0 0 0) false) ∧ ¬ Digests (slot (sealed 0 0 1) false) ∧ Digests (slot (sealed 16 1 0) false) :=
  ⟨by decide +kernel, slot_good 0 0 (.inl ⟨rfl, rfl⟩), slot_bad, slot_good 16 1 (.inr ⟨rfl, rfl⟩)⟩

/-- Nothing of the step has happened. -/
def begunB (s : State) : Bool :=
  !s.tmr.progress && !s.c0.issued && !s.c1.issued && s.stepOps.isEmpty && s.dmemStep.isEmpty && s.stepSpad.isEmpty && s.stepPages.isEmpty &&
  s.stepAcc.isEmpty && s.stepTrk.isEmpty && s.stepSets.isEmpty && s.stepClears.isEmpty && s.stepMarks.isEmpty && s.selfFlits.isEmpty

/-- A core at boundary B with a plan of two scratchpad pages and one stack page, a slot that just holds them and one that does not. -/
theorem wit_Snapshots :
    let plan (rows : Nat) : List Nat := [b 2 0 + b 8 32 + b rows 48, b 2 48 + b 5 0, 0, b 1 62 + b 1 60 + b 1 48 + b 0x30 24, 2097152]
    let s (full : Bool) (rows rlen : Nat) : State := { run0 with
      handles := [(5, buf)], cfg := { run0.cfg with partner := [partner 0 rlen] }, dmem := sputs 0 [] 64 ((plan rows).flatMap (toLE 8)),
      st := { run0.st with en := true, force := full },
      c0 := { run0.c0 with run := .waiting, wait := .snapf full 64 } }
    let h : State := { s true 0 7 with c0 := { run0.c0 with run := .halted }, c1 := { run0.c1 with run := .waiting, wait := .snapf true 64 } }
    let ws (s : State) : List W64 := planWords s (planAddr s)
    let ps (s : State) : List CopyPage := planPages s.handles s.st.cmask (ws s)
    let units (s : State) : Nat := 1 + ((ps s).filter (fun p => !p.stack)).length / 32 + 1 + ((ps s).filter (fun p => p.stack)).length
    let ok (s : State) : Bool := planOk s.handles (planAddr s) (ws s)
    let c (k : Nat) : State := { s true 0 7 with steps := k, st := { (s true 0 7).st with capture := some 0 } }
    let headOk (s : State) : Bool :=
      let a := planAddr s
      let h : W64 := (planWords s a).getD 0 0
      a % 8 = 0 && fld h 48 16 = 0 && fld h 32 16 ≤ 4096 && fld h 32 16 % 8 = 0 && fld h 16 16 % 8 = 0 && fld h 0 16 ≤ 256 &&
        fld h 16 16 + fld h 32 16 ≤ 65536 && a + 8 * (1 + 2 * fld h 0 16) ≤ 65536
    let forFull (x : Context) : Bool := x.run = .waiting && (match x.wait with | .snapf true _ => true | _ => false)
    let alone : State := { s false 0 7 with cfg := { run0.cfg with partner := [] } }
    let p (stk : Bool) : CopyPage := { stack := stk, sfid := 0x30, addr := if stk then 0 else 4, idx := 0, cls := 0, reading := false }
    let y (stk : Bool) (stage : Nat) : State :=
      { run0 with st := { run0.st with snap := .copying, cur := { run0.st.cur with stage := stage, pages := [p stk] } } }
    (atB (s true 0 7) && atB h && h.c0.run = .halted && planAddr h = 64 && ok (s true 0 7) && canonB (s true 0 7) && !ok (s true 1 7) &&
      atB (s true 1 7) && atB (s true 0 5) && ok (s true 0 5) && (ps (s true 0 7)).length = 3 && units (s true 0 7) = 3 &&
      (slotPlace (s true 0 7) (s true 0 7).st.next).map (fun v => v.2.2) = some 3 &&
      (slotPlace (s true 0 5) (s true 0 5).st.next).map (fun v => v.2.2) = some 2 &&
      [39, 40].all (fun k => live (c k) && (c k).st.capture = some 0 && (c k).steps = k) &&
      live (s false 0 7) && (s false 0 7).core = .running && (s false 0 7).c0.run = .waiting && !forFull (s false 0 7).c0 && !forFull (s false 0 7).c1 &&
      (s false 0 7).st.pRec = 0 && !(s false 0 7).st.endDue && begunB (s false 0 7) && begunB (s true 0 7) && (s true 0 7).mgmt.isEmpty && !(s true 0 7).rstDue && !(s false 0 7).rstDue &&
        awake { s false 0 7 with st := { (s false 0 7).st with endDue := true } } &&
      (s false 0 7).c0.wait = .snapf false 64 && (s false 0 7).c1.run = .halted && headOk (s false 0 7) && !headOk (s false 1 7) &&
      begunB (s false 1 7) && begunB alone && headOk alone && !stBusy alone forRecord &&
      [false, true].all (fun k => [1, 2].all (fun n => live (y k n) && (y k n).st.snap = .copying && (y k n).st.cur.stage = n &&
        (y k n).st.capture = none && (y k n).st.todo.isEmpty && (y k n).st.cur.pages = [p k] && (p k).stack = k && !(p k).reading)) &&
      (y false 1).spadErr.isEmpty && (y false 1).held.isEmpty) = true := by decide +kernel

/-- A core that has issued in the step under way, and one on which another frame waits. -/
def midB : State := { run0 with tmr := { run0.tmr with progress := true } }
def behind (m : Mgmt) : State := { run0 with mgmt := [m] }

/-- A window just expired with a context on the last flag, on a layout fence that a transfer holds, and behind an earlier report; each alarm,
link and window, due and just due, and a tick or a step on. -/
theorem wit_TimersAndPins :
    let f (m : List (Nat × BitVec 4)) : State :=
      let s := ctx0 fun x => { x with run := .waiting, wait := .flag 1023 }
      { s with tmr := { s.tmr with dlWindow := 5, dlCount := 5 }, cfg := { s.cfg with faultmap := m } }
    let r : Report := { code := fDeadlock, rep := 13, ctx := none }
    let rest : State := { run0 with flt := { run0.flt with restRun := true, restCnt := run0.flt.restIn.toNat } }
    let h : State := { ctx0 fun x => { x with run := .halted } with tmr := { run0.tmr with lendCnt := 1000, winTicks := 1000, sinceEdge := 65536 } }
    let fin : State := { run0 with flt := { run0.flt with fin := true, finNew := true } }
    let seen (k : Nat) : State := { run0 with flt := { run0.flt with wireSeen := BitVec.ofNat 16 (2 ^ k) } }
    let wired (k : Nat) : State := { run0 with flt := { run0.flt with wireDue := BitVec.ofNat 16 (2 ^ k) } }
    let quiet (s : State) : Bool := !s.rstDue && s.flt.reports.isEmpty && !s.flt.rel0 && !s.flt.rel1 && !s.flt.relC && s.mgmt.isEmpty && s.pinA = s.linkA &&
      s.pinB = s.linkB
    let up (a : Bool) : State := { run0 with pinA := a, pinB := !a }
    let dn : State := { run0 with pinA := true, pinB := true, tmr := { run0.tmr with lost := true } }
    let due (s : State) : Bool := atBoundary s && !s.tmr.ticked
    let busy : State := { f [] with flt := { (f []).flt with repAck := [13] } }
    let orc : State := { f [] with
      c0 := { (f []).c0 with wait := .lfence }, c1 := { (f []).c1 with run := .held, wait := .lfence }, rxTab := [{ sfid := 9, ch := 0, whidx := 0, cnt := 0, total := 64 }] }
    let lost : State := { run0 with tmr := { run0.tmr with sinceEdge := 65536 } }
    ([f [], f [(fDeadlock, 3)], orc, rest, h, { run0 with parked := true }, lost].all (fun s => due s && !reporting s 13) && !due midB &&
      !due { run0 with tmr := { run0.tmr with ticked := true } } && awake busy && reporting busy 13 && busy.st.todo.isEmpty && awake orc &&
      orc.c0.wait = .lfence && !orc.rxTab.isEmpty && awake lost && !lost.tmr.lost &&
      awake (f []) && (f []).tmr.dlWindow ≠ 0 && (f []).tmr.dlWindow.toNat ≤ (f []).tmr.dlCount && (f []).st.todo.isEmpty && (f []).outst.isEmpty &&
      (f []).c0.wait = .flag 1023 && effReact (f []) r ≠ .holdCore && effReact (f [(fDeadlock, 3)]) r = .holdCore && awake rest && rest.flt.restRun &&
      max 1 rest.flt.restIn.toNat ≤ rest.flt.restCnt && awake h && h.running.isEmpty && h.c0.run = .halted &&
        h.c1.run = .halted &&
      h.tmr.lendThr ≠ 0 && h.tmr.lendThr.toNat ≤ h.tmr.lendCnt && !h.pwr.req && awake { run0 with parked := true } && !h.tmr.lost &&
      h.cfg.freq / 100 ≤ h.tmr.winTicks && 65536 ≤ h.tmr.sinceEdge && awake run0 && [0, 14].all (fun k => (seen k).flt.wireSeen.getLsbD k &&
        !((seen k).flt.wire ||| (seen k).flt.wireDue).getLsbD k &&
        !(seen k).flt.repAck.contains k && awake (seen k) && awake (wired k) && quiet (wired k) && !(wired k).flt.fin &&
        (List.range 16).all (fun j => (wired k).flt.wireDue.getLsbD j = decide (j = k))) && quiet fin && fin.flt.finNew && fin.flt.wireDue = 0 &&
          !fin.flt.wire.getLsbD 14 &&
      !run0.flt.fin && !(run0.flt.wire ||| run0.flt.wireDue).getLsbD 14 && effReact run0 { code := fFin, rep := 14, ctx := none } = .holdCore &&
        awake fin && fin.flt.fin && !run0.pinA && !run0.pinB && h.c0.wait = .none && h.c1.wait = .none &&
      [false, true].all (fun a => awake (up a) && !(up a).rstDue && !(up a).flt.rel0 && !(up a).flt.rel1 && !(up a).flt.relC && (up a).mgmt.isEmpty && (up a).flt.reports.isEmpty && (up a).flt.wireDue = 0 && !(up a).flt.finNew &&
        (up a).pinA = a && (up a).pinB = !a && !(up a).linkA && !(up a).linkB && (up a).flt.repAck.isEmpty && !(up a).flt.wire.getLsbD 10 &&
        !(up a).flt.wire.getLsbD 11) &&
      run0.features.fports && awake dn && dn.pinA && dn.pinB && dn.tmr.lost) = true := by decide +kernel

/-- A wave and a hold, before and past the release point; a Rise due at the lead and at a member, granted, and at its last wave. -/
theorem wit_PowerInterface :
    let s (f : Pwr → Pwr) : State := { run0 with running := [job .matrix 0 .done], pwr := f run0.pwr }
    let m (x : State) : State := { x with cfg := { x.cfg with shape := 1, posc := 1 } }
    let on : State := s fun p => { p with need := false }
    let long (s : State) (n : Nat) : Bool :=
      let first := s.pwr.holdPer = 0
      let e := if first then s.cfg.sfen else s.pwr.hSfen
      let len := (if first then s.cfg.sfl else s.pwr.hSfl).toNat + 1
      (if e then (len + 1) / 2 else 1) < s.pwr.holdPer + max 1 n
    let rise (k : Nat) : State := s fun p => { p with need := false, rising := true, wave := k, w := 32, gnt := true }
    let held (posc : Nat) : State :=
      let x := m (s fun p => p)
      { x with cfg := { x.cfg with posc := posc }, mesh := { x.mesh with ctl := BitVec.ofNat 144 (2 ^ 137) } }
    ([0, 1].all (fun c => awake (held c) && (held c).mesh.ctl.getLsbD 137 && (held c).cfg.posr = 0) && (held 0).cfg.posc + 1 < gangCols (held 0) &&
      !(rise 31).rstDue && !on.rstDue && awake on && on.mgmt.isEmpty && on.running.any (fun r => r.eng = .matrix) && !on.pwr.need && !long on 1 && long on 2 && awake (rise 31) && (rise 31).pwr.rising &&
      (rise 31).pwr.wave < (rise 31).pwr.w && (rise 32).pwr.w ≤ (rise 32).pwr.wave && [63, 3, 15].all (fun k => k < 64) &&
      awake (s fun p => { p with tgtDue := true }) && awake (s fun p => { p with moveDue := true, target := 3 }) &&
      awake (s fun p => { p with smpDue := true, samples := [1, 2, 2] }) && (s fun p => p).pwr.need && !(s fun p => p).pwr.req &&
        !(s fun p => p).pwr.gnt &&
      !(s fun p => p).pwr.rising && (s fun p => p).cfg.shape = 0 && (m (s fun p => p)).cfg.shape ≠ 0 && (m (s fun p => p)).pwr.need &&
      (s fun p => { p with req := true }).pwr.req && (rise 1).pwr.gnt &&
      (s fun p => { p with filler := true, hSfl := 15, holdPer := 16 }).pwr.hSfl.toNat + 1 ≤ 16) = true := by decide +kernel

/-- A frame of a body: its CRC-16 follows it, low byte first. -/
def frame (body : List Byte) : List Byte := body ++ [(crc16 body).extractLsb' 0 8, (crc16 body).extractLsb' 8 8]

/-- A request from an address. -/
def request (type dst : Byte) (addr len : Nat) (data : List Byte) : List Byte :=
  frame ([type, dst, 9, 0] ++ toLE 3 addr ++ toLE 2 len ++ data)

/-- A request under way and none; supplies at each end of their ranges; each test instruction. -/
theorem wit_ResetsAndSupplies :
    let off : State := { run0 with powered := false }
    let rst : State := { run0 with rstN := false }
    let ini : State := { run0 with core := .init }
    let test (c : Byte) : State := { run0 with wir := c }
    let rq : List Byte := request 1 1 0 4 []
    let cut (n : Nat) : State := { run0 with core := .unaddressed, chainAddr := 0, cutAddr := 1, cutReq := rq.take n }
    let heldOne : State := { run0 with core := .addressed, fw := { run0.fw with st := .busy, held := [{ off := 0, data := [0], resp := rq }] } }
    let wait (m : Mgmt) : State := { run0 with mgmt := [m] }
    let dueB : State := { run0 with rstDue := true }
    let mid (m : List Mgmt) : State := { midB with mgmt := m }
    (awake dueB && dueB.rstDue && dueB.rstN && dueB.fw.held.isEmpty && dueB.mgmt.isEmpty && !run0.rstDue && !midStep run0 && midStep (mid []) && awake (mid []) &&
      [[], [Mgmt.frame rq]].all (fun m => (mid m).rstN && alive (mid m) && !(mid m).rstDue && (mid m).fw.held.isEmpty) &&
      [Mgmt.frame rq, .bcast true rq, .enum rq, .syms [0], .write 0x300 [1, 0, 0, 0]].all (fun m => (wait m).rstN && alive (wait m) &&
        (wait m).fw.held.isEmpty && (wait m).mgmt = [m] && !arriving (wait m) []) && !rq.isEmpty && heldOne.mgmt.isEmpty && run0.mgmt.isEmpty &&
      [1, 9, 10].all (fun n => (cut n).fw.held.isEmpty && (cut n).mgmt.isEmpty) &&
      run0.rstN && alive run0 && run0.fw.held.isEmpty && arriving run0 (rq.take 10) && arriving run0 rq && !arriving run0 (request 1 2 0 4 []) &&
      (rq.take 10).length < frameLen (rq.take 10) && frameLen rq ≤ rq.length && heldOne.rstN && alive heldOne && !arriving heldOne [] &&
        heldOne.fw.held.length = 1 &&
      [(1, 2), (1, 1), (9, 0), (10, 0)].all (fun p => chainOn (cut p.1) && !(cut p.1).cutReq.isEmpty) &&
      frameLen ((cut 10).cutReq ++ [0]) ≤ ((cut 10).cutReq ++ [0]).length && ((cut 9).cutReq ++ [0]).length < frameLen ((cut 9).cutReq ++ [0]) &&
      ((cut 1).cutReq ++ [2]).length = 2 && (2 : Byte) ≠ (cut 1).cutAddr && off.rstN && !alive off &&
      !rst.rstN && alive rst && !alive { rst with powered := false } && live ini && ini.core = .init && run0.powered && !off.powered &&
      [(550, 700), (850, 800)].all (fun p => 550 ≤ p.1 && p.1 ≤ 850 && 700 ≤ p.2 && p.2 ≤ 800) && !testCodes.contains run0.wir &&
        testCodes.contains (test 5).wir &&
      (test 5).rstN && !testCodes.contains 0 && { (test 5) with rstN := false }.powered &&
      [0x10, 0x11, 0x12].all (fun c => (test c).powered && (test c).wir = c)) = true := by decide +kernel

/-- Requests to the first and last place of each window and to registers, of each length that is refused, repeated, during BUSY, broadcast,
within a step, behind another, to a protected page, and of a reserved TYPE. -/
theorem wit_ChainRequests :
    let isGood (f : List Byte) : Bool :=
      let n := (f.getD 7 0).toNat + (f.getD 8 0).toNat * 256
      f.length = (if f.getD 0 0 = 1 then 11 else 11 + n) && (crc16 (f.take (f.length - 2))).toNat =
        (f.getD (f.length - 2) 0).toNat + (f.getD (f.length - 1) 0).toNat * 256
    let toMe (s : State) (f : List Byte) : Bool := hostOk s && s.chainAddr ≠ 0 && f.getD 1 0 = s.chainAddr && isGood f
    let mine (s : State) (f : List Byte) : Bool := toMe s f && mcOpen s
    let z (n : Nat) : List Byte := List.replicate n 0
    let busy : State := { run0 with core := .addressed, fw := { run0.fw with st := .busy } }
    let prot : State := { run0 with st := { run0.st with protSpad := [0] } }
    let rd := request 1 1 0 4 []
    let wr := request 2 1 0x1FFFC 4 (z 4)
    let bad := request 1 1 1 4 []
    ([(0, 4), (0x8000, 4), (0x9FFC, 4), (0x200000, 4), (0x20FFFC, 4), (0x100000, 4), (0x150040, 4), (0x10000, 4), (0x1FFFC, 4), (0x400000, 4),
        (0x43FFFC, 4), (0x1400, 8), (0xC00, 16), (0x4000, 64), (0, 0), (1, 4), (0, 6), (0, 4100), (0xFFFFFC, 8)].all (fun p =>
      mine run0 (request 1 1 p.1 p.2 []) && (100 < p.2 || (mine run0 (request 2 1 p.1 p.2 (z p.2)) && isGood (request 2 0xFF p.1 p.2 (z p.2))))) &&
    mine busy (request 2 1 0x100000 4 (z 4)) && mine { run0 with seqWr := some 9 } wr && run0.seqWr = none && chainOn run0 && mcOpen run0 &&
    !hostOk { run0 with core := .unaddressed } && run0.fw.held.isEmpty && run0.mgmt.isEmpty && { run0 with seqBc := some 9 }.seqBc = some 9 &&
      run0.seqBc = none && run0.spadErr.isEmpty && busy.core ≠ .running && busy.core ≠ .held && run0.st.protSpad.isEmpty &&
    [Instr.registerWrite 0x300 0, .spadWindowWrite 0 (z 4), .dmemWindowWrite 65532 (z 4), .imemWindowWrite 0 (z 4), .proofWindowWrite 0 (z 4),
      .handleWindowWrite 0 [0]].all (fun i => answers i { run0 with seqWr := some 9 } && answers i { run0 with seqBc := some 9 }) &&
    hostOk midB && midStep midB && midB.mgmt.isEmpty && midB.fw.held.isEmpty && chainOn midB && midB.st.protSpad.isEmpty &&
    toMe midB rd && toMe midB wr && toMe (behind (.frame bad)) wr && !(behind (.frame bad)).mgmt.isEmpty && chainOn (behind (.frame bad)) &&
    toMe (behind (.frame bad)) bad && (behind (.frame bad)).mgmt = [.frame bad] && mine prot wr && prot.spadWin.toNat < pageCount prot &&
      prot.st.protSpad.contains prot.spadWin.toNat && prot.seqWr = none &&
    [0x00, 0x04, 0x7F].all (fun t => mine run0 (request t 1 0 0 []) && toMe midB (request t 1 0 0 []))) = true := by decide +kernel

/-- The last value that an address may have, and FULL; frames for no one, broken, truncated, and a lone symbol; before UNADDRESSED; behind
two that wait and behind an ENUM frame. -/
theorem wit_ChainForwards :
    let u : State := { run0 with core := .unaddressed, chainAddr := 0 }
    let f := request 1 2 0 4 []
    let bad := f.take 10 ++ [f.getD 10 0 + 1]
    let crc (f : List Byte) : Bool := (crc16 (f.take (f.length - 2))).toNat = (f.getD (f.length - 2) 0).toNat + (f.getD (f.length - 1) 0).toNat * 256
    let g := request 1 1 0 4 []
    let two : State := { run0 with mgmt := [.syms [0], .syms [0]] }
    let taken (s : State) (f : List Byte) : Bool :=
      (hostOk s && (f.getD 0 0).toNat < 0x80 && f.getD 0 0 ≠ 3 && s.chainAddr ≠ 0 && f.getD 1 0 = s.chainAddr) ||
      (hostOk s && f.getD 0 0 = 2 && f.getD 1 0 = 0xFF) || f.getD 0 0 = 3
    let mineB : Bool := g.length = 11 && crc g && hostOk run0 && g.getD 1 0 = run0.chainAddr
    (u.fw.held.isEmpty && u.mgmt.isEmpty && !midStep u && midStep { u with tmr := { u.tmr with progress := true } } && run0.mgmt.isEmpty &&
      !midStep run0 && two.mgmt.length = 2 && chainOn two && (behind (.enum [])).mgmt = [.enum []] && chainOn (behind (.enum [])) &&
      !taken run0 f && !taken two f && taken run0 g &&
      live u && u.core = .unaddressed && run0.cutReq.isEmpty && live run0 && mineB && run0.core ≠ .unaddressed && (0xFE : Byte) ≠ 0xFF &&
      chainOn run0 && f.length = 11 && crc f &&
      f.getD 1 0 ≠ run0.chainAddr && bad.length = 11 && !crc bad && f.getD 0 0 ≠ 3 && (f.take 9).length = 9 &&
      (request 3 0xFF 0 2 [1, 2]).length = 11 + 2 && chainOn { run0 with core := .init } &&
        chainOn { run0 with rstN := false }) = true := by decide +kernel

/-- Counters that run and counters that do not. -/
theorem wit_RegistersRead : [false, true].all (fun k => canonB { run0 with perfStop := k, perfLast := [(20, 5)] }) = true := by decide +kernel

/-- An image of one instruction and no data, some of its header fields given, with the CRC given or its own. -/
def image (magic version zr il entry dl last : Nat) (crc : Option W32) : List Byte :=
  let head := toLE 4 magic ++ toLE 2 version ++ toLE 2 zr ++ toLE 4 il ++ toLE 4 entry ++ toLE 4 dl ++ toLE 8 0x1122334455667788 ++
    List.replicate 35 0 ++ toLE 1 last ++ toLE 4 0x38000001
  head ++ toLE 4 (crc.getD (crc32c head)).toNat

/-- A download with each wrong header field, a wrong CRC, bytes out of order and beyond the image, in parts and whole; each state of the
loader; the last byte of data memory and of a page. -/
theorem wit_LoaderAndWindows :
    let s (st : FwSt) (n : Nat) : State := { run0 with core := .addressed, fw := { run0.fw with st := st, len := BitVec.ofNat 32 n } }
    let held (n : Nat) (bs : List Byte) : State := { s .busy n with fw := { (s .busy n).fw with held := [{ off := 0, data := bs, resp := [] }] } }
    let num (bs : List Byte) (o n : Nat) : Nat := ofLE ((List.range n).map (fun k => bs.getD (o + k) 0))
    let magic (bs : List Byte) : Bool := num bs 0 4 = 0x46375448
    let version (bs : List Byte) : Bool := magic bs && num bs 4 2 = 1
    let zeros (bs : List Byte) : Bool := version bs && num bs 6 2 = 0 && (List.range 36).all (fun k => bs.getD (28 + k) 0 = 0)
    let sizes (bs : List Byte) : Bool := zeros bs && num bs 8 4 % 4 = 0 && 4 ≤ num bs 8 4 && num bs 8 4 ≤ 262144 && num bs 16 4 % 4 = 0 &&
      num bs 16 4 ≤ 65536 && bs.length = 68 + num bs 8 4 + num bs 16 4
    let entry (bs : List Byte) : Bool := sizes bs && num bs 12 4 < num bs 8 4 / 4
    let crc (bs : List Byte) : Bool := crc32c (bs.take 68) = BitVec.ofNat 32 (num bs 68 4)
    let i (magic version zr il e dl last : Nat) : List Byte := image magic version zr il e dl last none
    let part : State := { s .receiving 72 with
      fw := { (s .receiving 72).fw with rcvd := 64, buf := sputs 0 [] 0 ((i 0x46375448 1 0 4 0 0 0).take 64) } }
    let good := i 0x46375448 1 0 4 0 0 0
    let page (v : BitVec 11) (ck : Bool) (g : PageSt) : State :=
      { run0 with spadWin := v, checked := ck, pages := if g = PageSt.empty then [] else [(v.toNat, g)] }
    let prot : State := { page 4 false PageSt.empty with st := { run0.st with protSpad := [4] } }
    let wait : State := { s .busy 72 with mgmt := [.write 0x300 [1, 0, 0, 0]] }
    ([s .idle 72, s .busy 71, s .busy 72, s .receiving 72, held 72 good].all hostOk && (s .busy 71).fw.held.isEmpty &&
      [run0, s .idle 72, s .busy 71, s .busy 72, s .receiving 72, part, page 1023 true PageSt.empty, page 1024 true PageSt.empty].all mcOpen &&
      [midB, wait, held 72 good].all (fun s => hostOk s && !mcOpen s) && !midStep wait && !midStep (held 72 good) && (held 72 good).mgmt.isEmpty &&
      wait.fw.held.isEmpty && !mgmtHeld wait (.write 0x300 [1, 0, 0, 0]) && midB.st.protSpad.isEmpty && run0.core ≠ .addressed &&
      answers (.imemWindowWrite 0 good) { held 72 good with fw := { (held 72 good).fw with st := .receiving, held := [] } } &&
      good.length = 72 && entry good && crc good && !crc (image 0x46375448 1 0 4 0 0 0 (some 0)) && entry (image 0x46375448 1 0 4 0 0 0 (some 0)) &&
      !magic (i 1 1 0 4 0 0 0) && magic (i 0x46375448 2 0 4 0 0 0) && !version (i 0x46375448 2 0 4 0 0 0) && version (i 0x46375448 1 0 4 0 0 1) &&
      !zeros (i 0x46375448 1 0 4 0 0 1) && zeros (i 0x46375448 1 0 8 0 0 0) && !sizes (i 0x46375448 1 0 8 0 0 0) &&
        sizes (i 0x46375448 1 0 4 1 0 0) &&
      !entry (i 0x46375448 1 0 4 1 0 0) && swf 0 part.fw.buf && part.fw.rcvd = 64 && hostOk part && [0, 64, 4].all (fun o => o + 8 ≤ 72) &&
      (page 1023 true PageSt.empty).spadWin.toNat < pageCount run0 && pageCount run0 ≤ (page 1024 true PageSt.empty).spadWin.toNat &&
      [PageSt.empty, { st := 1, prod := 0xE }, { st := 1, prod := 1 }, { st := 2, prod := 0 }].all (fun g =>
        canonB (page 1023 true g) && hostOk (page 1023 true g) && getPage (page 1023 true g) 1023 = g && (page 1023 true g).spadErr.isEmpty &&
          (page 1023 true g).wbPend.isEmpty && (page 1023 true g).st.protSpad.isEmpty) &&
      hostOk prot && prot.spadWin.toNat < pageCount prot && prot.st.protSpad.contains prot.spadWin.toNat && (page 1023 true PageSt.empty).stepSpad.isEmpty &&
      aloneB (page 1023 true PageSt.empty) && !(held 72 good).fw.held.isEmpty) = true := by decide +kernel

/-- A header word of a record. -/
def hdr (type version res len : Nat) : Nat := b type 0 + b version 8 + b res 16 + b len 32

/-- Bytes of words of a stream. -/
def stream (ws : List Nat) : List Byte := ws.flatMap (toLE 8)

/-- A whole set of an identity and a clock, with its END record, and a CRC that is its own or another. -/
def set (fid freq : Nat) (more : List Nat) (crc : Option W32) : List Byte :=
  let body := stream ([hdr 0x0E 1 0 8, fid, hdr 0x0F 1 0 8, freq] ++ more ++ [hdr 0xFF 1 0 8])
  body ++ [0, 0, 0, 0] ++ toLE 4 (crc.getD (crc32c (body ++ [0, 0, 0, 0]))).toNat

/-- The stream of a set received whole, with its records found. -/
def received (bs : List Byte) (more : List (Nat × Nat)) : Stream :=
  { bytes := bs.zipIdx.filterMap (fun e => if e.1 = 0 then none else some (e.2, e.1)), len := bs.length, recs := [(0x0E, 0), (0x0F, 16)] ++ more ++ [(0xFF, bs.length - 16)], pos := bs.length }

/-- Each state of the Proof set; a header with each fault and none, a payload part, whole, wrong, and the last of a set, with bytes after it;
a set that is good as a whole, one with a wrong CRC, one that lacks a record, and one that fails a later check. -/
theorem wit_ProofSetLoads :
    let st (p : PState) : State := { run0 with pstate := p }
    let l : State := st .loading
    let put (bs : List Byte) : Stream := { l.proof with bytes := sputs 0 [] 0 bs, len := bs.length }
    let head (bs : List Byte) : W64 := BitVec.ofNat 64 (ofLE (sgets 0 (put bs).bytes 0 8))
    let bad (bs : List Byte) : Option Nat := payloadFault l.features (fld (head bs) 0 8) (payloadWords (put bs).bytes 0)
    let fid (v : Nat) : List Byte := stream [hdr 0x0E 1 0 8, v]
    let two : List Byte := stream [hdr 0xFF 1 0 8, 0, 7]
    let full : State := { l with proof := { l.proof with len := 262140 } }
    (full.pstate = .loading && 262144 < full.proof.len + 8 && answers (.proofWindowWrite 262140 [1, 2, 3, 4]) full && mcOpen full &&
      ((after (.proofWindowWrite 0 ((fid 0x10).take 8)) l).pstate = .loading) &&
      answers (.proofWindowWrite 8 ((fid 0x10).drop 8)) (after (.proofWindowWrite 0 ((fid 0x10).take 8)) l) &&
      [PState.empty, .loading, .checking, .valid, .invalid, .pending].all (fun p => live (st p) && mcOpen (st p)) && swf 0 l.proof.bytes &&
      l.proof.len = 0 &&
      headerFault [] (head (fid 0x10)) = none && bad (fid 0x10) = none && bad (fid 0x11) = some 0x0E && (fid 0x10).length = 16 &&
      fld (head (fid 0x10)) 32 32 = 8 && fld (head two) 0 8 = 0xFF && headerFault [] (head two) = none && bad two = none && two.length = 24 &&
      [(hdr 0x0E 1 0 16, some 0x03), (hdr 0x10 1 0 8, some 0x04), (hdr 0x0E 2 0 8, some 0x05), (hdr 0x0F 1 0 8, some 0x06), (hdr 0x0E 1 1 8,
        some 0x07),
        (hdr 0x0E 1 0 8, none)].all (fun p => headerFault [(0x0F, 0)] (BitVec.ofNat 64 p.1) = p.2) &&
          answers (.proofWindowWrite 0 (fid 0x10)) l) = true := by decide +kernel

/-- After END. -/
theorem wit_ProofSetLoads_whole :
    let st (p : PState) : State := { run0 with pstate := p }
    let chk (p : Stream) : State := { st .checking with proof := p }
    let ok (p : Stream) : Bool := (BitVec.ofNat 64 (ofLE (sgets 0 p.bytes (p.len - 8) 8)) : W64).extractLsb' 32 32 = crc32c (sgets 0 p.bytes 0 (p.len - 4))
    let whole (more : List Nat) (recs : List (Nat × Nat)) : Stream := received (set 0x10 100000 more none) recs
    let rejected (p : Stream) (r t : Nat) : Bool :=
      ok p && live (chk p) && (chk p).pstate = .checking && crossFault (chk p) = some (r, t)
    (ok (whole [] []) && crossFault (chk (whole [] [])) = none && !ok (received (set 0x10 100000 [] (some 0)) []) &&
      (let bs := stream [hdr 0xFF 1 0 8]
       let bs := bs ++ [0, 0, 0, 0] ++ toLE 4 (crc32c (bs ++ [0, 0, 0, 0])).toNat
       ok { bytes := sputs 0 [] 0 bs, len := 16, recs := [(0xFF, 0)], pos := 16 }) &&
      rejected (whole [hdr 0x07 1 0 8, 0] [(0x07, 32)]) 0x08 0x07 && rejected (whole [hdr 0x02 1 0 16, 0, 0] [(0x02, 32)]) 0x0D 0x02) = true := by decide +kernel

/-- A CRC taken in two parts. -/
theorem crc_parts (bs : List Byte) (k : Nat) (m v : W32) (h : crcLsb 0x82F63B78 0xFFFFFFFF (bs.take k) = m)
    (g : ~~~ crcLsb 0x82F63B78 m (bs.drop k) = v) : crc32c bs = v := by
  have app (r : W32) (xs ys : List Byte) : crcLsb 0x82F63B78 r (xs ++ ys) = crcLsb 0x82F63B78 (crcLsb 0x82F63B78 r xs) ys := by
    induction xs generalizing r with
    | nil => rfl
    | cons x xs ih => exact ih _
  rw [crc32c, ← List.take_append_drop k bs, app, h, g]

/-- A core that checks a set with a partner, its domain where one is given, and the set's CRC. -/
def mates (fid accept : Nat) (dom : Option Nat) (crc : W32) : State :=
  let more := [hdr 0x08 1 0 32, 5, b fid 40 + b accept 2, 0, b 0x30 40 + b 7 21] ++ dom.elim [] (fun d => [hdr 0x07 1 0 8, d])
  { run0 with pstate := .checking, proof := received (set 0x10 100000 more (some crc)) ((0x08, 32) :: dom.elim [] (fun _ => [(0x07, 72)])) }

/-- A partner without a domain, one that is the core itself, and one of the core's own domain. -/
theorem wit_ProofSetLoads_partners :
    let ok (s : State) : Prop := (BitVec.ofNat 64 (ofLE (sgets 0 s.proof.bytes (s.proof.len - 8) 8)) : W64).extractLsb' 32 32 =
      crc32c (sgets 0 s.proof.bytes 0 (s.proof.len - 4))
    let a := mates 0x20 1 none 2840917647
    let c := mates 0x10 1 (some 1) 1746186105
    let d := mates 0x20 0 (some 0) 3918193523
    let cfg (s : State) : Cfg := cfgOf (pageCount s) s.proof
    let orphan (s : State) : Bool := (cfg s).domain.any (fun e => (cfg s).partner.all (fun q => q.pidx ≠ e.1))
    let alone (s : State) : Bool := (cfg s).partner.any (fun q => (cfg s).domain.all (fun e => e.1 ≠ q.pidx))
    let self (s : State) : Bool := (cfg s).partner.any (fun q => q.serial = s.serial || q.pfid = (cfg s).fid)
    let near (s : State) : Bool := (cfg s).partner.any (fun q =>
      ((cfg s).domain.find? (fun e => e.1 = q.pidx)).map (fun e => e.2) = some s.pwrdom && !q.accept)
    ok a ∧ ok c ∧ ok d ∧ ([a, c, d].all (fun s => live s && s.pstate = .checking && (recAt s.proof 0x0E).isSome && (recAt s.proof 0x0F).isSome &&
      recWords s.proof 0x02 = none && !orphan s) && alone a && !alone c && self c && !alone d && !self d && near d) = true := by
  refine ⟨Eq.trans ?_ (crc_parts _ 48 904565978 2840917647 ?_ ?_).symm, Eq.trans ?_ (crc_parts _ 48 904565978 1746186105 ?_ ?_).symm,
    Eq.trans ?_ (crc_parts _ 48 904565978 3918193523 ?_ ?_).symm, ?_⟩ <;> decide +kernel

/-- A set pending on a LOADED core, on one at quiescence with each fence, on one that is not, and within a step; one that fails each check of
the second stage, one with a partner of the core's own domain, and that behind an earlier report; a fence whose set is pending no more. -/
theorem wit_SetsSwap :
    let s (core : CoreState) (fid : Nat) (w : CtxWait) (more : List Nat) (recs : List (Nat × Nat)) : State := { run0 with
      core := core, pstate := .pending, proof := received (set fid 100000 more (some 0)) recs, cfg := { run0.cfg with fid := 0x10 },
      c0 := { run0.c0 with run := .waiting, wait := w } }
    let lay (e : Nat) : List Nat := [hdr 0x0D 1 0 16, b 64 16 + e, 9]
    let calm (s : State) : Bool := s.c0.run = .waiting && s.c0.wait = fenceKind s && s.c1.run = .halted &&
      allEngs.all (fun e => (queueOf s.c0 e).isEmpty && (queueOf s.c1 e).isEmpty) && s.running.isEmpty && s.outst.isEmpty && s.rxTab.isEmpty
    let good : State := s .running 0x10 .lfence (lay 1) [(0x0D, 32)]
    let out : State := { s .loaded 0x10 .none [hdr 0x01 1 0 64, 0, 0, 0, 0, 0, 0, 0, 0] [(0x01, 32)] with handles := [(5, buf)] }
    let fails (x : State) (r t : Nat) : Bool := canonB x && live x && x.pstate = .pending && begunB x && (after .setSwap x).pstate = .invalid &&
      (after .setSwap x).setRej.toNat / 65536 = r * 256 + t
    let two : State := { s .running 0x10 .sfence [] [] with pstate := .valid }
    let near : State := s .loaded 0x10 .none [hdr 0x08 1 0 32, 5, b 0x20 40 + b 1 2, 0, b 0x30 40 + b 7 21, hdr 0x07 1 0 8, 0] [(0x08, 32), (0x07, 72)]
    let late : State := { near with flt := { near.flt with repAck := [12] } }
    ([s .loaded 0x10 .none [] [], s .running 0x10 .sfence [] [], good].all (fun x => live x && x.pstate = .pending && canonB x && begunB x &&
        recWords x.proof 0x02 = none && (after .setSwap x).pstate = .empty) &&
      calm (s .running 0x10 .sfence [] []) && calm good && !calm (s .running 0x10 .lfence [] []) && !begunB { good with stepSets := [(1, none)] } &&
      fails (s .running 0x10 .sfence [hdr 0x02 1 0 16, 5, b 1 59 + b 4 37 + b 1 26] [(0x02, 32)]) 0x20 0x02 &&
      fails { s .running 0x10 .sfence [hdr 0x03 1 0 8, 1] [(0x03, 32)] with features := { run0.features with gang := true } } 0x21 0x03 &&
      fails (s .running 0x20 .sfence [] []) 0x22 0x0E && fails out 0x23 0x01 && fails (s .running 0x10 .lfence (lay 2) [(0x0D, 32)]) 0x24 0x0D &&
      [near, late].all (fun x => live x && x.pstate = .pending && canonB x && begunB x && recWords x.proof 0x02 = none &&
        (cfgOf (pageCount x) x.proof).partner.any (fun q => (cfgOf (pageCount x) x.proof).domain.any (fun d => d.1 = q.pidx && d.2 = x.pwrdom))) &&
      (after .setSwap near).pstate = .empty && reporting late 12 && (after .setSwap late).pstate = .pending &&
      (after .setSwap (s .loaded 0x10 .none [hdr 0x02 1 0 16, 5, b 1 59 + b 4 37 + b 1 26] [(0x02, 32)])).pstate = .empty &&
      recWords good.proof 0x0D = some [BitVec.ofNat 64 (b 64 16 + 1), 9] && recWords good.proof 0x0E = some [0x10] &&
      awake two && !two.rstDue && two.mgmt.isEmpty && two.pinA = two.linkA && two.pinB = two.linkB && (occurrences two).isEmpty && two.c0.run = .waiting &&
        two.c0.wait = .sfence) = true := by decide +kernel

/-- GO from READY, after a restore and while a context stands; each hold, and each state of a context. -/
theorem wit_HostCommands :
    let r (x : RState) : State := { run0 with core := .ready, st := { run0.st with rstate := x } }
    let free (s : State) : Bool := hostOk s && !s.flt.holdCore && !s.c0.hold && !s.c1.hold && !s.flt.resetReq && s.st.rstate ≠ .loading &&
      s.st.rstate ≠ .refused
    let halted : State := ctx0 fun x => { x with run := .halted }
    let h (core ctx fin : Bool) : State := { run0 with
      core := if core then .held else .running, c0 := { run0.c0 with hold := ctx, run := .held, saved := .waiting },
      flt := { run0.flt with holdCore := core, fin := fin } }
    let rel (s : State) : State := { s with flt := { s.flt with rel0 := true, rel1 := true, relC := true } }
    let put (a : Nat) (v : W32) : Mgmt := .write a (toLE 4 v.toNat)
    let p : State := { behind (put 0x104 4) with parked := true }
    let c : State := { behind (put 0x400 8) with pstate := .pending }
    let d : State := behind (.write (0x200000 + 65532) [1, 2, 3, 4])
    ([behind (put 0x300 5), behind (put 0x104 2), behind (put 0xC04 0x80000000), p, c, d].all (fun s => hostOk s && s.fw.held.isEmpty && s.mgmt.length = 1 && awake s && !s.rstDue && !mcOpen s) &&
      p.parked && c.pstate = .pending && canonB d && d.fw.st ≠ .busy && d.fw.st ≠ .receiving && hostOk midB && !mcOpen midB && run0.mgmt.isEmpty &&
      [r .none, r .loaded, r .loading, halted, run0, h true true false, h false true false].all (fun s => mcOpen s && s.mgmt.isEmpty &&
        s.pinA = s.linkA && s.pinB = s.linkB) &&
      run0.fw.held.isEmpty && (occurrences (h true true false)).isEmpty && !(h true true false).rstDue && !(rel (h true false true)).rstDue && (rel (h true true false)).flt.relC &&
      (occurrences (rel (h false true false))).isEmpty &&
      (rel (h true false true)).flt.reports.isEmpty && (rel (h true false true)).flt.wireDue = 0 && !(rel (h true false true)).flt.wire.getLsbD 14 &&
      free (r .none) && free (r .loaded) && !free (r .loading) && free halted && halted.c0.run = .halted && free run0 && run0.c0.run = .running &&
      !run0.parked && hostOk { run0 with parked := true } && hostOk { run0 with core := .addressed } && canonB run0 && hostOk (h false true false) &&
      (h false true false).c0.hold && hostOk (h true false false) && (h true false false).flt.holdCore && (h true true false).c0.hold &&
      (h true false true).flt.fin && effReact (h true false true) { code := fFin, rep := 14, ctx := none } = .holdCore) = true := by decide +kernel

/-- Every command bit of each register; a free entry and a used one, on a core that runs and one that does not. -/
theorem wit_HostWrites :
    let v (n : Nat) : W32 := BitVec.ofNat 32 n
    let s (c : CoreState) (u : Bool) : State := { run0 with
      core := c, handles := [(511, buf)], running := if u then [{ job .vector 0 .done with handles := [511] }] else [] }
    let word : W64 := BitVec.ofNat 64 (b 1 59 + b 1022 37 + b 2 26)
    ([1, 2, 4, 8, 16].all (fun k => (v k).extractLsb' 0 5 = BitVec.ofNat 5 k) &&
      !([0, 1, 2, 4, 8, 16] : List (BitVec 5)).contains ((v 3).extractLsb' 0 5) &&
      [1, 4, 8, 12].all (fun k => (v k).extractLsb' 0 4 = BitVec.ofNat 4 k) && (v 32).getLsbD 5 && (v 0x80000000).getLsbD 31 &&
      [1, 2, 4, 6].all (fun k => (v (b k 29)).extractLsb' 29 3 = BitVec.ofNat 3 k) &&
        mcOpen { s .addressed false with fw := { run0.fw with st := .busy } } &&
      canonB (s .ready false) && mcOpen (s .ready false) && mcOpen (s .running false) && mcOpen (s .ready true) && word.getLsbD 59 &&
        fld word 37 11 + fld word 26 11 = pageCount (s .ready false) &&
      (s .ready false).cfg.parts.getD (fld word 48 3) (0, 0) = (0, 1024) && !(getH (s .ready false) 0).valid && (getH (s .ready false) 511).valid &&
      !inUse (s .ready false) 511 && inUse (s .ready true) 511 && (List.range 512).all (fun k => k = 511 || !(getH (s .ready false) k).valid) &&
      answers (.handleWindowWrite 0 [0, 0, 0, 0]) (s .ready false)) = true := by decide +kernel

/-! ### Values of the manual's own examples -/

/-- 15 R330, 08 R202, 13 R294: the check values of the three CRCs over "123456789". -/
theorem test_crcs :
    let s : List Byte := [0x31, 0x32, 0x33, 0x34, 0x35, 0x36, 0x37, 0x38, 0x39]
    crc16 s = 0x29B1 ∧ crc32c s = 0xE3069283 ∧ crc64 s = 0x6C40DF5F0B497347 := by decide +kernel

/-- The word of "A worked fold" (03). -/
def foldWord : W128 := 0x0024118240258019007D002000000000

/-- 08, "issuing the worked-fold product": the first instruction stages bits [127:112] of e1. -/
theorem test_efldi_example :
    rdE (after (.efldi .c0 1 112 0x0024) (ins run0 0x80F00024)).c0 1 = BitVec.ofNat 128 (0x0024 * 2 ^ 112) := by decide +kernel

/-- 08, same example: the last staging instruction clears bits [31:0] of e1 from s0. -/
theorem test_efld_example :
    let s := ctx0 fun x => { x with estage := [(1, foldWord + 0xFFFFFFFF)] }
    rdE (after (.efld .c0 1 0 0 31) (ins s 0x848007C0)).c0 1 = foldWord := by decide +kernel

/-- 08, same example: ISSUE places the word in C0's matrix queue as staged. -/
theorem test_issue_example :
    let s := ctx0 fun x => { x with estage := [(1, foldWord)] }
    (queueOf (after (.issue .c0 1) (ins s 0x8C800000)).c0 .matrix).map (fun q => q.word) = [foldWord] := by decide +kernel

/-- 03, "A worked fold": the fields of its word. -/
theorem test_fold_fields :
    let p := mmaOf run0 .c0 foldWord
    wEng foldWord = 0 ∧ wOp foldWord = 2 ∧ wWV foldWord = true ∧ wFlag foldWord = 0x011 ∧ foldWord.getLsbD 103 = true ∧ fld foldWord 93 10 = 0x012 ∧
      p.m = 300 ∧ p.n = 200 ∧ p.k = 1000 ∧ fld foldWord 37 4 = 1 ∧ p.base = 0 ∧ p.dst = false ∧ p.accum = false := by decide +kernel

/-- 02, the worked BS16 encode: 5.25, -0.001, 1.0. -/
theorem test_bs16_example :
    (bsEncode (([0x40A80000, 0xBA83126F, 0x3F800000] ++ List.replicate 29 0 : List W32).map dec32)).1 =
      [0x81, 0x00, 0x00, 0x54, 0xFC, 0xFF, 0x00, 0x10] ++ List.replicate 58 0 := by decide +kernel

/-- 02, "A tracked cast": the advance proposes 6, and the cast of 3.1 gives 0x74, which a consumer reads as 192. -/
theorem test_tracked_cast :
    propK 3 (dec32 0x40466666) - 1 = 6 ∧ (cvt 3 false (scaleN (dec32 0x40466666) 6)).code = 0x74 ∧
      rne32 (decodeElem 3 0x74) = 0x43400000 := by decide +kernel

/-- 01, "a reduction hop": halfway sums round to even. -/
theorem test_halfway_sum : fadd (fadd 0x3F800000 0x33800000) 0x33800000 = 0x3F800000 ∧ fadd (fadd 0x33800000 0x33800000) 0x3F800000 = 0x3F800001 := by
  decide +kernel

/-- 04, "touched rows": v1 holds the row IDs, v4 the gradients; m1 and m2 the heads and the tails. -/
def touched (w : W128) : State :=
  let x := eng run0 .vector w
  let v := sputs 0 [] 4096 ([17, 17, 40, 40, 40, 93, 205, 205].flatMap (toLE 4))
  { x with c0 := { x.c0 with
      vregs := sputs 0 v 16384 ([0x3F000000, 0x3E800000, 0x3F800000, 0xC0000000, 0x3E000000, 0x40400000, 0xBF400000, 0x3F000000].flatMap (toLE 4)),
      masks := [(1, 0x65), (2, 0xB2)], regs := [(9, 0xFFFFFFFF)] } }

/-- Elements of a register of the touched rows after a word. -/
def elems (i : W128 → Instr) (w : W128) (r n : Nat) : List Nat := (List.range n).map (getE (after (i w) (touched w)).c0 12 r)

/-- 04, same example, step 1: VSLIDE by 1 with the null fill. -/
theorem test_vslide_example : elems (.vslide .c0) (word 1 0x1B (b 2 88 + b 1 83 + b 12 65 + b 9 59 + b 8 47 + b 1 35)) 2 8 =
    [0xFFFFFFFF, 17, 17, 40, 40, 40, 93, 205] := by decide +kernel

/-- 04, same example, step 3: the segmented scan. -/
theorem test_vscan_example : elems (.vscan .c0) 0x12100088062000000004240000000000 6 8 =
    [0x3F000000, 0x3F400000, 0x3F800000, 0xBF800000, 0xBF600000, 0x40400000, 0xBF400000, 0xBE800000] := by decide +kernel

/-- 04, same example, step 4: VCOMPRESS under the tails. -/
theorem test_vcompress_example : elems (.vcompress .c0) (word 1 0x1D (b 7 88 + b 1 83 + b 1 72 + b 2 69 + b 12 65 + b 9 59 + b 8 47)) 7 8 =
    [17, 40, 93, 205, 0xFFFFFFFF, 0xFFFFFFFF, 0xFFFFFFFF, 0xFFFFFFFF] := by decide +kernel

/-- 04, same example, step 5: VRED COUNT under the tails. -/
theorem test_vred_example : elems (.vred .c0) (word 1 0x20 (b 10 88 + b 1 83 + b 1 72 + b 2 69 + b 12 65 + b 8 47 + b 4 44)) 10 1 = [4] := by decide +kernel

/-- 04 R103: the uniform value of the raw word 0xC0FF_EE12. -/
theorem test_vrand_uniform : rne32 (.fin false ((0xC0FFEE12 : Nat) / 256) (-24)) = 0x3F40FFEE := by decide +kernel

/-- 05, "the pre-attention norm": the fields of its word. -/
theorem test_row_fields :
    let w : W128 := 0x2024208421000180000000801BC04000
    wEng w = 2 ∧ wOp w = 0x02 ∧ wWV w = true ∧ wFlag w = 0x020 ∧ rROWS w = 2048 ∧ rLEN w = 6144 ∧ rSX w = 0 ∧ rSY w = 1 ∧ rBASE w = 0 ∧
      rSTW w = true ∧
      rPARAM w = 0x37800000 := by decide +kernel

/-- 06, "accumulating a gradient shard": Allocate of handle 0x03A whose generation was 4. -/
theorem test_halloc_example :
    let s : State := { run0 with handles := [(0x03A, { Handle.zero with gen := 4 })] }
    let t := applyHandleOp s { ctx := .c0, op := 0, rd := 0, a := 0x03A, b := BitVec.ofNat 32 (0x140 + b 16 11 + b 1 27) }
    readReg t 0x83A0 = 0x40000000 ∧ readReg t 0x83A4 = 0x59002800 := by decide +kernel

/-- 07, "pushing a BS16 gradient slot": the fields of its descriptor and of its word. -/
theorem test_descriptor_example :
    let d := descOf [0x024100002000C000, 0x1D28000000000000, 0, 0, 0x014D10611C800000, 0x31800, 0, 0]
    let w : W128 := 0x3014F09E314000000000000000000000
    d.sk = 0 ∧ d.tk = 2 ∧ d.conv = 1 ∧ d.fp = 2 ∧ d.rows = 1 ∧ d.rlen = 0x600 ∧ d.sh = 0x03A ∧ d.sgen = 5 ∧ d.tfid = 0x014D10 ∧ d.wh = 0x0C2 ∧
      d.whgen = 3 ∧ d.wgen = 9 ∧ d.taddr = 0x31800 ∧ d.tlen = 101376 ∧ wEng w = 3 ∧ wOp w = 1 ∧ fld w 91 2 = 2 ∧
        fld w 81 10 = 0x0A0 := by decide +kernel

/-- 16, the first flit of that transfer. -/
theorem test_window_flit :
    let d : List W64 := [0x024100002000C000, 0x1D28000000000000, 0, 0, 0x014D10611C800000, 0x31800, 0, 0]
    let s : State := { run0 with
      cfg := { run0.cfg with fid := 0x014D30 },
      running := [job .dma 0 (.xfer { xfer d .data [.win 0x31800 (List.replicate 64 0)] 1 with ch := 2 })] }
    (after (.winWrSend 2 0) s).faTx.map (fun f => (f.route, f.hdr)) = [(0x014D10014D30, 0x5801018472000C600000C600004A3FF0)] := by decide +kernel

/-- 13, "a snapshot and its restore": slot 1 and the P area of a partner of RBASE 0x1_2C00_0000 and RLEN 9. -/
theorem test_slot_places :
    let s : State := { run0 with cfg := { run0.cfg with partner := [{ partner 0 9 with rbase := 0x12C000000 }] } }
    slotPlace s true = some (0x30, 0x12C800000, 4) ∧ pAreas s = [(0x30, 0x12D000000)] := by decide +kernel

/-- 14, "a Rest interval": its first phase. -/
theorem test_fault_example :
    let s : State := { run0 with flt := { run0.flt with reports := [{ code := fSpadCe, rep := 8, ctx := none }] } }
    let t := after (.step false 1 []) s
    readReg t 0x840 = 0x80008001 ∧ readReg t 0x84C = 1 ∧ readReg t 0x820 = 2 ∧ t.flt.out = false := by decide +kernel

/-- 17, "first contact with a core": the Identity block, and its answer on the chain. -/
theorem test_identity_example :
    let s : State := { run0 with chainAddr := 5, serial := 0x3A5C91E20417002D, cfg := { run0.cfg with fid := 0x04A450 } }
    let body : List Byte := [0x81, 0x05, 0x21, 0x01, 0, 0, 0, 0x1C, 0, 0x00, 0x07, 0x4B, 0x48, 0x00, 0x02, 0x07, 0x00, 0x75, 0, 0, 0, 0x2D, 0x00,
      0x17, 0x04,
      0xE2, 0x91, 0x5C, 0x3A, 0x05, 0, 0, 0, 0x50, 0xA4, 0x04, 0x00]
    (after (.rd (frame [0x01, 0x05, 0x21, 0, 0, 0, 0, 0x1C, 0])) s).mcOut.map (fun x => x.extractLsb' 0 8) = frame body := by decide +kernel

/-- 01 R17, 08 R178: a write of s0 is discarded, and sums wrap. -/
theorem test_add_wraps :
    rdS (after (.add .c0 2 1 1) (ins (reg1 0xFFFFFFFF) 0x00410800)).c0 2 = 0xFFFFFFFE ∧
      rdS (after (.add .c0 0 1 1) (ins (reg1 7) 0x00010800)).c0 0 = 0 := by
  decide +kernel

end Sys2Proof.Tests
end

section
/-! Form A words that write elements of their context's vector bank: where the common checks pass, the word runs to its end, and
the elements it lists hold their new codes (04 R84, R86-R88). O29 follows word by word. -/

namespace Sys2Proof.Machine

section

variable {s : State} {c : Ctx} {w : W128} {op resv : Nat} {fmts : List Nat}

theorem anyBit_lowMask (w : W128) (n : Nat) : anyBit w (lowMask n) = decide (w.toNat % 2 ^ n ≠ 0) := by
  rw [anyBit, lowMask, Nat.and_two_pow_sub_one_eq_mod]

/-- Of FP32, BF16 and INT32 a register holds no more elements than a mask has bits. -/
theorem viewCap_le_maskCap {f : Nat} (h : f ∈ [0, 1, 12]) : f ≤ 12 ∧ viewCap f ≤ maskCap := by
  simp only [List.mem_cons, List.not_mem_nil, or_false] at h
  rcases h with rfl | rfl | rfl <;> exact ⟨by decide, by decide⟩

/-- The checks of a word that has no condition of its own pass where form A's do (04 R88). -/
theorem firstFault_plainChk {allow : Nat → Bool} {forbid : Bool} (h : FormA s c w op resv fmts)
    (hf : ∀ f ∈ fmts, allow f = true ∧ f ∈ [0, 1, 12]) (hb : forbid = false) :
    firstFault (vChecks s w { plainChk allow with resv := lowMask resv, forbid := forbid }) = none := by
  obtain ⟨-, hz, hm, hon, hl⟩ := h
  obtain ⟨ha, hm⟩ := hf _ hm
  obtain ⟨h12, hcap⟩ := viewCap_le_maskCap hm
  have hcode : anyBit w (lowMask resv) = false := by simp [anyBit_lowMask, hz]
  have hfmt : fmtOn s (vFMT w) = true := by simp [fmtOn, bit, h12, hon]
  have hview : ¬ viewCap (vFMT w) < vVL w := Nat.not_lt.2 hl
  have hmask : ¬ maskCap < vVL w := Nat.not_lt.2 (Nat.le_trans hl hcap)
  simp [vChecks, firstFault, plainChk, hcode, hb, hfmt, ha, hview, hmask]

theorem firstFault_forbidden {k : VChk} (h : k.forbid = true) : firstFault (vChecks s w k) = some fOpcode := by
  simp [vChecks, firstFault, h]

/-- A word without places meets no other (01 R26). -/
theorem foes_nil (s : State) (q : Option (Eng × Ctx)) (id : Option Nat) : foes s q id [] = [] := by
  simp [foes, clashes]

/-- A form A word whose checks pass runs on its context's bank. -/
theorem formAWord_run {k : VChk} {f : Context → Context} (h : Starts s c .vector w op) (hk : firstFault (vChecks s w k) = none) :
    formAWord s c w op k f = .next (bankRun c w f (ran s c .vector w [] .done [])).s := by
  have hrun : (bankRun c w f (ran s c .vector w [] .done [])).s.flt.reports = s.flt.reports := by
    unfold bankRun sure
    split <;> cases c <;> rfl
  exact engineWord_run h (beginWord_start hk rfl rfl) rfl hrun (foes_nil _ _ _)

theorem formAWord_refused {k : VChk} {f : Context → Context} {code : Nat} {i : Instr} (hi : exec i s = formAWord s c w op k f)
    (h : Starts s c .vector w op) (hk : firstFault (vChecks s w k) = some code) : Refuses i s c .vector code :=
  hi.trans (engineWord_refused h (beginWord_own hk))

/-! ### Elements written -/

/-- Where VL = 0 the word does nothing, which is what it does to a bank of which it names no element (04 R87). -/
theorem bankRun_state {f : Context → Context} (h : vVL w = 0 → f (getCtx s c) = getCtx s c) :
    (bankRun c w f s).s = modCtx s c f := by
  unfold bankRun sure
  by_cases hz : vVL w = 0
  · rw [if_pos hz, modCtx, h hz]
    cases c <;> rfl
  · rw [if_neg hz]

/-- A state whose context's bank alone changes: the elements of the listed numbers hold their new codes, and every other keeps its
contents. -/
theorem fills_putEs {s t : State} {c : Ctx} {f r : Nat} {l : List Nat} {g v : Nat → Nat} {P : Nat → Prop} [DecidablePred P]
    {h : Context → Context} (hx : swf 0 (getCtx t c).vregs = true) (hst : (getCtx t c).vregs = (getCtx s c).vregs)
    (hh : h (getCtx t c) = putEs (getCtx t c) f r (l.map fun j => (j, g j)))
    (hl : ∀ j, j ∈ l ↔ P j) (hP : ∀ j, P j → j < viewCap f) (hv : ∀ j, P j → g j % 2 ^ fmtBits f = v j % 2 ^ fmtBits f) :
    Fills s (modCtx t c h) t c f r fun j => if P j then some (v j) else none := by
  refine ⟨?_, fun q j _ hj => ?_⟩
  · rw [modCtx_same, hh, ← putEs_rest, modCtx, hh]
  · have hold : getE (getCtx t c) f q j = getE (getCtx s c) f q j := by rw [getE, hst, getE]
    rw [modCtx_same, hh, getE_putEs g hj l _ hx fun i hi => hP i ((hl i).1 hi), hold]
    by_cases hq : q = r
    · by_cases hp : P j
      · simp [hq, hl, hp, hv]
      · simp [hq, hl, hp]
    · simp [hq]

/-- The form A word `w` writes the elements for which `new` gives a code; every other element, and all but the bank, stands as the word's
start leaves it (04 R84). -/
def WritesBank (i : Instr) (s : State) (c : Ctx) (w : W128) (new : Nat → Option Nat) : Prop :=
  Answers i s fun t => Fills s t (ran s c .vector w [] .done []) c (vFMT w) (vVD w) new

/-- A form A word that writes the elements listed in `l`, which are those of `P`, each its code of `g`, which the register holds as
`v`. -/
theorem formAWord_fills {k : VChk} {f : Context → Context} {i : Instr} {l : List Nat} {g v : Nat → Nat} {P : Nat → Prop} [DecidablePred P]
    (hc : Canon s) (h : FormA s c w op resv fmts) (hi : exec i s = formAWord s c w op k f) (hk : firstFault (vChecks s w k) = none)
    (hf : f (popped (getCtx s c) .vector) = putEs (popped (getCtx s c) .vector) (vFMT w) (vVD w) (l.map fun j => (j, g j)))
    (hl : ∀ j, j ∈ l ↔ P j) (hP : ∀ j, P j → j < vVL w) (hv : ∀ j, P j → g j % 2 ^ fmtBits (vFMT w) = v j % 2 ^ fmtBits (vFMT w)) :
    WritesBank i s c w fun j => if P j then some (v j) else none := by
  obtain ⟨hs, -, -, -, hcap⟩ := h
  have hx : swf 0 (popped (getCtx s c) .vector).vregs = true := by
    obtain ⟨-, -, -, -, hbank, -⟩ := canon_getCtx hc c
    exact hbank
  have hnone : vVL w = 0 → l = [] := fun hz =>
    List.eq_nil_iff_forall_not_mem.2 fun j hj => absurd (hP j ((hl j).1 hj)) (by omega)
  rw [← ran_getCtx s c .vector w [] .done []] at hf hx
  refine ⟨_, hi.trans (formAWord_run hs hk), ?_⟩
  rw [bankRun_state fun hz => by rw [hf, hnone hz]; rfl]
  exact fills_putEs hx (by rw [ran_getCtx, popped_vregs]) hf hl (fun j hj => Nat.lt_of_lt_of_le (hP j hj) hcap) hv

theorem mem_actives (x : Context) (w : W128) (j : Nat) : j ∈ actives x w ↔ Active x w j := by
  simp only [actives, activeE, bit, List.mem_filter, List.mem_range, Active, Bool.or_eq_true, Bool.not_eq_true']
  cases vME w <;> simp

/-- A form A word that writes its active elements (04 R86). -/
theorem formAWord_fills_active {k : VChk} {f : Context → Context} {i : Instr} {g v : Nat → Nat} (hc : Canon s) (h : FormA s c w op resv fmts)
    (hi : exec i s = formAWord s c w op k f) (hk : firstFault (vChecks s w k) = none)
    (hf : f (popped (getCtx s c) .vector) =
      putEs (popped (getCtx s c) .vector) (vFMT w) (vVD w) ((actives (getCtx s c) w).map fun j => (j, g j)))
    (hv : ∀ j, Active (getCtx s c) w j → g j % 2 ^ fmtBits (vFMT w) = v j % 2 ^ fmtBits (vFMT w)) :
    WritesBank i s c w fun j => if Active (getCtx s c) w j then some (v j) else none :=
  formAWord_fills hc h hi hk hf (mem_actives _ _) (fun _ hj => hj.1) hv

/-- A form A word that writes every element below VL, its mask a source (04 R94). -/
theorem formAWord_fills_all {k : VChk} {f : Context → Context} {i : Instr} {g v : Nat → Nat} (hc : Canon s) (h : FormA s c w op resv fmts)
    (hi : exec i s = formAWord s c w op k f) (hk : firstFault (vChecks s w k) = none)
    (hf : f (popped (getCtx s c) .vector) =
      putEs (popped (getCtx s c) .vector) (vFMT w) (vVD w) ((List.range (vVL w)).map fun j => (j, g j)))
    (hv : ∀ j, j < vVL w → g j % 2 ^ fmtBits (vFMT w) = v j % 2 ^ fmtBits (vFMT w)) :
    WritesBank i s c w fun j => if j < vVL w then some (v j) else none :=
  formAWord_fills hc h hi hk hf (fun _ => List.mem_range) (fun _ hj => hj) hv

/-! ### VSEL and VSPLAT (04 R94) -/

theorem vsel_writes (hc : Canon s) (h : FormA s c w 0x19 47 [0, 1, 12]) (hm : vME w = true) :
    WritesBank (.vsel c w) s c w fun j =>
      if j < vVL w then some (if (getM (getCtx s c) (vMS w)).getLsbD j then srcB (getCtx s c) w j else srcA (getCtx s c) w j)
      else none :=
  formAWord_fills_all hc h rfl (firstFault_plainChk h (by decide) (by rw [hm]; rfl)) rfl fun _ _ => rfl

theorem vsplat_writes (hc : Canon s) (h : FormA s c w 0x1E 47 [0, 1, 12]) :
    WritesBank (.vsplat c w) s c w fun j => if Active (getCtx s c) w j then some (vScalar (getCtx s c) w) else none :=
  formAWord_fills_active hc h rfl (firstFault_plainChk h (by decide) rfl) rfl fun _ _ => rfl

/-! ### VSLIDE (04 R94) -/

/-- How far VSLIDE moves elements up (04 R94). -/
def slideBy (w : W128) : Int := (BitVec.ofNat 12 (w.toNat / 2 ^ 35)).toInt

theorem signed_slideBy (w : W128) : signed 12 (fld w 35 12) = slideBy w := by
  rw [signed, fld, slideBy, Nat.shiftRight_eq_div_pow]
  congr 1
  exact BitVec.eq_of_toNat_eq (by simp)

theorem vslide_writes (hc : Canon s) (h : FormA s c w 0x1B 35 [0, 1, 12]) :
    WritesBank (.vslide c w) s c w fun j =>
      if Active (getCtx s c) w j then
        some (if 0 ≤ (j : Int) - slideBy w ∧ ((j : Int) - slideBy w).toNat < vVL w then srcA (getCtx s c) w ((j : Int) - slideBy w).toNat
              else vScalar (getCtx s c) w)
      else none := by
  refine formAWord_fills_active hc h rfl (firstFault_plainChk h (by decide) rfl) rfl fun j _ => ?_
  have hin : (0 ≤ (j : Int) - slideBy w ∧ (j : Int) - slideBy w < (vVL w : Int)) ↔
      (0 ≤ (j : Int) - slideBy w ∧ ((j : Int) - slideBy w).toNat < vVL w) := by omega
  simp only [signed_slideBy, Bool.and_eq_true, decide_eq_true_eq, hin]
  rfl

/-! ### VIOTA (04 R94) -/

theorem viota_writes (hc : Canon s) (h : FormA s c w 0x1C 47 [12]) :
    WritesBank (.viota c w) s c w fun j => if Active (getCtx s c) w j then some ((rdS (getCtx s c) (vSB w)).toNat + j) else none := by
  have hf : vFMT w = 12 := by
    obtain ⟨-, -, hm, -⟩ := h
    exact List.mem_singleton.1 hm
  refine formAWord_fills_active hc h rfl (firstFault_plainChk h (by decide) rfl) (by rw [hf]; rfl) fun j _ => ?_
  rw [hf, BitVec.toNat_add, BitVec.toNat_ofNat]
  show ((rdS (getCtx s c) (vSB w)).toNat + j % 2 ^ 32) % 2 ^ 32 % 2 ^ 32 = ((rdS (getCtx s c) (vSB w)).toNat + j) % 2 ^ 32
  omega

/-! ### VCOMPRESS (04 R94) -/

/-- Elements that a mask picks, in ascending order. -/
def maskPicked (x : Context) (w : W128) : List Nat := (List.range (vVL w)).filter fun j => (getM x (vMS w)).getLsbD j

theorem actives_masked (x : Context) (hm : vME w = true) : actives x w = maskPicked x w := by
  unfold actives maskPicked
  congr 1
  funext j
  simp [activeE, hm, bit]

theorem getD_map_eq_ite {α β : Type} (f : α → β) (l : List α) (i : Nat) (d : α) (e : β) :
    (l.map f).getD i e = if i < l.length then f (l.getD i d) else e := by
  by_cases hi : i < l.length
  · simp [hi]
  · simp [hi]

theorem vcompress_writes (hc : Canon s) (h : FormA s c w 0x1D 47 [0, 1, 12]) (hm : vME w = true) :
    WritesBank (.vcompress c w) s c w fun j =>
      if j < vVL w then
        some (if j < (maskPicked (getCtx s c) w).length then srcA (getCtx s c) w ((maskPicked (getCtx s c) w).getD j 0)
              else vScalar (getCtx s c) w)
      else none := by
  refine formAWord_fills_all hc h rfl (firstFault_plainChk h (by decide) (by rw [hm]; rfl)) rfl fun j _ => ?_
  rw [getD_map_eq_ite _ _ _ 0, actives_masked _ hm]
  rfl

/-! ### VRAND (04 R102, R103) -/

/-- The four output words of element `j`'s own counter (04 R102). -/
def drawn (x : Context) (w : W128) (j : Nat) : W32 × W32 × W32 × W32 :=
  philox 10 (rdS x (fld w 25 5) + BitVec.ofNat 32 j, rdS x (fld w 35 5), rdS x (fld w 30 5), rdS x (fld w 30 5 + 1))
    (rdS x (fld w 40 5)) (rdS x (fld w 40 5 + 1))

@[simp] theorem rdS_popped (x : Context) (e : Eng) (n : Nat) : rdS (popped x e) n = rdS x n := rfl

@[simp] theorem randWord_popped (x : Context) (e : Eng) (w : W128) (j : Nat) : randWord (popped x e) w j = randWord x w j := by
  simp only [randWord, rdS_popped]

theorem randWord_eq_getD (x : Context) (w : W128) (j : Nat) :
    randWord x w j = [(drawn x w j).1, (drawn x w j).2.1, (drawn x w j).2.2.1, (drawn x w j).2.2.2].getD (fld w 45 2) 0 := by
  have hsel : fld w 45 2 < 4 := Nat.mod_lt _ (by decide)
  unfold randWord drawn
  dsimp only
  generalize philox 10 _ _ _ = o
  generalize fld w 45 2 = sel at hsel
  match sel, hsel with
  | 0, _ => rfl
  | 1, _ => rfl
  | 2, _ => rfl
  | 3, _ => rfl

theorem vrand_writes (hc : Canon s) (h : FormA s c w 0x30 25 [0, 12]) (hk : fld w 40 5 ≠ 31) (hq : fld w 30 5 ≠ 31) :
    WritesBank (.vrand c w) s c w fun j =>
      if Active (getCtx s c) w j then
        some (if vFMT w = 12 then (randWord (getCtx s c) w j).toNat
              else (rne32 (.fin false ((randWord (getCtx s c) w j).toNat / 256) (-24))).toNat)
      else none := by
  refine formAWord_fills_active hc h rfl (firstFault_plainChk h (by decide) (by simp [hk, hq])) rfl fun j _ => ?_
  rw [randWord_popped, Nat.shiftRight_eq_div_pow]

theorem vrand_refused (h : FormA s c w 0x30 25 [0, 12]) (hp : fld w 40 5 = 31 ∨ fld w 30 5 = 31) :
    Refuses (.vrand c w) s c .vector fOpcode := by
  obtain ⟨hs, -⟩ := h
  exact formAWord_refused rfl hs (firstFault_forbidden (by simpa using hp))

end

/-- Settles O29: each word runs as a form A word over the bank, and writes the elements that its rule names. -/
theorem vectorRearranges : Obligations.VectorRearranges := by
  unfold Obligations.VectorRearranges
  intro s c w hc
  refine ⟨fun h hm => vsel_writes hc h hm, fun h => vslide_writes hc h, fun h => viota_writes hc h,
    fun h hm => vcompress_writes hc h hm, fun h => vsplat_writes hc h, fun h hk hq => ?_, fun h hp => vrand_refused h hp⟩
  have hdraw := vrand_writes hc h hk hq
  simp only [randWord_eq_getD] at hdraw
  exact hdraw

end Sys2Proof.Machine
end

section
/-! EFLDI and EFLD (08 R182, R185): the staging register holds the field that the instruction names, and its other bits as they were; with
its old contents not yet available the instruction waits, and a field beyond bit 127 makes it illegal. O14 follows clause by clause. -/

namespace Sys2Proof.Machine

/-! ### A field replaced -/

/-- The mask with which a field is replaced has the field's bits set. -/
theorem getLsbD_fieldMask (n lo len k : Nat) :
    (BitVec.ofNat n ((2 ^ len - 1) <<< lo)).getLsbD k = decide (k < n ∧ lo ≤ k ∧ k < lo + len) := by
  rw [BitVec.getLsbD_ofNat, Nat.testBit_shiftLeft, Nat.testBit_two_pow_sub_one, Bool.eq_iff_iff]
  simp only [Bool.and_eq_true, decide_eq_true_eq, ge_iff_le]
  omega

theorem getLsbD_setFld {n : Nat} (w : BitVec n) (lo len v k : Nat) (hk : k < n) :
    (setFld w lo len v).getLsbD k = if lo ≤ k ∧ k < lo + len then v.testBit (k - lo) else w.getLsbD k := by
  unfold setFld
  rw [BitVec.getLsbD_or, BitVec.getLsbD_and, BitVec.getLsbD_and, BitVec.getLsbD_not, getLsbD_fieldMask, BitVec.getLsbD_ofNat,
    Nat.testBit_shiftLeft]
  by_cases hf : lo ≤ k ∧ k < lo + len
  · simp [hk, hf]
  · simp [hk, hf]

/-! ### The words of the two instructions -/

section

variable {s : State} {c : Ctx} {ed : BitVec 3} {pos : BitVec 7} {imm : BitVec 16} {ra lenm1 : BitVec 5}

/-- An instruction of a legal word waits while a source of it is not available, and the state stays as it is (08 R180). -/
theorem runInsn_waits {w : W32} {srcs : List Nat} {eff : State → Context → Eff} (hl : legalWord w = true)
    (hs : srcsReady s (getCtx s c) srcs = false) : runInsn s c w srcs eff = .next s := by
  simp [runInsn, operandFault, hl, hs]

theorem exec_efldi_word : exec (.efldi c ed pos imm) s =
    runInsn s c (0x20#6 ++ ed ++ pos ++ imm) [eKey ed.toNat] fun t x =>
      .go (setStage t c ed (setFld (rdE x ed.toNat) pos.toNat 16 imm.toNat) 1) := by
  rw [exec_efldi, execEfldi, encEI_fields]

theorem exec_efld_word : exec (.efld c ed pos ra lenm1) s =
    runInsn s c (0x21#6 ++ ed ++ pos ++ ra ++ lenm1 ++ 0#6) [ra.toNat, eKey ed.toNat] fun t x =>
      .go (setStage t c ed (setFld (rdE x ed.toNat) pos.toNat (lenm1.toNat + 1) (rdS x ra.toNat).toNat) 1) := by
  rw [exec_efld, execEfld, encER_fields]

/-- EFLDI's word is legal exactly where its field ends within the staging register (08 R185). -/
theorem legalWord_efldi : legalWord (0x20#6 ++ ed ++ pos ++ imm : W32) = decide (pos.toNat ≤ 112) := by
  obtain ⟨hop, hpos, -⟩ := fld_encEI (op := 0x20) (ed := ed) (pos := pos) (imm := imm) (by decide)
  rw [← encEI_fields]
  simp [legalWord, hop, hpos]

/-- EFLD's word is legal exactly where its field ends within the staging register (08 R185). -/
theorem legalWord_efld :
    legalWord (0x21#6 ++ ed ++ pos ++ ra ++ lenm1 ++ 0#6 : W32) = decide (pos.toNat + (lenm1.toNat + 1) ≤ 128) := by
  obtain ⟨hop, hpos, hlen, hresv⟩ := fld_encER (op := 0x21) (ed := ed) (pos := pos) (ra := ra) (l := lenm1) (by decide)
  rw [← encER_fields]
  simp [legalWord, hop, hpos, hlen, hresv, Nat.add_assoc]

end

/-- Settles O14: both instructions put a field into the old contents of e[ED]; which of the outcomes applies is the legality of the word
and the readiness of its sources. -/
theorem stagingFields : Obligations.StagingFields := by
  unfold Obligations.StagingFields
  intro s c ed pos imm ra lenm1 hc
  refine ⟨fun hp => ⟨_, fun k hk => getLsbD_setFld _ _ _ _ k hk, ?_⟩, fun hp => ⟨_, fun k hk => getLsbD_setFld _ _ _ _ k hk, ?_⟩,
    fun hp _ _ hs => ?_, fun hp _ _ hs => ?_, fun hp hi hf => ?_, fun hp hi hf => ?_⟩
  · exact stageResult_of exec_efldi_word (legalWord_efldi.trans (decide_eq_true hp)) rfl hc
  · exact stageResult_of exec_efld_word (legalWord_efld.trans (decide_eq_true hp)) rfl hc
  · exact exec_efldi_word.trans (runInsn_waits (legalWord_efldi.trans (decide_eq_true hp)) hs)
  · exact exec_efld_word.trans (runInsn_waits (legalWord_efld.trans (decide_eq_true hp)) hs)
  · exact traps_trapped
      (exec_efldi_word.trans (runInsn_illegal (legalWord_efldi.trans (decide_eq_false (Nat.not_le.2 hp))) hi hf))
  · exact traps_trapped
      (exec_efld_word.trans (runInsn_illegal (legalWord_efld.trans (decide_eq_false (Nat.not_le.2 hp))) hi hf))

end Sys2Proof.Machine
end
